-- ==== Sys2Proof/Word.lean ====
section
/-! DEFINITION. The words of the Idorzan accelerator: bytes, halves, words, doublewords and vectors (R3, R14). -/

namespace Sys2Proof

/-- One byte of memory. -/
abbrev Byte := BitVec 8
/-- 16 bits: a BF16 or FP16 value, a context ID, a nest extent. -/
abbrev Half := BitVec 16
/-- 32 bits: a scalar register, a control register, a code word (R14). -/
abbrev Word := BitVec 32
/-- 64 bits: a pair, a mask, an address (R14, R22). -/
abbrev DWord := BitVec 64
/-- 512 bits: a vector register (R14). -/
abbrev Vec := BitVec 512

end Sys2Proof
end

