-- ==== Sys2Proof/Config.lean ====
section
/-! DEFINITION. What the spec leaves open or what one implementation fixes: constants with no body.
No proof can see a value of any of them, so a statement holds whatever they are. -/

namespace Sys2Proof

/-- What an aligned 8-byte unit of a management-class target names (R312): of a core its scratchpad, the registers of a firing (`f` is 0 for the one that
runs, 1 for one that is preempted, 2 and up for the parked ones) or of the resident context in a slot (control registers by their numbers, with the firing, the slot or neither as R272 says by what each is held; a queue
q4–q15 gives its QSTAT word, then its ring), an operand slot, a barrier (R204), a handler entry (R177), the error log (R140), EINJ (R139), a route-class entry (R220); of a tile a channel entry
(R146), a territory register (R250) or THAWCFG (R153); a drift parameter (R251); a fence counter (R284); nothing. (DESIGN CHOICE, log 40.) -/
inductive Resource
  | scratch (core off : Nat)
  | scalar (core f n : Nat)
  | mask (core f n : Nat)
  | index (core f n : Nat)
  | pc (core f : Nat)
  | payload (core f i : Nat)
  | csr (core i n : Nat)
  | vector (core slot n i : Nat)
  | acc (core slot n i : Nat)
  | queue (core slot q i : Nat)
  | slot (core slot n i : Nat)
  | barrier (core n i : Nat)
  | handler (core i : Nat)
  | errlog (core i u : Nat)
  | einj (core : Nat)
  | route (core i : Nat)
  | channel (tile i u : Nat)
  | terid (tile : Nat)
  | termsk (tile : Nat)
  | tersz (tile : Nat)
  | terdm (tile : Nat)
  | terpr (tile : Nat)
  | terfl (tile : Nat)
  | thawcfg (tile : Nat)
  | driv | drthr | drhold | vacb
  | fence (f : Nat)
  | absent
deriving DecidableEq, Repr, Inhabited

namespace Config

/-- Which of the enabled agents moves next (DESIGN CHOICE, log 3): the spec orders agents only by enabling conditions. -/
opaque pick : Nat → Nat
/-- Cycles that pass in a step beyond the first (log 4; R316 and the latency tables are timing). -/
opaque cost : Nat → DWord
/-- A 32-bit value the spec does not state (DESIGN CHOICE, log 10). -/
opaque word : Nat → Word
/-- A byte value the spec does not state. -/
opaque byte : Nat → Byte
/-- Which line the configuration cache gives up when it is full (log 11, R187). -/
opaque evict : Nat → Nat
/-- Which streamer owns a 64 KiB page of memory (R237, R314), which the spec does not state (DESIGN CHOICE, log 51). -/
opaque streamerOf : Nat → BitVec 9
/-- How many requests the deposit path and the atomic agent of a core, or of a streamer, hold at once (R181, R219), which the spec does not
state (DESIGN CHOICE, log 52). -/
opaque agentBuffer : Nat
/-- Whether a held barrier effect reaches the barrier agent in the cycle of the one before it (R206, R231; DESIGN CHOICE, log 53). -/
opaque sameCycle : Nat → Bool
/-- Whether a read of a word loses its bank while the other banks of its group are idle, so that it may be a mirage read (R130, R132); which bank
requests of a loader's step lose to a higher class (R10, R130): neither is fixed by the spec's order of events (DESIGN CHOICE, log 28). -/
opaque mirage : Nat → Nat → Bool
opaque bankLost : Nat → Nat → Bool
/-- Whether released stores of the owning core reach their banks between the read and the write of an agent's step there (R130; DESIGN CHOICE, log 71). -/
opaque between : Nat → Bool
/-- Payload bytes of a packet of a system class whose payload the spec does not lay out (R215; DESIGN CHOICE, log 54). -/
opaque systemLength : Nat → BitVec 6
opaque systemByte : Nat → Nat → Byte
/-- The part's serial number, read from fuses (R308). -/
opaque serial : DWord
/-- The package strap (R21, R308). -/
opaque package : Byte
/-- The part's RSA-4096 identity public key (R307, R311), 512 bytes. -/
opaque identityKey : List Byte
/-- The digest of the running firmware (R311), 64 bytes. -/
opaque firmwareDigest : List Byte
/-- RSA-4096 PSS signature with the identity key over the bytes (R304, R311), with the salt's free draw. -/
opaque sign : Nat → List Byte → List Byte
/-- RSA-4096 PSS check: key, bytes, signature (R306). -/
opaque verify : List Byte → List Byte → List Byte → Bool
/-- The RSA-4096 key whose digest the boot ROM holds (R308). -/
opaque bootKey : List Byte
/-- RSA-OAEP unwrapping of a tenant key (R293); none when it does not unwrap. -/
opaque unwrapKey : List Byte → Option (List Byte)
/-- Whether a read of HBM that a step makes is cured by its one retry (R310; DESIGN CHOICE, log 73). -/
opaque hbmRetried : Nat → Bool
/-- Whether the remote package's firmware controller confirms a target-2 mapping or answers a request (R291). -/
opaque remoteAgrees : Nat → Bool

/-- Whether an access that is made while an invalidation is under way uses the old entry (R295), which the rule leaves open. -/
opaque oldEntry : Nat → Bool
/-- The router at the edge of the mesh where a Nymlink port attaches, and the port by which packets of another package come in (R296), which the spec
does not state (DESIGN CHOICE, log 19). -/
opaque portRouter : Nat → BitVec 13
opaque entryPort : Nat → Nat

/-- Where the management class finds its resources: target kind and address of an 8-byte unit (R312 gives no address map). -/
opaque resourceAt : Nat → Nat → Resource
/-- The bytes of HEALTH's record (R312 gives its content, not its layout): the failed-start count, the cause of the last failed start, the
counts of R310, disabled ports, retired banks and fenced cores, watts, die and coolant temperatures, pages listed, clock changes. -/
opaque healthRecord : List (List Nat) → List Byte

end Config
end Sys2Proof
end

