-- ==== Sys2Proof/Syntax.lean ====
section
/-! DEFINITION. The instructions of the opcode table, each row a constructor of `Instr`, and the data
that the rows without words (the steps of the device's agents) carry. -/

namespace Sys2Proof

/-- A register number in a 6-bit field (R41). -/
abbrev Reg := BitVec 6
/-- A pair number d0–d31 (R41): a pair field with bit 5 set does not decode. -/
abbrev Pair := BitVec 5
/-- A mask number m0–m7 (R41). -/
abbrev MReg := BitVec 3
/-- A queue number q0–q15 (R41). -/
abbrev QReg := BitVec 4

/-- The vector types of R111, codes 0–7. -/
inductive VTy
  | i32 | n32 | f32 | bf16 | f16 | f64 | i16 | i8
deriving DecidableEq, Repr

/-- A predicate of a load or store (R43, R78): `sense` set executes when the register is zero. -/
structure Pred where
  sense : Bool
  reg : Reg
deriving DecidableEq, Repr

/-- The operation of an amo (R195). -/
inductive AmoOp
  | add | and | or | xor | min | max | minn | maxn | swap | cas | fadd
deriving DecidableEq, Repr

/-- The operands every amo form shares (R195): data register, width (true for .d), base pair, offset, return flag, trigger class. -/
structure AmoArgs where
  rt : Reg
  dbl : Bool
  base : Pair
  off : BitVec 24
  ret : Bool
  trig : Option (BitVec 5)
deriving DecidableEq, Repr

/-- Word 6 of a copy or reduction command (R47): barrier, its enable, target core, completion to q1. -/
structure CopyTail where
  bar : BitVec 7
  barOn : Bool
  tx : BitVec 7
  ty : BitVec 6
  toQ1 : Bool
deriving DecidableEq, Repr

/-- What a packet asks of the agent it is for (R216). -/
inductive Body
  /-- classes 0–19: a message of `send` or `reply` -/
  | message (payload : List Byte)
  /-- class 26: a start firing of a launch with its argument (R37) -/
  | start (launch arg : Word)
  /-- class 25: an upcall with its event word (R246) -/
  | upcall (evt : Word) (payload : List Byte)
  /-- class 20: a deposit at its EA of R22 and its trigger (R194); `mcmd` is the sequence number of the mqnt that diverted it (R11) -/
  | deposit (ea : DWord) (bytes : List Byte) (trig : Option (BitVec 5)) (fireAt : Option (BitVec 13)) (mcmd : Option Word)
  /-- class 21: an amo (R196) -/
  | atomic (op : AmoOp) (dbl : Bool) (ea v w : DWord) (trig : Option (BitVec 5)) (ret : Bool)
  /-- class 21: a claim of nstclm (R74) -/
  | claim (ea : DWord)
  /-- class 22: a barrier arrival (R205) -/
  | arrive (bar : BitVec 7)
  /-- class 26: a kend of a launch (R202) -/
  | kend (launch : Word)
  /-- class 26: a program event of a launch (R202) -/
  | post (launch : Word) (bytes : List Byte)
  /-- class 26: a walk from a graph node, for a launch (R200) -/
  | walk (launch : Word) (va : DWord)
  /-- class 30: a training-step mark (R299) -/
  | mark
  /-- class 30: a fwcall's request: its block and service (R280) -/
  | service (block : DWord) (n : BitVec 6)
  /-- class 28: a part of a contribution of xred (R209): copy channel, the number of the transfer on its core, destination, type, operation, parts; the
  place of these bytes in the contribution and its length in all, of which a packet carries at most 64 (R215) -/
  | contribute (chan : BitVec 2) (key : Nat) (dst : DWord) (ty : VTy) (op : BitVec 2) (parts : BitVec 13) (tail : CopyTail) (off total : Nat) (bytes : List Byte)
deriving DecidableEq, Repr

/-- A packet in flight (R215): header fields, body, and what its source keeps of it: retries, the issuing pc, context, firing and virtual device,
and the pool whose entry it takes (none, false the request pool, true the reply pool). `via` is the leg it is on since a stub forwarded it (R223):
the core it left and the coordinate it goes to; `dst` stays the destination that its source gave it. -/
structure Packet where
  src : BitVec 21
  dst : BitVec 21
  cls : BitVec 5
  reply : Bool
  hiPri : Bool
  age : BitVec 4
  retries : Nat
  fwd : BitVec 3
  via : Option (Nat × BitVec 21)
  seq : Half
  ter : BitVec 6
  launch : Word
  hcls : BitVec 5
  ctx : Half
  serial : Nat
  vdev : Nat
  pc : Word
  pool : Option Bool
  body : Body
deriving DecidableEq, Repr

/-- An update that reaches a barrier agent (R206). -/
inductive BarOp
  | init (bar : BitVec 7) (expected : Half) (cls : BitVec 5) (enable : Bool) (launch : Word)
  | arrive (bar : BitVec 7)
  | less (bar : BitVec 7) (bytes : Nat)
  | add (bar : BitVec 7) (v : Word)
deriving DecidableEq, Repr

/-- Why a store at a translated address is on its way (R237); one of a firing keeps what a report of its failure names (R190). -/
inductive GlobalWrite
  | store (ea : DWord) (ctx : Half) (pc : Word) | copy | deposit | host
deriving DecidableEq, Repr

/-- An answer of the device to a firing that waits for it: of a stepmk mark (R299); of a firmware service, a trap's cause or a status with the pages whose
held writes keep it back (R280, R302). -/
inductive Answered
  | mark | fault (code : Byte) | status (v : Word) (pages : List Nat)
deriving DecidableEq, Repr

/-- The block of MAP, UNMAP and QUERY (R291). -/
structure MapBlock where
  va : DWord
  pa : DWord
  size : Byte
  rw : Byte
  target : Byte
  package : Byte
deriving DecidableEq, Repr

/-- A probe of the thaw units (R155), with the edges that it has followed and the waits (core and number) that they go out from. -/
structure Probe where
  origin : BitVec 13
  hops : Nat
  leastX : Nat
  leastY : Nat
  full : Bool
  cand : BitVec 15
  cap : Nat
  stamp : Word
  at_ : BitVec 13
  edges : List (BitVec 15)
  waits : List (Nat × Nat)
deriving DecidableEq, Repr

/-- What the surroundings decide of a start (R308): a mesh link or HBM that fails its training, a self-test that fails, the Nymlink ports that fail twice,
the check of the firmware image in place, fuses that cannot be read, a clearing or a bring-up of CXL that fails, and how many links train at their second try. -/
structure StartFacts where
  meshFails : Bool
  hbmFails : Bool
  testFails : Bool
  badPorts : List Nat
  fwFails : Bool
  fusesFail : Bool
  clearFails : Bool
  cxlFails : Bool
  retrained : Nat
deriving DecidableEq, Repr

/-- Every row of the opcode table. The rows up to `xbcast` are instructions of a code image; the rows after it
are the steps of the device's agents, whose operands are data of the step. -/
inductive Instr
  -- INT group (R58–R60)
  | add (rd ra rb : Reg) | sub (rd ra rb : Reg) | and (rd ra rb : Reg) | or (rd ra rb : Reg) | xor (rd ra rb : Reg)
  | andn (rd ra rb : Reg) | shl (rd ra rb : Reg) | shr (rd ra rb : Reg) | sra (rd ra rb : Reg) | ror (rd ra rb : Reg)
  | min (rd ra rb : Reg) | max (rd ra rb : Reg) | minn (rd ra rb : Reg) | maxn (rd ra rb : Reg)
  | slt (rd ra rb : Reg) | sltn (rd ra rb : Reg) | seq (rd ra rb : Reg) | sne (rd ra rb : Reg)
  | mul (rd ra rb : Reg) | mulh (rd ra rb : Reg) | mulhn (rd ra rb : Reg)
  | div (rd ra rb : Reg) | divn (rd ra rb : Reg) | rem (rd ra rb : Reg) | remn (rd ra rb : Reg)
  | clz (rd ra : Reg) | ctz (rd ra : Reg) | popc (rd ra : Reg) | brev (rd ra : Reg)
  | sextb (rd ra : Reg) | sexth (rd ra : Reg) | zextb (rd ra : Reg) | zexth (rd ra : Reg)
  | bfx (rd ra rb : Reg) | bfi (rd ra rb : Reg)
  -- PAIR and MISC groups (R61–R63)
  | dadd (rd ra rb : Pair) | dsub (rd ra rb : Pair) | dand (rd ra rb : Pair) | dshl (rd ra rb : Pair) | dshr (rd ra rb : Pair)
  | dsra (rd ra rb : Pair) | dslt (rd ra rb : Pair) | dsltn (rd ra rb : Pair) | dmul (rd ra rb : Pair)
  | rdcyc (rd : Pair) | rdid (rd : Reg) | mvsm (md : MReg) (ra : Pair) | mvms (rd : Pair) (ma : MReg) | rand (rd : Reg)
  -- immediates (R64)
  | addi (rd ra : Reg) (imm : BitVec 14) | andi (rd ra : Reg) (imm : BitVec 14) | ori (rd ra : Reg) (imm : BitVec 14)
  | xori (rd ra : Reg) (imm : BitVec 14) | shli (rd ra : Reg) (n : BitVec 5) | shri (rd ra : Reg) (n : BitVec 5)
  | srai (rd ra : Reg) (n : BitVec 5) | slti (rd ra : Reg) (imm : BitVec 14) | sltni (rd ra : Reg) (imm : BitVec 14)
  | daddi (rd ra : Pair) (imm : BitVec 14) | lui (rd : Reg) (imm : BitVec 20) | li (rd : Reg) (imm : BitVec 20)
  | muli (rd ra : Reg) (imm : BitVec 14)
  -- branches and jumps (R66, R67)
  | beq (ra rb : Reg) (off : BitVec 14) | bne (ra rb : Reg) (off : BitVec 14) | blt (ra rb : Reg) (off : BitVec 14)
  | bge (ra rb : Reg) (off : BitVec 14) | bltn (ra rb : Reg) (off : BitVec 14) | bgen (ra rb : Reg) (off : BitVec 14)
  | bz (ra : Reg) (off : BitVec 20) | bnz (ra : Reg) (off : BitVec 20)
  | j (off : BitVec 26) | jal (off : BitVec 26) | jr (ra : Reg) | jalr (rd ra : Reg)
  -- loops and the iteration fetcher (R68–R75)
  | loop (rd ra rb : Reg) (fn : Byte) | nstclm (rd : Reg) (ra : Pair) | nstnxt (rd : Reg)
  -- loads and stores (R77)
  | ldb (rt : Reg) (base : Pair) (off : BitVec 24) (p : Option Pred) | ldbn (rt : Reg) (base : Pair) (off : BitVec 24) (p : Option Pred)
  | ldh (rt : Reg) (base : Pair) (off : BitVec 24) (p : Option Pred) | ldhn (rt : Reg) (base : Pair) (off : BitVec 24) (p : Option Pred)
  | ldw (rt : Reg) (base : Pair) (off : BitVec 24) (p : Option Pred) | ldd (rt : Pair) (base : Pair) (off : BitVec 24) (p : Option Pred)
  | stb (rt : Reg) (base : Pair) (off : BitVec 24) (p : Option Pred) | sth (rt : Reg) (base : Pair) (off : BitVec 24) (p : Option Pred)
  | stw (rt : Reg) (base : Pair) (off : BitVec 24) (p : Option Pred) | std (rt : Pair) (base : Pair) (off : BitVec 24) (p : Option Pred)
  -- vector memory (R125): `size` is the element's size code where the form has a choice
  | vld (vd : Reg) (base : Pair) (off : BitVec 24) (m : MReg) (p : Option Pred) | vst (vs : Reg) (base : Pair) (off : BitVec 24) (m : MReg) (p : Option Pred)
  | vldbc (vd : Reg) (size : BitVec 2) (base : Pair) (off : BitVec 24) (m : MReg) (p : Option Pred)
  | vgath (vd : Reg) (dbl : Bool) (base : Pair) (off : BitVec 24) (m : MReg) (idx : Reg) | vscat (vs : Reg) (dbl : Bool) (base : Pair) (off : BitVec 24) (m : MReg) (idx : Reg)
  -- atomics and deposits (R193–R197)
  | amoAdd (a : AmoArgs) | amoAnd (a : AmoArgs) | amoOr (a : AmoArgs) | amoXor (a : AmoArgs) | amoMin (a : AmoArgs) | amoMax (a : AmoArgs)
  | amoMinn (a : AmoArgs) | amoMaxn (a : AmoArgs) | amoSwap (a : AmoArgs) | amoCas (a : AmoArgs) | amoFadd (a : AmoArgs)
  | depos (vs : Reg) (base : Pair) (off : BitVec 24) (len1 : BitVec 6) (trig : Option (BitVec 5))
  -- messages (R191–R202)
  | send (vs sd : Reg) (cls : BitVec 5) (len1 : BitVec 6) (net pri : Bool) | reply (vs : Reg) (cls : BitVec 5) (len1 : BitVec 6) (pri : Bool)
  | done | launch (node : Pair) | clsmask (cls : BitVec 5) | clsunm (cls : BitVec 5) | kend | vdone | terdem (ra : Reg) | termap (rd : Pair)
  | stepmk | hpost (vs : Reg)
  -- barriers (R205)
  | binit (bar : BitVec 7) (ra rb : Reg) | barr (bar : BitVec 7) | barrx (bar : BitVec 7) (ra : Reg) | baddb (bar : BitVec 7) (ra : Reg)
  | bwait (bar : BitVec 7) (ra : Reg) | bstat (bar : BitVec 7) (rd : Reg)
  -- queues, channels (R161–R167)
  | qrd (rd : Reg) (q : QReg) | qwr (q : QReg) (ra : Reg) | qrdv (vd : Reg) (q : QReg) | qwrv (q : QReg) (va : Reg) | qstat (rd : Reg) (q : QReg)
  | chbind (q : QReg) (ra : Reg) (consumer : Bool) | chunb (q : QReg) | cheos (q : QReg) | chgrow (q : QReg) (ra : Reg) | chstat (rd : Reg) (q : QReg)
  -- slots and transfer IDs (R96, R171)
  | slclm (n : Reg) | slrel (n : Reg) | slstat (rd : Reg) | xidrd (rd : Reg) (k : BitVec 2) | xidwt (ra : Reg) (k : BitVec 2)
  -- SYS, FENCE and TRAPS groups (R268–R273)
  | csrr (rd : Reg) (n : BitVec 12) | csrw (rd ra : Reg) (n : BitVec 12) | csrs (rd ra : Reg) (n : BitVec 12) | csrc (rd ra : Reg) (n : BitVec 12)
  | chunk | fenceD | fenceS | lbsync | psync (ra : Pair) (rb : Reg)
  | trap (n : Reg) | tret (skip : Bool) | brk (n : Reg) | prioff | prion | ctxsav (ra : Pair) | ctxrst (ra : Pair) | fwcall (rd : Reg) (ra : Pair) (svc : Reg)
  -- vector arithmetic (R114–R117)
  | vadd (vd va vb : Reg) (m : MReg) (t : VTy) | vsub (vd va vb : Reg) (m : MReg) (t : VTy) | vmin (vd va vb : Reg) (m : MReg) (t : VTy)
  | vmax (vd va vb : Reg) (m : MReg) (t : VTy) | vmul (vd va vb : Reg) (m : MReg) (t : VTy) | vmulh (vd va vb : Reg) (m : MReg) (t : VTy)
  | vabs (vd va : Reg) (m : MReg) (t : VTy) | vneg (vd va : Reg) (m : MReg) (t : VTy)
  | vfma (vd va vb : Reg) (m : MReg) (t : VTy) | vfms (vd va vb : Reg) (m : MReg) (t : VTy) | vfnma (vd va vb : Reg) (m : MReg) (t : VTy)
  | vfnms (vd va vb : Reg) (m : MReg) (t : VTy)
  | vand (vd va vb : Reg) (m : MReg) (t : VTy) | vor (vd va vb : Reg) (m : MReg) (t : VTy) | vxor (vd va vb : Reg) (m : MReg) (t : VTy)
  | vandn (vd va vb : Reg) (m : MReg) (t : VTy)
  | vshl (vd va vb : Reg) (m : MReg) (t : VTy) | vshr (vd va vb : Reg) (m : MReg) (t : VTy) | vsra (vd va vb : Reg) (m : MReg) (t : VTy)
  | vror (vd va vb : Reg) (m : MReg) (t : VTy)
  | vceq (md : MReg) (va vb : Reg) (m : MReg) (t : VTy) | vcne (md : MReg) (va vb : Reg) (m : MReg) (t : VTy)
  | vclt (md : MReg) (va vb : Reg) (m : MReg) (t : VTy) | vcle (md : MReg) (va vb : Reg) (m : MReg) (t : VTy)
  | vdiv (vd va vb : Reg) (m : MReg) (t : VTy) | vsqrt (vd va : Reg) (m : MReg) (t : VTy) | vrcp (vd va : Reg) (m : MReg) (t : VTy)
  | vrsq (vd va : Reg) (m : MReg) (t : VTy)
  -- conversion, quantisation, reductions, moves, masks (R119–R123)
  | vcvt (vd va : Reg) (dst : VTy) (m : MReg) (t : VTy) | vqnt (vd va : Reg) (fmt : BitVec 4) (m : MReg) | vdqnt (vd va : Reg) (fmt : BitVec 4) (m : MReg)
  | vamax (vd va : Reg) (m : MReg) (t : VTy)
  | vrsum (vd va : Reg) (m : MReg) (t : VTy) | vrmax (vd va : Reg) (m : MReg) (t : VTy) | vrmin (vd va : Reg) (m : MReg) (t : VTy)
  | vramax (vd va : Reg) (m : MReg) (t : VTy)
  | vsplat (vd ra : Reg) (m : MReg) (t : VTy) | vext (rd va rb : Reg) (t : VTy) | vins (vd ra rb : Reg) (m : MReg) (t : VTy)
  | vsel (vd va vb : Reg) (m : MReg) (t : VTy) | vperm (vd va vb : Reg) (m : MReg) (t : VTy) | vslu (vd va rb : Reg) (m : MReg) (t : VTy)
  | vsld (vd va rb : Reg) (m : MReg) (t : VTy) | vbcl (vd va rb : Reg) (m : MReg) (t : VTy)
  | mand (md ma mb : MReg) | mor (md ma mb : MReg) | mxor (md ma mb : MReg) | mpop (rd : Reg) (ma : MReg)
  -- tile commands (R47, R103, R168, R208)
  | mld (slot fmt : BitVec 4) (trans : Bool) (src : DWord) (stride : Word) | mma (acc : BitVec 3) (sa sb : BitVec 4) (bandA bandB : BitVec 12)
  | mzero (acc : BitVec 3) | mst (acc : BitVec 3) (dst : DWord) (stride : Word)
  | mqnt (acc : BitVec 3) (fmt : BitVec 4) (rnd : BitVec 3) (codes : DWord) (cstride sstride : Half) (scales : DWord) | mamax (acc cnt1 : BitVec 3)
  /-- R102: the queued write at the head of core `c`'s unstarted commands starts -/
  | queuedCsrWrite (c : Nat)
  | cpin (k : BitVec 2) (len : Word) (va sp : DWord) (t : CopyTail) | cpout (k : BitVec 2) (len : Word) (va sp : DWord) (t : CopyTail)
  | cp2d (k : BitVec 2) (len : Word) (va sp : DWord) (t : CopyTail) (outward : Bool) (rows : BitVec 12) (pitch : BitVec 20)
  | cploc (k : BitVec 2) (len : Word) (ga sp : DWord) (t : CopyTail) | cpfill (k : BitVec 2) (len : Word) (dst : DWord) (pattern : Word) (t : CopyTail)
  | xred (k : BitVec 2) (count : Half) (ty : VTy) (op : BitVec 2) (src dst : DWord) (t : CopyTail) (parts : BitVec 13)
  | xbcast (k : BitVec 2) (count : Half) (ty : VTy) (src dst : DWord) (t : CopyTail) (parts : BitVec 13)
  -- the matrix unit, the commit arbiter, scheduling (core `c`, tile `t`)
  | matrixCommandStart (c : Nat) | matrixCommandComplete (c : Nat) | commitGrant (t : Nat) | commitComplete (c : Nat)
  | firingChoose (c : Nat) | preemption (c : Nat) | parkWake (c k : Nat) | waitResume (c : Nat) | watchdogExpiry (c : Nat) | trapEntry (c : Nat)
  | codeFetchComplete (c : Nat) (line : Nat) | configCacheFill (c : Nat)
  -- the mesh
  | packetArrival (p : Packet) | routerDrop (p : Packet) | ackReceived (c : Nat) (reply : Bool) (seq : Half) | nackReceived (p : Packet) (reason : Nat) (hint : Half)
  | retryTimerExpiry (p : Packet) | directoryLookup (p : Packet) (id : Half) | directoryAnswer (p : Packet) (at_ : Option (BitVec 21))
  -- agents of the destination
  | depositWrite (p : Packet) | atomicStep (p : Packet) | atomicReturn (c : Nat) (old : DWord) (fails : Nat) | nestClaimStep (p : Packet)
  | nestClaimReturn (c : Nat) (start cnt : Word) (ext : BitVec 64) (fails : Nat) | barrierUpdate (c : Nat) (us : List BarOp)
  -- the copy engine and the reduction agent (core, copy channel, number of the transfer, piece or target)
  | copyPieceWrite (c : Nat) (k : BitVec 2) (key : Nat) (piece : Nat) | copyComplete (c : Nat) (k : BitVec 2) (key : Nat) | q1Record (c : Nat)
  | xredContribution (p : Packet) | xbcastWrite (c : Nat) (k : BitVec 2) (key : Nat) (piece : Nat)
  -- channels (channel ID)
  | channelElementEnter (ch : BitVec 15) (idx : Nat) (eos : Bool) (bytes : List Byte) | channelAckReceived (ch : BitVec 15) (xoff : Bool) | xonReceived (ch : BitVec 15)
  | spillWrite (ch : BitVec 15) (slot : Nat) (episode eos : Bool) (bytes : List Byte) | refillReturn (ch : BitVec 15) | emptyNoticeSend (ch : BitVec 15)
  | emptyNoticeReceived (ch : BitVec 15) (tail : Nat)
  | thawReport (c k : Nat) | thawProbe (p : Probe) | spillPoolDraw (ch : BitVec 15) (elems bytes : Nat) (asker : Option (Nat × Nat)) (p : Option Probe) | spillPoolAnswer (ch : BitVec 15) (elems bytes : Nat) (granted : Bool) (asker : Option (Nat × Nat)) (p : Option Probe)
  -- parity (core `c`, group `g`)
  | parityUpdate (c g : Nat) | parityForcedUpdate (c g : Nat) | scrub (c bank : Nat) | correctedWriteback (c bank row : Nat) | bankRetirement (c bank : Nat)
  -- territories
  | driftPhase | transferQuiesced (t : Nat) | vacateBudgetExpiry (t : Nat) | contextRemoval (c slot : Nat) | tileClearComplete (t : Nat)
  | transferNotice (t : Nat) (moved : Nat) (gain : Bool) | transferComplete (t : Nat) | timeshareQuantumEnd (ter : Nat)
  -- host queues and graphs
  | hostQueueTail (q : Nat) | queueEntryLaunch (q : Nat) | queueEntryWait (q : Nat) | queueEntrySignal (q : Nat) | dispatcherStep (die : Nat)
  | nodeLaunch (w : Nat) | nodeWait (w : Nat) | nodeSignal (w : Nat) | nodeCond (w : Nat) | nodeLoop (w : Nat) | nodeCopy (w : Nat) | nodeEnd (w : Nat)
  | walkBegin (p : Packet) | kendArrival (p : Packet) | hpostArrival (p : Packet)
  -- admin commands (R289): the status goes where `via` says (a queue, or the mailbox)
  | adminMap (via : Option Nat) (v : Nat) (b : MapBlock) | adminUnmap (via : Option Nat) (v : Nat) (b : MapBlock) | adminCancel (via : Option Nat) (id : Word)
  | adminClaim (via : Option Nat) (ter : Nat) (mask : DWord) | adminFree (via : Option Nat) (ter : Nat) (mask : DWord) | adminTimeshare (via : Option Nat) (ter idx : Nat) (entry : DWord)
  | adminVdev (via : Option Nat) (v : Nat) (weight : Byte) (fenceLo fenceHi : Word) (winLo winHi : DWord) (handle : DWord)
  | adminPair (via : Option Nat) (ter pkg remote : Nat) | adminQueue (via : Option Nat) (q v size evSize enable : Nat) (ring evRing : DWord)
  | adminOwnAssign (via : Option Nat) (v : Nat) (pa len : DWord) | adminOwnRelease (via : Option Nat) (v : Nat) (pa len : DWord)
  | adminTenantCreate (via : Option Nat) (handle keyVa : DWord) | adminTenantDelete (via : Option Nat) (handle : DWord)
  -- firmware services (core `c`'s waiting fwcall)
  | fwMap (c : Nat) | fwUnmap (c : Nat) | fwQuery (c : Nat) | fwAttest (c : Nat)
  -- checkpoints
  | stepMark (p : Packet) | checkpointTimer (job : Nat) | armingComplete (job : Nat) | checkpointPageCopy (job : Nat) | protectedWrite (key : Nat) (bytes : List Byte) (why : GlobalWrite)
  | urgentReadComplete (page : Nat) | checkpointComplete (job : Nat)
  | ckptJob (descr : DWord) (v : Nat) | ckptDrop (job : Nat) | ckptKey (serial : DWord) (key : List Byte) | ckptRestore (manifest : DWord) (v fence queue : Nat)
  -- the mailbox
  | startWarm (f : StartFacts) | startCold (f : StartFacts) | health | fwLoad (addr len : DWord) | read (kind : Nat) (addr : DWord) (len : Nat) | write (kind : Nat) (addr : DWord) (bytes : List Byte)
  | halt (id : Half) | resume (id : Half) | identity | layout | debugSet (id : Half) | debugClear (id : Half) | powerSample (watts die coolant : Nat)
  | hostMemAccess (key : Nat) (w : Option (List Byte)) (n : Nat) | translatedLoadReturn (c : Nat) | globalStorePerformed (c : Nat) (key : Nat) (bytes : List Byte) (why : GlobalWrite)
deriving DecidableEq, Repr

/-- A step of an agent as the machine holds it in flight or enabled: the rows of the opcode table without words, with the same
operands as their constructors of `Instr`. (A type of its own, because compiled Lean code cannot build a constructor beyond the
244th of `Instr`.) -/
inductive Ev
  | queuedCsrWrite (c : Nat)
  -- an answer on its way to the firing with a serial number on a core: no row of the table
  | answer (c serial : Nat) (a : Answered)
  -- the matrix unit, the commit arbiter, scheduling (core `c`, tile `t`)
  | matrixCommandStart (c : Nat) | matrixCommandComplete (c : Nat) | commitGrant (t : Nat) | commitComplete (c : Nat)
  | firingChoose (c : Nat) | preemption (c : Nat) | parkWake (c k : Nat) | waitResume (c : Nat) | watchdogExpiry (c : Nat) | trapEntry (c : Nat)
  | codeFetchComplete (c : Nat) (line : Nat) | configCacheFill (c : Nat)
  -- the mesh
  | packetArrival (p : Packet) | routerDrop (p : Packet) | ackReceived (c : Nat) (reply : Bool) (seq : Half) | nackReceived (p : Packet) (reason : Nat) (hint : Half)
  | retryTimerExpiry (p : Packet) | directoryLookup (p : Packet) (id : Half) | directoryAnswer (p : Packet) (at_ : Option (BitVec 21))
  -- agents of the destination
  | depositWrite (p : Packet) | atomicStep (p : Packet) | atomicReturn (c : Nat) (old : DWord) (fails : Nat) | nestClaimStep (p : Packet)
  | nestClaimReturn (c : Nat) (start cnt : Word) (ext : BitVec 64) (fails : Nat) | barrierUpdate (c : Nat) (us : List BarOp)
  -- the copy engine and the reduction agent (core, copy channel, number of the transfer, piece or target)
  | copyPieceWrite (c : Nat) (k : BitVec 2) (key : Nat) (piece : Nat) | copyComplete (c : Nat) (k : BitVec 2) (key : Nat) | q1Record (c : Nat)
  | xredContribution (p : Packet) | xbcastWrite (c : Nat) (k : BitVec 2) (key : Nat) (piece : Nat)
  -- channels (channel ID)
  | channelElementEnter (ch : BitVec 15) (idx : Nat) (eos : Bool) (bytes : List Byte) | channelAckReceived (ch : BitVec 15) (xoff : Bool) | xonReceived (ch : BitVec 15)
  | spillWrite (ch : BitVec 15) (slot : Nat) (episode eos : Bool) (bytes : List Byte) | refillReturn (ch : BitVec 15) | emptyNoticeSend (ch : BitVec 15)
  | emptyNoticeReceived (ch : BitVec 15) (tail : Nat)
  | thawReport (c k : Nat) | thawProbe (p : Probe) | spillPoolDraw (ch : BitVec 15) (elems bytes : Nat) (asker : Option (Nat × Nat)) (p : Option Probe) | spillPoolAnswer (ch : BitVec 15) (elems bytes : Nat) (granted : Bool) (asker : Option (Nat × Nat)) (p : Option Probe)
  -- parity (core `c`, group `g`)
  | parityUpdate (c g : Nat) | parityForcedUpdate (c g : Nat) | scrub (c bank : Nat) | correctedWriteback (c bank row : Nat) | bankRetirement (c bank : Nat)
  -- territories
  | driftPhase | transferQuiesced (t : Nat) | vacateBudgetExpiry (t : Nat) | contextRemoval (c slot : Nat) | tileClearComplete (t : Nat)
  | transferNotice (t : Nat) (moved : Nat) (gain : Bool) | transferComplete (t : Nat) | timeshareQuantumEnd (ter : Nat)
  -- host queues and graphs
  | hostQueueTail (q : Nat) | queueEntryLaunch (q : Nat) | queueEntryWait (q : Nat) | queueEntrySignal (q : Nat) | dispatcherStep (die : Nat)
  | nodeLaunch (w : Nat) | nodeWait (w : Nat) | nodeSignal (w : Nat) | nodeCond (w : Nat) | nodeLoop (w : Nat) | nodeCopy (w : Nat) | nodeEnd (w : Nat)
  | walkBegin (p : Packet) | kendArrival (p : Packet) | hpostArrival (p : Packet)
  -- admin commands (R289): the status goes where `via` says (a queue, or the mailbox)
  | adminMap (via : Option Nat) (v : Nat) (b : MapBlock) | adminUnmap (via : Option Nat) (v : Nat) (b : MapBlock) | adminCancel (via : Option Nat) (id : Word)
  | adminClaim (via : Option Nat) (ter : Nat) (mask : DWord) | adminFree (via : Option Nat) (ter : Nat) (mask : DWord) | adminTimeshare (via : Option Nat) (ter idx : Nat) (entry : DWord)
  | adminVdev (via : Option Nat) (v : Nat) (weight : Byte) (fenceLo fenceHi : Word) (winLo winHi : DWord) (handle : DWord)
  | adminPair (via : Option Nat) (ter pkg remote : Nat) | adminQueue (via : Option Nat) (q v size evSize enable : Nat) (ring evRing : DWord)
  | adminOwnAssign (via : Option Nat) (v : Nat) (pa len : DWord) | adminOwnRelease (via : Option Nat) (v : Nat) (pa len : DWord)
  | adminTenantCreate (via : Option Nat) (handle keyVa : DWord) | adminTenantDelete (via : Option Nat) (handle : DWord)
  -- firmware services (core `c`'s waiting fwcall)
  | fwMap (c : Nat) | fwUnmap (c : Nat) | fwQuery (c : Nat) | fwAttest (c : Nat)
  -- checkpoints
  | stepMark (p : Packet) | checkpointTimer (job : Nat) | armingComplete (job : Nat) | checkpointPageCopy (job : Nat) | protectedWrite (key : Nat) (bytes : List Byte) (why : GlobalWrite)
  | urgentReadComplete (page : Nat) | checkpointComplete (job : Nat)
  | ckptJob (descr : DWord) (v : Nat) | ckptDrop (job : Nat) | ckptKey (serial : DWord) (key : List Byte) | ckptRestore (manifest : DWord) (v fence queue : Nat)
  -- the mailbox
  | startWarm (f : StartFacts) | startCold (f : StartFacts) | health | fwLoad (addr len : DWord) | read (kind : Nat) (addr : DWord) (len : Nat) | write (kind : Nat) (addr : DWord) (bytes : List Byte)
  | halt (id : Half) | resume (id : Half) | identity | layout | debugSet (id : Half) | debugClear (id : Half) | powerSample (watts die coolant : Nat)
  | hostMemAccess (key : Nat) (w : Option (List Byte)) (n : Nat) | translatedLoadReturn (c : Nat) | globalStorePerformed (c : Nat) (key : Nat) (bytes : List Byte) (why : GlobalWrite)
deriving DecidableEq, Repr

end Sys2Proof
end

