-- ==== Sys2Proof/WellFormed.lean ====
section
/-! DEFINITION. Which terms of `Instr` are instructions of the spec: the operand values its encodings admit
(R41, R43, R45, R47, R50–R53), and for the agents' steps the numbers that name an agent that exists (R1, R24, R282). -/

namespace Sys2Proof

/-- The floating types of R111. -/
def VTy.isFloat : VTy → Bool
  | .f32 | .bf16 | .f16 | .f64 => true
  | _ => false

/-- The integer types of R111. -/
def VTy.isInt (t : VTy) : Bool := !t.isFloat

namespace Instr

/-- A handler class of a message or trigger (R43, R51): 0–19. -/
def clsOk (c : BitVec 5) : Bool := c.toNat < 20
/-- A trigger's class, when it has one (R43). -/
def trigOk (t : Option (BitVec 5)) : Bool :=
  match t with
  | none => true
  | some c => clsOk c
/-- A queue that qrd, qrdv and qstat take (R50): 0, 1, 4–15. -/
def qReadOk (q : QReg) : Bool := q ≠ 2 && q ≠ 3
/-- A queue that names a channel end (R50): 4–15. -/
def qChanOk (q : QReg) : Bool := 4 ≤ q.toNat
/-- The scalar operand of a lane move, a pair for FP64 (R53). -/
def laneRegOk (r : Reg) (t : VTy) : Bool := t ≠ .f64 || r.toNat < 32
/-- The data register of an amo (R45): scalar for .w, even for .d, even for cas.w, a multiple of 4 for cas.d. -/
def amoOk (cas : Bool) (a : AmoArgs) : Bool :=
  trigOk a.trig && (if cas then (if a.dbl then a.rt.toNat % 4 = 0 else a.rt.toNat % 2 = 0) else (!a.dbl || a.rt.toNat % 2 = 0))
/-- A core that exists (R1). -/
def coreOk (c : Nat) : Bool := c < 8192
/-- A tile that exists (R1). -/
def tileOk (t : Nat) : Bool := t < 64
/-- A territory number (R1): 1–63. -/
def terOk (t : Nat) : Bool := 1 ≤ t && t < 64
/-- A copy tail whose target fields are reserved (xbcast, R208). -/
def noTarget (t : CopyTail) : Bool := t.tx = 0 && t.ty = 0

/-- The check of one term. -/
def wf : Instr → Bool
  | .amoAdd a | .amoAnd a | .amoOr a | .amoXor a | .amoMin a | .amoMax a | .amoMinn a | .amoMaxn a | .amoSwap a | .amoFadd a => amoOk false a
  | .amoCas a => amoOk true a
  | .depos _ _ _ _ t => trigOk t
  | .send _ _ c _ _ _ => clsOk c
  | .reply _ c _ _ => clsOk c
  | .clsmask c | .clsunm c => clsOk c
  | .qrd _ q | .qrdv _ q | .qstat _ q => qReadOk q
  | .qwr q _ | .qwrv q _ | .chbind q _ _ | .chunb q | .cheos q | .chgrow q _ | .chstat _ q => qChanOk q
  | .vmulh _ _ _ _ t | .vshl _ _ _ _ t | .vshr _ _ _ _ t | .vsra _ _ _ _ t | .vror _ _ _ _ t => t.isInt
  | .vabs _ _ _ t | .vneg _ _ _ t | .vramax _ _ _ t => t ≠ .n32
  | .vfma _ _ _ _ t | .vfms _ _ _ _ t | .vfnma _ _ _ _ t | .vfnms _ _ _ _ t | .vdiv _ _ _ _ t | .vsqrt _ _ _ t | .vrcp _ _ _ t
  | .vrsq _ _ _ t | .vamax _ _ _ t => t.isFloat
  | .vcvt _ _ d _ t => d ≠ t
  | .vqnt _ _ f _ | .vdqnt _ _ f _ => 1 ≤ f.toNat && f.toNat ≤ 5
  | .vsplat _ r _ t => laneRegOk r t
  | .vext r _ _ t => laneRegOk r t
  | .vins _ r _ _ t => laneRegOk r t
  | .mqnt _ _ r _ _ _ _ => r.toNat ≤ 5
  | .xred _ _ _ op _ _ _ _ => op ≠ 3
  | .xbcast _ _ _ _ _ t _ => noTarget t
  | .queuedCsrWrite c | .matrixCommandStart c | .matrixCommandComplete c | .commitComplete c | .firingChoose c | .preemption c
  | .parkWake c _ | .waitResume c | .watchdogExpiry c | .trapEntry c | .codeFetchComplete c _ | .configCacheFill c | .ackReceived c _ _
  | .atomicReturn c _ _ | .nestClaimReturn c _ _ _ _ | .barrierUpdate c _ | .copyPieceWrite c _ _ _ | .copyComplete c _ _ | .q1Record c
  | .xbcastWrite c _ _ _ | .thawReport c _ | .fwMap c | .fwUnmap c | .fwQuery c | .fwAttest c
  | .translatedLoadReturn c | .globalStorePerformed c _ _ _ => coreOk c
  | .commitGrant t | .transferQuiesced t | .vacateBudgetExpiry t | .tileClearComplete t | .transferNotice t _ _ | .transferComplete t => tileOk t
  | .contextRemoval c k => coreOk c && k < 4
  | .parityUpdate c g | .parityForcedUpdate c g => coreOk c && g < 4
  | .scrub c b | .correctedWriteback c b _ => coreOk c && b < 20
  | .bankRetirement c b => coreOk c && b < 16
  | .timeshareQuantumEnd ter => terOk ter
  | .hostQueueTail q | .queueEntryLaunch q | .queueEntryWait q | .queueEntrySignal q => q < 32768
  | .dispatcherStep d => d < 4
  | .adminClaim _ ter _ | .adminFree _ ter _ => terOk ter
  | .adminTimeshare _ ter i _ => terOk ter && i < 8
  | .adminVdev _ v _ _ _ _ _ _ | .adminMap _ v _ | .adminUnmap _ v _ | .adminOwnAssign _ v _ _ | .adminOwnRelease _ v _ _ => v < 4096
  | .adminPair _ ter p r => terOk ter && p < 256 && r < 64
  | .adminQueue _ q v sz esz en _ _ => q < 32768 && v < 4096 && 4 ≤ sz && sz ≤ 16 && 4 ≤ esz && esz ≤ 16 && en ≤ 1
  | .ckptJob _ v => v < 4096
  | .ckptRestore _ v f q => v < 4096 && f < 65536 && q < 32768
  | .read k _ n => k < 4 && 8 ≤ n && n ≤ 4096 && n % 8 = 0
  | .write k _ bs => k < 4 && 8 ≤ bs.length && bs.length ≤ 4096 && bs.length % 8 = 0
  | _ => true

end Instr
end Sys2Proof
end

