-- ==== Sys2Proof/Machine/State.lean ====
section
/-! DEFINITION. The state of the whole part as plain data: the cores with their contexts and firings, the tiles, the
device's agents and memories, and the machine after reset. -/

namespace Sys2Proof.Machine

/-- Reasons a step stops. -/
inductive Fault
  /-- an agent's step that names a core, tile, queue or other agent outside the part (R1): raised by every step with such
  an operand. Safe: no agent of the part takes such a step. -/
  | noSuchAgent
deriving DecidableEq, Repr

/-- Reasons a step has no meaning. -/
inductive Refusal
  /-- an instruction that the model gives no meaning yet: raised only by an arm of `exec`. Safe. -/
  | notModelled (mnemonic : String)
deriving DecidableEq, Repr

/-- Bytes by address in canonical form (DESIGN CHOICE, log 5): rising addresses, no byte zero. -/
abbrev Mem := List Host.Cell

/-! ## Firings (R14, R16, R17, R72) -/

/-- One level of a hardware loop (R69, R72): count, body bounds (`stop` is the byte after the body), induction register, step. -/
structure Level where
  count : Word
  start : Word
  stop : Word
  rd : Reg
  stride : Word
  on : Bool
deriving DecidableEq, Repr

/-- The registers of a firing (R14): s, m, j, nest extents, loop levels, v0, pc. -/
structure Regs where
  s : Vector Word 64
  m : Vector DWord 8
  j : Vector Word 4
  ext : Vector Half 4
  l0 : Level
  l1 : Level
  v0 : Vec
  pc : Word
deriving DecidableEq, Repr

/-- CAUSE, TVALL and TVALH of one firing bank (R263). -/
structure TrapRegs where
  cause : Word
  tvall : Word
  tvalh : Word
deriving DecidableEq, Repr

/-- An operand slot (R95, R96): claim, the firing that made it while it lasts, and the image with its tags. -/
structure Slot where
  claimed : Bool
  holder : Option Nat
  full : Bool
  fmt : BitVec 4
  shapeB : Bool
  image : List Byte
deriving DecidableEq, Repr

/-- A queue register's binding (R165): channel and end. -/
structure Bind where
  q : QReg
  ch : BitVec 15
  consumer : Bool
deriving DecidableEq, Repr

/-- What instructions of a context write at execution and a squash restores (R230): v1–v63, FRM, FFLAGS, SEED, STATUS.SQT,
TVEC, TEPC, WDOG, RQLIM, the program-order matrix registers 0x020–0x02F (R102), slots, bindings, trap registers per bank. -/
structure Prog where
  v : Vector Vec 64
  frm : BitVec 3
  fflags : BitVec 5
  seed : Word
  sqt : Bool
  tvec : Word
  tepc : Word
  wdog : Word
  rqlim : BitVec 5
  po : Vector Word 16
  slots : Vector Slot 16
  binds : List Bind
  lo : TrapRegs
  hi : TrapRegs
deriving DecidableEq, Repr

/-- A command of the matrix queue: a tile command or a queued control-register write (R47, R97, R102). -/
inductive MWhat
  | cmd (i : Instr)
  | csr (n : BitVec 12) (op : BitVec 2) (v : Word)
deriving DecidableEq, Repr

/-- What a started matrix command leaves when it completes (R99, R100). -/
structure MEffect where
  slot : Option (Nat × Slot)
  accs : List (Nat × Vector Word 256)
  writes : List (DWord × List Byte)
  q0 : Option Word
  flags : BitVec 5
  diverted : Nat
  clamps : Nat
  sats : Nat
  inPlace : Nat
  fault : Option (Byte × Word × Word)
deriving DecidableEq, Repr

/-- A step of an operand loader's stream (R10): a core's scratchpad row, and the banks, one of each group at most, whose words it needs. -/
structure LoadStep where
  core : Nat
  row : Nat
  banks : List Nat
deriving DecidableEq, Repr

/-- A running mld (R10, R105): its stream, the steps still to take, the words taken (core and word number), and what the loader's record counts:
cycles of its first and last step, steps, mirage reads, stale-parity waits. -/
structure Stream where
  lane : Nat
  left : List LoadStep
  got : List ((Nat × Nat) × List Byte)
  first : DWord
  last : DWord
  steps : Nat
  mirages : Nat
  waits : Nat
deriving DecidableEq, Repr

/-- What the loader keeps of a finished stream (R13): its command's sequence number, and the counts of `Stream`. -/
structure LoaderRec where
  seq : Word
  lane : Nat
  first : DWord
  last : DWord
  steps : Nat
  mirages : Nat
  waits : Nat
deriving DecidableEq, Repr

/-- An entry of the matrix command queue (R97–R99): context, sequence number, pc of the pushing instruction, SEED as it
starts from (R88), effect once it is known, divert deposits not yet acknowledged, the stream of a running mld, and whether it has read scratchpad. -/
structure MCmd where
  ctx : Half
  seq : Word
  pc : Word
  what : MWhat
  seed : Word
  eff : Option MEffect
  unacked : Nat
  stream : Option Stream
  reads : Bool
deriving DecidableEq, Repr

/-- A transfer of a copy channel (R170): the number that names it on its core (DESIGN CHOICE, log 3), context (0 once that is gone), virtual device, copy channel, ID, pc, command; whether it has been sent; what it has not yet written, as
ranges of byte positions (for xbcast, counting the bytes of one target core after another), and the bytes an xbcast has read; its fault; whether its contribution has been combined (xred). -/
structure Transfer where
  key : Nat
  ctx : Half
  vdev : Nat
  chan : BitVec 2
  id : Word
  pc : Word
  cmd : Instr
  sent : Bool
  left : List (Nat × Nat)
  bytes : List Byte
  fault : Option Byte
  done : Bool
deriving DecidableEq, Repr

/-- An effect held until its chunk commits (R27), oldest first in a chunk. A store at a translated address keeps the place it was checked for; one of a
vst is written by rows and reads no bank (R127); each keeps its instruction's pc (R190). -/
inductive Held
  | store (ea : DWord) (key : Option Nat) (bytes : List Byte) (rows : Bool) (pc : Word)
  | packet (p : Packet)
  | bar (op : BarOp)
  | mcmd (m : MCmd)
  | copy (t : Transfer)
  | push (ch : BitVec 15) (spill eos : Bool) (slot : Nat) (bytes : List Byte)
  | pop (q : QReg) (ch : BitVec 15) (eos : Bool)
  | bind (ch : BitVec 15) (consumer : Bool) (f off on streamer : Nat)
  | unbind (ch : BitVec 15) (consumer : Bool)
  | mask (op : BitVec 2) (v own : Word)
  | vdone
  | terdem (v : Word)
deriving DecidableEq, Repr

/-- What a squash restores (R230). -/
structure Snap where
  regs : Regs
  inTrap : Bool
  saved : Vector Word 8
  window : Bool
  wcount : Nat
  prog : Prog
deriving DecidableEq, Repr

/-- An open chunk (R26, R27, R228, R232): held effects, instructions executed, store-buffer entries, signatures, squash
count, solo mode, the registers it started with, and what its csrc cleared of ERRCNT. -/
structure Chunk where
  held : List Held
  count : Nat
  stbuf : Nat
  rsig : Vec
  wsig : Vec
  squashes : Nat
  solo : Bool
  snap : Option Snap
  erased : Word
deriving DecidableEq, Repr

/-- A firing (R14, R16, R17, R263): its registers, its trap bank (`saved` keeps s56–s63 from before a trap), its masked window,
its watchdog count, whether its first instruction has begun, an expiry latched and one latched before the trap that runs was entered (R186, R266), what it was chosen with, the serial number that names it, and its open chunk. -/
structure Firing where
  regs : Regs
  inTrap : Bool
  saved : Vector Word 8
  window : Bool
  wcount : Nat
  wdcnt : Nat
  begun : Bool
  timeout : Bool
  late : Bool
  cls : BitVec 5
  high : Bool
  kind : BitVec 3
  src : BitVec 21
  serial : Nat
  chunk : Chunk
deriving DecidableEq, Repr

/-! ## Contexts (R14, R15, R18) -/

/-- A command or request fault waiting to be taken (R109, R172, R190): its rank among faults of one cycle (0 matrix, 1–4 copy
channels, 5 requests), code, TVALL, TVALH. -/
structure Deferred where
  rank : Nat
  code : Byte
  lo : Word
  hi : Word
deriving DecidableEq, Repr

/-- A resident context: the fields of its configuration (R18), its launch, virtual device and code image, what its instructions
wrote, and what its engines hold: accumulators, q0, q1, matrix registers as started writes left them, QSTAT, MSEQ, copy ID
counters, XIDC and IDs completed beyond it, pending deferred faults, whether released commands are discarded until a trap
(R109, R172), debug and halted (R269, R312), vacate pending and vdone (R255), its last switch count and the end of its range (R277), the place of its image in memory
(R143), and whether its core has saved it since its install (R20). `code` holds the bytes of the image as the core's cache took them, line by line (R187). -/
structure Ctx where
  id : Half
  slot : Nat
  launch : Word
  vdev : Nat
  prot : Bool
  base : Nat
  size : Nat
  slotQ : Nat
  accQ : Nat
  save : DWord
  block : DWord
  upcls : Option (BitVec 5)
  code : List Byte
  prog : Prog
  acc : Vector (Vector Word 256) 8
  q0 : List Word
  q1 : List (Word × BitVec 2)
  q1wait : List (Word × BitVec 2)
  hw : Vector Word 16
  qstat : Word
  mseq : Word
  xid : Vector Word 4
  xidc : Vector Word 4
  xdone : List (BitVec 2 × Word)
  faults : List Deferred
  mdrop : Bool
  cdrop : List (BitVec 2)
  debug : Bool
  halted : Bool
  vacate : Bool
  vdone : Bool
  switches : Nat
  granted : Nat
  codeKey : Nat
  saved : Bool
deriving DecidableEq, Repr

/-! ## Cores -/

/-- An entry of the handler table (R177), with its actor terms (R178): queue, output, count. -/
structure Handler where
  slot : Nat
  high : Bool
  actor : Bool
  kind : BitVec 3
  ctx : Half
  pc : Word
  terms : List (QReg × Bool × Nat)
deriving DecidableEq, Repr

/-- A firing that is ready and has not started (R179, R181): class, kind, network of its inbox slot (none for a local event or an
actor), the sender's pri, length, source, event word, payload, cause's launch, ready cycle. -/
structure Ready where
  cls : BitVec 5
  kind : BitVec 3
  inbox : Option Bool
  pri : Bool
  len : Nat
  src : BitVec 21
  evt : Word
  payload : Vec
  launch : Word
  cycle : DWord
deriving DecidableEq, Repr

/-- What the thaw unit keeps of a wait under the park cases (R154–R157): a number that names it (DESIGN CHOICE, log 50), the cycle its count started, the wait
stamp once it has been reported, and the waits on the cycle whose true deadlock it has reported. -/
structure ThawWait where
  key : Nat
  since : DWord
  stamp : Option Word
  dead : List Nat
deriving DecidableEq, Repr

/-- A parked firing (R151): the context's slot, the queue it waits on, whether its wait is a push, whether it has been woken. -/
structure Park where
  key : Nat
  slot : Nat
  q : QReg
  push : Bool
  woken : Bool
  thaw : ThawWait
  fir : Firing
deriving DecidableEq, Repr

/-- A record of the run queue (R181). -/
inductive RunRec
  | fresh (r : Ready)
  | parked (key : Nat) (cls : BitVec 5) (high : Bool) (cycle : DWord)
deriving DecidableEq, Repr

/-- What waits for a shared record of the run queue, in the order it began to wait (R181): an event of the pending store, an
actor's pending bit, a woken park record. -/
inductive Waiter
  | event (r : Ready)
  | actor (cls : BitVec 5)
  | park (key : Nat)
deriving DecidableEq, Repr

/-- A barrier (R204), with the launch its last binit recorded (R179). -/
structure Bar where
  expected : Half
  arrivals : Half
  pending : BitVec 48
  phase : Bool
  cls : BitVec 5
  enable : Bool
  launch : Word
  held : Bool
deriving DecidableEq, Repr

/-- An open reduction round (R209): destination, parameters, contributions combined. -/
structure Round where
  dst : DWord
  count : Nat
  ty : VTy
  op : BitVec 2
  parts : Nat
  k : Nat
deriving DecidableEq, Repr

/-- A part of a contribution that has come to a reduction agent before the rest of it (R209, R215): its source, the number of its transfer there, its place, its bytes. -/
structure Part where
  src : BitVec 21
  key : Nat
  off : Nat
  bytes : List Byte
deriving DecidableEq, Repr

/-- An entry of the request or reply pool (R188): which pool, sequence number, context, and the packet kept for retries. -/
structure PoolEntry where
  reply : Bool
  seq : Half
  ctx : Half
  packet : Packet
deriving DecidableEq, Repr

/-- A forwarding stub (R223): context, class mask, new coordinate. -/
structure Stub where
  ctx : Half
  mask : Word
  at_ : BitVec 21
deriving DecidableEq, Repr

/-- A stored error of the scratchpad (R134, R139): bank 0–15 or 16–19 for P0–P3, row, bits flipped, and whether it stays stored. -/
structure Flip where
  bank : Nat
  row : Nat
  bits : List Nat
  persist : Bool
deriving DecidableEq, Repr

/-- An entry of the error log (R140). (DESIGN CHOICE, log 15.) -/
structure LogEntry where
  bank : Nat
  row : Nat
  syndrome : Byte
  cls : Byte
  ctx : Half
  cycle : DWord
deriving DecidableEq, Repr

/-- What a wait that holds the core waits for (R96, R97, R102, R133, R151, R159, R170, R171, R188, R205, R238, R239, R278); `link` is fence.s. -/
inductive WaitFor
  | slot (n : Nat)
  | matrixRoom
  | matrixDrain
  | request
  | reply
  | copyRoom (k : BitVec 2)
  | transfer (k : BitVec 2) (id : Word)
  | pop (q : QReg)
  | window (q : QReg)
  | parkRoom (q : QReg) (push : Bool) (t : ThawWait)
  | phase (b : BitVec 7) (p : Bool)
  | fence
  | sync (core : Nat) (pairs : List (Nat × Nat))
  | saveDrain
  | link
deriving DecidableEq, Repr

/-- An answer that a firing waits for: an amo's old value (R196), a claim (R74), a mark (R299), a pool grant (R166), a firmware
service (R280), a translated load (R79), the writes of ctxsav or of a firmware service's block that are held for these pages (R278, R280, R302), with the
tag that a ctxsav writes after them; those of the switch that its start made (R20, R277). -/
inductive Answer
  | atomic (rt : Reg) (dbl : Bool) (ea : DWord)
  | claim (rd : Reg) (ea : DWord)
  | mark
  | grant (ch : BitVec 15)
  | service (rd : Reg) (block : DWord) (n : BitVec 6)
  | load
  | saved (pages : List Nat) (tag : Option (DWord × List Byte))
  | switched (pages : List Nat)
  | served (rd : Reg) (v : Word) (pages : List Nat)
deriving DecidableEq, Repr

/-- What follows the commit of a chunk that has ended (R231): the instruction at pc, the end of an lbsync (R234), the firing's end, a
trap, a wait, a park, a preemption, the wait for an answer. -/
inductive After
  | run
  | sync
  | finish
  | trap (code : Byte) (lo hi : Word) (deferred : Bool)
  | wait (w : WaitFor)
  | park (q : QReg) (push : Bool)
  | preempt
  | answer (a : Answer)
deriving DecidableEq, Repr

/-- What a core is doing (R182, R187, R229, R231, R232, R265). -/
inductive Status
  | idle
  | fetch
  | running
  | solo
  | ending (a : After)
  | granted (a : After)
  | entry (code : Byte) (lo hi : Word) (deferred : Bool)
  | waiting (w : WaitFor)
  | answer (a : Answer)
deriving DecidableEq, Repr

/-- What a load does with its bytes (R77, R125): a scalar, sign-extended or not; a pair; lanes of a vector; one element to the
lanes of a mask. -/
inductive LoadKind
  | scalar (signed : Bool)
  | pair
  | lanes
  | bcast (size : Nat) (mask : DWord)
deriving DecidableEq, Repr

/-- A load (R79): its kind, destination, the address that a failing read reports (none: its piece's), and its pieces: address, byte of the
destination, size. -/
structure LoadWait where
  kind : LoadKind
  rt : Reg
  tval : Option DWord
  pieces : List (DWord × Nat × Nat)
deriving DecidableEq, Repr

/-- A core (R14, R128–R140, R177, R181, R188, R204, R209, R220, R223): the running context `ctx` and its firing `fir` stand
in fields of their own, the other resident contexts in `others`; `port` holds released private-alias stores that its bank has not performed (those of a vst marked, R127), `lag`
the bytes before writes of others that its private port has not seen, oldest first (R234); `waits` holds the wait count of each parity group (R131);
`entering` holds the released commands that have not entered the matrix queue `mq` yet, in order (R9, R97); `ported` says that a queued register write
has started in this cycle of the unit (R99), `ran` that the core has executed an instruction since the unit's last cycle (DESIGN CHOICE, log 28); `doubles` counts double-bit errors (R310); `barq` holds what the barrier agent is to treat with this cycle's updates (R206); `resident` says whether `ctx` is installed, `last` whether it
was the last to run (R20), `under` is a preempted firing (R183). -/
structure Core where
  mem : Mem
  stale : List (Nat × Nat)
  waits : Vector Nat 4
  flips : List Flip
  poison : List Nat
  fixes : List (Nat × Nat)
  scrubRow : Vector Nat 20
  lasting : List (Nat × DWord)
  degraded : List (Nat × Nat)
  errcnt : Word
  einj : Word
  errlog : List LogEntry
  doubles : Nat
  port : List (Nat × List Byte × Half × Bool)
  lag : List Mem
  handlers : List (BitVec 5 × Handler)
  clsmsk : Word
  clsptr : Nat
  bars : List (BitVec 7 × Bar)
  barq : List BarOp
  loader : List LoaderRec
  mq : List MCmd
  entering : List MCmd
  ported : Bool
  ran : Bool
  copies : List Transfer
  rounds : List Round
  arrived : List Part
  runq : List RunRec
  waiting : List Waiter
  parks : List Park
  pool : List PoolEntry
  seqReq : Half
  seqRep : Half
  stubs : List Stub
  departed : List (BitVec 5 × Half)
  cache : List (Half × Nat)
  routes : List (BitVec 5 × Byte)
  fenced : Bool
  status : Status
  ctx : Ctx
  resident : Bool
  others : List Ctx
  last : Bool
  fir : Firing
  under : Option Firing
  serial : Nat
  load : Option LoadWait
deriving DecidableEq, Repr

/-! ## Tiles (R24, R146, R153, R187, R229, R250) -/

/-- A channel (R146) with the state of its two ends and its streamer: direct elements released and not acknowledged, spill
reservations released (sr), spilling and xoff as the producer sees them, its episode bit, eos set; elements that have entered
the ring, a refill on its way with the elements it still owes once it has begun, the marker's index, the marker popped; the streamer's episode, the slots written ahead of tail,
the index of slot 0 of the episode, whether an empty notice is due; pool bytes drawn. -/
structure Chan where
  idx : BitVec 15
  producer : BitVec 21
  consumer : BitVec 21
  prodCtx : Half
  consCtx : Half
  ring : Nat
  capacity : Nat
  esize : Nat
  off : Nat
  on : Nat
  f : Nat
  streamer : Nat
  spillBase : DWord
  limit : Nat
  head : Nat
  tail : Nat
  grow : Nat
  written : DWord
  read : DWord
  xoff : Bool
  spillBit : Bool
  eosBit : Bool
  suspect : Bool
  prodBound : Bool
  consBound : Bool
  bound : Bool
  out : Nat
  sr : Nat
  spilling : Bool
  prodXoff : Bool
  episode : Bool
  entered : Nat
  refill : Bool
  owed : Nat
  marker : Option Nat
  eosPopped : Bool
  strEpisode : Bool
  ahead : List Nat
  epBase : Nat
  notice : Bool
  drawn : Nat
  launch : Word
  vdev : Nat
deriving DecidableEq, Repr

/-- An entry of the time-share table (R260), with the W last looked at and whether its event has been posted for it. -/
structure TimeEntry where
  idx : Nat
  vdev : Nat
  weight : Nat
  quantum : Nat
  seen : Nat
  posted : Bool
deriving DecidableEq, Repr

/-- The progress of a transfer (R255): not in transfer; step 1; step 2 with the dropped count and the cycle its budget began; steps 4–6 with tiles still to notify. -/
inductive Xfer
  | none
  | quiesce (dst : Nat)
  | vacate (dst dropped since : Nat)
  | drain (dst : Nat)
  | notify (src dst : Nat) (left : List (Nat × Bool))
deriving DecidableEq, Repr

/-- Who asks for a grant beside a core's chunk (R229): a step of an agent, or a row of a matrix command of core `c`, with so many rows behind it (R100). -/
inductive Asker
  | step (e : Ev)
  | row (c : Nat) (ctx : Half) (seq : Word) (left : Nat)
deriving DecidableEq, Repr

/-- A request of an agent (R229): its place in the pointer's order (128 and on), the cycle of the request, the signatures of its chunk, whether it has been
granted and is still to be performed, and what it asks for. -/
structure Ask where
  place : Nat
  since : DWord
  rsig : Vec
  wsig : Vec
  won : Bool
  what : Asker
deriving DecidableEq, Repr

/-- A tile: territory registers (R250), transfer, channel table, context store (images by ID, the least recently used first), THAWCFG, the
commit arbiter's pending requests of cores in order of arrival with their cycle, those of agents, its pointer, the cores granted and not complete, the solo queue; and, at a home tile
(R258), spill pool, directory and time-share table with the entry served, its quanta used and the cycle its quantum ends; the launch that made it home. -/
structure Tile where
  ter : BitVec 6
  mask : DWord
  size : BitVec 7
  stated : Bool
  demand : Half
  press : Half
  anchor : Bool
  steward : Option (Half × Nat)
  shared : Bool
  side : BitVec 2
  hold : BitVec 4
  xfer : Xfer
  chans : List Chan
  store : List (Half × List Byte)
  thaw : Word
  reqs : List (Nat × DWord)
  asks : List Ask
  ptr : Nat
  granted : List Nat
  solo : List Nat
  home : Bool
  pool : DWord
  dir : List (Half × BitVec 21)
  times : List TimeEntry
  turn : Nat
  used : Nat
  ends : Nat
  homeLaunch : Word
deriving DecidableEq, Repr

/-! ## The device -/

/-- A leaf of a virtual device's tables (R290): size 0 64 KiB, 1 2 MiB, 2 1 GiB. -/
structure Leaf where
  v : Nat
  va : DWord
  size : Nat
  pa : DWord
  rd : Bool
  wr : Bool
  target : Nat
  pkg : Byte
deriving DecidableEq, Repr

/-- Who waits for the answer of a MAP or UNMAP: an admin command from a queue or the mailbox, or the firing with a serial number on a core. -/
inductive MapAsker
  | via (q : Option Nat)
  | core (c serial : Nat)
deriving DecidableEq, Repr

/-- An invalidation under way (R295): a leaf that its tables no longer hold, with the tiles that have not acknowledged it and who waits for the answer. -/
structure Fading where
  who : MapAsker
  leaf : Leaf
  tiles : List Nat
deriving DecidableEq, Repr

/-- A virtual device (R289, R293): weight, fence range, host window, tenant handle (0 none). -/
structure VDev where
  v : Nat
  weight : Nat
  fenceLo : Nat
  fenceHi : Nat
  winLo : DWord
  winHi : DWord
  handle : DWord
deriving DecidableEq, Repr

/-- The configuration of a context in a launch record (R18, R34, R35), held by the context store under its ID, with the length and
the place of its code image. (DESIGN CHOICE, log 13.) -/
structure CtxConfig where
  id : Half
  base : Nat
  size : Nat
  slotQ : Nat
  accQ : Nat
  save : DWord
  prot : Bool
  classes : List (BitVec 5 × Handler)
  codeLen : Nat
  codeKey : Nat
  data : List Byte
deriving DecidableEq, Repr

/-- A channel declaration (R36). -/
structure ChanDecl where
  entry : Nat
  prod : Half
  cons : Half
  esize : Nat
  capacity : Nat
  ring : Nat
  spillBase : DWord
  limit : Nat
deriving DecidableEq, Repr

/-- A launch record (R37, R245), which the host's runtime places at a VA of a virtual device; its byte layout is not in the spec (DESIGN CHOICE, log 13). -/
structure Record where
  v : Nat
  va : DWord
  ctxs : List CtxConfig
  places : List (Half × Nat)
  chans : List ChanDecl
  start : Half
  arg : Word
  kends : Nat
  fence : Nat
  steward : Option Half
  block : DWord
  pool : DWord
  owned : Bool
deriving DecidableEq, Repr

/-- A launch (R287). -/
structure Launch where
  id : Word
  v : Nat
  va : DWord
  kends : Nat
  need : Nat
  fence : Nat
  queue : Nat
  ter : Nat
  done : Bool
  ctxs : List CtxConfig
deriving DecidableEq, Repr

/-- A walk (R285): its number in order of creation, its dispatcher's die, virtual device and queue, its node, the launch it waits for, and the
bytes that the COPY node it is at has performed, once it has begun. -/
structure Walk where
  num : Nat
  die : Nat
  v : Nat
  queue : Nat
  node : DWord
  awaits : Option Word
  copied : Option Nat
deriving DecidableEq, Repr

/-- What a dispatcher serves (R288): the virtual device of the current turn, the steps it has taken in this pass, and each virtual device's pointer
past its last winner, over queue numbers and then walks from 32,768 on. -/
structure Disp where
  vd : Nat
  used : Nat
  ptrs : List (Nat × Nat)
deriving DecidableEq, Repr

/-- A shard of a checkpoint job (R297). -/
structure Shard where
  id : Word
  va : DWord
  len : Nat
deriving DecidableEq, Repr

/-- A page of a checkpoint in progress (R301): source page (a global-memory key), VA, destination offset, digest once copied. -/
structure CkPage where
  key : Nat
  va : DWord
  off : Nat
  shard : Nat
  digest : List Byte
deriving DecidableEq, Repr

/-- A checkpoint job (R297–R305): its descriptor, marks so far, marks of a boundary step held (core, firing), the base of its next boundary, the
timer fired, arming, and the checkpoint in progress (pages left, pages copied, step, cycle at the end of arming, an address of a shard page unmapped under it). -/
structure Job where
  id : Nat
  v : Nat
  stepKind : Bool
  trigger : Nat
  marksPer : Nat
  fence : Nat
  dest : DWord
  shards : List Shard
  share : Nat
  queue : Nat
  marks : Nat
  held : List (Nat × Nat)
  lastStep : Nat
  since : DWord
  fired : Bool
  boundary : Option Nat
  arming : Bool
  active : Bool
  left : List CkPage
  copied : List CkPage
  step : Nat
  armedAt : DWord
  lost : Option Nat
deriving DecidableEq, Repr

/-- A write held at its streamer for a protected page (R302): the step that made it, the place it goes to, and the bytes that arrived for it where the step
does not carry them. -/
structure HeldWrite where
  step : Ev
  place : Nat
  bytes : List Byte
deriving DecidableEq, Repr

/-- A restore in its second pass (R306): virtual device, fence counter, event queue, the pages still to write (source and target VA, digest), and
the shards' ranges. -/
structure Restore where
  v : Nat
  fence : Nat
  queue : Nat
  left : List (Nat × Nat × List Byte)
  ranges : List (Nat × Nat)
deriving DecidableEq, Repr

/-- A move inside a unit that no row of the opcode table stands for (DESIGN CHOICE, log 3): the scratchpad stores of a core's granted chunk leave (R231), the
next private one reaches its banks, or the private port sees the oldest write of another (R234); a cycle of a core's matrix unit (R9, R10, R99); the next row of the k-th matrix command is
committed (R100); the k-th host-memory write completes on its link (R239); a home tile looks at a change of W (R260); a tile acknowledges the k-th
invalidation (R295); a restore writes its next page (R306); the mailbox takes the next command submitted (R307). -/
inductive Inner
  | storesLeave (c : Nat)
  | portDrain (c : Nat)
  | portSee (c : Nat)
  | unitCycle (c : Nat)
  | rowCommit (c k : Nat)
  | linkDone (k : Nat)
  | quantumNote (t : Nat)
  | acknowledge (k : Nat)
  | restorePage
  | mailboxTake
deriving DecidableEq, Repr

/-- A write of host memory that is performed at its streamer and not complete on the link (R239): the core it came from, its place, the bytes before it. -/
structure LinkWrite where
  core : Nat
  key : Nat
  old : List Byte
deriving DecidableEq, Repr

/-- Which agent moves next (DESIGN CHOICE, log 3): the current core's instruction, a step enabled by the state, the k-th step of the agenda, the drop
of what the k-th step carries over the mesh, the refusal of a piece of data that an engine sends, a move inside a unit, or nothing but time. -/
inductive Turn
  | core
  | auto (e : Ev)
  | event (k : Nat)
  | drop (k : Nat)
  | refused (e : Ev)
  | inner (i : Inner)
  | idle
deriving DecidableEq, Repr

/-- A context that a time-share switch has put out of its core (R261), with what its save area does not hold: its territory, core, handler
entries, mask bits, pending actors, the causes' launches of its ready firings, and its parked firings as they were. (DESIGN CHOICE, log 20.) -/
structure Swapped where
  ter : Nat
  core : Nat
  ctx : Ctx
  classes : List (BitVec 5 × Handler)
  mask : Word
  actors : Word
  ready : List Ready
  parks : List Park
deriving DecidableEq, Repr

/-- HEALTH (R312). -/
structure Health where
  lastFail : Nat
  counts : List (Nat × Nat)
  badPages : List Nat
  ports : List Nat
  watts : Nat
  die : Nat
  coolant : Nat
  clocks : Nat
deriving DecidableEq, Repr

/-- The part. `phase` counts the drift phases that have begun (R252), `seen` holds the tails that the
dispatchers have seen (R282), `finishing` the entries that were in progress when a QUEUE command wrote their queue, with the virtual device they are served for (R289), `tables` the 64 KiB page of each table of the trees of R290, by virtual device, level and the VA bits above it, `fading` the invalidations under way (R295), `submitted` the input payloads of mailbox commands not yet taken (R307), `service` the requests at the firmware controller (R280), `progress` the units done of a READ or WRITE under way, its status and the bytes read (R312), `tries` how often messages on their way have been refused (R219), `lost` where contexts were last removed, by territory and ID (R223), `link` the writes of host memory not complete on their link (R239), `owned` ranges of 64 KiB pages (first, count) with their owner (R293), `gone` the event rings of cancelled launches (R179), `dropped` the upcalls that no context or steward takes, by event word and cycle (R246, R258). `core` is the core with index `cur` (128·y + x); the others that differ from a core after reset stand in `others`. -/
structure State where
  cur : Nat
  core : Core
  others : List (Nat × Core)
  tiles : Vector Tile 64
  cycle : DWord
  tick : Nat
  turn : Turn
  agenda : List Ev
  gmem : Mem
  badLines : List Nat
  qbase : Nat
  fbase : Nat
  leaves : List Leaf
  tables : List ((Nat × Nat × Nat) × Nat)
  fading : List Fading
  owned : List (Nat × Nat × Nat)
  tenants : List (DWord × List Byte)
  vdevs : List VDev
  pairs : List (Nat × Nat × Nat)
  ports : List (Nat × Nat)
  records : List Record
  launches : List Launch
  gone : List (Word × Nat)
  launchCount : Vector Nat 4
  walks : List Walk
  walkCount : Nat
  disp : Vector Disp 4
  seen : List (Nat × Nat)
  finishing : List (Nat × Nat × List Byte)
  swapped : List Swapped
  dropped : List (Word × DWord)
  phase : Nat
  driv : Word
  drthr : Word
  drhold : Word
  vacb : Word
  lost : List ((BitVec 6 × Half) × Nat × Word)
  saveN : List (DWord × Half × Nat)
  saveE : List (DWord × Half × Nat)
  switchN : List (DWord × Half × Nat)
  jobs : List Job
  protect : List Nat
  held : List HeldWrite
  link : List LinkWrite
  signers : List (DWord × List Byte)
  restore : Option Restore
  service : List Packet
  progress : Option (Nat × Nat × List Byte)
  tries : List (Ev × Nat)
  failed : Nat
  recovery : Bool
  stopped : Bool
  atBreak : Bool
  up : Bool
  firstStart : Bool
  fwRun : Option (List Byte)
  fwNext : Option (List Byte)
  clock : Nat
  health : Health
  mailbox : List Byte
  submitted : List (List Byte)
deriving DecidableEq, Repr

/-! ## Reset -/

def Level.shut : Level := ⟨0, 0, 0, 0, 0, false⟩
/-- The registers a firing starts from before R17's table is applied: zero, extents 1 (R17, R72). -/
def Regs.zero : Regs := ⟨.replicate 64 0, .replicate 8 0, .replicate 4 0, .replicate 4 1, .shut, .shut, 0, 0⟩
def TrapRegs.zero : TrapRegs := ⟨0, 0, 0⟩
def Slot.empty : Slot := ⟨false, none, false, 0, false, []⟩
/-- The matrix registers at install (R101): BANDO 0x3F80, OTHR 0x7F80_0000. -/
def matrixReset : Vector Word 16 := ((Vector.replicate 16 (0 : Word)).set 10 0x3F80).set 12 0x7F800000
/-- A context's registers at install (R15, R94, R101, R185, R189, R212, R263). -/
def Prog.reset : Prog :=
  ⟨.replicate 64 0, 0, 0, 0, false, 0, 0, 0x100000, 16, matrixReset, .replicate 16 .empty, [], .zero, .zero⟩
def Chunk.fresh : Chunk := ⟨[], 0, 0, 0, 0, 0, false, none, 0⟩
def Firing.zero : Firing := ⟨.zero, false, .replicate 8 0, false, 0, 0, false, false, false, 0, false, 0, 0, 0, .fresh⟩
def Ctx.none : Ctx :=
  ⟨0, 0, 0, 0, false, 0, 0, 0, 0, 0, 0, .none, [], .reset, .replicate 8 (.replicate 256 0), [], [], [], matrixReset, 0, 0,
   .replicate 4 0, .replicate 4 0, [], [], false, [], false, false, false, false, 0, 0, 0, false⟩
/-- A core after a start with no retired bank on record (R256, R308). (DESIGN CHOICE, log 8.) -/
def Core.reset : Core :=
  ⟨[], [], .replicate 4 0, [], [], [], .replicate 20 0, [], [], 0, 0, [], 0, [], [], [], 0, 0, [], [], [], [], [], false, false, [], [], [], [], [], [], [], 0, 0, [], [],
   [], [], false, .idle, .none, false, [], false, .zero, none, 0, none⟩
/-- A tile after a start (R153, R250, R256). (DESIGN CHOICE, log 8.) -/
def Tile.reset : Tile :=
  ⟨0, 0, 0, false, 0, 0, false, none, false, 0, 0, .none, [], [], 0x80010000, [], [], 0, [], [], false, 0, [], [], 0, 0, 0, 0⟩
def Health.reset : Health := ⟨0, [], [], [], 0, 0, 0, 0⟩

/-- The part right after a start (R251, R293, R308): every tile free and cleared, no launch, virtual device 0 alone, the drift
parameters at their reset values. (DESIGN CHOICE, log 1.) (DESIGN CHOICE, log 6.) (DESIGN CHOICE, log 8.) (DEDUCED, log 41.) -/
def State.reset : State where
  cur := 0
  core := .reset
  others := []
  tiles := .replicate 64 .reset
  cycle := 0
  tick := 0
  turn := .idle
  agenda := []
  gmem := []
  badLines := []
  qbase := 0
  fbase := 0x200000
  leaves := []
  tables := []
  fading := []
  owned := []
  tenants := []
  vdevs := [⟨0, 1, 0, 0, 0, 0, 0⟩]
  pairs := []
  ports := []
  records := []
  launches := []
  gone := []
  launchCount := .replicate 4 0
  walks := []
  walkCount := 0
  disp := .replicate 4 ⟨0, 0, []⟩
  seen := []
  finishing := []
  swapped := []
  dropped := []
  phase := 0
  driv := 0x20000
  drthr := 0x1000
  drhold := 4
  vacb := 0x100000
  lost := []
  saveN := []
  saveE := []
  switchN := []
  jobs := []
  protect := []
  held := []
  link := []
  signers := []
  restore := none
  service := []
  progress := none
  tries := []
  failed := 0
  recovery := false
  stopped := false
  atBreak := false
  up := true
  firstStart := false
  fwRun := none
  fwNext := none
  clock := 2400
  health := .reset
  mailbox := []
  submitted := []

end Sys2Proof.Machine
end

