-- ==== Sys2Proof/Machine/Mem.lean ====
section
/-! DEFINITION. Bytes, byte order and the canonical byte lists of memories. -/

namespace Sys2Proof.Machine

/-- The `n` low bytes of a number, least significant first (R3). -/
def leBytes : Nat → Nat → List Byte
  | 0, _ => []
  | n + 1, v => BitVec.ofNat 8 v :: leBytes n (v / 256)
/-- The number that bytes hold, least significant first (R3). -/
def ofBytes : List Byte → Nat
  | [] => 0
  | b :: bs => b.toNat + 256 * ofBytes bs
/-- Bytes `i` to `i + n − 1` of a list, zero past its end. -/
def slice (bs : List Byte) (i n : Nat) : List Byte := (bs.drop i).take n ++ List.replicate (n - (bs.length - i)) 0
/-- The little-endian number in `n` bytes at `i`. -/
def le (bs : List Byte) (i n : Nat) : Nat := ofBytes (slice bs i n)
/-- The bytes of a vector, byte 0 first. -/
def vecBytes (v : Vec) (n : Nat) : List Byte := leBytes n v.toNat
/-- The vector whose low bytes are these. -/
def bytesVec (bs : List Byte) : Vec := BitVec.ofNat 512 (ofBytes bs)
/-- Sign extension of an immediate to 32 bits. -/
def sx {n : Nat} (x : BitVec n) : Word := x.signExtend 32
/-- Sign extension of an immediate to 64 bits. -/
def sxd {n : Nat} (x : BitVec n) : DWord := x.signExtend 64
/-- Bool(c) of R57. -/
def bit (c : Bool) : Word := if c then 1 else 0
/-- The low and high words of an address. -/
def lo32 (x : DWord) : Word := x.setWidth 32
def hi32 (x : DWord) : Word := (x >>> 32).setWidth 32

namespace Mem

/-- The byte at an address; one that is not listed is zero (log 5, R256). -/
def get : Mem → Nat → Byte
  | [], _ => 0
  | (a, b) :: m, i => if i = a then b else if i < a then 0 else get m i
/-- Write one byte; a zero leaves no entry. -/
def set : Mem → Nat → Byte → Mem
  | [], i, v => if v = 0 then [] else [(i, v)]
  | (a, b) :: m, i, v =>
    if i < a then (if v = 0 then (a, b) :: m else (i, v) :: (a, b) :: m)
    else if i = a then (if v = 0 then m else (i, v) :: m)
    else (a, b) :: set m i v
/-- `n` bytes from an address. -/
def read (m : Mem) (i : Nat) : Nat → List Byte
  | 0 => []
  | n + 1 => get m i :: read m (i + 1) n
/-- Write bytes from an address on. -/
def write (m : Mem) (i : Nat) : List Byte → Mem
  | [] => m
  | b :: bs => write (set m i b) (i + 1) bs
/-- Zero the bytes of a range. -/
def clear (m : Mem) (i n : Nat) : Mem := m.filter fun c => !(decide (i ≤ c.1) && decide (c.1 < i + n))
/-- Every address is at least `lo`, addresses rise, and no byte is zero. -/
def above : Nat → Mem → Bool
  | _, [] => true
  | lo, (a, b) :: m => decide (lo ≤ a) && b != 0 && above (a + 1) m
/-- The canonical form. -/
def wf (m : Mem) : Bool := above 0 m

end Mem

/-! ## Small list operations -/

/-- The value under a key. -/
def look {α β : Type} [DecidableEq α] (l : List (α × β)) (k : α) : Option β :=
  match l with
  | [] => none
  | (a, b) :: r => if a = k then some b else look r k
/-- Set the value under a key, in the place of an old one or at the end. -/
def upd {α β : Type} [DecidableEq α] (l : List (α × β)) (k : α) (v : β) : List (α × β) :=
  match l with
  | [] => [(k, v)]
  | (a, b) :: r => if a = k then (k, v) :: r else (a, b) :: upd r k v
/-- Drop the value under a key. -/
def del {α β : Type} [DecidableEq α] (l : List (α × β)) (k : α) : List (α × β) := l.filter fun e => e.1 ≠ k
/-- The value under a pair of keys. -/
def look2 {α β γ : Type} [DecidableEq α] [DecidableEq β] (l : List (α × β × γ)) (a : α) (b : β) : Option γ :=
  match l with
  | [] => none
  | (x, y, c) :: r => if x = a ∧ y = b then some c else look2 r a b
/-- Set the value under a pair of keys. -/
def upd2 {α β γ : Type} [DecidableEq α] [DecidableEq β] (l : List (α × β × γ)) (a : α) (b : β) (v : γ) : List (α × β × γ) :=
  match l with
  | [] => [(a, b, v)]
  | (x, y, c) :: r => if x = a ∧ y = b then (a, b, v) :: r else (x, y, c) :: upd2 r a b v
/-- Replace the first element that satisfies a test. -/
def updFirst {α : Type} (l : List α) (t : α → Bool) (f : α → α) : List α :=
  match l with
  | [] => []
  | a :: r => if t a then f a :: r else a :: updFirst r t f
/-- Remove the first element that satisfies a test. -/
def delFirst {α : Type} (l : List α) (t : α → Bool) : List α :=
  match l with
  | [] => []
  | a :: r => if t a then r else a :: delFirst r t
/-- Element `n` replaced. -/
def setIdx {α : Type} (l : List α) (n : Nat) (v : α) : List α := l.set n v
/-- An element of a vector by a number, or a default past its end. -/
def vget {α : Type} {n : Nat} (v : Vector α n) (i : Nat) (d : α) : α := if h : i < n then v[i] else d
/-- A vector with one element replaced; a number past its end changes nothing. -/
def vset {α : Type} {n : Nat} (v : Vector α n) (i : Nat) (a : α) : Vector α n := if h : i < n then v.set i a else v

end Sys2Proof.Machine
end

