-- ==== Sys2Proof/Machine/Crypto.lean ====
section
/-! DEFINITION. The algorithms that the spec names and does not lay out (R276, R303, R311): SHA-512 and HKDF with it, AES-256 and GCM. -/

namespace Sys2Proof.Machine

/-- The `n` low bytes of a number, most significant first. -/
def beBytes (n v : Nat) : List Byte := (leBytes n v).reverse
/-- The number that bytes hold, most significant first. -/
def beNat (bs : List Byte) : Nat := ofBytes bs.reverse

/-! ## SHA-512 (FIPS 180-4; PRESUMED, log 12) -/

/-- The round constants. -/
def shaK : List DWord :=
  [0x428A2F98D728AE22, 0x7137449123EF65CD, 0xB5C0FBCFEC4D3B2F, 0xE9B5DBA58189DBBC, 0x3956C25BF348B538] ++
  [0x59F111F1B605D019, 0x923F82A4AF194F9B, 0xAB1C5ED5DA6D8118, 0xD807AA98A3030242, 0x12835B0145706FBE] ++
  [0x243185BE4EE4B28C, 0x550C7DC3D5FFB4E2, 0x72BE5D74F27B896F, 0x80DEB1FE3B1696B1, 0x9BDC06A725C71235] ++
  [0xC19BF174CF692694, 0xE49B69C19EF14AD2, 0xEFBE4786384F25E3, 0x0FC19DC68B8CD5B5, 0x240CA1CC77AC9C65] ++
  [0x2DE92C6F592B0275, 0x4A7484AA6EA6E483, 0x5CB0A9DCBD41FBD4, 0x76F988DA831153B5, 0x983E5152EE66DFAB] ++
  [0xA831C66D2DB43210, 0xB00327C898FB213F, 0xBF597FC7BEEF0EE4, 0xC6E00BF33DA88FC2, 0xD5A79147930AA725] ++
  [0x06CA6351E003826F, 0x142929670A0E6E70, 0x27B70A8546D22FFC, 0x2E1B21385C26C926, 0x4D2C6DFC5AC42AED] ++
  [0x53380D139D95B3DF, 0x650A73548BAF63DE, 0x766A0ABB3C77B2A8, 0x81C2C92E47EDAEE6, 0x92722C851482353B] ++
  [0xA2BFE8A14CF10364, 0xA81A664BBC423001, 0xC24B8B70D0F89791, 0xC76C51A30654BE30, 0xD192E819D6EF5218] ++
  [0xD69906245565A910, 0xF40E35855771202A, 0x106AA07032BBD1B8, 0x19A4C116B8D2D0C8, 0x1E376C085141AB53] ++
  [0x2748774CDF8EEB99, 0x34B0BCB5E19B48A8, 0x391C0CB3C5C95A63, 0x4ED8AA4AE3418ACB, 0x5B9CCA4F7763E373] ++
  [0x682E6FF3D6B2B8A3, 0x748F82EE5DEFB2FC, 0x78A5636F43172F60, 0x84C87814A1F0AB72, 0x8CC702081A6439EC] ++
  [0x90BEFFFA23631E28, 0xA4506CEBDE82BDE9, 0xBEF9A3F7B2C67915, 0xC67178F2E372532B, 0xCA273ECEEA26619C] ++
  [0xD186B8C721C0C207, 0xEADA7DD6CDE0EB1E, 0xF57D4F7FEE6ED178, 0x06F067AA72176FBA, 0x0A637DC5A2C898A6] ++
  [0x113F9804BEF90DAE, 0x1B710B35131C471B, 0x28DB77F523047D84, 0x32CAAB7B40C72493, 0x3C9EBE0A15C9BEBC] ++
  [0x431D67C49C100D4C, 0x4CC5D4BECB3E42B6, 0x597F299CFC657E2A, 0x5FCB6FAB3AD6FAEC, 0x6C44198C4A475817]
/-- The eight working words. -/
structure ShaWords where
  a : DWord
  b : DWord
  c : DWord
  d : DWord
  e : DWord
  f : DWord
  g : DWord
  h : DWord
/-- The initial hash value. -/
def shaStart : ShaWords :=
  ⟨0x6A09E667F3BCC908, 0xBB67AE8584CAA73B, 0x3C6EF372FE94F82B, 0xA54FF53A5F1D36F1, 0x510E527FADE682D1, 0x9B05688C2B3E6C1F, 0x1F83D9ABFB41BD6B, 0x5BE0CD19137E2179⟩
def ShaWords.add (x y : ShaWords) : ShaWords := ⟨x.a + y.a, x.b + y.b, x.c + y.c, x.d + y.d, x.e + y.e, x.f + y.f, x.g + y.g, x.h + y.h⟩
def ShaWords.bytes (x : ShaWords) : List Byte := [x.a, x.b, x.c, x.d, x.e, x.f, x.g, x.h].flatMap fun w => beBytes 8 w.toNat
/-- A round with a constant and a schedule word. -/
def ShaWords.round (x : ShaWords) (k w : DWord) : ShaWords :=
  let s1 := x.e.rotateRight 14 ^^^ x.e.rotateRight 18 ^^^ x.e.rotateRight 41
  let t1 := x.h + s1 + ((x.e &&& x.f) ^^^ (~~~x.e &&& x.g)) + k + w
  let s0 := x.a.rotateRight 28 ^^^ x.a.rotateRight 34 ^^^ x.a.rotateRight 39
  let t2 := s0 + ((x.a &&& x.b) ^^^ (x.a &&& x.c) ^^^ (x.b &&& x.c))
  ⟨t1 + t2, x.a, x.b, x.c, x.d + t1, x.e, x.f, x.g⟩
/-- The next schedule word behind a window of sixteen. -/
def shaNext (w : List DWord) : DWord :=
  let x := w.getD 1 0
  let y := w.getD 14 0
  (y.rotateRight 19 ^^^ y.rotateRight 61 ^^^ (y >>> 6)) + w.getD 9 0 + (x.rotateRight 1 ^^^ x.rotateRight 8 ^^^ (x >>> 7)) + w.getD 0 0
/-- One block of 128 bytes. -/
def shaBlock (x : ShaWords) (bs : List Byte) : ShaWords :=
  let w := (List.range 16).map fun i => BitVec.ofNat 64 (beNat (slice bs (8 * i) 8))
  x.add (shaK.foldl (fun (a : ShaWords × List DWord) k => (a.1.round k (a.2.getD 0 0), a.2.drop 1 ++ [shaNext a.2])) (x, w)).1
/-- SHA-512 of bytes. -/
def sha512 (m : List Byte) : List Byte :=
  let p := m ++ [0x80] ++ List.replicate ((239 - m.length % 128) % 128) 0 ++ beBytes 16 (8 * m.length)
  ((List.range (p.length / 128)).foldl (fun x i => shaBlock x (slice p (128 * i) 128)) shaStart).bytes
/-- Bytes combined by exclusive OR. -/
def xorBytes (a b : List Byte) : List Byte := List.zipWith (· ^^^ ·) a b
/-- HMAC with SHA-512, for a key of at most 128 bytes. -/
def hmac (key m : List Byte) : List Byte :=
  let k := slice key 0 128
  sha512 (k.map (· ^^^ 0x5C) ++ sha512 (k.map (· ^^^ 0x36) ++ m))
/-- The key of a protected context (R276): HKDF with SHA-512 from the tenant key, no salt, the context ID as the information string, 32 bytes. The order
of its two bytes and the want of a salt are not in the spec. (PRESUMED, log 12.) -/
def contextKey (tenant : List Byte) (id : Half) : List Byte :=
  (hmac (hmac (List.replicate 64 0) tenant) (leBytes 2 id.toNat ++ [1])).take 32

/-! ## AES-256 (FIPS 197; PRESUMED, log 12) -/

/-- The substitution box. -/
def sboxTable : List Byte :=
  [0x63, 0x7C, 0x77, 0x7B, 0xF2, 0x6B, 0x6F, 0xC5, 0x30, 0x01, 0x67, 0x2B, 0xFE, 0xD7, 0xAB, 0x76, 0xCA, 0x82, 0xC9, 0x7D, 0xFA, 0x59, 0x47, 0xF0, 0xAD, 0xD4, 0xA2, 0xAF, 0x9C, 0xA4, 0x72, 0xC0] ++
  [0xB7, 0xFD, 0x93, 0x26, 0x36, 0x3F, 0xF7, 0xCC, 0x34, 0xA5, 0xE5, 0xF1, 0x71, 0xD8, 0x31, 0x15, 0x04, 0xC7, 0x23, 0xC3, 0x18, 0x96, 0x05, 0x9A, 0x07, 0x12, 0x80, 0xE2, 0xEB, 0x27, 0xB2, 0x75] ++
  [0x09, 0x83, 0x2C, 0x1A, 0x1B, 0x6E, 0x5A, 0xA0, 0x52, 0x3B, 0xD6, 0xB3, 0x29, 0xE3, 0x2F, 0x84, 0x53, 0xD1, 0x00, 0xED, 0x20, 0xFC, 0xB1, 0x5B, 0x6A, 0xCB, 0xBE, 0x39, 0x4A, 0x4C, 0x58, 0xCF] ++
  [0xD0, 0xEF, 0xAA, 0xFB, 0x43, 0x4D, 0x33, 0x85, 0x45, 0xF9, 0x02, 0x7F, 0x50, 0x3C, 0x9F, 0xA8, 0x51, 0xA3, 0x40, 0x8F, 0x92, 0x9D, 0x38, 0xF5, 0xBC, 0xB6, 0xDA, 0x21, 0x10, 0xFF, 0xF3, 0xD2] ++
  [0xCD, 0x0C, 0x13, 0xEC, 0x5F, 0x97, 0x44, 0x17, 0xC4, 0xA7, 0x7E, 0x3D, 0x64, 0x5D, 0x19, 0x73, 0x60, 0x81, 0x4F, 0xDC, 0x22, 0x2A, 0x90, 0x88, 0x46, 0xEE, 0xB8, 0x14, 0xDE, 0x5E, 0x0B, 0xDB] ++
  [0xE0, 0x32, 0x3A, 0x0A, 0x49, 0x06, 0x24, 0x5C, 0xC2, 0xD3, 0xAC, 0x62, 0x91, 0x95, 0xE4, 0x79, 0xE7, 0xC8, 0x37, 0x6D, 0x8D, 0xD5, 0x4E, 0xA9, 0x6C, 0x56, 0xF4, 0xEA, 0x65, 0x7A, 0xAE, 0x08] ++
  [0xBA, 0x78, 0x25, 0x2E, 0x1C, 0xA6, 0xB4, 0xC6, 0xE8, 0xDD, 0x74, 0x1F, 0x4B, 0xBD, 0x8B, 0x8A, 0x70, 0x3E, 0xB5, 0x66, 0x48, 0x03, 0xF6, 0x0E, 0x61, 0x35, 0x57, 0xB9, 0x86, 0xC1, 0x1D, 0x9E] ++
  [0xE1, 0xF8, 0x98, 0x11, 0x69, 0xD9, 0x8E, 0x94, 0x9B, 0x1E, 0x87, 0xE9, 0xCE, 0x55, 0x28, 0xDF, 0x8C, 0xA1, 0x89, 0x0D, 0xBF, 0xE6, 0x42, 0x68, 0x41, 0x99, 0x2D, 0x0F, 0xB0, 0x54, 0xBB, 0x16]
def sbox (b : Byte) : Byte := sboxTable.getD b.toNat 0
/-- A byte doubled in AES's field. -/
def xtime (b : Byte) : Byte := (b <<< 1) ^^^ (if b.getLsbD 7 then 0x1B else 0)
/-- The next word of the key schedule: number `i` behind those before it. -/
def keyWord (ws : List (List Byte)) (i : Nat) (rcon : Byte) : List Byte :=
  let t := ws.getD (i - 1) []
  let t := if i % 8 = 0 then xorBytes ((t.drop 1 ++ t.take 1).map sbox) [rcon, 0, 0, 0] else if i % 8 = 4 then t.map sbox else t
  xorBytes (ws.getD (i - 8) []) t
/-- The sixty words of the key schedule. -/
def keySchedule (key : List Byte) : List (List Byte) :=
  ((List.range 52).foldl (fun (a : List (List Byte) × Byte) j =>
    (a.1 ++ [keyWord a.1 (j + 8) a.2], if (j + 8) % 8 = 0 then xtime a.2 else a.2)) ((List.range 8).map fun i => slice key (4 * i) 4, 1)).1
/-- The key of a round. -/
def roundKey (ws : List (List Byte)) (r : Nat) : List Byte := ((ws.drop (4 * r)).take 4).flatten
/-- The rows of a state of sixteen bytes, column by column, shifted. -/
def shiftRows (b : List Byte) : List Byte := (List.range 16).map fun i => b.getD ((i + 4 * (i % 4)) % 16) 0
def mixColumns (b : List Byte) : List Byte :=
  (List.range 16).map fun i =>
    let e (j : Nat) : Byte := b.getD (i / 4 * 4 + (i + j) % 4) 0
    xtime (e 0) ^^^ xtime (e 1) ^^^ e 1 ^^^ e 2 ^^^ e 3
/-- One block under a key schedule. -/
def aesBlock (ws : List (List Byte)) (b : List Byte) : List Byte :=
  let b := (List.range 13).foldl (fun b r => xorBytes (mixColumns (shiftRows (b.map sbox))) (roundKey ws (r + 1))) (xorBytes b (roundKey ws 0))
  xorBytes (shiftRows (b.map sbox)) (roundKey ws 14)

/-! ## GCM (NIST SP 800-38D; PRESUMED, log 12) -/

/-- The product of two blocks in GCM's field. -/
def gcmMul (x y : BitVec 128) : BitVec 128 :=
  ((List.range 128).foldl (fun (a : BitVec 128 × BitVec 128) i =>
    (if x.getLsbD (127 - i) then a.1 ^^^ a.2 else a.1, (a.2 >>> 1) ^^^ (if a.2.getLsbD 0 then (0xE1 : BitVec 128) <<< 120 else 0))) (0, y)).1
/-- GHASH of whole blocks. -/
def ghash (h : BitVec 128) (bs : List Byte) : BitVec 128 :=
  (List.range (bs.length / 16)).foldl (fun y i => gcmMul (y ^^^ BitVec.ofNat 128 (beNat (slice bs (16 * i) 16))) h) 0
/-- Bytes with zeros up to a whole block. -/
def toBlocks (bs : List Byte) : List Byte := bs ++ List.replicate ((16 - bs.length % 16) % 16) 0
/-- The key stream's first `n` bytes under a 12-byte nonce. -/
def gcmStream (ws : List (List Byte)) (nonce : List Byte) (n : Nat) : List Byte :=
  ((List.range ((n + 15) / 16)).flatMap fun i => slice (aesBlock ws (slice nonce 0 12 ++ beBytes 4 (i + 2))) 0 16).take n
/-- The tag of sealed bytes with their associated data. -/
def gcmTag (ws : List (List Byte)) (nonce aad sealed' : List Byte) : List Byte :=
  let h := BitVec.ofNat 128 (beNat (aesBlock ws (List.replicate 16 0)))
  let s := ghash h (toBlocks aad ++ toBlocks sealed' ++ beBytes 8 (8 * aad.length) ++ beBytes 8 (8 * sealed'.length))
  xorBytes (beBytes 16 s.toNat) (aesBlock ws (slice nonce 0 12 ++ [0, 0, 0, 1]))
/-- AES-256-GCM (R276): the sealed bytes of plain ones, and the tag. -/
def gcmSeal (key nonce aad plain : List Byte) : List Byte × List Byte :=
  let ws := keySchedule key
  let c := xorBytes plain (gcmStream ws nonce plain.length)
  (c, gcmTag ws nonce aad c)
/-- The plain bytes of sealed ones whose tag is right (R276). -/
def gcmOpen (key nonce aad sealed' tag : List Byte) : Option (List Byte) :=
  let ws := keySchedule key
  if tag = gcmTag ws nonce aad sealed' then some (xorBytes sealed' (gcmStream ws nonce sealed'.length)) else none

end Sys2Proof.Machine
end

