-- ==== Sys2Proof/Machine/Flags.lean ====
section
/-! DEFINITION. The number formats (R81–R83), block scales (R84), rounding with its flags (R86–R88), exact arithmetic on values, and
quantisation of a block (R92). -/

namespace Sys2Proof.Machine

/-! ## Formats -/

/-- Parameters of a format (R81): exponent bits, fraction bits, bias; `ieee`: an all-ones exponent holds infinities and NaNs;
`nan7`: S.1111.111 is a NaN (E4M3). -/
structure Fmt where
  ebits : Nat
  fbits : Nat
  bias : Nat
  ieee : Bool
  nan7 : Bool
deriving DecidableEq, Repr

def Fmt.f64 : Fmt := ⟨11, 52, 1023, true, false⟩
def Fmt.f32 : Fmt := ⟨8, 23, 127, true, false⟩
def Fmt.f16 : Fmt := ⟨5, 10, 15, true, false⟩
def Fmt.bf16 : Fmt := ⟨8, 7, 127, true, false⟩
def Fmt.e5m2 : Fmt := ⟨5, 2, 15, true, false⟩
def Fmt.e4m3 : Fmt := ⟨4, 3, 7, false, true⟩
def Fmt.e3m2 : Fmt := ⟨3, 2, 3, false, false⟩
def Fmt.e2m3 : Fmt := ⟨2, 3, 1, false, false⟩
def Fmt.e2m1 : Fmt := ⟨2, 1, 1, false, false⟩
/-- The format a code names (R7). -/
def Fmt.ofCode (c : BitVec 4) : Option Fmt :=
  match c.toNat with
  | 0 => some .bf16 | 1 => some .e5m2 | 2 => some .e4m3 | 3 => some .e3m2 | 4 => some .e2m3 | 5 => some .e2m1 | _ => none
/-- The format of a floating vector type (R111). -/
def tyFmt : VTy → Fmt
  | .f32 => .f32 | .bf16 => .bf16 | .f16 => .f16 | _ => .f64
def Fmt.bits (f : Fmt) : Nat := 1 + f.ebits + f.fbits
/-- The magnitude bits of the largest finite value (R83). -/
def Fmt.maxMag (f : Fmt) : Nat :=
  if f.ieee then (2 ^ f.ebits - 1) * 2 ^ f.fbits - 1 else 2 ^ (f.ebits + f.fbits) - (if f.nan7 then 2 else 1)
def Fmt.infMag (f : Fmt) : Nat := (2 ^ f.ebits - 1) * 2 ^ f.fbits
/-- The default NaN (R83); a format without one has none. -/
def Fmt.nanMag (f : Fmt) : Option Nat :=
  if f.ieee then some (f.infMag + 2 ^ (f.fbits - 1)) else if f.nan7 then some (2 ^ (f.ebits + f.fbits) - 1) else none
def Fmt.sign (f : Fmt) (neg : Bool) : Nat := if neg then 2 ^ (f.ebits + f.fbits) else 0
/-- The exponent of the least normal value. -/
def Fmt.emin (f : Fmt) : Int := 1 - (f.bias : Int)

/-- A value: a NaN (signalling or not, with its sign), an infinity, or (−1)^neg · m · 2^e. -/
inductive FVal
  | nan (sig neg : Bool)
  | inf (neg : Bool)
  | fin (neg : Bool) (m : Nat) (e : Int)
deriving DecidableEq, Repr

/-- Decode stored bits (R81, R83). -/
def Fmt.value (f : Fmt) (b : Nat) : FVal :=
  let mag := b % 2 ^ (f.ebits + f.fbits)
  let neg := b / 2 ^ (f.ebits + f.fbits) % 2 = 1
  let e := mag / 2 ^ f.fbits
  let fr := mag % 2 ^ f.fbits
  if f.ieee ∧ e = 2 ^ f.ebits - 1 then
    (if fr = 0 then .inf neg else .nan (f.bits > 8 ∧ fr < 2 ^ (f.fbits - 1)) neg)
  else if f.nan7 ∧ mag = 2 ^ (f.ebits + f.fbits) - 1 then .nan false neg
  else if e = 0 then .fin neg fr (f.emin - f.fbits)
  else .fin neg (2 ^ f.fbits + fr) (f.emin - f.fbits + (e - 1 : Nat))

/-! ## Flags (R94): NV, DZ, OF, UF, NX -/

abbrev Flags := BitVec 5
def fNV : Flags := 16
def fDZ : Flags := 8
def fOF : Flags := 4
def fUF : Flags := 2
def fNX : Flags := 1
def flagIf (c : Bool) (f : Flags) : Flags := if c then f else 0

/-- Rounding modes (R86). -/
inductive Mode
  | rne | rtz | rdn | rup | sr
deriving DecidableEq, Repr

def Mode.ofCode (c : BitVec 3) : Mode :=
  match c.toNat with
  | 1 => .rtz | 2 => .rdn | 3 => .rup | 4 => .sr | _ => .rne

/-- One step of the generator (R63). -/
def stepSeed (seed : Word) : Word :=
  let x : Word := if seed = 0 then 0x6D2B79F5 else seed
  let x := x ^^^ (x <<< 13)
  let x := x ^^^ (x >>> 17)
  x ^^^ (x <<< 5)
/-- `n` steps of the generator. -/
def stepsSeed (n : Nat) (seed : Word) : Word := n.repeat stepSeed seed
/-- The draw a step gives (R87): the high half of the new SEED. -/
def draw16 (seed : Word) : Nat := (seed >>> 16).toNat

/-! ## Exact numbers -/

/-- Compare m·2^e with n·2^k. -/
def cmpMag (m : Nat) (e : Int) (n : Nat) (k : Int) : Ordering :=
  if e ≤ k then compare m (n * 2 ^ (k - e).toNat) else compare (m * 2 ^ (e - k).toNat) n
/-- A signed integer multiple of 2^e. -/
def signed (neg : Bool) (m : Nat) : Int := if neg then -(m : Int) else m
/-- The sum of two exact numbers, as a sign, a magnitude and an exponent. -/
def addExact (na : Bool) (ma : Nat) (ea : Int) (nb : Bool) (mb : Nat) (eb : Int) : Int × Int :=
  let e := min ea eb
  (signed na (ma * 2 ^ (ea - e).toNat) + signed nb (mb * 2 ^ (eb - e).toNat), e)
/-- floor of the square root, by its bits from `i` − 1 down. -/
def isqrtFrom (n : Nat) : Nat → Nat → Nat
  | 0, r => r
  | i + 1, r => isqrtFrom n i (if (r + 2 ^ i) * (r + 2 ^ i) ≤ n then r + 2 ^ i else r)
def isqrt (n : Nat) : Nat := isqrtFrom n (n.log2 / 2 + 1) 0

/-- RoundTo (R86, R87) of (−1)^neg · (m + ε)·2^e, where 0 < ε < 1 when `more` and ε = 0 otherwise: the stored bits and the flags.
`draw` is the draw of mode 4. A zero keeps its sign. -/
def roundTo (f : Fmt) (mode : Mode) (draw : Nat) (neg : Bool) (m : Nat) (e : Int) (more : Bool) : Nat × Flags :=
  if m = 0 ∧ ¬ more then (f.sign neg, 0) else
  let top : Int := e + m.log2
  let lead := max top f.emin
  let u := lead - f.fbits
  let sh := (u - e).toNat
  let n := if e ≤ u then m / 2 ^ sh else m * 2 ^ (e - u).toNat
  let rem := if e ≤ u then m % 2 ^ sh else 0
  let inexact := rem ≠ 0 ∨ more
  let up : Bool := match mode with
    | .rne => decide (2 * rem > 2 ^ sh) || (decide (2 * rem = 2 ^ sh ∧ sh ≠ 0) && (more || n % 2 = 1))
    | .rtz => false
    | .rdn => neg && decide inexact
    | .rup => !neg && decide inexact
    | .sr => decide (rem * 65536 / 2 ^ sh > draw)
  let maxU : Int := f.emin - f.fbits + (f.maxMag / 2 ^ f.fbits - 1 : Nat)
  let maxN := 2 ^ f.fbits + f.maxMag % 2 ^ f.fbits
  let beyond := match cmpMag m e maxN maxU with
    | .gt => true
    | .eq => more
    | .lt => false
  if beyond then
    let nearUp := cmpMag m e (2 * maxN + 1) (maxU - 1) ≠ .lt
    let farUp := cmpMag m e (maxN + 1) maxU ≠ .lt
    let toInf : Bool := f.ieee && (match mode with
      | .rne => decide nearUp
      | .rtz => false
      | .rdn => neg
      | .rup => !neg
      | .sr => decide farUp || up)
    (f.sign neg + (if toInf then f.infMag else f.maxMag), fOF ||| fNX)
  else
    let r := n + (if up then 1 else 0)
    (f.sign neg + r + (lead - f.emin).toNat * 2 ^ f.fbits,
     flagIf (decide inexact) fNX ||| flagIf (decide inexact && decide (top < f.emin)) fUF)

/-- A result before its rounding: `more` marks a magnitude a little above m·2^e. -/
structure Exact where
  v : FVal
  more : Bool
  flags : Flags

def Exact.of (v : FVal) : Exact := ⟨v, false, 0⟩
/-- The default NaN, with NV when the operation is invalid or an operand signals. -/
def Exact.nan (nv : Bool) : Exact := ⟨.nan false false, false, flagIf nv fNV⟩
def FVal.isNan : FVal → Bool
  | .nan _ _ => true
  | _ => false
def FVal.isSig : FVal → Bool
  | .nan s _ => s
  | _ => false
def FVal.isInf : FVal → Bool
  | .inf _ => true
  | _ => false
def FVal.isZero : FVal → Bool
  | .fin _ m _ => m = 0
  | _ => false
def FVal.neg : FVal → Bool
  | .nan _ n => n
  | .inf n => n
  | .fin n _ _ => n
def FVal.negate : FVal → FVal
  | .nan s n => .nan s (!n)
  | .inf n => .inf (!n)
  | .fin n m e => .fin (!n) m e
def FVal.abs : FVal → FVal
  | .nan s _ => .nan s false
  | .inf _ => .inf false
  | .fin _ m e => .fin false m e

/-- a + b (R86 for the sign of an exact zero). -/
def addV (mode : Mode) (a b : FVal) : Exact :=
  match a, b with
  | .nan s _, y => .nan (s || y.isSig)
  | _, .nan s _ => .nan s
  | .inf n, .inf k => if n = k then .of (.inf n) else .nan true
  | .inf n, .fin _ _ _ => .of (.inf n)
  | .fin _ _ _, .inf k => .of (.inf k)
  | .fin na ma ea, .fin nb mb eb =>
    let r := addExact na ma ea nb mb eb
    if r.1 = 0 then .of (.fin (if na = nb then na else mode = .rdn) 0 r.2)
    else .of (.fin (r.1 < 0) r.1.natAbs r.2)
/-- a · b. -/
def mulV (a b : FVal) : Exact :=
  match a, b with
  | .nan s _, y => .nan (s || y.isSig)
  | _, .nan s _ => .nan s
  | .inf n, .inf k => .of (.inf (n != k))
  | .inf n, .fin k m _ => if m = 0 then .nan true else .of (.inf (n != k))
  | .fin k m _, .inf n => if m = 0 then .nan true else .of (.inf (n != k))
  | .fin na ma ea, .fin nb mb eb => .of (.fin (na != nb) (ma * mb) (ea + eb))
/-- a·b + c with the exact product (R116). -/
def fmaV (mode : Mode) (a b c : FVal) : Exact :=
  let p := mulV a b
  if p.v.isNan then ⟨.nan false false, false, p.flags ||| flagIf c.isSig fNV⟩
  else addV mode p.v c
/-- a / b (R117). -/
def divV (a b : FVal) : Exact :=
  match a, b with
  | .nan s _, y => .nan (s || y.isSig)
  | _, .nan s _ => .nan s
  | .inf _, .inf _ => .nan true
  | .inf n, .fin k _ _ => .of (.inf (n != k))
  | .fin n _ _, .inf k => .of (.fin (n != k) 0 0)
  | .fin na ma ea, .fin nb mb eb =>
    if mb = 0 then (if ma = 0 then .nan true else ⟨.inf (na != nb), false, fDZ⟩)
    else if ma = 0 then .of (.fin (na != nb) 0 0)
    else
      let k := 90 + mb.log2
      ⟨.fin (na != nb) (ma * 2 ^ k / mb) (ea - eb - k), decide (ma * 2 ^ k % mb ≠ 0), 0⟩
/-- √a (R117). -/
def sqrtV (a : FVal) : Exact :=
  match a with
  | .nan s _ => .nan s
  | .inf n => if n then .nan true else .of (.inf false)
  | .fin n m e =>
    if m = 0 then .of (.fin n 0 0) else if n then .nan true else
    let m := if e % 2 = 0 then m else 2 * m
    let e := if e % 2 = 0 then e else e - 1
    let r := isqrt (m * 2 ^ 180)
    ⟨.fin false r (e / 2 - 90), decide (r * r ≠ m * 2 ^ 180), 0⟩
/-- 1/√a (R117). -/
def rsqrtV (a : FVal) : Exact :=
  match a with
  | .nan s _ => .nan s
  | .inf n => if n then .nan true else .of (.fin false 0 0)
  | .fin n m e =>
    if m = 0 then ⟨.inf n, false, fDZ⟩ else if n then .nan true else
    let m := if e % 2 = 0 then m else 2 * m
    let e := if e % 2 = 0 then e else e - 1
    let k := 90 + m.log2
    let r := isqrt (2 ^ (2 * k) / m)
    ⟨.fin false r (-(e / 2) - k), decide (r * r * m ≠ 2 ^ (2 * k)), 0⟩

/-- Round a result into a format (R83, R86): the stored bits and every flag. -/
def Exact.into (x : Exact) (f : Fmt) (mode : Mode) (draw : Nat) : Nat × Flags :=
  match x.v with
  | .nan _ n => match f.nanMag with
    | some b => (b, x.flags)
    | none => (f.sign n + f.maxMag, x.flags ||| fNV)
  | .inf n => if f.ieee then (f.sign n + f.infMag, x.flags) else (f.sign n + f.maxMag, x.flags ||| fNV)
  | .fin n m e => let r := roundTo f mode draw n m e x.more; (r.1, r.2 ||| x.flags)
/-- Store an exact value that needs no rounding. -/
def Fmt.encode (f : Fmt) (v : FVal) : Nat := (Exact.into (.of v) f .rne 0).1

/-- The order of two values that are no NaNs; zeros are equal. -/
def cmpV (a b : FVal) : Ordering :=
  match a, b with
  | .inf n, .inf k => if n = k then .eq else if n then .lt else .gt
  | .inf n, _ => if n then .lt else .gt
  | _, .inf k => if k then .gt else .lt
  | .fin na ma ea, .fin nb mb eb =>
    let r := addExact na ma ea (!nb) mb eb
    if r.1 < 0 then .lt else if r.1 = 0 then .eq else .gt
  | _, _ => .eq
/-- a < b with −0 below +0 (R115). -/
def belowV (a b : FVal) : Bool :=
  match cmpV a b with
  | .lt => true
  | .gt => false
  | .eq => a.neg && !b.neg
/-- vmin and vmax on values (R115). -/
def minmaxV (max : Bool) (a b : FVal) : Exact :=
  let fl := flagIf (a.isSig || b.isSig) fNV
  if a.isNan && b.isNan then ⟨.nan false false, false, fl⟩
  else if a.isNan then ⟨b, false, fl⟩
  else if b.isNan then ⟨a, false, fl⟩
  else ⟨if belowV a b then (if max then b else a) else (if max then a else b), false, fl⟩
/-- A value rounded to an integer (R119): the integer and whether it is inexact. -/
def roundInt (mode : Mode) (draw : Nat) (neg : Bool) (m : Nat) (e : Int) : Int × Bool :=
  if 0 ≤ e then (signed neg (m * 2 ^ e.toNat), false) else
  let sh := (-e).toNat
  let n := m / 2 ^ sh
  let rem := m % 2 ^ sh
  let up : Bool := match mode with
    | .rne => decide (2 * rem > 2 ^ sh) || (decide (2 * rem = 2 ^ sh) && n % 2 = 1)
    | .rtz => false
    | .rdn => neg && rem != 0
    | .rup => !neg && rem != 0
    | .sr => decide (rem * 65536 / 2 ^ sh > draw)
  (signed neg (if up then n + 1 else n), rem != 0)

/-! ## Block scales (R84) and quantisation (R92) -/

/-- The value of a block-scale code as m·2^e; code 0 is zero. -/
def scaleMag (c : Nat) : Nat × Int := if c / 32 = 0 then (c % 32, -8) else (32 + c % 32, (c / 32 : Int) - 9)
/-- The smallest code, from `c` up, whose value s has s·β·F ≥ m: `fuel` codes are tried. -/
def leastScale (m : Nat) (e : Int) (bf : Nat) (bfe : Int) : Nat → Nat → Nat
  | 0, c => c
  | fuel + 1, c =>
    let s := scaleMag c
    if cmpMag (s.1 * bf) (s.2 + bfe) m e ≠ .lt then c else leastScale m e bf bfe fuel (c + 1)
/-- A quantised block: scale code, element codes, flags, whether the scale saturated or was clamped. -/
structure Block where
  scale : Nat
  codes : List Nat
  flags : Flags
  sat : Bool
  clamp : Bool

/-- The greatest magnitude among values that are no NaNs; an infinity is greatest (R92). -/
def amaxV (vs : List FVal) : FVal := vs.foldl (fun a v => if v.isNan then a else if cmpV a v.abs = .lt then v.abs else a) (.fin false 0 0)
/-- R92 for one row and one block: `els` gives each column's value and its draw, none for a diverted column. β = (bm, be). -/
def quantBlock (f : Fmt) (mode : Mode) (bm : Nat) (be : Int) (els : List (Option FVal × Nat)) : Block :=
  let m := amaxV (els.filterMap (·.1))
  let fm := match f.value f.maxMag with
    | .fin _ a b => (a, b)
    | _ => (0, 0)
  let bf := bm * fm.1
  let bfe := be + fm.2
  let r : Nat × Bool × Bool := match m with
    | .inf _ => (0xFF, true, false)
    | .nan _ _ => (0, false, false)
    | .fin _ mm me =>
      if mm = 0 then (0, false, false)
      else if cmpMag mm me (63 * bf) (bfe - 2) = .gt then (0xFF, true, false)
      else if cmpMag mm me bf (bfe - 8) = .lt then (1, false, true)
      else (leastScale mm me bf bfe 255 1, false, false)
  let s := scaleMag r.1
  let one (e : Option FVal × Nat) : Nat × Flags := match e.1 with
    | none => (0, 0)
    | some v =>
      if r.1 = 0 then (0, flagIf v.isNan fNV) else
      match v with
      | .nan _ n => (f.sign n + f.maxMag, fNV)
      | .inf n => (f.sign n + f.maxMag, fNV)
      | .fin _ _ _ =>
        let q := Exact.into (divV v (.fin false (s.1 * bm) (s.2 + be))) f mode e.2
        if q.1 % 2 ^ (f.ebits + f.fbits) > f.maxMag then (f.sign v.neg + f.maxMag, fOF ||| fNX) else q
  let os := els.map one
  ⟨r.1, os.map (·.1), os.foldl (fun a o => a ||| o.2) 0, r.2.1, r.2.2⟩

/-- Pack narrow codes in the layout of R82: the bytes of a row. -/
def packCodes (bits : Nat) (cs : List Nat) : List Byte :=
  leBytes ((bits * cs.length + 7) / 8) (cs.foldr (fun c a => c % 2 ^ bits + 2 ^ bits * a) 0)
/-- Element `i` of packed bytes (R82): the layouts of every format are its bits in little-endian order. -/
def unpackCode (bits : Nat) (bs : List Byte) (i : Nat) : Nat := ofBytes bs / 2 ^ (bits * i) % 2 ^ bits

end Sys2Proof.Machine
end

