-- ==== Sys2Proof/Decode.lean ====
section
/-! DEFINITION. The decoder, total on any words (R39–R54), and the encoder, written from the same tables. -/

namespace Sys2Proof

/-- Bits `lo` to `lo + n − 1` of a code word. -/
def fld (w : Word) (lo n : Nat) : BitVec n := w.extractLsb' lo n

/-- A pair field (R41): bit 5 set is illegal. -/
def pair? (f : BitVec 6) : Option Pair := if f.getLsbD 5 then none else some (f.setWidth 5)
/-- A mask field (R41): 8–63 are illegal. -/
def mask? (f : BitVec 6) : Option MReg := if f.toNat < 8 then some (f.setWidth 3) else none
/-- A queue that may be read (R41, R50): 0, 1, 4–15. -/
def qRead? (f : BitVec 6) : Option QReg :=
  if f.toNat < 16 ∧ f ≠ 2 ∧ f ≠ 3 then some (f.setWidth 4) else none
/-- A queue that names a channel end (R41, R50): 4–15. -/
def qChan? (f : BitVec 6) : Option QReg :=
  if 4 ≤ f.toNat ∧ f.toNat < 16 then some (f.setWidth 4) else none
/-- A handler class (R51): 0–19. -/
def cls? (f : BitVec 5) : Option (BitVec 5) := if f.toNat < 20 then some f else none

/-- The type codes of R111. -/
def VTy.ofCode (c : BitVec 3) : VTy :=
  match c.toNat with
  | 0 => .i32 | 1 => .n32 | 2 => .f32 | 3 => .bf16 | 4 => .f16 | 5 => .f64 | 6 => .i16 | _ => .i8
/-- The code of a type (R111). -/
def VTy.code : VTy → BitVec 3
  | .i32 => 0 | .n32 => 1 | .f32 => 2 | .bf16 => 3 | .f16 => 4 | .f64 => 5 | .i16 => 6 | .i8 => 7

/-- The INT group (R49). -/
def decInt (rd ra rb : Reg) (fn : Nat) : Option Instr :=
  match fn with
  | 0x00 => some (.add rd ra rb) | 0x01 => some (.sub rd ra rb) | 0x02 => some (.and rd ra rb) | 0x03 => some (.or rd ra rb)
  | 0x04 => some (.xor rd ra rb) | 0x05 => some (.andn rd ra rb) | 0x06 => some (.shl rd ra rb) | 0x07 => some (.shr rd ra rb)
  | 0x08 => some (.sra rd ra rb) | 0x09 => some (.ror rd ra rb) | 0x0A => some (.min rd ra rb) | 0x0B => some (.max rd ra rb)
  | 0x0C => some (.minn rd ra rb) | 0x0D => some (.maxn rd ra rb) | 0x0E => some (.slt rd ra rb) | 0x0F => some (.sltn rd ra rb)
  | 0x10 => some (.seq rd ra rb) | 0x11 => some (.sne rd ra rb) | 0x12 => some (.mul rd ra rb) | 0x13 => some (.mulh rd ra rb)
  | 0x14 => some (.mulhn rd ra rb) | 0x15 => some (.div rd ra rb) | 0x16 => some (.divn rd ra rb) | 0x17 => some (.rem rd ra rb)
  | 0x18 => some (.remn rd ra rb)
  | 0x19 => if rb = 0 then some (.clz rd ra) else none
  | 0x1A => if rb = 0 then some (.ctz rd ra) else none
  | 0x1B => if rb = 0 then some (.popc rd ra) else none
  | 0x1C => if rb = 0 then some (.brev rd ra) else none
  | 0x1D => if rb = 0 then some (.sextb rd ra) else none
  | 0x1E => if rb = 0 then some (.sexth rd ra) else none
  | 0x1F => if rb = 0 then some (.zextb rd ra) else none
  | 0x20 => if rb = 0 then some (.zexth rd ra) else none
  | 0x21 => some (.bfx rd ra rb) | 0x22 => some (.bfi rd ra rb)
  | _ => none

/-- The PAIR group (R50, R61): every field is a pair field. -/
def decPair (rd ra rb : Reg) (fn : Nat) : Option Instr := do
  let d ← pair? rd; let a ← pair? ra; let b ← pair? rb
  match fn with
  | 0 => some (.dadd d a b) | 1 => some (.dsub d a b) | 2 => some (.dand d a b) | 3 => some (.dshl d a b) | 4 => some (.dshr d a b)
  | 5 => some (.dsra d a b) | 6 => some (.dslt d a b) | 7 => some (.dsltn d a b) | 8 => some (.dmul d a b)
  | _ => none

/-- The MISC group (R50, R62). -/
def decMisc (rd ra rb : Reg) (fn : Nat) : Option Instr :=
  match fn with
  | 0 => if ra = 0 ∧ rb = 0 then (pair? rd).map .rdcyc else none
  | 1 => if ra = 0 ∧ rb = 0 then some (.rdid rd) else none
  | 2 => if rb = 0 then (mask? rd).bind fun m => (pair? ra).map fun a => .mvsm m a else none
  | 3 => if rb = 0 then (pair? rd).bind fun d => (mask? ra).map fun m => .mvms d m else none
  | 4 => if ra = 0 ∧ rb = 0 then some (.rand rd) else none
  | _ => none

/-- The QUEUE group (R50, R161). -/
def decQueue (rd ra rb : Reg) (fn : Nat) : Option Instr :=
  if rb ≠ 0 then none else
  match fn with
  | 0 => (qRead? ra).map fun q => .qrd rd q
  | 1 => (qChan? rd).map fun q => .qwr q ra
  | 2 => (qRead? ra).map fun q => .qrdv rd q
  | 3 => (qChan? rd).map fun q => .qwrv q ra
  | 4 => (qRead? ra).map fun q => .qstat rd q
  | _ => none

/-- The CHAN group (R50, R164). -/
def decChan (rd ra rb : Reg) (fn : Nat) : Option Instr :=
  match fn with
  | 0 => if rb.toNat < 2 then (qChan? rd).map fun q => .chbind q ra (rb = 1) else none
  | 1 => if ra = 0 ∧ rb = 0 then (qChan? rd).map .chunb else none
  | 2 => if ra = 0 ∧ rb = 0 then (qChan? rd).map .cheos else none
  | 3 => if rb = 0 then (qChan? rd).map fun q => .chgrow q ra else none
  | 4 => if rb = 0 then (qChan? ra).map fun q => .chstat rd q else none
  | _ => none

/-- The FENCE group (R50, R273). -/
def decFence (rd ra rb : Reg) (fn : Nat) : Option Instr :=
  match fn with
  | 0 => if rd = 0 ∧ ra = 0 ∧ rb = 0 then some .chunk else none
  | 1 => if rd = 0 ∧ ra = 0 ∧ rb = 0 then some .fenceD else none
  | 2 => if rd = 0 ∧ ra = 0 ∧ rb = 0 then some .fenceS else none
  | 3 => if rd = 0 ∧ ra = 0 ∧ rb = 0 then some .lbsync else none
  | 4 => if rd = 0 then (pair? ra).map fun a => .psync a rb else none
  | _ => none

/-- The TRAPS group (R50, R268). -/
def decTraps (rd ra rb : Reg) (fn : Nat) : Option Instr :=
  match fn with
  | 0 => if rd = 0 ∧ ra = 0 then some (.trap rb) else none
  | 1 => if rd = 0 ∧ ra = 0 ∧ rb.toNat < 2 then some (.tret (rb = 1)) else none
  | 2 => if rd = 0 ∧ ra = 0 then some (.brk rb) else none
  | 3 => if rd = 0 ∧ ra = 0 ∧ rb = 0 then some .prioff else none
  | 4 => if rd = 0 ∧ ra = 0 ∧ rb = 0 then some .prion else none
  | 5 => if rd = 0 ∧ rb = 0 then (pair? ra).map .ctxsav else none
  | 6 => if rd = 0 ∧ rb = 0 then (pair? ra).map .ctxrst else none
  | 7 => (pair? ra).map fun a => .fwcall rd a rb
  | _ => none

/-- The MSG group (R51): the function code is the sd field. -/
def decMsg (vs : Reg) (sd : Nat) (cls : BitVec 5) (len1 : BitVec 6) (net pri : Bool) : Option Instr :=
  let rest := cls = 0 ∧ len1 = 0 ∧ net = false ∧ pri = false
  match sd with
  | 0 => if net = false then (cls? cls).map fun c => .reply vs c len1 pri else none
  | 1 => if vs = 0 ∧ rest then some .done else none
  | 2 => if rest then (pair? vs).map .launch else none
  | 3 => if vs = 0 ∧ len1 = 0 ∧ net = false ∧ pri = false then (cls? cls).map .clsmask else none
  | 4 => if vs = 0 ∧ len1 = 0 ∧ net = false ∧ pri = false then (cls? cls).map .clsunm else none
  | 5 => if vs = 0 ∧ rest then some .kend else none
  | 6 => if vs = 0 ∧ rest then some .vdone else none
  | 7 => if rest then some (.terdem vs) else none
  | 8 => if rest then (pair? vs).map .termap else none
  | 9 => if vs = 0 ∧ rest then some .stepmk else none
  | 10 => if rest then some (.hpost vs) else none
  | _ => none

/-- The BAR group (R52). -/
def decBar (ra rb : Reg) (op : Nat) (bar : BitVec 7) : Option Instr :=
  match op with
  | 0 => some (.binit bar ra rb)
  | 1 => if ra = 0 ∧ rb = 0 then some (.barr bar) else none
  | 2 => if rb = 0 then some (.barrx bar ra) else none
  | 3 => if rb = 0 then some (.baddb bar ra) else none
  | 4 => if rb = 0 then some (.bwait bar ra) else none
  | 5 => if rb = 0 then some (.bstat bar ra) else none
  | _ => none

/-- The vector groups (R53): the major selects the group, `fn` the form. -/
def decVec (major : Nat) (vd va vb : Reg) (m : MReg) (t : VTy) (fn : Nat) : Option Instr :=
  match major, fn with
  | 0x30, 0 => some (.vadd vd va vb m t) | 0x30, 1 => some (.vsub vd va vb m t)
  | 0x30, 2 => some (.vmin vd va vb m t) | 0x30, 3 => some (.vmax vd va vb m t)
  | 0x31, 0 => some (.vmul vd va vb m t)
  | 0x31, 1 => if t.isInt then some (.vmulh vd va vb m t) else none
  | 0x31, 2 => if vb = 0 ∧ t ≠ .n32 then some (.vabs vd va m t) else none
  | 0x31, 3 => if vb = 0 ∧ t ≠ .n32 then some (.vneg vd va m t) else none
  | 0x32, 0 => if t.isFloat then some (.vfma vd va vb m t) else none
  | 0x32, 1 => if t.isFloat then some (.vfms vd va vb m t) else none
  | 0x32, 2 => if t.isFloat then some (.vfnma vd va vb m t) else none
  | 0x32, 3 => if t.isFloat then some (.vfnms vd va vb m t) else none
  | 0x33, 0 => some (.vand vd va vb m t) | 0x33, 1 => some (.vor vd va vb m t)
  | 0x33, 2 => some (.vxor vd va vb m t) | 0x33, 3 => some (.vandn vd va vb m t)
  | 0x34, 0 => if t.isInt then some (.vshl vd va vb m t) else none
  | 0x34, 1 => if t.isInt then some (.vshr vd va vb m t) else none
  | 0x34, 2 => if t.isInt then some (.vsra vd va vb m t) else none
  | 0x34, 3 => if t.isInt then some (.vror vd va vb m t) else none
  | 0x35, 0 => (mask? vd).map fun d => .vceq d va vb m t
  | 0x35, 1 => (mask? vd).map fun d => .vcne d va vb m t
  | 0x35, 2 => (mask? vd).map fun d => .vclt d va vb m t
  | 0x35, 3 => (mask? vd).map fun d => .vcle d va vb m t
  | 0x36, 0 => if t.isFloat then some (.vdiv vd va vb m t) else none
  | 0x36, 1 => if vb = 0 ∧ t.isFloat then some (.vsqrt vd va m t) else none
  | 0x36, 2 => if vb = 0 ∧ t.isFloat then some (.vrcp vd va m t) else none
  | 0x36, 3 => if vb = 0 ∧ t.isFloat then some (.vrsq vd va m t) else none
  | 0x37, 0 => if vb.toNat < 8 ∧ VTy.ofCode (vb.setWidth 3) ≠ t then some (.vcvt vd va (VTy.ofCode (vb.setWidth 3)) m t) else none
  | 0x37, 1 => if t = .f32 ∧ 1 ≤ vb.toNat ∧ vb.toNat ≤ 5 then some (.vqnt vd va (vb.setWidth 4) m) else none
  | 0x37, 2 => if t = .f32 ∧ 1 ≤ vb.toNat ∧ vb.toNat ≤ 5 then some (.vdqnt vd va (vb.setWidth 4) m) else none
  | 0x37, 3 => if vb = 0 ∧ t.isFloat then some (.vamax vd va m t) else none
  | 0x38, 0 => if vb = 0 then some (.vrsum vd va m t) else none
  | 0x38, 1 => if vb = 0 then some (.vrmax vd va m t) else none
  | 0x38, 2 => if vb = 0 then some (.vrmin vd va m t) else none
  | 0x38, 3 => if vb = 0 ∧ t ≠ .n32 then some (.vramax vd va m t) else none
  | 0x39, 0 => if vb = 0 ∧ Instr.laneRegOk va t then some (.vsplat vd va m t) else none
  | 0x39, 1 => if m = 0 ∧ Instr.laneRegOk vd t then some (.vext vd va vb t) else none
  | 0x39, 2 => if Instr.laneRegOk va t then some (.vins vd va vb m t) else none
  | 0x39, 3 => some (.vsel vd va vb m t)
  | 0x3A, 0 => some (.vperm vd va vb m t) | 0x3A, 1 => some (.vslu vd va vb m t)
  | 0x3A, 2 => some (.vsld vd va vb m t) | 0x3A, 3 => some (.vbcl vd va vb m t)
  | 0x3B, 0 => if m = 0 ∧ t = .i32 then (mask? vd).bind fun d => (mask? va).bind fun a => (mask? vb).map fun b => .mand d a b else none
  | 0x3B, 1 => if m = 0 ∧ t = .i32 then (mask? vd).bind fun d => (mask? va).bind fun a => (mask? vb).map fun b => .mor d a b else none
  | 0x3B, 2 => if m = 0 ∧ t = .i32 then (mask? vd).bind fun d => (mask? va).bind fun a => (mask? vb).map fun b => .mxor d a b else none
  | 0x3B, 3 => if m = 0 ∧ t = .i32 ∧ vb = 0 then (mask? va).map fun a => .mpop vd a else none
  | _, _ => none

/-- A one-word instruction (R40, R48). -/
def dec1 (w : Word) : Option Instr :=
  let rd := fld w 20 6; let ra := fld w 14 6; let rb := fld w 8 6; let fn := (fld w 0 8).toNat
  let imm := fld w 0 14
  match (fld w 26 6).toNat with
  | 0x01 => decInt rd ra rb fn
  | 0x02 => decPair rd ra rb fn
  | 0x03 => decMisc rd ra rb fn
  | 0x04 => some (.addi rd ra imm) | 0x05 => some (.andi rd ra imm) | 0x06 => some (.ori rd ra imm) | 0x07 => some (.xori rd ra imm)
  | 0x08 =>
    if fld w 5 7 ≠ 0 then none else
    match (fld w 12 2).toNat with
    | 0 => some (.shli rd ra (fld w 0 5)) | 1 => some (.shri rd ra (fld w 0 5)) | 2 => some (.srai rd ra (fld w 0 5)) | _ => none
  | 0x09 => some (.slti rd ra imm) | 0x0A => some (.sltni rd ra imm)
  | 0x0B => (pair? rd).bind fun d => (pair? ra).map fun a => .daddi d a imm
  | 0x0C => some (.lui rd (fld w 0 20)) | 0x0D => some (.li rd (fld w 0 20)) | 0x0E => some (.muli rd ra imm)
  | 0x10 => some (.beq rd ra imm) | 0x11 => some (.bne rd ra imm) | 0x12 => some (.blt rd ra imm)
  | 0x13 => some (.bge rd ra imm) | 0x14 => some (.bltn rd ra imm) | 0x15 => some (.bgen rd ra imm)
  | 0x16 => some (.bz rd (fld w 0 20)) | 0x17 => some (.bnz rd (fld w 0 20))
  | 0x18 => some (.j (fld w 0 26)) | 0x19 => some (.jal (fld w 0 26))
  | 0x1A =>
    match fn with
    | 0 => if rd = 0 ∧ rb = 0 then some (.jr ra) else none
    | 1 => if rb = 0 then some (.jalr rd ra) else none
    | _ => none
  | 0x1B => some (.loop rd ra rb (fld w 0 8))
  | 0x1C =>
    match fn with
    | 0 => if rb = 0 then (pair? ra).map fun a => .nstclm rd a else none
    | 1 => if ra = 0 ∧ rb = 0 then some (.nstnxt rd) else none
    | _ => none
  | 0x24 => if fld w 0 1 = 0 then (cls? (fld w 9 5)).map fun c => .send rd ra c (fld w 3 6) (fld w 2 1 = 1) (fld w 1 1 = 1) else none
  | 0x25 => if fld w 0 1 = 0 then decMsg rd ra.toNat (fld w 9 5) (fld w 3 6) (fld w 2 1 = 1) (fld w 1 1 = 1) else none
  | 0x27 => if fld w 0 3 = 0 then decBar rd ra (fld w 10 4).toNat (fld w 3 7) else none
  | 0x28 => decQueue rd ra rb fn
  | 0x29 => decChan rd ra rb fn
  | 0x2A =>
    match fn with
    | 0 => if rd = 0 ∧ ra = 0 then some (.slclm rb) else none
    | 1 => if rd = 0 ∧ ra = 0 then some (.slrel rb) else none
    | 2 => if ra = 0 ∧ rb = 0 then some (.slstat rd) else none
    | _ => none
  | 0x2B =>
    match fn with
    | 0 => if ra = 0 ∧ rb.toNat < 4 then some (.xidrd rd (rb.setWidth 2)) else none
    | 1 => if rd = 0 ∧ rb.toNat < 4 then some (.xidwt ra (rb.setWidth 2)) else none
    | _ => none
  | 0x2C =>
    match (fld w 12 2).toNat with
    | 0 => if ra = 0 then some (.csrr rd (fld w 0 12)) else none
    | 1 => some (.csrw rd ra (fld w 0 12)) | 2 => some (.csrs rd ra (fld w 0 12)) | _ => some (.csrc rd ra (fld w 0 12))
  | 0x2D => decFence rd ra rb fn
  | 0x2E => decTraps rd ra rb fn
  | m => if 0x30 ≤ m ∧ m ≤ 0x3B then decVec m rd ra rb (fld w 5 3) (VTy.ofCode (fld w 2 3)) (fld w 0 2).toNat else none

/-- The predicate layout of ctl8 (R43): with the enable clear, sense and register are zero. -/
def pred? (c : Byte) : Option (Option Pred) :=
  if c.getLsbD 7 then some (some ⟨c.getLsbD 6, c.extractLsb' 0 6⟩)
  else if c = 0 then some none else none

/-- The trigger layout of ctl8 (R43): trigger and return flag; with the enable clear the class is zero. -/
def trig? (c : Byte) : Option (Option (BitVec 5) × Bool) :=
  if c.getLsbD 0 then none
  else if c.getLsbD 7 then (if (c.extractLsb' 2 5).toNat < 20 then some (some (c.extractLsb' 2 5), c.getLsbD 1) else none)
  else if c.extractLsb' 2 5 = (0 : BitVec 5) then some (none, c.getLsbD 1) else none

/-- The operation code of an amo (R45). -/
def amoForm (op : Nat) (a : AmoArgs) : Option Instr :=
  match op with
  | 0 => some (.amoAdd a) | 1 => some (.amoAnd a) | 2 => some (.amoOr a) | 3 => some (.amoXor a) | 4 => some (.amoMin a) | 5 => some (.amoMax a)
  | 6 => some (.amoMinn a) | 7 => some (.amoMaxn a) | 8 => some (.amoSwap a) | 9 => some (.amoCas a) | 10 => some (.amoFadd a)
  | _ => none

/-- What word 0 of a format-W instruction says (R43–R45): none when it is illegal, else what word 1 completes. -/
def decW (w : Word) : Option (BitVec 24 → Byte → Option Instr) :=
  let rt := fld w 20 6; let b : Pair := fld w 15 5; let sz := (fld w 12 3).toNat; let fn := (fld w 0 12).toNat
  let m : MReg := fld w 4 3
  let even := !rt.getLsbD 0
  match (fld w 26 6).toNat with
  | 0x20 =>
    match fn, sz with
    | 0, 0 => some fun o c => (pred? c).map fun p => .ldb rt b o p
    | 1, 0 => some fun o c => (pred? c).map fun p => .ldbn rt b o p
    | 2, 1 => some fun o c => (pred? c).map fun p => .ldh rt b o p
    | 3, 1 => some fun o c => (pred? c).map fun p => .ldhn rt b o p
    | 4, 2 => some fun o c => (pred? c).map fun p => .ldw rt b o p
    | 5, 3 => if even then some fun o c => (pred? c).map fun p => .ldd (rt.extractLsb' 1 5) b o p else none
    | _, _ => none
  | 0x21 =>
    match fn, sz with
    | 0, 0 => some fun o c => (pred? c).map fun p => .stb rt b o p
    | 1, 1 => some fun o c => (pred? c).map fun p => .sth rt b o p
    | 2, 2 => some fun o c => (pred? c).map fun p => .stw rt b o p
    | 3, 3 => if even then some fun o c => (pred? c).map fun p => .std (rt.extractLsb' 1 5) b o p else none
    | _, _ => none
  | 0x22 =>
    if fld w 7 5 ≠ 0 then none else
    match (fld w 0 4).toNat with
    | 0 => if sz = 6 then some fun o c => (pred? c).map fun p => .vld rt b o m p else none
    | 1 => if sz = 6 then some fun o c => (pred? c).map fun p => .vst rt b o m p else none
    | 2 => if sz < 4 then some fun o c => (pred? c).map fun p => .vldbc rt (fld w 12 2) b o m p else none
    | 3 => if sz = 2 ∨ sz = 3 then some fun o c => if c.toNat < 64 then some (.vgath rt (sz = 3) b o m (c.setWidth 6)) else none else none
    | 4 => if sz = 2 ∨ sz = 3 then some fun o c => if c.toNat < 64 then some (.vscat rt (sz = 3) b o m (c.setWidth 6)) else none else none
    | _ => none
  | 0x23 =>
    if fld w 4 8 ≠ 0 then none else
    if sz ≠ 2 ∧ sz ≠ 3 then none else
    let op := (fld w 0 4).toNat
    let rtOk := if op = 9 then (if sz = 3 then rt.toNat % 4 = 0 else rt.toNat % 2 = 0) else (sz = 2 ∨ rt.toNat % 2 = 0)
    if op ≤ 10 ∧ rtOk then some fun o c => (trig? c).bind fun tr => amoForm op ⟨rt, sz = 3, b, o, tr.2, tr.1⟩ else none
  | 0x26 =>
    if fld w 6 6 ≠ 0 ∨ sz ≠ 0 then none
    else some fun o c => if c.getLsbD 1 then none else (trig? c).map fun tr => .depos rt b o (fld w 0 6) tr.1
  | _ => none

/-- Word 6 of a copy (R47), its direction bit and the bits above it left to the form. -/
def tail (w : Word) : CopyTail := ⟨fld w 0 7, (fld w 7 1) = 1, fld w 8 7, fld w 15 6, (fld w 21 1) = 1⟩

/-- A reserved word of a tile command. -/
def zeroW (w : Word) : Bool := w = 0

/-- What word 0 of a tile command says (R46, R47): the check of each of words 1–7, and the instruction they make. Word 6 of a copy or
reduction without bar is taken with any barrier and core bits, which have no effect then (R168; DESIGN CHOICE, log 63). -/
def decTC (w : Word) : Option (List (Word → Bool) × (Word → Word → Word → Word → Word → Word → Word → Instr)) :=
  let k : BitVec 2 := fld w 14 2
  let cp : Word → Bool := fun x => fld x 22 10 = 0
  if fld w 0 14 ≠ 0 then none else
  match (fld w 22 4).toNat, (fld w 16 6).toNat with
  | 0, op =>
    if k ≠ 0 then none else
    match op with
    | 0 => some ([fun x => fld x 9 23 = 0, fun _ => true, fun _ => true, fun _ => true, zeroW, zeroW, zeroW],
        fun a b c d _ _ _ => .mld (fld a 0 4) (fld a 4 4) (fld a 8 1 = 1) (c ++ b) d)
    | 1 => some ([fun x => fld x 3 1 = 0 && fld x 12 4 = 0 && fld x 28 4 = 0, fun x => fld x 12 20 = 0, zeroW, zeroW, zeroW, zeroW, zeroW],
        fun a b _ _ _ _ _ => .mma (fld a 0 3) (fld a 4 4) (fld a 8 4) (fld a 16 12) (fld b 0 12))
    | 2 => some ([fun x => fld x 3 29 = 0, zeroW, zeroW, zeroW, zeroW, zeroW, zeroW], fun a _ _ _ _ _ _ => .mzero (fld a 0 3))
    | 3 => some ([fun x => fld x 3 29 = 0, fun _ => true, fun _ => true, fun _ => true, zeroW, zeroW, zeroW],
        fun a b c d _ _ _ => .mst (fld a 0 3) (c ++ b) d)
    | 4 => some ([fun x => fld x 3 1 = 0 && (fld x 8 3).toNat ≤ 5 && fld x 11 21 = 0, fun _ => true, fun _ => true, fun _ => true, fun _ => true, fun _ => true, zeroW],
        fun a b c d e f _ => .mqnt (fld a 0 3) (fld a 4 4) (fld a 8 3) (c ++ b) (fld d 0 16) (fld d 16 16) (f ++ e))
    | 5 => some ([fun x => fld x 3 1 = 0 && fld x 7 25 = 0, zeroW, zeroW, zeroW, zeroW, zeroW, zeroW], fun a _ _ _ _ _ _ => .mamax (fld a 0 3) (fld a 4 3))
    | _ => none
  | 1, 0 => some ([fun _ => true, fun _ => true, fun _ => true, fun _ => true, fun _ => true, cp, zeroW],
      fun a b c d e f _ => .cpin k a (c ++ b) (e ++ d) (tail f))
  | 1, 1 => some ([fun _ => true, fun _ => true, fun _ => true, fun _ => true, fun _ => true, cp, zeroW],
      fun a b c d e f _ => .cpout k a (c ++ b) (e ++ d) (tail f))
  | 1, 2 => some ([fun _ => true, fun _ => true, fun _ => true, fun _ => true, fun _ => true, fun x => fld x 23 9 = 0, fun _ => true],
      fun a b c d e f g => .cp2d k a (c ++ b) (e ++ d) (tail f) (fld f 22 1 = 1) (fld g 0 12) (fld g 12 20))
  | 1, 3 => some ([fun _ => true, fun _ => true, fun _ => true, fun _ => true, fun _ => true, cp, zeroW],
      fun a b c d e f _ => .cploc k a (c ++ b) (e ++ d) (tail f))
  | 1, 4 => some ([fun _ => true, fun _ => true, fun _ => true, fun _ => true, zeroW, cp, zeroW],
      fun a b c d _ f _ => .cpfill k a (c ++ b) d (tail f))
  | 2, 0 => some ([fun x => fld x 20 2 ≠ 3 && fld x 19 1 = 0 && fld x 22 10 = 0, fun _ => true, fun _ => true, fun _ => true, fun _ => true, cp, fun x => fld x 13 19 = 0],
      fun a b c d e f g => .xred k (fld a 0 16) (VTy.ofCode (fld a 16 3)) (fld a 20 2) (c ++ b) (e ++ d) (tail f) (fld g 0 13))
  | 2, 1 => some ([fun x => fld x 19 13 = 0, fun _ => true, fun _ => true, fun _ => true, fun _ => true, fun x => fld x 22 10 = 0 && fld x 8 13 = 0, fun x => fld x 13 19 = 0],
      fun a b c d e f g => .xbcast k (fld a 0 16) (VTy.ofCode (fld a 16 3)) (c ++ b) (e ++ d) (tail f) (fld g 0 13))
  | _, _ => none

/-- How many words an instruction of this first word takes (R39). -/
def wordsOf (w : Word) : Nat :=
  match (fld w 26 6).toNat with
  | 0x20 | 0x21 | 0x22 | 0x23 | 0x26 => 2
  | 0x3E => 8
  | _ => 1

/-- The first of words 1, 2, … that a check rejects, or that is missing. -/
def firstBad : Nat → List (Word → Bool) → List Word → Option Nat
  | _, [], _ => none
  | i, _ :: _, [] => some i
  | i, c :: cs, w :: ws => if c w then firstBad (i + 1) cs ws else some i

/-- A decoded instruction and its length in words, or the index of the first word in which a violation lies (R54, R55). -/
inductive Decoded
  | ok (i : Instr) (words : Nat)
  | illegal (word : Nat)
deriving DecidableEq, Repr

/-- Decode the instruction at the head of a list of code words (R39–R54). A word the image does not hold is a violation (R54). -/
def decodeWords : List Word → Decoded
  | [] => .illegal 0
  | w :: ws =>
    match wordsOf w with
    | 2 =>
      match decW w with
      | none => .illegal 0
      | some f =>
        match ws with
        | [] => .illegal 1
        | x :: _ =>
          match f (fld x 8 24) (fld x 0 8) with
          | none => .illegal 1
          | some i => .ok i 2
    | 8 =>
      match decTC w with
      | none => .illegal 0
      | some (cs, f) =>
        match firstBad 1 cs ws with
        | some k => .illegal k
        | none =>
          match ws with
          | a :: b :: c :: d :: e :: g :: h :: _ => .ok (f a b c d e g h) 8
          | _ => .illegal 1
    | _ =>
      match dec1 w with
      | none => .illegal 0
      | some i => .ok i 1

/-- The code word at the head of a byte list, little-endian (R3), and the rest. -/
def wordsOfBytes : List Byte → List Word
  | a :: b :: c :: d :: r => (d ++ c ++ b ++ a) :: wordsOfBytes r
  | _ => []

/-- The bytes of a code word, little-endian (R3). -/
def bytesOfWord (w : Word) : List Byte := [fld w 0 8, fld w 8 8, fld w 16 8, fld w 24 8]

/-- Decode the instruction at the head of any bytes (a part of a word at the end is no word). -/
def decode (bs : List Byte) : Decoded := decodeWords (wordsOfBytes bs)

/-! The encoder, from the same tables. -/

/-- A format RR word (R40). -/
def encRR (major : BitVec 6) (rd ra rb : BitVec 6) (fn : BitVec 8) : List Word := [major ++ rd ++ ra ++ rb ++ fn]
/-- A format RI or B word (R40). -/
def encRI (major rd ra : BitVec 6) (imm : BitVec 14) : List Word := [major ++ rd ++ ra ++ imm]
/-- A format LI or BL word (R40). -/
def encLI (major rd : BitVec 6) (imm : BitVec 20) : List Word := [major ++ rd ++ imm]
/-- A format M word (R40). -/
def encM (major vs sd : BitVec 6) (cls : BitVec 5) (len1 : BitVec 6) (net pri : Bool) : List Word :=
  [major ++ vs ++ sd ++ cls ++ len1 ++ BitVec.ofBool net ++ BitVec.ofBool pri ++ (0 : BitVec 1)]
/-- A format V word (R40). -/
def encV (major vd va vb : BitVec 6) (m : MReg) (t : VTy) (fn : BitVec 2) : List Word := [major ++ vd ++ va ++ vb ++ m ++ t.code ++ fn]
/-- A format BAR word (R40). -/
def encBar (op : BitVec 4) (bar : BitVec 7) (ra rb : BitVec 6) : List Word := [(0x27 : BitVec 6) ++ ra ++ rb ++ op ++ bar ++ (0 : BitVec 3)]
/-- A register field that holds a pair, mask or queue number. -/
def wide {n : Nat} (x : BitVec n) : BitVec 6 := x.setWidth 6
/-- The predicate layout of ctl8 (R43). -/
def encPred : Option Pred → Byte
  | none => 0
  | some p => (1 : BitVec 1) ++ BitVec.ofBool p.sense ++ p.reg
/-- The trigger layout of ctl8 (R43). -/
def encTrig (t : Option (BitVec 5)) (ret : Bool) : Byte :=
  match t with
  | none => (0 : BitVec 6) ++ BitVec.ofBool ret ++ (0 : BitVec 1)
  | some c => (1 : BitVec 1) ++ c ++ BitVec.ofBool ret ++ (0 : BitVec 1)
/-- The two words of format W (R43). -/
def encW (major rt : BitVec 6) (b : Pair) (size : BitVec 3) (fn : BitVec 12) (off : BitVec 24) (ctl : Byte) : List Word :=
  [major ++ rt ++ b ++ size ++ fn, off ++ ctl]
/-- An amo (R45, R195). -/
def encAmo (op : BitVec 4) (a : AmoArgs) : List Word :=
  encW 0x23 a.rt a.base (if a.dbl then 3 else 2) ((0 : BitVec 8) ++ op) a.off (encTrig a.trig a.ret)
/-- Word 0 of a tile command (R46). -/
def encTC0 (engine : BitVec 4) (op : BitVec 6) (k : BitVec 2) : Word := (0x3E : BitVec 6) ++ engine ++ op ++ k ++ (0 : BitVec 14)
/-- The low and high words of an address, low first (R47). -/
def loHi (a : DWord) : List Word := [a.extractLsb' 0 32, a.extractLsb' 32 32]
/-- Word 6 of a copy (R47). -/
def encTail (t : CopyTail) (dir : Bool) : Word :=
  (0 : BitVec 9) ++ BitVec.ofBool dir ++ BitVec.ofBool t.toQ1 ++ t.ty ++ t.tx ++ BitVec.ofBool t.barOn ++ t.bar

/-- The words of an instruction (R40–R53); the agents' steps have none. -/
def encode : Instr → List Word
  | .add d a b => encRR 1 d a b 0x00 | .sub d a b => encRR 1 d a b 0x01 | .and d a b => encRR 1 d a b 0x02 | .or d a b => encRR 1 d a b 0x03
  | .xor d a b => encRR 1 d a b 0x04 | .andn d a b => encRR 1 d a b 0x05 | .shl d a b => encRR 1 d a b 0x06 | .shr d a b => encRR 1 d a b 0x07
  | .sra d a b => encRR 1 d a b 0x08 | .ror d a b => encRR 1 d a b 0x09 | .min d a b => encRR 1 d a b 0x0A | .max d a b => encRR 1 d a b 0x0B
  | .minn d a b => encRR 1 d a b 0x0C | .maxn d a b => encRR 1 d a b 0x0D | .slt d a b => encRR 1 d a b 0x0E | .sltn d a b => encRR 1 d a b 0x0F
  | .seq d a b => encRR 1 d a b 0x10 | .sne d a b => encRR 1 d a b 0x11 | .mul d a b => encRR 1 d a b 0x12 | .mulh d a b => encRR 1 d a b 0x13
  | .mulhn d a b => encRR 1 d a b 0x14 | .div d a b => encRR 1 d a b 0x15 | .divn d a b => encRR 1 d a b 0x16 | .rem d a b => encRR 1 d a b 0x17
  | .remn d a b => encRR 1 d a b 0x18 | .clz d a => encRR 1 d a 0 0x19 | .ctz d a => encRR 1 d a 0 0x1A | .popc d a => encRR 1 d a 0 0x1B
  | .brev d a => encRR 1 d a 0 0x1C | .sextb d a => encRR 1 d a 0 0x1D | .sexth d a => encRR 1 d a 0 0x1E | .zextb d a => encRR 1 d a 0 0x1F
  | .zexth d a => encRR 1 d a 0 0x20 | .bfx d a b => encRR 1 d a b 0x21 | .bfi d a b => encRR 1 d a b 0x22
  | .dadd d a b => encRR 2 (wide d) (wide a) (wide b) 0 | .dsub d a b => encRR 2 (wide d) (wide a) (wide b) 1
  | .dand d a b => encRR 2 (wide d) (wide a) (wide b) 2 | .dshl d a b => encRR 2 (wide d) (wide a) (wide b) 3
  | .dshr d a b => encRR 2 (wide d) (wide a) (wide b) 4 | .dsra d a b => encRR 2 (wide d) (wide a) (wide b) 5
  | .dslt d a b => encRR 2 (wide d) (wide a) (wide b) 6 | .dsltn d a b => encRR 2 (wide d) (wide a) (wide b) 7
  | .dmul d a b => encRR 2 (wide d) (wide a) (wide b) 8
  | .rdcyc d => encRR 3 (wide d) 0 0 0 | .rdid d => encRR 3 d 0 0 1 | .mvsm m a => encRR 3 (wide m) (wide a) 0 2
  | .mvms d m => encRR 3 (wide d) (wide m) 0 3 | .rand d => encRR 3 d 0 0 4
  | .addi d a i => encRI 4 d a i | .andi d a i => encRI 5 d a i | .ori d a i => encRI 6 d a i | .xori d a i => encRI 7 d a i
  | .shli d a n => encRI 8 d a ((0 : BitVec 2) ++ (0 : BitVec 7) ++ n) | .shri d a n => encRI 8 d a ((1 : BitVec 2) ++ (0 : BitVec 7) ++ n)
  | .srai d a n => encRI 8 d a ((2 : BitVec 2) ++ (0 : BitVec 7) ++ n)
  | .slti d a i => encRI 9 d a i | .sltni d a i => encRI 0x0A d a i | .daddi d a i => encRI 0x0B (wide d) (wide a) i
  | .lui d i => encLI 0x0C d i | .li d i => encLI 0x0D d i | .muli d a i => encRI 0x0E d a i
  | .beq a b o => encRI 0x10 a b o | .bne a b o => encRI 0x11 a b o | .blt a b o => encRI 0x12 a b o | .bge a b o => encRI 0x13 a b o
  | .bltn a b o => encRI 0x14 a b o | .bgen a b o => encRI 0x15 a b o | .bz a o => encLI 0x16 a o | .bnz a o => encLI 0x17 a o
  | .j o => [(0x18 : BitVec 6) ++ o] | .jal o => [(0x19 : BitVec 6) ++ o]
  | .jr a => encRR 0x1A 0 a 0 0 | .jalr d a => encRR 0x1A d a 0 1
  | .loop d a b f => encRR 0x1B d a b f | .nstclm d a => encRR 0x1C d (wide a) 0 0 | .nstnxt d => encRR 0x1C d 0 0 1
  | .ldb t b o p => encW 0x20 t b 0 0 o (encPred p) | .ldbn t b o p => encW 0x20 t b 0 1 o (encPred p)
  | .ldh t b o p => encW 0x20 t b 1 2 o (encPred p) | .ldhn t b o p => encW 0x20 t b 1 3 o (encPred p)
  | .ldw t b o p => encW 0x20 t b 2 4 o (encPred p) | .ldd t b o p => encW 0x20 (t ++ (0 : BitVec 1)) b 3 5 o (encPred p)
  | .stb t b o p => encW 0x21 t b 0 0 o (encPred p) | .sth t b o p => encW 0x21 t b 1 1 o (encPred p)
  | .stw t b o p => encW 0x21 t b 2 2 o (encPred p) | .std t b o p => encW 0x21 (t ++ (0 : BitVec 1)) b 3 3 o (encPred p)
  | .vld v b o m p => encW 0x22 v b 6 ((0 : BitVec 5) ++ m ++ (0 : BitVec 4)) o (encPred p)
  | .vst v b o m p => encW 0x22 v b 6 ((0 : BitVec 5) ++ m ++ (1 : BitVec 4)) o (encPred p)
  | .vldbc v z b o m p => encW 0x22 v b ((0 : BitVec 1) ++ z) ((0 : BitVec 5) ++ m ++ (2 : BitVec 4)) o (encPred p)
  | .vgath v z b o m x => encW 0x22 v b (if z then 3 else 2) ((0 : BitVec 5) ++ m ++ (3 : BitVec 4)) o ((0 : BitVec 2) ++ x)
  | .vscat v z b o m x => encW 0x22 v b (if z then 3 else 2) ((0 : BitVec 5) ++ m ++ (4 : BitVec 4)) o ((0 : BitVec 2) ++ x)
  | .amoAdd a => encAmo 0 a | .amoAnd a => encAmo 1 a | .amoOr a => encAmo 2 a | .amoXor a => encAmo 3 a | .amoMin a => encAmo 4 a
  | .amoMax a => encAmo 5 a | .amoMinn a => encAmo 6 a | .amoMaxn a => encAmo 7 a | .amoSwap a => encAmo 8 a | .amoCas a => encAmo 9 a
  | .amoFadd a => encAmo 10 a
  | .depos v b o l t => encW 0x26 v b 0 ((0 : BitVec 6) ++ l) o (encTrig t false)
  | .send v s c l n p => encM 0x24 v s c l n p | .reply v c l p => encM 0x25 v 0 c l false p
  | .done => encM 0x25 0 1 0 0 false false | .launch d => encM 0x25 (wide d) 2 0 0 false false
  | .clsmask c => encM 0x25 0 3 c 0 false false | .clsunm c => encM 0x25 0 4 c 0 false false
  | .kend => encM 0x25 0 5 0 0 false false | .vdone => encM 0x25 0 6 0 0 false false | .terdem a => encM 0x25 a 7 0 0 false false
  | .termap d => encM 0x25 (wide d) 8 0 0 false false | .stepmk => encM 0x25 0 9 0 0 false false | .hpost v => encM 0x25 v 10 0 0 false false
  | .binit n a b => encBar 0 n a b | .barr n => encBar 1 n 0 0 | .barrx n a => encBar 2 n a 0 | .baddb n a => encBar 3 n a 0
  | .bwait n a => encBar 4 n a 0 | .bstat n d => encBar 5 n d 0
  | .qrd d q => encRR 0x28 d (wide q) 0 0 | .qwr q a => encRR 0x28 (wide q) a 0 1 | .qrdv d q => encRR 0x28 d (wide q) 0 2
  | .qwrv q a => encRR 0x28 (wide q) a 0 3 | .qstat d q => encRR 0x28 d (wide q) 0 4
  | .chbind q a c => encRR 0x29 (wide q) a (wide (BitVec.ofBool c)) 0 | .chunb q => encRR 0x29 (wide q) 0 0 1 | .cheos q => encRR 0x29 (wide q) 0 0 2
  | .chgrow q a => encRR 0x29 (wide q) a 0 3 | .chstat d q => encRR 0x29 d (wide q) 0 4
  | .slclm n => encRR 0x2A 0 0 n 0 | .slrel n => encRR 0x2A 0 0 n 1 | .slstat d => encRR 0x2A d 0 0 2
  | .xidrd d k => encRR 0x2B d 0 (wide k) 0 | .xidwt a k => encRR 0x2B 0 a (wide k) 1
  | .csrr d n => encRI 0x2C d 0 ((0 : BitVec 2) ++ n) | .csrw d a n => encRI 0x2C d a ((1 : BitVec 2) ++ n)
  | .csrs d a n => encRI 0x2C d a ((2 : BitVec 2) ++ n) | .csrc d a n => encRI 0x2C d a ((3 : BitVec 2) ++ n)
  | .chunk => encRR 0x2D 0 0 0 0 | .fenceD => encRR 0x2D 0 0 0 1 | .fenceS => encRR 0x2D 0 0 0 2 | .lbsync => encRR 0x2D 0 0 0 3
  | .psync a b => encRR 0x2D 0 (wide a) b 4
  | .trap n => encRR 0x2E 0 0 n 0 | .tret k => encRR 0x2E 0 0 (wide (BitVec.ofBool k)) 1 | .brk n => encRR 0x2E 0 0 n 2 | .prioff => encRR 0x2E 0 0 0 3
  | .prion => encRR 0x2E 0 0 0 4 | .ctxsav a => encRR 0x2E 0 (wide a) 0 5 | .ctxrst a => encRR 0x2E 0 (wide a) 0 6
  | .fwcall d a n => encRR 0x2E d (wide a) n 7
  | .vadd d a b m t => encV 0x30 d a b m t 0 | .vsub d a b m t => encV 0x30 d a b m t 1 | .vmin d a b m t => encV 0x30 d a b m t 2
  | .vmax d a b m t => encV 0x30 d a b m t 3 | .vmul d a b m t => encV 0x31 d a b m t 0 | .vmulh d a b m t => encV 0x31 d a b m t 1
  | .vabs d a m t => encV 0x31 d a 0 m t 2 | .vneg d a m t => encV 0x31 d a 0 m t 3
  | .vfma d a b m t => encV 0x32 d a b m t 0 | .vfms d a b m t => encV 0x32 d a b m t 1 | .vfnma d a b m t => encV 0x32 d a b m t 2
  | .vfnms d a b m t => encV 0x32 d a b m t 3
  | .vand d a b m t => encV 0x33 d a b m t 0 | .vor d a b m t => encV 0x33 d a b m t 1 | .vxor d a b m t => encV 0x33 d a b m t 2
  | .vandn d a b m t => encV 0x33 d a b m t 3
  | .vshl d a b m t => encV 0x34 d a b m t 0 | .vshr d a b m t => encV 0x34 d a b m t 1 | .vsra d a b m t => encV 0x34 d a b m t 2
  | .vror d a b m t => encV 0x34 d a b m t 3
  | .vceq d a b m t => encV 0x35 (wide d) a b m t 0 | .vcne d a b m t => encV 0x35 (wide d) a b m t 1
  | .vclt d a b m t => encV 0x35 (wide d) a b m t 2 | .vcle d a b m t => encV 0x35 (wide d) a b m t 3
  | .vdiv d a b m t => encV 0x36 d a b m t 0 | .vsqrt d a m t => encV 0x36 d a 0 m t 1 | .vrcp d a m t => encV 0x36 d a 0 m t 2
  | .vrsq d a m t => encV 0x36 d a 0 m t 3
  | .vcvt d a x m t => encV 0x37 d a (wide x.code) m t 0 | .vqnt d a f m => encV 0x37 d a (wide f) m .f32 1
  | .vdqnt d a f m => encV 0x37 d a (wide f) m .f32 2 | .vamax d a m t => encV 0x37 d a 0 m t 3
  | .vrsum d a m t => encV 0x38 d a 0 m t 0 | .vrmax d a m t => encV 0x38 d a 0 m t 1 | .vrmin d a m t => encV 0x38 d a 0 m t 2
  | .vramax d a m t => encV 0x38 d a 0 m t 3
  | .vsplat d a m t => encV 0x39 d a 0 m t 0 | .vext d a b t => encV 0x39 d a b 0 t 1 | .vins d a b m t => encV 0x39 d a b m t 2
  | .vsel d a b m t => encV 0x39 d a b m t 3 | .vperm d a b m t => encV 0x3A d a b m t 0 | .vslu d a b m t => encV 0x3A d a b m t 1
  | .vsld d a b m t => encV 0x3A d a b m t 2 | .vbcl d a b m t => encV 0x3A d a b m t 3
  | .mand d a b => encV 0x3B (wide d) (wide a) (wide b) 0 .i32 0 | .mor d a b => encV 0x3B (wide d) (wide a) (wide b) 0 .i32 1
  | .mxor d a b => encV 0x3B (wide d) (wide a) (wide b) 0 .i32 2 | .mpop d a => encV 0x3B d (wide a) 0 0 .i32 3
  | .mld s f t a k => [encTC0 0 0 0, (0 : BitVec 23) ++ BitVec.ofBool t ++ f ++ s] ++ loHi a ++ [k, 0, 0, 0]
  | .mma c sa sb x y => [encTC0 0 1 0, (0 : BitVec 4) ++ x ++ (0 : BitVec 4) ++ sb ++ sa ++ (0 : BitVec 1) ++ c, (0 : BitVec 20) ++ y, 0, 0, 0, 0, 0]
  | .mzero c => [encTC0 0 2 0, (0 : BitVec 29) ++ c, 0, 0, 0, 0, 0, 0]
  | .mst c a k => [encTC0 0 3 0, (0 : BitVec 29) ++ c] ++ loHi a ++ [k, 0, 0, 0]
  | .mqnt c f r a x y b => [encTC0 0 4 0, (0 : BitVec 21) ++ r ++ f ++ (0 : BitVec 1) ++ c] ++ loHi a ++ [y ++ x] ++ loHi b ++ [0]
  | .mamax c n => [encTC0 0 5 0, (0 : BitVec 25) ++ n ++ (0 : BitVec 1) ++ c, 0, 0, 0, 0, 0, 0]
  | .cpin k l a b t => [encTC0 1 0 k, l] ++ loHi a ++ loHi b ++ [encTail t false, 0]
  | .cpout k l a b t => [encTC0 1 1 k, l] ++ loHi a ++ loHi b ++ [encTail t false, 0]
  | .cp2d k l a b t o r p => [encTC0 1 2 k, l] ++ loHi a ++ loHi b ++ [encTail t o, p ++ r]
  | .cploc k l a b t => [encTC0 1 3 k, l] ++ loHi a ++ loHi b ++ [encTail t false, 0]
  | .cpfill k l a p t => [encTC0 1 4 k, l] ++ loHi a ++ [p, 0, encTail t false, 0]
  | .xred k n t o a b c p => [encTC0 2 0 k, (0 : BitVec 10) ++ o ++ (0 : BitVec 1) ++ t.code ++ n] ++ loHi a ++ loHi b ++ [encTail c false, (0 : BitVec 19) ++ p]
  | .xbcast k n t a b c p => [encTC0 2 1 k, (0 : BitVec 13) ++ t.code ++ n] ++ loHi a ++ loHi b ++ [encTail c false, (0 : BitVec 19) ++ p]
  | _ => []

/-- The bytes of an instruction in the code image (R3). -/
def encodeBytes (i : Instr) : List Byte := (encode i).flatMap bytesOfWord

/-- The 32 bytes at a fetch whose first `nbits` bits are `w`, bit 0 the least significant of the first word, zeros above. -/
def tableBytes (nbits w : Nat) : List Byte :=
  let x : BitVec 256 := BitVec.ofNat 256 (w % 2 ^ nbits)
  (List.range 32).map fun i => x.extractLsb' (8 * i) 8

/-- The instruction the decoder reads from an instruction whose bits are `w`, numbered as the opcode table numbers them. -/
def decodeTableWord (nbits w : Nat) : Option Instr :=
  match decode (tableBytes nbits w) with
  | .ok i _ => some i
  | .illegal _ => none

end Sys2Proof
end

