-- ==== Sys2Proof/Machine/Device.lean ====
section
/-! DEFINITION. The device's shared places: the cores by index, translation (R290), global memory at its streamers (R237), held
writes of protected pages (R302), host event rings (R282, R294) and fence counters (R284). -/

namespace Sys2Proof.Machine

/-! ## Cores and tiles by number (R1, R2) -/

/-- The core with index 128·y + x. -/
def State.coreAt (s : State) (c : Nat) : Core := if c = s.cur then s.core else (look s.others c).getD .reset
/-- Replace a core. -/
def State.putCore (s : State) (c : Nat) (k : Core) : State :=
  if c = s.cur then { s with core := k } else { s with others := upd s.others c k }
/-- Change a core. -/
def State.onCore (s : State) (c : Nat) (f : Core → Core) : State := s.putCore c (f (s.coreAt c))
/-- Make a core the current one. -/
def State.goto (s : State) (c : Nat) : State :=
  if c = s.cur then s else { s with cur := c, core := s.coreAt c, others := upd (del s.others c) s.cur s.core }
/-- Column and row of a core index. -/
def cx (c : Nat) : Nat := c % 128
def cy (c : Nat) : Nat := c / 128
/-- The tile index tx + 8·ty of a core (R2, R24). -/
def tileOf (c : Nat) : Nat := cx c / 16 + 8 * (cy c / 8)
/-- A core's index within its tile, local x + 16·local y (R229). -/
def localOf (c : Nat) : Nat := cx c % 16 + 16 * (cy c % 8)
/-- The core of a tile with a local index. -/
def coreOf (t l : Nat) : Nat := 128 * (8 * (t / 8) + l / 16) + 16 * (t % 8) + l % 16
/-- The die of a core (R2). -/
def dieOf (c : Nat) : Nat := cx c / 64 + 2 * (cy c / 32)
/-! ## Where the agents attach (R2, R314) -/

/-- The router of streamer `i`. -/
def streamerCore (i : Nat) : Nat :=
  let d := i / 128
  let dx := d % 2
  let dy := d / 2
  let j := 3 * (i % 128) / 4
  if j < 64 then 128 * (if dy = 0 then 0 else 63) + (64 * dx + j) else 128 * (32 * dy + (j - 64)) + (if dx = 0 then 0 else 127)
/-- The router of the streamer that owns the page of a place (R237). (DESIGN CHOICE, log 51.) -/
def streamerAt (key : Nat) : Nat := streamerCore (Config.streamerOf (key / 0x10000)).toNat
/-- The package that holds a place of target 2; none for one of this package (R291). -/
def placePackage (key : Nat) : Option (BitVec 8) := if key / 2 ^ 60 = 2 then some (BitVec.ofNat 8 (key / 2 ^ 52)) else none
/-- The HBM stack that streamer `i` serves, and its pseudo-channel there. -/
def stackOf (i : Nat) : Nat := 2 * (i / 128) + i % 128 / 64
def pseudoChannel (i : Nat) : Nat := i % 64
/-- The router of the dispatcher of die `d`. -/
def dispatcherCore (d : Nat) : Nat := 128 * (32 * (d / 2) + 15) + (64 * (d % 2) + 31)
/-- The router of the firmware controller, on die 0. -/
def firmwareCore : Nat := 128 * 15 + 32
/-- The router of the checkpoint controller, on die 0. -/
def checkpointCore : Nat := 128 * 16 + 31
/-- The router of a tile's territory registers. -/
def territoryCore (t : Nat) : Nat := coreOf t 0
/-- The die whose dispatcher serves a queue (R2), and the one that runs a launch (R287). -/
def dieOfQueue (q : Nat) : Nat := q / 8192
def dieOfLaunch (id : Word) : Nat := (id.extractLsb' 30 2).toNat
def State.tileAt (s : State) (t : Nat) : Tile := vget s.tiles t .reset
def State.putTile (s : State) (t : Nat) (k : Tile) : State := { s with tiles := vset s.tiles t k }
def State.onTile (s : State) (t : Nat) (f : Tile → Tile) : State := s.putTile t (f (s.tileAt t))
/-- The 128 cores of a tile, by local index. -/
def tileCores (t : Nat) : List Nat := (List.range 128).map (coreOf t)
/-- A core in the layout of s2 (R17). -/
def coord (c : Nat) : BitVec 21 := Config.package ++ BitVec.ofNat 6 (cy c) ++ BitVec.ofNat 7 (cx c)
/-- The core index of a coordinate of this package. -/
def ofCoord (k : BitVec 21) : Nat := 128 * (k.extractLsb' 7 6).toNat + (k.extractLsb' 0 7).toNat
/-- The coordinate of the streamer that owns the page of a place, in the package that holds it (R237, R296). -/
def streamerCoord (key : Nat) : BitVec 21 := match placePackage key with
  | some q => q ++ (coord (streamerAt key)).extractLsb' 0 13
  | none => coord (streamerAt key)
/-- A coordinate of this package. -/
def isLocal (k : BitVec 21) : Bool := k.extractLsb' 13 8 = Config.package
/-- Resident contexts of a core. -/
def Core.ctxs (k : Core) : List Ctx := if k.resident then k.ctx :: k.others else k.others
/-- Change the resident context in a slot. -/
def Core.onCtx (k : Core) (slot : Nat) (f : Ctx → Ctx) : Core :=
  if k.resident ∧ k.ctx.slot = slot then { k with ctx := f k.ctx } else { k with others := updFirst k.others (·.slot = slot) f }
/-- The resident context with an ID. -/
def Core.byId (k : Core) (id : Half) : Option Ctx := k.ctxs.find? (·.id = id)
/-- Change the resident context with an ID. -/
def Core.onId (k : Core) (id : Half) (f : Ctx → Ctx) : Core :=
  if k.resident ∧ k.ctx.id = id then { k with ctx := f k.ctx } else { k with others := updFirst k.others (·.id = id) f }
/-- Every core that holds something, with its index. -/
def State.cores (s : State) : List (Nat × Core) := (s.cur, s.core) :: s.others

/-! ## Time and free values -/

/-- A step's own count for free values (DESIGN CHOICE, log 2). -/
def State.draw (s : State) : State := { s with tick := s.tick + 1 }

/-! ## Translation (R290) -/

/-- Bytes that a leaf maps: 64 KiB, 2 MiB, 1 GiB. -/
def pageBytes (size : Nat) : Nat := if size = 0 then 0x10000 else if size = 1 then 0x200000 else 0x40000000
/-- The place of a byte of global memory: target, package and physical address in one number. (DESIGN CHOICE, log 5.) (DESIGN CHOICE, log 19.) -/
def gkey (target pkg pa : Nat) : Nat := target * 2 ^ 60 + pkg * 2 ^ 52 + pa
/-- The leaf maps an address of a virtual device. -/
def Leaf.maps (l : Leaf) (v va : Nat) : Bool := decide (l.v = v ∧ l.va.toNat ≤ va ∧ va < l.va.toNat + pageBytes l.size)
/-- The leaf of a virtual device's tables that maps an address. -/
def State.leafNow (s : State) (v va : Nat) : Option Leaf := s.leaves.find? (·.maps v va)
/-- The leaf that an access uses: that of the tables, or, while an invalidation is under way, the old one by free choice (R295). -/
def State.leafAt (s : State) (v va : Nat) : Option Leaf :=
  match s.fading.find? fun f => !f.tiles.isEmpty && f.leaf.maps v va with
  | some f => if Config.oldEntry s.tick then some f.leaf else s.leafNow v va
  | none => s.leafNow v va
/-- The place that a leaf gives an address. -/
def Leaf.key (l : Leaf) (va : Nat) : Nat := gkey l.target (if l.target = 2 then l.pkg.toNat else 0) (l.pa.toNat + (va - l.va.toNat))
/-- The translated window (R22). -/
def inTrans (va : Nat) : Bool := decide (0x10000000000 ≤ va ∧ va < 0x1000000000000)
/-- The 64-bit entry of a leaf (R290). -/
def Leaf.entry (l : Leaf) : DWord :=
  BitVec.ofNat 64 (l.pa.toNat / 2 ^ 16 % 2 ^ 36 * 2 ^ 16 + (if l.target = 2 then l.pkg.toNat else 0) * 2 ^ 8 + l.target % 4 * 2 ^ 4
    + (if l.wr then 8 else 0) + (if l.rd then 4 else 0) + 3)
/-- The level at which a leaf of a size stands (R290), and the bytes that an entry of a level covers: 512 GiB, 1 GiB, 2 MiB, 64 KiB. -/
def leafLevel (size : Nat) : Nat := 4 - size
def levelBytes (level : Nat) : Nat := match level with
  | 1 => 2 ^ 39
  | 2 => 2 ^ 30
  | 3 => 2 ^ 21
  | _ => 2 ^ 16
/-- The page of the table that holds a virtual device's entry of a level for an address. -/
def State.tableFor (s : State) (v level va : Nat) : Option Nat := look s.tables (v, level, if level = 1 then 0 else va / levelBytes (level - 1))
/-- The entry of a level of a virtual device's tree for an address (R290): the leaf that stands there, the next table where there is one, or 0. Translation
takes its leaf from `leaves`; memory holds these entries in the pages of the tables. (DESIGN CHOICE, log 58.) -/
def State.entryAt (s : State) (v level va : Nat) : DWord :=
  match s.leaves.find? fun l => decide (l.v = v ∧ leafLevel l.size = level ∧ l.va.toNat / levelBytes level = va / levelBytes level) with
  | some l => l.entry
  | none => if level < 4 then (match s.tableFor v (level + 1) va with
    | some p => BitVec.ofNat 64 (p * 0x10000 + 1)
    | none => 0) else 0
/-- The place of an entry of a level of a virtual device's tree for an address, where its table is. -/
def State.entryPlace (s : State) (v level va : Nat) : Option Nat :=
  (s.tableFor v level va).map fun p => p * 0x10000 + 8 * (va / levelBytes level % (if level = 4 then 32 else 512))
/-- Walk a tree from a level: the level and the entry of the leaf that maps the address; `fuel` bounds the levels. -/
def State.walkFrom (s : State) (v va : Nat) : Nat → Nat → Option (Nat × DWord)
  | 0, _ => none
  | n + 1, level =>
    let e := s.entryAt v level va
    if ¬ e.getLsbD 0 then none else if e.getLsbD 1 then some (level, e) else s.walkFrom v va n (level + 1)
def State.tableWalk (s : State) (v va : Nat) : Option (Nat × DWord) := s.walkFrom v va 4 1
/-- XLATE or PERM, or the place (R23 step 5). -/
def State.xlate (s : State) (v va : Nat) (write : Bool) : Except Byte Nat :=
  match s.leafAt v va with
  | none => .error 0x05
  | some l => if (if write then l.wr else l.rd) then .ok (l.key va) else .error 0x06
/-- The first failing address of a range and its cause, page by page of 64 KiB; `fuel` bounds the pages. -/
def State.rangeFault (s : State) (v : Nat) (write both : Bool) : Nat → Nat → Nat → Option (Byte × Nat)
  | 0, _, _ => none
  | fuel + 1, va, n =>
    if n = 0 then none else
    let room := 0x10000 - va % 0x10000
    let bad (w : Bool) := match s.xlate v va w with
      | .error c => some (c, va)
      | .ok _ => none
    match bad write with
    | some e => some e
    | none =>
      match (if both then bad (!write) else none) with
      | some e => some e
      | none => if n ≤ room then none else s.rangeFault v write both fuel (va + room) (n - room)
/-- Owner of a 64 KiB page of HBM (R293). -/
def State.ownerOfPage (s : State) (p : Nat) : Option Nat := (s.owned.find? fun o => decide (o.1 ≤ p ∧ p < o.1 + o.2.1)).map (·.2.2)
/-- Every byte of a translated range is mapped for the access. -/
def State.rangeOk (s : State) (v va n : Nat) (write : Bool) : Bool := (s.rangeFault v write false (n / 0x10000 + 2) va n).isNone

/-! ## Global memory -/

/-- A line whose read is uncorrectable (R310). -/
def State.bad (s : State) (key n : Nat) : Bool := s.badLines.any fun l => decide (key / 64 ≤ l ∧ l ≤ (key + n - 1) / 64)
/-- Count a fault class in HEALTH (R310). -/
def State.count (s : State) (k : Nat) : State :=
  { s with health := { s.health with counts := upd s.health.counts k ((look s.health.counts k).getD 0 + 1) } }
/-- A lasting read error: counted, and its 4 KiB page listed (R310). -/
def State.noteBad (s : State) (key : Nat) : State :=
  let s := s.count 1
  { s with health := { s.health with badPages := if s.health.badPages.contains (key / 4096) then s.health.badPages else s.health.badPages ++ [key / 4096] } }
/-- The 4 KiB page of a place. -/
def pageOf (key : Nat) : Nat := key / 4096
/-- The 4 KiB page that a held write waits for. -/
def HeldWrite.page (h : HeldWrite) : Nat := pageOf h.place
/-- A write to the place is held: its page is under checkpoint protection, or writes held for it are still to be performed in their order (R300, R302). -/
def State.isProt (s : State) (key : Nat) : Bool := s.protect.contains (pageOf key) || s.held.any (·.page = pageOf key)
/-- A write is held at its streamer. -/
def State.holdWrite (s : State) (e : Ev) (key : Nat) (bs : List Byte) : State := { s with held := s.held ++ [⟨e, key, bs⟩] }
/-- A write performed at its streamer. -/
def State.gset (s : State) (key : Nat) (bs : List Byte) : State := { s with gmem := s.gmem.write key bs }
/-- The entry that a tree has at a level for an address is written into its table in memory (R290, R291). -/
def State.putEntry (s : State) (v level va : Nat) : State := match s.entryPlace v level va with
  | some a => s.gset a (leBytes 8 (s.entryAt v level va).toNat)
  | none => s
/-- A write of core `c` performed at its streamer; one of host memory is still to complete on the link (R239). (DEDUCED, log 18.) -/
def State.gput (s : State) (c key : Nat) (bs : List Byte) : State :=
  let t := s.gset key bs
  if key / 2 ^ 60 = 1 then { t with link := t.link ++ [⟨c, key, s.gmem.read key bs.length⟩] } else t
/-- A write of an agent of the device: held when its page is protected (R302). -/
def State.gwrite (s : State) (key : Nat) (bs : List Byte) : State :=
  if s.isProt key then s.holdWrite (.protectedWrite key bs .host) key bs else s.gset key bs
/-- A write of core `c` at its streamer: held when its page is protected (R237, R302). -/
def State.gwriteBy (s : State) (c key : Nat) (bs : List Byte) (why : GlobalWrite) : State :=
  if s.isProt key then s.holdWrite (.globalStorePerformed c key bs why) key bs else s.gput c key bs
/-- Read through a virtual device's tables, or a cause. A range is read page by page. (DEDUCED, log 48.) -/
def State.vread (s : State) (v va : Nat) : Nat → Except Byte (List Byte)
  | 0 => .ok []
  | n + 1 =>
    match s.xlate v va false with
    | .error c => .error c
    | .ok key =>
      if s.bad key 1 then .error 0x0D else
      match s.vread v (va + 1) n with
      | .error c => .error c
      | .ok bs => .ok (s.gmem.get key :: bs)
/-- The address at which a read of a range that fails does so. -/
def State.vfail (s : State) (v va n : Nat) : Nat := va + ((List.range n).find? fun i => match s.vread v (va + i) 1 with
  | .error _ => true
  | .ok _ => false).getD 0
/-- A read through a virtual device's tables that failed with this cause is counted where its line cannot be read (R310). -/
def State.noteFail (s : State) (v va : Nat) (c : Byte) : State :=
  if c = 0x0D then (match s.xlate v va false with
    | .ok key => s.noteBad key
    | .error _ => s) else s
/-- A read through a virtual device's tables, counted when it fails on a line that cannot be read (R310). -/
def State.vreadNote (s : State) (v va n : Nat) : State × Except Byte (List Byte) :=
  match s.vread v va n with
  | .ok bs => (s, .ok bs)
  | .error c => (s.noteFail v (s.vfail v va n) c, .error c)
/-- Write through a virtual device's tables where every byte is mapped; other bytes are left (callers check first). (DEDUCED, log 48.) -/
def State.vwriteWith (put : State → Nat → List Byte → State) (s : State) (v va : Nat) : List Byte → State
  | [] => s
  | b :: bs =>
    match s.xlate v va true with
    | .error _ => State.vwriteWith put s v (va + 1) bs
    | .ok key => State.vwriteWith put (put s key [b]) v (va + 1) bs
/-- The same by an agent of the device. -/
def State.vwrite (s : State) (v va : Nat) (bs : List Byte) : State := s.vwriteWith State.gwrite v va bs
/-- The same by core `c`, whose writes of host memory are still to complete on the link (R239). -/
def State.vwriteBy (s : State) (c v va : Nat) (bs : List Byte) : State := s.vwriteWith (fun s key bs => s.gwriteBy c key bs .copy) v va bs

/-! ## Queue control blocks, events, fence counters (R282, R284, R294) -/

/-- The place of a queue's control block. -/
def State.qcb (s : State) (q : Nat) : Nat := s.qbase + 64 * q
/-- The queues whose control block holds something. -/
def State.queues (s : State) : List Nat :=
  (s.gmem.filterMap fun c => if s.qbase ≤ c.1 ∧ c.1 < s.qbase + 64 * 32768 then some ((c.1 - s.qbase) / 64) else none).dedup
/-- A field of a control block. -/
def State.qget (s : State) (q off n : Nat) : Nat := ofBytes (s.gmem.read (s.qcb q + off) n)
/-- Write a field of a control block. -/
def State.qput (s : State) (q off n v : Nat) : State := s.gset (s.qcb q + off) (leBytes n v)
/-- Post a 64-byte event to a queue's event ring, or count it as dropped when the ring is full (R202, R282, R288) or its entry is
not mapped (DEDUCED, log 14). -/
def State.post (s : State) (q : Nat) (ev : List Byte) : State :=
  let size := 2 ^ s.qget q 32 1
  let tail := s.qget q 36 4
  let head := s.qget q 40 4
  let drop := s.qput q 44 4 (min 0xFFFFFFFF (s.qget q 44 4 + 1))
  if (tail + 2 ^ 32 - head) % 2 ^ 32 ≥ size then drop else
  let va := s.qget q 24 8 + 64 * (tail % size)
  match s.xlate (s.qget q 18 2) va true with
  | .error _ => drop
  | .ok key => (s.gwrite key (slice ev 0 64)).qput q 36 4 ((tail + 1) % 2 ^ 32)
/-- The launch with an ID. -/
def State.launchOf (s : State) (id : Word) : Option Launch := s.launches.find? (·.id = id)
/-- Post an event to the ring of a launch (R287), of a cancelled one too (R179). -/
def State.postLaunch (s : State) (id : Word) (ev : List Byte) : State :=
  match s.launchOf id, look s.gone id with
  | some l, _ => s.post l.queue ev
  | none, some q => s.post q ev
  | none, none => s
/-- An event's bytes from its fields: offset, size, value; 64 bytes, zero elsewhere. -/
def event (fields : List (Nat × Nat × Nat)) : List Byte :=
  fields.foldl (fun bs (f : Nat × Nat × Nat) => (bs.take f.1 ++ leBytes f.2.1 f.2.2) ++ bs.drop (f.1 + f.2.1)) (List.replicate 64 0)
/-- The place of a fence counter (R284). -/
def State.fcb (s : State) (f : Nat) : Nat := s.fbase + 8 * f
def State.fence (s : State) (f : Nat) : Nat := ofBytes (s.gmem.read (s.fcb f) 8)
/-- Increment a fence counter, modulo 2^64 (R284). -/
def State.fenceAdd (s : State) (f n : Nat) : State := s.gset (s.fcb f) (leBytes 8 ((s.fence f + n) % 2 ^ 64))
/-- The virtual device by number. -/
def State.vdev (s : State) (v : Nat) : Option VDev := s.vdevs.find? (·.v = v)
/-- The virtual device owns the fence counter (R284, R289). (DESIGN CHOICE, log 37.) -/
def State.ownsFence (s : State) (v f : Nat) : Bool := (s.vdev v).any fun d => decide (d.fenceLo ≤ f ∧ f < d.fenceHi)
/-- Add a step in flight. -/
def State.send (s : State) (e : Ev) : State := { s with agenda := s.agenda ++ [e] }
def State.sendAll (s : State) (es : List Ev) : State := { s with agenda := s.agenda ++ es }

end Sys2Proof.Machine
end

