-- ==== Sys2Proof/Machine/Ready.lean ====
section
/-! DEFINITION. Channels by number (R146), the records of the run queue and what waits for them (R179, R181), and the readiness of actors (R180). -/

namespace Sys2Proof.Machine

/-! ## Channels (R146) -/

def chanTile (ch : BitVec 15) : Nat := (ch.extractLsb' 9 6).toNat
def State.chanAt (s : State) (ch : BitVec 15) : Option Chan := (s.tileAt (chanTile ch)).chans.find? (·.idx = ch)
def State.onChan (s : State) (ch : BitVec 15) (f : Chan → Chan) : State :=
  s.onTile (chanTile ch) fun t => { t with chans := updFirst t.chans (·.idx = ch) f }
/-- Elements in a channel's ring (R146). -/
def Chan.occ (k : Chan) : Nat := k.entered - k.read.toNat

/-- The commands that hold or have reserved an entry of a core's matrix queue, released to it: those that have entered, then the others (R97). -/
def Core.commands (k : Core) : List MCmd := k.mq ++ k.entering

/-! ## Records (R179–R181) -/

/-- Shared records in use. -/
def Core.sharedUsed (k : Core) : Nat := (k.runq.filter fun r => match r with
  | .fresh r => r.inbox.isNone
  | .parked _ _ _ _ => true).length
/-- Inbox slots in use for a network (R222). -/
def Core.inboxUsed (k : Core) (reply : Bool) : Nat := (k.runq.filter fun r => match r with
  | .fresh r => r.inbox == some reply
  | .parked _ _ _ _ => false).length
def Core.masked (k : Core) (c : BitVec 5) : Bool := k.clsmsk.getLsbD c.toNat
/-- Events in the pending store (R181). -/
def Core.stored (k : Core) : Nat := (k.waiting.filter fun w => match w with
  | .event _ => true
  | _ => false).length
/-- The ready firing of an actor class (R17, R178). -/
def Core.actorReady (c : Nat) (cls : BitVec 5) (h : Handler) (cycle : DWord) : Ready :=
  ⟨cls, 1, none, h.high, 0, coord c, h.terms.foldl (fun e t => e ||| ((1 : Word) <<< (t.1.toNat - 4))) 0, 0, 0, cycle⟩
/-- A waiter that may take a shared record now: not of a masked class. -/
def Core.mayEnter (k : Core) : Waiter → Bool
  | .event r => !k.masked r.cls
  | .actor c => !k.masked c
  | .park _ => true
/-- Enqueue what waits, in order, while shared records are free (R181); `fuel` bounds the records. -/
def Core.refill (c : Nat) (cycle : DWord) : Nat → Core → Core
  | 0, k => k
  | n + 1, k =>
    if 32 ≤ k.sharedUsed then k else
    match k.waiting.find? k.mayEnter with
    | none => k
    | some w =>
      let k' := { k with waiting := delFirst k.waiting k.mayEnter }
      let r : Option RunRec := match w with
        | .event r => some (.fresh { r with cycle := cycle })
        | .actor cls => (look k.handlers cls).map fun h => .fresh (Core.actorReady c cls h cycle)
        | .park key => (k.parks.find? (·.key = key)).map fun p => .parked key p.fir.cls p.fir.high cycle
      Core.refill c cycle n { k' with runq := k'.runq ++ r.toList }
def State.refill (s : State) (c : Nat) : State := s.onCore c fun k => k.refill c s.cycle 32
/-- Something begins to wait for a shared record. -/
def State.enqueue (s : State) (c : Nat) (w : Waiter) : State := (s.onCore c fun k => { k with waiting := k.waiting ++ [w] }).refill c
/-- A local event of kind 4, 5 or 6 (R179): dropped and posted as 0x0105 when its class has no valid entry. -/
def State.localEvent (s : State) (c : Nat) (kind : BitVec 3) (cls : BitVec 5) (evt : Word) (src : BitVec 21) (payload : List Byte) (launch : Word) : State :=
  match look (s.coreAt c).handlers cls with
  | none => s.postLaunch launch (event [(0, 2, 0x0105), (2, 1, kind.toNat), (3, 1, cls.toNat), (4, 4, (coord c).toNat), (8, 4, evt.toNat),
      (12, 4, src.toNat), (16, 8, s.cycle.toNat)])
  | some h => s.enqueue c (.event ⟨cls, kind, none, h.high, payload.length, src, evt, bytesVec payload, launch, s.cycle⟩)
/-- Room in the pending store of a core (R181). -/
def State.storeRoom (s : State) (c : Nat) : Bool := decide ((s.coreAt c).stored < 32)
/-- A local event of this trigger at core `c` finds room in its pending store (R181). -/
def State.trigMay (s : State) (c : Nat) (trig : Option (BitVec 5)) : Bool := trig.isNone || s.storeRoom c

/-! ## Actors (R180) -/

/-- Held spill pushes of a channel in the producer core's open chunk; while there is one the producer's end is spilling (R149). -/
def State.heldSpills (s : State) (k : Chan) : Nat :=
  ((s.coreAt (ofCoord k.producer)).fir.chunk.held.filter fun h => match h with
    | .push c b _ _ _ => c == k.idx && b
    | _ => false).length
/-- One term of an actor holds: its queue is bound to the declared end, and the channel has the elements or the room. -/
def State.termHolds (s : State) (x : Ctx) (t : QReg × Bool × Nat) : Bool :=
  match x.prog.binds.find? (·.q = t.1) with
  | none => false
  | some b =>
    match s.chanAt b.ch with
    | none => false
    | some k =>
      if t.2.1 then !b.consumer && !k.eosBit && !k.suspect && ((!k.prodXoff && !k.spilling && s.heldSpills k == 0) || decide (t.2.2 ≤ k.limit - (k.sr + s.heldSpills k)))
      else b.consumer && decide (t.2.2 ≤ k.occ)
/-- A firing of a class is ready, waiting, running, preempted or parked on a core. -/
def Core.classLive (k : Core) (cls : BitVec 5) : Bool :=
  (k.runq.any fun r => match r with
    | .fresh r => r.cls == cls
    | .parked _ c _ _ => c == cls)
  || k.waiting.contains (.actor cls) || (k.status ≠ .idle && k.fir.cls == cls) || (k.under.any fun f => f.cls == cls) || (k.parks.any fun p => p.fir.cls == cls)
/-- Evaluate a core's actor classes (R180). -/
def State.actors (s : State) (c : Nat) : State :=
  (s.coreAt c).handlers.foldl (fun s e =>
    let k := s.coreAt c
    if e.2.actor && !k.classLive e.1 && !k.fenced then
      match k.byId e.2.ctx with
      | none => s
      | some x => if e.2.terms.all (s.termHolds x) then s.enqueue c (.actor e.1) else s
    else s) s
/-- One of a channel's ends changed: its actors are evaluated again. -/
def State.touch (s : State) (ch : BitVec 15) : State :=
  match s.chanAt ch with
  | none => s
  | some k => ((s.actors (ofCoord k.producer)).actors (ofCoord k.consumer))

end Sys2Proof.Machine
end

