-- ==== Sys2Proof/Machine/Ops.lean ====
section
/-! DEFINITION. The named operations over registers, firings, chunks and scratchpads: reading and writing registers, retiring an
instruction, ending a chunk, waiting, taking a trap (R265) and returning from one (R269), losing a context (R255, R267). -/

namespace Sys2Proof.Machine

/-! ## Registers (R14) -/

/-- s0 reads 0. -/
def Regs.getS (r : Regs) (i : Reg) : Word := if i = 0 then 0 else r.s[i.toNat]'(by omega)
/-- A write to s0 is discarded. -/
def Regs.setS (r : Regs) (i : Reg) (v : Word) : Regs := if i = 0 then r else { r with s := r.s.set i.toNat v (by omega) }
/-- The low and high scalars of a pair. -/
def pairLo (p : Pair) : Reg := BitVec.ofNat 6 (2 * p.toNat)
def pairHi (p : Pair) : Reg := BitVec.ofNat 6 (2 * p.toNat + 1)
/-- d0 reads 0; dN is s(2N+1):s(2N). -/
def Regs.getD (r : Regs) (p : Pair) : DWord := if p = 0 then 0 else r.getS (pairHi p) ++ r.getS (pairLo p)
/-- A write to d0 is discarded. -/
def Regs.setD (r : Regs) (p : Pair) (v : DWord) : Regs :=
  if p = 0 then r else (r.setS (pairLo p) (lo32 v)).setS (pairHi p) (hi32 v)
/-- m0 reads all ones. -/
def Regs.getM (r : Regs) (m : MReg) : DWord := if m = 0 then BitVec.allOnes 64 else r.m[m.toNat]'(by omega)
/-- A write to m0 is discarded. -/
def Regs.setM (r : Regs) (m : MReg) (v : DWord) : Regs := if m = 0 then r else { r with m := r.m.set m.toNat v (by omega) }

def State.ctx (s : State) : Ctx := s.core.ctx
def State.fir (s : State) : Firing := s.core.fir
def State.regs (s : State) : Regs := s.core.fir.regs
def State.prog (s : State) : Prog := s.core.ctx.prog
def State.chunk (s : State) : Chunk := s.core.fir.chunk
def State.setCtx (s : State) (x : Ctx) : State := { s with core := { s.core with ctx := x } }
def State.setFir (s : State) (x : Firing) : State := { s with core := { s.core with fir := x } }
def State.setRegs (s : State) (x : Regs) : State := { s with core := { s.core with fir := { s.core.fir with regs := x } } }
def State.setProg (s : State) (x : Prog) : State := { s with core := { s.core with ctx := { s.core.ctx with prog := x } } }
def State.setChunk (s : State) (x : Chunk) : State := { s with core := { s.core with fir := { s.core.fir with chunk := x } } }
def State.setStatus (s : State) (x : Status) : State := { s with core := { s.core with status := x } }
def State.s (s : State) (i : Reg) : Word := s.regs.getS i
def State.d (s : State) (p : Pair) : DWord := s.regs.getD p
def State.m (s : State) (m : MReg) : DWord := s.regs.getM m
/-- A vector register: v0 belongs to the firing, v1–v63 to the context. -/
def State.v (s : State) (i : Reg) : Vec := if i = 0 then s.regs.v0 else s.prog.v[i.toNat]'(by omega)
def State.setS (s : State) (i : Reg) (v : Word) : State := s.setRegs (s.regs.setS i v)
def State.setD (s : State) (p : Pair) (v : DWord) : State := s.setRegs (s.regs.setD p v)
def State.setM (s : State) (m : MReg) (v : DWord) : State := s.setRegs (s.regs.setM m v)
def State.setV (s : State) (i : Reg) (v : Vec) : State :=
  if i = 0 then s.setRegs { s.regs with v0 := v } else s.setProg { s.prog with v := s.prog.v.set i.toNat v (by omega) }
/-- Accrue flags (R87). -/
def State.flag (s : State) (f : BitVec 5) : State := s.setProg { s.prog with fflags := s.prog.fflags ||| f }
def State.pc (s : State) : Word := s.regs.pc
def State.tile (s : State) : Nat := tileOf s.cur
/-- The trap registers of the running bank (R263). -/
def State.trapRegs (s : State) : TrapRegs := if s.fir.high then s.prog.hi else s.prog.lo
def State.setTrapRegs (s : State) (t : TrapRegs) : State :=
  s.setProg (if s.fir.high then { s.prog with hi := t } else { s.prog with lo := t })

/-! ## Chunks (R26, R229, R231) -/

/-- The chunk has nothing to commit: no instruction has executed in it. -/
def State.chunkEmpty (s : State) : Bool := s.chunk.count = 0 && s.chunk.held.isEmpty
/-- The chunk ends and asks its tile's commit arbiter for a grant. (DEDUCED, log 26.) -/
def State.endChunk (s : State) (a : After) : State :=
  (s.setStatus (.ending a)).onTile s.tile fun t => { t with reqs := t.reqs ++ [(localOf s.cur, s.cycle)] }
/-- Add a held effect (R27). -/
def State.hold (s : State) (h : Held) : State := s.setChunk { s.chunk with held := s.chunk.held ++ [h] }
/-- Count an executed instruction (R26, R184). -/
def State.counted (s : State) : State :=
  s.setFir { s.fir with wcount := if s.fir.window ∧ ¬ s.fir.inTrap then s.fir.wcount + 1 else s.fir.wcount,
                        chunk := { s.fir.chunk with count := s.fir.chunk.count + 1 } }
/-- The 512th instruction ends the chunk (R26). -/
def State.full (s : State) : State := if s.chunk.count ≥ 512 then s.endChunk .run else s

/-! ## The program counter and loops (R69–R71) -/

/-- `pc` lies in a level's body. -/
def Level.holds (l : Level) (pc : Word) : Bool := l.on && decide (l.start.toNat ≤ pc.toNat) && decide (pc.toNat < l.stop.toNat)
/-- Level 0's end of iteration when the instruction that has just completed was the last of its body. -/
def Regs.end0 (r : Regs) : Regs :=
  let r' := r.setS r.l0.rd (r.getS r.l0.rd + r.l0.stride)
  if r.l0.count = 1 then { r' with l0 := .shut } else { r' with l0 := { r.l0 with count := r.l0.count - 1 }, pc := r.l0.start }
/-- Level 1's end of iteration. -/
def Regs.end1 (r : Regs) : Regs :=
  let r' := r.setS r.l1.rd (r.getS r.l1.rd + r.l1.stride)
  if r.l1.count = 1 then { r' with l1 := .shut } else { r' with l1 := { r.l1 with count := r.l1.count - 1 }, pc := r.l1.start }
/-- Move past the instruction at pc, of `words` words, performing the ends of iteration that fall there: level 1 first, then level 0
unless level 1 went back to its start (R71). -/
def Regs.advance (r : Regs) (words : Nat) : Regs :=
  let pc' := r.pc + BitVec.ofNat 32 (4 * words)
  let last0 := r.l0.holds r.pc && r.l0.stop == pc'
  let last1 := r.l1.holds r.pc && r.l1.stop == pc'
  let r := { r with pc := pc' }
  let r := if last1 then r.end1 else r
  if last0 && r.pc == pc' then r.end0 else r
/-- A taken branch, j or jr closes each level whose body its target is outside, and the levels inside it (R70). -/
def Regs.jump (r : Regs) (target : Word) (closes : Bool) : Regs :=
  let r := if closes && r.l0.on && !(r.l0.holds target) then { r with l0 := .shut, l1 := .shut } else r
  let r := if closes && r.l1.on && !(r.l1.holds target) then { r with l1 := .shut } else r
  { r with pc := target }

/-- Move past an instruction. -/
def State.advance (s : State) (words : Nat) : State := s.setRegs (s.regs.advance words)
/-- Complete an instruction of `words` words that does not transfer control. -/
def State.retire (s : State) (words : Nat) : State := (s.advance words).counted.full
/-- Complete an instruction that transfers control. -/
def State.retireTo (s : State) (target : Word) (closes : Bool) : State :=
  ((s.setRegs (s.regs.jump target closes)).counted).full

/-! ## Scratchpads: reads, writes, parity (R128–R140) -/

/-- Row and group of an offset (R128). -/
def rowOf (off : Nat) : Nat := off / 128
def bankOf (off : Nat) : Nat := off / 8 % 16
def groupOf (off : Nat) : Nat := off / 32 % 4
/-- The bank that serves a data bank: its group's parity bank once it is retired (R136). -/
def Core.served (k : Core) (bank : Nat) : Nat := if look k.degraded (bank / 4) = some bank then 16 + bank / 4 else bank
def Core.isDegraded (k : Core) (g : Nat) : Bool := (look k.degraded g).isSome
/-- The number of a word: 16·row + bank. -/
def wordAt (bank row : Nat) : Nat := 16 * row + bank
/-- A bit flipped in a set of wrong bits: a second flip restores it. -/
def toggle (l : List Nat) (b : Nat) : List Nat := if l.contains b then l.filter (· ≠ b) else l ++ [b]
/-- Bits now wrong in a stored word. -/
def Core.errors (k : Core) (bank row : Nat) : List Nat :=
  ((k.flips.filter fun f => f.bank = bank ∧ f.row = row).flatMap (·.bits)).foldl toggle []
/-- A saturating count of ERRCNT's fields (R138): 0 corrected, 1 lasting, 2 transient. -/
def bump (e : Word) (f : Nat) : Word :=
  match f with
  | 0 => if e.extractLsb' 0 16 = 0xFFFF then e else e + 1
  | 1 => if e.extractLsb' 16 8 = 0xFF then e else e + 0x10000
  | _ => if e.extractLsb' 24 8 = 0xFF then e else e + 0x1000000
/-- Log an error event, the oldest of 16 overwritten (R140); double-bit errors are counted (R310). -/
def Core.logErr (k : Core) (bank row : Nat) (cls : Byte) (ctx : Half) (cycle : DWord) (syn : Byte) : Core :=
  let l := k.errlog ++ [⟨bank, row, syn, cls, ctx, cycle⟩]
  { k with errlog := if l.length > 16 then l.drop 1 else l, doubles := if 2 ≤ cls.toNat ∧ cls.toNat ≤ 4 then k.doubles + 1 else k.doubles }
/-- An armed injection fires at the next read of its word (R139). -/
def Core.inject (k : Core) (bank row : Nat) : Core :=
  let e := k.einj
  let eb := (e.extractLsb' 25 4).toNat + (if e.getLsbD 29 then 16 else 0)
  if e.getLsbD 31 ∧ eb = bank ∧ (e.extractLsb' 15 10).toNat = row then
    { k with einj := e &&& 0x7FFFFFFF,
             flips := k.flips ++ [⟨bank, row, (e.extractLsb' 8 7).toNat :: (if e.getLsbD 30 then [(e.extractLsb' 1 7).toNat] else []), e.getLsbD 0⟩] }
  else k
/-- A stored word is no longer disturbed: it has been written with fresh check bits. -/
def Core.cleanWord (k : Core) (bank row : Nat) : Core :=
  { k with flips := k.flips.filter (fun f => f.bank ≠ bank || f.row ≠ row), fixes := k.fixes.filter (· ≠ (bank, row)) }
/-- One reading of a stored word, with the bits that are wrong in it; flips that last one read are gone after it. -/
def Core.sense (k : Core) (bank row : Nat) : Core × List Nat :=
  let k := k.inject bank row
  ({ k with flips := k.flips.filter fun f => f.persist || f.bank ≠ bank || f.row ≠ row }, k.errors bank row)
/-- A corrected or rebuilt word is to be written back in an idle cycle of its bank. -/
def Core.toFix (k : Core) (bank row : Nat) : Core := if k.fixes.contains (bank, row) then k else { k with fixes := k.fixes ++ [(bank, row)] }
/-- A single-bit error is corrected (R134). -/
def Core.corrected (k : Core) (bank row : Nat) (ctx : Half) (cycle : DWord) (syn : Byte) : Core :=
  Core.toFix { k.logErr bank row 1 ctx cycle syn with errcnt := bump k.errcnt 0 } bank row
/-- The pair (row, group) of a word becomes stale at the end of this cycle, unless its group is degraded (R129, R137); the first stale pair of a
group starts its wait count (R131). -/
def Core.markStale (k : Core) (w : Nat) : Core :=
  let p := (w / 16, w % 16 / 4)
  if k.isDegraded p.2 ∨ k.stale.contains p then k
  else { k with stale := k.stale ++ [p], waits := if k.stale.any (·.2 = p.2) then k.waits else vset k.waits p.2 0 }
/-- The wait count of a group (R131). -/
def Core.waitCount (k : Core) (g : Nat) : Nat := if k.stale.any (·.2 = g) then vget k.waits g 0 else 0
/-- A cycle in which banks of these groups are in use: the wait counts of those that hold a stale pair rise (R131). The updater takes every cycle in which
a group is idle, so that no other cycle counts (DESIGN CHOICE, log 28). -/
def Core.busy (k : Core) (gs : List Nat) : Core :=
  if k.stale.isEmpty then k else
  { k with waits := gs.foldl (fun w g => if k.stale.any (·.2 = g) then vset w g (vget w g 0 + 1) else w) k.waits }
/-- The groups of the banks that hold some bytes. -/
def groupsIn (off n : Nat) : List Nat := (List.range 4).filter fun g => 128 ≤ n || (List.range ((off + n - 1) / 32 - off / 32 + 1)).any fun i => (off / 32 + i) % 4 == g
/-- A word read to make up another of its row and group, or the row's parity word (R132, R134): false when it cannot be corrected. A parity word
with a double-bit error makes its pair stale. -/
def Core.assist (k : Core) (bank row : Nat) (ctx : Half) (cycle : DWord) (syn : Byte) : Core × Bool :=
  let r := k.sense bank row
  if bank < 16 ∧ k.poison.contains (wordAt bank row) then (r.1, false)
  else match r.2 with
  | [] => (r.1, true)
  | [_] => (r.1.corrected bank row ctx cycle syn, true)
  | _ => (if 16 ≤ bank then r.1.markStale (wordAt (4 * (bank - 16)) row) else r.1, false)
/-- The other three words of a group's row and its parity word; false when one of them cannot be corrected. -/
def Core.siblings (k : Core) (bank row : Nat) (ctx : Half) (cycle : DWord) (syn : Byte) : Core × Bool :=
  let g := bank / 4
  ((((List.range 4).map (4 * g + ·)).filter (· ≠ bank)) ++ [16 + g]).foldl (fun (a : Core × Bool) b =>
    let r := a.1.assist b row ctx cycle syn
    (r.1, a.2 && r.2)) (k, true)
/-- Parity can make up a word of this bank and row: the pair is fresh and the group not degraded. -/
def Core.spare (k : Core) (bank row : Nat) : Bool := !k.stale.contains (row, bank / 4) && !k.isDegraded (bank / 4)
/-- R134: one read of a word at its own bank, by any reader but the scrubber; false is RECON. A failed retry is a lasting error of its bank, whether the
word is rebuilt or not (R310). `syn` is the log's syndrome byte, which the spec does
not state. (DEDUCED, log 34.) -/
def Core.readDirect (k : Core) (bank row : Nat) (ctx : Half) (cycle : DWord) (syn : Byte) : Core × Bool :=
  let b := k.served bank
  let poisoned := k.poison.contains (wordAt bank row)
  let r := k.sense b row
  if poisoned then ({ r.1 with errcnt := bump r.1.errcnt 1 }, false)
  else match r.2 with
  | [] => (r.1, true)
  | [_] => (r.1.corrected b row ctx cycle syn, true)
  | _ =>
    let q := r.1.sense b row
    if q.2.length < 2 then ({ q.1.logErr b row 2 ctx cycle syn with errcnt := bump q.1.errcnt 2 }, true)
    else
      let a := if q.1.spare bank row then q.1.siblings bank row ctx cycle syn else (q.1, false)
      let k := { a.1.logErr b row (if a.2 then 3 else 4) ctx cycle syn with errcnt := bump a.1.errcnt 1, lasting := a.1.lasting ++ [(bank, cycle)] }
      if a.2 then (k.toFix b row, true) else (k, false)
/-- R132, R134: one read of a word. One that loses its bank (`lost`) is a mirage read of the siblings and the parity word where the pair is fresh,
abandoned for a read of its own bank where one of them cannot be corrected. -/
def Core.readWord (k : Core) (bank row : Nat) (lost : Bool) (ctx : Half) (cycle : DWord) (syn : Byte) : Core × Bool :=
  let m := if lost && k.spare bank row then k.siblings bank row ctx cycle syn else (k, false)
  if m.2 then m else m.1.readDirect bank row ctx cycle syn
/-- The word numbers (16·row + bank) of a range of bytes. -/
def wordsIn (off n : Nat) : List Nat := if n = 0 then [] else (List.range ((off + n - 1) / 8 - off / 8 + 1)).map (off / 8 + ·)
/-- Nothing in the core's scratchpad can disturb a read. -/
def Core.clean (k : Core) : Bool := k.flips.isEmpty && k.poison.isEmpty && !k.einj.getLsbD 31
/-- Read the words of a range; false is RECON. `lost` says which of them lose their bank (R132). -/
def Core.readWords (k : Core) (off n : Nat) (lost : Nat → Bool) (ctx : Half) (cycle : DWord) (syn : Byte) : Core × Bool :=
  if k.clean then (k, true) else
  (wordsIn off n).foldl (fun (a : Core × Bool) w =>
    if a.2 then a.1.readWord (w % 16) (w / 16) (lost w) ctx cycle syn else a) (k, true)
/-- The first word of a range whose read fails. -/
def Core.badWord (k : Core) (off n : Nat) (ctx : Half) (cycle : DWord) (syn : Byte) : Option Nat :=
  (wordsIn off n).find? fun w => !(k.readWords off (8 * w + 8 - off) (fun _ => false) ctx cycle syn).2
/-- Read bytes of a scratchpad; none is RECON. -/
def Core.readBytes (k : Core) (off n : Nat) (lost : Nat → Bool) (ctx : Half) (cycle : DWord) (syn : Byte) : Core × Option (List Byte) :=
  let r := k.readWords off n lost ctx cycle syn
  (r.1, if r.2 then some (r.1.mem.read off n) else none)
/-- What a write does to a word's check bits and poison (R135). A read-modify-write has no mirage read (R132); one that finds the word unreadable is a
read of R134 that fails, which logs RC and counts a lasting error beside the entry PS (DESIGN CHOICE, log 70). A vst (`rows`) reads no bank (R127): a
word of which it writes a part keeps what is wrong in it and its poison (DESIGN CHOICE, log 67). -/
def Core.writeWord (k : Core) (rows : Bool) (w off n : Nat) (ctx : Half) (cycle : DWord) (syn : Byte) : Core :=
  let b := k.served (w % 16)
  if off ≤ 8 * w ∧ 8 * w + 8 ≤ off + n then { k.cleanWord b (w / 16) with poison := k.poison.filter (· ≠ w) }
  else if rows then k
  else
    let r := k.readDirect (w % 16) (w / 16) ctx cycle syn
    if r.2 then r.1.cleanWord b (w / 16)
    else { r.1.logErr b (w / 16) 5 ctx cycle syn with poison := if r.1.poison.contains w then r.1.poison else r.1.poison ++ [w] }
/-- Write bytes of a scratchpad (R129, R135); `rows` marks those of a vst (R127). -/
def Core.writeBytes (k : Core) (off : Nat) (bs : List Byte) (ctx : Half) (cycle : DWord) (syn : Byte) (rows : Bool := false) : Core :=
  let k := if k.clean then k else (wordsIn off bs.length).foldl (fun k w => k.writeWord rows w off bs.length ctx cycle syn) k
  (wordsIn off bs.length).foldl (fun k w => k.markStale w) { k with mem := k.mem.write off bs }
/-- A free syndrome byte (R140 does not state syndromes; log 15). -/
def State.syn (s : State) : Byte := Config.byte s.tick
/-- Read bytes of a core's scratchpad, for a context, at their own banks. -/
def State.scrRead (s : State) (c off n : Nat) (ctx : Half) : State × Option (List Byte) :=
  let r := ((s.coreAt c).busy (groupsIn off n)).readBytes off n (fun _ => false) ctx s.cycle s.syn
  (s.putCore c r.1, r.2)
/-- The same for a core's load or a copy's read, which may be mirage reads; which of them lose their bank is free. (DESIGN CHOICE, log 28.) -/
def State.mirRead (s : State) (c off n : Nat) (ctx : Half) : State × Option (List Byte) :=
  let r := ((s.coreAt c).busy (groupsIn off n)).readBytes off n (Config.mirage s.tick) ctx s.cycle s.syn
  (s.putCore c r.1, r.2)
/-- Write bytes of a core's scratchpad. -/
def State.scrWrite (s : State) (c off : Nat) (bs : List Byte) (ctx : Half) : State :=
  s.onCore c fun k => (k.busy (groupsIn off bs.length)).writeBytes off bs ctx s.cycle s.syn

/-! ## The private port (R234) -/

/-- A byte of a group of old bytes. -/
def inRange (off n a : Nat) : Bool := decide (off ≤ a) && decide (a < off + n)
/-- A private-alias store is performed at its bank: what others wrote there before it is seen through it. -/
def Core.performOwn (k : Core) (off : Nat) (bs : List Byte) (ctx : Half) (rows : Bool) (cycle : DWord) (syn : Byte) : Core :=
  let k := (k.busy (groupsIn off bs.length)).writeBytes off bs ctx cycle syn rows
  { k with lag := (k.lag.map fun g => g.filter fun c => !inRange off bs.length c.1).filter fun g => !g.isEmpty }
/-- The oldest of the released private-alias stores reaches its banks. -/
def Core.drainOne (k : Core) (cycle : DWord) (syn : Byte) : Core := match k.port with
  | [] => k
  | w :: ws => { k with port := ws }.performOwn w.1 w.2.1 w.2.2.1 w.2.2.2 cycle syn
/-- The released private-alias stores reach their banks, in order. -/
def Core.drain (k : Core) (cycle : DWord) (syn : Byte) : Core :=
  k.port.foldl (fun k w => k.performOwn w.1 w.2.1 w.2.2.1 w.2.2.2 cycle syn) { k with port := [] }
def State.drain (s : State) (c : Nat) : State := s.onCore c fun k => k.drain s.cycle s.syn
/-- The private port sees every write performed so far. -/
def State.catchUp (s : State) (c : Nat) : State := s.onCore c fun k => { k with lag := [] }
/-- The byte that a private-alias load sees: of the last store released and not performed, else of before the oldest write not seen, else the bank's. -/
def Core.seenByte (k : Core) (a : Nat) : Byte :=
  match k.port.foldl (fun (r : Option Byte) w => if inRange w.1 w.2.1.length a then some (w.2.1.getD (a - w.1) 0) else r) none with
  | some b => b
  | none => (k.lag.findSome? fun g => look g a).getD (k.mem.get a)
/-- The bytes that a private-alias load sees. -/
def Core.seen (k : Core) (off n : Nat) : List Byte :=
  if k.port.isEmpty && k.lag.isEmpty then k.mem.read off n else (List.range n).map fun i => k.seenByte (off + i)
/-- A write through the tile port or by an agent: the core's private port need not see it yet (R234). (DEDUCED, log 56.) -/
def State.extWrite (s : State) (c off : Nat) (bs : List Byte) (ctx : Half) (rows : Bool := false) : State :=
  s.onCore c fun k =>
    let old : Mem := (List.range bs.length).map fun i => (off + i, k.mem.get (off + i))
    (({ k with lag := if k.status = .idle then k.lag else k.lag ++ [old] } : Core).busy (groupsIn off bs.length)).writeBytes off bs ctx s.cycle s.syn rows
/-- Between the read and the write of an agent's step released private stores of the owning core may reach their banks (R130). (DESIGN CHOICE, log 71.) -/
def State.between (s : State) (c : Nat) : State := if Config.between s.tick then s.drain c else s
/-- An agent that has read the words of a range, from a scratchpad as it stood then, writes them back whole with these bytes in them (R130): no bank is
read again. -/
def State.writeBack (s : State) (m : Mem) (c off : Nat) (bs : List Byte) (ctx : Half) : State :=
  let a := off / 8 * 8
  let e := off + bs.length
  s.extWrite c a (m.read a (off - a) ++ bs ++ m.read e ((e + 7) / 8 * 8 - e)) ctx

/-! ## Channels and losses (R146, R152, R223, R255) -/

/-- A channel becomes suspect; the first time, event 0x0202 is posted (R152, R294). -/
def State.suspect (s : State) (ch : BitVec 15) (cause : Byte) : State :=
  match s.chanAt ch with
  | none => s
  | some k =>
    if k.suspect then s else
    (s.onChan ch fun k => { k with suspect := true }).postLaunch k.launch
      (event [(0, 2, 0x0202), (2, 1, cause.toNat), (4, 2, ch.toNat), (8, 8, s.cycle.toNat), (16, 8, k.written.toNat)])
/-- Every channel that an end's loss concerns. -/
def State.suspectAll (s : State) (t : Chan → Bool) : State :=
  (List.range 64).foldl (fun s i => ((s.tileAt i).chans.filter t).foldl (fun s k => s.suspect k.idx 0) s) s
/-- An end of a channel belongs to a context of a core. -/
def Chan.endOf (k : Chan) (c : Nat) (id : Half) : Bool := (k.prodCtx = id && k.producer = coord c) || (k.consCtx = id && k.consumer = coord c)
/-- The context of a core that held a channel's ends is gone (R146, R152): its bindings with it, and its channels are suspect. -/
def State.endsLost (s : State) (c : Nat) (id : Half) : State :=
  let s := s.suspectAll fun k => k.endOf c id
  { s with tiles := s.tiles.map fun t => { t with chans := t.chans.map fun k =>
      { k with prodBound := k.prodBound && !(k.prodCtx = id && k.producer = coord c),
               consBound := k.consBound && !(k.consCtx = id && k.consumer = coord c) } } }
/-- The home tile of a territory (R258). -/
def State.homeOf (s : State) (ter : BitVec 6) : Option Nat :=
  (List.range 64).find? fun t => (s.tileAt t).home && (s.tileAt t).ter == ter
/-- The records of a core that name a context go with it: handler entries, mask bits, ready, waiting and parked firings, matrix
commands, copies not yet sent (a sent one goes on for no context, R170), lines of its image in the configuration cache (R110, R177, R187, R201, R267). -/
def Core.forget (k : Core) (x : Ctx) : Core :=
  let own (c : BitVec 5) : Bool := (look k.handlers c).any fun h => h.ctx = x.id
  let gone := k.handlers.filter fun e => e.2.ctx = x.id
  { k with
    handlers := k.handlers.filter fun e => e.2.ctx ≠ x.id
    clsmsk := gone.foldl (fun m e => m &&& ~~~ ((1 : Word) <<< e.1.toNat)) k.clsmsk
    runq := k.runq.filter fun r => match r with
      | .fresh r => !own r.cls
      | .parked key _ _ _ => !(k.parks.any fun p => p.key = key && p.slot = x.slot)
    waiting := k.waiting.filter fun w => match w with
      | .event r => !own r.cls
      | .actor c => !own c
      | .park key => !(k.parks.any fun p => p.key = key && p.slot = x.slot)
    parks := k.parks.filter fun p => p.slot ≠ x.slot
    cache := k.cache.filter fun l => l.1 ≠ x.id
    mq := k.mq.filter fun m => m.ctx ≠ x.id
    entering := k.entering.filter fun m => m.ctx ≠ x.id
    copies := (k.copies.filter fun t => t.ctx ≠ x.id || t.sent).map fun t => if t.ctx = x.id then { t with ctx := 0 } else t }
/-- An answer on its way to the firing that runs on core `c`. -/
def answersCore (c : Nat) : Ev → Bool
  | .atomicReturn d _ _ | .nestClaimReturn d _ _ _ _ | .translatedLoadReturn d | .answer d _ _ => d == c
  | _ => false
/-- The stubs of a context of a territory are lost (R255). -/
def State.stripStubs (s : State) (ter : BitVec 6) (id : Half) : State :=
  let strip (c : Nat) (k : Core) : Core := if (s.tileAt (tileOf c)).ter = ter then { k with stubs := k.stubs.filter fun b => b.ctx ≠ id } else k
  { s with core := strip s.cur s.core, others := s.others.map fun e => (e.1, strip e.1 e.2) }
/-- Remove a resident context from a core (R255, R267): what names it on its core goes, its channels become suspect, its directory
record and stubs are lost. A firing of it that runs there is over. (DEDUCED, log 46.) -/
def State.removeCtx (s : State) (c : Nat) (id : Half) : State :=
  match (s.coreAt c).byId id with
  | none => s
  | some x =>
    let running := (s.coreAt c).resident && (s.coreAt c).ctx.id == id
    let s := s.drain c
    let s := s.onCore c fun k =>
      let k := k.forget x
      if running then
        { k with resident := false, last := false, fir := { Firing.zero with serial := k.fir.serial }, under := none, status := .idle, load := none }
      else { k with others := k.others.filter fun y => y.id ≠ id }
    let s := if running then s.onTile (tileOf c) fun t =>
        { t with reqs := t.reqs.filter fun r => r.1 ≠ localOf c, solo := t.solo.filter (· ≠ localOf c), granted := t.granted.filter (· ≠ localOf c) }
      else s
    let s := s.endsLost c id
    let s := s.onTile (tileOf c) fun t => if t.steward = some (id, c) then { t with steward := none } else t
    let s := match s.homeOf (s.tileAt (tileOf c)).ter with
      | none => s
      | some h => s.onTile h fun t => { t with dir := del t.dir id }
    { s.stripStubs (s.tileAt (tileOf c)).ter id with agenda := if running then s.agenda.filter (fun e => !answersCore c e) else s.agenda }

/-! ## Taking a trap and returning from it (R265–R269) -/

/-- R267: the running context is killed and event 0x0102 is posted to its launch. -/
def State.kill (s : State) (code : Byte) : State :=
  let ev := event [(0, 2, 0x0102), (2, 2, s.ctx.id.toNat), (4, 4, (coord s.cur).toNat),
    (8, 1, if s.prog.tvec &&& 0xFFFFFC = 0 ∧ ¬ s.fir.inTrap then 0 else (s.trapRegs.cause &&& 0xFF).toNat), (9, 1, code.toNat),
    (12, 4, s.prog.tepc.toNat), (16, 4, s.pc.toNat), (24, 8, s.cycle.toNat)]
  (s.removeCtx s.cur s.ctx.id).postLaunch s.ctx.launch ev
/-- R265, at a boundary with the chunk already committed: the context is killed when a handler is running or there is none;
otherwise the cause is saved, TEPC takes the 24 bits of the pc (R5, R263), the trap bank replaces s56–s63, and the pc goes to the handler. An expiry that another
cause comes before stays latched until tret (R266). -/
def State.enterTrap (s : State) (code : Byte) (lo hi : Word) (deferred : Bool) : State :=
  if s.fir.inTrap ∨ s.prog.tvec &&& 0xFFFFFC = 0 then s.kill code else
  let f := s.fir
  let spent := f.timeout || decide (s.prog.wdog.toNat ≤ f.wdcnt)
  let s := s.setTrapRegs ⟨(if deferred then 0x100 else 0) ||| code.setWidth 32, lo, hi⟩
  let s := s.setProg { s.prog with tepc := f.regs.pc &&& 0xFFFFFF }
  let bank := Vector.ofFn fun i : Fin 8 => f.regs.s[56 + i.val]
  let s := s.setFir { f with
    inTrap := true, saved := bank, wdcnt := 0, timeout := false, late := f.late || (code ≠ 0x09 && spent), chunk := .fresh
    window := if code = 0x10 then false else f.window
    regs := { f.regs with s := Vector.ofFn fun i : Fin 64 => if i.val < 56 then f.regs.s[i.val] else 0, pc := s.prog.tvec &&& 0xFFFFFC } }
  s.setStatus .running
/-- A precise trap at the instruction at pc: at once when the chunk is empty, otherwise after the chunk's commit (R55, R265). -/
def State.trap (s : State) (code : Byte) (lo hi : Word) : State :=
  if s.chunkEmpty then s.enterTrap code lo hi false else s.endChunk (.trap code lo hi false)
/-- A trap whose TVALL and TVALH hold an address. -/
def State.trapAt (s : State) (code : Byte) (ea : DWord) : State := s.trap code (lo32 ea) (hi32 ea)
/-- R269, with the handler's chunk committed: the trap bank is discarded and s56–s63 read as before entry; control goes to `pc`. -/
def State.leaveTrap (s : State) (pc : Word) : State :=
  s.setFir { s.fir with
    inTrap := false, timeout := s.fir.timeout || s.fir.late, late := false
    regs := { s.regs with s := Vector.ofFn fun i : Fin 64 => if h : i.val < 56 then s.regs.s[i.val] else s.fir.saved[i.val - 56], pc := pc } }

/-! ## Waits (R26, R31, R151) -/

/-- The instruction at pc must end its chunk before itself: when instructions of the chunk have executed, the commit comes first
and the instruction is met again at the head of a new chunk. -/
def State.blocking (s : State) (k : State → State) : State := if s.chunkEmpty then k s else s.endChunk .run
/-- The instruction at pc waits, holding the core; its chunk ends before it. (DEDUCED, log 26.) -/
def State.waitOn (s : State) (w : WaitFor) : State := if s.chunkEmpty then s.setStatus (.waiting w) else s.endChunk (.wait w)
/-- Park the firing (R151): into a free park record, or holding the core until one frees, as the wait `w` of the thaw unit's; an open window, in a
handler too (R265), traps PRIWIN (R184). -/
def State.parkAs (s : State) (q : QReg) (push : Bool) (w : ThawWait) : State :=
  if s.fir.window then s.enterTrap 0x10 0 0 false
  else
    if s.core.parks.length ≥ 8 then s.setStatus (.waiting (.parkRoom q push w)) else
    let k := s.core
    { s with core := { k with
        parks := k.parks ++ [⟨w.key, k.ctx.slot, q, push, false, w, { k.fir with chunk := .fresh }⟩]
        status := (match k.under with | some _ => .running | none => .idle)
        fir := k.under.getD { Firing.zero with serial := k.fir.serial }
        under := none } }
/-- A new wait parks. -/
def State.parkNow (s : State) (q : QReg) (push : Bool) : State := s.parkAs q push ⟨s.tick + 1, s.cycle, none, []⟩
/-- The instruction at pc parks; its chunk ends before it. -/
def State.parkOn (s : State) (q : QReg) (push : Bool) : State := if s.chunkEmpty then s.parkNow q push else s.endChunk (.park q push)

/-! ## Addresses (R22, R23) -/

/-- Where an address lies. -/
inductive Place
  | own (off : Nat)
  | glob (core off : Nat)
  | trans
  | nowhere
deriving DecidableEq, Repr

/-- R22's windows. -/
def place (ea : Nat) : Place :=
  if ea < 0x18000 then .own ea
  else if 0x100000000 ≤ ea ∧ ea < 0x100000000 + 2 ^ 30 then
    let o := ea % 2 ^ 17
    if o < 0x18000 then .glob (128 * ((ea - 0x100000000) / 2 ^ 24) + (ea / 2 ^ 17) % 128) o else .nowhere
  else if inTrans ea then .trans
  else .nowhere
/-- The global alias of a scratchpad byte. -/
def globalEA (c off : Nat) : Nat := 0x100000000 + cy c * 2 ^ 24 + cx c * 2 ^ 17 + off
/-- Bytes lie inside the running context's allocation. -/
def Ctx.covers (x : Ctx) (off n : Nat) : Bool := decide (x.base ≤ off ∧ off + n ≤ x.base + x.size)
/-- A byte of the range is in a protected allocation of a context other than `id`. -/
def State.foreign (s : State) (c off n : Nat) (id : Half) : Bool :=
  (s.coreAt c).ctxs.any fun x => x.prot && x.id != id && decide (off < x.base + x.size ∧ x.base < off + n)
/-- R23: the first trap of a direct access, if any, or the place of a translated one. A core that is fenced off is ACCESS (R137), behind FARSP
(DESIGN CHOICE, log 68). -/
def State.check (s : State) (ea : DWord) (size : Nat) (write : Bool) : Option Byte :=
  if ea.toNat % size ≠ 0 then some 0x02 else
  match place ea.toNat with
  | .nowhere => some 0x03
  | .own off => if s.ctx.covers off size then none else some 0x03
  | .glob c off =>
    if tileOf c ≠ s.tile then some 0x04
    else if (s.coreAt c).fenced then some 0x03
    else if s.foreign c off size s.ctx.id then some 0x06 else none
  | .trans =>
    match s.xlate s.ctx.vdev ea.toNat write with
    | .error e => some e
    | .ok _ => none

/-! ## Signatures (R228) -/

/-- The two bits of the word at a global-alias address. -/
def sigWord (ea : Nat) : Vec :=
  let u := (ea - 0x100000000) / 8
  let h0 := (u % 256) ^^^ (u / 256 % 256) ^^^ (u / 65536 % 256)
  let h1 := (u / 64 % 256) ^^^ (u % 64 * 4 % 256) ^^^ (u / 16384 % 256)
  ((1 : Vec) <<< h0) ||| ((1 : Vec) <<< (256 + h1))
/-- The signature of the words of a range. -/
def sigRange (ea n : Nat) : Vec :=
  if n = 0 then 0 else
  (List.range ((ea + n - 1) / 8 - ea / 8 + 1)).foldl (fun a i => a ||| sigWord (8 * (ea / 8 + i))) 0
/-- Two signatures meet. -/
def meets (a b : Vec) : Bool :=
  ((a &&& b).extractLsb' 0 256 != 0) && ((a &&& b).extractLsb' 256 256 != 0)
/-- A global-alias address; others are in no signature. -/
def isGlob (ea : Nat) : Bool := match place ea with
  | .glob _ _ => true
  | _ => false
def State.noteRead (s : State) (ea n : Nat) : State :=
  if isGlob ea then s.setChunk { s.chunk with rsig := s.chunk.rsig ||| sigRange ea n } else s
def State.noteWrite (s : State) (ea n : Nat) : State :=
  if isGlob ea then s.setChunk { s.chunk with wsig := s.chunk.wsig ||| sigRange ea n } else s
/-- A commit granted and not complete, of a core or of an agent, whose write signature meets these words: a load of them waits (R230). -/
def State.busy (s : State) (ea n : Nat) : Bool :=
  let t := s.tileAt s.tile
  isGlob ea && ((t.granted.any fun l => meets (s.coreAt (coreOf s.tile l)).fir.chunk.wsig (sigRange ea n))
    || t.asks.any fun a => a.won && meets a.wsig (sigRange ea n))
/-- The counts of two ERRCNT words added, each stopping at all ones (R138). -/
def errSum (a b : Word) : Word :=
  let f (i w : Nat) : Nat := min (2 ^ w - 1) ((a.extractLsb' i w).toNat + (b.extractLsb' i w).toNat)
  BitVec.ofNat 32 (f 0 16 + 2 ^ 16 * f 16 8 + 2 ^ 24 * f 24 8)
/-- Undo an open chunk and start it again (R230, R232): registers, what its instructions wrote, its held effects and signatures. -/
def Core.squash (k : Core) : Core :=
  let n := k.fir.chunk.squashes + 1
  let k := match k.fir.chunk.snap with
    | none => k
    | some p =>
      { k with fir := { k.fir with regs := p.regs, inTrap := p.inTrap, saved := p.saved, window := p.window, wcount := p.wcount },
               ctx := { k.ctx with prog := p.prog } }
  { k with errcnt := errSum k.errcnt k.fir.chunk.erased, fir := { k.fir with chunk := { Chunk.fresh with squashes := n } }, status := if n ≥ 3 then .solo else .running, load := none }
/-- A chunk is in flight from its first instruction until its grant (R230). -/
def Core.inFlight (k : Core) : Bool :=
  (k.fir.chunk.count != 0 || k.load.isSome) && (match k.status with
    | .running | .ending _ | .answer .load | .fetch => true
    | _ => false)
/-- The channels whose spill the held pushes of a core's open chunk have reserved slots of (R149). -/
def Core.spills (k : Core) : List (BitVec 15) := (k.fir.chunk.held.filterMap fun h => match h with
  | .push c true _ _ _ => some c
  | _ => none).dedup
/-- Squash the chunks of a tile that a granted write signature meets, but for one core's (R230). Their spill reservations are given back, which may make
actors ready (R149, R180). -/
def State.squashMeeting (s : State) (t : Nat) (w : Vec) (except : Option Nat) : State :=
  (tileCores t).foldl (fun s c =>
    let k := s.coreAt c
    if some c ≠ except && k.inFlight && !k.fir.chunk.solo && (meets k.fir.chunk.rsig w || meets k.fir.chunk.wsig w) then
      let s := k.spills.foldl State.touch (s.onCore c Core.squash)
      let s := { s with agenda := s.agenda.filter fun e => e ≠ Ev.translatedLoadReturn c }
      s.onTile t fun a => { a with reqs := a.reqs.filter fun r => r.1 ≠ localOf c,
                                   solo := if (s.coreAt c).status = .solo ∧ ¬ a.solo.contains (localOf c) then a.solo ++ [localOf c] else a.solo }
    else s) s
/-- The active solo chunk keeps a request of this write signature waiting (R232). -/
def State.soloBlocks (s : State) (t : Nat) (w : Vec) : Bool :=
  match (s.tileAt t).solo with
  | [] => false
  | l :: _ => let k := (s.coreAt (coreOf t l)).fir.chunk; k.solo && (meets k.rsig w || meets k.wsig w)

/-! ## Agents in a scratchpad (R227, R229) -/

/-- A single-write chunk or step of an agent in the tile of core `c`, which the arbiter has granted (R227, R229), squashes what its write signature meets
(R230). (DEDUCED, log 47.) -/
def State.agentGrant (s : State) (c : Nat) (w : Vec) : State := s.squashMeeting (tileOf c) w none
/-- A single-write chunk of an agent is performed (R227). -/
def State.agentWrite (s : State) (c off : Nat) (bs : List Byte) (ctx : Half) : State :=
  (s.agentGrant c (sigRange (globalEA c off) bs.length)).extWrite c off bs ctx
/-- The core and offset a scratchpad address names, seen from a core. -/
def scrPlace (me ea : Nat) : Option (Nat × Nat) :=
  match place ea with
  | .own o => some (me, o)
  | .glob c o => some (c, o)
  | _ => none

/-! ## Loads and stores inside a chunk (R79) -/

/-- The byte that the last held store of the chunk to exactly this address gives. -/
def forward (held : List Held) (ea : Nat) : Option Byte :=
  held.foldl (fun r h => match h with
    | .store a _ bs _ _ => if a.toNat ≤ ea ∧ ea < a.toNat + bs.length then some (bs.getD (ea - a.toNat) 0) else r
    | _ => r) none
/-- Bytes from memory with the chunk's held stores over them. -/
def overlay (held : List Held) (ea : Nat) (bs : List Byte) : List Byte :=
  (List.range bs.length).map fun i => (forward held (ea + i)).getD (bs.getD i 0)
/-- Hold a store (R26): one buffer entry for a scalar, eight for a vector; `rows` marks a vst's (R127). -/
def State.holdStore (s : State) (rows : Bool) (ea : DWord) (bs : List Byte) : State :=
  let key := if inTrans ea.toNat then (s.xlate s.ctx.vdev ea.toNat true).toOption else none
  (s.hold (.store ea key bs rows s.pc)).noteWrite ea.toNat bs.length

end Sys2Proof.Machine
end

