-- ==== Sys2Proof/Machine/Operands.lean ====
section
/-! DEFINITION. Operand forms: effective addresses and predicates (R22, R78), lanes and masks (R111, R112), draws of stochastic
rounding per lane (R88). -/

namespace Sys2Proof.Machine

/-- EA := dN + SignExtend(off24), modulo 2^64 (R22). -/
def State.ea (s : State) (base : Pair) (off : BitVec 24) : DWord := s.d base + sxd off
/-- Whether a predicated access executes (R78). -/
def State.pred (s : State) (p : Option Pred) : Bool :=
  match p with
  | none => true
  | some p => if p.sense then s.s p.reg == 0 else s.s p.reg != 0
/-- Lane width in bits (R111). -/
def tyWidth : VTy → Nat
  | .i8 => 8
  | .bf16 | .f16 | .i16 => 16
  | .f64 => 64
  | _ => 32
/-- Lanes of a register (R111). -/
def tyLanes (t : VTy) : Nat := 512 / tyWidth t
/-- Lane `i` of width `w`. -/
def lane (v : Vec) (w i : Nat) : Nat := v.toNat / 2 ^ (w * i) % 2 ^ w
/-- A register from its lanes, lane 0 first. -/
def packLanes (w : Nat) (ls : List Nat) : Vec := BitVec.ofNat 512 (ls.foldr (fun l a => l % 2 ^ w + 2 ^ w * a) 0)
/-- A lane read as a signed number. -/
def sgn (w x : Nat) : Int := if x < 2 ^ (w - 1) then x else (x : Int) - 2 ^ w
/-- An integer modulo 2^w. -/
def wrap (w : Nat) (x : Int) : Nat := (x % 2 ^ w).toNat
/-- A lane of an integer type (R111): signed, unsigned for N32. -/
def intLane (t : VTy) (x : Nat) : Int := if t = .n32 then x else sgn (tyWidth t) x
/-- Least and greatest integers of a type. -/
def minInt (t : VTy) : Int := if t = .n32 then 0 else -(2 ^ (tyWidth t - 1) : Nat)
def maxInt (t : VTy) : Int := if t = .n32 then 2 ^ 32 - 1 else (2 ^ (tyWidth t - 1) : Nat) - 1
/-- The running context's rounding mode (R94). -/
def State.mode (s : State) : Mode := Mode.ofCode s.prog.frm
/-- Numbers of the active lanes' draws: how many active lanes come before lane `i`. -/
def activeBefore (m : DWord) (i : Nat) : Nat := ((List.range i).filter fun j => m.getLsbD j).length
/-- The draw of the `k`-th rounding from a starting state (R87, R88). -/
def drawAt (seed : Word) (k : Nat) : Nat := draw16 (stepsSeed (k + 1) seed)
/-- Move SEED past `n` draws when the mode is stochastic (R88). (DEDUCED, log 44.) -/
def State.drawn (s : State) (mode : Mode) (n : Nat) : State :=
  if mode = .sr then s.setProg { s.prog with seed := stepsSeed n s.prog.seed } else s
/-- Write the active lanes of vd; an inactive lane keeps its value (R112). -/
def mergeLanes (old : Vec) (w n : Nat) (m : DWord) (f : Nat → Nat) : Vec :=
  packLanes w ((List.range n).map fun i => if m.getLsbD i then f i else lane old w i)
/-- A form that rounds each active lane with a draw of its own: result lanes and flags by lane and draw (R87, R88, R112, R116). -/
def State.vround (s : State) (vd : Reg) (m : MReg) (w n : Nat) (draws : Nat) (f : Nat → Nat → Nat × Flags) : State :=
  let mk := s.m m
  let r := fun i => f i (drawAt s.prog.seed (activeBefore mk i))
  let fl := (List.range n).foldl (fun (a : Flags) i => if mk.getLsbD i then a ||| (r i).2 else a) 0
  ((s.setV vd (mergeLanes (s.v vd) w n mk fun i => (r i).1)).flag fl).drawn s.mode draws
/-- A form whose lanes round nothing (R112, R122). -/
def State.vmap (s : State) (vd : Reg) (m : MReg) (w n : Nat) (f : Nat → Nat) : State :=
  s.setV vd (mergeLanes (s.v vd) w n (s.m m) f)
/-- Active lanes among the first `n`. -/
def State.active (s : State) (m : MReg) (n : Nat) : Nat := activeBefore (s.m m) n
/-- The value of a lane of a floating type. -/
def fpLane (t : VTy) (v : Vec) (i : Nat) : FVal := (tyFmt t).value (lane v (tyWidth t) i)

end Sys2Proof.Machine
end

