-- ==== Sys2Proof/Machine/Int.lean ====
section
/-! DEFINITION. The INT group (R58–R60). -/

namespace Sys2Proof.Machine

/-- What a meaning answers. -/
abbrev Res := Host.Outcome State Fault Refusal

/-- A one-word instruction that writes a scalar: sources first, then the destination (R57). -/
def State.giveS (s : State) (rd : Reg) (v : Word) : Res := .next ((s.setS rd v).retire 1)
/-- A one-word instruction that writes a pair. -/
def State.giveD (s : State) (rd : Pair) (v : DWord) : Res := .next ((s.setD rd v).retire 1)

/-- Leading zero bits (R58): 32 for zero. -/
def clz32 (a : Word) : Nat := if a = 0 then 32 else 31 - a.toNat.log2
/-- The number of bits set among the first `n`. -/
def popN {w : Nat} (a : BitVec w) (n : Nat) : Nat := ((List.range n).filter fun i => a.getLsbD i).length
/-- Trailing zero bits (R58): 32 for zero. -/
def ctz32 (a : Word) : Nat := ((List.range 32).find? fun i => a.getLsbD i).getD 32
/-- Bit i moved to bit 31 − i. -/
def brev32 (a : Word) : Word := BitVec.ofNat 32 ((List.range 32).foldl (fun r i => 2 * r + (if a.getLsbD i then 1 else 0)) 0)
/-- div (R59). -/
def divS (a b : Word) : Word := if b = 0 then 0xFFFFFFFF else BitVec.ofInt 32 (a.toInt.tdiv b.toInt)
/-- rem (R59). -/
def remS (a b : Word) : Word := if b = 0 then a else BitVec.ofInt 32 (a.toInt.tmod b.toInt)
/-- divn (R59). -/
def divU (a b : Word) : Word := if b = 0 then 0xFFFFFFFF else BitVec.ofNat 32 (a.toNat / b.toNat)
/-- remn (R59). -/
def remU (a b : Word) : Word := if b = 0 then a else BitVec.ofNat 32 (a.toNat % b.toNat)
/-- Width and position of a field (R60). -/
def fieldW (b : Word) : Nat := min (b.extractLsb' 8 6).toNat 32
def fieldP (b : Word) : Nat := (b.extractLsb' 0 5).toNat
/-- bfx (R60). -/
def bfx32 (a b : Word) : Word := BitVec.ofNat 32 (a.toNat / 2 ^ fieldP b % 2 ^ fieldW b)
/-- bfi (R60): bits that would land above bit 31 are dropped. -/
def bfi32 (d a b : Word) : Word :=
  let m : Word := BitVec.ofNat 32 ((2 ^ fieldW b - 1) * 2 ^ fieldP b)
  (d &&& ~~~m) ||| (BitVec.ofNat 32 (a.toNat % 2 ^ fieldW b * 2 ^ fieldP b))

/-- R58: add. -/
def execAdd (rd ra rb : Reg) (s : State) : Res :=
  let a := s.s ra
  let b := s.s rb
  s.giveS rd (a + b)
/-- R58: sub. -/
def execSub (rd ra rb : Reg) (s : State) : Res :=
  let a := s.s ra
  let b := s.s rb
  s.giveS rd (a - b)
/-- R58: and. -/
def execAnd (rd ra rb : Reg) (s : State) : Res :=
  let a := s.s ra
  let b := s.s rb
  s.giveS rd (a &&& b)
/-- R58: or. -/
def execOr (rd ra rb : Reg) (s : State) : Res :=
  let a := s.s ra
  let b := s.s rb
  s.giveS rd (a ||| b)
/-- R58: xor. -/
def execXor (rd ra rb : Reg) (s : State) : Res :=
  let a := s.s ra
  let b := s.s rb
  s.giveS rd (a ^^^ b)
/-- R58: andn. -/
def execAndn (rd ra rb : Reg) (s : State) : Res :=
  let a := s.s ra
  let b := s.s rb
  s.giveS rd (a &&& ~~~b)
/-- R58: shl. -/
def execShl (rd ra rb : Reg) (s : State) : Res :=
  let a := s.s ra
  let b := s.s rb
  s.giveS rd (a <<< (b.toNat % 32))
/-- R58: shr. -/
def execShr (rd ra rb : Reg) (s : State) : Res :=
  let a := s.s ra
  let b := s.s rb
  s.giveS rd (a >>> (b.toNat % 32))
/-- R58: sra. -/
def execSra (rd ra rb : Reg) (s : State) : Res :=
  let a := s.s ra
  let b := s.s rb
  s.giveS rd (a.sshiftRight (b.toNat % 32))
/-- R58: ror. -/
def execRor (rd ra rb : Reg) (s : State) : Res :=
  let a := s.s ra
  let b := s.s rb
  s.giveS rd (a.rotateRight (b.toNat % 32))
/-- R58: min. -/
def execMin (rd ra rb : Reg) (s : State) : Res :=
  let a := s.s ra
  let b := s.s rb
  s.giveS rd (if a.slt b then a else b)
/-- R58: max. -/
def execMax (rd ra rb : Reg) (s : State) : Res :=
  let a := s.s ra
  let b := s.s rb
  s.giveS rd (if a.slt b then b else a)
/-- R58: minn. -/
def execMinn (rd ra rb : Reg) (s : State) : Res :=
  let a := s.s ra
  let b := s.s rb
  s.giveS rd (if a.ult b then a else b)
/-- R58: maxn. -/
def execMaxn (rd ra rb : Reg) (s : State) : Res :=
  let a := s.s ra
  let b := s.s rb
  s.giveS rd (if a.ult b then b else a)
/-- R58: slt. -/
def execSlt (rd ra rb : Reg) (s : State) : Res :=
  let a := s.s ra
  let b := s.s rb
  s.giveS rd (bit (a.slt b))
/-- R58: sltn. -/
def execSltn (rd ra rb : Reg) (s : State) : Res :=
  let a := s.s ra
  let b := s.s rb
  s.giveS rd (bit (a.ult b))
/-- R58: seq. -/
def execSeq (rd ra rb : Reg) (s : State) : Res :=
  let a := s.s ra
  let b := s.s rb
  s.giveS rd (bit (a == b))
/-- R58: sne. -/
def execSne (rd ra rb : Reg) (s : State) : Res :=
  let a := s.s ra
  let b := s.s rb
  s.giveS rd (bit (a != b))
/-- R58: mul. -/
def execMul (rd ra rb : Reg) (s : State) : Res :=
  let a := s.s ra
  let b := s.s rb
  s.giveS rd (a * b)
/-- R58: mulh. -/
def execMulh (rd ra rb : Reg) (s : State) : Res :=
  let a := s.s ra
  let b := s.s rb
  s.giveS rd (hi32 (sxd a * sxd b))
/-- R58: mulhn. -/
def execMulhn (rd ra rb : Reg) (s : State) : Res :=
  let a := s.s ra
  let b := s.s rb
  s.giveS rd (hi32 (a.setWidth 64 * b.setWidth 64))
/-- R58: div. -/
def execDiv (rd ra rb : Reg) (s : State) : Res :=
  let a := s.s ra
  let b := s.s rb
  s.giveS rd (divS a b)
/-- R58: divn. -/
def execDivn (rd ra rb : Reg) (s : State) : Res :=
  let a := s.s ra
  let b := s.s rb
  s.giveS rd (divU a b)
/-- R58: rem. -/
def execRem (rd ra rb : Reg) (s : State) : Res :=
  let a := s.s ra
  let b := s.s rb
  s.giveS rd (remS a b)
/-- R58: remn. -/
def execRemn (rd ra rb : Reg) (s : State) : Res :=
  let a := s.s ra
  let b := s.s rb
  s.giveS rd (remU a b)
/-- R58: bfx. -/
def execBfx (rd ra rb : Reg) (s : State) : Res :=
  let a := s.s ra
  let b := s.s rb
  s.giveS rd (bfx32 a b)
/-- R60: bfi; rd is also the value the field is put into. -/
def execBfi (rd ra rb : Reg) (s : State) : Res := s.giveS rd (bfi32 (s.s rd) (s.s ra) (s.s rb))
/-- R58: clz. -/
def execClz (rd ra : Reg) (s : State) : Res :=
  let a := s.s ra
  s.giveS rd (BitVec.ofNat 32 (clz32 a))
/-- R58: ctz. -/
def execCtz (rd ra : Reg) (s : State) : Res :=
  let a := s.s ra
  s.giveS rd (BitVec.ofNat 32 (ctz32 a))
/-- R58: popc. -/
def execPopc (rd ra : Reg) (s : State) : Res :=
  let a := s.s ra
  s.giveS rd (BitVec.ofNat 32 (popN a 32))
/-- R58: brev. -/
def execBrev (rd ra : Reg) (s : State) : Res :=
  let a := s.s ra
  s.giveS rd (brev32 a)
/-- R58: sextb. -/
def execSextb (rd ra : Reg) (s : State) : Res :=
  let a := s.s ra
  s.giveS rd (sx (a.setWidth 8))
/-- R58: sexth. -/
def execSexth (rd ra : Reg) (s : State) : Res :=
  let a := s.s ra
  s.giveS rd (sx (a.setWidth 16))
/-- R58: zextb. -/
def execZextb (rd ra : Reg) (s : State) : Res :=
  let a := s.s ra
  s.giveS rd ((a.setWidth 8).setWidth 32)
/-- R58: zexth. -/
def execZexth (rd ra : Reg) (s : State) : Res :=
  let a := s.s ra
  s.giveS rd ((a.setWidth 16).setWidth 32)

end Sys2Proof.Machine
end

