-- ==== Sys2Proof/Machine/Branch.lean ====
section
/-! DEFINITION. Branches and jumps (R66, R67), hardware loops (R68–R71) and the iteration fetcher (R73–R75). -/

namespace Sys2Proof.Machine

/-- Bytes of the running context's code image. -/
def State.codeLen (s : State) : Nat := s.ctx.code.length
/-- A byte offset of the code image lies inside it. -/
def State.inCode (s : State) (pc : Word) : Bool := decide (pc.toNat < s.codeLen)
/-- Transfer to a target inside the image; outside it traps ACCESS at the transferring instruction (R56). -/
def State.transfer (s : State) (target : Word) (closes : Bool) (f : State → State) : Res :=
  if s.inCode target then .next ((f s).retireTo target closes) else .next (s.trap 0x03 target 0)
/-- A conditional branch (R66). -/
def State.branch (s : State) (taken : Bool) (off : Word) : Res :=
  if taken then s.transfer (s.pc + (off <<< 2)) true id else .next (s.retire 1)

/-- R66: beq. -/
def execBeq (ra rb : Reg) (off : BitVec 14) (s : State) : Res :=
  let a := s.s ra
  let b := s.s rb
  s.branch (a == b) (sx off)
/-- R66: bne. -/
def execBne (ra rb : Reg) (off : BitVec 14) (s : State) : Res :=
  let a := s.s ra
  let b := s.s rb
  s.branch (a != b) (sx off)
/-- R66: blt. -/
def execBlt (ra rb : Reg) (off : BitVec 14) (s : State) : Res :=
  let a := s.s ra
  let b := s.s rb
  s.branch (a.slt b) (sx off)
/-- R66: bge. -/
def execBge (ra rb : Reg) (off : BitVec 14) (s : State) : Res :=
  let a := s.s ra
  let b := s.s rb
  s.branch (!(a.slt b)) (sx off)
/-- R66: bltn. -/
def execBltn (ra rb : Reg) (off : BitVec 14) (s : State) : Res :=
  let a := s.s ra
  let b := s.s rb
  s.branch (a.ult b) (sx off)
/-- R66: bgen. -/
def execBgen (ra rb : Reg) (off : BitVec 14) (s : State) : Res :=
  let a := s.s ra
  let b := s.s rb
  s.branch (!(a.ult b)) (sx off)
/-- R66: bz. -/
def execBz (ra : Reg) (off : BitVec 20) (s : State) : Res := s.branch (s.s ra == 0) (sx off)
/-- R66: bnz. -/
def execBnz (ra : Reg) (off : BitVec 20) (s : State) : Res := s.branch (s.s ra != 0) (sx off)
/-- R67: j. -/
def execJ (off : BitVec 26) (s : State) : Res := s.transfer (s.pc + (sx off <<< 2)) true id
/-- R67: jal links to s63; it closes no loop level (R70). -/
def execJal (off : BitVec 26) (s : State) : Res := s.transfer (s.pc + (sx off <<< 2)) false fun s => s.setS 63 (s.pc + 4)
/-- R67: jr; a target that is no multiple of 4 traps ALIGN (R56), one that lies outside the image too (DESIGN CHOICE, log 60). -/
def execJr (ra : Reg) (s : State) : Res :=
  let t := s.s ra
  if t &&& 3 ≠ 0 then .next (s.trap 0x02 t 0) else s.transfer t true id
/-- R67: jalr takes its traps as jr does (DESIGN CHOICE, log 60), reads its target before it writes the link; it closes no loop level (R70). -/
def execJalr (rd ra : Reg) (s : State) : Res :=
  let t := s.s ra
  if t &&& 3 ≠ 0 then .next (s.trap 0x02 t 0) else s.transfer t false fun s => s.setS rd (s.pc + 4)

/-- The code word at a byte offset of a context's image. -/
def Ctx.codeWord (x : Ctx) (pc : Nat) : Option Word :=
  (wordsOfBytes ((x.code.drop pc).take 4)).head?
/-- The same for the running context. -/
def State.codeWord (s : State) (pc : Nat) : Option Word := s.ctx.codeWord pc
/-- The byte after `n` instructions from a byte offset; none when they do not lie wholly inside the image (R68). -/
def State.bodyEnd (s : State) : Nat → Nat → Option Nat
  | 0, pc => some pc
  | n + 1, pc =>
    match s.codeWord pc with
    | none => none
    | some w => let pc' := pc + 4 * wordsOf w; if pc' ≤ s.codeLen then s.bodyEnd n pc' else none
/-- The trip count (R69), exact. -/
def tripCount (st bd sp : Int) : Nat :=
  if 0 < sp then ((bd - st + sp - 1) / sp).toNat else ((st - bd + (-sp) - 1) / (-sp)).toNat
/-- R68–R71: loop. A body that leaves the image traps ACCESS before the nesting is looked at (DESIGN CHOICE, log 60); a loop of no trips goes to the
byte after its body, which lies inside the image or traps ACCESS (R56); where that is the end of level 0's body too, no iteration of level 0 ends, for the
loop is not the last instruction of that body (DESIGN CHOICE, log 76). One that meets level 0 closed opens level 0, whatever level 1 is: jal can leave
level 1 open (DESIGN CHOICE, log 68). Its body's lines are in the cache (R187, `Ctx.linesAt`). -/
def execLoop (rd ra rb : Reg) (fn : Byte) (s : State) : Res :=
  let r := s.regs
  let word := (s.codeWord s.pc.toNat).getD ((0x1B : BitVec 6) ++ rd ++ ra ++ rb ++ fn)
  let sp := s.s rb
  if sp = 0 then .next (s.trap 0x01 word 0) else
  match s.bodyEnd (fn.toNat + 1) (s.pc.toNat + 4) with
  | none => .next (s.trap 0x03 (BitVec.ofNat 32 s.codeLen) 0)
  | some e =>
    let stop := BitVec.ofNat 32 e
    if r.l0.on ∧ (r.l1.on ∨ r.l0.stop.toNat < e) then .next (s.trap 0x0F word 0) else
    let t := tripCount (s.s rd).toInt (s.s ra).toInt sp.toInt
    if t = 0 then (if s.inCode stop then .next (((s.setRegs { r with pc := stop }).counted).full) else .next (s.trap 0x03 stop 0))
    else
      let l : Level := ⟨BitVec.ofNat 32 t, s.pc + 4, stop, rd, sp, true⟩
      .next (((s.setRegs { (if r.l0.on then { r with l1 := l } else { r with l0 := l }) with pc := s.pc + 4 }).counted).full)

/-- R74's checks of a descriptor's address. It traps PERM when any of the descriptor's 24 bytes lies in a protected allocation of another context, where
the rule speaks of EA. (DESIGN CHOICE, log 68.) -/
def State.claimFault (s : State) (ea : Nat) : Option Byte :=
  if ea % 8 ≠ 0 then some 0x02 else
  match place ea with
  | .own off => if s.ctx.covers off 24 then none else some 0x03
  | .glob c off =>
    if off + 24 > 0x18000 ∨ (s.coreAt c).fenced then some 0x03
    else if tileOf c ≠ s.tile then some 0x04
    else if s.foreign c off 24 s.ctx.id then some 0x06 else none
  | _ => some 0x03
/-- R74: nstclm joins the chunk as its last instruction and ends it after itself; the firing then waits for the answer. -/
def execNstclm (rd : Reg) (ra : Pair) (s : State) : Res :=
  let ea := s.d ra
  match s.claimFault ea.toNat with
  | some c => .next (s.trapAt c ea)
  | none =>
    let c := match scrPlace s.cur ea.toNat with
      | some p => p.1
      | none => s.cur
    let p : Packet :=
      { src := coord s.cur, dst := coord c, cls := 21, reply := false, hiPri := false, age := 0, retries := 0, fwd := 0, via := none, seq := 0,
        ter := (s.tileAt s.tile).ter, launch := s.ctx.launch, hcls := 0, ctx := s.ctx.id, serial := s.fir.serial, vdev := s.ctx.vdev, pc := s.pc,
        pool := none, body := .claim ea }
    .next ((s.hold (.packet p)).counted.endChunk (.answer (.claim rd ea)))
/-- R75: nstnxt. -/
def execNstnxt (rd : Reg) (s : State) : Res :=
  if s.s rd = 0 then .next (s.retire 1) else
  let r := s.regs
  let e (i : Nat) : Word := (vget r.ext i 1).setWidth 32
  let j0 := vget r.j 0 0 + 1
  let j1 := if j0 = e 0 then vget r.j 1 0 + 1 else vget r.j 1 0
  let j0 := if j0 = e 0 then 0 else j0
  let j2 := if j1 = e 1 then vget r.j 2 0 + 1 else vget r.j 2 0
  let j1 := if j1 = e 1 then 0 else j1
  let j3 := if j2 = e 2 then vget r.j 3 0 + 1 else vget r.j 3 0
  let j2 := if j2 = e 2 then 0 else j2
  let j3 := if j3 = e 3 then 0 else j3
  (s.setRegs { r with j := #v[j0, j1, j2, j3] }).giveS rd (s.s rd - 1)

end Sys2Proof.Machine
end

