-- ==== Sys2Proof/Machine/Message.lean ====
section
/-! DEFINITION. The request and reply pools (R188), send and reply (R191, R192), deposits and atomics (R193–R197) and the rest of the
MSG group (R198–R203). -/

namespace Sys2Proof.Machine

/-! ## Routes and borders (R216, R220, R222) -/

/-- Classes that border isolation lets through (R216). -/
def exempt (cls : BitVec 5) : Bool := [25, 26, 27, 29, 30].contains cls.toNat
/-- Where a packet's class leads it through the routers' tables (R220): to its core, past the edge of the mesh, or neither; or it comes to its
destination's tile, whose border stops it (R222). -/
inductive Way
  | there
  | edge
  | astray
  | barred
deriving DecidableEq, Repr
/-- What a message that is stopped fails with (R219): PERM at a border, UNDELIV without a route. -/
def Way.cause : Way → Byte
  | .barred => 0x06
  | _ => 0x13
/-- The router next to another by a port: 0 E, 1 N, 2 W, 3 S. -/
def hop (c port : Nat) : Option Nat :=
  match port with
  | 0 => if cx c = 127 then none else some (c + 1)
  | 1 => if cy c = 0 then none else some (c - 128)
  | 2 => if cx c = 0 then none else some (c - 1)
  | _ => if cy c = 63 then none else some (c + 128)
/-- The router that a class's table entry sends a packet to from a router that is not its destination's; none past the edge of the mesh. -/
def State.nextHop (s : State) (cls : BitVec 5) (dst c : Nat) : Option Nat :=
  let e := (look (s.coreAt c).routes cls).getD 0
  let alongX := if cx c < cx dst then 0 else 2
  let alongY := if cy c < cy dst then 3 else 1
  hop c (match (e.extractLsb' 0 2).toNat with
    | 0 => if cx c ≠ cx dst then alongX else alongY
    | 1 => if cy c ≠ cy dst then alongY else alongX
    | _ => (e.extractLsb' 2 3).toNat)
/-- Follow the route-class tables from a router; `fuel` bounds the hops. -/
def State.wayFrom (s : State) (cls : BitVec 5) (dst : Nat) : Nat → Nat → Way
  | 0, _ => .astray
  | n + 1, c =>
    if c = dst then .there else
    match s.nextHop cls dst c with
    | none => .edge
    | some d => s.wayFrom cls dst n d
/-- No router's table has been changed: every class goes XY. -/
def State.plainRoutes (s : State) : Bool := s.cores.all fun e => e.2.routes.isEmpty
/-- The way of a packet between two cores; with no table changed it arrives. -/
def State.way (s : State) (cls : BitVec 5) (src dst : Nat) : Way :=
  if s.plainRoutes then .there else s.wayFrom cls dst 8192 src
/-- The way enters the tile of its destination from another. -/
def State.crossesFrom (s : State) (cls : BitVec 5) (dst : Nat) : Nat → Nat → Bool
  | 0, _ => false
  | n + 1, c =>
    if c = dst then false else
    match s.nextHop cls dst c with
    | none => false
    | some d => (tileOf d == tileOf dst && tileOf c != tileOf dst) || s.crossesFrom cls dst n d
def State.crosses (s : State) (cls : BitVec 5) (src dst : Nat) : Bool :=
  if s.plainRoutes then tileOf src != tileOf dst else s.crossesFrom cls dst 8192 src
/-- The border of a core's tile lets a class in from a territory along the way it came (R222): its class is exempt, it never left the tile, or the
tile belongs to that territory. -/
def State.borderOk (s : State) (cls : BitVec 5) (ter : Option (BitVec 6)) (crosses : Bool) (dst : Nat) : Bool :=
  !crosses || exempt cls || ter == some (s.tileAt (tileOf dst)).ter

/-- The way of a message of a class, sent by an agent of a territory from the router of core `a` to that of core `d` (R220, R222). -/
def State.trip (s : State) (cls : BitVec 5) (ter : BitVec 6) (a d : Nat) : Way :=
  match s.way cls a d with
  | .there => if s.borderOk cls (some ter) (s.crosses cls a d) d then .there else .barred
  | w => w
/-- The territory of a core's tile (R250). -/
def State.terOf (s : State) (c : Nat) : BitVec 6 := (s.tileAt (tileOf c)).ter

/-! ## Pools (R188) -/

/-- Held packets of the open chunk that take an entry of a pool. -/
def State.heldIn (s : State) (reply : Bool) : Nat :=
  (s.chunk.held.filter fun h => match h with
    | .packet p => p.pool == some reply
    | _ => false).length
/-- A request entry can be reserved: neither RQLIM nor the core's 16 entries are reached, reserved ones counted. -/
def State.requestRoom (s : State) : Bool :=
  let es := s.core.pool.filter fun e => !e.reply
  decide ((es.filter fun e => e.ctx = s.ctx.id).length + s.heldIn false < s.prog.rqlim.toNat) && decide (es.length + s.heldIn false < 16)
/-- A reply entry can be reserved. -/
def State.replyRoom (s : State) : Bool := decide ((s.core.pool.filter fun e => e.reply).length + s.heldIn true < 16)
/-- Reserve a request entry, or trap SQFULL, or wait (R188). -/
def State.withRequest (s : State) (lo hi : Word) (k : State → Res) : Res :=
  if s.requestRoom then k s else .next (if s.prog.sqt then s.trap 0x07 lo hi else s.waitOn .request)
/-- A packet of the running context from this core; its sequence number is set at release. -/
def State.packet (s : State) (dst : BitVec 21) (cls : BitVec 5) (reply pri : Bool) (pool : Option Bool) (body : Body) : Packet :=
  { src := coord s.cur, dst := dst, cls := cls, reply := reply, hiPri := pri, age := 0, retries := 0, fwd := 0, via := none, seq := 0,
    ter := (s.tileAt s.tile).ter, launch := if cls = 20 ∨ cls = 21 then s.ctx.launch else 0, hcls := 0,
    ctx := s.ctx.id, serial := s.fir.serial, vdev := s.ctx.vdev, pc := s.pc, pool := pool, body := body }
/-- A packet of a context's engine, or of an agent at the router of core `c`, that takes no pool entry. -/
def State.agentPacket (s : State) (c : Nat) (dst : BitVec 21) (cls hcls : BitVec 5) (launch : Word) (ctx : Half) (vdev : Nat) (pc : Word) (body : Body) : Packet :=
  { src := coord c, dst := dst, cls := cls, reply := false, hiPri := false, age := 0, retries := 0, fwd := 0, via := none, seq := 0,
    ter := (s.tileAt (tileOf c)).ter, launch := launch, hcls := hcls, ctx := ctx, serial := 0, vdev := vdev, pc := pc, pool := none, body := body }
/-- The dispatcher that runs the running context's launch (R287, R317). -/
def State.myDispatcher (s : State) : BitVec 21 := coord (dispatcherCore (dieOfLaunch s.ctx.launch))
/-- A packet leaves the router of core `c`: it takes that source's next sequence number on its network, and its pool entry (R188, R215). -/
def State.issue (s : State) (c : Nat) (p : Packet) : State :=
  let k := s.coreAt c
  let p := { p with seq := if p.reply then k.seqRep else k.seqReq }
  let k := if p.reply then { k with seqRep := k.seqRep + 1 } else { k with seqReq := k.seqReq + 1 }
  let k := match p.pool with
    | some b => { k with pool := k.pool ++ [⟨b, p.seq, p.ctx, p⟩] }
    | none => k
  (s.putCore c k).send (.packetArrival p)
/-- Hold a packet as the instruction's effect and complete it. -/
def State.holdPacket (s : State) (p : Packet) (words : Nat) : Res := .next ((s.hold (.packet p)).retire words)

/-! ## send and reply -/

/-- R191, R192: send. -/
def execSend (vs sd : Reg) (cls : BitVec 5) (len1 : BitVec 6) (net pri : Bool) (s : State) : Res :=
  let c := s.s sd
  if c.extractLsb' 21 11 ≠ 0 then .next (s.trap 0x03 c 0) else
  s.withRequest c 0 fun s =>
    s.holdPacket (s.packet (c.setWidth 21) cls net pri (some false) (.message (vecBytes (s.v vs) (len1.toNat + 1)))) 1
/-- R191, R192: reply goes to the source of the running firing; a firing of kind 2 or 3 has none (DEDUCED, log 16). -/
def execReply (vs : Reg) (cls : BitVec 5) (len1 : BitVec 6) (pri : Bool) (s : State) : Res :=
  if s.fir.kind = 2 ∨ s.fir.kind = 3 then .next (s.trap 0x13 (s.fir.src.setWidth 32) 0) else
  if s.replyRoom then
    s.holdPacket (s.packet s.fir.src cls true pri (some true) (.message (vecBytes (s.v vs) (len1.toNat + 1)))) 1
  else .next (s.waitOn .reply)

/-! ## Deposits and atomics -/

/-- A core of this tile's territory, as its territory registers hold it (R250). -/
def State.inTerritory (s : State) (c : Nat) : Bool := tileOf c == s.tile || (s.tileAt s.tile).mask.getLsbD (tileOf c)
/-- R193's checks after ALIGN: ACCESS (a fenced core too, R137), then PERM, then the translation. -/
def State.reachFault (s : State) (ea n : Nat) : Option Byte :=
  match place ea with
  | .nowhere => some 0x03
  | .own off => if s.ctx.covers off n then none else some 0x03
  | .glob c off =>
    if off + n > 0x18000 ∨ ¬ s.inTerritory c ∨ (s.coreAt c).fenced then some 0x03
    else if s.foreign c off n s.ctx.id then some 0x06 else none
  | .trans =>
    match s.xlate s.ctx.vdev ea true with
    | .error e => some e
    | .ok _ => none
/-- The core that owns an address, or the streamer that owns its page, which for target 2 lies in another package (R194, R197, R237, R296). -/
def State.ownerOf (s : State) (ea : DWord) : BitVec 21 :=
  match place ea.toNat with
  | .own _ => coord s.cur
  | .glob c _ => coord c
  | _ => match s.xlate s.ctx.vdev ea.toNat true with
    | .ok key => streamerCoord key
    | .error _ => coord s.cur
/-- R193, R194: depos. -/
def execDepos (vs : Reg) (base : Pair) (off : BitVec 24) (len1 : BitVec 6) (trig : Option (BitVec 5)) (s : State) : Res :=
  let ea := s.ea base off
  let n := len1.toNat + 1
  if ea.toNat / 64 ≠ (ea.toNat + n - 1) / 64 then .next (s.trapAt 0x02 ea) else
  match s.reachFault ea.toNat n with
  | some c => .next (s.trapAt c ea)
  | none =>
    s.withRequest (lo32 ea) (hi32 ea) fun s =>
      let at' := if inTrans ea.toNat then some (BitVec.ofNat 13 s.cur) else none
      s.holdPacket (s.packet (s.ownerOf ea) 20 false false (some false) (.deposit ea (vecBytes (s.v vs) n) trig at' none)) 2
/-- R195, R196: an amo, held, or with ret=yes the last of its chunk, whose answer the firing waits for. -/
def State.amo (s : State) (op : AmoOp) (a : AmoArgs) : Res :=
  let ea := s.ea a.base a.off
  let pr (i : Nat) : DWord := if a.dbl then s.d (BitVec.ofNat 5 (a.rt.toNat / 2 + i)) else (s.s (BitVec.ofNat 6 (a.rt.toNat + i))).setWidth 64
  if ea.toNat % (if a.dbl then 8 else 4) ≠ 0 then .next (s.trapAt 0x02 ea) else
  match s.reachFault ea.toNat (if a.dbl then 8 else 4) with
  | some c => .next (s.trapAt c ea)
  | none =>
    s.withRequest (lo32 ea) (hi32 ea) fun s =>
      let w := if op = .cas then pr 1 else 0
      let p := s.packet (s.ownerOf ea) 21 false false (some false) (.atomic op a.dbl ea (pr 0) w a.trig a.ret)
      if a.ret then .next ((s.hold (.packet p)).counted.endChunk (.answer (.atomic a.rt a.dbl ea)))
      else s.holdPacket p 2

/-- R196: amo.add. -/
def execAmoAdd (a : AmoArgs) (s : State) : Res := s.amo .add a
/-- R196: amo.and. -/
def execAmoAnd (a : AmoArgs) (s : State) : Res := s.amo .and a
/-- R196: amo.or. -/
def execAmoOr (a : AmoArgs) (s : State) : Res := s.amo .or a
/-- R196: amo.xor. -/
def execAmoXor (a : AmoArgs) (s : State) : Res := s.amo .xor a
/-- R196: amo.min. -/
def execAmoMin (a : AmoArgs) (s : State) : Res := s.amo .min a
/-- R196: amo.max. -/
def execAmoMax (a : AmoArgs) (s : State) : Res := s.amo .max a
/-- R196: amo.minn. -/
def execAmoMinn (a : AmoArgs) (s : State) : Res := s.amo .minn a
/-- R196: amo.maxn. -/
def execAmoMaxn (a : AmoArgs) (s : State) : Res := s.amo .maxn a
/-- R196: amo.swap. -/
def execAmoSwap (a : AmoArgs) (s : State) : Res := s.amo .swap a
/-- R196: amo.cas. -/
def execAmoCas (a : AmoArgs) (s : State) : Res := s.amo .cas a
/-- R196: amo.fadd. -/
def execAmoFadd (a : AmoArgs) (s : State) : Res := s.amo .fadd a

/-! ## The rest of the MSG group -/

/-- R199: done ends the chunk, itself included; the firing is over when that chunk commits. -/
def execDone (s : State) : Res := .next (s.counted.endChunk .finish)
/-- R200: launch goes to the dispatcher of this core's die. -/
def execLaunch (node : Pair) (s : State) : Res :=
  let va := s.d node
  if va.toNat % 64 ≠ 0 then .next (s.trapAt 0x02 va)
  else if ¬ inTrans va.toNat then .next (s.trapAt 0x03 va)
  else s.withRequest 0 0 fun s => s.holdPacket (s.packet (coord (dispatcherCore (dieOf s.cur))) 26 false false (some false) (.walk s.ctx.launch va)) 1
/-- The classes of this core that the running context claims (R177, R201). -/
def State.claims (s : State) : Word :=
  s.core.handlers.foldl (fun m e => if e.2.ctx = s.ctx.id then m ||| ((1 : Word) <<< e.1.toNat) else m) 0
/-- R201: set (1) or clear (2) a bit of CLSMSK at commit. -/
def State.classMask (s : State) (op : BitVec 2) (cls : BitVec 5) : Res :=
  let b : Word := (1 : Word) <<< cls.toNat
  if s.claims &&& b = 0 then .next (s.trap 0x06 (cls.setWidth 32) 0) else .next ((s.hold (.mask op b b)).retire 1)
/-- R201: clsmask. -/
def execClsmask (cls : BitVec 5) (s : State) : Res := s.classMask 1 cls
/-- R201: clsunm. -/
def execClsunm (cls : BitVec 5) (s : State) : Res := s.classMask 2 cls
/-- R202: kend. -/
def execKend (s : State) : Res :=
  s.withRequest 0 0 fun s => s.holdPacket (s.packet s.myDispatcher 26 false false (some false) (.kend s.ctx.launch)) 1
/-- R202: vdone. -/
def execVdone (s : State) : Res := .next ((s.hold .vdone).retire 1)
/-- R202: terdem. -/
def execTerdem (ra : Reg) (s : State) : Res := .next ((s.hold (.terdem (s.s ra))).retire 1)
/-- R202: termap reads the territory's mask as the tile holds it. -/
def execTermap (rd : Pair) (s : State) : Res := s.giveD rd (s.tileAt s.tile).mask
/-- R202: hpost; bit 7 of byte 1 is forced to 1. -/
def execHpost (vs : Reg) (s : State) : Res :=
  s.withRequest 0 0 fun s =>
    let bs := vecBytes (s.v vs) 64
    s.holdPacket (s.packet s.myDispatcher 26 false false (some false) (.post s.ctx.launch (bs.set 1 (bs.getD 1 0 ||| 0x80)))) 1

/-! ## Barriers (R204–R207) -/

/-- A barrier before its first binit (R204). -/
def Bar.zero : Bar := ⟨0, 0, 0, false, 0, false, 0, false⟩
/-- A barrier of a core. -/
def Core.bar (k : Core) (b : BitVec 7) : Bar := (look k.bars b).getD .zero
/-- A barrier effect, held to commit. -/
def State.holdBar (s : State) (o : BarOp) : Res := .next ((s.hold (.bar o)).retire 1)
/-- R205: binit. -/
def execBinit (bar : BitVec 7) (ra rb : Reg) (s : State) : Res :=
  let c := s.s rb
  s.holdBar (.init bar ((s.s ra).setWidth 16) (c.extractLsb' 0 5) (c.getLsbD 5) s.ctx.launch)
/-- R205: barr. -/
def execBarr (bar : BitVec 7) (s : State) : Res := s.holdBar (.arrive bar)
/-- R205: barrx. -/
def execBarrx (bar : BitVec 7) (ra : Reg) (s : State) : Res :=
  let c := s.s ra
  if c.extractLsb' 21 11 ≠ 0 then .next (s.trap 0x03 c 0) else
  s.withRequest 0 0 fun s => s.holdPacket (s.packet (c.setWidth 21) 22 false false (some false) (.arrive bar)) 1
/-- R205: baddb. -/
def execBaddb (bar : BitVec 7) (ra : Reg) (s : State) : Res := s.holdBar (.add bar (s.s ra))
/-- R205: bwait; its return acquires (R236). -/
def execBwait (bar : BitVec 7) (ra : Reg) (s : State) : Res :=
  let p := (s.s ra).getLsbD 0
  if ¬ s.chunkEmpty then .next (s.endChunk .run)
  else if (s.core.bar bar).phase != p then .next ((s.catchUp s.cur).retire 1) else .next (s.waitOn (.phase bar p))
/-- R207: the word bstat reads. -/
def Bar.word (b : Bar) : Word :=
  (BitVec.ofBool b.phase) ++ (BitVec.ofBool b.enable) ++ b.cls ++ (BitVec.ofBool (b.pending != 0)) ++ (BitVec.ofBool (b.pending.getLsbD 47)) ++ (0 : BitVec 7) ++ b.arrivals
/-- R205: bstat. -/
def execBstat (bar : BitVec 7) (rd : Reg) (s : State) : Res := s.giveS rd (s.core.bar bar).word

end Sys2Proof.Machine
end

