-- ==== Sys2Proof/Machine/Queue.lean ====
section
/-! DEFINITION. Queues and channel ends (R158–R167), slots (R96), transfer IDs (R171), and the pushes of tile commands to the matrix
queue and the copy channels (R97, R170). -/

namespace Sys2Proof.Machine

/-! ## Queue ends (R158–R163) -/

/-- The binding of a queue register. -/
def State.bindOf (s : State) (q : QReg) : Option Bind := s.prog.binds.find? (·.q = q)
/-- A channel as the running firing sees it: the entry update of a chbind in its open chunk is made (R165). -/
def State.chanSeen (s : State) (ch : BitVec 15) : Option Chan :=
  (s.chanAt ch).map fun k => s.chunk.held.foldl (fun (k : Chan) h => match h with
    | .bind c _ f off on st => if c = ch ∧ ¬ k.bound then { k with f := f, off := off, on := on, streamer := st } else k
    | _ => k) k
/-- Held pops of a queue in the open chunk. -/
def State.heldPops (s : State) (q : QReg) (ch : BitVec 15) : Nat :=
  (s.chunk.held.filter fun h => match h with
    | .pop q' c _ => if q.toNat < 4 ∨ q'.toNat < 4 then q' == q else c == ch
    | _ => false).length
/-- Held pushes to a channel's window or to its spill. -/
def State.heldPushes (s : State) (ch : BitVec 15) (spill : Bool) : Nat :=
  (s.chunk.held.filter fun h => match h with
    | .push c b _ _ _ => c == ch && b == spill
    | _ => false).length
/-- The marker of a channel is among the chunk's held pops, or among its held pushes (DEDUCED, log 17). -/
def State.poppedEos (s : State) (ch : BitVec 15) : Bool := s.chunk.held.any fun h => match h with
  | .pop _ c e => c == ch && e
  | _ => false
def State.pushedEos (s : State) (ch : BitVec 15) : Bool := s.chunk.held.any fun h => match h with
  | .push c _ e _ _ => c == ch && e
  | _ => false
/-- CHAN with the queue number (R161, R165–R167). -/
def State.trapQ (s : State) (q : QReg) : Res := .next (s.trap 0x0E (q.setWidth 32) 0)
/-- An element is taken: its bytes go to their register, later loads see what it acquires (R235, R236), and the pop is held. -/
def State.taken (s : State) (q : QReg) (ch : BitVec 15) (eos : Bool) (give : State → List Byte → State) (bs : List Byte) : Res :=
  .next ((((give s bs).catchUp s.cur).hold (.pop q ch eos)).retire 1)
/-- R161's pop: the element's bytes, as they stand in the ring with the core's own stores (R146, R158; the pop acquires them, R236), go to `give`, and the pop is held. `scalar` is qrd's form. (DEDUCED, log 17.) -/
def State.popWith (s : State) (q : QReg) (scalar : Bool) (give : State → List Byte → State) : Res :=
  if q = 0 then
    match s.ctx.q0[s.heldPops q 0]? with
    | some w => s.taken q 0 false give (leBytes 4 w.toNat)
    | none => .next (s.waitOn (.pop q))
  else if q = 1 then
    match s.ctx.q1[s.heldPops q 0]? with
    | some r => s.taken q 0 false give (leBytes 4 r.1.toNat ++ [r.2.setWidth 8])
    | none => .next (s.waitOn (.pop q))
  else
    match s.bindOf q with
    | none => s.trapQ q
    | some b =>
      match s.chanSeen b.ch with
      | none => s.trapQ q
      | some k =>
        let n := s.heldPops q b.ch
        if ¬ b.consumer ∨ k.suspect ∨ k.eosPopped ∨ s.poppedEos b.ch ∨ (scalar ∧ k.esize ≠ 2) then s.trapQ q
        else if k.occ ≤ n then .next (s.parkOn q false)
        else
          let i := k.read.toNat + n
          let z := 2 ^ k.esize
          if k.marker = some i then s.taken q b.ch true give (List.replicate z 0)
          else
            let a := k.ring + i % k.capacity * z
            let r := s.mirRead s.cur a z s.ctx.id
            match r.2 with
            | none => .next (r.1.trapAt 0x0C (BitVec.ofNat 64 a))
            | some _ => r.1.taken q b.ch false give (overlay s.chunk.held a ((r.1.catchUp s.cur).core.seen a z))
/-- R161: qrd. -/
def execQrd (rd : Reg) (q : QReg) (s : State) : Res := s.popWith q true fun s bs => s.setS rd (BitVec.ofNat 32 (le bs 0 4))
/-- R161: qrdv. -/
def execQrdv (vd : Reg) (q : QReg) (s : State) : Res := s.popWith q false fun s bs => s.setV vd (bytesVec bs)
/-- R149, R151: route a push that has passed its checks, reserve its place and hold it, or wait. -/
def State.route (s : State) (q : QReg) (k : Chan) (eos : Bool) (bs : List Byte) : Res :=
  if ¬ k.prodXoff ∧ ¬ k.spilling ∧ s.heldPushes k.idx true = 0 then
    if k.out + s.heldPushes k.idx false < k.f then .next ((s.hold (.push k.idx false eos 0 bs)).retire 1)
    else .next (s.waitOn (.window q))
  else
    let slot := k.sr + s.heldPushes k.idx true
    if slot = k.limit then .next (s.parkOn q true) else .next ((s.hold (.push k.idx true eos slot bs)).retire 1)
/-- The checks of a push (R161, R163). (DEDUCED, log 17.) -/
def State.pushWith (s : State) (q : QReg) (scalar eos : Bool) (bytes : Nat → List Byte) : Res :=
  match s.bindOf q with
  | none => s.trapQ q
  | some b =>
    match s.chanSeen b.ch with
    | none => s.trapQ q
    | some k =>
      if b.consumer ∨ k.suspect ∨ k.eosBit ∨ s.pushedEos b.ch ∨ (scalar ∧ k.esize ≠ 2) then s.trapQ q
      else s.route q k eos (bytes (2 ^ k.esize))
/-- R161: qwr. -/
def execQwr (q : QReg) (ra : Reg) (s : State) : Res := s.pushWith q true false fun n => leBytes n (s.s ra).toNat
/-- R161: qwrv. -/
def execQwrv (q : QReg) (va : Reg) (s : State) : Res := s.pushWith q false false fun n => vecBytes (s.v va) n
/-- R163: cheos; the marker's bytes in its slot are free (DESIGN CHOICE, log 10). -/
def execCheos (q : QReg) (s : State) : Res :=
  s.pushWith q false true fun n => (List.range n).map fun i => Config.byte (64 * s.tick + i)
/-- R162: the word of a queue's end. -/
def State.qstat (s : State) (q : QReg) : Word :=
  let b (i : Nat) (c : Bool) : Nat := if c then 2 ^ i else 0
  BitVec.ofNat 32 <|
  if q = 0 then 2 ^ 16 + (s.ctx.q0.length - s.heldPops q 0)
  else if q = 1 then 2 ^ 16 + (s.ctx.q1.length - s.heldPops q 0)
  else match s.bindOf q with
  | none => 0
  | some x =>
    match s.chanSeen x.ch with
    | none => 0
    | some k =>
      if x.consumer then
        b 22 k.refill + b 21 k.suspect + b 20 (k.eosPopped || s.poppedEos x.ch) + b 18 (decide (k.off ≤ k.occ)) + 2 ^ 17 + 2 ^ 16 + (k.occ - s.heldPops q x.ch)
      else b 21 k.suspect + b 20 k.eosBit + b 19 (k.spilling || s.heldPushes x.ch true != 0) + b 18 k.prodXoff + 2 ^ 16 + (k.f - (k.out + s.heldPushes x.ch false))
/-- R162: qstat. -/
def execQstat (rd : Reg) (q : QReg) (s : State) : Res := s.giveS rd (s.qstat q)

/-! ## Binding (R147, R165) -/

/-- Hops between two cores' routers. -/
def hops (a b : Nat) : Nat := (cx a - cx b) + (cx b - cx a) + (cy a - cy b) + (cy b - cy a)
/-- The streamer whose router lies fewest hops from a core, ties to the lowest number (R147). -/
def nearest (c : Nat) : Nat :=
  (List.range 512).foldl (fun b i => if hops c (streamerCore i) < hops c (streamerCore b) then i else b) 0
/-- The in-flight window of R147; the piste has configured ports when the entry of class 24 at the producer's own router says so. (DESIGN CHOICE, log 79.) -/
def State.windowOf (s : State) (k : Chan) : Nat :=
  let p := tileOf (ofCoord k.producer)
  let c := tileOf (ofCoord k.consumer)
  if p = c then 2 else
  let mode := ((look (s.coreAt (ofCoord k.producer)).routes (24 : BitVec 5)).getD 0).extractLsb' 0 2
  2 + 2 * (if mode = 2 then 14 else (p % 8 - c % 8) + (c % 8 - p % 8) + (p / 8 - c / 8) + (c / 8 - p / 8))
/-- R165: chbind. -/
def execChbind (q : QReg) (ra : Reg) (consumer : Bool) (s : State) : Res :=
  let w := s.s ra
  let bad : Res := .next (s.trap 0x0E w 0)
  let ch : BitVec 15 := w.setWidth 15
  if w.toNat > 0x7FFF then bad else
  match s.chanAt ch with
  | none => bad
  | some k =>
    if (s.bindOf q).isSome ∨ s.prog.binds.any (fun b => b.ch = ch && b.consumer == consumer) then bad
    else if (if consumer then k.consCtx ≠ s.ctx.id ∨ k.consumer ≠ coord s.cur else k.prodCtx ≠ s.ctx.id ∨ k.producer ≠ coord s.cur) then bad
    else
      let f := s.windowOf k
      if ¬ k.bound ∧ (k.capacity < f + (f + 1) / 2 ∨ ¬ isLocal k.producer ∨ ¬ isLocal k.consumer) then bad
      else
        let s := s.setProg { s.prog with binds := s.prog.binds ++ [⟨q, ch, consumer⟩] }
        let h : Held := if k.bound then .bind ch consumer k.f k.off k.on k.streamer
          else .bind ch consumer f (k.capacity - f) (k.capacity - f - (f + 1) / 2) (nearest (ofCoord k.producer))
        .next ((s.hold h).retire 1)
/-- R165: chunb. -/
def execChunb (q : QReg) (s : State) : Res :=
  match s.bindOf q with
  | none => s.trapQ q
  | some b =>
    let s := s.setProg { s.prog with binds := s.prog.binds.filter (·.q ≠ q) }
    .next ((s.hold (.unbind b.ch b.consumer)).retire 1)
/-- R166: chgrow asks the territory's pool and waits for its answer. -/
def execChgrow (q : QReg) (ra : Reg) (s : State) : Res :=
  if ¬ s.chunkEmpty then .next (s.endChunk .run) else
  match (s.bindOf q).bind fun b => s.chanAt b.ch with
  | none => s.trapQ q
  | some k =>
    let n := (s.s ra).toNat
    if k.suspect ∨ k.limit + n > 2 ^ 32 - 1 then s.trapQ q
    else if n = 0 then .next (s.retire 1)
    else .next ((s.send (.spillPoolDraw k.idx n (n * 2 ^ k.esize) (some (s.cur, s.fir.serial)) none)).setStatus (.answer (.grant k.idx)))
/-- R167: chstat. -/
def execChstat (rd : Reg) (q : QReg) (s : State) : Res :=
  if ¬ s.chunkEmpty then .next (s.endChunk .run) else
  match (s.bindOf q).bind fun b => s.chanAt b.ch with
  | none => s.trapQ q
  | some k => s.giveS rd (BitVec.ofNat 32 (min k.limit 0xFFFF * 65536 + min (k.tail - k.head) 0xFFFF))

/-! ## Slots (R96) -/

/-- Slot numbers that a command names. -/
def slotsOf : Instr → List Nat
  | .mld n _ _ _ _ => [n.toNat]
  | .mma _ a b _ _ => [a.toNat, b.toNat]
  | _ => []
/-- The slot numbers of a matrix queue entry. -/
def MCmd.slots (m : MCmd) : List Nat := match m.what with
  | .cmd i => slotsOf i
  | .csr _ _ _ => []
/-- Commands of the running context that are queued, running or held for pushing. -/
def State.commands (s : State) : List MCmd :=
  s.core.commands.filter (·.ctx = s.ctx.id) ++ s.chunk.held.filterMap fun h => match h with
    | .mcmd m => some m
    | _ => none
def Prog.slot (p : Prog) (n : Nat) : Slot := vget p.slots n .empty
def Prog.setSlot (p : Prog) (n : Nat) (x : Slot) : Prog := { p with slots := vset p.slots n x }
/-- SLOT with the slot number. -/
def State.trapSlot (s : State) (n : Reg) : Res := .next (s.trap 0x0A (n.setWidth 32) 0)
/-- R96: slclm. -/
def execSlclm (n : Reg) (s : State) : Res :=
  let x := s.prog.slot n.toNat
  if s.ctx.slotQ ≤ n.toNat then s.trapSlot n
  else if x.claimed ∧ x.holder = some s.fir.serial then s.trapSlot n
  else if x.claimed then .next (s.waitOn (.slot n.toNat))
  else .next ((s.setProg (s.prog.setSlot n.toNat { Slot.empty with claimed := true, holder := some s.fir.serial })).retire 1)
/-- R96: slrel. -/
def execSlrel (n : Reg) (s : State) : Res :=
  if s.ctx.slotQ ≤ n.toNat ∨ ¬ (s.prog.slot n.toNat).claimed then s.trapSlot n
  else if s.commands.any fun m => m.slots.contains n.toNat then s.trapSlot n
  else .next ((s.setProg (s.prog.setSlot n.toNat .empty)).retire 1)
/-- R96: slstat. -/
def execSlstat (rd : Reg) (s : State) : Res :=
  s.giveS rd (BitVec.ofNat 32 ((List.range 16).foldl (fun a i =>
    let x := s.prog.slot i
    a + (if x.claimed then 2 ^ i else 0) + (if x.full then 2 ^ (16 + i) else 0)) 0))

/-! ## Tile commands (R97, R168, R170, R208) -/

/-- Push a command of `words` words to the matrix queue, or wait for an entry (R97, R98); `f` is what else a push writes. -/
def State.pushMatrix (s : State) (f : State → State) (w : MWhat) (words : Nat) : Res :=
  let n := (s.chunk.held.filter fun h => match h with
    | .mcmd _ => true
    | _ => false).length
  if s.core.commands.length + n ≥ 8 then .next (s.waitOn .matrixRoom)
  else .next (((f s).hold (.mcmd ⟨s.ctx.id, s.ctx.mseq + BitVec.ofNat 32 (n + 1), s.pc, w, s.prog.seed, none, 0, none, false⟩)).retire words)
/-- Held copy pushes of a channel. -/
def State.heldCopies (s : State) (k : BitVec 2) : Nat :=
  (s.chunk.held.filter fun h => match h with
    | .copy t => t.chan == k
    | _ => false).length
/-- The ID counter of a copy channel, held pushes included (R170, R171). -/
def State.xidNow (s : State) (k : BitVec 2) : Word := s.ctx.xid[k.toNat]'(by omega) + BitVec.ofNat 32 (s.heldCopies k)
/-- Push a copy or reduction command, or wait for room on its channel (R170). -/
def State.pushCopy (s : State) (k : BitVec 2) (i : Instr) : Res :=
  if (s.core.copies.filter fun t => t.chan == k && !t.done).length + s.heldCopies k ≥ 8 then .next (s.waitOn (.copyRoom k))
  else .next ((s.hold (.copy ⟨0, s.ctx.id, s.ctx.vdev, k, s.xidNow k + 1, s.pc, i, false, [], [], none, false⟩)).retire 8)

/-- R103: mld. -/
def execMld (slot fmt : BitVec 4) (trans : Bool) (src : DWord) (stride : Word) (s : State) : Res := s.pushMatrix id (.cmd (.mld slot fmt trans src stride)) 8
/-- R103: mma. -/
def execMma (acc : BitVec 3) (sa sb : BitVec 4) (bandA bandB : BitVec 12) (s : State) : Res := s.pushMatrix id (.cmd (.mma acc sa sb bandA bandB)) 8
/-- R103: mzero. -/
def execMzero (acc : BitVec 3) (s : State) : Res := s.pushMatrix id (.cmd (.mzero acc)) 8
/-- R103: mst. -/
def execMst (acc : BitVec 3) (dst : DWord) (stride : Word) (s : State) : Res := s.pushMatrix id (.cmd (.mst acc dst stride)) 8
/-- R103: mqnt; under mode 4 it advances SEED past its draws as it executes, and carries the state they start from (R88). One whose format code has no
group, so that its command traps FMT, takes those of a group of three. (DESIGN CHOICE, log 62.) -/
def execMqnt (acc : BitVec 3) (fmt : BitVec 4) (rnd : BitVec 3) (codes : DWord) (cstride sstride : Half) (scales : DWord) (s : State) : Res :=
  let q : BitVec 3 := (vget s.prog.po 11 0).setWidth 3
  let sr := if rnd = 0 then q == 4 else rnd == 5
  let n := if fmt = 5 then 256 else 768
  s.pushMatrix (fun s => if sr then s.setProg { s.prog with seed := stepsSeed n s.prog.seed } else s) (.cmd (.mqnt acc fmt rnd codes cstride sstride scales)) 8
/-- R103: mamax. -/
def execMamax (acc cnt1 : BitVec 3) (s : State) : Res := s.pushMatrix id (.cmd (.mamax acc cnt1)) 8
/-- R168: cpin. -/
def execCpin (k : BitVec 2) (len : Word) (va sp : DWord) (t : CopyTail) (s : State) : Res := s.pushCopy k (.cpin k len va sp t)
/-- R168: cpout. -/
def execCpout (k : BitVec 2) (len : Word) (va sp : DWord) (t : CopyTail) (s : State) : Res := s.pushCopy k (.cpout k len va sp t)
/-- R168: cp2d. -/
def execCp2d (k : BitVec 2) (len : Word) (va sp : DWord) (t : CopyTail) (outward : Bool) (rows : BitVec 12) (pitch : BitVec 20) (s : State) : Res :=
  s.pushCopy k (.cp2d k len va sp t outward rows pitch)
/-- R168: cploc. -/
def execCploc (k : BitVec 2) (len : Word) (ga sp : DWord) (t : CopyTail) (s : State) : Res := s.pushCopy k (.cploc k len ga sp t)
/-- R168: cpfill. -/
def execCpfill (k : BitVec 2) (len : Word) (dst : DWord) (pattern : Word) (t : CopyTail) (s : State) : Res := s.pushCopy k (.cpfill k len dst pattern t)
/-- R208: xred. -/
def execXred (k : BitVec 2) (count : Half) (ty : VTy) (op : BitVec 2) (src dst : DWord) (t : CopyTail) (parts : BitVec 13) (s : State) : Res :=
  s.pushCopy k (.xred k count ty op src dst t parts)
/-- R208: xbcast. -/
def execXbcast (k : BitVec 2) (count : Half) (ty : VTy) (src dst : DWord) (t : CopyTail) (parts : BitVec 13) (s : State) : Res :=
  s.pushCopy k (.xbcast k count ty src dst t parts)

/-! ## Transfer IDs (R170, R171) -/

/-- ID a is before ID b (R170). -/
def idBefore (a b : Word) : Bool := let d := (b - a).toNat; decide (1 ≤ d ∧ d < 2 ^ 31)
/-- R171: xidrd. -/
def execXidrd (rd : Reg) (k : BitVec 2) (s : State) : Res := s.giveS rd (s.xidNow k)
/-- R171: xidwt. -/
def execXidwt (ra : Reg) (k : BitVec 2) (s : State) : Res :=
  let id := s.s ra
  if ¬ s.chunkEmpty then .next (s.endChunk .run)
  else if idBefore (s.xidNow k) id then .next (s.trap 0x0E id 0)
  else
    let done := s.ctx.xidc[k.toNat]'(by omega)
    if id = done ∨ idBefore id done then .next ((s.catchUp s.cur).retire 1) else .next (s.waitOn (.transfer k id))

end Sys2Proof.Machine
end

