-- ==== Sys2Proof/Machine/Sys.lean ====
section
/-! DEFINITION. Control registers (R263, R271, R272), the FENCE group (R133, R234, R238, R239, R273) and the TRAPS group but for
images (R268–R270, R280). -/

namespace Sys2Proof.Machine

/-! ## Control registers (R271, R272) -/

/-- STATUS (R263). -/
def State.statusWord (s : State) : Word :=
  (0 : BitVec 25) ++ BitVec.ofNat 2 s.ctx.slot ++ BitVec.ofBool s.ctx.prot ++ BitVec.ofBool s.fir.window ++ BitVec.ofBool s.prog.sqt
    ++ BitVec.ofBool s.fir.inTrap ++ BitVec.ofBool s.fir.high
/-- PARSTAT (R138). -/
def Core.parstat (k : Core) : Word :=
  BitVec.ofNat 32 ((List.range 4).foldl (fun a g =>
    a + (match look k.degraded g with
      | some b => 2 ^ (16 + g) + b % 4 * 2 ^ (8 + 2 * g)
      | none => 0) + (if k.stale.any (·.2 = g) then 2 ^ (4 + g) else 0)) 0)
/-- Matrix commands of the running context that earlier instructions pushed, held ones included, and have not completed (R102). -/
def State.matrixBusy (s : State) : Bool := !s.commands.isEmpty
/-- The count MSEQ reads (R98). -/
def State.mseqNow (s : State) : Word :=
  s.ctx.mseq + BitVec.ofNat 32 (s.chunk.held.filter fun h => match h with
    | .mcmd _ => true
    | _ => false).length
/-- The value of a control register; none where R272 lists none. -/
def State.csr (s : State) (n : BitVec 12) : Option Word :=
  let i := n.toNat
  if 0x020 ≤ i ∧ i < 0x030 then some (vget s.prog.po (i - 0x020) 0)
  else if 0x04C ≤ i ∧ i < 0x050 then some (vget s.regs.j (i - 0x04C) 0)
  else if 0x060 ≤ i ∧ i < 0x064 then some (vget s.ctx.xidc (i - 0x060) 0)
  else match i with
  | 0x000 => some s.statusWord
  | 0x001 => some s.trapRegs.cause
  | 0x002 => some s.trapRegs.tvall
  | 0x003 => some s.trapRegs.tvalh
  | 0x004 => some s.prog.tepc
  | 0x005 => some s.prog.tvec
  | 0x008 => some s.prog.wdog
  | 0x009 => some (BitVec.ofNat 32 (min s.fir.wdcnt 0xFFFFFF))
  | 0x00A => some (s.prog.rqlim.setWidth 32)
  | 0x010 => some (s.prog.frm.setWidth 32)
  | 0x011 => some (s.prog.fflags.setWidth 32)
  | 0x012 => some s.prog.seed
  | 0x030 => some s.ctx.qstat
  | 0x031 => some s.mseqNow
  | 0x040 => some s.core.clsmsk
  | 0x048 => some s.regs.l0.count
  | 0x049 => some s.regs.l1.count
  | 0x050 => some (s.ctx.id.setWidth 32)
  | 0x051 => some (BitVec.ofNat 32 s.ctx.slot)
  | 0x052 => some ((s.tileAt s.tile).ter.setWidth 32)
  | 0x053 => some (BitVec.ofNat 32 (64 * dieOf s.cur + s.tile))
  | 0x054 => some ((coord s.cur).setWidth 32)
  | 0x070 => some s.core.parstat
  | 0x071 => some s.core.errcnt
  | 0x080 => some (lo32 s.cycle)
  | 0x081 => some (hi32 s.cycle)
  | _ => none
/-- Registers that a csrw, csrs or csrc may not name; ERRCNT takes csrc alone (R138, R272). -/
def csrReadOnly (n : BitVec 12) (op : BitVec 2) : Bool :=
  let i := n.toNat
  [0x001, 0x002, 0x003, 0x009, 0x031, 0x048, 0x049, 0x050, 0x051, 0x052, 0x053, 0x054, 0x060, 0x061, 0x062, 0x063, 0x070, 0x080, 0x081].contains i
    || (i == 0x071 && op != 3)
/-- The value that an operation makes of an old value (R271): 1 write, 2 set, 3 clear. -/
def csrNew (op : BitVec 2) (old v : Word) : Word := if op = 1 then v else if op = 2 then old ||| v else old &&& ~~~v
/-- The value that a matrix register keeps of a write (R5, R101). -/
def matrixKeep (n : Nat) (old v : Word) : Word :=
  if n = 0x020 ∨ n = 0x021 then v &&& 0xF
  else if n = 0x02A then v &&& 0xFFFF
  else if n = 0x02B then v &&& 0x107
  else if n = 0x02D then
    let v := v &&& 0x9F001FFF
    if (v.extractLsb' 24 5).toNat < 20 then v else (v &&& 0x80001FFF) ||| (old &&& 0x1F000000)
  else v
/-- Install a value under a register's own rules (R5, R94, R185, R189, R212, R263). -/
def State.csrPut (s : State) (n : BitVec 12) (v : Word) : State :=
  let p := s.prog
  let i := n.toNat
  if 0x04C ≤ i ∧ i < 0x050 then s.setRegs { s.regs with j := vset s.regs.j (i - 0x04C) v }
  else match i with
  | 0x000 => s.setProg { p with sqt := v.getLsbD 2 }
  | 0x004 => s.setProg { p with tepc := v &&& 0xFFFFFC }
  | 0x005 => s.setProg { p with tvec := v &&& 0xFFFFFC }
  | 0x008 => if v &&& 0xFFFFFF = 0 then s else s.setProg { p with wdog := v &&& 0xFFFFFF }
  | 0x00A =>
    let r : BitVec 5 := v.setWidth 5
    if r = 0 ∨ 16 < r.toNat then s else s.setProg { p with rqlim := r }
  | 0x010 =>
    let r : BitVec 3 := v.setWidth 3
    if 4 < r.toNat then s else s.setProg { p with frm := r }
  | 0x011 => s.setProg { p with fflags := v.setWidth 5 }
  | 0x012 => s.setProg { p with seed := v }
  | 0x071 =>
    let s := s.setChunk { s.chunk with erased := errSum s.chunk.erased (s.core.errcnt - v) }
    { s with core := { s.core with errcnt := v } }
  | _ => s
/-- ILLOP of a SYS form: TVALL holds the instruction word (R271). -/
def State.trapSys (s : State) (op : BitVec 2) (rd ra : Reg) (n : BitVec 12) : Res :=
  .next (s.trap 0x01 ((s.codeWord s.pc.toNat).getD ((0x2C : BitVec 6) ++ rd ++ ra ++ op ++ n)) 0)
/-- csrw, csrs and csrc (R271), the queued registers (R102) and CLSMSK (R201) included. One that reads QSTAT is a blocking operation (R102). -/
def State.csrWrite (s : State) (op : BitVec 2) (rd ra : Reg) (n : BitVec 12) : Res :=
  match s.csr n with
  | none => s.trapSys op rd ra n
  | some old =>
    let v := s.s ra
    if csrReadOnly n op then s.trapSys op rd ra n
    else if n = 0x030 then
      if rd ≠ 0 ∧ ¬ s.chunkEmpty then .next (s.endChunk .run)
      else if rd ≠ 0 ∧ s.matrixBusy then .next (s.waitOn .matrixDrain) else s.pushMatrix (fun s => s.setS rd old) (.csr n op v) 1
    else if 0x020 ≤ n.toNat ∧ n.toNat < 0x030 then
      let new := matrixKeep n.toNat old (csrNew op old v)
      s.pushMatrix (fun s => (s.setProg { s.prog with po := vset s.prog.po (n.toNat - 0x020) new }).setS rd old) (.csr n 1 new) 1
    else if n = 0x040 then .next (((s.setS rd old).hold (.mask (op - 1) v s.claims)).retire 1)
    else .next (((s.csrPut n (csrNew op old v)).setS rd old).retire 1)
/-- R271: csrr; an ra field that is not zero traps ILLOP in decoding. A csrr of QSTAT waits for every earlier command (R102). -/
def execCsrr (rd : Reg) (n : BitVec 12) (s : State) : Res :=
  match s.csr n with
  | none => s.trapSys 0 rd 0 n
  | some v =>
    if n = 0x030 then
      if ¬ s.chunkEmpty then .next (s.endChunk .run)
      else if s.matrixBusy then .next (s.waitOn .matrixDrain) else s.giveS rd v
    else s.giveS rd v
/-- R271: csrw. -/
def execCsrw (rd ra : Reg) (n : BitVec 12) (s : State) : Res := s.csrWrite 1 rd ra n
/-- R271: csrs. -/
def execCsrs (rd ra : Reg) (n : BitVec 12) (s : State) : Res := s.csrWrite 2 rd ra n
/-- R271: csrc. -/
def execCsrc (rd ra : Reg) (n : BitVec 12) (s : State) : Res := s.csrWrite 3 rd ra n

/-! ## Fences (R133, R234, R238, R239) -/

/-- The packet that a step in flight carries. -/
def evPacket : Ev → Option Packet
  | .packetArrival p | .routerDrop p | .nackReceived p _ _ | .retryTimerExpiry p | .directoryLookup p _ | .directoryAnswer p _
  | .depositWrite p | .atomicStep p | .nestClaimStep p | .xredContribution p | .walkBegin p | .kendArrival p | .hpostArrival p | .stepMark p => some p
  | _ => none
/-- A step in flight is a store, deposit or atomic of core `c` to a translated address that has not been performed. -/
def evGlobal (c : Nat) (e : Ev) : Bool :=
  match e with
  | .globalStorePerformed c' _ _ _ => c' == c
  | e =>
    match evPacket e with
    | none => false
    | some p => p.src == coord c && (match p.body with
      | .deposit ea _ _ _ _ => inTrans ea.toNat
      | .atomic _ _ ea _ _ _ _ => inTrans ea.toNat
      | _ => false)
/-- What fence.d waits for (R238). -/
def State.globalBusy (s : State) (c : Nat) : Bool :=
  s.agenda.any (evGlobal c) || s.held.any (fun h => evGlobal c h.step) || (s.coreAt c).copies.any (fun t => !t.done)
/-- R273: chunk ends the chunk before itself. -/
def execChunk (s : State) : Res := if s.chunkEmpty then .next (s.retire 1) else .next (s.endChunk .run)
/-- fence.d's wait, then `k` (R238). (DEDUCED, log 18.) -/
def State.fenced (s : State) (k : State → Res) : Res :=
  if ¬ s.chunkEmpty then .next (s.endChunk .run)
  else if s.globalBusy s.cur then .next (s.waitOn .fence) else k s
/-- R238: fence.d. -/
def execFenceD (s : State) : Res := s.fenced fun s => .next (s.retire 1)
/-- Writes of core `c` to host memory that are performed and not complete on their link (R239). -/
def State.linkBusy (s : State) (c : Nat) : Bool := s.link.any (·.core = c)
/-- R239: fence.s waits as fence.d does, and for the core's writes to host memory on their link. (DEDUCED, log 18.) -/
def execFenceS (s : State) : Res :=
  s.fenced fun s => if s.linkBusy s.cur then .next (s.waitOn .link) else .next (s.retire 1)
/-- R202, R299: stepmk waits as fence.d does, reserves its request entry, sends its mark to the checkpoint controller (R317) and waits for its answer. -/
def execStepmk (s : State) : Res :=
  s.fenced fun s => s.withRequest 0 0 fun s =>
    .next ((s.issue s.cur (s.packet (coord checkpointCore) 30 false false (some false) .mark)).setStatus (.answer .mark))
/-- R234: lbsync takes a grant for an empty chunk of its own, which completes after every commit granted before it. -/
def execLbsync (s : State) : Res :=
  if ¬ s.chunkEmpty then .next (s.endChunk .run) else .next (((s.advance 1).counted).endChunk .sync)
/-- R133's checks of a range. -/
def State.psyncFault (s : State) (a n : Nat) : Option Byte :=
  match place a with
  | .own off => if s.ctx.covers off n then none else some 0x03
  | .glob c off =>
    if off + n > 0x18000 ∨ (s.coreAt c).fenced then some 0x03
    else if tileOf c ≠ s.tile then some 0x04
    else if s.foreign c off n s.ctx.id then some 0x06 else none
  | _ => some 0x03
/-- The pairs (row, group) that hold a byte of a range. -/
def pairsIn (off n : Nat) : List (Nat × Nat) := ((wordsIn off n).map fun w => (w / 16, w % 16 / 4)).dedup
/-- R133: psync. The stores of the chunk that it ends are performed first. -/
def execPsync (ra : Pair) (rb : Reg) (s : State) : Res :=
  if ¬ s.chunkEmpty then .next (s.endChunk .run) else
  let n := (s.s rb).toNat
  let a := s.d ra
  if n = 0 then .next (s.retire 1) else
  match s.psyncFault a.toNat n, scrPlace s.cur a.toNat with
  | some c, _ => .next (s.trapAt c a)
  | none, none => .next (s.trapAt 0x03 a)
  | none, some (c, off) =>
    let s := s.drain s.cur
    let ps := (pairsIn off n).filter (s.coreAt c).stale.contains
    if ps.isEmpty then .next (s.retire 1) else .next (s.waitOn (.sync c ps))

/-! ## The TRAPS group (R268–R270) -/

/-- R269: trap. -/
def execTrap (n : Reg) (s : State) : Res := .next (s.trap 0x12 (n.setWidth 32) 0)
/-- R269: brk traps BRK; in debug mode it stops the device before the next instruction instead. -/
def execBrk (n : Reg) (s : State) : Res :=
  if s.ctx.debug then .next ({ s.setCtx { s.ctx with halted := true } with atBreak := true }.retire 1)
  else .next (s.trap 0x11 (n.setWidth 32) 0)
/-- The words of the instruction at a pc (R39); where the image holds none there, a free choice (DESIGN CHOICE, log 10). -/
def State.wordsAt (s : State) (pc : Word) : Nat :=
  match s.codeWord pc.toNat with
  | some w => wordsOf w
  | none => match Config.pick s.tick % 3 with
    | 0 => 1
    | 1 => 2
    | _ => 8
/-- R269: tret. -/
def execTret (skip : Bool) (s : State) : Res :=
  if ¬ s.fir.inTrap then .next (s.trap 0x01 ((s.codeWord s.pc.toNat).getD 0) 0)
  else if ¬ s.chunkEmpty then .next (s.endChunk .run)
  else
    let pc := s.prog.tepc
    .next ((s.counted.leaveTrap (if skip then pc + BitVec.ofNat 32 (4 * s.wordsAt pc) else pc)).full)
/-- R270: prioff; its own execution does not count in the window it opens. -/
def execPrioff (s : State) : Res :=
  let t := s.retire 1
  .next (if s.fir.window then t else t.setFir { t.fir with window := true, wcount := 0 })
/-- R270: prion. -/
def execPrion (s : State) : Res :=
  let t := s.retire 1
  .next (t.setFir { t.fir with window := false })
/-- R280's checks of an argument block. -/
def State.blockFault (s : State) (va : Nat) : Option Byte :=
  if va % 64 ≠ 0 then some 0x02
  else if ¬ inTrans va then some 0x03
  else match s.leafAt s.ctx.vdev va with
  | none => some 0x05
  | some l => if l.rd && l.wr then none else some 0x06
/-- R280: fwcall sends its request to the firmware controller (R317) and waits for the answer; services 4–63 answer 0xFFFF_FFFF at once. (DEDUCED, log 55.) -/
def execFwcall (rd : Reg) (ra : Pair) (svc : Reg) (s : State) : Res :=
  let a := s.d ra
  match s.blockFault a.toNat with
  | some c => .next (s.trapAt c a)
  | none =>
    s.fenced fun s =>
      if 4 ≤ svc.toNat then s.giveS rd 0xFFFFFFFF
      else .next ((s.issue s.cur (s.packet (coord firmwareCore) 30 false false none (.service a svc))).setStatus (.answer (.service rd a svc)))

end Sys2Proof.Machine
end

