-- ==== Sys2Proof/Machine/Image.lean ====
section
/-! DEFINITION. Installing a context (R15, R18, R19, R37, R204, R223, R277), saved images and their sealing (R274–R276), the save area (R277),
ctxsav and ctxrst (R278, R279). -/

namespace Sys2Proof.Machine

/-! ## Keys (R276, R293) -/

/-- The tenant handle of a virtual device; 0 for none. -/
def State.handleOf (s : State) (v : Nat) : DWord := match s.vdev v with
  | some d => d.handle
  | none => 0
/-- The key of a protected context of a virtual device. -/
def State.keyOf (s : State) (v : Nat) (id : Half) : List Byte := contextKey ((look s.tenants (s.handleOf v)).getD []) id

/-! ## Layout (R274, R275, R277) -/

/-- The image length L of R274. -/
def imageLen (size accQ slotQ : Nat) : Nat := 4480 + size + 1024 * accQ + 1600 * slotQ
def Ctx.imageLen (x : Ctx) : Nat := Machine.imageLen x.size x.accQ x.slotQ
/-- The bytes of words, first word first. -/
def wordBytes (ws : List Word) : List Byte := ws.flatMap fun w => leBytes 4 w.toNat
/-- A list of bytes padded with zeros or cut to a length. -/
def padTo (n : Nat) (bs : List Byte) : List Byte := slice bs 0 n
/-- Header bytes 0–47 with a save counter (R274). -/
def Ctx.header (x : Ctx) (counter : Nat) : List Byte :=
  leBytes 2 1 ++ leBytes 2 x.id.toNat ++ [if x.prot then 1 else 0, BitVec.ofNat 8 x.slotQ, BitVec.ofNat 8 x.accQ, 0]
    ++ leBytes 4 x.base ++ leBytes 4 x.size ++ leBytes 8 counter ++ leBytes 4 x.imageLen
    ++ leBytes 2 ((List.range 16).foldl (fun a i => a + (if (x.prog.slot i).claimed then 2 ^ i else 0)) 0) ++ [0, 0]
    ++ leBytes 8 x.save.toNat ++ leBytes 8 0
/-- A slot's tag line and image (R275). -/
def Slot.bytes (x : Slot) : List Byte :=
  padTo 64 [if x.claimed then 1 else 0, if x.full then 1 else 0, x.fmt.setWidth 8, if x.shapeB then 1 else 0] ++ padTo 1536 x.image
def Slot.ofBytes (bs : List Byte) : Slot :=
  let full := bs.getD 1 0 != 0
  ⟨bs.getD 0 0 != 0, none, full, (bs.getD 2 0).setWidth 4, bs.getD 3 0 != 0, if full then slice bs 64 1536 else []⟩
/-- v1–v63 (R275). -/
def Prog.vectors (p : Prog) : List Byte := (List.range 63).flatMap fun i => vecBytes (vget p.v (i + 1) 0) 64
def Prog.setVectors (p : Prog) (bs : List Byte) : Prog :=
  { p with v := Vector.ofFn fun i : Fin 64 => if i.val = 0 then p.v[0] else bytesVec (slice bs (64 * (i.val - 1)) 64) }
/-- Image bytes 0x40 to L − 1 (R275). -/
def Ctx.body (x : Ctx) (scratch : List Byte) : List Byte :=
  let p := x.prog
  wordBytes ([p.frm.setWidth 32 ||| (if p.sqt then 8 else 0) ||| (p.rqlim.setWidth 32 <<< 8), p.fflags.setWidth 32, p.seed, x.qstat]
      ++ p.po.toList ++ [x.mseq, p.wdog, p.tvec] ++ x.xid.toList ++ x.xidc.toList ++ [0])
    ++ p.vectors
    ++ padTo 64 (wordBytes (BitVec.ofNat 32 x.q0.length :: x.q0))
    ++ padTo 64 (leBytes 4 x.q1.length) ++ padTo 128 (x.q1.flatMap fun r => leBytes 4 r.1.toNat ++ [r.2.setWidth 8, 0, 0, 0])
    ++ scratch
    ++ ((List.range x.accQ).flatMap fun i => wordBytes (vget x.acc i (.replicate 256 0)).toList)
    ++ ((List.range x.slotQ).flatMap fun i => (p.slot i).bytes)
/-- A field of a control register as an image gives it; a value that its register does not take leaves what an installed context has there.
(DEDUCED, log 42.) -/
def fieldOr {n : Nat} (ok : Bool) (v old : BitVec n) : BitVec n := if ok then v else old
/-- A context's registers, queues, accumulators and slots as image bytes 0x40 on give them (R275); reserved bits read zero (R5). -/
def Ctx.ofBody (x : Ctx) (b : List Byte) : Ctx :=
  let w (o : Nat) : Word := BitVec.ofNat 32 (le b (o - 0x40) 4)
  let ws (o n : Nat) : Vector Word n := Vector.ofFn fun i : Fin n => w (o + 4 * i.val)
  let po : Vector Word 16 := Vector.ofFn fun i : Fin 16 => matrixKeep (0x020 + i.val) matrixReset[i.val] (w (0x50 + 4 * i.val))
  let frm := (w 0x40).extractLsb' 0 3
  let rql := (w 0x40).extractLsb' 8 5
  let wd := w 0x94 &&& 0xFFFFFF
  let accO := 0x1180 + x.size
  let slotO := accO + 1024 * x.accQ
  { x with
    prog := { ({ x.prog with
        frm := fieldOr (decide (frm.toNat ≤ 4)) frm x.prog.frm, sqt := (w 0x40).getLsbD 3
        rqlim := fieldOr (decide (1 ≤ rql.toNat ∧ rql.toNat ≤ 16)) rql x.prog.rqlim, fflags := (w 0x44).setWidth 5
        seed := w 0x48, po := po, wdog := fieldOr (wd != 0) wd x.prog.wdog, tvec := w 0x98 &&& 0xFFFFFC } : Prog).setVectors (slice b 0x80 4032) with
      slots := Vector.ofFn fun i : Fin 16 => if i.val < x.slotQ then Slot.ofBytes (slice b (slotO - 0x40 + 1600 * i.val) 1600) else .empty }
    qstat := w 0x4C, hw := po, mseq := w 0x90, xid := ws 0x9C 4, xidc := ws 0xAC 4
    q0 := (List.range (min 8 (w 0x1080).toNat)).map fun i => w (0x1084 + 4 * i)
    q1 := (List.range (min 16 (w 0x10C0).toNat)).map fun i => (w (0x1100 + 8 * i), (w (0x1104 + 8 * i)).setWidth 2)
    acc := Vector.ofFn fun i : Fin 8 => if i.val < x.accQ then ws (accO + 1024 * i.val) 256 else .replicate 256 0 }
/-- The nonce of an image (kind 0) or of a save of R277 (R276, R277). -/
def nonce (counter : Nat) (id : Half) (kind : Byte) : List Byte := leBytes 8 counter ++ leBytes 2 id.toNat ++ [kind, 0]

/-! ## Installing (R18, R19, R223, R294) -/

/-- R18's limits on a configuration's fields; the save area's are `saveOk`, which R279 and R294 count apart (DESIGN CHOICE, log 24). -/
def limitsOk (id : Half) (base size slotQ accQ : Nat) : Bool :=
  decide (id ≠ 0 ∧ base % 128 = 0 ∧ base ≤ 0x17F80 ∧ size % 128 = 0 ∧ 128 ≤ size ∧ size ≤ 98304 ∧ base + size ≤ 0x18000 ∧ slotQ ≤ 16 ∧ accQ ≤ 8)
/-- Every page of a translated range lies in HBM that the virtual device owns (R293), or outside HBM (R291); `fuel` bounds its 64 KiB pages. -/
def State.rangeOwned (s : State) (v : Nat) : Nat → Nat → Nat → Bool
  | 0, _, _ => true
  | fuel + 1, va, n =>
    if n = 0 then true else
    let room := 0x10000 - va % 0x10000
    (match s.leafAt v va with
      | none => false
      | some l => l.target != 0 || s.ownerOfPage ((l.pa.toNat + (va - l.va.toNat)) / 0x10000) == some v)
    && (decide (n ≤ room) || s.rangeOwned v fuel (va + room) (n - room))
/-- The save area's checks at install: translated, 64-byte aligned, mapped readable and writable, and owned (R18). (DESIGN CHOICE, log 24.) -/
def State.saveOk (s : State) (v : Nat) (save : DWord) (len : Nat) : Bool :=
  decide (save.toNat % 64 = 0) && inTrans save.toNat && inTrans (save.toNat + len - 1)
    && (s.rangeFault v true true (len / 0x10000 + 2) save.toNat len).isNone && s.rangeOwned v (len / 0x10000 + 2) save.toNat len
/-- The bytes of a context's save area (R18, R277). -/
def Ctx.saveLen (x : Ctx) : Nat := x.imageLen + 9344
/-- A translated range of a virtual device meets the save area of an installed context of it, which is pinned (R18). -/
def State.pinned (s : State) (v va n : Nat) : Bool :=
  let hit (x : Ctx) : Bool := x.vdev == v && decide (va < x.save.toNat + x.saveLen ∧ x.save.toNat < va + n)
  (s.cores.any fun e => e.2.ctxs.any hit) || s.swapped.any fun w => hit w.ctx
/-- Handler classes lie in 0–19, each once, and an actor names at least one end of q4–q15 with a count of 1 to 4,096 (R18, R35). -/
def classesOk (cs : List (BitVec 5 × Handler)) : Bool :=
  decide ((cs.map (·.1)).Nodup) && cs.all fun e => decide (e.1.toNat < 20) &&
    (!e.2.actor || (!e.2.terms.isEmpty && e.2.terms.all fun t => decide (4 ≤ t.1.toNat ∧ 1 ≤ t.2.2 ∧ t.2.2 ≤ 4096)))
/-- The lowest free context slot of a core. -/
def Core.freeSlot (k : Core) : Option Nat := (List.range 4).find? fun i => !(k.ctxs.any fun x => x.slot = i)
/-- The lowest-numbered reason of R294 that an install of a configuration on a core breaks; 1 also where a class is declared twice, or an actor has no term,
a queue below q4 or a count outside 1–4,096, for which R35 has assembly rules alone. (DESIGN CHOICE, log 24.) -/
def State.installFault (s : State) (c : Nat) (g : CtxConfig) (v : Nat) (ter : BitVec 6) : Option Nat :=
  let k := s.coreAt c
  let xs := k.ctxs
  if ¬ limitsOk g.id g.base g.size g.slotQ g.accQ ∨ ¬ classesOk g.classes then some 1
  else if xs.any (fun x => decide (g.base < x.base + x.size ∧ x.base < g.base + g.size))
      ∨ 16 < g.slotQ + (xs.map (·.slotQ)).sum ∨ 8 < g.accQ + (xs.map (·.accQ)).sum then some 2
  else if g.classes.any fun e => (look k.handlers e.1).isSome then some 3
  else if k.freeSlot = none then some 4
  else if 262144 < g.codeLen then some 6
  else if g.prot ∧ s.handleOf v = 0 then some 7
  else if ¬ s.saveOk v g.save (imageLen g.size g.accQ g.slotQ + 9344) then some 8
  else if (s.tileAt (tileOf c)).ter = 0 ∨ (s.tileAt (tileOf c)).ter ≠ ter then some 11
  else none
/-- The context of a configuration as it starts (R15). -/
def CtxConfig.ctx (g : CtxConfig) (launch : Word) (v : Nat) (block : DWord) : Ctx :=
  { Ctx.none with
    id := g.id, launch := launch, vdev := v, prot := g.prot, base := g.base, size := g.size, slotQ := g.slotQ, accQ := g.accQ
    save := g.save, block := block, code := List.replicate g.codeLen 0, codeKey := g.codeKey
    upcls := (List.range 20).findSome? fun i =>
      match look g.classes (BitVec.ofNat 5 i) with
      | some h => if h.kind = 2 then some (BitVec.ofNat 5 i) else none
      | none => none }
/-- Grant a protected context a range of 65,536 switch counts above every count granted before (R277). -/
def State.grantCounts (s : State) (c slot : Nat) : State :=
  match (s.coreAt c).ctxs.find? (·.slot = slot) with
  | none => s
  | some x =>
    if ¬ x.prot then s else
    let h := s.handleOf x.vdev
    let n := (look2 s.switchN h x.id).getD 0
    { (s.onCore c fun k => k.onCtx slot fun x => { x with switches := n, granted := n + 65536 }) with switchN := upd2 s.switchN h x.id (n + 65536) }
/-- Pairs of core `c` have been fresh: no psync waits for them any longer (R133). -/
def State.freshenBy (s : State) (c : Nat) (f : Nat × Nat → Bool) : State :=
  (tileCores (tileOf c)).foldl (fun s d => match (s.coreAt d).status with
    | .waiting (.sync e ps) => if e = c ∧ ps.any f then s.onCore d fun k => { k with status := .waiting (.sync e (ps.filter fun p => !f p)) } else s
    | _ => s) s
/-- Row of a scratchpad that a range of whole rows covers. -/
def inRows (off n row : Nat) : Bool := decide (off / 128 ≤ row) && decide (row < (off + n) / 128)
/-- Whole rows are written with their parity (R9, R129, R135): nothing in them is stale, poisoned or wrong. -/
def Core.writeRows (k : Core) (off n : Nat) (bs : List Byte) : Core :=
  { k with
    mem := (k.mem.clear off n).write off (bs.take n)
    stale := k.stale.filter fun p => !inRows off n p.1
    poison := k.poison.filter fun w => !inRows off n (w / 16)
    flips := k.flips.filter fun f => !inRows off n f.row
    fixes := k.fixes.filter fun f => !inRows off n f.2 }
/-- Install a context on a core (R15, R18, R177, R204, R223): the lowest free slot, its scratchpad image with fresh parity, its handler
entries, barriers of a core without contexts, and its directory record. The tile's store gives up an image that it holds for the context's ID, unless a
context of that ID is resident in the tile: those share what the store and a core's cache hold for the ID. (DESIGN CHOICE, log 75.) -/
def State.install (s : State) (c : Nat) (x : Ctx) (classes : List (BitVec 5 × Handler)) (data : List Byte) : State :=
  let k := s.coreAt c
  match k.freeSlot with
  | none => s
  | some n =>
    let x := { x with slot := n }
    let s := if (tileCores (tileOf c)).all fun d => ((s.coreAt d).byId x.id).isNone then s.onTile (tileOf c) fun t => { t with store := del t.store x.id } else s
    let s := s.putCore c { k.writeRows x.base x.size data with
      bars := if k.ctxs.isEmpty then [] else k.bars
      barq := if k.ctxs.isEmpty then [] else k.barq
      handlers := k.handlers ++ classes.map fun e => (e.1, { e.2 with slot := n, ctx := x.id })
      departed := k.departed.filter fun e => !(classes.any fun f => f.1 = e.1)
      cache := k.cache.filter fun l => l.1 ≠ x.id
      ctx := if k.resident then k.ctx else x
      others := if k.resident then k.others ++ [x] else k.others
      resident := true
      last := k.last && k.resident }
    let s := (s.freshenBy c fun p => inRows x.base x.size p.1).grantCounts c n
    let s := { s with lost := s.lost.filter fun e => e.1 ≠ (s.terOf c, x.id) }
    match s.homeOf (s.tileAt (tileOf c)).ter with
    | none => s
    | some h => s.onTile h fun t => { t with dir := upd t.dir x.id (coord c) }

/-! ## Saves (R20, R261, R277) -/

/-- The next switch count of a resident protected context, a new range granted when the last is used up. -/
def State.nextCount (s : State) (c slot : Nat) : State × Nat :=
  match (s.coreAt c).ctxs.find? (·.slot = slot) with
  | none => (s, 0)
  | some x =>
    if ¬ x.prot then (s, 0) else
    let s := if x.switches < x.granted then s else s.grantCounts c slot
    let s := s.onCore c fun k => k.onCtx slot fun x => { x with switches := x.switches + 1 }
    (s, match (s.coreAt c).ctxs.find? (·.slot = slot) with
      | some x => x.switches
      | none => 0)
/-- The switch record at L (R277): count, kind, zeros, tag. -/
def switchRecord (count : Nat) (kind : Byte) (tag : List Byte) : List Byte := leBytes 8 count ++ padTo 8 [kind] ++ padTo 48 tag
/-- Save v1–v63 of a resident context at a switch (R20, R277). -/
def State.switchOut (s : State) (c slot : Nat) : State :=
  match (s.coreAt c).ctxs.find? (·.slot = slot) with
  | none => s
  | some x =>
    let r := s.nextCount c slot
    let s := r.1
    let l := x.imageLen
    let vs := x.prog.vectors
    let a := x.save.toNat
    let s := s.onCore c fun k => k.onCtx slot fun x => { x with saved := true }
    if x.prot then
      let hd := s.vreadNote x.vdev a 48
      let s := hd.1
      let aad := (match hd.2 with
        | .ok bs => bs
        | .error _ => []) ++ leBytes 8 r.2 ++ padTo 8 [1]
      let e := gcmSeal (s.keyOf x.vdev x.id) (nonce r.2 x.id 1) aad vs
      (s.vwriteBy c x.vdev (a + 0xC0) e.1).vwriteBy c x.vdev (a + l) (switchRecord r.2 1 e.2)
    else (s.vwriteBy c x.vdev (a + 0xC0) vs).vwriteBy c x.vdev (a + l) (switchRecord 0 1 [])
/-- Bring back v1–v63 of a context whose last save was a switch (R20, R277); none when a check fails. A context that its core has not saved since it
was installed has its registers as installed (R15). -/
def State.switchIn (s : State) (x : Ctx) : State × Option Ctx :=
  if ¬ x.saved then (s, some x) else
  let a := x.save.toNat
  match s.vreadNote x.vdev (a + x.imageLen) 64 with
  | (s, .error _) => (s, none)
  | (s, .ok rec) =>
    match s.vreadNote x.vdev (a + 0xC0) 4032 with
    | (s, .error _) => (s, none)
    | (s, .ok bs) =>
      if ¬ x.prot then (s, some { x with prog := x.prog.setVectors bs }) else
      match s.vreadNote x.vdev a 48 with
      | (s, .error _) => (s, none)
      | (s, .ok hd) =>
        let opened := if le rec 0 8 ≠ x.switches then none
          else gcmOpen (s.keyOf x.vdev x.id) (nonce x.switches x.id 1) (hd ++ slice rec 0 16) bs (slice rec 16 16)
        (s, opened.map fun vs => { x with prog := x.prog.setVectors vs })

/-! ## ctxsav and ctxrst (R278, R279) -/

/-- Copies and matrix commands of a context that have not completed, a combined xred whose completion is due among them (R278). -/
def Core.engineBusy (k : Core) (id : Half) : Bool := k.commands.any (·.ctx = id) || k.copies.any (·.ctx = id)
/-- The first 64-byte block of a translated range that memory cannot hold: its line fails lastingly (R278, R310). (DEDUCED, log 48.) -/
def State.badBlock (s : State) (v va n : Nat) : Option Nat :=
  (List.range (n / 64)).find? fun i => match s.xlate v (va + 64 * i) true with
    | .ok key => s.bad key 64
    | .error _ => false
/-- Pages that writes made since `s0` are held for (R302). -/
def State.newHeld (s s0 : State) : List Nat := ((s.held.drop s0.held.length).map (·.page)).dedup
/-- The running context's image is written whole: the counter of the current image is that of the last save (R276, R278). -/
def State.sealedImage (s : State) : State :=
  let h := s.handleOf s.ctx.vdev
  if s.ctx.prot then { s with saveE := upd2 s.saveE h s.ctx.id ((look2 s.saveN h s.ctx.id).getD 0) } else s
/-- The tag of the running context's image is written, after everything else of it, and ctxsav completes; a tag that is held is waited for (R278, R302). A header page that can no longer be written traps precisely at the tag, and E stays. -/
def State.writeTag (s : State) (tag : DWord × List Byte) : State :=
  match s.xlate s.ctx.vdev tag.1.toNat true with
  | .error e => s.trapAt e tag.1
  | .ok key =>
  if s.bad key 16 then (s.noteBad key).trapAt 0x0D tag.1 else
  let t := s.vwriteBy s.cur s.ctx.vdev tag.1.toNat tag.2
  let ps := t.newHeld s
  if ps.isEmpty then t.sealedImage.retire 1 else t.setStatus (.answer (.saved ps none))
/-- R278: ctxsav. Its writes to a page under protection are held, and it waits for them before its tag and for that (R302). -/
def execCtxsav (ra : Pair) (s : State) : Res :=
  let a := s.d ra
  let x := s.ctx
  let l := x.imageLen
  if a.toNat % 64 ≠ 0 then .next (s.trapAt 0x02 a)
  else if ¬ inTrans a.toNat ∨ ¬ inTrans (a.toNat + l - 1) then .next (s.trapAt 0x03 a)
  else match s.rangeFault x.vdev true false (l / 0x10000 + 2) a.toNat l with
  | some e => .next (s.trapAt e.1 (BitVec.ofNat 64 e.2))
  | none =>
    if ¬ s.chunkEmpty then .next (s.endChunk .run)
    else if s.core.engineBusy x.id then .next (s.waitOn .saveDrain)
    else
      let h := s.handleOf x.vdev
      let n := (look2 s.saveN h x.id).getD 0 + 1
      let cnt := if x.prot then n else 0
      let s := (if x.prot then { s with saveN := upd2 s.saveN h x.id n } else s).drain s.cur
      let r := s.scrRead s.cur x.base x.size x.id
      match r.2 with
      | none => .next (r.1.trapAt 0x0C (BitVec.ofNat 64 (8 * (s.core.badWord x.base x.size x.id s.cycle s.syn).getD 0)))
      | some sp =>
        let s := r.1
        let hd := x.header cnt
        let body := x.body sp
        let e := if x.prot then gcmSeal (s.keyOf x.vdev x.id) (nonce cnt x.id 0) hd body else (body, [])
        match s.badBlock x.vdev a.toNat l with
        | some i =>
          let t := if i = 0 then s else (s.vwriteBy s.cur x.vdev a.toNat hd).vwriteBy s.cur x.vdev (a.toNat + 64) (e.1.take (64 * (i - 1)))
          .next ((t.noteFail x.vdev (a.toNat + 64 * i) 0x0D).trapAt 0x0D (a + BitVec.ofNat 64 (64 * i)))
        | none =>
          let t := (s.vwriteBy s.cur x.vdev a.toNat hd).vwriteBy s.cur x.vdev (a.toNat + 64) e.1
          let tag := (a + 48, padTo 16 e.2)
          let ps := t.newHeld s
          if ps.isEmpty then .next (t.writeTag tag) else .next (t.setStatus (.answer (.saved ps (some tag))))
/-- The configuration that an installed launch of a virtual device declares for a context ID (R279). -/
def State.declared (s : State) (v : Nat) (id : Half) : Option CtxConfig :=
  s.launches.findSome? fun l => if l.v = v then l.ctxs.find? (·.id = id) else none
/-- R223: the old core of a context that moved gets a stub, the oldest of five evicted, and departed entries. (DEDUCED, log 46.) -/
def State.leaveStub (s : State) (id : Half) (to' : Nat) : State :=
  match s.lost.find? (·.1 = (s.terOf to', id)) with
  | none => s
  | some e =>
    let old := e.2.1
    if old = to' ∨ (s.tileAt (tileOf old)).ter ≠ (s.tileAt (tileOf to')).ter ∨ (s.tileAt (tileOf old)).xfer ≠ .none then s else
    s.onCore old fun k =>
      let st := k.stubs ++ [⟨id, e.2.2, coord to'⟩]
      { k with stubs := if st.length > 4 then st.drop 1 else st,
               departed := (List.range 20).foldl (fun d i => if e.2.2.getLsbD i then upd d (BitVec.ofNat 5 i) id else d) k.departed }
/-- R279: ctxrst. -/
def execCtxrst (ra : Pair) (s : State) : Res :=
  let a := s.d ra
  let v := s.ctx.vdev
  if a.toNat % 64 ≠ 0 then .next (s.trapAt 0x02 a)
  else if ¬ inTrans a.toNat then .next (s.trapAt 0x03 a)
  else match s.vread v a.toNat 64 with
  | .error e => .next ((s.noteFail v a.toNat e).trapAt e a)
  | .ok hd =>
    let id : Half := BitVec.ofNat 16 (le hd 2 2)
    match s.declared v id with
    | none => .next (s.trapAt 0x0A a)
    | some g =>
      let slotQ := le hd 5 1
      let accQ := le hd 6 1
      let base := le hd 8 4
      let size := le hd 12 4
      let prot := (hd.getD 4 0).getLsbD 0
      let l := le hd 24 4
      let save : DWord := BitVec.ofNat 64 (le hd 32 8)
      if le hd 0 2 ≠ 1 ∨ l ≠ imageLen size accQ slotQ ∨ ¬ limitsOk id base size slotQ accQ ∨ prot ≠ g.prot then .next (s.trapAt 0x15 a)
      else match s.rangeFault v false false (l / 0x10000 + 2) a.toNat l with
      | some e => .next (s.trapAt e.1 (BitVec.ofNat 64 e.2))
      | none =>
        if ¬ s.chunkEmpty then .next (s.endChunk .run) else
        match s.vread v (a.toNat + 64) (l - 64) with
        | .error e =>
          let bad := s.vfail v (a.toNat + 64) (l - 64)
          .next ((s.noteFail v bad e).trapAt e (BitVec.ofNat 64 bad))
        | .ok body =>
          let opened := if prot then gcmOpen (s.keyOf v id) (nonce (le hd 16 8) id 0) (slice hd 0 48) body (slice hd 48 16) else some body
          match opened with
          | none => .next (s.trapAt 0x15 a)
          | some body =>
            if prot ∧ le hd 16 8 ≠ (look2 s.saveE (s.handleOf v) id).getD 0 then .next (s.trapAt 0x16 a)
            else
              let g := { g with base := base, size := size, slotQ := slotQ, accQ := accQ, save := save }
              if s.cores.any (fun e => (e.2.byId id).isSome) ∨ (s.installFault s.cur g v (s.tileAt s.tile).ter).isSome then .next (s.trapAt 0x0A a)
              else
                let x := (g.ctx s.ctx.launch v s.ctx.block).ofBody body
                let s := s.leaveStub id s.cur
                .next ((s.install s.cur x g.classes (slice body (0x1180 - 0x40) size)).retire 1)

end Sys2Proof.Machine
end

