-- ==== Sys2Proof/Machine/Load.lean ====
section
/-! DEFINITION. Scalar and vector loads and stores (R77–R80, R125–R127), and the return of a translated load. -/

namespace Sys2Proof.Machine

/-- Read one piece of a load where it is performed (R79, R234, R237), with the chunk's held stores over it; a cause when it fails. Its bank is read
even where held stores give every byte, which R79 leaves open (DESIGN CHOICE, log 57). -/
def State.readPiece (s : State) (ea n : Nat) : State × Except Byte (List Byte) :=
  match place ea with
  | .nowhere => (s, .error 0x03)
  | .trans =>
    match s.vread s.ctx.vdev ea n with
    | .error c => (s.noteFail s.ctx.vdev (s.vfail s.ctx.vdev ea n) c, .error c)
    | .ok bs => (s, .ok (overlay s.chunk.held ea bs))
  | .own off =>
    let r := s.mirRead s.cur off n s.ctx.id
    match r.2 with
    | none => (r.1, .error 0x0C)
    | some _ => (r.1, .ok (overlay s.chunk.held ea (r.1.core.seen off n)))
  | .glob c off =>
    let r := s.mirRead c off n s.ctx.id
    match r.2 with
    | none => (r.1, .error 0x0C)
    | some bs => (r.1.noteRead ea n, .ok (overlay s.chunk.held ea bs))
/-- Read the pieces in order; the first that fails gives its cause and address. -/
def State.readPieces (s : State) : List (DWord × Nat × Nat) → State × Except (Byte × DWord) (List (Nat × List Byte))
  | [] => (s, .ok [])
  | p :: ps =>
    let r := s.readPiece p.1.toNat p.2.2
    match r.2 with
    | .error c => (r.1, .error (c, p.1))
    | .ok bs =>
      let q := r.1.readPieces ps
      match q.2 with
      | .error e => (q.1, .error e)
      | .ok l => (q.1, .ok ((p.2.1, bs) :: l))
/-- Bytes put into a vector at a byte. -/
def putBytes (v : Vec) (i : Nat) (bs : List Byte) : Vec :=
  let b := vecBytes v 64
  bytesVec (b.take i ++ bs ++ b.drop (i + bs.length))
/-- Write a load's destination (R77, R125). -/
def State.deliver (s : State) (l : LoadWait) (ps : List (Nat × List Byte)) : State :=
  let bs := (ps.headD (0, [])).2
  match l.kind with
  | .scalar sg => s.setS l.rt (if sg then BitVec.ofInt 32 (sgn (8 * bs.length) (ofBytes bs)) else BitVec.ofNat 32 (ofBytes bs))
  | .pair => s.setD (BitVec.ofNat 5 (l.rt.toNat / 2)) (BitVec.ofNat 64 (ofBytes bs))
  | .lanes => s.setV l.rt (ps.foldl (fun v p => putBytes v p.1 p.2) (s.v l.rt))
  | .bcast n m => s.setV l.rt (mergeLanes (s.v l.rt) (8 * n) (64 / n) m fun _ => ofBytes bs)
/-- Perform a load and complete it, or trap (R80). -/
def State.finishLoad (s : State) (l : LoadWait) : State :=
  let r := s.readPieces l.pieces
  match r.2 with
  | .error e => r.1.trapAt e.1 (l.tval.getD e.2)
  | .ok ps => (r.1.deliver l ps).retire 2
/-- A checked load: at once in scratchpad; over a translated address the firing waits for its data (R79). A word that a granted commit
is still to write is not read yet (R230): the load is tried again. -/
def State.load (s : State) (l : LoadWait) : Res :=
  if l.pieces.any fun p => inTrans p.1.toNat then
    .next ({ s with core := { s.core with load := some l, status := .answer .load } }.send (.translatedLoadReturn s.cur))
  else if l.pieces.any fun p => s.busy p.1.toNat p.2.2 then .next s
  else .next (s.finishLoad l)
/-- The first piece that a check fails. -/
def State.firstFault (s : State) (write : Bool) : List (DWord × Nat × Nat) → Option (Byte × DWord)
  | [] => none
  | p :: ps =>
    match s.check p.1 p.2.2 write with
    | some c => some (c, p.1)
    | none => s.firstFault write ps
/-- A scalar load of `size` bytes. -/
def State.loadS (s : State) (kind : LoadKind) (rt : Reg) (size : Nat) (base : Pair) (off : BitVec 24) (p : Option Pred) : Res :=
  if s.pred p then
    let ea := s.ea base off
    match s.check ea size false with
    | some c => .next (s.trapAt c ea)
    | none => s.load ⟨kind, rt, none, [(ea, 0, size)]⟩
  else .next (s.retire 2)
/-- Hold stores that take `entries` of the store buffer, those of a vst by rows (R127); one that would not fit ends the chunk before itself (R26). -/
def State.storeAll (s : State) (rows : Bool) (entries : Nat) (ws : List (DWord × List Byte)) : Res :=
  if s.chunk.stbuf + entries > 128 then .next (s.endChunk .run) else
  let s := ws.foldl (fun s w => s.holdStore rows w.1 w.2) s
  .next ((s.setChunk { s.chunk with stbuf := s.chunk.stbuf + entries }).retire 2)
/-- A scalar store. -/
def State.storeS (s : State) (bs : List Byte) (base : Pair) (off : BitVec 24) (p : Option Pred) : Res :=
  if s.pred p then
    let ea := s.ea base off
    match s.check ea bs.length true with
    | some c => .next (s.trapAt c ea)
    | none => s.storeAll false 1 [(ea, bs)]
  else .next (s.retire 2)

/-- R77: ldb. -/
def execLdb (rt : Reg) (base : Pair) (off : BitVec 24) (p : Option Pred) (s : State) : Res := s.loadS (.scalar true) rt 1 base off p
/-- R77: ldbn. -/
def execLdbn (rt : Reg) (base : Pair) (off : BitVec 24) (p : Option Pred) (s : State) : Res := s.loadS (.scalar false) rt 1 base off p
/-- R77: ldh. -/
def execLdh (rt : Reg) (base : Pair) (off : BitVec 24) (p : Option Pred) (s : State) : Res := s.loadS (.scalar true) rt 2 base off p
/-- R77: ldhn. -/
def execLdhn (rt : Reg) (base : Pair) (off : BitVec 24) (p : Option Pred) (s : State) : Res := s.loadS (.scalar false) rt 2 base off p
/-- R77: ldw. -/
def execLdw (rt : Reg) (base : Pair) (off : BitVec 24) (p : Option Pred) (s : State) : Res := s.loadS (.scalar false) rt 4 base off p
/-- R77: ldd. -/
def execLdd (rt : Pair) (base : Pair) (off : BitVec 24) (p : Option Pred) (s : State) : Res := s.loadS .pair (pairLo rt) 8 base off p
/-- R77: stb. -/
def execStb (rt : Reg) (base : Pair) (off : BitVec 24) (p : Option Pred) (s : State) : Res := s.storeS (leBytes 1 (s.s rt).toNat) base off p
/-- R77: sth. -/
def execSth (rt : Reg) (base : Pair) (off : BitVec 24) (p : Option Pred) (s : State) : Res := s.storeS (leBytes 2 (s.s rt).toNat) base off p
/-- R77: stw. -/
def execStw (rt : Reg) (base : Pair) (off : BitVec 24) (p : Option Pred) (s : State) : Res := s.storeS (leBytes 4 (s.s rt).toNat) base off p
/-- R77: std. -/
def execStd (rt : Pair) (base : Pair) (off : BitVec 24) (p : Option Pred) (s : State) : Res := s.storeS (leBytes 8 (s.d rt).toNat) base off p

/-! ## Vector memory (R125–R127) -/

/-- The active lanes among the first `n`. -/
def State.lanesOn (s : State) (m : MReg) (n : Nat) : List Nat := (List.range n).filter fun i => (s.m m).getLsbD i
/-- The words of 64 bytes at an address that hold these 4-byte lanes: whole where both of a word's lanes are among them (R126, R127). -/
def wordPieces (ea : DWord) (on : List Nat) : List (DWord × Nat × Nat) :=
  (List.range 8).filterMap fun k =>
    let at' (i n : Nat) : DWord × Nat × Nat := (ea + BitVec.ofNat 64 i, i, n)
    if on.contains (2 * k) then some (at' (8 * k) (if on.contains (2 * k + 1) then 8 else 4))
    else if on.contains (2 * k + 1) then some (at' (8 * k + 4) 4) else none
/-- R126: vld; lane i covers bytes A + 4i to A + 4i + 3, and a failing read reports A. -/
def execVld (vd : Reg) (base : Pair) (off : BitVec 24) (m : MReg) (p : Option Pred) (s : State) : Res :=
  let on := s.lanesOn m 16
  if s.pred p ∧ on ≠ [] then
    let ea := s.ea base off
    match s.check ea 64 false with
    | some c => .next (s.trapAt c ea)
    | none => s.load ⟨.lanes, vd, some ea, wordPieces ea on⟩
  else .next (s.retire 2)
/-- R126: vst; the bytes of inactive lanes are left unwritten. -/
def execVst (vs : Reg) (base : Pair) (off : BitVec 24) (m : MReg) (p : Option Pred) (s : State) : Res :=
  let on := s.lanesOn m 16
  if s.pred p ∧ on ≠ [] then
    let ea := s.ea base off
    match s.check ea 64 true with
    | some c => .next (s.trapAt c ea)
    | none => s.storeAll true 8 ((wordPieces ea on).map fun p => (p.1, slice (vecBytes (s.v vs) 64) p.2.1 p.2.2))
  else .next (s.retire 2)
/-- R126: vldbc reads one element and writes it to every active lane of its width. -/
def execVldbc (vd : Reg) (size : BitVec 2) (base : Pair) (off : BitVec 24) (m : MReg) (p : Option Pred) (s : State) : Res :=
  let n := 2 ^ size.toNat
  if s.pred p ∧ s.lanesOn m (64 / n) ≠ [] then
    let ea := s.ea base off
    match s.check ea n false with
    | some c => .next (s.trapAt c ea)
    | none => s.load ⟨.bcast n (s.m m), vd, none, [(ea, 0, n)]⟩
  else .next (s.retire 2)
/-- The addresses of a gather's or scatter's active lanes: A + SInt(v(I) lane i) (R126). -/
def State.laneAddrs (s : State) (dbl : Bool) (base : Pair) (off : BitVec 24) (m : MReg) (idx : Reg) : List (DWord × Nat × Nat) :=
  let n := if dbl then 8 else 4
  (s.lanesOn m (64 / n)).map fun i => (s.ea base off + BitVec.ofInt 64 (sgn (8 * n) (lane (s.v idx) (8 * n) i)), n * i, n)
/-- R126: vgath. Every lane passes R23 before one is read (DESIGN CHOICE, log 57). -/
def execVgath (vd : Reg) (dbl : Bool) (base : Pair) (off : BitVec 24) (m : MReg) (idx : Reg) (s : State) : Res :=
  let ps := s.laneAddrs dbl base off m idx
  if ps.isEmpty then .next (s.retire 2) else
  match s.firstFault false ps with
  | some e => .next (s.trapAt e.1 e.2)
  | none => s.load ⟨.lanes, vd, none, ps⟩
/-- R126: vscat stores its active lanes in ascending order; it takes one buffer entry per lane of its size (R127). -/
def execVscat (vs : Reg) (dbl : Bool) (base : Pair) (off : BitVec 24) (m : MReg) (idx : Reg) (s : State) : Res :=
  let ps := s.laneAddrs dbl base off m idx
  if ps.isEmpty then .next (s.retire 2) else
  match s.firstFault true ps with
  | some e => .next (s.trapAt e.1 e.2)
  | none => s.storeAll false (if dbl then 8 else 16) (ps.map fun p => (p.1, (slice (vecBytes (s.v vs) 64) p.2.1 p.2.2)))

/-! ## The return of a translated load (R79, R237) -/

/-- An agent's step at a core that exists. (DEDUCED, log 45.) -/
def atCore (c : Nat) (s : State) (k : State → State) : Res := if c < 8192 then .next (k s) else .fault .noSuchAgent
/-- The data of a load at an address have a way from its page's streamer to the core (class 23; R216, R220). -/
def State.dataComes (s : State) (ea : Nat) : Bool :=
  !inTrans ea || (match s.xlate s.ctx.vdev ea false with
    | .ok key => s.trip 23 (s.terOf s.cur) (streamerAt key) s.cur == .there
    | .error _ => true)
/-- R79: the data of core `c`'s translated load return; the load completes or traps. A word of it that a granted commit is still to write keeps it
waiting (R230); data that have no way are lost to the load, which goes on waiting (DEDUCED, log 55). -/
def execTranslatedLoadReturn (c : Nat) (s : State) : Res :=
  atCore c s fun s =>
    let s := s.goto c
    match s.core.load, s.core.status with
    | some l, .answer .load =>
      if l.pieces.any fun p => s.busy p.1.toNat p.2.2 then s.send (.translatedLoadReturn c) else
      if l.pieces.any fun p => !s.dataComes p.1.toNat then s else
      { s with core := { s.core with load := none, status := .running } }.finishLoad l
    | _, _ => s

end Sys2Proof.Machine
end

