-- ==== Sys2Proof/Machine/RunQueue.lean ====
section
/-! DEFINITION. The run queue (R179–R182), the firings it starts (R17, R20, R182, R183, R199), and the steps of a core's scheduling. -/

namespace Sys2Proof.Machine

/-! ## Choosing (R182) -/

/-- What R182 compares of a record: level, ready cycle, distance of its class from the pointer, kind, source row and column. -/
def Core.rank (k : Core) (r : RunRec) : Bool × Nat × Nat × Nat × Nat × Nat :=
  let dist (c : BitVec 5) : Nat := (c.toNat + 20 - k.clsptr) % 20
  let yx (x : BitVec 21) : Nat × Nat := ((x.extractLsb' 7 6).toNat, (x.extractLsb' 0 7).toNat)
  match r with
  | .fresh r =>
    let high := match look k.handlers r.cls with
      | some h => h.high
      | none => false
    (high, r.cycle.toNat, dist r.cls, r.kind.toNat, yx r.src)
  | .parked key c high cyc =>
    let f := match k.parks.find? (·.key = key) with
      | some p => p.fir
      | none => .zero
    (high, cyc.toNat, dist c, f.kind.toNat, yx f.src)
/-- A record is taken before another. -/
def ranksBefore (a b : Bool × Nat × Nat × Nat × Nat × Nat) : Bool :=
  if a.1 != b.1 then a.1 else
  let ka := [a.2.1, a.2.2.1, a.2.2.2.1, a.2.2.2.2.1, a.2.2.2.2.2]
  let kb := [b.2.1, b.2.2.1, b.2.2.2.1, b.2.2.2.2.1, b.2.2.2.2.2]
  decide (ka < kb)
/-- The index and record that R182 takes first among those that pass a test. -/
def Core.first (k : Core) (ok : RunRec → Bool) : Option (Nat × RunRec) :=
  (k.runq.zipIdx).foldl (fun b e =>
    if ok e.1 then
      match b with
      | none => some (e.2, e.1)
      | some x => if ranksBefore (k.rank e.1) (k.rank x.2) then some (e.2, e.1) else b
    else b) none
/-- The slot of the context that a record's firing belongs to. -/
def Core.slotOfRec (k : Core) : RunRec → Option Nat
  | .fresh r => (look k.handlers r.cls).map (·.slot)
  | .parked key _ _ _ => (k.parks.find? (·.key = key)).map (·.slot)
/-- The class of a record. -/
def RunRec.cls : RunRec → BitVec 5
  | .fresh r => r.cls
  | .parked _ c _ _ => c
/-- A record is a VACATE upcall's, which a tile in step 2 of a transfer still starts (R255): no other firing is parked there. -/
def RunRec.isVacate : RunRec → Bool
  | .fresh r => r.kind == 2 && r.evt &&& 0xFF == 1
  | .parked _ _ _ _ => true
/-- A virtual device's firings may start in a territory: its time-share table is empty, or it is the entry being served and its quantum has
not ended (R261). -/
def State.mayRun (s : State) (t v : Nat) : Bool :=
  match s.homeOf (s.tileAt t).ter with
  | none => true
  | some h =>
    let k := s.tileAt h
    k.times.isEmpty || (k.times.any fun e => e.idx = k.turn && e.vdev = v && decide (s.cycle.toNat < k.ends))
/-- None of these pages holds back a write (R302). -/
def State.heldFree (s : State) (pages : List Nat) : Bool := !s.held.any fun h => pages.contains h.page
/-- No write of a save area is held at its streamer, so that what is read there is what was saved (R277, R302). -/
def State.areaFree (s : State) (x : Ctx) : Bool :=
  s.held.isEmpty || (List.range (x.saveLen / 4096 + 2)).all fun i => match s.xlate x.vdev (min (x.save.toNat + 4096 * i) (x.save.toNat + x.saveLen - 1)) false with
    | .ok key => s.heldFree [pageOf key]
    | .error _ => true
/-- A record may start on a core: its context is resident, not halted, of a virtual device that may run, its saved vectors are not still on their way to
its save area (R277), and its tile is not in transfer. -/
def State.startable (s : State) (c : Nat) (r : RunRec) : Bool :=
  let k := s.coreAt c
  match k.slotOfRec r with
  | none => false
  | some n =>
    match k.ctxs.find? (·.slot = n) with
    | none => false
    | some x => !x.halted && (!x.saved || s.areaFree x) && s.mayRun (tileOf c) x.vdev && (match (s.tileAt (tileOf c)).xfer with
      | .none => true
      | .vacate _ _ _ => r.isVacate
      | _ => false)

/-! ## Starting a firing (R14, R17, R20) -/

/-- s1 of a firing (R17). -/
def headerWord (r : Ready) (pri : Bool) : Word :=
  BitVec.ofNat 32 (r.cls.toNat + 32 * (r.len - 1) + (if r.inbox = some true then 2048 else 0) + (if pri then 4096 else 0) + 8192 * r.kind.toNat)
/-- The registers of a fresh firing (R17). -/
def startRegs (x : Ctx) (h : Handler) (r : Ready) : Regs :=
  let s := ((((((Vector.replicate 64 (0 : Word)).set 1 (headerWord r (if r.kind = 0 then r.pri else h.high))).set 2 (r.src.setWidth 32)).set 3 r.evt).set 4
    (lo32 x.block)).set 5 (hi32 x.block)).set 60 (BitVec.ofNat 32 x.base)
  { Regs.zero with s := s, v0 := r.payload, pc := h.pc }
/-- Make the context in a slot the one in front, the one before it going back among the others. -/
def Core.front (k : Core) (slot : Nat) : Core :=
  if k.resident ∧ k.ctx.slot = slot then k else
  match k.others.find? (·.slot = slot) with
  | none => k
  | some x => { k with ctx := x, resident := true, others := (k.others.filter (·.slot ≠ slot)) ++ (if k.resident then [k.ctx] else []) }
/-- A context is lost at a restore (R277): removed as a dropped one, with event 0x0301 (R255). (DEDUCED, log 30.) -/
def State.dropCtx (s : State) (c : Nat) (id : Half) : State :=
  match (s.coreAt c).byId id with
  | none => s
  | some x => (s.removeCtx c id).postLaunch x.launch (event [(0, 2, 0x0301), (2, 2, id.toNat), (4, 4, (coord c).toNat), (8, 8, s.cycle.toNat)])
/-- The switch of R20 to the context in a slot: the last context to run is saved, and the incoming one's v1–v63 come back; false when it is lost. -/
def State.switchTo (s : State) (c slot : Nat) : State × Bool :=
  let k := s.coreAt c
  if k.last ∧ k.resident ∧ k.ctx.slot = slot then (s, true) else
  let s := if k.last && k.resident then s.switchOut c k.ctx.slot else s
  let s := s.onCore c fun k => k.front slot
  match s.switchIn (s.coreAt c).ctx with
  | (s, none) => (s.dropCtx c (s.coreAt c).ctx.id, false)
  | (s, some x) => (s.onCore c fun k => { k with ctx := x, last := true }, true)
/-- Take record `i` of a core's run queue and start or resume its firing, above `under` when that is a preempted one. It sees what its event acquires
(R236); it waits for the writes of its switch that are held (R277, R302). (DESIGN CHOICE, log 31.) -/
def State.begin (s : State) (c i : Nat) (r : RunRec) : State :=
  let k := s.coreAt c
  match k.slotOfRec r with
  | none => s
  | some slot =>
    let h := look k.handlers r.cls
    let q := s.onCore c fun k => { k with runq := k.runq.eraseIdx i, clsptr := (r.cls.toNat + 1) % 20 }
    let q := ((q.drain c).catchUp c).switchTo c slot
    if ¬ q.2 then q.1.refill c else
    let ps := q.1.newHeld s
    let s := q.1.onCore c fun k =>
      match r with
      | .fresh r =>
        match h with
        | none => k
        | some h => { k with serial := k.serial + 1, status := .running
                             fir := { Firing.zero with regs := startRegs k.ctx h r, cls := r.cls, high := h.high, kind := r.kind, src := r.src, serial := k.serial + 1 } }
      | .parked key _ _ _ =>
        match k.parks.find? (·.key = key) with
        | none => k
        | some p => { k with parks := k.parks.filter (·.key ≠ key), status := .running, fir := { p.fir with chunk := .fresh } }
    (if ps.isEmpty then s else s.onCore c fun k => { k with status := .answer (.switched ps) }).refill c

/-! ## Preemption, parking, the end of a firing (R183, R199) -/

/-- The wait for this answer holds the core and may be abandoned for a preemption (R183): not a stalled load (R79), and not ctxsav's writing (R278). -/
def Answer.holds : Answer → Bool
  | .atomic _ _ _ | .claim _ _ | .mark | .grant _ | .service _ _ _ | .served _ _ _ => true
  | .load | .saved _ _ | .switched _ => false

/-- A high-priority firing of the running context is due to preempt (R183). -/
def State.preemptor (s : State) (c : Nat) : Option (Nat × RunRec) :=
  let k := s.coreAt c
  if k.fir.high ∨ k.fir.window ∨ k.fir.inTrap ∨ k.under.isSome ∨ k.ctx.halted then none
  else k.first fun r => (k.rank r).1 && k.slotOfRec r == some k.ctx.slot && s.startable c r
/-- The running firing gives way to a high one of its context. -/
def State.preempt (s : State) (c : Nat) : State :=
  match s.preemptor c with
  | none => s.onCore c fun k => { k with status := .running }
  | some (i, r) => (s.onCore c fun k => { k with under := some { k.fir with chunk := .fresh } }).begin c i r
/-- The running firing goes on under a new number, so that an answer to what it asked for before finds no one; the slots it claimed stay its own. -/
def Core.renumber (k : Core) : Core :=
  let n := k.fir.serial
  let slots := k.ctx.prog.slots.map fun x => if x.holder = some n then { x with holder := some (k.serial + 1) } else x
  { k with serial := k.serial + 1, fir := { k.fir with serial := k.serial + 1 }, ctx := { k.ctx with prog := { k.ctx.prog with slots := slots } } }
/-- A wait for an answer is abandoned (R183): what has been asked for is done all the same, its answer reaches no one, and the instruction executes
again. (DEDUCED, log 25.) -/
def State.abandon (s : State) (c : Nat) : State :=
  { (s.onCore c Core.renumber) with agenda := s.agenda.filter fun e => !answersCore c e }
/-- The end of a firing (R199): its window, registers and slot records are gone, the preempted firing resumes or the core is free, and
actors are evaluated (R180). -/
def State.finish (s : State) (c : Nat) : State :=
  let s := s.onCore c fun k =>
    let n := k.fir.serial
    let freed := k.ctx.prog.slots.map fun x => if x.holder = some n then { x with holder := none } else x
    { k with
      ctx := { k.ctx with prog := { k.ctx.prog with slots := freed } }
      status := if k.under.isSome then .running else .idle
      fir := k.under.getD { Firing.zero with serial := k.fir.serial }
      under := none }
  s.actors c

/-! ## The steps of a core's scheduling -/

/-- R182: a free core takes its next record. -/
def execFiringChoose (c : Nat) (s : State) : Res :=
  atCore c s fun s =>
    if (s.coreAt c).status ≠ .idle ∨ (s.coreAt c).fenced then s else
    match (s.coreAt c).first (s.startable c) with
    | none => s
    | some (i, r) => s.begin c i r
/-- R183: a preemption due at the running firing's boundary ends its chunk first; a wait that holds the core is abandoned, but for the writing of a
ctxsav (R278), and a load that stalls is no such wait (R79). -/
def execPreemption (c : Nat) (s : State) : Res :=
  atCore c s fun s =>
    if (s.preemptor c).isNone then s else
    let t := s.goto c
    match (s.coreAt c).status with
    | .running => if t.chunkEmpty then t.preempt c else t.endChunk .preempt
    | .waiting _ => t.preempt c
    | .answer a => if a.holds then (t.abandon c).preempt c else s
    | _ => s
/-- The condition that a parked or waiting firing waits for on a queue holds (R151, R165). -/
def State.queueReady (s : State) (x : Ctx) (q : QReg) (push : Bool) : Bool :=
  match x.prog.binds.find? (·.q = q) with
  | none => true
  | some b =>
    match s.chanAt b.ch with
    | none => true
    | some k => k.suspect || b.consumer == push || (if push then decide (k.sr < k.limit) || (!k.prodXoff && !k.spilling) else decide (0 < k.occ))
/-- R151, R181: a parked firing whose condition has cleared is woken and takes its place in the run queue. -/
def execParkWake (c k : Nat) (s : State) : Res :=
  atCore c s fun s =>
    match (s.coreAt c).parks.find? (·.key = k) with
    | none => s
    | some p =>
      match (s.coreAt c).ctxs.find? (·.slot = p.slot) with
      | none => s
      | some x =>
        if p.woken ∨ ¬ s.queueReady x p.q p.push then s
        else (s.onCore c fun e => { e with parks := updFirst e.parks (·.key = k) fun p => { p with woken := true } }).enqueue c (.park k)
/-- A wait that holds the core is over. -/
def State.waitOver (s : State) (c : Nat) : WaitFor → Bool
  | .slot n => !((s.coreAt c).ctx.prog.slot n).claimed
  | .matrixRoom => decide ((s.coreAt c).commands.length < 8)
  | .matrixDrain => !((s.coreAt c).commands.any (·.ctx = (s.coreAt c).ctx.id))
  | .request => (s.goto c).requestRoom
  | .reply => (s.goto c).replyRoom
  | .copyRoom k => decide (((s.coreAt c).copies.filter fun t => t.chan == k && !t.done).length < 8)
  | .transfer k id => let d := (s.coreAt c).ctx.xidc[k.toNat]'(by omega); id == d || idBefore id d
  | .pop q => if q = 0 then !(s.coreAt c).ctx.q0.isEmpty else !(s.coreAt c).ctx.q1.isEmpty
  | .window q =>
    match (s.coreAt c).ctx.prog.binds.find? (·.q = q) with
    | none => true
    | some b => match s.chanAt b.ch with
      | none => true
      | some k => k.suspect || decide (k.out < k.f) || k.prodXoff || k.spilling
  | .parkRoom q push _ => decide ((s.coreAt c).parks.length < 8) || s.queueReady (s.coreAt c).ctx q push
  | .phase b p => ((s.coreAt c).bar b).phase != p
  | .fence => !s.globalBusy c
  | .link => !s.globalBusy c && !s.linkBusy c
  | .sync _ ps => ps.isEmpty
  | .saveDrain => !(s.coreAt c).engineBusy (s.coreAt c).ctx.id
/-- The wait of the firing on core `c` is over: its instruction executes again; psync completes (R133); a firing that was to park does (R151); a ctxsav
or fwcall whose held writes have been performed completes, a ctxsav after its tag (R278, R280), and a firing whose start switched contexts goes on (R277). (DEDUCED, log 26.) -/
def execWaitResume (c : Nat) (s : State) : Res :=
  atCore c s fun s =>
    match (s.coreAt c).status with
    | .waiting w =>
      if ¬ s.waitOver c w then s else
      let t := (s.goto c).setStatus .running
      match w with
      | .sync _ _ => t.retire 1
      | .parkRoom q push w => if s.queueReady (s.coreAt c).ctx q push then t else t.parkAs q push w
      | _ => t
    | .answer (.saved ps tag) =>
      if ¬ s.heldFree ps then s else
      let t := (s.goto c).setStatus .running
      match tag with
      | some g => t.writeTag g
      | none => t.sealedImage.retire 1
    | .answer (.switched ps) => if s.heldFree ps then s.onCore c fun k => { k with status := .running } else s
    | .answer (.served rd v ps) => if s.heldFree ps then (((s.goto c).setStatus .running).setS rd v).retire 1 else s
    | _ => s
/-- A status in which the firing is at an instruction boundary. (DEDUCED, log 25.) -/
def Status.atBoundary : Status → Bool
  | .running | .waiting _ => true
  | _ => false
/-- The running firing is inside an instruction, which waits for an answer: its next boundary has not come (R255, R269, R312). -/
def Status.inside : Status → Bool
  | .answer _ | .ending (.answer _) | .granted (.answer _) => true
  | _ => false
/-- A status in which a preemption may come (R183). -/
def Status.yields : Status → Bool
  | .running | .waiting _ => true
  | .answer a => a.holds
  | _ => false
/-- A pending deferred fault may be taken: the firing is at a boundary or in a wait that it leaves for the fault (R109, R172, R190). -/
def Core.faultDue (k : Core) : Bool := !k.ctx.faults.isEmpty && !k.fir.inTrap && k.status.atBoundary
/-- R186: the count has reached the budget; the expiry is latched. -/
def execWatchdogExpiry (c : Nat) (s : State) : Res :=
  atCore c s fun s =>
    let k := s.coreAt c
    if k.status == .idle ∨ k.fir.timeout ∨ k.fir.wdcnt < k.ctx.prog.wdog.toNat then s
    else s.onCore c fun k => { k with fir := { k.fir with timeout := true } }
/-- The oldest pending fault: of one rank order within a cycle (R266), first in the list. The unit whose fault it was takes commands again, unless
another of its faults is still pending (R109, R172); a matrix fault takes the program-order registers back to what the started writes left (R109). -/
def State.takeFault (s : State) : Option (Deferred × State) :=
  match s.ctx.faults with
  | [] => none
  | f :: fs =>
    let last := !(fs.any fun g => g.rank = f.rank)
    let x := { s.ctx with faults := fs
                          prog := if f.rank = 0 then { s.ctx.prog with po := s.ctx.hw } else s.ctx.prog
                          mdrop := if f.rank = 0 ∧ last then false else s.ctx.mdrop
                          cdrop := if 1 ≤ f.rank ∧ f.rank ≤ 4 ∧ last then s.ctx.cdrop.filter (·.toNat ≠ f.rank - 1) else s.ctx.cdrop }
    some (f, s.setCtx x)
/-- R265, R266: the trap of a chunk that has committed, the oldest pending deferred fault, or a latched watchdog expiry is taken at the
boundary. An open chunk ends first. (DEDUCED, log 25.) -/
def execTrapEntry (c : Nat) (s : State) : Res :=
  atCore c s fun s =>
    let k := s.coreAt c
    let t := s.goto c
    match k.status with
    | .entry code lo hi d => t.enterTrap code lo hi d
    | st =>
      if ¬ st.atBoundary ∨ k.ctx.halted ∨ (s.preemptor c).isSome then s
      else if k.faultDue then
        if ¬ t.chunkEmpty then t.endChunk .run else
        match t.takeFault with
        | none => s
        | some (f, t) => t.enterTrap f.code f.lo f.hi true
      else if k.fir.timeout then
        if ¬ t.chunkEmpty then t.endChunk .run
        else (t.setFir { t.fir with timeout := false }).enterTrap 0x09 t.prog.wdog 0 false
      else s
/-- Bring a line of an image into a core's configuration cache of 256 lines; a full cache gives up a line of the model's free choice (R187). (DESIGN CHOICE, log 11.) -/
def Core.cacheLine (k : Core) (id : Half) (line tick : Nat) : Core :=
  if k.cache.contains (id, line) then k
  else { k with cache := (if k.cache.length < 256 then k.cache else k.cache.eraseIdx (Config.evict tick % k.cache.length)) ++ [(id, line)] }
/-- The lines that hold the first words of `n` instructions of an image from a byte on, up to the first line that is not here: a loop's end is known
from the lengths of its body's instructions (R68). (DESIGN CHOICE, log 11.) -/
def Ctx.bodyLines (x : Ctx) (here : Nat → Bool) : Nat → Nat → List Nat
  | 0, _ => []
  | n + 1, pc =>
    if x.code.length ≤ pc then [] else
    (pc / 64) :: if here (pc / 64) then x.bodyLines here n (pc + 4 * wordsOf ((x.codeWord pc).getD 0)) else []
/-- The lines of an image that the words of an instruction at a pc lie in, of those the image has (R187), and for a loop (major 0x1B) those of its body;
what lies beyond its first word's line is known from that word. -/
def Ctx.linesAt (x : Ctx) (pc : Nat) (here : Nat → Bool) : List Nat :=
  let first := pc / 64
  let w := (x.codeWord pc).getD 0
  let body := if w.extractLsb' 26 6 = 0x1B then x.bodyLines here ((w.setWidth 8).toNat + 1) (pc + 4) else []
  if x.code.length ≤ pc then [] else
  (first :: if here first then ((pc + 4 * wordsOf w - 1) / 64) :: body else []).filter fun l => decide (64 * l < x.code.length)
/-- The line of TEPC's word, whose length a handler's tret that skips has to know (R39, R269), if its image has it. -/
def Core.skipLine (k : Core) : List Nat :=
  if ¬ k.fir.inTrap then [] else match decode ((k.ctx.code.drop k.fir.regs.pc.toNat).take 4) with
  | .ok (.tret true) _ => if k.ctx.prog.tepc.toNat < k.ctx.code.length then [k.ctx.prog.tepc.toNat / 64] else []
  | _ => []
/-- The first line that the instruction at the firing's pc needs and the core's configuration cache does not hold (R187). (DESIGN CHOICE, log 11.) -/
def Core.missing (k : Core) : Option Nat :=
  let away (l : Nat) : Bool := !k.cache.contains (k.ctx.id, l)
  match (k.ctx.linesAt k.fir.regs.pc.toNat fun l => !away l).find? away with
  | some l => some l
  | none => k.skipLine.find? away
/-- A line of an image's bytes comes into a context's code. -/
def Ctx.takeLine (x : Ctx) (img : List Byte) (line : Nat) : Ctx :=
  { x with code := (x.code.take (64 * line) ++ (img.drop (64 * line)).take 64 ++ x.code.drop (64 * line + 64)).take x.code.length }
/-- A missing line arrives at a core that waits for it, and its firing goes on. The cache knows a line by context ID and offset (R187), so that it serves
every context of that ID there. (DESIGN CHOICE, log 75.) -/
def Core.fillLine (k : Core) (img : List Byte) (tick : Nat) : Core :=
  match k.missing with
  | none => { k with status := .running }
  | some l => { (k.cacheLine k.ctx.id l tick) with
      ctx := k.ctx.takeLine img l, others := k.others.map fun x => if x.id = k.ctx.id then x.takeLine img l else x, status := .running }
/-- R187: the line that a core misses arrives from its tile's context store. -/
def execConfigCacheFill (c : Nat) (s : State) : Res :=
  atCore c s fun s =>
    let k := s.coreAt c
    if k.status ≠ .fetch then s else
    match look (s.tileAt (tileOf c)).store k.ctx.id with
    | none => s
    | some img =>
      (s.onTile (tileOf c) fun t => { t with store := del t.store k.ctx.id ++ [(k.ctx.id, img)] }).onCore c fun k => k.fillLine img s.tick
/-- The bytes of image that a store holds. -/
def storeBytes (l : List (Half × List Byte)) : Nat := (l.map fun e => e.2.length).sum
/-- R143, R187: an image enters a tile's context store of 2 MiB. The least recently used image of a context resident nowhere in the tile is
evicted first, then the least recently used of all, until there is room; `fuel` bounds the images. -/
def State.storeImage (s : State) (t : Nat) (id : Half) (img : List Byte) : Nat → List (Half × List Byte) → List (Half × List Byte)
  | 0, l => l ++ [(id, img)]
  | n + 1, l =>
    if storeBytes l + img.length ≤ 2097152 ∨ l = [] then l ++ [(id, img)] else
    match l.find? fun e => (tileCores t).all fun c => ((s.coreAt c).byId e.1).isNone with
    | some e => s.storeImage t id img n (del l e.1)
    | none => s.storeImage t id img n (l.drop 1)
/-- The lines of an image in memory that cannot be read (R310). -/
def State.badImage (s : State) (x : Ctx) : Option Nat :=
  if s.badLines.isEmpty then none else (List.range x.code.length).find? fun i => s.bad (x.codeKey + i) 1
/-- A context's image has a way from its streamer to a core (class 29; R216, R220). -/
def State.codeComes (s : State) (c : Nat) (x : Ctx) : Bool := s.way 29 (streamerAt x.codeKey) c == .there
/-- R143, R187: the fetch of the line that core `c` misses completes: the image of its context is read from memory at its streamer and enters the tile's context store; one that cannot be
read loses the context on every core of the tile, each loss posted as 0x0104 (DESIGN CHOICE, log 27). An image that has no way is lost, and the core goes on
waiting (DEDUCED, log 55). -/
def execCodeFetchComplete (c line : Nat) (s : State) : Res :=
  atCore c s fun s =>
    let k := s.coreAt c
    let t := tileOf c
    if k.status ≠ .fetch ∨ k.missing.getD line ≠ line ∨ (look (s.tileAt t).store k.ctx.id).isSome ∨ ¬ s.codeComes c k.ctx then s else
    match s.badImage k.ctx with
    | some i =>
      (tileCores t).foldl (fun s d =>
        match (s.coreAt d).byId k.ctx.id with
        | none => s
        | some x =>
          let m := (s.coreAt d).handlers.foldl (fun m e => if e.2.ctx = x.id then m ||| ((1 : Word) <<< e.1.toNat) else m) 0
          let s := (s.removeCtx d x.id).postLaunch x.launch
            (event [(0, 2, 0x0104), (2, 2, x.id.toNat), (4, 4, (coord d).toNat), (8, 4, i / 64 * 64), (16, 8, s.cycle.toNat)])
          { s with lost := s.lost.filter (·.1 ≠ (s.terOf d, x.id)) ++ [((s.terOf d, x.id), d, m)] }) (s.noteBad (k.ctx.codeKey + i))
    | none =>
      let img := s.gmem.read k.ctx.codeKey k.ctx.code.length
      let s := s.onTile t fun a => { a with store := s.storeImage t k.ctx.id img a.store.length a.store }
      s.onCore c fun k => k.fillLine img s.tick

end Sys2Proof.Machine
end

