-- ==== Sys2Proof/Machine/Channel.lean ====
section
/-! DEFINITION. The agents' steps of channels: entry to the ring, spill and refill (R148–R150, R152), and the thaw unit (R142, R153–R157). -/

namespace Sys2Proof.Machine

/-! ## Release of pushes and pops (R149, R159) -/

/-- R148, R149: a held push leaves its core: it takes its index, and goes to the ring or to the streamer. -/
def State.releasePush (s : State) (ch : BitVec 15) (spill eos : Bool) (slot : Nat) (bs : List Byte) : State :=
  match s.chanAt ch with
  | none => s
  | some k =>
    let i := k.written.toNat
    let k' := { k with written := k.written + 1, eosBit := k.eosBit || eos, marker := if eos then some i else k.marker }
    if spill then
      (s.onChan ch fun _ => { k' with sr := slot + 1, spilling := true, epBase := if slot = 0 then i else k.epBase }).send (.spillWrite ch slot k.episode eos bs)
    else (s.onChan ch fun _ => { k' with out := k.out + 1 }).send (.channelElementEnter ch i eos bs)
/-- R150: the consumer asks for a refill when its three conditions hold. -/
def State.refillRing (s : State) (ch : BitVec 15) : State :=
  match s.chanAt ch with
  | none => s
  | some k =>
    if k.refill ∨ k.head = k.tail ∨ k.on < k.occ ∨ k.entered ≠ k.epBase + k.head then s
    else (s.onChan ch fun k => { k with refill := true }).send (.refillReturn ch)
/-- A committed pop of a channel frees its slot (R159) and may send XON (R148). -/
def State.releasePop (s : State) (ch : BitVec 15) (eos : Bool) : State :=
  match s.chanAt ch with
  | none => s
  | some k =>
    let k' := { k with read := k.read + 1, eosPopped := k.eosPopped || eos }
    let x := k.xoff && k'.occ == k.on
    let s := s.onChan ch fun _ => { k' with xoff := k.xoff && !x }
    ((if x then s.send (.xonReceived ch) else s).refillRing ch).touch ch

/-! ## Ring, spill, refill -/

/-- The consumer's context is resident on its core, which takes its elements. -/
def State.consumerLives (s : State) (k : Chan) : Bool :=
  let c := s.coreAt (ofCoord k.consumer)
  !c.fenced && (c.byId k.consCtx).isSome
/-- How channel data goes from the router of core `a` to a channel's consumer (R216, R220, R222), in the name of the producer's tile. (DEDUCED, log 55.) -/
def State.dataWay (s : State) (a : Nat) (k : Chan) : Way := s.trip 24 (s.terOf (ofCoord k.producer)) a (ofCoord k.consumer)
/-- A direct element is lost on its way: its channel is suspect, and the window takes its slot back (R152). -/
def State.elementLost (s : State) (ch : BitVec 15) (cause : Byte) : State := ((s.suspect ch cause).send (.channelAckReceived ch false)).touch ch
/-- A refill's data are lost (R152). -/
def State.refillLost (s : State) (ch : BitVec 15) (cause : Byte) : State :=
  ((s.onChan ch fun k => { k with refill := false, owed := 0 }).suspect ch cause).touch ch
/-- R148, R150: direct element `idx` enters the ring after element idx − 1 and is acknowledged, with XOFF at OFF or above; an element
that cannot be delivered is lost (R152). -/
def execChannelElementEnter (ch : BitVec 15) (idx : Nat) (eos : Bool) (bytes : List Byte) (s : State) : Res :=
  .next <|
  match s.chanAt ch with
  | none => s
  | some k =>
    if k.entered ≠ idx then s
    else
    match s.dataWay (ofCoord k.producer) k with
    | .astray => s.send (.channelElementEnter ch idx eos bytes)
    | .edge => s.elementLost ch 0x13
    | .barred => s.elementLost ch 0x06
    | .there =>
    if ¬ s.consumerLives k then s.elementLost ch 0
    else
      let s := s.agentWrite (ofCoord k.consumer) (k.ring + idx % k.capacity * 2 ^ k.esize) (if eos then padTo (2 ^ k.esize) bytes else bytes) k.consCtx
      let k := { k with entered := idx + 1 }
      let x := decide (k.off ≤ k.occ)
      (((s.onChan ch fun _ => { k with xoff := k.xoff || x }).send (.channelAckReceived ch x)).refillRing ch).touch ch
/-- R148: the producer regains a window slot, and learns of XOFF. -/
def execChannelAckReceived (ch : BitVec 15) (xoff : Bool) (s : State) : Res :=
  .next ((s.onChan ch fun k => { k with out := k.out - 1, prodXoff := k.prodXoff || xoff }).touch ch)
/-- R148: XON clears xoff. -/
def execXonReceived (ch : BitVec 15) (s : State) : Res := .next ((s.onChan ch fun k => { k with prodXoff := false }).touch ch)
/-- The tail past `n` slots and the slots written ahead of it (R149); `fuel` bounds them. -/
def gapless : Nat → Nat → List Nat → Nat × List Nat
  | 0, n, l => (n, l)
  | f + 1, n, l => if l.contains n then gapless f (n + 1) (l.filter (· ≠ n)) else (n, l)
/-- The streamer writes a spilled element of a channel at its place, a new episode's first one after setting head and tail to 0 (R149). -/
def State.spillAt (s : State) (ch : BitVec 15) (slot : Nat) (episode : Bool) (bytes : List Byte) (key : Nat) : State :=
  match s.chanAt ch with
  | none => s
  | some k =>
    let s := s.gput (ofCoord k.producer) key (padTo (2 ^ k.esize) bytes)
    let k := if episode ≠ k.strEpisode then { k with head := 0, tail := 0, ahead := [], strEpisode := episode } else k
    let g := gapless (k.ahead.length + 1) k.tail (k.ahead ++ [slot])
    ((s.onChan ch fun _ => { k with tail := g.1, ahead := g.2, spillBit := true }).refillRing ch).touch ch
/-- R149: a spilled element comes to its streamer and is written; a page under protection holds it (R302); a fault makes the channel suspect (R152). -/
def execSpillWrite (ch : BitVec 15) (slot : Nat) (episode eos : Bool) (bytes : List Byte) (s : State) : Res :=
  .next <|
  match s.chanAt ch with
  | none => s
  | some k =>
    match s.way 24 (ofCoord k.producer) (streamerCore k.streamer) with
    | .astray => s.send (.spillWrite ch slot episode eos bytes)
    | .edge | .barred => (s.suspect ch 0x13).touch ch
    | .there =>
    match s.xlate k.vdev (k.spillBase.toNat + slot * 2 ^ k.esize) true with
    | .error c => (s.suspect ch c).touch ch
    | .ok key =>
      if s.isProt key then s.holdWrite (.spillWrite ch slot episode eos bytes) key bytes else s.spillAt ch slot episode bytes key
/-- The elements that a refill still returns: those it owes once it has begun (R150). -/
def Chan.toRefill (k : Chan) : Nat := if k.owed = 0 then min (k.tail - k.head) (k.off - k.occ) else k.owed
/-- R150: the next element of a refill, a message of its own (R215), enters behind what the ring holds; a refill that empties the spill makes an empty notice
due. -/
def execRefillReturn (ch : BitVec 15) (s : State) : Res :=
  .next <|
  match s.chanAt ch with
  | none => s
  | some k =>
    let n := k.toRefill
    if ¬ k.refill ∨ n = 0 then s.onChan ch fun k => { k with refill := false } else
    let z := 2 ^ k.esize
    match s.vread k.vdev (k.spillBase.toNat + k.head * z) z with
    | .error c => (s.noteFail k.vdev (s.vfail k.vdev (k.spillBase.toNat + k.head * z) z) c).refillLost ch c
    | .ok bs =>
      match s.dataWay (streamerCore k.streamer) k with
      | .astray => s.send (.refillReturn ch)
      | .edge => s.refillLost ch 0x13
      | .barred => s.refillLost ch 0x06
      | .there =>
      if ¬ s.consumerLives k then s.refillLost ch 0 else
      let s := s.agentWrite (ofCoord k.consumer) (k.ring + k.entered % k.capacity * z) bs k.consCtx
      let k := { k with head := k.head + 1, entered := k.entered + 1, owed := n - 1, refill := decide (1 < n) }
      if 1 < n then ((s.onChan ch fun _ => k).send (.refillReturn ch)).touch ch else
      let e := decide (k.head = k.tail)
      let s := s.onChan ch fun _ => { k with spillBit := !e, notice := k.notice || e }
      ((if e then s.send (.emptyNoticeSend ch) else s).refillRing ch).touch ch
/-- R150: the empty notice leaves, with the tail of the emptying. -/
def execEmptyNoticeSend (ch : BitVec 15) (s : State) : Res :=
  .next <|
  match s.chanAt ch with
  | none => s
  | some k => if ¬ k.notice then s else ((s.onChan ch fun k => { k with notice := false }).send (.emptyNoticeReceived ch k.head)).refillRing ch
/-- R150: a notice that equals the producer's reservations ends its episode. -/
def execEmptyNoticeReceived (ch : BitVec 15) (tail : Nat) (s : State) : Res :=
  .next <|
  match s.chanAt ch with
  | none => s
  | some k =>
    if ¬ k.spilling ∨ k.sr + s.heldSpills k ≠ tail then s
    else ((s.onChan ch fun k => { k with spilling := false, sr := 0, episode := !k.episode }).refillRing ch).touch ch

/-! ## The thaw unit -/

/-- A wait of a core under the park cases: the context's slot, the queue, the direction, and its count. -/
structure ChanWait where
  slot : Nat
  q : QReg
  push : Bool
  thaw : ThawWait
deriving DecidableEq, Repr

/-- The waits of a core, the one that holds it for a park record among them (R151). -/
def Core.waitsOf (k : Core) : List ChanWait :=
  (k.parks.filter (!·.woken)).map (fun p => ⟨p.slot, p.q, p.push, p.thaw⟩) ++
  (match k.status with
    | .waiting (.parkRoom q push t) => [⟨k.ctx.slot, q, push, t⟩]
    | _ => [])
/-- Change what the thaw unit keeps of a core's waits. -/
def Core.onWaits (k : Core) (t : ChanWait → Bool) (f : ThawWait → ThawWait) : Core :=
  { k with
    parks := k.parks.map fun p => if !p.woken && t ⟨p.slot, p.q, p.push, p.thaw⟩ then { p with thaw := f p.thaw } else p
    status := match k.status with
      | .waiting (.parkRoom q push w) => .waiting (.parkRoom q push (if t ⟨k.ctx.slot, q, push, w⟩ then f w else w))
      | st => st }
/-- The channel that a wait is on. -/
def State.chanOfWait (s : State) (c : Nat) (w : ChanWait) : Option Chan :=
  match (s.coreAt c).ctxs.find? (·.slot = w.slot) with
  | none => none
  | some x => (x.prog.binds.find? (·.q = w.q)).bind fun b => s.chanAt b.ch
/-- A channel is full (R142, R149). -/
def Chan.full (k : Chan) : Bool := k.spilling && k.sr == k.limit || k.prodXoff && k.limit == 0
/-- The edge of a wait (R154): its channel and the core and context it waits on. -/
def State.edge (s : State) (c : Nat) (w : ChanWait) : Option (Chan × Nat × Half) :=
  match s.chanOfWait c w with
  | none => none
  | some k =>
    if w.push then (if k.full then some (k, ofCoord k.consumer, k.consCtx) else none)
    else if k.occ = 0 ∧ k.head = k.tail ∧ ¬ k.refill ∧ ¬ k.spillBit then some (k, ofCoord k.producer, k.prodCtx) else none
/-- The wait of a context on a core: of several, the first to have begun, whether or not another firing of the context runs. (DESIGN CHOICE, log 78.) -/
def State.waitAt (s : State) (c : Nat) (id : Half) : Option ChanWait :=
  match (s.coreAt c).byId id with
  | none => none
  | some x => (s.coreAt c).waitsOf.find? (·.slot = x.slot)
/-- What a thaw unit adds to a probe at the wait `key` of core `c`: the edge, the least core, the full channel of least capacity (R155). -/
def probePass (p : Probe) (c key : Nat) (k : Chan) (full : Bool) : Probe :=
  let less := decide (cy c < p.leastY ∨ (cy c = p.leastY ∧ cx c < p.leastX))
  let cap := min (k.capacity + k.limit) (2 ^ 32 - 1)
  let better := full && (!p.full || decide (cap < p.cap ∨ (cap = p.cap ∧ k.idx.toNat < p.cand.toNat)))
  { p with leastX := if less then cx c else p.leastX, leastY := if less then cy c else p.leastY, full := p.full || full,
           cand := if better then k.idx else p.cand, cap := if better then cap else p.cap, edges := p.edges ++ [k.idx], waits := p.waits ++ [(c, key)], hops := p.hops + 1 }
/-- The wait counts of a cycle start afresh after an action on it (R142, R154). -/
def State.freshWaits (s : State) (p : Probe) : State :=
  p.waits.foldl (fun s e => s.onCore e.1 fun k => k.onWaits (·.thaw.key = e.2) fun t => { t with since := s.cycle, stamp := none }) s
/-- R157: a true deadlock is posted once while its cycle stands unchanged: the waits on it keep that it has been. -/
def State.deadlock (s : State) (p : Probe) (reason need : Nat) : State :=
  let keys := p.waits.map (·.2)
  let c := p.origin.toNat
  match (s.coreAt c).waitsOf.find? (fun w => keys.contains w.thaw.key) with
  | none => s
  | some w =>
    if w.thaw.dead.all keys.contains && keys.all w.thaw.dead.contains then s else
    let launch := match (s.coreAt c).ctxs.find? (·.slot = w.slot) with
      | some x => x.launch
      | none => 0
    let s := p.waits.foldl (fun s e => s.onCore e.1 fun k => k.onWaits (·.thaw.key = e.2) fun t => { t with dead := keys }) s
    let ids := (p.edges.take 20).map (·.toNat)
    let org := cx c + 128 * cy c + 2 ^ 13 * (p.hops % 64) + 2 ^ 19 * p.leastX
    s.postLaunch launch (event ([(0, 2, 0x0201), (2, 1, reason), (3, 1, p.edges.length), (4, 4, org), (8, 2, if reason = 0 then 0xFFFF else p.cand.toNat),
      (12, 4, need), (16, 8, s.cycle.toNat)] ++ (List.range 20).map fun i => (24 + 2 * i, 2, ids.getD i 0xFFFF)))
/-- The elements that growth adds to a limit (R142); a limit stops at 2^32 − 1, what its field of 4 bytes holds. (DESIGN CHOICE, log 77.) -/
def Chan.growth (k : Chan) : Nat := min (if k.limit = 0 then k.capacity else k.limit) (2 ^ 32 - 1 - k.limit)
/-- A growth for the same cycle of waits is on its way to the pool or back; one for another cycle is no hindrance (R155). -/
def State.growing (s : State) (p : Probe) : Bool := s.agenda.any fun e => match e with
  | .spillPoolDraw _ _ _ _ (some q) | .spillPoolAnswer _ _ _ _ _ (some q) => q.waits.all p.waits.contains && p.waits.all q.waits.contains
  | _ => false
/-- A channel's writer is parked on its full spill (R149, R155). -/
def State.writerWaits (s : State) (k : Chan) : Bool :=
  match s.waitAt (ofCoord k.producer) k.prodCtx with
  | none => false
  | some w => w.push && k.full && ((s.chanOfWait (ofCoord k.producer) w).map (·.idx) == some k.idx)
/-- A cycle is found at its origin (R142, R155): across tiles only the least core acts; a candidate whose writer no longer waits means that the
cycle has broken; a growth that is under way is the action on its cycle. -/
def State.thawAct (s : State) (p : Probe) : State :=
  let c := p.origin.toNat
  let cross := p.edges.any fun ch => match s.chanAt ch with
    | none => false
    | some k => decide (tileOf (ofCoord k.producer) ≠ tileOf c ∨ tileOf (ofCoord k.consumer) ≠ tileOf c)
  if cross ∧ ¬ (p.leastX = cx c ∧ p.leastY = cy c) then s
  else if ¬ p.full then (s.freshWaits p).deadlock p 0 0
  else
    match s.chanAt p.cand with
    | none => s
    | some k =>
      if ¬ s.writerWaits k ∨ s.growing p then s
      else s.send (.spillPoolDraw k.idx k.growth (k.growth * 2 ^ k.esize) none (some p))
/-- Follow the edges from a wait within its tile (R154, R155): at an edge that leaves the tile a probe goes on; `fuel` bounds the hops. `own` names the
reported wait while its thaw unit reads the blocked states itself; a probe (none) is discarded at a wait of its origin core with another stamp. -/
def State.thawFollow (s : State) (own : Option Nat) : Nat → Probe → Nat → ChanWait → State
  | 0, _, _, _ => s
  | n + 1, p, c, w =>
    match s.edge c w with
    | none => s
    | some (k, d, id) =>
      if 63 ≤ p.hops then s else
      let p := probePass p c w.thaw.key k (w.push && k.full)
      if tileOf d ≠ tileOf c then s.send (.thawProbe { p with at_ := BitVec.ofNat 13 d }) else
      match s.waitAt d id with
      | none => s
      | some w' =>
        match own with
        | some key => if w'.thaw.key = key then s.thawAct p else s.thawFollow own n p d w'
        | none =>
          if d = p.origin.toNat then (if w'.thaw.stamp = some p.stamp then s.thawAct p else s) else s.thawFollow none n p d w'
/-- R154: the wait `k` of core `c` reaches THAWT: it is reported once and its edge is followed. -/
def execThawReport (c k : Nat) (s : State) : Res :=
  atCore c s fun s =>
    let cfg := (s.tileAt (tileOf c)).thaw
    match (s.coreAt c).waitsOf.find? (·.thaw.key = k) with
    | none => s
    | some w =>
      if ¬ cfg.getLsbD 31 ∨ w.thaw.stamp.isSome ∨ s.cycle.toNat < w.thaw.since.toNat + (cfg &&& 0xFFFFFF).toNat then s else
      let st := lo32 s.cycle
      let s := s.onCore c fun e => e.onWaits (·.thaw.key = k) fun t => { t with stamp := some st }
      s.thawFollow (some k) 64 ⟨BitVec.ofNat 13 c, 0, cx c, cy c, false, 0, 0, st, 0, [], []⟩ c { w with thaw := { w.thaw with stamp := some st } }
/-- R155: a probe reaches the endpoint core of its last edge. -/
def execThawProbe (p : Probe) (s : State) : Res :=
  .next <|
  let c := p.at_.toNat
  if ¬ (s.tileAt (tileOf c)).thaw.getLsbD 31 then s else
  match p.edges.getLast? with
  | none => s
  | some ch =>
    match s.chanAt ch with
    | none => s
    | some k =>
      match s.waitAt c (if ofCoord k.producer = c then k.prodCtx else k.consCtx) with
      | none => s
      | some w =>
        if c = p.origin.toNat then (if w.thaw.stamp = some p.stamp then s.thawAct p else s) else s.thawFollow none 64 p c w
/-- The router that a draw comes from: the core of its chgrow, or the origin of the thaw unit's action. -/
def drawFrom (asker : Option (Nat × Nat)) (p : Option Probe) : Nat := match asker, p with
  | some c, _ => c.1
  | none, some p => p.origin.toNat
  | none, none => 0
/-- The firing that asked for a draw of this channel still waits for it. -/
def State.awaitsGrant (s : State) (ch : BitVec 15) (a : Nat × Nat) : Bool :=
  (s.coreAt a.1).fir.serial == a.2 && (s.coreAt a.1).status == Status.answer (.grant ch)
/-- The home tile's answer to a draw returns on the reply network (R317), as an answer of class 23 (R216); one that has no way is lost. (DEDUCED, log 55.) -/
def State.answerDraw (s : State) (h : Nat) (ch : BitVec 15) (elems bytes : Nat) (granted : Bool) (asker : Option (Nat × Nat)) (p : Option Probe) : State :=
  match s.trip 23 (s.tileAt h).ter (territoryCore h) (drawFrom asker p) with
  | .there | .astray => s.send (.spillPoolAnswer ch elems bytes granted asker p)
  | _ => s
/-- A draw cannot be delivered: chgrow's is a request that fails (R190), whose firing goes on; a growth's grants nothing. (DEDUCED, log 55.) -/
def State.drawFails (s : State) (ch : BitVec 15) (elems bytes : Nat) (asker : Option (Nat × Nat)) (p : Option Probe) (cause : Byte) (to' : Nat) : State :=
  match asker with
  | none => s.send (.spillPoolAnswer ch elems bytes false none p)
  | some a =>
    if ¬ s.awaitsGrant ch a then s else
    s.onCore a.1 fun k => { k with status := .running, ctx := { k.ctx with faults := k.ctx.faults ++ [⟨5, cause, (coord to').setWidth 32, k.fir.regs.pc⟩] } }
/-- R156: a draw on the pool at the territory's home tile grants its bytes whole or nothing; it goes there by a system message of class 25. -/
def execSpillPoolDraw (ch : BitVec 15) (elems bytes : Nat) (asker : Option (Nat × Nat)) (p : Option Probe) (s : State) : Res :=
  .next <|
  match s.homeOf (s.tileAt (chanTile ch)).ter, s.chanAt ch with
  | some h, some _ =>
    match s.way 25 (drawFrom asker p) (territoryCore h) with
    | .astray => s.send (.spillPoolDraw ch elems bytes asker p)
    | .edge | .barred => s.drawFails ch elems bytes asker p 0x13 (territoryCore h)
    | .there =>
      if bytes ≤ (s.tileAt h).pool.toNat then
        ((s.onTile h fun t => { t with pool := t.pool - BitVec.ofNat 64 bytes }).onChan ch fun k => { k with drawn := k.drawn + bytes }).answerDraw
          h ch elems bytes true asker p
      else s.answerDraw h ch elems bytes false asker p
  | _, _ => s.send (.spillPoolAnswer ch elems bytes false asker p)
/-- Bytes drawn for a channel return to the pool. -/
def State.undraw (s : State) (ch : BitVec 15) (bytes : Nat) : State :=
  let s := s.onChan ch fun k => { k with drawn := k.drawn - bytes }
  match s.homeOf (s.tileAt (chanTile ch)).ter with
  | none => s
  | some h => s.onTile h fun t => { t with pool := t.pool + BitVec.ofNat 64 bytes }
/-- R142, R155: growth doubles the limit in force at the answer. What was drawn for another limit, which a chgrow has changed since, goes back and the
draw is made again. The waits of the cycle start afresh. (DEDUCED, log 61.) -/
def State.grown (s : State) (ch : BitVec 15) (elems bytes : Nat) (p : Probe) : State :=
  match s.chanAt ch with
  | none => s
  | some k =>
    if k.growth = elems then (s.freshWaits p).onChan ch fun k => { k with limit := k.limit + elems, grow := min (k.grow + 1) 0xFFFF }
    else (s.undraw ch bytes).send (.spillPoolDraw ch k.growth (k.growth * 2 ^ k.esize) none (some p))
/-- R142, R155, R166: the pool's answer: growth doubles the limit then in force and counts; chgrow adds its elements and completes; a growth that is
refused is a true deadlock. -/
def execSpillPoolAnswer (ch : BitVec 15) (elems bytes : Nat) (granted : Bool) (asker : Option (Nat × Nat)) (p : Option Probe) (s : State) : Res :=
  .next <|
  let s := match granted, p with
    | true, some p => s.grown ch elems bytes p
    | true, none => s.onChan ch fun k => { k with limit := min (k.limit + elems) (2 ^ 32 - 1) }
    | false, some p => (s.freshWaits p).deadlock p 1 bytes
    | false, none => s
  let s := match asker with
    | none => s
    | some a => if s.awaitsGrant ch a then ((s.goto a.1).setStatus .running).retire 1 else s
  s.touch ch

end Sys2Proof.Machine
end

