-- ==== Sys2Proof/Machine/Commit.lean ====
section
/-! DEFINITION. The commit arbiter (R229, R230, R232), the completion of a commit and the release of its held effects (R231, R233), and the
barrier agent (R204, R206). -/

namespace Sys2Proof.Machine

/-! ## The barrier agent (R206) -/

/-- One update of a barrier, before its evaluation. -/
def Bar.update (b : Bar) : BarOp → Bar
  | .init _ e cls en l => { b with expected := e, arrivals := 0, pending := 0, cls := cls, enable := en, launch := l }
  | .arrive _ => { b with arrivals := if b.arrivals = 0xFFFF then 0xFFFF else b.arrivals + 1 }
  | .less _ n => { b with pending := b.pending - BitVec.ofNat 48 n }
  | .add _ v => { b with pending := b.pending + v.signExtend 48 }
def barOf : BarOp → BitVec 7
  | .init b _ _ _ _ => b
  | .arrive b => b
  | .less b _ => b
  | .add b _ => b
def BarOp.isInit : BarOp → Bool
  | .init _ _ _ _ _ => true
  | _ => false
/-- R206's evaluation: an advance, and the firing of an enabled one; with the pending store full, an enabled barrier is held back (R181). -/
def State.barAdvance (s : State) (c : Nat) (n : BitVec 7) : State :=
  let b := (s.coreAt c).bar n
  if ¬ (b.expected.toNat ≤ b.arrivals.toNat ∧ b.pending = 0) then s
  else if b.enable ∧ ¬ s.storeRoom c then s.onCore c fun k => { k with bars := upd k.bars n { b with held := true } }
  else
    let b' := { b with phase := !b.phase, arrivals := b.arrivals - b.expected, held := false }
    let s := s.onCore c fun k => { k with bars := upd k.bars n b' }
    if b.enable then s.localEvent c 5 b.cls (n.setWidth 32 ||| (if b'.phase then 0x80 else 0)) (coord c) [] b.launch else s
/-- The updates that reach a core's barrier agent in one cycle (R206), those that wait for this cycle's among them: each barrier's binit first, then its
arrivals and bytes, then one evaluation. -/
def State.barUpdate (s : State) (c : Nat) (us : List BarOp) : State :=
  let us := (s.coreAt c).barq ++ us
  let s := s.onCore c fun k => { k with barq := [] }
  ((us.map barOf).dedup).foldl (fun s n =>
    let mine := us.filter (barOf · = n)
    let ordered := mine.filter BarOp.isInit ++ mine.filter fun o => !BarOp.isInit o
    let b := ordered.foldl Bar.update ((s.coreAt c).bar n)
    let s := s.onCore c fun k => { k with bars := upd k.bars n b }
    if mine.any fun o => !BarOp.isInit o then s.barAdvance c n else s) s
/-- An update from another agent reaches the barrier agent, in a cycle of its own or with those that follow it (R206; DESIGN CHOICE, log 53). -/
def State.barArrive (s : State) (c : Nat) (o : BarOp) : State :=
  if Config.sameCycle s.tick then s.onCore c fun k => { k with barq := k.barq ++ [o] } else s.barUpdate c [o]
/-- R206: updates reach the barrier agent of core `c`, with those that wait for this cycle's; none of them is a barrier held back, which is evaluated
again once the pending store has room (R181). -/
def execBarrierUpdate (c : Nat) (us : List BarOp) (s : State) : Res :=
  atCore c s fun s =>
    if us.isEmpty && (s.coreAt c).barq.isEmpty then
      if s.storeRoom c then ((s.coreAt c).bars.filter (·.2.held)).foldl (fun s e =>
        if s.storeRoom c then (s.onCore c fun k => { k with bars := upd k.bars e.1 { (k.bar e.1) with held := false } }).barAdvance c e.1 else s) s
      else s
    else s.barUpdate c us

/-! ## Release (R203, R236) -/

/-- A step in flight is a deposit or an atomic step of core `c` in a scratchpad that has not been performed, diverted deposits among them. -/
def evScratch (c : Nat) (e : Ev) : Bool :=
  match evPacket e with
  | none => false
  | some p => p.src == coord c && (match p.body with
    | .deposit ea _ _ _ _ => !inTrans ea.toNat
    | .atomic _ _ ea _ _ _ _ => !inTrans ea.toNat
    | _ => false)
/-- The steps that carry release for core `c` (R203). -/
def State.evReleases (s : State) (e : Ev) : Option Nat :=
  match e with
  | .barrierUpdate c us => if us.any (fun o => match o with
      | .arrive _ => true
      | _ => false) then some c else none
  | .channelElementEnter ch _ _ _ | .spillWrite ch _ _ _ _ => (s.chanAt ch).map fun k => ofCoord k.producer
  | .walkBegin p | .kendArrival p | .hpostArrival p => some (ofCoord p.src)
  | _ => none

/-! ## The arbiter (R229, R232) -/

/-- The open chunk of a core of a tile by local index. -/
def State.chunkOf (s : State) (t l : Nat) : Chunk := (s.coreAt (coreOf t l)).fir.chunk
/-- The active solo request's local index: the head of the solo queue. -/
def Tile.soloHead (t : Tile) : Option Nat := t.solo.head?
/-- A core's request that the arbiter may take now: made before this cycle, and not kept waiting by the active solo chunk. -/
def State.grantable (s : State) (t : Nat) (r : Nat × DWord) : Bool :=
  decide (r.2.toNat < s.cycle.toNat) && ((s.tileAt t).soloHead == some r.1 || !s.soloBlocks t (s.chunkOf t r.1).wsig)
/-- An agent's request that the arbiter may take now. -/
def State.askable (s : State) (t : Nat) (a : Ask) : Bool := decide (a.since.toNat < s.cycle.toNat) && !s.soloBlocks t a.wsig

/-- A request as the arbiter sees it: its place in the pointer's order, its cycle, the signatures of its chunk, whether it is the active solo one, and the
agent's step when it is no core's. -/
structure Request where
  place : Nat
  since : DWord
  rsig : Vec
  wsig : Vec
  solo : Bool
  who : Option Asker
deriving DecidableEq, Repr

/-- Neither chunk's write signature meets the other's read or write signature. -/
def Request.conflictFree (a b : Request) : Bool := !(meets a.wsig b.rsig || meets a.wsig b.wsig || meets b.wsig a.rsig)
/-- R229's order: the active solo request, then the earliest, then by the pointer. -/
def Request.before (ptr : Nat) (a b : Request) : Bool :=
  if a.solo != b.solo then a.solo
  else if a.since ≠ b.since then decide (a.since.toNat < b.since.toNat)
  else decide ((a.place + 256 - ptr) % 256 < (b.place + 256 - ptr) % 256)
/-- The first of some requests. -/
def firstOf (ptr : Nat) (l : List Request) : Option Request := l.foldl (fun b r => match b with
  | none => some r
  | some x => if Request.before ptr r x then some r else b) none
/-- The request of core `l` of a tile, made in a cycle. -/
def State.coreRequest (s : State) (t : Nat) (r : Nat × DWord) : Request :=
  let k := s.chunkOf t r.1
  ⟨r.1, r.2, k.rsig, k.wsig, (s.tileAt t).soloHead == some r.1 && k.solo, none⟩
/-- The requests that a tile's arbiter may take in this cycle: none while an agent that it has granted has still to perform its write. (DEDUCED, log 47.) -/
def State.pending (s : State) (t : Nat) : List Request :=
  let k := s.tileAt t
  if k.asks.any (·.won) then [] else
  (k.reqs.filter (s.grantable t)).map (s.coreRequest t) ++ (k.asks.filter (s.askable t)).map fun a => ⟨a.place, a.since, a.rsig, a.wsig, false, some a.what⟩
/-- The requests that the arbiter grants in this cycle: the first in its order, and the first behind it that does not conflict with it (R229). -/
def State.winners (s : State) (t : Nat) : List Request :=
  let ptr := (s.tileAt t).ptr
  match firstOf ptr (s.pending t) with
  | none => []
  | some a => a :: (firstOf ptr ((s.pending t).filter fun r => decide (r ≠ a) && a.conflictFree r)).toList
/-- R230: a core's request is granted; its write signature squashes what it meets. Its solo chunk is the active one no longer (R232). -/
def State.grant (s : State) (t : Nat) (r : Nat × DWord) : State :=
  let c := coreOf t r.1
  let w := (s.chunkOf t r.1).wsig
  let s := s.onTile t fun k => { k with reqs := k.reqs.filter fun q => q.1 ≠ r.1, granted := k.granted ++ [r.1], ptr := (r.1 + 1) % 256,
                                        solo := k.solo.filter (· ≠ r.1) }
  let s := s.onCore c fun k => { k with status := match k.status with
    | .ending a => .granted a
    | st => st }
  s.squashMeeting t w (some c)
/-- A request is granted: a core's commit begins, an agent may perform its step (`State.agentGrant`). -/
def State.award (s : State) (t : Nat) (r : Request) : State := match r.who with
  | none => s.grant t (r.place, r.since)
  | some w => s.onTile t fun k => { k with asks := k.asks.map fun a => if a.what = w then { a with won := true } else a, ptr := (r.place + 1) % 256 }
/-- R229: the arbiter of tile `t` grants the requests of one cycle. (DEDUCED, log 47.) -/
def execCommitGrant (t : Nat) (s : State) : Res :=
  if 64 ≤ t then .fault .noSuchAgent else .next ((s.winners t).foldl (fun s r => s.award t r) s)

/-! ## The completion of a commit (R231, R233) -/

/-- Release a held store (R231, R234, R237): a global-alias one is performed at once, a private-alias one by the core's port, one at a translated
address by a step of its streamer's, each word of a vst by its own (DESIGN CHOICE, log 67). -/
def State.performStore (s : State) (c : Nat) (ea : DWord) (key : Option Nat) (bs : List Byte) (rows : Bool) (pc : Word) : State :=
  match key, place ea.toNat with
  | some k, _ => s.send (.globalStorePerformed c k bs (.store ea (s.coreAt c).ctx.id pc))
  | none, .own off => s.onCore c fun k => { k with port := k.port ++ [(off, bs, k.ctx.id, rows)] }
  | none, .glob d off => s.extWrite d off bs (s.coreAt c).ctx.id rows
  | none, _ => s
/-- Set a tile's stated demand, and its pressure (R202, R247, R252). -/
def Tile.withPress (t : Tile) : Tile :=
  { t with press := if t.size = 0 then 0 else BitVec.ofNat 16 (min 65535 (t.demand.toNat * 256 / t.size.toNat)) }
def Tile.state (t : Tile) (v : Word) : Tile :=
  if v = 0 then { t with stated := false } else { t with stated := true, demand := BitVec.ofNat 16 (min v.toNat 65535) }.withPress
/-- Count a released or discarded transfer as completed (R170): XIDC passes every ID completed beyond it. -/
def Ctx.xidDone (x : Ctx) (k : BitVec 2) (id : Word) : Ctx :=
  let n := x.xidc[k.toNat]'(by omega)
  let all := x.xdone ++ [(k, id)]
  let step (n : Word) : Nat → Word := fun fuel => (List.range fuel).foldl (fun n _ => if all.contains (k, n + 1) then n + 1 else n) n
  let n' := step n all.length
  { x with xidc := x.xidc.set k.toNat n' (by omega), xdone := all.filter fun e => e.1 ≠ k || idBefore n' e.2 }
/-- One held effect other than a store and a barrier effect leaves the core (R233). -/
def State.release (s : State) (c : Nat) : Held → State
  | .store _ _ _ _ _ | .bar _ => s
  | .packet p => s.issue c p
  | .mcmd m =>
    let s := s.onCore c fun k => { k with ctx := { k.ctx with mseq := m.seq } }
    if (s.coreAt c).ctx.mdrop then s else s.onCore c fun k => { k with entering := k.entering ++ [m] }
  | .copy t =>
    let s := s.onCore c fun k => { k with ctx := { k.ctx with xid := k.ctx.xid.set t.chan.toNat t.id (by omega) } }
    if (s.coreAt c).ctx.cdrop.contains t.chan then s.onCore c fun k => { k with ctx := k.ctx.xidDone t.chan t.id }
    else s.onCore c fun k => { k with copies := k.copies ++ [{ t with key := s.tick * 2 ^ 20 + k.copies.length + 1 }] }
  | .push ch spill eos slot bs => s.releasePush ch spill eos slot bs
  | .pop q ch eos =>
    if q = 0 then s.onCore c fun k => { k with ctx := { k.ctx with q0 := k.ctx.q0.drop 1 } }
    else if q = 1 then s.onCore c fun k => { k with ctx := { k.ctx with q1 := k.ctx.q1.drop 1 } }
    else s.releasePop ch eos
  | .bind ch consumer f off on st =>
    (s.onChan ch fun k =>
      let k := { k with bound := true, f := f, off := off, on := on, streamer := st }
      if consumer then { k with consBound := true } else { k with prodBound := true }).touch ch
  | .unbind ch consumer => (s.onChan ch fun k => if consumer then { k with consBound := false } else { k with prodBound := false }).touch ch
  | .mask op v own =>
    (s.onCore c fun k =>
      let new := csrNew (op + 1) k.clsmsk v
      { k with clsmsk := (k.clsmsk &&& ~~~own) ||| (new &&& own) }).refill c
  | .vdone => s.onCore c fun k => { k with ctx := { k.ctx with vdone := k.ctx.vdone || k.ctx.vacate } }
  | .terdem v => s.onTile (tileOf c) fun t => t.state v
/-- A push to a channel or a pop from one. -/
def Held.isElement : Held → Bool
  | .push _ _ _ _ _ => true
  | .pop q _ _ => q != 0 && q != 1
  | _ => false
/-- A binding of this end of a channel. -/
def Held.binds (ch : BitVec 15) (consumer : Bool) : Held → Bool
  | .bind c b _ _ _ _ => c == ch && b == consumer
  | _ => false
/-- R165: the effects that leave ahead of the chunk's pushes and pops, and those that do not: bindings, and an unbinding that one of the same end
follows. -/
def bindsFirst : List Held → List Held × List Held
  | [] => ([], [])
  | h :: r =>
    let q := bindsFirst r
    if (match h with
      | .bind _ _ _ _ _ _ => true
      | .unbind ch b => r.any (Held.binds ch b)
      | _ => false) then (h :: q.1, q.2) else (q.1, h :: q.2)
/-- The order in which effects leave: program order (R9), but for the bindings that go ahead of the chunk's first push or pop (R165). -/
def releaseOrder (l : List Held) : List Held :=
  let pre := l.takeWhile fun h => !h.isElement
  let q := bindsFirst (l.dropWhile fun h => !h.isElement)
  pre ++ q.1 ++ q.2
def Held.isStore : Held → Bool
  | .store _ _ _ _ _ => true
  | _ => false
/-- A held store to a scratchpad. -/
def Held.isLocal : Held → Bool
  | .store _ none _ _ _ => true
  | _ => false
def Held.isBar : Held → Bool
  | .bar _ => true
  | _ => false
/-- An arrival, which carries release (R203). -/
def BarOp.isArrive : BarOp → Bool
  | .arrive _ => true
  | _ => false
/-- The effects that are no stores leave in order. An arrival waits for the deposits and atomics that left before it
(R203); a barrier effect may reach its agent in the cycle of the next one (R206; DESIGN CHOICE, log 53). -/
def State.releaseRest (s : State) (c : Nat) : List Held → State
  | [] => s
  | .bar o :: r =>
    if BarOp.isArrive o && s.agenda.any (evScratch c) then (s.send (.barrierUpdate c [o])).releaseRest c r
    else if r.any Held.isBar && Config.sameCycle (s.tick + r.length) then (s.onCore c fun k => { k with barq := k.barq ++ [o] }).releaseRest c r
    else (s.barUpdate c [o]).releaseRest c r
  | h :: r => (s.release c h).releaseRest c r
/-- Held stores are released in program order (R231). -/
def State.performStores (s : State) (c : Nat) (held : List Held) : State :=
  held.foldl (fun s h => match h with
    | .store ea key bs rows pc => s.performStore c ea key bs rows pc
    | _ => s) s
/-- The held effects of a committed chunk leave (R231, R233): stores first, the tile's all performed (R230), then the rest. -/
def State.releaseAll (s : State) (c : Nat) (held : List Held) : State :=
  ((s.performStores c held).drain c).releaseRest c (releaseOrder (held.filter fun h => !h.isStore))
/-- The commits granted before this one whose stores meet its own are complete; an lbsync's empty chunk waits for every one (R234). -/
def State.mayComplete (s : State) (c : Nat) : Bool :=
  let t := tileOf c
  let before := (s.tileAt t).granted.takeWhile (· ≠ localOf c)
  match (s.coreAt c).status with
  | .granted .sync => before.isEmpty && !(s.tileAt t).asks.any (·.won)
  | _ => !(before.any fun l => meets (s.chunkOf t l).wsig (s.coreAt c).fir.chunk.wsig)
/-- The stores of core `c`'s granted chunk to scratchpads of the tile leave before its commit completes: those of the global alias are performed, those of
the private alias stand in the core's port until they reach their banks (R231, R234; DEDUCED, log 56). -/
def State.storesLeave (s : State) (c : Nat) : State :=
  match (s.coreAt c).status with
  | .granted _ =>
    if ¬ s.mayComplete c then s else
    (s.performStores c ((s.coreAt c).fir.chunk.held.filter Held.isLocal)).onCore c fun k =>
      { k with fir := { k.fir with chunk := { k.fir.chunk with held := k.fir.chunk.held.filter fun h => !h.isLocal } } }
  | _ => s
/-- An lbsync lets the private port see what others wrote (R234; DEDUCED, log 56). -/
def State.settlePort (s : State) (c : Nat) : After → State
  | .sync => s.catchUp c
  | _ => s
/-- What follows a completed commit (R231). -/
def State.after (s : State) (c : Nat) (a : After) : State :=
  match a with
  | .run | .sync => s.onCore c fun k => { k with status := .running }
  | .finish => s.finish c
  | .trap code lo hi d => s.onCore c fun k => { k with status := .entry code lo hi d }
  | .wait w => s.onCore c fun k => { k with status := .waiting w }
  | .park q push => ((s.goto c).setStatus .running).parkNow q push
  | .preempt => s.preempt c
  | .answer a => s.onCore c fun k => { k with status := .answer a }
/-- R230, R231: the granted chunk of core `c` has its stores performed, its other held effects leave, and the firing goes on. -/
def execCommitComplete (c : Nat) (s : State) : Res :=
  atCore c s fun s =>
    match (s.coreAt c).status with
    | .granted a =>
      if ¬ s.mayComplete c then s else
      let held := (s.coreAt c).fir.chunk.held
      let s := (s.releaseAll c held).settlePort c a
      let s := s.onTile (tileOf c) fun t => { t with granted := t.granted.filter (· ≠ localOf c) }
      let s := s.onCore c fun k => { k with fir := { k.fir with chunk := .fresh } }
      s.after c a
    | _ => s

end Sys2Proof.Machine
end

