-- ==== Sys2Proof/Machine/Mesh.lean ====
section
/-! DEFINITION. Packets: arrival and refusal (R179, R215–R222), retries (R219), stubs and the directory (R223), failures (R190), and the agents
of the destination: deposits (R194), atomics (R196, R197), claims (R74). -/

namespace Sys2Proof.Machine

/-! ## Packets (R215, R216) -/

/-- The network that a class fixes; the others, a handler class and the answer of an atomic, go on either (R216). -/
def networkOf (cls : BitVec 5) : Option Bool :=
  if cls.toNat < 20 ∨ cls = 21 then none else some (cls == 23)
/-- Mesh priority: 0 bulk, 1 request, 2 reply, 3 system (R216). Class 23 carries copy data at 0, and answers at 2. -/
def meshPri (cls : BitVec 5) (reply data : Bool) : BitVec 2 :=
  if cls.toNat < 20 then (if reply then 2 else 1)
  else match cls.toNat with
    | 20 | 22 => 1
    | 21 => if reply then 2 else 1
    | 23 => if data then 0 else 2
    | 24 | 28 | 29 => 0
    | _ => 3
/-- Payload bytes of a packet, 1–64 (R215). A system class whose payload the spec does not lay out has a free one. (DESIGN CHOICE, log 54.) -/
def Packet.payload (p : Packet) : List Byte := match p.body with
  | .message bs | .upcall _ bs | .deposit _ bs _ _ _ | .post _ bs | .contribute _ _ _ _ _ _ _ _ _ bs => bs
  | _ => (List.range ((Config.systemLength p.cls.toNat).toNat + 1)).map fun i => Config.systemByte p.cls.toNat i
def Packet.length (p : Packet) : Nat := (Packet.payload p).length
/-- Where a packet goes on its present leg, and the router it left for it (R223). -/
def Packet.to (p : Packet) : BitVec 21 := (p.via.map (·.2)).getD p.dst
def Packet.leaves (p : Packet) : Nat := (p.via.map (·.1)).getD (ofCoord p.src)
/-- The header of a packet's head flit (R215). -/
def Packet.header (p : Packet) : BitVec 128 :=
  p.launch ++ (0 : BitVec 3) ++ p.hcls ++ p.fwd ++ BitVec.ofBool p.hiPri ++ p.age ++ p.seq ++ p.ter ++ BitVec.ofNat 6 (Packet.length p - 1)
    ++ meshPri p.cls p.reply false ++ BitVec.ofBool p.reply ++ p.cls ++ (0 : BitVec 2) ++ p.src ++ (Packet.to p)
/-- Flits of a packet (R215): a head flit with 16 payload bytes, and 32 more in each body flit. -/
def Packet.flits (p : Packet) : Nat := 1 + (Packet.length p - 16 + 31) / 32
/-- Flit `k` of a packet with the sideband bits of its link (R215): 256 bits, the tag, and whether it is the tail. Payload bytes 0–15 lie in bits <255:128>
of the head flit above the header, those from 16 + 32·(k − 1) on in body flit k; bytes past the payload are zero. (DESIGN CHOICE, log 54.) -/
def Packet.flit (p : Packet) (k : Nat) : BitVec 256 × BitVec 2 × Bool :=
  let bits := if k = 0 then (Packet.header p).toNat + 2 ^ 128 * ofBytes (slice (Packet.payload p) 0 16) else ofBytes (slice (Packet.payload p) (16 + 32 * (k - 1)) 32)
  (BitVec.ofNat 256 bits, meshPri p.cls p.reply false, decide (k + 1 = Packet.flits p))

/-! ## Failures (R190) -/

/-- A deferred fault of a context on a core, behind those of the same cycle that rank before it (R266). -/
def State.defer (s : State) (c : Nat) (id : Half) (f : Deferred) : State :=
  s.onCore c fun k => k.onId id fun x => { x with faults := x.faults ++ [f] }
/-- The pool entry of a packet is freed (R188). -/
def State.freeEntry (s : State) (c : Nat) (reply : Bool) (seq : Half) : State :=
  s.onCore c fun k => { k with pool := k.pool.filter fun e => !(e.packet.reply == reply && e.seq == seq) }
/-- A diverted deposit of a matrix command is acknowledged, or has failed (R11, R108). -/
def State.divertDone (s : State) (c : Nat) (id : Half) (seq : Word) (fails : Option Byte) : State :=
  s.onCore c fun k => { k with mq := k.mq.map fun m =>
    if m.ctx = id ∧ m.seq = seq then
      { m with unacked := m.unacked - 1,
               eff := m.eff.map fun e => match fails with
                 | some code => { e with fault := some (e.fault.getD (code, m.seq, m.pc)) }
                 | none => e }
    else m }
/-- A transfer of core `c` faults (R172). -/
def State.copyFault (s : State) (c key : Nat) (code : Byte) : State :=
  s.onCore c fun e => { e with copies := e.copies.map fun t => if t.key = key ∧ t.fault = none then { t with fault := some code } else t }
/-- The firing that a request's answer belongs to still waits for it. -/
def State.awaits (s : State) (c : Nat) (p : Packet) : Bool :=
  (s.coreAt c).fir.serial == p.serial && (match (s.coreAt c).status, p.body with
    | .answer (.atomic _ _ _), .atomic _ _ _ _ _ _ _ | .answer (.claim _ _), .claim _ | .answer .mark, .mark
    | .answer (.service _ _ _), .service _ _ => true
    | _, _ => false)
/-- R190: a request that cannot have its effect is reported: precisely to a firing that waits for its answer, at its command, or deferred. One of
another package is reported there (R296). -/
def State.fails (s : State) (p : Packet) (code : Byte) : State :=
  if ¬ isLocal p.src then s else
  let c := ofCoord p.src
  let s := match p.pool with
    | some _ => s.freeEntry c p.reply p.seq
    | none => s
  let defer (lo : Word) : State := s.defer c p.ctx ⟨5, code, lo, p.pc⟩
  match p.body with
  | .atomic _ _ ea _ _ _ ret =>
    if ret then (if s.awaits c p then s.send (.atomicReturn c 0 code.toNat) else s) else defer (lo32 ea)
  | .claim _ => if s.awaits c p then s.send (.nestClaimReturn c 0 0 0 code.toNat) else s
  | .deposit ea _ _ _ m => match m with
    | some seq => s.divertDone c p.ctx seq (some code)
    | none => defer (lo32 ea)
  | .contribute _ key _ _ _ _ _ _ _ _ =>
    (s.copyFault c key code).onCore (ofCoord p.dst) fun k => { k with arrived := k.arrived.filter fun a => !(a.src = p.src && a.key = key) }
  | .start _ _ | .upcall _ _ => s
  | .mark | .service _ _ => (if s.awaits c p then s.onCore c fun k => { k with status := .running } else s).defer c p.ctx ⟨5, code, p.dst.setWidth 32, p.pc⟩
  | _ => defer (p.dst.setWidth 32)
/-- R219's actions on a NACK, which is counted in HEALTH (R310). -/
def execNackReceived (p : Packet) (reason : Nat) (hint : Half) (s : State) : Res :=
  .next <|
  let s := s.count 2
  if reason = 4 then s.fails p 0x06
  else if reason = 5 then s.fails p 0x13
  else if reason = 6 then s.send (.directoryLookup p hint)
  else if 64 ≤ p.retries then s.fails p 0x13
  else s.send (.retryTimerExpiry p)
/-- R219: the wait of a retry is over; the source's copy, which no stub has touched, leaves again, one older. -/
def execRetryTimerExpiry (p : Packet) (s : State) : Res :=
  .next (s.send (.packetArrival { p with retries := p.retries + 1, age := if p.age = 15 then 15 else p.age + 1, fwd := 0, via := none }))
/-- R219: a router drops a packet and tells its source. (DESIGN CHOICE, log 9.) -/
def execRouterDrop (p : Packet) (s : State) : Res := .next (s.send (.nackReceived p 0 0))
/-- R188, R219: an acknowledgement frees the pool entry. -/
def execAckReceived (c : Nat) (reply : Bool) (seq : Half) (s : State) : Res := atCore c s fun s => s.freeEntry c reply seq
/-- R223: the directory of the territory of the core that refused a packet is asked for a context, by a message of class 25 from the packet's source to
the home tile, and answers by one; where either has no way, the packet fails. (DEDUCED, log 55.) -/
def execDirectoryLookup (p : Packet) (id : Half) (s : State) : Res :=
  .next <|
  let c := ofCoord p.src
  match s.homeOf (s.terOf (ofCoord (Packet.to p))) with
  | none => s.send (.directoryAnswer p none)
  | some h =>
    match s.way 25 c (territoryCore h), s.way 25 (territoryCore h) c with
    | .there, .there => s.send (.directoryAnswer p (look (s.tileAt h).dir id))
    | .astray, _ => s.send (.directoryLookup p id)
    | _, _ => s.fails p 0x13
/-- R223: the packet is sent again to the coordinate the directory gives; a context it does not know fails the packet. -/
def execDirectoryAnswer (p : Packet) (at_ : Option (BitVec 21)) (s : State) : Res :=
  .next (match at_ with
    | none => s.fails p 0x13
    | some d => s.send (.packetArrival { p with dst := d, fwd := 0, via := none }))

/-! ## Arrival (R179, R222, R223, R257) -/

/-- A packet is accepted: its acknowledgement frees its pool entry. -/
def State.ack (s : State) (p : Packet) : State :=
  match p.pool with
  | some _ => if isLocal p.src then s.send (.ackReceived (ofCoord p.src) p.reply p.seq) else s
  | none => s
/-- A packet is refused. -/
def State.nack (s : State) (p : Packet) (reason : Nat) (hint : Half) : State :=
  if isLocal p.src then s.send (.nackReceived p reason hint) else s
/-- The handler class that an inbox packet is delivered under (R222). -/
def handlerClsOf (p : Packet) : BitVec 5 := match p.body with
  | .start _ _ | .upcall _ _ => p.hcls
  | _ => p.cls
/-- The ready firing of an inbox packet (R17, R179). -/
def readyOf (p : Packet) (cls : BitVec 5) (dst : Nat) (cycle : DWord) : Ready :=
  match p.body with
  | .start l arg => ⟨cls, 3, some false, false, 0, coord dst, arg, 0, l, cycle⟩
  | .upcall evt bs => ⟨cls, 2, some false, false, bs.length, p.src, evt, bytesVec bs, p.launch, cycle⟩
  | .message bs => ⟨cls, 0, some p.reply, p.hiPri, bs.length, p.src, 0, bytesVec bs, p.launch, cycle⟩
  | _ => ⟨cls, 0, some p.reply, p.hiPri, 0, p.src, 0, 0, p.launch, cycle⟩
/-- A transfer is before its step 5 (R257). -/
def Xfer.before5 : Xfer → Bool
  | .quiesce _ | .vacate _ _ _ | .drain _ => true
  | .none | .notify _ _ _ => false
/-- A class that has no entry, stub or departed context refuses a packet; a reply into a tile before step 5 of its transfer is accepted and discarded (R223, R257). -/
def State.noEntry (s : State) (c : Nat) (p : Packet) : State :=
  if (s.tileAt (tileOf c)).xfer.before5 && p.reply then s.ack p else s.nack p 3 0
/-- A VACATE upcall is delivered: the budget of step 2 starts (R255). (DEDUCED, log 36.) -/
def Tile.budgetStarts (t : Tile) (cycle : DWord) : Tile := match t.xfer with
  | .vacate d n _ => { t with xfer := .vacate d n cycle.toNat }
  | _ => t
/-- The packet carries a VACATE upcall. -/
def isVacateCall (p : Packet) : Bool := match p.body with
  | .upcall evt _ => decide (evt &&& 0xFF = 1)
  | _ => false
/-- The packet carries the LOSS upcall of tile `t`. -/
def isLossCall (t : Nat) (p : Packet) : Bool := match p.body with
  | .upcall evt _ => decide (evt &&& 0xFF = 2 ∧ (evt >>> 8) &&& 0x3F = BitVec.ofNat 32 t)
  | _ => false
/-- An inbox packet reaches core `c` (R179, R201, R222, R223, R257); a reply into a tile before step 5 of its transfer is accepted, in a slot or none. -/
def State.deliver1 (s : State) (c : Nat) (p : Packet) (cls : BitVec 5) : State :=
  let k := s.coreAt c
  let moving := (s.tileAt (tileOf c)).xfer.before5
  let vacate := isVacateCall p
  if k.fenced then s.nack p 3 0 else
  match look k.handlers cls with
  | none =>
    match k.stubs.find? fun b => b.mask.getLsbD cls.toNat with
    | some b => if 4 ≤ p.fwd.toNat then s.nack p 6 b.ctx else s.send (.packetArrival { p with fwd := p.fwd + 1, via := some (c, b.at_) })
    | none =>
      match look k.departed cls with
      | some id => if id = 0 then s.noEntry c p else s.nack p 6 id
      | none => s.noEntry c p
  | some _ =>
    if moving && !p.reply && !vacate then s.nack p 1 0
    else if ¬ p.reply ∧ k.masked cls then s.nack p 1 0
    else if (if p.reply then 8 else 24) ≤ k.inboxUsed p.reply then (if moving && p.reply then s.ack p else s.nack p 2 0)
    else
      let s := if vacate then s.onTile (tileOf c) fun t => t.budgetStarts s.cycle else s
      (s.onCore c fun k => { k with runq := k.runq ++ [.fresh (readyOf p cls c s.cycle)] }).ack p
/-- The agent of the destination that a step waits for: the deposit path, the atomic agent, the reduction agent, a dispatcher or the checkpoint
controller, at a router. -/
def agentOf : Ev → Option (Nat × BitVec 21)
  | .depositWrite p => some (0, (Packet.to p))
  | .atomicStep p | .nestClaimStep p => some (1, (Packet.to p))
  | .xredContribution p => some (2, (Packet.to p))
  | .walkBegin p | .kendArrival p | .hpostArrival p => some (3, Packet.to p)
  | .stepMark p => some (4, Packet.to p)
  | _ => none
/-- A request takes a place in its agent's buffer, or is refused with reason 2 when that is full (R181, R219). (DESIGN CHOICE, log 52.) -/
def State.toAgent (s : State) (p : Packet) (e : Ev) (accept : State → State) : State :=
  if max 1 Config.agentBuffer ≤ (s.agenda.filter fun x => agentOf x == agentOf e).length then s.nack p 2 0
  else (accept s).send e
/-- A request at a translated address, whose agent is the streamer of the page and lies in no tile. -/
def Packet.toStreamer (p : Packet) : Bool := match p.body with
  | .deposit ea _ _ _ _ | .atomic _ _ ea _ _ _ _ => inTrans ea.toNat
  | _ => false
/-- What a packet asks is taken by its inbox or its agent at core `c` (R179, R181, R222); a fenced core's barrier agent takes nothing (R137). -/
def State.accepted (s : State) (c : Nat) (p : Packet) : State :=
  match p.body with
  | .message _ | .start _ _ | .upcall _ _ => s.deliver1 c p (handlerClsOf p)
  | .deposit _ _ _ _ _ => s.toAgent p (.depositWrite p) fun s => s.ack p
  | .atomic _ _ _ _ _ _ _ => s.toAgent p (.atomicStep p) fun s => s.ack p
  | .claim _ => s.toAgent p (.nestClaimStep p) id
  | .arrive b =>
    if (s.coreAt c).fenced then s.nack p 3 0
    else if max 1 Config.agentBuffer ≤ (s.coreAt c).barq.length then s.nack p 2 0 else (s.barArrive c (.arrive b)).ack p
  | .kend _ => s.toAgent p (.kendArrival p) fun s => s.ack p
  | .post _ _ => s.toAgent p (.hpostArrival p) fun s => s.ack p
  | .walk _ _ => s.toAgent p (.walkBegin p) fun s => s.ack p
  | .mark => s.toAgent p (.stepMark p) fun s => s.ack p
  | .service _ _ => if max 1 Config.agentBuffer ≤ s.service.length then s.nack p 2 0 else { s.ack p with service := s.service ++ [p] }
  | .contribute _ _ _ _ _ _ _ _ _ _ => s.toAgent p (.xredContribution p) id
/-- R296: a packet for another package goes to the router of the port that the package route table names, and leaves there; a disabled port (R308) is no way; the far side
answers, where a request at a page of target 2 comes to the streamer that owns it.
(DESIGN CHOICE, log 19.) -/
def State.leavesPackage (s : State) (p : Packet) : State :=
  match look s.ports ((Packet.to p).extractLsb' 13 8).toNat with
  | none => s.nack p 5 0
  | some port =>
    if s.health.ports.contains port then s.nack p 5 0 else
    match s.way p.cls (Packet.leaves p) (Config.portRouter port).toNat with
    | .edge | .barred => s.nack p 5 0
    | .astray => s.send (.packetArrival p)
    | .there =>
      if Config.remoteAgrees s.tick then (if Packet.toStreamer p then s.accepted 0 p else s.ack p) else s.nack p 0 0
/-- R215–R223, R296: a packet reaches the end of its leg (one of an unpaired territory of another package is dropped), at a router of this package or past a port of it; one of another package came in at a port. -/
def execPacketArrival (p : Packet) (s : State) : Res :=
  .next <|
  if ¬ isLocal (Packet.to p) then s.leavesPackage p else
  let c := ofCoord (Packet.to p)
  let fromHere := isLocal p.src
  let first := if fromHere then Packet.leaves p else (Config.portRouter (Config.entryPort (p.src.extractLsb' 13 8).toNat)).toNat
  let way := s.way p.cls first c
  let ter : Option (BitVec 6) := if fromHere then some p.ter else
    (s.pairs.find? fun e => e.2.1 = (p.src.extractLsb' 13 8).toNat ∧ e.2.2 = p.ter.toNat).map fun e => BitVec.ofNat 6 e.1
  let crosses := !(Packet.toStreamer p) && (!fromHere || s.crosses p.cls (Packet.leaves p) c)
  match way with
  | .edge | .barred => s.nack p 5 0
  | .astray => s.send (.packetArrival p)
  | .there => if !(!fromHere && ter.isNone) && s.borderOk p.cls ter crosses c then s.accepted c p else s.nack p 4 0

/-! ## Deposits (R194) -/

/-- The trigger of a performed deposit (R11, R194). -/
def State.depositFires (s : State) (c : Nat) (trig : Option (BitVec 5)) (ea : DWord) (bs : List Byte) (p : Packet) : State :=
  match trig with
  | none => s
  | some cls => s.localEvent c 4 cls (lo32 ea) p.src bs p.launch
/-- A deposit's write is acknowledged to its command. -/
def State.depositAck (s : State) (p : Packet) (m : Option Word) : State :=
  match m with
  | some seq => s.divertDone (ofCoord p.src) p.ctx seq none
  | none => s
/-- A deposit at a translated address is performed at its place: its bytes, its trigger, its acknowledgement. -/
def State.depositAt (s : State) (p : Packet) (key : Nat) : State :=
  match p.body with
  | .deposit ea bs trig fireAt m =>
    let c := ofCoord p.src
    ((s.gput c key bs).depositFires ((fireAt.map (·.toNat)).getD c) trig ea bs p).depositAck p m
  | _ => s
/-- R194: the deposit's bytes are written as one single-write chunk, or by the page's streamer, and then its trigger fires; a page under
protection holds it (R302). -/
def State.depositStep (s : State) (p : Packet) : State :=
  match p.body with
  | .deposit ea bs trig fireAt m =>
    match scrPlace (ofCoord p.src) ea.toNat with
    | some (c, off) =>
      if (s.coreAt c).fenced then s.fails p 0x13
      else if s.foreign c off bs.length p.ctx then s.fails p 0x06
      else
        let s := s.agentWrite c off bs p.ctx
        (s.depositFires ((fireAt.map (·.toNat)).getD c) trig ea bs p).depositAck p m
    | none =>
      match s.xlate (p.vdev) ea.toNat true with
      | .error code => s.fails p code
      | .ok key =>
        if s.isProt key then s.holdWrite (.depositWrite p) key bs else s.depositAt p key
  | _ => s
def execDepositWrite (p : Packet) (s : State) : Res := .next (s.depositStep p)

/-! ## Atomics (R196, R197) -/

/-- FP addition of fadd: RNE, default NaN, no flags (R196). -/
def faddBits (dbl : Bool) (a b : Nat) : Nat :=
  let f := tyFmt (if dbl then .f64 else .f32)
  ((addV .rne (f.value a) (f.value b)).into f .rne 0).1
/-- The new value of an atomic, as a number of `w` bits; none when nothing is written. -/
def atomicNew (op : AmoOp) (dbl : Bool) (old v w2 : Nat) : Option Nat :=
  let w := if dbl then 64 else 32
  match op with
  | .add => some ((old + v) % 2 ^ w)
  | .and => some (old &&& v)
  | .or => some (old ||| v)
  | .xor => some (old ^^^ v)
  | .min => some (if sgn w v < sgn w old then v else old)
  | .max => some (if sgn w old < sgn w v then v else old)
  | .minn => some (min old v)
  | .maxn => some (max old v)
  | .swap => some v
  | .cas => if old = v then some w2 else none
  | .fadd => some (faddBits dbl old v)
/-- The answer of an atomic or a claim comes back to its source: the routes of class 21 lead there, and the border lets it in (R220, R222). One that does not
is lost to its firing. It carries the territory of the owner's tile; a streamer's, that of the request. It comes
back from another package at that one's port (R296). (DEDUCED, log 55.) -/
def State.returns (s : State) (p : Packet) : Bool :=
  let at' := if isLocal (Packet.to p) then ofCoord (Packet.to p) else (Config.portRouter (Config.entryPort ((Packet.to p).extractLsb' 13 8).toNat)).toNat
  isLocal p.src && s.awaits (ofCoord p.src) p && s.trip 21 (if Packet.toStreamer p then p.ter else s.terOf at') at' (ofCoord p.src) == .there
/-- The value after an atomic's step: trigger and return (R196). -/
def State.atomicEnds (s : State) (p : Packet) (at' : Nat) (ea : DWord) (old new : Nat) (trig : Option (BitVec 5)) (ret : Bool) : State :=
  let s := match trig with
    | some cls => if new = 0 then s.localEvent at' 6 cls (lo32 ea) p.src [] p.launch else s
    | none => s
  if ret && s.returns p then s.send (.atomicReturn (ofCoord p.src) (BitVec.ofNat 64 old) 0) else s
/-- An atomic at a translated address is performed at its place; a line that cannot be read fails it (R197). -/
def State.atomAt (s : State) (p : Packet) (key : Nat) : State :=
  match p.body with
  | .atomic op dbl ea v w trig ret =>
    let n := if dbl then 8 else 4
    let v := v.toNat % 2 ^ (8 * n)
    let w := w.toNat % 2 ^ (8 * n)
    if s.bad key n then (s.noteBad key).fails p 0x0D
    else
      let old := ofBytes (s.gmem.read key n)
      let c := ofCoord p.src
      match atomicNew op dbl old v w with
      | some new => (s.gput c key (leBytes n new)).atomicEnds p c ea old new trig ret
      | none => s.atomicEnds p c ea old old trig ret
  | _ => s
/-- R196, R197: one read-modify-write at the owner, as one chunk of its tile or at the page's streamer. -/
def State.atomStep (s : State) (p : Packet) : State :=
  match p.body with
  | .atomic op dbl ea v w trig ret =>
    let n := if dbl then 8 else 4
    let v := v.toNat % 2 ^ (8 * n)
    let w := w.toNat % 2 ^ (8 * n)
    match scrPlace (ofCoord p.src) ea.toNat with
    | some (c, off) =>
      if (s.coreAt c).fenced then s.fails p 0x13
      else if s.foreign c off n p.ctx then s.fails p 0x06
      else
        let s := s.agentGrant c (sigRange (globalEA c off) n)
        let r := s.scrRead c off n p.ctx
        match r.2 with
        | none => r.1.fails p 0x0C
        | some bs =>
          let old := ofBytes bs
          match atomicNew op dbl old v w with
          | some new => ((r.1.between c).writeBack (r.1.coreAt c).mem c off (leBytes n new) p.ctx).atomicEnds p c ea old new trig ret
          | none => r.1.atomicEnds p c ea old old trig ret
    | none =>
      match s.xlate (p.vdev) ea.toNat true with
      | .error code => s.fails p code
      | .ok key =>
        if s.isProt key then s.holdWrite (.atomicStep p) key [] else s.atomAt p key
  | _ => s
def execAtomicStep (p : Packet) (s : State) : Res := .next (s.atomStep p)
/-- R196: the answer of an amo with ret=yes: the old value is written and the firing goes on, or the failure traps at the amo. -/
def execAtomicReturn (c : Nat) (old : DWord) (fails : Nat) (s : State) : Res :=
  atCore c s fun s =>
    match (s.coreAt c).status with
    | .answer (.atomic rt dbl ea) =>
      let s := (s.goto c).setStatus .running
      if fails ≠ 0 then s.trapAt (BitVec.ofNat 8 fails) ea
      else (if dbl then s.setD (BitVec.ofNat 5 (rt.toNat / 2)) old else s.setS rt (lo32 old)).advance 2
    | _ => s

/-! ## Claims (R73, R74) -/

/-- R74's claim: start, count and the extents, zero taken as 1, and the descriptor's next after it. -/
def claimOf (bs : List Byte) : Nat × Nat × Nat :=
  let next := le bs 0 4
  let total := le bs 4 4
  let minc := max 1 (le bs 8 4)
  let cores := max 1 (le bs 12 4)
  let rem := if next < total then total - next else 0
  let c := if rem = 0 then 0 else min rem (max minc ((rem + cores - 1) / cores))
  (next, c, (next + c) % 2 ^ 32)
def extentsOf (bs : List Byte) : List Nat := (List.range 4).map fun i => max 1 (le bs (16 + 2 * i) 2)
/-- R74: the claim is performed as one chunk at the descriptor's owner. -/
def execNestClaimStep (p : Packet) (s : State) : Res :=
  .next <|
  match p.body with
  | .claim ea =>
    let me := ofCoord p.src
    match scrPlace me ea.toNat with
    | none => s.fails p 0x03
    | some (c, off) =>
      if (s.coreAt c).fenced then s.fails p 0x13 else
      let s := s.agentGrant c (sigRange (globalEA c off) 4)
      let r := s.scrRead c off 24 p.ctx
      match r.2 with
      | none => r.1.fails p 0x0C
      | some bs =>
        let q := claimOf bs
        let s := (r.1.between c).writeBack (r.1.coreAt c).mem c off (leBytes 4 q.2.2) p.ctx
        if s.returns p then
          s.send (.nestClaimReturn me (BitVec.ofNat 32 q.1) (BitVec.ofNat 32 q.2.1)
            (BitVec.ofNat 64 ((extentsOf bs).foldr (fun e a => e + 65536 * a) 0)) 0)
        else s
  | _ => s
/-- R74: the answer of nstclm: the count, the indices in mixed radix, and the extents. -/
def execNestClaimReturn (c : Nat) (start cnt : Word) (ext : BitVec 64) (fails : Nat) (s : State) : Res :=
  atCore c s fun s =>
    match (s.coreAt c).status with
    | .answer (.claim rd ea) =>
      let s := (s.goto c).setStatus .running
      if fails ≠ 0 then s.trapAt (BitVec.ofNat 8 fails) ea
      else
        let e (i : Nat) : Nat := (ext.extractLsb' (16 * i) 16).toNat
        let n := start.toNat
        let j : Vector Word 4 := #v[BitVec.ofNat 32 (n % e 0), BitVec.ofNat 32 (n / e 0 % e 1), BitVec.ofNat 32 (n / (e 0 * e 1) % e 2),
          BitVec.ofNat 32 (n / (e 0 * e 1 * e 2) % e 3)]
        ((s.setRegs { s.regs with j := j, ext := Vector.ofFn fun i : Fin 4 => ext.extractLsb' (16 * i.val) 16 }).setS rd cnt).advance 1
    | _ => s

end Sys2Proof.Machine
end

