-- ==== Sys2Proof/Machine/Matrix.lean ====
section
/-! DEFINITION. The matrix unit: the start of commands in queue order with its checks (R99, R104, R108), their results (R7–R12, R89–R92, R105–R107),
and their completion (R93, R100, R109). -/

namespace Sys2Proof.Machine

/-! ## Shapes (R95) and operands -/

/-- K, row lengths RA and RB, and image length L of a format code. -/
def shapeOf (f : BitVec 4) : Option (Nat × Nat × Nat × Nat) :=
  match f.toNat with
  | 0 => some (48, 96, 32, 1536)
  | 1 | 2 => some (96, 96, 16, 1536)
  | 3 | 4 => some (96, 72, 12, 1152)
  | 5 => some (192, 96, 8, 1536)
  | _ => none
/-- Width classes (R106). -/
def widthClass (f : BitVec 4) : Nat := if f = 0 then 0 else if f = 5 then 2 else 1
/-- Element bits of a format code. -/
def codeBits (f : BitVec 4) : Nat := match Fmt.ofCode f with
  | some g => g.bits
  | none => 8
/-- Element `i` of packed bytes held as one number (R82). -/
def elemAt (bits img i : Nat) : Nat := img / 2 ^ (bits * i) % 2 ^ bits
/-- The scale bytes per row or column (R8). -/
def blocksOf (f : BitVec 4) : Nat := if f = 5 then 24 else 4
/-- A band scale that is positive, finite and normal (R85), as m·2^e. -/
def bandOf (b : Nat) : Option (Nat × Int) :=
  let e := b / 128 % 256
  if b / 32768 % 2 = 1 ∨ e = 0 ∨ e = 255 then none else
  match Fmt.bf16.value b with
  | .fin _ m x => some (m, x)
  | _ => none
/-- A command's operand elements along K, each times its block scale and the band scale; none where the scale is 0x00 (R84, R89, R90). -/
def scaled (f : BitVec 4) (img : Nat) (idx : Nat → Nat) (scale : Nat → Nat) (band : Nat × Int) (k : Nat) : List (Option FVal) :=
  let g := (Fmt.ofCode f).getD .bf16
  let per := k / blocksOf f
  (List.range k).map fun i =>
    let sc := scale (i / per)
    if sc = 0 then none else
    match g.value (elemAt g.bits img (idx i)) with
    | .fin n m e => let s := scaleMag sc; some (.fin n (m * s.1 * band.1) (e + s.2 + band.2))
    | v => some v

/-! ## Exact sums (R89–R91) -/

/-- The sum of C and the products, by IEEE 754 on the exact expression (R90). A quiet NaN among the terms makes the sum a NaN before infinities of
opposite signs are looked at, and sets no NV for them. (DESIGN CHOICE, log 62.) -/
def sumTerms (c : FVal) (ps : List Exact) : Exact :=
  let vs := c :: ps.map (·.v)
  let nv := c.isSig || ps.any fun p => p.flags.getLsbD 4
  if vs.any (·.isNan) then .nan nv else
  let pos := vs.any fun v => v.isInf && !v.neg
  let neg := vs.any fun v => v.isInf && v.neg
  if pos && neg then .nan true
  else if pos then ⟨.inf false, false, flagIf nv fNV⟩
  else if neg then ⟨.inf true, false, flagIf nv fNV⟩
  else
    let r := vs.foldl (fun (a : Int × Int) v => match v with
      | .fin n m e => let x := addExact (decide (a.1 < 0)) a.1.natAbs a.2 n m e; x
      | _ => a) (0, 0)
    if r.1 = 0 then ⟨.fin (vs.all (·.neg)) 0 0, false, flagIf nv fNV⟩ else ⟨.fin (decide (r.1 < 0)) r.1.natAbs r.2, false, flagIf nv fNV⟩
/-- The product of two scaled elements; one in a zero block is +0 and sets no flag (R90). -/
def blockMul (a b : Option FVal) : Exact := match a, b with
  | some x, some y => mulV x y
  | _, _ => .of (.fin false 0 0)
/-- R91's truncation: every term cut to multiples of q = 2^(E − 47). -/
def truncTerms (vs : List FVal) : List FVal :=
  let es := vs.filterMap fun v => match v with
    | .fin _ m e => if m = 0 then none else some (e + m.log2)
    | _ => none
  match es with
  | [] => vs
  | e :: r =>
    let q := r.foldl max e - 47
    vs.map fun v => match v with
      | .fin n m e => if q ≤ e then .fin n m e else .fin n (m / 2 ^ (q - e).toNat) q
      | v => v
/-- R91 for one element: C and the exact products. -/
def bf16Sum (c : FVal) (ps : List Exact) : Exact :=
  let vs := c :: ps.map (·.v)
  if vs.any fun v => v.isNan || v.isInf then sumTerms c ps else
  match truncTerms vs with
  | [] => sumTerms c ps
  | c' :: r => sumTerms c' (r.map Exact.of)

/-! ## Addresses (R104, R108) -/

/-- The cause of R104 for a range, seen by a context of core `c`; a core that is fenced off is ACCESS (R137), behind FARSP (DESIGN CHOICE, log 68). -/
def State.matFault (s : State) (c : Nat) (x : Ctx) (ea n : Nat) : Option Byte :=
  match place ea with
  | .own off => if x.covers off n then none else some 0x03
  | .glob d off =>
    if off + n > 0x18000 then some 0x03
    else if tileOf d ≠ tileOf c then some 0x04
    else if (s.coreAt d).fenced then some 0x03
    else if s.foreign d off n x.id then some 0x06 else none
  | _ => some 0x03
/-- The first cause, in the order of R23, over several ranges. Their addresses do not wrap at 2^64, which R22 says of other accesses, so that a byte past it
is ACCESS. (DESIGN CHOICE, log 68.) -/
def State.matFaults (s : State) (c : Nat) (x : Ctx) (rs : List (Nat × Nat)) : Option Byte :=
  (rs.filterMap fun r => s.matFault c x r.1 r.2).foldl (fun b e => match b with
    | none => some e
    | some f => if e.toNat < f.toNat then some e else some f) none
/-- Read ranges for the engine of core `c`; none when a word cannot be read (R134). -/
def State.matRead (s : State) (c : Nat) (x : Ctx) : List (Nat × Nat) → State × Option (List (List Byte))
  | [] => (s, some [])
  | r :: rs =>
    match scrPlace c r.1 with
    | none => (s, none)
    | some (d, off) =>
      let a := s.scrRead d off r.2 x.id
      match a.2 with
      | none => (a.1, none)
      | some bs =>
        let b := a.1.matRead c x rs
        (b.1, b.2.map (bs :: ·))
/-- A 64-bit pointer in two matrix registers (R101). -/
def Ctx.ptr (x : Ctx) (i : Nat) : Nat := (vget x.hw i 0).toNat + 2 ^ 32 * (vget x.hw (i + 1) 0).toNat
def Ctx.acc1 (x : Ctx) (a : Nat) : Vector Word 256 := vget x.acc a (.replicate 256 0)
def MEffect.none : MEffect := ⟨.none, [], [], .none, 0, 0, 0, 0, 0, .none⟩

/-! ## Results -/

/-- What a start gives: a fault's cause, or an effect and the diverted columns' deposits (address and bytes). -/
abbrev Started := Except Byte (MEffect × List (DWord × List Byte))
def ok (e : MEffect) : Started := .ok (e, [])
/-- What mld reads (R105), from its format and stride: whether the source has 16 rows of K elements (shape A), the rows, bytes of each, K, image length. -/
def mldShape (fmt : BitVec 4) (stride : Word) : Option (Bool × Nat × Nat × Nat × Nat) :=
  match shapeOf fmt with
  | none => none
  | some (k, ra, rb, len) =>
    if ra ≤ stride.toNat then some (true, 16, ra, k, len) else if rb ≤ stride.toNat then some (false, k, rb, k, len) else none
/-- The steps of a stream (R10, R105): scratchpad row by row, banks i, i + 4, i + 8 and i + 12 for i = 0 to 3, the words that hold needed bytes. -/
def loadPlan (c : Nat) (rs : List (Nat × Nat)) : List LoadStep :=
  let need := (rs.flatMap fun r => match scrPlace c r.1 with
    | none => []
    | some (d, off) => (wordsIn off r.2).map fun w => (d, w)).dedup
  let rows := (need.map fun e => (e.1, e.2 / 16)).dedup
  rows.flatMap fun r => (List.range 4).filterMap fun i =>
    let bs := [i, i + 4, i + 8, i + 12].filter fun b => need.contains (r.1, wordAt b r.2)
    if bs.isEmpty then none else some ⟨r.1, r.2, bs⟩
/-- The image of mld (R105) from the words that its stream took. -/
def mldImage (c : Nat) (fmt : BitVec 4) (trans : Bool) (src : DWord) (stride : Word) (got : List ((Nat × Nat) × List Byte)) : Slot :=
  match mldShape fmt stride with
  | none => .empty
  | some (isA, rows, w, k, len) =>
    let img := (List.range rows).flatMap fun i => match scrPlace c (src.toNat + i * stride.toNat) with
      | none => List.replicate w 0
      | some (d, off) => (List.range w).map fun j => ((look got (d, (off + j) / 8)).getD []).getD ((off + j) % 8) 0
    let bits := codeBits fmt
    let cols := if isA then k else 16
    let n := ofBytes img
    let img := if trans then
        leBytes len (((List.range (rows * cols)).map fun j => elemAt bits n (j % rows * cols + j / rows)).foldr (fun e a => e + 2 ^ bits * a) 0)
      else img
    { Slot.empty with full := true, fmt := fmt, shapeB := isA == trans, image := padTo 1536 img }
/-- R105: mld: its checks, and the stream that reads it (R10), on the lowest free of the two; each row is read in the step that takes it, so a store into
the source after the start may be seen or not. (DESIGN CHOICE, log 57.) -/
def State.startMld (s : State) (c : Nat) (x : Ctx) (slot fmt : BitVec 4) (src : DWord) (stride : Word) : Except Byte Stream :=
  if x.slotQ ≤ slot.toNat ∨ ¬ (x.prog.slot slot.toNat).claimed then .error 0x0A else
  match mldShape fmt stride with
  | none => .error 0x0B
  | some (_, rows, w, _, _) =>
    if src.toNat % 4 ≠ 0 ∨ stride.toNat % 4 ≠ 0 then .error 0x02
    else
      let rs := (List.range rows).map fun i => (src.toNat + i * stride.toNat, w)
      match s.matFaults c x rs with
      | some e => .error e
      | none =>
        let lane := if (s.coreAt c).mq.any (fun m => m.stream.any (·.lane = 0)) then 1 else 0
        .ok ⟨lane, loadPlan c rs, [], 0, 0, 0, 0, 0⟩
/-- R106: mma. (DEDUCED, log 43.) -/
def State.startMma (s : State) (c : Nat) (x : Ctx) (acc : BitVec 3) (sa sb : BitVec 4) (bandA bandB : BitVec 12) : State × Started :=
  let xa := x.prog.slot sa.toNat
  let xb := x.prog.slot sb.toNat
  if x.slotQ ≤ sa.toNat ∨ ¬ xa.claimed ∨ x.slotQ ≤ sb.toNat ∨ ¬ xb.claimed ∨ x.accQ ≤ acc.toNat then (s, .error 0x0A) else
  let fa : BitVec 4 := (vget x.hw 0 0).setWidth 4
  let fb : BitVec 4 := (vget x.hw 1 0).setWidth 4
  match shapeOf fa, shapeOf fb with
  | some (k, _, _, _), some _ =>
    if widthClass fa ≠ widthClass fb ∨ ¬ xa.full ∨ xa.shapeB ∨ xa.fmt ≠ fa ∨ ¬ xb.full ∨ ¬ xb.shapeB ∨ xb.fmt ≠ fb then (s, .error 0x0B) else
    let ia := ofBytes xa.image
    let ib := ofBytes xb.image
    let cs := x.acc1 acc.toNat
    let finish (s : State) (el : Nat → Nat → FVal → Exact) : State × Started :=
      let rs := (List.range 256).map fun i => (el (i / 16) (i % 16) (Fmt.f32.value (vget cs i 0).toNat)).into .f32 .rne 0
      (s, ok { MEffect.none with accs := [(acc.toNat, Vector.ofFn fun i : Fin 256 => BitVec.ofNat 32 (rs.getD i.val (0, 0)).1)],
                                 flags := rs.foldl (fun f r => f ||| r.2) 0 })
    if fa = 0 then
      let g := Fmt.bf16
      finish s fun n m cv => bf16Sum cv ((List.range k).map fun i => mulV (g.value (elemAt 16 ia (n * k + i))) (g.value (elemAt 16 ib (i * 16 + m))))
    else
      let kb := blocksOf fa
      let rs := [(x.ptr 2, 16 * kb), (x.ptr 4, 16 * kb), (x.ptr 6 + 2 * bandA.toNat, 2), (x.ptr 8 + 2 * bandB.toNat, 2)]
      match s.matFaults c x rs with
      | some e => (s, .error e)
      | none =>
        let r := s.matRead c x rs
        match r.2 with
        | some [la, lb, ba, bb] =>
          match bandOf (ofBytes ba), bandOf (ofBytes bb) with
          | some pa, some pb =>
            let rowA := (List.range 16).map fun n => scaled fa ia (fun i => n * k + i) (fun b => (la.getD (n * kb + b) 0).toNat) pa k
            let colB := (List.range 16).map fun m => scaled fb ib (fun i => i * 16 + m) (fun b => (lb.getD (b * 16 + m) 0).toNat) pb k
            finish r.1 fun n m cv => sumTerms cv (List.zipWith blockMul (rowA.getD n []) (colB.getD m []))
          | _, _ => (r.1, .error 0x0B)
        | _ => (r.1, .error 0x0C)
  | _, _ => (s, .error 0x0B)
/-- R107: mst. -/
def State.startMst (s : State) (c : Nat) (x : Ctx) (acc : BitVec 3) (dst : DWord) (stride : Word) : Started :=
  if x.accQ ≤ acc.toNat then .error 0x0A
  else if stride.toNat < 64 then .error 0x0B
  else if dst.toNat % 4 ≠ 0 ∨ stride.toNat % 4 ≠ 0 then .error 0x02
  else
    let at' (n : Nat) := dst.toNat + n * stride.toNat
    match s.matFaults c x ((List.range 16).map fun n => (at' n, 64)) with
    | some e => .error e
    | none => ok { MEffect.none with writes := (List.range 16).map fun n =>
        (BitVec.ofNat 64 (at' n), wordBytes ((List.range 16).map fun m => vget (x.acc1 acc.toNat) (16 * n + m) 0)) }
/-- The magnitude bits of an FP32 word, and whether it is a NaN. -/
def magBits (w : Word) : Nat := w.toNat % 2 ^ 31
/-- R107, R12: mamax. -/
def startMamax (x : Ctx) (acc cnt1 : BitVec 3) : Started :=
  let n := cnt1.toNat + 1
  if 8 < acc.toNat + n ∨ x.accQ < acc.toNat + n then .error 0x0A else
  let ms := (List.range n).flatMap fun i => (x.acc1 (acc.toNat + i)).toList.map magBits
  ok { MEffect.none with q0 := some (if ms.any (0x7F800000 < ·) then 0x7FC00000 else BitVec.ofNat 32 (ms.foldl max 0)) }
/-- R11, R92, R107: mqnt, with SEED as it was when the instruction executed (R88). (DEDUCED, log 43.) -/
def State.startMqnt (s : State) (c : Nat) (x : Ctx) (seed : Word) (acc : BitVec 3) (fmt : BitVec 4) (rnd : BitVec 3) (codes : DWord)
    (cstride sstride : Half) (scales : DWord) : Started :=
  let groups := if fmt = 5 then 1 else 3
  let cols := 16 * groups
  let qcfg := vget x.hw 11 0
  let mcode : BitVec 3 := if rnd = 0 then qcfg.setWidth 3 else rnd - 1
  let oasis := vget x.hw 13 0
  let base := x.ptr 14
  let oc := 128 * (oasis.extractLsb' 7 6).toNat + (oasis.extractLsb' 0 7).toNat
  if 8 < acc.toNat + groups ∨ x.accQ < acc.toNat + groups then .error 0x0A else
  match Fmt.ofCode fmt, bandOf (vget x.hw 10 0).toNat with
  | some f, some (bm, be) =>
    let w := (cols * f.bits + 7) / 8
    let divert := qcfg.getLsbD 8
    let strays : Bool := match place base with
      | .glob d _ => decide (d ≠ oc)
      | _ => false
    if fmt = 0 ∨ 4 < mcode.toNat ∨ cstride.toNat < w ∨ sstride.toNat < 2 ∨ (divert && strays) = true then .error 0x0B
    else if codes.toNat % 4 ≠ 0 ∨ cstride.toNat % 4 ≠ 0 then .error 0x02
    else
      let rowC (n : Nat) := codes.toNat + n * cstride.toNat
      let rowS (n : Nat) := scales.toNat + n * sstride.toNat
      match s.matFaults c x ((List.range 16).flatMap fun n => [(rowC n, w), (rowS n, 2)]) with
      | some e => .error e
      | none =>
        let el (n m : Nat) : Word := vget (x.acc1 (acc.toNat + m / 16)) (16 * n + m % 16) 0
        let amax (m : Nat) : FVal := amaxV ((List.range 16).map fun n => Fmt.f32.value (el n m).toNat)
        let thr := Fmt.f32.value (vget x.hw 12 0).toNat
        let outs := if divert ∧ ¬ thr.isNan then (List.range cols).filter fun m => cmpV (amax m) thr = .gt else []
        let gone := outs.take 2
        let mode := Mode.ofCode mcode
        let draws := if mode = .sr then ((List.range (16 * cols)).foldl (fun (a : List Nat × Word) _ => let z := stepSeed a.2; (draw16 z :: a.1, z)) ([], seed)).1.reverse else []
        let blk (n b : Nat) : Block := quantBlock f mode bm be ((List.range (cols / 2)).map fun i =>
          let m := b * (cols / 2) + i
          (if gone.contains m then none else some (Fmt.f32.value (el n m).toNat), draws.getD (n * cols + m) 0))
        let bs := (List.range 16).map fun n => (blk n 0, blk n 1)
        let all := bs.flatMap fun p => [p.1, p.2]
        .ok ({ MEffect.none with
          writes := (bs.zipIdx).flatMap fun p => [(BitVec.ofNat 64 (rowC p.2), packCodes f.bits (p.1.1.codes ++ p.1.2.codes)),
            (BitVec.ofNat 64 (rowS p.2), [BitVec.ofNat 8 p.1.1.scale, BitVec.ofNat 8 p.1.2.scale])]
          flags := all.foldl (fun f b => f ||| b.flags) 0
          diverted := gone.length, inPlace := outs.length - gone.length
          clamps := (all.filter (·.clamp)).length, sats := (all.filter (·.sat)).length },
          gone.map fun m => (BitVec.ofNat 64 ((base + 64 * m) % 2 ^ 64), wordBytes ((List.range 16).map fun n => el n m)))
  | _, _ => .error 0x0B

/-! ## Order and hazards (R99) -/

/-- Slots and accumulators that a command reads and writes, and whether it reads or writes scratchpad. -/
structure Uses where
  rs : List Nat
  ws : List Nat
  ra : List Nat
  wa : List Nat
  rd : Bool
  wr : Bool
/-- What a queue entry uses; `rd` says whether it reads scratchpad. -/
def MCmd.uses (m : MCmd) (rd : Bool) : Uses :=
  match m.what with
  | .csr _ _ _ => ⟨[], [], [], [], false, false⟩
  | .cmd (.mld n _ _ _ _) => ⟨[], [n.toNat], [], [], rd, false⟩
  | .cmd (.mma a sa sb _ _) => ⟨[sa.toNat, sb.toNat], [], [a.toNat], [a.toNat], rd, false⟩
  | .cmd (.mzero a) => ⟨[], [], [], [a.toNat], false, false⟩
  | .cmd (.mst a _ _) => ⟨[], [], [a.toNat], [], false, true⟩
  | .cmd (.mqnt a f _ _ _ _ _) => ⟨[], [], (List.range (if f = 5 then 1 else 3)).map (a.toNat + ·), [], false, true⟩
  | .cmd (.mamax a n) => ⟨[], [], (List.range (n.toNat + 1)).map (a.toNat + ·), [], false, false⟩
  | .cmd _ => ⟨[], [], [], [], false, false⟩
/-- The unit of a command (R99): 0 loader, 1 array, 2 accumulator port, 3 register port. -/
def MCmd.unit (m : MCmd) : Nat :=
  match m.what with
  | .csr _ _ _ => 3
  | .cmd (.mld _ _ _ _ _) => 0
  | .cmd (.mma _ _ _ _ _) => 1
  | .cmd _ => 2
def overlaps (a b : List Nat) : Bool := a.any b.contains
/-- The command has started. -/
def MCmd.started (m : MCmd) : Bool := m.eff.isSome || m.stream.isSome
/-- The command has done its work and has freed its unit, though it may have to wait to complete in order, or for room in q0 (R99). (DESIGN CHOICE, log 69.) -/
def MCmd.isDone (m : MCmd) : Bool := m.unacked == 0 && m.eff.any fun e => e.writes.isEmpty
/-- A command that has not started reads scratchpad: mld, and an mma with scales, which BF16 does without (R89, R99). -/
def Core.willRead (k : Core) (m : MCmd) : Bool :=
  match m.what with
  | .cmd (.mld _ _ _ _ _) => true
  | .cmd (.mma _ _ _ _ _) => match k.byId m.ctx with
    | some x => (vget x.hw 0 0).extractLsb' 0 4 != 0
    | none => false
  | _ => false
/-- An earlier, uncompleted command keeps a later one from starting (R99); slots and accumulators belong to contexts. `rd` says whether the later one
reads scratchpad. -/
def MCmd.blocks (e m : MCmd) (rd : Bool) : Bool :=
  let a := e.uses e.reads
  let b := m.uses rd
  let same := e.ctx == m.ctx
  (same && (overlaps a.ws b.rs || overlaps a.ws b.ws || overlaps a.rs b.ws || overlaps a.wa b.ra || overlaps a.wa b.wa || overlaps a.ra b.wa))
  || (b.rd && a.wr) || (b.wr && (a.rd || a.wr))
  || (same && (match m.what with
    | .csr n _ _ => n == 0x030
    | _ => false))
/-- The next command to start: its place in the queue, when R99 lets it start; the register port starts one write in a cycle of the unit. -/
def Core.nextStart (k : Core) : Option (Nat × MCmd) :=
  match k.mq.zipIdx.find? fun e => !e.1.started with
  | none => none
  | some (m, i) =>
    let before := k.mq.take i
    let busy := (before.filter fun e => e.unit = m.unit ∧ ¬ e.isDone).length
    if (if m.unit = 0 then busy ≥ 2 else busy ≥ 1) ∨ (m.unit = 3 ∧ k.ported) ∨ before.any (fun e => e.blocks m (k.willRead m)) then none else some (i, m)

/-- The next command may start now. -/
def Core.mayStart (k : Core) : Bool := k.nextStart.any fun e => (k.byId e.2.ctx).isSome
/-- The matrix unit has a cycle's work: commands that have still to enter, a register write that takes its port, a running stream. -/
def Core.unitDue (k : Core) : Bool := !k.entering.isEmpty || k.ported || k.mq.any (·.stream.isSome)
/-- A queued register write at the head of the queue has taken its cycle and is to complete (R99). -/
def Core.writeDone (k : Core) : Bool := match k.mq with
  | m :: _ => m.unit == 3 && m.isDone && (k.byId m.ctx).isSome
  | [] => false

/-! ## Steps -/

/-- Change what a context's instructions wrote, in the open chunk's record too (R93, R100). -/
def State.onProg (s : State) (c : Nat) (id : Half) (f : Prog → Prog) : State :=
  s.onCore c fun k =>
    let k := k.onId id fun x => { x with prog := f x.prog }
    if k.resident ∧ k.ctx.id = id then
      { k with fir := { k.fir with chunk := { k.fir.chunk with snap := k.fir.chunk.snap.map fun p => { p with prog := f p.prog } } } }
    else k
/-- Change a queued command. -/
def State.onCmd (s : State) (c : Nat) (m : MCmd) (f : MCmd → MCmd) : State :=
  s.onCore c fun k => { k with mq := k.mq.map fun q => if q.ctx = m.ctx ∧ q.seq = m.seq then f q else q }
/-- R109: a command faults: later commands of its context that have not started are discarded, and the trap is pending. -/
def State.commandFault (s : State) (c : Nat) (m : MCmd) (code : Byte) : State :=
  let s := s.onCore c fun k => { k with mq := k.mq.filter (fun e => e.ctx ≠ m.ctx || e.started || e.seq == m.seq), entering := k.entering.filter fun e => e.ctx ≠ m.ctx }
  s.onCore c fun k => k.onId m.ctx fun x => { x with mdrop := true, faults := x.faults ++ [⟨0, code, m.seq, m.pc⟩] }
/-- The deposits of an mqnt's diverted columns leave (R11); the cause that keeps the first of those that cannot leave from it: ALIGN for a base that is no
multiple of 64, ACCESS for one in no window or in the private alias, UNDELIV for an oasis core outside the territory, PERM, XLATE. (DESIGN CHOICE, log 74.) -/
def State.sendDiverts (s : State) (c : Nat) (x : Ctx) (m : MCmd) (ds : List (DWord × List Byte)) : State × Option Byte :=
  let oasis := vget x.hw 13 0
  let oc := 128 * (oasis.extractLsb' 7 6).toNat + (oasis.extractLsb' 0 7).toNat
  ds.foldl (fun (a : State × Option Byte) d =>
    let cause : Option Byte :=
      if d.1.toNat % 64 ≠ 0 then some 0x02 else
      match place d.1.toNat with
      | .glob e off =>
        if off + 64 > 0x18000 then some 0x03
        else if ¬ (tileOf oc = tileOf c ∨ (s.tileAt (tileOf c)).mask.getLsbD (tileOf oc)) then some 0x13
        else if s.foreign e off 64 x.id then some 0x06 else none
      | .trans =>
        if ¬ (tileOf oc = tileOf c ∨ (s.tileAt (tileOf c)).mask.getLsbD (tileOf oc)) then some 0x13 else
        match s.xlate x.vdev d.1.toNat true with
        | .error e => some e
        | .ok _ => none
      | _ => some 0x03
    match cause with
    | some e => (a.1, some (a.2.getD e))
    | none =>
      let dst := match place d.1.toNat with
        | .glob e _ => coord e
        | _ => match s.xlate x.vdev d.1.toNat true with
          | .ok key => streamerCoord key
          | .error _ => coord c
      let p := s.agentPacket c dst 20 0 x.launch x.id x.vdev m.pc
        (.deposit d.1 d.2 (if oasis.getLsbD 31 then some (oasis.extractLsb' 24 5) else none) (some (BitVec.ofNat 13 oc)) (some m.seq))
      ((a.1.onCmd c m fun e => { e with unacked := e.unacked + 1 }).issue c p, a.2)) (s, none)
/-- What a command other than mld does when it starts (R99, R106, R107). -/
def State.startCmd (s : State) (c : Nat) (x : Ctx) (m : MCmd) : Instr → State × Started
  | .mma a sa sb ba bb => s.startMma c x a sa sb ba bb
  | .mzero a => (s, if x.accQ ≤ a.toNat then .error 0x0A else ok { MEffect.none with accs := [(a.toNat, .replicate 256 0)] })
  | .mst a d st => (s, s.startMst c x a d st)
  | .mqnt a f rn cd cs ss sc => (s, s.startMqnt c x m.seed a f rn cd cs ss sc)
  | .mamax a n => (s, startMamax x a n)
  | _ => (s, .error 0x0B)
/-- A command that fails its checks has no effect but its fault, and leaves the queue (R108, R109). -/
def State.refuseCmd (s : State) (c : Nat) (m : MCmd) (code : Byte) : State :=
  (s.commandFault c m code).onCore c fun k => { k with mq := k.mq.filter fun e => e.ctx ≠ m.ctx || e.seq ≠ m.seq }
/-- R99, R108: the next command of core `c`'s queue starts: its checks, then its result or its stream, or its fault with no effect. -/
def execMatrixCommandStart (c : Nat) (s : State) : Res :=
  atCore c s fun s =>
    match (s.coreAt c).nextStart with
    | none => s
    | some (_, m) =>
      let rd := (s.coreAt c).willRead m
      match (s.coreAt c).byId m.ctx, m.what with
      | some x, .cmd (.mld n f _ a st) =>
        match s.startMld c x n f a st with
        | .error code => s.refuseCmd c m code
        | .ok t => s.onCmd c m fun q => { q with stream := some t, reads := true }
      | some x, .cmd i =>
        let r := s.startCmd c x m i
        match r.2 with
        | .error code => r.1.refuseCmd c m code
        | .ok (e, ds) =>
          let d := (r.1.onCmd c m fun q => { q with eff := some e, reads := rd }).sendDiverts c x m ds
          match d.2 with
          | none => d.1
          | some code => d.1.onCmd c m fun q => { q with eff := q.eff.map fun e => { e with fault := some (code, m.seq, m.pc) } }
      | _, _ => s

/-! ## The operand loader's streams (R10) -/

/-- The banks that serve a bank's word as a mirage read (R132): its group's others, and the parity bank. -/
def mirageBanks (b : Nat) : List Nat := (((List.range 4).map (4 * (b / 4) + ·)).filter (· ≠ b)) ++ [16 + b / 4]
/-- How a cycle of a stream's step ends: it waits, for a stale pair or not; a word cannot be reconstructed; its words are taken, so many of them as
mirage reads, from these banks. -/
inductive StepEnd
  | waits (stale : Bool)
  | fails
  | took (mirages : Nat) (banks : List Nat)
deriving DecidableEq, Repr
/-- One try of a step, whole or not at all (R10, R132): each word whose bank is held (`busy`) is to be a mirage read, whose reads come first and want
banks that no other access uses in this cycle (`used`). -/
def State.tryStep (s : State) (id : Half) (busy used : Nat → Bool) (t : LoadStep) : State × StepEnd :=
  let k := s.coreAt t.core
  let own := t.banks.filter fun b => !busy (k.served b)
  let rest := t.banks.filter fun b => busy (k.served b)
  if rest.any fun b => !k.spare b t.row || (mirageBanks b).any fun a => busy a || used a then (s, .waits (rest.any fun b => k.stale.contains (t.row, b / 4)))
  else
    let m := rest.foldl (fun (a : Core × Bool) b => let r := a.1.siblings b t.row id s.cycle s.syn; (r.1, a.2 && r.2)) (k, true)
    if ¬ m.2 then (s.putCore t.core m.1, .waits false) else
    let d := own.foldl (fun (a : Core × Bool) b => let r := a.1.readDirect b t.row id s.cycle s.syn; (r.1, a.2 && r.2)) (m.1, true)
    (s.putCore t.core d.1, if d.2 then .took rest.length (own.map k.served ++ rest.flatMap mirageBanks) else .fails)
/-- A stream is over: the loader keeps its record, and its command its image, or its fault with the slot left empty (R13, R105). -/
def State.endStream (s : State) (c : Nat) (m : MCmd) (t : Stream) (fails : Bool) : State :=
  let e : MEffect := match m.what with
    | .cmd (.mld n f tr a st) =>
      { MEffect.none with slot := some (n.toNat, if fails then Slot.empty else mldImage c f tr a st t.got), fault := if fails then some (0x0C, 0, 0) else none }
    | _ => .none
  (s.onCmd c m fun q => { q with eff := some e, stream := none }).onCore c fun k =>
    { k with loader := k.loader ++ [⟨m.seq, t.lane, t.first, t.last, t.steps, t.mirages, t.waits⟩] }
/-- The instruction reads scratchpad as it executes. -/
def readsScratch : Instr → Bool
  | .ldb _ _ _ _ | .ldbn _ _ _ _ | .ldh _ _ _ _ | .ldhn _ _ _ _ | .ldw _ _ _ _ | .ldd _ _ _ _ | .vld _ _ _ _ _ | .vldbc _ _ _ _ _ _
  | .vgath _ _ _ _ _ _ => true
  | .qrd _ q | .qrdv _ q => decide (4 ≤ q.toNat)
  | _ => false
/-- A core may ask for banks of its tile now (R130): it has released stores to perform, or the instruction that it has come to reads scratchpad. -/
def Core.asks (k : Core) : Bool :=
  !k.port.isEmpty || match k.status with
    | .granted _ => k.fir.chunk.held.any Held.isStore
    | .running => match decode ((k.ctx.code.drop k.fir.regs.pc.toNat).take 32) with
      | .ok i _ => readsScratch i
      | _ => false
    | _ => false
/-- The step that the stream on a lane takes next. -/
def Core.laneStep (k : Core) (lane : Nat) : Option LoadStep := (k.mq.find? fun m => m.stream.any (·.lane = lane)).bind fun m => m.stream.bind (·.left.head?)
/-- A step in flight reads or writes a scratchpad. -/
def evBanks : Ev → Bool
  | .depositWrite _ | .atomicStep _ | .nestClaimStep _ | .channelElementEnter _ _ _ _ | .refillReturn _ | .xredContribution _ | .read _ _ _ | .write _ _ _ => true
  | _ => false
/-- Something beside core `c`'s loaders may ask for banks of its tile in this cycle (R130): a core, a matrix write or another core's stream of the tile,
a copy, a packet or channel data on its way. -/
def State.rivals (s : State) (c : Nat) : Bool :=
  ((tileCores (tileOf c)).any fun d =>
    let k := s.coreAt d
    k.asks || (k.mq.any fun m => (d != c && m.stream.isSome) || m.eff.any fun e => !e.writes.isEmpty))
  || (s.cores.any fun e => e.2.copies.any fun t => t.sent && !t.done) || s.agenda.any evBanks
/-- A request of a higher class holds a bank of a core; which one does is free where there is one that may. (DESIGN CHOICE, log 28.) -/
def State.bankHeld (s : State) (c : Nat) (b : Nat × Nat) : Bool := s.rivals c && Config.bankLost s.tick (32 * b.1 + b.2)
/-- The banks that a step reads where they stand, when these are held. -/
def State.directOf (s : State) (held : Nat × Nat → Bool) (p : LoadStep) : List (Nat × Nat) :=
  (p.banks.map fun b => (p.core, (s.coreAt p.core).served b)).filter fun b => !held b
/-- A cycle of the stream on a lane, with the banks that are held, and those that other accesses of the cycle use; the banks it uses. -/
def State.streamCycle (s : State) (c lane : Nat) (held used : Nat × Nat → Bool) : State × List (Nat × Nat) :=
  match (s.coreAt c).mq.find? fun m => m.stream.any (·.lane = lane) with
  | none => (s, [])
  | some m =>
    match m.stream with
    | none => (s, [])
    | some t =>
      match t.left with
      | [] => (s.endStream c m t false, [])
      | p :: rest =>
        let r := s.tryStep m.ctx (fun b => held (p.core, b)) (fun b => used (p.core, b)) p
        match r.2 with
        | .waits stale => (r.1.onCmd c m fun q => { q with stream := some { t with waits := t.waits + (if stale then 1 else 0) } }, [])
        | .fails => (r.1.endStream c m t true, [])
        | .took n banks =>
          let words := p.banks.map fun b => ((p.core, wordAt b p.row), (r.1.coreAt p.core).mem.read (8 * wordAt b p.row) 8)
          let t := { t with left := rest, got := t.got ++ words, first := if t.steps = 0 then s.cycle else t.first, last := s.cycle,
                            steps := t.steps + 1, mirages := t.mirages + n }
          (if rest.isEmpty then r.1.endStream c m t false else r.1.onCmd c m fun q => { q with stream := some t }, banks.map fun b => (p.core, b))
/-- The groups that the next steps of core `c`'s streams read are in use in this cycle, whether a step waits or not (R131). -/
def State.streamsBusy (s : State) (c : Nat) : State :=
  let ps := [0, 1].filterMap (s.coreAt c).laneStep
  (ps.map (·.core)).dedup.foldl (fun s d => s.onCore d fun k => k.busy (((ps.filter (·.core = d)).flatMap fun p => p.banks.map (· / 4)).dedup)) s
/-- A cycle of core `c`'s loaders (R10, R130): stream 0's direct reads come before stream 1's, and both before a mirage read; a step that waits uses no
bank. -/
def State.loaderCycle (s : State) (c : Nat) : State :=
  let s := s.streamsBusy c
  let held := s.bankHeld c
  let direct0 := ((s.coreAt c).laneStep 0).elim [] fun p => s.directOf held p
  let direct1 := ((s.coreAt c).laneStep 1).elim [] fun p => s.directOf (fun b => held b || direct0.contains b) p
  let a := s.streamCycle c 0 held direct1.contains
  let taken (b : Nat × Nat) : Bool := held b || a.2.contains b
  (a.1.streamCycle c 1 taken fun _ => false).1

/-- A cycle of core `c`'s matrix unit, when what may start has started: each running stream takes a step or waits (R10), and up to two commands enter the
queue (R9), to start in the next cycle at the earliest (R99). -/
def State.unitCycle (s : State) (c : Nat) : State :=
  (if (s.coreAt c).mq.any (·.stream.isSome) then s.loaderCycle c else s).onCore c fun k =>
    { k with mq := k.mq ++ k.entering.take 2, entering := k.entering.drop 2, ported := false, ran := false }

/-! ## Effects and completion -/

/-- The next row of core `c`'s k-th command is committed, as a single-write chunk (R100, R227). -/
def State.rowCommit (s : State) (c k : Nat) : State :=
  match (s.coreAt c).mq[k]? with
  | none => s
  | some m =>
    match m.eff with
    | some { writes := w :: ws, .. } =>
      let s := s.onCmd c m fun q => { q with eff := q.eff.map fun e => { e with writes := ws } }
      (match scrPlace c w.1.toNat with
        | some (d, off) => s.agentWrite d off w.2 m.ctx
        | none => s)
    | _ => s
/-- The fields of QSTAT, each stopping at all ones (R94). -/
def qstatAdd (q : Word) (e : MEffect) : Word :=
  let f (i w n : Nat) : Nat := 2 ^ i * min (2 ^ w - 1) ((q.extractLsb' i w).toNat + n)
  BitVec.ofNat 32 (f 0 12 e.sats + f 12 12 e.clamps + f 24 4 e.diverted + f 28 4 e.inPlace)
/-- R99, R102: the queued control-register write that is next in core `c`'s queue starts and takes effect. -/
def execQueuedCsrWrite (c : Nat) (s : State) : Res :=
  atCore c s fun s =>
    match (s.coreAt c).nextStart with
    | some (_, m) =>
      match m.what with
      | .csr n op v =>
        s.onCore c fun k =>
          let k := k.onId m.ctx fun x =>
            if n = 0x030 then { x with qstat := csrNew op x.qstat v } else { x with hw := vset x.hw (n.toNat - 0x020) v }
          { k with ported := true, mq := k.mq.map fun q => if q.ctx = m.ctx ∧ q.seq = m.seq then { q with eff := some .none } else q }
      | .cmd _ => s
    | none => s
/-- R100, R12: the oldest command of core `c` completes, its scratchpad writes all committed: its result enters q0, its flags accrue; a fault that
arose while it ran is reported (R108, R109), and later commands are discarded, then; the slot of an mld has its old image until then (R105).
(DESIGN CHOICE, log 69.) -/
def execMatrixCommandComplete (c : Nat) (s : State) : Res :=
  atCore c s fun s =>
    match (s.coreAt c).mq with
    | [] => s
    | m :: rest =>
      match m.eff, (s.coreAt c).byId m.ctx with
      | some e, some x =>
        if ¬ m.isDone ∨ (e.q0.isSome ∧ 8 ≤ x.q0.length) then s else
        let s := s.onCore c fun k => { k with mq := rest }
        let s := s.onCore c fun k => k.onId m.ctx fun x => { x with
          acc := e.accs.foldl (fun a p => vset a p.1 p.2) x.acc
          q0 := x.q0 ++ e.q0.toList
          qstat := qstatAdd x.qstat e }
        let s := s.onProg c m.ctx fun p =>
          let p := { p with fflags := p.fflags ||| e.flags }
          match e.slot with
          | none => p
          | some (n, v) => let o := p.slot n; p.setSlot n { o with full := v.full, fmt := v.fmt, shapeB := v.shapeB, image := v.image }
        match e.fault with
        | none => s
        | some (code, _, _) => s.commandFault c m code
      | _, _ => s

end Sys2Proof.Machine
end

