-- ==== Sys2Proof/Machine/Copy.lean ====
section
/-! DEFINITION. The copy engine (R169, R170, R172), the reduction agent (R209), broadcasts (R210, R211), and what is performed at the streamers of
global memory (R237, R281, R302). -/

namespace Sys2Proof.Machine

/-! ## Places and checks (R169, R172, R211) -/

/-- A copy as rows of `len` bytes: the first row's source and destination and the steps to the next; `fill` replaces the source. -/
structure CopyPlan where
  rows : Nat
  len : Nat
  src : Nat
  srcStep : Nat
  dst : Nat
  dstStep : Nat
  fill : Option Word
/-- What a copy command moves (R169). -/
def planOf : Instr → Option CopyPlan
  | .cpin _ n va sp _ => some ⟨1, n.toNat, va.toNat, 0, sp.toNat, 0, none⟩
  | .cpout _ n va sp _ => some ⟨1, n.toNat, sp.toNat, 0, va.toNat, 0, none⟩
  | .cp2d _ n va sp _ out rows pitch =>
    if out then some ⟨rows.toNat, n.toNat, sp.toNat, n.toNat, va.toNat, 64 * pitch.toNat, none⟩
    else some ⟨rows.toNat, n.toNat, va.toNat, 64 * pitch.toNat, sp.toNat, n.toNat, none⟩
  | .cploc _ n ga sp _ => some ⟨1, n.toNat, ga.toNat, 0, sp.toNat, 0, none⟩
  | .cpfill _ n dst pat _ => some ⟨1, n.toNat, 0, 0, dst.toNat, 0, some pat⟩
  | _ => none
/-- Word 6 of a copy or reduction command. -/
def tailOf : Instr → Option CopyTail
  | .cpin _ _ _ _ t | .cpout _ _ _ _ t | .cp2d _ _ _ _ t _ _ _ | .cploc _ _ _ _ t | .cpfill _ _ _ _ t => some t
  | .xred _ _ _ _ _ _ t _ | .xbcast _ _ _ _ _ t _ => some t
  | _ => none
/-- The core that a barrier count of word 6 goes to. -/
def barCore (t : CopyTail) : Nat := 128 * t.ty.toNat + t.tx.toNat
/-- Where an address of a command may lie: a private alias, a global alias, the translated window. -/
structure Allowed where
  priv : Bool
  glob : Bool
  trans : Bool
/-- A core of a tile's territory, as seen from core `c`. -/
def State.sharesTer (s : State) (c d : Nat) : Bool := tileOf d == tileOf c || (s.tileAt (tileOf c)).mask.getLsbD (tileOf d)
/-- ACCESS of `n` bytes from an address, seen from core `c` for context `x` (R169, R172). -/
def State.rangeAccess (s : State) (c : Nat) (x : Ctx) (a : Allowed) (ea n : Nat) : Bool :=
  match place ea with
  | .own off => a.priv && x.covers off n
  | .glob d off => a.glob && decide (off + n ≤ 0x18000) && s.sharesTer c d && !(s.coreAt d).fenced
  | .trans => a.trans && inTrans (ea + (n - 1))
  | .nowhere => false
/-- PERM of a scratchpad range (R172). -/
def State.rangePerm (s : State) (x : Ctx) (ea n : Nat) : Bool :=
  match place ea with
  | .glob d off => !s.foreign d off n x.id
  | _ => true
/-- The sides of a copy: what may hold it, its first address and its length. -/
def sidesOf : Instr → List (Allowed × Nat × Nat)
  | .cpin _ n va sp _ | .cpout _ n va sp _ => [(⟨false, false, true⟩, va.toNat, n.toNat), (⟨true, true, false⟩, sp.toNat, n.toNat)]
  | .cp2d _ n va sp _ _ rows pitch =>
    let w := if rows = 0 ∨ n = 0 then 0 else (rows.toNat - 1) * (64 * pitch.toNat) + n.toNat
    [(⟨false, false, true⟩, va.toNat, w), (⟨true, true, false⟩, sp.toNat, rows.toNat * n.toNat)]
  | .cploc _ n ga sp _ => [(⟨false, true, false⟩, ga.toNat, n.toNat), (⟨true, true, false⟩, sp.toNat, n.toNat)]
  | .cpfill _ n dst _ _ => [(⟨false, true, true⟩, dst.toNat, n.toNat)]
  | .xred _ n ty _ src dst _ _ =>
    [(⟨true, true, false⟩, src.toNat, n.toNat * (tyWidth ty / 8)), (⟨true, true, false⟩, dst.toNat, n.toNat * (tyWidth ty / 8))]
  | .xbcast _ n ty src dst _ parts =>
    (⟨true, true, false⟩, src.toNat, n.toNat * (tyWidth ty / 8)) ::
      (List.range parts.toNat).map fun i =>
        (⟨false, true, false⟩, (match place dst.toNat with
          | .glob d off => if d + i < 8192 then globalEA (d + i) off else 0x18000
          | _ => 0x18000), n.toNat * (tyWidth ty / 8))
  | _ => []
/-- ALIGN of a command (R172, R211). -/
def alignedCmd : Instr → Bool
  | .cp2d _ n va sp _ _ _ _ => decide (n.toNat % 4 = 0 ∧ va.toNat % 64 = 0 ∧ sp.toNat % 4 = 0)
  | .cpin _ n a b _ | .cpout _ n a b _ | .cploc _ n a b _ => decide (n.toNat % 4 = 0 ∧ a.toNat % 4 = 0 ∧ b.toNat % 4 = 0)
  | .cpfill _ n a _ _ => decide (n.toNat % 4 = 0 ∧ a.toNat % 4 = 0)
  | .xred _ n ty _ a b _ _ | .xbcast _ n ty a b _ _ =>
    let z := tyWidth ty / 8
    decide (a.toNat % 4 = 0 ∧ b.toNat % 4 = 0 ∧ a.toNat % z = 0 ∧ b.toNat % z = 0 ∧ n.toNat * z % 4 = 0)
  | _ => true
/-- A reduction or broadcast of no elements or no parts, which R208's limits leave out: it faults FMT behind the other checks. (DESIGN CHOICE, log 63.) -/
def sizesBad : Instr → Bool
  | .xred _ n _ _ _ _ _ parts | .xbcast _ n _ _ _ _ parts => decide (n = 0 ∨ parts = 0)
  | _ => false
/-- The first cause of orders 1 to 3 (R172). (DEDUCED, log 32.) -/
def State.copyCheck (s : State) (c : Nat) (x : Ctx) (i : Instr) : Option Byte :=
  if ¬ alignedCmd i then some 0x02
  else if (sidesOf i).any fun p => !s.rangeAccess c x p.1 p.2.1 p.2.2 then some 0x03
  else if (sidesOf i).any fun p => !s.rangePerm x p.2.1 p.2.2 then some 0x06
  else if sizesBad i then some 0x0B
  else none

/-! ## Transfers (R170) -/

/-- Change a transfer of a core. -/
def State.onTransfer (s : State) (c : Nat) (t : Transfer) (f : Transfer → Transfer) : State :=
  s.onCore c fun k => { k with copies := k.copies.map fun u => if u.key = t.key then f u else u }
/-- A piece of a transfer is held at its streamer (R302). -/
def State.heldPiece (s : State) (c : Nat) (t : Transfer) : Bool :=
  s.held.any fun h => match h.step with
    | .copyPieceWrite d _ key _ => d == c && key == t.key
    | _ => false
/-- A transfer is next of its channel to be sent: every earlier one has been. -/
def Core.next (k : Core) (t : Transfer) : Bool :=
  !t.sent && (k.copies.find? fun u => u.chan == t.chan && !u.sent).any fun u => u.key == t.key
/-- Why the scratchpad of core `d` takes no data from the router of core `a` for a command of core `c` (R137, R219, R220, R222, R257): it cannot be
delivered, or a border refuses it, since the command's message and its data carry that core's territory. (DEDUCED, log 33.) -/
def State.pieceStop (s : State) (c a d : Nat) : Option Byte :=
  if (s.coreAt d).fenced ∨ s.way 23 a d = .edge then some 0x13
  else if s.borderOk 23 (some (s.tileAt (tileOf c)).ter) (s.crosses 23 a d || tileOf c != tileOf d) d then none else some 0x06
/-- The agent of a scratchpad takes a piece. -/
def State.takesPiece (s : State) (c a d : Nat) : Bool := (s.pieceStop c a d).isNone
/-- Read bytes at a scratchpad or translated address for a transfer of core `c`; a cause in their place where the read fails (R172). -/
def State.copyRead (s : State) (c vdev ea n : Nat) (id : Half) : State × Except Byte (List Byte) :=
  match scrPlace c ea with
  | some (d, off) =>
    match s.pieceStop c c d with
    | some e => (s, .error e)
    | none =>
      let r := s.mirRead d off n id
      (r.1, match r.2 with
        | some bs => .ok bs
        | none => .error 0x0C)
  | none =>
    match s.xlate vdev ea false with
    | .error e => (s, .error e)
    | .ok key => if s.bad key n then (s.noteBad key, .error 0x0D) else (s, .ok (s.gmem.read key n))
/-- Send a transfer: its checks, and its pieces left to write; an xbcast reads its bytes, an xred carries them to the agent of dst in packets of at most 64 bytes (R209–R211, R215). (DEDUCED, log 33.) -/
def State.sendTransfer (s : State) (c : Nat) (t : Transfer) : State :=
  match (s.coreAt c).byId t.ctx with
  | none => s.onTransfer c t fun u => { u with sent := true }
  | some x =>
    match s.copyCheck c x t.cmd with
    | some e => s.onTransfer c t fun u => { u with sent := true, fault := some e }
    | none =>
      match t.cmd with
      | .xred k n ty op src dst tl parts =>
        let r := s.copyRead c t.vdev src.toNat (n.toNat * (tyWidth ty / 8)) x.id
        match r.2 with
        | .error e => r.1.onTransfer c t fun u => { u with sent := true, fault := some e }
        | .ok bs =>
          let at' := (scrPlace c dst.toNat).getD (c, 0)
          (List.range ((bs.length + 63) / 64)).foldl (fun s i => s.issue c (s.agentPacket c (coord at'.1) 28 0 0 x.id t.vdev t.pc
            (.contribute k t.key (BitVec.ofNat 64 (globalEA at'.1 at'.2)) ty op parts tl (64 * i) bs.length (slice bs (64 * i) (min 64 (bs.length - 64 * i))))))
            (r.1.onTransfer c t fun u => { u with sent := true })
      | .xbcast _ n ty src _ _ parts =>
        let r := s.copyRead c t.vdev src.toNat (n.toNat * (tyWidth ty / 8)) x.id
        match r.2 with
        | .error e => r.1.onTransfer c t fun u => { u with sent := true, fault := some e }
        | .ok bs => r.1.onTransfer c t fun u => { u with sent := true, left := [(0, parts.toNat * bs.length)], bytes := bs }
      | i =>
        let n := match planOf i with
          | some p => p.rows * p.len
          | none => 0
        s.onTransfer c t fun u => { u with sent := true, left := if n = 0 then [] else [(0, n)] }
/-- Take `n` positions from `p` out of ranges. -/
def cutRange (l : List (Nat × Nat)) (p n : Nat) : List (Nat × Nat) :=
  l.flatMap fun r => if r.1 ≤ p ∧ p < r.2 then (if r.1 < p then [(r.1, p)] else []) ++ (if p + n < r.2 then [(p + n, r.2)] else []) else [r]
/-- Position `p` begins a piece that is still to be written. -/
def beginsPiece (l : List (Nat × Nat)) (p : Nat) : Bool := l.any fun r => decide (r.1 ≤ p ∧ p < r.2) && (decide (p = r.1) || decide (p % 64 = 0))
/-- Source, destination and length of the piece at position `p`: it stays in one row, one 64-byte line on both sides, and 64 positions. (DEDUCED, log 32.) -/
def CopyPlan.piece (c : CopyPlan) (p : Nat) : Nat × Nat × Nat :=
  let r := p / c.len
  let o := p % c.len
  let src := c.src + r * c.srcStep + o
  let dst := c.dst + r * c.dstStep + o
  (src, dst, min (min (64 - p % 64) (c.len - o)) (min (64 - src % 64) (64 - dst % 64)))
/-- The bytes written there are counted at the command's barrier (R170). -/
def State.countBytes (s : State) (t : CopyTail) (c n : Nat) : State := if t.barOn then s.barArrive c (.less t.bar n) else s
/-- The router of the agent at an address of a transfer of core `c`: a scratchpad's core, or the streamer of its page. -/
def State.agentAt (s : State) (c vdev ea : Nat) (write : Bool) : Nat :=
  match scrPlace c ea with
  | some (d, _) => d
  | none => match s.xlate vdev ea write with
    | .ok key => streamerAt key
    | .error _ => c
/-- The router of the agent beside a copy's source, which sends the data (R169). -/
def State.sourceAgent (s : State) (c : Nat) (t : Transfer) (src dst : Nat) : Nat :=
  match t.cmd with
  | .cpout _ _ _ _ _ | .cp2d _ _ _ _ _ true _ _ => c
  | .cpfill _ _ _ _ _ => s.agentAt c t.vdev dst true
  | _ => s.agentAt c t.vdev src false
/-- A page of a piece that is not mapped for its access (R172, order 4); a fill has no source. -/
def State.pieceFault (s : State) (t : Transfer) (fill : Bool) (src dst : Nat) : Option Byte :=
  let bad (ea : Nat) (w : Bool) : Option Byte := if inTrans ea then (match s.xlate t.vdev ea w with
    | .error e => some e
    | .ok _ => none) else none
  match (if fill then none else bad src false) with
  | some e => some e
  | none => bad dst true
/-- Write the piece at position `p` of a sent transfer, and count it; one for a protected page is held (R169, R302). -/
def State.writePiece (s : State) (c : Nat) (t : Transfer) (p : Nat) : State :=
  match planOf t.cmd, tailOf t.cmd with
  | some pl, some tl =>
    let q := pl.piece p
    let n := q.2.2
    let fault (s : State) (e : Byte) : State := s.onTransfer c t fun u => { u with fault := some e }
    match s.pieceFault t pl.fill.isSome q.1 q.2.1 with
    | some e => fault s e
    | none =>
      let a := s.sourceAgent c t q.1 q.2.1
      let stop : Option Byte := match scrPlace c q.2.1 with
        | some (d, _) => s.pieceStop c a d
        | none => if s.way 23 a (s.agentAt c t.vdev q.2.1 true) = Way.edge then some 0x13 else none
      match stop with
      | some e => fault s e
      | none =>
        let r : State × Except Byte (List Byte) := match pl.fill with
          | some w => (s, .ok ((List.range n).map fun i => (leBytes 4 w.toNat).getD ((p + i) % 4) 0))
          | none => s.copyRead c t.vdev q.1 n t.ctx
        match r.2 with
        | .error e => fault r.1 e
        | .ok bs =>
          match scrPlace c q.2.1 with
          | some (d, off) => (r.1.agentWrite d off bs t.ctx).countBytes tl (barCore tl) n
          | none =>
            match r.1.xlate t.vdev q.2.1 true with
            | .error e => fault r.1 e
            | .ok key =>
              if r.1.isProt key then r.1.holdWrite (.copyPieceWrite c t.chan t.key p) key bs
              else (r.1.gput c key bs).countBytes tl (barCore tl) n
  | _, _ => s
/-- A piece of a transfer of core `c` that has been held is written at its place and counted, whatever became of its transfer (R170, R302). -/
def State.heldPieceAt (s : State) (c key place : Nat) (bs : List Byte) : State :=
  let s := s.gput c place bs
  match (s.coreAt c).copies.find? (·.key = key) with
  | none => s
  | some t => match tailOf t.cmd with
    | some tl => s.countBytes tl (barCore tl) bs.length
    | none => s
/-- The data of the piece at position `p` circles in the mesh and does not arrive (R220). -/
def State.pieceAstray (s : State) (c : Nat) (t : Transfer) (p : Nat) : Bool :=
  match planOf t.cmd with
  | none => false
  | some pl =>
    let q := pl.piece p
    s.way 23 (s.sourceAgent c t q.1 q.2.1) (s.agentAt c t.vdev q.2.1 true) == .astray
/-- The transfer that a step of a copy channel acts on: one that its test lets move. -/
def State.moving (s : State) (c : Nat) (k : BitVec 2) (key : Nat) (ok : Transfer → Bool) : Option Transfer :=
  (s.coreAt c).copies.find? fun t => t.chan == k && t.key == key && t.fault.isNone && !t.done && ok t
/-- R169, R170: a piece of transfer `key` of core `c` is written at its destination and counted at its barrier; the first one of a transfer sends it,
which checks it first (R172). For xred this step carries the contribution to its agent. (DEDUCED, log 32.) -/
def execCopyPieceWrite (c : Nat) (k : BitVec 2) (key : Nat) (piece : Nat) (s : State) : Res :=
  atCore c s fun s =>
    match s.moving c k key (s.coreAt c).next with
    | some t => s.sendTransfer c t
    | none =>
      match s.moving c k key fun t => (planOf t.cmd).isSome && beginsPiece t.left piece && !s.pieceAstray c t piece with
      | none => s
      | some t =>
        match planOf t.cmd with
        | none => s
        | some p => (s.onTransfer c t fun u => { u with left := cutRange u.left piece (p.piece piece).2.2 }).writePiece c t piece
/-- A message of a broadcast (R210, R215): position `p` counts the bytes of one target after another. Its target core, the offset written there, the place in
the broadcast's bytes and the length, at most 64. -/
def Transfer.bcast (t : Transfer) (c : Nat) (dst : DWord) (p : Nat) : Nat × Nat × Nat × Nat :=
  let at' := (scrPlace c dst.toNat).getD (c, 0)
  let o := p % t.bytes.length
  (at'.1 + p / t.bytes.length, at'.2 + o, o, min 64 (t.bytes.length - o))
/-- Position `p` begins a message of a broadcast that is still to be written. -/
def Transfer.bcastLeft (t : Transfer) (p : Nat) : Bool := decide (p % t.bytes.length % 64 = 0) && t.left.any fun r => decide (r.1 ≤ p ∧ p < r.2)
/-- R210: a message of a broadcast, at most 64 of its bytes, is written at its target core, and counted at its barrier there. (DEDUCED, log 33.) -/
def execXbcastWrite (c : Nat) (k : BitVec 2) (key : Nat) (piece : Nat) (s : State) : Res :=
  atCore c s fun s =>
    match s.moving c k key fun t => t.bcastLeft piece with
    | none => s
    | some t =>
      match t.cmd with
      | .xbcast _ _ _ _ dst tl _ =>
        let q := t.bcast c dst piece
        if s.way 23 c q.1 = .astray then s else
        let s := s.onTransfer c t fun u => { u with left := cutRange u.left piece q.2.2.2 }
        match s.pieceStop c c q.1 with
        | some e => s.onTransfer c t fun u => { u with fault := some e }
        | none => (s.agentWrite q.1 q.2.1 (slice t.bytes q.2.2.1 q.2.2.2) t.ctx).countBytes tl q.1 q.2.2.2
      | _ => s
/-- Every byte of a transfer has been performed, or it has faulted with no piece held (R170, R172). -/
def State.transferOver (s : State) (c : Nat) (t : Transfer) : Bool :=
  t.sent && !s.heldPiece c t && (t.fault.isSome || (match t.cmd with
    | .xred _ _ _ _ _ _ _ _ => t.done
    | _ => t.left.isEmpty))
/-- A completion record enters q1, or waits behind those that wait (R170). -/
def Ctx.record (x : Ctx) (r : Word × BitVec 2) : Ctx :=
  if x.q1wait.isEmpty ∧ x.q1.length < 16 then { x with q1 := x.q1 ++ [r] } else { x with q1wait := x.q1wait ++ [r] }
/-- R170, R172: transfer `key` of core `c` completes: XIDC passes it and a record is made; one that faulted takes with it the transfers of its channel and
context that have not been sent, and its trap becomes pending. -/
def execCopyComplete (c : Nat) (k : BitVec 2) (key : Nat) (s : State) : Res :=
  atCore c s fun s =>
    match (s.coreAt c).copies.find? fun t => t.chan == k && t.key == key && s.transferOver c t with
    | none => s
    | some t =>
      let mine (u : Transfer) : Bool := u.ctx == t.ctx && u.chan == k
      let s' := s.onCore c fun e => { e with copies := e.copies.filter fun u => u.key ≠ key }
      match t.fault with
      | none =>
        s'.onCore c fun e => e.onId t.ctx fun x =>
          let x := x.xidDone k t.id
          if (tailOf t.cmd).any (·.toQ1) then x.record (t.id, k) else x
      | some code =>
        let gone := (s'.coreAt c).copies.filter fun u => mine u && !u.sent
        s'.onCore c fun e =>
          ({ e with copies := e.copies.filter fun u => !(mine u && !u.sent) } : Core).onId t.ctx fun x =>
            let x := (t :: gone).foldl (fun x u => x.xidDone k u.id) x
            { x with cdrop := if x.cdrop.contains k then x.cdrop else x.cdrop ++ [k]
                     faults := x.faults ++ [⟨1 + k.toNat, code, t.id, t.pc⟩] }
/-- R170: the oldest waiting record of each resident context of core `c` whose q1 has room enters it. -/
def execQ1Record (c : Nat) (s : State) : Res :=
  atCore c s fun s => s.onCore c fun k =>
    let f (x : Ctx) : Ctx := match x.q1wait with
      | [] => x
      | r :: rs => if x.q1.length < 16 then { x with q1 := x.q1 ++ [r], q1wait := rs } else x
    { k with ctx := f k.ctx, others := k.others.map f }

/-! ## The reduction agent (R209) -/

/-- Combine one lane of two values of a type: sum under RNE or wrapping, max, min (R115). -/
def combineLane (ty : VTy) (op : BitVec 2) (a b : Nat) : Nat :=
  let w := tyWidth ty
  let f := tyFmt ty
  match op.toNat with
  | 0 => if ty.isFloat then ((addV .rne (f.value a) (f.value b)).into f .rne 0).1 else wrap w (intLane ty a + intLane ty b)
  | o =>
    if ty.isFloat then ((minmaxV (o = 1) (f.value a) (f.value b)).into f .rne 0).1
    else if (intLane ty a < intLane ty b) ↔ o = 1 then b else a
/-- Combine the bytes of two runs of lanes. -/
def combine (ty : VTy) (op : BitVec 2) (a b : List Byte) : List Byte :=
  let z := tyWidth ty / 8
  (List.range (b.length / z)).flatMap fun i => leBytes z (combineLane ty op (le a (z * i) z) (le b (z * i) z))
/-- The contribution of a transfer has been combined. -/
def State.contributed (s : State) (c key : Nat) : State :=
  s.onCore c fun e => { e with copies := e.copies.map fun t => if t.key = key then { t with done := true } else t }
/-- The parts of a contribution of a transfer that have come to the agent, with one more. -/
def Core.parts (k : Core) (src : BitVec 21) (key : Nat) : List Part := k.arrived.filter fun a => a.src = src && a.key = key
/-- Parts, put together by their places, are a contribution of `total` bytes; none while some are missing (R215). -/
def gathered (ps : List Part) (total : Nat) : Option (List Byte) :=
  if (ps.map (·.bytes.length)).sum < total then none
  else some (ps.foldl (fun bs p => bs.take p.off ++ p.bytes ++ bs.drop (p.off + p.bytes.length)) (List.replicate total 0))
/-- The packet of a contribution that comes last brings it together at its agent: its bytes, with those of the parts that came before. -/
def State.wholeOf (s : State) (d : Nat) (p : Packet) : Option (List Byte) := match p.body with
  | .contribute _ key _ _ _ _ _ off total bs => gathered ((s.coreAt d).parts p.src key ++ [⟨p.src, key, off, bs⟩]) total
  | _ => none
/-- R209: a contribution is combined at the agent of dst's core, once all its packets have come (R215), and closes its round at the part count; with 8
rounds open a new one waits. -/
def execXredContribution (p : Packet) (s : State) : Res :=
  .next <|
  match p.body with
  | .contribute _ key dst ty op parts tl at' _ piece =>
    let me := ofCoord p.src
    match scrPlace me dst.toNat with
    | none => s.fails p 0x03
    | some (d, off) =>
      let z := tyWidth ty / 8
      if (s.coreAt d).fenced then s.fails p 0x13 else
      match s.wholeOf d p with
      | none => s.onCore d fun e => { e with arrived := e.arrived ++ [⟨p.src, key, at', piece⟩] }
      | some bs =>
      let n := bs.length / z
      match (s.coreAt d).rounds.find? (·.dst = dst), decide ((s.coreAt d).rounds.length < 8) with
      | none, false => s.send (.xredContribution p)
      | o, _ =>
        let s := s.onCore d fun e => { e with arrived := e.arrived.filter fun a => !(a.src = p.src && a.key = key) }
        let r := o.getD ⟨dst, n, ty, op, parts.toNat, 0⟩
        if r.count ≠ n ∨ r.ty ≠ ty ∨ r.op ≠ op ∨ r.parts ≠ parts.toNat then s.copyFault me key 0x0B else
        let q : State × Option (List Byte) := if r.k = 0 then (s, some bs) else
          let v := s.scrRead d off bs.length p.ctx
          (v.1, v.2.map fun old => combine ty op old bs)
        match q.2 with
        | none => q.1.copyFault me key 0x0C
        | some new =>
          let s := (List.range ((new.length + 63) / 64)).foldl (fun s i => s.agentWrite d (off + 64 * i) ((new.drop (64 * i)).take 64) p.ctx) q.1
          let rest := (s.coreAt d).rounds.filter (·.dst ≠ dst)
          let full := decide (r.k + 1 = r.parts)
          let s := (s.onCore d fun e => { e with rounds := if full then rest else rest ++ [{ r with k := r.k + 1 }] }).contributed me key
          if full then s.countBytes tl (barCore tl) bs.length else s
  | _ => s

/-! ## Global memory at its streamers (R237, R281, R302) -/

/-- R237: a released store is performed at its page's streamer; a page under protection holds it (R302). (DEDUCED, log 48.) -/
def execGlobalStorePerformed (c : Nat) (key : Nat) (bytes : List Byte) (why : GlobalWrite) (s : State) : Res :=
  .next (s.gwriteBy c key bytes why)
/-- R302: a write to a protected page is held at its streamer, which reads the page ahead of every other access; to another page it is performed. -/
def execProtectedWrite (key : Nat) (bytes : List Byte) (why : GlobalWrite) (s : State) : Res :=
  .next (if s.isProt key then s.holdWrite (.protectedWrite key bytes why) key bytes else s.gset key bytes)
/-- R281, R310: a host read or write of HBM is performed at the page's streamer; the bytes a read gives leave the part. (DEDUCED, log 49.) -/
def execHostMemAccess (key : Nat) (w : Option (List Byte)) (n : Nat) (s : State) : Res :=
  .next (match w with
    | some bs => s.gwrite key bs
    | none => if s.bad key n then s.noteBad key else s)

end Sys2Proof.Machine
end

