-- ==== Sys2Proof/Machine/Parity.lean ====
section
/-! DEFINITION. The parity updater, the scrubber, the write-back of corrected words, and the retirement of a bank with the fencing of a core
(R129–R140). -/

namespace Sys2Proof.Machine

/-- R130, R131: a group whose wait count has reached 63: its next cycle is the updater's. -/
def Core.forced (k : Core) (g : Nat) : Bool := decide (63 ≤ k.waitCount g)
/-- The rows of a group that firings wait for in psync (R131, R133), of this core's scratchpad. -/
def State.syncRows (s : State) (c g : Nat) : List Nat :=
  (tileCores (tileOf c)).flatMap fun d => match (s.coreAt d).status with
    | .waiting (.sync e ps) => if e = c then (ps.filter (·.2 = g)).map (·.1) else []
    | _ => []
/-- The lowest of some rows. -/
def lowest (rows : List Nat) : Option Nat := rows.foldl (fun m r => match m with
  | none => some r
  | some x => some (min x r)) none
/-- The pair the updater serves next in a group: the rows that a psync names first, then the lowest stale row (R131). -/
def State.nextRow (s : State) (c g : Nat) : Option Nat :=
  let st := ((s.coreAt c).stale.filter (·.2 = g)).map (·.1)
  match lowest (st.filter (s.syncRows c g).contains) with
  | some r => some r
  | none => lowest st
/-- The pair has been fresh: no psync waits for it any longer (R133). -/
def State.freshen (s : State) (c row g : Nat) : State := s.freshenBy c (· = (row, g))
/-- The words of a group's row are read to make up its parity word (R134); false when one of them cannot be. -/
def Core.rowRead (k : Core) (g row : Nat) (cycle : DWord) (syn : Byte) : Core × Bool :=
  (List.range 4).foldl (fun (a : Core × Bool) i => let q := a.1.readDirect (4 * g + i) row 0 cycle syn; (q.1, a.2 && q.2)) (k, true)
/-- The parity word of a pair has been written anew: the pair is fresh. -/
def Core.refreshed (k : Core) (g row : Nat) : Core := { k.cleanWord (16 + g) row with stale := k.stale.filter (· ≠ (row, g)) }
/-- R129, R131: the updater of core `c` recomputes the parity word of a stale pair of group `g`, reading its four data words under R134; a pair
whose words cannot all be read stays stale. The group's wait count is zero at this cycle. -/
def State.updateParity (s : State) (c g : Nat) : State :=
  match s.nextRow c g with
  | none => s
  | some row =>
    let k := { s.coreAt c with waits := vset (s.coreAt c).waits g 0 }
    let r := k.rowRead g row s.cycle s.syn
    if ¬ r.2 then s.putCore c r.1 else (s.putCore c (r.1.refreshed g row)).freshen c row g
/-- R131: the updater takes an idle cycle of a group. (DEDUCED, log 34.) -/
def execParityUpdate (c g : Nat) (s : State) : Res := if 4 ≤ g then .fault .noSuchAgent else atCore c s fun s => s.updateParity c g
/-- R131: the updater takes the cycle that a wait count of 63 gives it. -/
def execParityForcedUpdate (c g : Nat) (s : State) : Res :=
  if 4 ≤ g then .fault .noSuchAgent else atCore c s fun s => if (s.coreAt c).forced g then s.updateParity c g else s
/-- R131, R134: the scrubber reads one word of a bank and moves to the next row; a single-bit error is corrected, and a double-bit error of a
parity word makes its pair stale. -/
def execScrub (c bank : Nat) (s : State) : Res :=
  if 20 ≤ bank then .fault .noSuchAgent else
  atCore c s fun s => s.onCore c fun k =>
    let row := vget k.scrubRow bank 0
    let r := ({ k with scrubRow := vset k.scrubRow bank ((row + 1) % 768) } : Core).sense bank row
    match r.2 with
    | [] => r.1
    | [_] => r.1.corrected bank row 0 s.cycle s.syn
    | _ => if 16 ≤ bank then r.1.markStale (wordAt (4 * (bank - 16)) row) else r.1
/-- R134: a corrected or reconstructed word is written back in an idle cycle of its bank. (DEDUCED, log 34.) -/
def execCorrectedWriteback (c bank row : Nat) (s : State) : Res :=
  atCore c s fun s => s.onCore c fun k =>
    if k.fixes.contains (bank, row) then k.cleanWord bank row else k
/-- Four lasting errors of a bank, the last within 2^32 cycles of the first (R136). -/
def Core.worn (k : Core) (bank : Nat) : Bool :=
  let es := (k.lasting.filter (·.1 = bank)).map (·.2.toNat)
  (List.range es.length).any fun i => decide (i + 3 < es.length) && decide (es.getD (i + 3) 0 - es.getD i 0 ≤ 2 ^ 32)
/-- R137, R152: a core is fenced off: its contexts are lost, each posted as 0x0103, every channel with an end there is suspect, and it takes no
further firings. -/
def State.fenceOff (s : State) (c : Nat) : State :=
  let s := (s.coreAt c).ctxs.foldl (fun s x => (s.removeCtx c x.id).postLaunch x.launch
    (event [(0, 2, 0x0103), (2, 2, x.id.toNat), (4, 4, (coord c).toNat), (8, 8, s.cycle.toNat)])) s
  (s.suspectAll fun k => k.producer == coord c || k.consumer == coord c).onCore c fun k => { k with fenced := true }
/-- R136, step 2: a stale pair of the retiring group is refreshed; one whose words cannot all be read stays stale. -/
def Core.renew (k : Core) (g row : Nat) (cycle : DWord) (syn : Byte) : Core :=
  let r := k.rowRead g row cycle syn
  if r.2 then r.1.refreshed g row else r.1
/-- R136, steps 3 and 4: the word of the failed bank in one row, taken by R134; one that cannot be read is poisoned in Pg and logged,
under the failed bank's number (DESIGN CHOICE, log 70). -/
def Core.rebuildRow (k : Core) (bank row : Nat) (cycle : DWord) (syn : Byte) : Core :=
  let q := k.readDirect bank row 0 cycle syn
  let w := wordAt bank row
  if q.2 then q.1 else { q.1.logErr bank row 7 0 cycle syn with poison := if q.1.poison.contains w then q.1.poison else q.1.poison ++ [w] }
/-- R136: Pg takes over the failed bank, row by row, after the group's stale pairs have been refreshed. -/
def Core.rebuild (k : Core) (bank : Nat) (cycle : DWord) (syn : Byte) (row : Nat) : Core :=
  let g := bank / 4
  let k := (k.stale.filter (·.2 = g)).foldl (fun k p => k.renew g p.1 cycle syn) k
  let k := (List.range 768).foldl (fun k row => k.rebuildRow bank row cycle syn) k
  { k.logErr bank row 6 0 cycle syn with
    degraded := upd k.degraded g bank
    stale := k.stale.filter (·.2 ≠ g)
    flips := k.flips.filter fun f => f.bank ≠ 16 + g && f.bank ≠ bank
    fixes := k.fixes.filter fun f => f.1 ≠ 16 + g && f.1 ≠ bank }
/-- R136, R137: a worn bank of core `c` retires; a second one of its group fences the core off. The psyncs that wait for the group are served:
its stale pairs are refreshed first. A lasting error of Pg in the failed bank's place counts to that bank, which has retired and never fences the core
(DESIGN CHOICE, log 70). -/
def execBankRetirement (c bank : Nat) (s : State) : Res :=
  if 16 ≤ bank then .fault .noSuchAgent else
  atCore c s fun s =>
    let k := s.coreAt c
    if ¬ k.worn bank ∨ k.fenced then s else
    match look k.degraded (bank / 4) with
    | some b => if b = bank then s else s.fenceOff c
    | none =>
      let s := s.freshenBy c (·.2 = bank / 4)
      s.onCore c fun k => k.rebuild bank s.cycle s.syn ((Config.word s.tick).toNat % 1024)

end Sys2Proof.Machine
end

