-- ==== Sys2Proof/Machine/Territory.lean ====
section
/-! DEFINITION. Territories: the drift round (R252–R254), the transfer of a tile (R246, R255–R257), clearing (R256), and sharing over time
(R260, R261, R277). -/

namespace Sys2Proof.Machine

/-! ## Upcalls and the tiles of a territory (R246, R258) -/

/-- The tiles of a territory. -/
def State.tilesOf (s : State) (ter : BitVec 6) : List Nat := (List.range 64).filter fun t => (s.tileAt t).ter == ter
def maskOf (ts : List Nat) : DWord := ts.foldl (fun m t => m ||| ((1 : DWord) <<< t)) 0
/-- The event word of a territory upcall (R246). -/
def upcallWord (code t other : Nat) : Word := BitVec.ofNat 32 (code + 256 * t + 2 ^ 14 * other)
/-- An upcall that nobody takes is dropped and logged (R246, R258). (DESIGN CHOICE, log 31.) -/
def State.dropCall (s : State) (evt : Word) : State := { s with dropped := s.dropped ++ [(evt, s.cycle)] }
/-- A context of a core, resident there or switched out (R261). -/
def State.ctxOf (s : State) (c : Nat) (id : Half) : Option Ctx :=
  ((s.coreAt c).byId id).orElse fun _ => (s.swapped.find? fun w => w.core = c && w.ctx.id = id).map (·.ctx)
/-- Tile `t` raises an upcall for a context of core `c` (R246, R317); it is refused and retried while the context is switched out (R179). -/
def State.upcall (s : State) (t c : Nat) (id : Half) (evt : Word) (payload : List Byte) : State :=
  match s.ctxOf c id with
  | none => s.dropCall evt
  | some x =>
    match x.upcls with
    | none => s.dropCall evt
    | some cls => s.issue (territoryCore t) (s.agentPacket (territoryCore t) (coord c) 25 cls 0 id x.vdev 0 (.upcall evt payload))
/-- The steward of a territory (R258). -/
def State.stewardOf (s : State) (ter : BitVec 6) : Option (Half × Nat) := (s.tilesOf ter).findSome? fun t => (s.tileAt t).steward
/-- The steward of a territory gets an upcall; that of a territory without one is dropped and logged. -/
def State.tellSteward (s : State) (ter : BitVec 6) (t : Nat) (evt : Word) (payload : List Byte) : State :=
  match s.stewardOf ter with
  | none => s.dropCall evt
  | some (id, c) => s.upcall t c id evt payload

/-! ## The round (R252–R254) -/

/-- Demand as a tile measures it: cores that run a firing and run-queue records (R252). -/
def State.measured (s : State) (t : Nat) : Nat :=
  (tileCores t).foldl (fun n c => let k := s.coreAt c; n + (if k.status = .idle then 0 else 1) + k.runq.length) 0
/-- The 8-neighbours of a tile: E, NE, N, NW, W, SW, S, SE; none beyond the edge (R254). -/
def ring (t : Nat) : List (Option Nat) :=
  let x := t % 8
  let y := t / 8
  let at' (east west south north : Bool) : Option Nat :=
    if (east && x == 7) || (west && x == 0) || (south && y == 7) || (north && y == 0) then none
    else some (t + (if east then 1 else 0) + (if south then 8 else 0) - (if west then 1 else 0) - (if north then 8 else 0))
  [at' true false false false, at' true false false true, at' false false false true, at' false true false true,
   at' false true false false, at' false true true false, at' false false true false, at' true false true false]
/-- The 4-neighbour of a tile on a side: 0 N, 1 E, 2 S, 3 W. -/
def side (t i : Nat) : Option Nat := ((ring t).getD (match i with
  | 0 => 2
  | 1 => 0
  | 2 => 6
  | _ => 4) none)
/-- The cession number C around a tile of the tiles that a territory owns (R254). -/
def State.cession (s : State) (n : Nat) (b : BitVec 6) : Int :=
  let x (k : Nat) : Int := match (ring n).getD (k % 8) none with
    | some t => if (s.tileAt t).ter = b then 1 else 0
    | none => 0
  [0, 2, 4, 6].foldl (fun c k => c + (x k - x k * x (k + 1) * x (k + 2))) 0
/-- Pressure that counts in a decision: 0 for a free tile (R247). -/
def Tile.pressure (t : Tile) : Nat := if t.ter = 0 then 0 else t.press.toNat
/-- A tile that decides keeps its owner and considers no claim (R253). -/
def State.keeps (s : State) (n : Nat) : Bool :=
  let k := s.tileAt n
  k.anchor || k.shared || k.hold != 0 || k.xfer != .none || (ring n).any fun o => match o with
    | some t => (s.tileAt t).xfer != .none
    | none => false
/-- The gap of an eligible claim on `n` from a side (R253). -/
def State.claim (s : State) (n i : Nat) : Option Nat :=
  match side n i with
  | none => none
  | some t =>
    let a := s.tileAt t
    let k := s.tileAt n
    let gap := a.pressure - k.pressure
    if a.ter ≠ 0 ∧ a.ter ≠ k.ter ∧ a.xfer = .none ∧ (s.drthr &&& 0xFFFF).toNat < gap ∧ (k.ter = 0 ∨ (2 ≤ k.size.toNat ∧ s.cession n k.ter = 1)) then some gap else none
/-- The winning side: the largest gap, equal ones by the scan from the side pointer (R247). -/
def State.winner (s : State) (n : Nat) : Option Nat :=
  let order := (List.range 4).map fun i => ((s.tileAt n).side.toNat + i) % 4
  let best := order.foldl (fun m i => max m ((s.claim n i).getD 0)) 0
  order.find? fun i => s.claim n i == some best
/-- Parked firings of a core are discarded (R255). -/
def Core.dropParks (k : Core) : Core :=
  { k with parks := [], runq := k.runq.filter fun r => match r with
             | .fresh _ => true
             | .parked _ _ _ _ => false
           waiting := k.waiting.filter fun w => match w with
             | .park _ => false
             | _ => true }
def State.dropParks (s : State) (t : Nat) : State := (tileCores t).foldl (fun s c => if (s.coreAt c).parks.isEmpty then s else s.onCore c Core.dropParks) s
/-- Tile `n` decides, reading what was fixed at the phase's first cycle (R253, R259). -/
def State.settleTile (fixed s : State) (n : Nat) : State :=
  if fixed.keeps n then s else
  match fixed.winner n with
  | none => s
  | some i =>
    match side n i with
    | none => s
    | some t => (s.onTile n fun k => { k with side := BitVec.ofNat 2 (i + 1), xfer := .quiesce (fixed.tileAt t).ter.toNat }).dropParks n
/-- R252: the phase in force, as a count from the start. -/
def State.phaseNow (s : State) : Nat := s.cycle.toNat / (s.driv &&& 0x1FFFFFF).toNat
/-- R252, R253: the first cycle of the next phase: hold-downs at a round's start, demand and pressure of every owned tile, then the decisions. (DEDUCED, log 36.) -/
def execDriftPhase (s : State) : Res :=
  .next <|
  if s.phaseNow ≤ s.phase then s else
  let p := (s.phase + 1) % 9
  let s := { s with phase := s.phase + 1 }
  let s := if p = 0 then (List.range 64).foldl (fun s t => s.onTile t fun k => { k with hold := if k.hold = 0 then 0 else k.hold - 1 }) s else s
  let s := (List.range 64).foldl (fun s t =>
    if (s.tileAt t).ter = 0 then s else
    let d := s.measured t
    s.onTile t fun k => (if k.stated then k else { k with demand := BitVec.ofNat 16 (min 65535 d) }).withPress) s
  ((List.range 64).filter fun t => t % 8 % 3 + 3 * (t / 8 % 3) = p).foldl (fun a n => State.settleTile s a n) s

/-! ## A transfer (R255–R257) -/

/-- Every core of a tile is free of firings. -/
def State.quiet (s : State) (t : Nat) : Bool := (tileCores t).all fun c => (s.coreAt c).status == .idle && (s.coreAt c).under.isNone
/-- No context is resident in a tile. -/
def State.vacant (s : State) (t : Nat) : Bool := (tileCores t).all fun c => (s.coreAt c).ctxs.isEmpty
/-- Step 3: the old owner's steward receives LOSS; the tile then waits for its requests to end. -/
def State.vacated (s : State) (t dst dropped : Nat) : State :=
  let b := (s.tileAt t).ter
  let s := s.onTile t fun k => { k with xfer := .drain dst }
  if b = 0 then s
  else s.tellSteward b t (upcallWord 2 t dst) (leBytes 8 (maskOf ((s.tilesOf b).filter (· ≠ t))).toNat ++ leBytes 4 dropped ++ leBytes 4 0)
/-- R255 step 1's end: VACATE goes to every resident context; the budget begins when it is delivered. (DEDUCED, log 36.) -/
def execTransferQuiesced (t : Nat) (s : State) : Res :=
  if 64 ≤ t then .fault .noSuchAgent else .next <|
  match (s.tileAt t).xfer with
  | .quiesce dst =>
    if ¬ s.quiet t then s else
    let s := s.dropParks t
    if s.vacant t then s.vacated t dst 0 else
    let s := s.onTile t fun k => { k with xfer := .vacate dst 0 s.cycle.toNat }
    (tileCores t).foldl (fun s c =>
      ((s.coreAt c).ctxs.map (·.id)).foldl (fun s id =>
        (s.onCore c fun k => k.onId id fun x => { x with vacate := true }).upcall t c id (upcallWord 1 t dst) (leBytes 4 (s.vacb &&& 0xFFFFFF).toNat)) s) s
  | _ => s
/-- Step 2 ends once no context is resident. -/
def State.maybeVacated (s : State) (t : Nat) : State :=
  match (s.tileAt t).xfer with
  | .vacate dst n _ => if s.vacant t then s.vacated t dst n else s
  | _ => s
/-- Step 2 of every transfer ends as soon as no context is resident, whatever took the last one away. -/
def State.tidyVacant (s : State) : State :=
  (List.range 64).foldl (fun s t => match (s.tileAt t).xfer with
    | .vacate _ _ _ => s.maybeVacated t
    | _ => s) s
/-- A context that has executed vdone has no firing left on its core (R255). -/
def Core.departing (k : Core) (slot : Nat) : Bool :=
  (k.ctxs.any fun x => x.slot = slot && x.vdone)
    && !(k.resident && k.ctx.slot == slot && k.status != .idle) && !(k.parks.any fun p => p.slot = slot)
/-- R255: a context that executed vdone is removed once its firing has ended. -/
def execContextRemoval (c slot : Nat) (s : State) : Res :=
  atCore c s fun s =>
    match (s.tileAt (tileOf c)).xfer, (s.coreAt c).ctxs.find? fun x => x.slot = slot with
    | .vacate _ _ _, some x => if (s.coreAt c).departing slot then (s.removeCtx c x.id).maybeVacated (tileOf c) else s
    | _, _ => s
/-- A VACATE upcall for a tile is on its way. -/
def State.vacateFlies (s : State) (t : Nat) : Bool := s.agenda.any fun e => (evPacket e).any fun p => isVacateCall p && tileOf (ofCoord p.dst) == t
/-- The LOSS upcall of a tile is on its way: step 3 has not ended (R255, R257). -/
def State.lossFlies (s : State) (t : Nat) : Bool := s.agenda.any fun e => (evPacket e).any (isLossCall t)
/-- The budget of a tile's step 2 has run out. -/
def State.overBudget (s : State) (t : Nat) : Bool := match (s.tileAt t).xfer with
  | .vacate _ _ since => decide (since + (s.vacb &&& 0xFFFFFF).toNat ≤ s.cycle.toNat) && !s.vacateFlies t
  | _ => false
/-- The contexts of a core that stand at an instruction boundary, or do not run: a dropped one stops there (R255). -/
def Core.droppable (k : Core) : List Half := (k.ctxs.filter fun x => !(k.resident && k.ctx.slot == x.slot && k.status.inside)).map (·.id)
/-- No commit of a tile is under way. -/
def State.noGrant (s : State) (t : Nat) : Bool := (s.tileAt t).granted.isEmpty
/-- R255: the budget runs out: the contexts still resident are dropped, each posted as 0x0301; one inside an instruction follows at its next boundary.
(DEDUCED, log 36.) -/
def execVacateBudgetExpiry (t : Nat) (s : State) : Res :=
  if 64 ≤ t then .fault .noSuchAgent else .next <|
  match (s.tileAt t).xfer with
  | .vacate dst n since =>
    if ¬ s.overBudget t ∨ ¬ s.noGrant t then s else
    let r := (tileCores t).foldl (fun (a : State × Nat) c =>
      (a.1.coreAt c).droppable.foldl (fun a id => (a.1.dropCtx c id, a.2 + 1)) a) (s, n)
    (r.1.onTile t fun k => { k with xfer := .vacate dst r.2 since }).maybeVacated t
  | _ => s
/-- A packet in flight that core `c` has sent as a request, a copy or a command. -/
def evFrom (c : Nat) (e : Ev) : Bool :=
  match evPacket e with
  | none => false
  | some p => p.src == coord c && (match p.body with
    | .upcall _ _ | .start _ _ => false
    | _ => true)
/-- Commands, copies and requests of a core have completed, failed or been discarded (R255 step 4). -/
def State.spent (s : State) (c : Nat) : Bool :=
  let k := s.coreAt c
  k.commands.isEmpty && k.copies.isEmpty && k.pool.isEmpty && !s.agenda.any (evFrom c) && !s.held.any (fun h => evFrom c h.step) && !s.globalBusy c
/-- A step in flight is a request that an agent of a core of tile `t` has accepted and not performed (R257). -/
def evInto (t : Nat) (e : Ev) : Bool := match agentOf e, evPacket e with
  | some (_, d), some p => !Packet.toStreamer p && tileOf (ofCoord d) == t
  | _, _ => false
/-- A context that has been put out of its core is gone: its channels, its directory record, its stubs, its stewardship (R152, R255, R258). -/
def State.forgetSwapped (s : State) (w : Swapped) : State :=
  let s := s.endsLost w.core w.ctx.id
  let s := s.onTile (tileOf w.core) fun t => if t.steward = some (w.ctx.id, w.core) then { t with steward := none } else t
  let s := match s.homeOf (s.tileAt (tileOf w.core)).ter with
    | none => s
    | some h => s.onTile h fun t => { t with dir := del t.dir w.ctx.id }
  s.stripStubs (s.tileAt (tileOf w.core)).ter w.ctx.id
/-- A core as a cleared tile leaves it (R256). (DEDUCED, log 35.) -/
def Core.cleared (k : Core) : Core :=
  { Core.reset with
    scrubRow := k.scrubRow, lasting := k.lasting, degraded := k.degraded, errcnt := k.errcnt, einj := k.einj, errlog := k.errlog, doubles := k.doubles,
    seqReq := k.seqReq, seqRep := k.seqRep, routes := k.routes, fenced := k.fenced, serial := k.serial }
/-- A tile is cleared: its cores, its context store, and the channels whose consumer lies in it, with their drawn bytes given back (R256). (DEDUCED, log 29.) (DEDUCED, log 35.) -/
def State.clearTile (s : State) (t : Nat) : State :=
  let s := match s.homeOf (s.tileAt t).ter with
    | none => s
    | some h => let n := ((s.tileAt t).chans.map Chan.drawn).sum; s.onTile h fun k => { k with pool := k.pool + BitVec.ofNat 64 n }
  let s := (s.swapped.filter fun w => tileOf w.core = t).foldl State.forgetSwapped s
  let s := (tileCores t).foldl (fun s c => s.onCore c Core.cleared) s
  let s := { s with swapped := s.swapped.filter fun w => tileOf w.core ≠ t }
  s.onTile t fun k => { k with chans := [], store := [], reqs := [], ptr := 0, granted := [], solo := [] }
/-- Step 3 has ended, LOSS having been received or lost, and every command, copy and request of a tile's cores is over (R255, R257). -/
def State.mayClear (s : State) (t : Nat) : Bool := !s.lossFlies t && (tileCores t).all s.spent && !s.agenda.any (evInto t)
/-- R255 steps 4 and 5: the tile is cleared and changes owner, and notices leave for the tiles of both territories. -/
def execTileClearComplete (t : Nat) (s : State) : Res :=
  if 64 ≤ t then .fault .noSuchAgent else .next <|
  match (s.tileAt t).xfer with
  | .drain dst =>
    if ¬ s.mayClear t then s else
    let src := (s.tileAt t).ter
    let a : BitVec 6 := BitVec.ofNat 6 dst
    let s := s.clearTile t
    let old := if src = 0 then [] else (s.tilesOf src).filter (· ≠ t)
    let new := s.tilesOf a
    let shared := (s.homeOf a).any fun h => decide (2 ≤ (s.tileAt h).times.length)
    let note := (old.map fun u => (u, false)) ++ new.map fun u => (u, true)
    let s := s.onTile t fun k => { k with
      ter := a, hold := (s.drhold &&& 0xF).setWidth 4, stated := false, demand := 0, press := 0, shared := shared
      mask := maskOf (t :: new), size := BitVec.ofNat 7 (new.length + 1), xfer := .notify src.toNat dst note }
    s.sendAll (note.map fun e => .transferNotice e.1 t e.2)
  | _ => s
/-- The tiles that a notice floods to from some: each goes on to its 4-neighbours by the routes of class 25 between their routers (R317); `fuel` bounds the hops. -/
def State.flood (s : State) : Nat → List Nat → List Nat
  | 0, l => l
  | n + 1, l => s.flood n (l ++ (List.range 64).filter fun t => !l.contains t && l.any fun u =>
      ((List.range 4).any fun i => side u i == some t) && s.way 25 (territoryCore u) (territoryCore t) == .there)
/-- A notice of a tile's transfer comes to another tile. -/
def State.noticed (s : State) (moved t : Nat) : Bool := s.plainRoutes || (s.flood 64 [moved]).contains t
/-- R255 step 5: a notice reaches a tile, which counts tile `moved` in or out, once, and recomputes its pressure. It floods from tile to tile (R317); one
that the routes do not bring there is sent again. (DEDUCED, log 55.) -/
def execTransferNotice (t : Nat) (moved : Nat) (gain : Bool) (s : State) : Res :=
  if 64 ≤ t ∨ 64 ≤ moved then .fault .noSuchAgent else .next <|
  match (s.tileAt moved).xfer with
  | .notify src dst left =>
    if ¬ left.contains (t, gain) then s else
    if ¬ s.noticed moved t then s.send (.transferNotice t moved gain) else
    let s := s.onTile moved fun k => { k with xfer := .notify src dst (left.filter (· ≠ (t, gain))) }
    if (s.tileAt t).ter.toNat ≠ (if gain then dst else src) ∨ (s.tileAt t).mask.getLsbD moved = gain then s else
    s.onTile t fun k =>
      let b : DWord := (1 : DWord) <<< moved
      (if gain then { k with mask := k.mask ||| b, size := k.size + 1 } else { k with mask := k.mask &&& ~~~b, size := k.size - 1 }).withPress
  | _ => s
/-- R255 step 6: every notice is acknowledged: the transfer is over, and the new owner's steward receives GAIN. -/
def execTransferComplete (t : Nat) (s : State) : Res :=
  if 64 ≤ t then .fault .noSuchAgent else .next <|
  match (s.tileAt t).xfer with
  | .notify src dst [] =>
    (s.onTile t fun k => { k with xfer := .none }).tellSteward (BitVec.ofNat 6 dst) t (upcallWord 3 t src) (leBytes 8 (s.tileAt t).mask.toNat)
  | _ => s

/-! ## Time-share saves (R261, R277) -/

/-- s1 to s63 (R277). -/
def Regs.scalars (r : Regs) : List Byte := (List.range 63).flatMap fun i => leBytes 4 (vget r.s (i + 1) 0).toNat
/-- A loop level of a park record: 20 bytes. -/
def Level.record (l : Level) : List Byte :=
  wordBytes [l.count, l.start, l.stop, l.stride] ++ [l.rd.setWidth 8 ||| (if l.on then 0x80 else 0), 0, 0, 0]
def Level.ofRecord (b : List Byte) : Level :=
  ⟨BitVec.ofNat 32 (le b 0 4), BitVec.ofNat 32 (le b 4 4), BitVec.ofNat 32 (le b 8 4), (b.getD 16 0).setWidth 6, BitVec.ofNat 32 (le b 12 4), (b.getD 16 0).getLsbD 7⟩
/-- A park record of the save area (R277): 512 bytes. -/
def Park.record (p : Park) : List Byte :=
  let r := p.fir.regs
  padTo 512 (r.scalars ++ leBytes 4 r.pc.toNat ++ ((List.range 7).flatMap fun i => leBytes 8 (vget r.m (i + 1) 0).toNat) ++ wordBytes r.j.toList
    ++ (r.ext.toList.flatMap fun e => leBytes 2 e.toNat) ++ r.l0.record ++ r.l1.record
    ++ [(if p.fir.high then 1 else 0) + (if p.woken then 2 else 0), p.fir.cls.setWidth 8, 0, 0, 0, 0, 0, 0] ++ vecBytes r.v0 64)
/-- A parked firing as its record gives it; what the record does not hold is as it was (DESIGN CHOICE, log 20). -/
def Park.ofRecord (p : Park) (b : List Byte) : Park :=
  { p with
    woken := false
    fir := { p.fir with
      high := (b.getD 376 0).getLsbD 0, cls := (b.getD 377 0).setWidth 5
      regs := {
        s := Vector.ofFn fun i : Fin 64 => if i.val = 0 then 0 else BitVec.ofNat 32 (le b (4 * (i.val - 1)) 4)
        m := Vector.ofFn fun i : Fin 8 => if i.val = 0 then 0 else BitVec.ofNat 64 (le b (256 + 8 * (i.val - 1)) 8)
        j := Vector.ofFn fun i : Fin 4 => BitVec.ofNat 32 (le b (312 + 4 * i.val) 4)
        ext := Vector.ofFn fun i : Fin 4 => BitVec.ofNat 16 (le b (328 + 2 * i.val) 2)
        l0 := Level.ofRecord (slice b 336 20), l1 := Level.ofRecord (slice b 356 20)
        v0 := bytesVec (slice b 384 64), pc := BitVec.ofNat 32 (le b 252 4) } } }
/-- A run-queue entry of the save area (R277): 80 bytes. -/
def Ready.record (r : Ready) (high : Bool) : List Byte :=
  padTo 80 (wordBytes [headerWord r (if r.kind = 0 then r.pri else high), r.src.setWidth 32, r.evt, 0] ++ vecBytes r.payload r.len)
/-- A ready firing as its entry gives it; the launch of its cause, which only a dropped event names, is as it was. -/
def Ready.ofRecord (r : Ready) (b : List Byte) (cycle : DWord) : Ready :=
  let h : Word := BitVec.ofNat 32 (le b 0 4)
  let kind := h.extractLsb' 13 3
  ⟨h.extractLsb' 0 5, kind, if kind = 0 ∨ kind = 2 ∨ kind = 3 then some (h.getLsbD 11) else none, h.getLsbD 12,
    (h.extractLsb' 5 6).toNat + 1, BitVec.ofNat 21 (le b 4 4), BitVec.ofNat 32 (le b 8 4), bytesVec (slice b 16 64), r.launch, cycle⟩
/-- A core's records in the order R182 takes them; `fuel` bounds them. -/
def Core.inOrder : Nat → Core → List RunRec
  | 0, _ => []
  | n + 1, k => match k.first fun _ => true with
    | none => []
    | some (i, r) => r :: Core.inOrder n { k with runq := k.runq.eraseIdx i }
/-- The ready firings of a context on its core that have not started, in order: the run queue, then the pending store. -/
def Core.readyOfCtx (k : Core) (id : Half) : List Ready :=
  let mine (c : BitVec 5) : Bool := (look k.handlers c).any fun h => h.ctx = id
  ((Core.inOrder k.runq.length k).filterMap fun r => match r with
    | .fresh r => if mine r.cls then some r else none
    | .parked _ _ _ _ => none) ++ k.waiting.filterMap fun w => match w with
    | .event r => if mine r.cls then some r else none
    | _ => none
/-- Every word of a range is read; the ones that cannot be. -/
def Core.readAll (k : Core) (off n : Nat) (ctx : Half) (cycle : DWord) (syn : Byte) : Core × List Nat :=
  if k.clean then (k, []) else
  (wordsIn off n).foldl (fun (a : Core × List Nat) w =>
    let r := a.1.readWord (w % 16) (w / 16) false ctx cycle syn
    (r.1, if r.2 then a.2 else a.2 ++ [w])) (k, [])
/-- The scratchpad of a context as a time-share save writes it; the bytes of a word that cannot be read are free. (DESIGN CHOICE, log 64.) -/
def State.salvage (s : State) (c : Nat) (x : Ctx) : State × List Byte :=
  let r := (s.coreAt c).readAll x.base x.size x.id s.cycle s.syn
  let bs := r.1.mem.read x.base x.size
  (s.putCore c r.1, if r.2.isEmpty then bs else (List.range x.size).map fun i =>
    if r.2.contains ((x.base + i) / 8) then Config.byte (s.tick + i) else bs.getD i 0)
/-- R261 step 3: a resident context is saved whole and put out of its core. (DESIGN CHOICE, log 20.) -/
def State.swapOut (s : State) (ter c slot : Nat) : State :=
  match (s.coreAt c).ctxs.find? fun x => x.slot = slot with
  | none => s
  | some x =>
    let s := s.drain c
    let k := s.coreAt c
    let ready := k.readyOfCtx x.id
    let actors := k.waiting.foldl (fun m w => match w with
      | .actor a => if (look k.handlers a).any (·.ctx = x.id) then m ||| ((1 : Word) <<< a.toNat) else m
      | _ => m) 0
    let parks := k.parks.filter fun p => p.slot = slot
    let r := s.nextCount c slot
    let sp := r.1.salvage c x
    let s := sp.1
    let l := x.imageLen
    let hd := padTo 64 (x.header 0)
    let body := x.body sp.2
    let rest := padTo 9280 (padTo 64 (wordBytes [BitVec.ofNat 32 (min 64 ready.length), actors, BitVec.ofNat 32 parks.length])
      ++ padTo 5120 ((ready.take 64).flatMap fun q => q.record ((look k.handlers q.cls).any (·.high))) ++ parks.flatMap Park.record)
    let a := x.save.toNat
    let s := if x.prot then
        let e := gcmSeal (s.keyOf x.vdev x.id) (nonce r.2 x.id 2) (slice hd 0 48 ++ leBytes 8 r.2 ++ padTo 8 [2]) (body ++ rest)
        ((s.vwriteBy c x.vdev a hd).vwriteBy c x.vdev (a + 64) (e.1.take (l - 64))).vwriteBy c x.vdev (a + l) (switchRecord r.2 2 e.2 ++ e.1.drop (l - 64))
      else (s.vwriteBy c x.vdev a (hd ++ body)).vwriteBy c x.vdev (a + l) (switchRecord 0 2 [] ++ rest)
    let x := ((s.coreAt c).ctxs.find? fun y => y.slot = slot).getD x
    let w : Swapped := ⟨ter, c, x, k.handlers.filter fun e => e.2.ctx = x.id, k.clsmsk, actors, ready, parks⟩
    let s := { s with swapped := s.swapped ++ [w] }
    s.onCore c fun k =>
      let k := k.forget x
      if k.resident ∧ k.ctx.slot = slot then { k with resident := false, last := false, fir := { Firing.zero with serial := k.fir.serial } }
      else { k with others := k.others.filter fun y => y.slot ≠ slot }
/-- A context that a restore loses is dropped with event 0x0301 (R277). -/
def State.loseSwapped (s : State) (w : Swapped) : State :=
  (s.forgetSwapped w).postLaunch w.ctx.launch
    (event [(0, 2, 0x0301), (2, 2, w.ctx.id.toNat), (4, 4, (coord w.core).toNat), (8, 8, s.cycle.toNat)])
/-- R261 step 4, R277: a switched-out context is restored from its save area to its core and slot; its ready firings are enqueued again in
their recorded order; its parked firings return. (DESIGN CHOICE, log 20.) -/
def State.swapIn (s : State) (w : Swapped) : State :=
  let x := w.ctx
  let a := x.save.toNat
  let l := x.imageLen
  let img := s.vreadNote x.vdev a l
  let rec' := img.1.vreadNote x.vdev (a + l) 9344
  let s := rec'.1
  let opened : Option (List Byte) :=
    match img.2, rec'.2 with
    | .ok img, .ok rec =>
      if ¬ x.prot then some (img.drop 64 ++ rec.drop 64)
      else if le rec 0 8 ≠ x.switches then none
      else gcmOpen (s.keyOf x.vdev x.id) (nonce x.switches x.id 2) (slice img 0 48 ++ slice rec 0 16) (img.drop 64 ++ rec.drop 64) (slice rec 16 16)
    | _, _ => none
  match opened with
  | none => s.loseSwapped w
  | some bs =>
    let body := bs.take (l - 64)
    let rest := bs.drop (l - 64)
    let y := { x.ofBody body with saved := false, prog := { (x.ofBody body).prog with binds := x.prog.binds, lo := x.prog.lo, hi := x.prog.hi, tepc := x.prog.tepc } }
    let dummy : Ready := ⟨0, 0, none, false, 0, 0, 0, 0, 0, 0⟩
    let fresh := (List.range (min 64 (le rest 0 4))).map fun i => (w.ready.getD i dummy).ofRecord (slice rest (64 + 80 * i) 80) s.cycle
    let parks := (w.parks.zipIdx.take (le rest 8 4)).map fun e => ((e.1.ofRecord (slice rest (64 + 5120 + 512 * e.2) 512)), (rest.getD (64 + 5120 + 512 * e.2 + 376) 0).getLsbD 1)
    let actors : Word := BitVec.ofNat 32 (le rest 4 4)
    let own := w.classes.foldl (fun m e => m ||| ((1 : Word) <<< e.1.toNat)) 0
    let s := s.freshenBy w.core fun p => inRows x.base x.size p.1
    let s := s.onCore w.core fun k => { k.writeRows x.base x.size (bs.drop (0x1180 - 64)) with
      handlers := k.handlers ++ w.classes
      clsmsk := k.clsmsk ||| (w.mask &&& own)
      parks := k.parks ++ parks.map fun e => { e.1 with woken := e.2 }
      ctx := if k.resident then k.ctx else y
      others := if k.resident then k.others ++ [y] else k.others
      resident := true }
    let s := fresh.foldl (fun s r => if r.inbox.isSome then s.onCore w.core fun k => { k with runq := k.runq ++ [.fresh r] } else s.enqueue w.core (.event r)) s
    let s := (List.range 20).foldl (fun s i => if actors.getLsbD i then s.enqueue w.core (.actor (BitVec.ofNat 5 i)) else s) s
    parks.foldl (fun s e => if e.2 then s.enqueue w.core (.park e.1.key) else s) s

/-! ## Quanta (R260, R261) -/

/-- W of R260 for a virtual device in a territory: the largest, over its cores, of 2,048 and a cycle for each 64 bytes of its save areas there. -/
def State.saveTime (s : State) (ter : BitVec 6) (v : Nat) : Nat :=
  let cs := (s.cores.filter fun e => (s.tileAt (tileOf e.1)).ter == ter).map fun e =>
    (((e.2.ctxs ++ (s.swapped.filter (·.core = e.1)).map (·.ctx)).filter (·.vdev = v)).map fun x => x.imageLen + 9344).sum
  cs.foldl (fun m n => max m (2048 + n / 64)) 2048
/-- The queue that a territory's 0x0302 events go to: its steward's launch's, else the launch whose install made the home tile (R260). -/
def State.homeLaunchOf (s : State) (h : Nat) : Word :=
  match (s.tileAt h).steward with
  | some (id, c) => match s.ctxOf c id with
    | some x => x.launch
    | none => (s.tileAt h).homeLaunch
  | none => (s.tileAt h).homeLaunch
/-- The effective quantum of an entry (R260). -/
def State.effective (s : State) (h : Nat) (e : TimeEntry) : Nat := max e.quantum (s.saveTime (s.tileAt h).ter e.vdev)
/-- W of an entry has changed, or its event is due. -/
def State.wDue (s : State) (h : Nat) (e : TimeEntry) : Bool :=
  let w := s.saveTime (s.tileAt h).ter e.vdev
  e.seen != w || decide (e.quantum < w) && !e.posted
/-- R260: event 0x0302 is posted once for each change of W where the effective quantum exceeds the configured one. -/
def State.quantumNote (s : State) (h : Nat) : State :=
  ((s.tileAt h).times.filter (s.wDue h)).foldl (fun s e =>
    let w := s.saveTime (s.tileAt h).ter e.vdev
    let past := decide (e.quantum < w)
    let s := s.onTile h fun k => { k with times := k.times.map fun f => if f.idx = e.idx then { f with seen := w, posted := past } else f }
    if past then s.postLaunch (s.homeLaunchOf h) (event [(0, 2, 0x0302), (2, 2, e.vdev), (4, 4, e.quantum), (8, 4, w), (56, 8, s.cycle.toNat)]) else s) s
/-- Firings of a virtual device's contexts in a territory, put-out ones too, are ready or parked, or one of its queues is not empty (R261). -/
def State.hasWork (s : State) (ter : BitVec 6) (v : Nat) : Bool :=
  let own (k : Core) (x : Ctx) : Bool := !(k.readyOfCtx x.id).isEmpty || (k.parks.any fun p => p.slot = x.slot) || k.waiting.any fun w => match w with
    | .actor a => (look k.handlers a).any (·.ctx = x.id)
    | _ => false
  (s.cores.any fun e => (s.tileAt (tileOf e.1)).ter == ter && e.2.ctxs.any fun x => x.vdev == v && own e.2 x)
    || (s.swapped.any fun w => w.ter == ter.toNat && w.ctx.vdev == v && !(w.ready.isEmpty && w.parks.isEmpty && w.actors == 0))
    || s.queues.any fun q => s.qget q 18 2 == v && s.qget q 8 4 != s.qget q 12 4
/-- The channel whose element, refill or notice a step in flight carries, or whose growth it asks for. -/
def evChan : Ev → Option (BitVec 15)
  | .channelElementEnter ch _ _ _ | .channelAckReceived ch _ | .xonReceived ch | .spillWrite ch _ _ _ _ | .refillReturn ch | .emptyNoticeSend ch
  | .emptyNoticeReceived ch _ | .spillPoolDraw ch _ _ _ _ | .spillPoolAnswer ch _ _ _ _ _ => some ch
  | _ => none
/-- A request of a virtual device's context on a core of a territory, or what one of its channels sends, is in flight, or accepted by its agent and not
performed. -/
def State.evOfDevice (s : State) (ter : BitVec 6) (v : Nat) (e : Ev) : Bool :=
  ((evChan e).bind s.chanAt).any (fun k => k.vdev == v && (s.tileAt (chanTile k.idx)).ter == ter) ||
  (evPacket e).any fun p => p.vdev == v && (s.tileAt (tileOf (ofCoord p.src))).ter == ter && (match p.body with
    | .upcall _ _ | .start _ _ => false
    | _ => true)
/-- A firing of a virtual device runs, or its commands, copies or requests have not drained, in a territory (R261 steps 1 and 2). -/
def State.draining (s : State) (ter : BitVec 6) (v : Nat) : Bool :=
  s.agenda.any (s.evOfDevice ter v) || (s.held.any fun h => s.evOfDevice ter v h.step) ||
  (s.cores.any fun e => (s.tileAt (tileOf e.1)).ter == ter && e.2.ctxs.any fun x => x.vdev == v &&
    ((e.2.resident && e.2.ctx.slot == x.slot && e.2.status != .idle) || (e.2.commands.any (·.ctx = x.id)) || (e.2.copies.any (·.ctx = x.id))
      || (e.2.pool.any (·.ctx = x.id)) || s.globalBusy e.1))
/-- The entry to serve after the one served: it again while its weight lasts, the next of nonzero weight with work, or else one of weight 0. -/
def State.nextEntry (s : State) (h : Nat) : Option TimeEntry :=
  let k := s.tileAt h
  let work (e : TimeEntry) : Bool := s.hasWork k.ter e.vdev
  let es := (List.range 8).filterMap fun i => k.times.find? fun e => e.idx = (k.turn + 1 + i) % 8
  match es.find? fun e => e.idx = k.turn && decide (k.used < e.weight) && work e with
  | some e => some e
  | none =>
    match es.find? fun e => decide (e.weight ≠ 0) && work e with
    | some e => some e
    | none => es.find? work
/-- The quantum served is over, or its entry has no work while another has (R261), and what comes back stands in its save areas (R277, R302). -/
def State.quantumOver (s : State) (h : Nat) : Bool :=
  let k := s.tileAt h
  match k.times.find? (·.idx = k.turn) with
  | none => !k.times.isEmpty
  | some e => (decide (k.ends ≤ s.cycle.toNat) || (!s.hasWork k.ter e.vdev && (s.nextEntry h).any fun f => f.idx ≠ e.idx)) && !s.draining k.ter e.vdev
      && ((s.nextEntry h).getD e |> fun f => s.swapped.all fun w => !(w.ter == k.ter.toNat && w.ctx.vdev == f.vdev) || s.areaFree w.ctx)
/-- R261: a quantum of a territory ends: the outgoing virtual device's contexts are saved and put out, the incoming one's come back. -/
def execTimeshareQuantumEnd (ter : Nat) (s : State) : Res :=
  if 64 ≤ ter then .fault .noSuchAgent else .next <|
  match s.homeOf (BitVec.ofNat 6 ter) with
  | none => s
  | some h =>
    if ¬ s.quantumOver h then s else
    let k := s.tileAt h
    let old := k.times.find? (·.idx = k.turn)
    match (s.nextEntry h).orElse (fun _ => old) with
    | none => s
    | some e =>
      let stays := old.any fun o => o.vdev = e.vdev
      let s := if stays then s else
        match old with
        | none => s
        | some o => (s.cores.filter fun q => (s.tileAt (tileOf q.1)).ter == k.ter).foldl (fun s q =>
            (q.2.ctxs.filter fun x => x.vdev = o.vdev).foldl (fun s x => s.swapOut ter q.1 x.slot) s) s
      let s := if stays then s else
        let back := s.swapped.filter fun w => w.ter = ter && w.ctx.vdev = e.vdev
        let s := { s with swapped := s.swapped.filter fun w => !(w.ter = ter && w.ctx.vdev = e.vdev) }
        back.foldl State.swapIn s
      let q := s.effective h e
      s.onTile h fun t => { t with turn := e.idx, used := if e.idx = k.turn then k.used % max 1 e.weight + 1 else 1, ends := s.cycle.toNat + q }

end Sys2Proof.Machine
end

