-- ==== Sys2Proof/Machine/Host.lean ====
section
/-! DEFINITION. Host queues (R282, R283), fence counters (R284), graphs and walks (R285, R286), launches (R287), and the dispatcher's choice (R288). -/

namespace Sys2Proof.Machine

/-! ## Queues (R282, R283) -/

def State.qvdev (s : State) (q : Nat) : Nat := s.qget q 18 2
def State.qhead (s : State) (q : Nat) : Nat := s.qget q 12 4
/-- The address of the entry at a queue's head, and the entry, through its virtual device's tables. -/
def State.qaddr (s : State) (q : Nat) : Nat := s.qget q 0 8 + 64 * (s.qhead q % 2 ^ s.qget q 16 1)
def State.qentry (s : State) (q : Nat) : Except Byte (List Byte) := s.vread (s.qvdev q) (s.qaddr q) 64
/-- No entry of a queue that QUEUE has written is in progress any longer (R289). -/
def State.qended (s : State) (q : Nat) : State := { s with finishing := del s.finishing q }
/-- An entry is done: the head moves on. -/
def State.qnext (s : State) (q : Nat) : State := (s.qput q 12 4 ((s.qhead q + 1) % 2 ^ 32)).qended q
/-- R283: a malformed entry stops its queue, with event 0x0401. -/
def State.qstop (s : State) (q : Nat) : State :=
  ((s.post q (event [(0, 2, 0x0401), (2, 2, q), (4, 4, s.qhead q), (56, 8, s.cycle.toNat)])).qput q 17 1 0).qended q
/-- An entry that cannot be read stops its queue too; a line that fails lastingly is counted (R310). -/
def State.qunread (s : State) (q : Nat) (c : Byte) : State := (s.noteFail (s.qvdev q) (s.vfail (s.qvdev q) (s.qaddr q) 64) c).qstop q
/-- The bytes of a list at these places are zero. -/
def zeroAt (bs : List Byte) (is : List Nat) : Bool := is.all fun i => bs.getD i 0 == 0
/-- Places `a` to `b` − 1. -/
def span (a b : Nat) : List Nat := (List.range (b - a)).map (a + ·)
/-- The queue has an entry pending that the dispatcher has seen. -/
def State.qpending (s : State) (q : Nat) : Bool :=
  s.qget q 17 1 == 1 && ((look s.seen q).getD 0 + 2 ^ 32 - s.qhead q) % 2 ^ 32 != 0
/-- The entry that a dispatcher serves at a queue's head, with the virtual device it is served for: the one that was in progress when QUEUE wrote the queue
(R289), or the next of an enabled queue; none when there is none. -/
def State.qserved (s : State) (q : Nat) : Option (Nat × Except Byte (List Byte)) :=
  match look s.finishing q with
  | some (v, e) => some (v, .ok e)
  | none => if s.qpending q then some (s.qvdev q, s.qentry q) else none
/-- A step of the agenda takes the entry at a queue's head. -/
def evTakes (q : Nat) : Ev → Bool
  | .queueEntryLaunch p | .queueEntryWait p | .queueEntrySignal p => p == q
  | _ => false
/-- The entry of a queue that is in progress: one that its dispatcher has chosen, or a WAIT at the head. A QUEUE command leaves it as it is, to be finished
(R289). (DEDUCED, log 38.) -/
def State.qprogress (s : State) (q : Nat) : Option (Nat × List Byte) :=
  match s.qserved q with
  | some (v, .ok e) => if s.agenda.any (evTakes q) || e.getD 0 0 == 2 then some (v, e) else none
  | _ => none
/-- R282: the dispatcher sees a write of a queue's tail. -/
def execHostQueueTail (q : Nat) (s : State) : Res :=
  if 32768 ≤ q then .fault .noSuchAgent else .next { s with seen := upd s.seen q (s.qget q 8 4) }
/-- The virtual device of a fence counter's user owns it. -/
def State.fenceOk (s : State) (v f : Nat) : Bool := s.ownsFence v f
/-- Take the entry at the head of queue `q` when its opcode is `op`; an entry whose reserved bytes are not zero stops the queue. (DEDUCED, log 38.) -/
def State.takeEntry (s : State) (q op : Nat) (reserved : List Nat) (k : Nat → List Byte → State) : Res :=
  if 32768 ≤ q then .fault .noSuchAgent else .next <|
  match s.qserved q with
  | none => s
  | some (_, .error c) => s.qunread q c
  | some (v, .ok e) => if (e.getD 0 0).toNat ≠ op then s else if zeroAt e reserved then k v e else s.qstop q
/-- A walk begins (R283, R287). -/
def State.beginWalk (s : State) (die v queue va : Nat) : State :=
  { s with walks := s.walks ++ [⟨s.walkCount, die, v, queue, BitVec.ofNat 64 va, none, none⟩], walkCount := s.walkCount + 1 }
/-- R283: a LAUNCH entry begins a walk. -/
def execQueueEntryLaunch (q : Nat) (s : State) : Res :=
  s.takeEntry q 1 (span 1 8 ++ span 16 64) fun v e => (s.beginWalk (dieOfQueue q) v q (le e 8 8)).qnext q
/-- R283: a WAIT entry lets its queue move on once the fence counter has reached its value. -/
def execQueueEntryWait (q : Nat) (s : State) : Res :=
  s.takeEntry q 2 (1 :: span 4 8 ++ span 16 64) fun v e =>
    if ¬ s.fenceOk v (le e 2 2) then s.qstop q
    else if le e 8 8 ≤ s.fence (le e 2 2) then s.qnext q else s
/-- R283: a SIGNAL entry increments its fence counter. -/
def execQueueEntrySignal (q : Nat) (s : State) : Res :=
  s.takeEntry q 3 (1 :: span 4 8 ++ span 16 64) fun v e =>
    if ¬ s.fenceOk v (le e 2 2) then s.qstop q else (s.fenceAdd (le e 2 2) (le e 8 8)).qnext q

/-! ## Walks (R285, R286) -/

def State.walk (s : State) (w : Nat) : Option Walk := s.walks.find? (·.num = w)
def State.onWalk (s : State) (w : Nat) (f : Walk → Walk) : State := { s with walks := updFirst s.walks (·.num = w) f }
/-- A walk ends. -/
def State.endWalk (s : State) (w : Nat) : State := { s with walks := s.walks.filter (·.num ≠ w) }
/-- R286: a walk ends for a cause, with event 0x0402. -/
def State.failWalk (s : State) (w : Walk) (cause : Byte) : State :=
  (s.post w.queue (event [(0, 2, 0x0402), (2, 1, cause.toNat), (8, 8, w.node.toNat), (56, 8, s.cycle.toNat)])).endWalk w.num
/-- The walk goes to a node; 0 ends it (R285). -/
def State.walkTo (s : State) (w va : Nat) : State :=
  if va = 0 then s.endWalk w else s.onWalk w fun x => { x with node := BitVec.ofNat 64 va, copied := none, awaits := none }
/-- A virtual device owns the HBM page of a place that its tables give (R293); a page elsewhere is its own by being mapped. -/
def State.ownsPlace (s : State) (v key : Nat) : Bool := key / 2 ^ 60 != 0 || s.ownerOfPage (key / 0x10000) == some v
/-- The bytes of a walk's node, or the cause that ends the walk (R286); for a page not owned, PERM. (DESIGN CHOICE, log 59.) -/
def State.node (s : State) (w : Walk) : Except Byte (List Byte) :=
  let va := w.node.toNat
  if va % 64 ≠ 0 then .error 0x02 else if ¬ inTrans va then .error 0x03 else
  match s.xlate w.v va false with
  | .error c => .error c
  | .ok key => if s.ownsPlace w.v key then s.vread w.v va 64 else .error 0x06
/-- The reserved bytes of a node of a kind (R285). -/
def nodeReserved (kind : Nat) : List Nat :=
  match kind with
  | 1 => span 2 8 ++ span 25 28 ++ span 32 64
  | 2 | 3 => span 1 8 ++ span 18 24 ++ span 32 64
  | 4 => span 1 8 ++ span 26 32 ++ span 48 64
  | 5 => span 1 8 ++ span 24 40 ++ span 48 64
  | 6 => span 1 8 ++ span 36 64
  | _ => span 1 8 ++ span 16 64
/-- Perform walk `w`'s node when it is of a kind; a node that fails its checks ends the walk, with a free cause byte where the spec names none. -/
def State.atNode (s : State) (w kind : Nat) (k : Walk → List Byte → State) : Res :=
  .next <|
  match s.walk w with
  | none => s
  | some x =>
    match s.node x with
    | .error c => (s.noteFail x.v (s.vfail x.v x.node.toNat 64) c).failWalk x c
    | .ok b =>
      let n := (b.getD 0 0).toNat
      if n = 0 ∨ 7 < n ∨ ¬ zeroAt b (nodeReserved n) ∨ (n = 1 ∧ 1 < (b.getD 1 0).toNat) then s.failWalk x (Config.byte s.tick)
      else if n ≠ kind then s else k x b
/-- R285: WAIT goes to next once the counter has reached its value. (DEDUCED, log 38.) -/
def execNodeWait (w : Nat) (s : State) : Res :=
  s.atNode w 2 fun x b =>
    if ¬ s.fenceOk x.v (le b 16 2) then s.failWalk x 0x06
    else if le b 24 8 ≤ s.fence (le b 16 2) then s.walkTo w (le b 8 8) else s
/-- R285: SIGNAL increments its counter. (DEDUCED, log 38.) -/
def execNodeSignal (w : Nat) (s : State) : Res :=
  s.atNode w 3 fun x b =>
    if ¬ s.fenceOk x.v (le b 16 2) then s.failWalk x 0x06 else (s.fenceAdd (le b 16 2) (le b 24 8)).walkTo w (le b 8 8)
/-- COND's comparison on `n` bytes. -/
def condHolds (op n a b : Nat) : Bool :=
  let sg (x : Nat) : Int := if x < 2 ^ (8 * n - 1) then x else (x : Int) - 2 ^ (8 * n)
  match op with
  | 0 => a == b
  | 1 => a != b
  | 2 => decide (sg a < sg b)
  | 3 => decide (sg b ≤ sg a)
  | 4 => decide (a < b)
  | _ => decide (b ≤ a)
/-- R285: COND reads its word at its streamer and branches. -/
def execNodeCond (w : Nat) (s : State) : Res :=
  s.atNode w 4 fun x b =>
    let va := le b 16 8
    let n := le b 25 1
    if 5 < le b 24 1 ∨ (n ≠ 4 ∧ n ≠ 8) then s.failWalk x (Config.byte s.tick)
    else if va % n ≠ 0 then s.failWalk x 0x02
    else if ¬ inTrans va then s.failWalk x 0x03
    else match s.vread x.v va n with
    | .error c => (s.noteFail x.v (s.vfail x.v va n) c).failWalk x c
    | .ok bs => s.walkTo w (if condHolds (le b 24 1) n (ofBytes bs) (le b 32 n) then le b 8 8 else le b 40 8)
/-- LOOP's step of a node at the place of its counter: a zero goes to exit, another is decremented and goes to next. -/
def State.loopAt (s : State) (w : Nat) (b : List Byte) (key : Nat) : State :=
  let c := ofBytes (s.gmem.read key 8)
  if c = 0 then s.walkTo w (le b 40 8) else (s.gset key (leBytes 8 (c - 1))).walkTo w (le b 8 8)
/-- R285: LOOP tests and decrements its counter in one step at the streamer; a page under protection holds it (R302). -/
def execNodeLoop (w : Nat) (s : State) : Res :=
  s.atNode w 5 fun x b =>
    let va := le b 16 8
    if va % 8 ≠ 0 then s.failWalk x 0x02 else if ¬ inTrans va then s.failWalk x 0x03 else
    match s.xlate x.v va false, s.xlate x.v va true with
    | .ok _, .ok key =>
      if s.bad key 8 then (s.noteBad key).failWalk x 0x0D
      else if s.isProt key ∧ ofBytes (s.gmem.read key 8) ≠ 0 then s.holdWrite (.nodeLoop w) key b
      else s.loopAt w b key
    | .error c, _ => s.failWalk x c
    | _, .error c => s.failWalk x c
/-- A piece of a COPY node's bytes is written at its place. -/
def State.copyAt (s : State) (w : Nat) (bs : List Byte) (key : Nat) : State :=
  (s.gset key bs).onWalk w fun x => { x with copied := x.copied.map (· + bs.length) }
/-- The router of the streamer of the page that holds an address of a virtual device's. -/
def State.streamerOf (s : State) (v va : Nat) : Nat := match s.xlate v va false with
  | .ok key => streamerAt key
  | .error _ => 0
/-- R285: COPY moves its bytes, a piece of one 64-byte line on both sides at a time, from streamer to streamer by class 23 (R216, R220); a piece for a
protected page is held (R302), one that leaves the mesh fails the walk (DEDUCED, log 55). -/
def execNodeCopy (w : Nat) (s : State) : Res :=
  s.atNode w 6 fun x b =>
    let len := le b 32 4
    let i := x.copied.getD 0
    let src := le b 16 8 + i
    let dst := le b 24 8 + i
    if len % 4 ≠ 0 then s.failWalk x (Config.byte s.tick)
    else if len ≤ i then s.walkTo w (le b 8 8)
    else if ¬ inTrans src ∨ ¬ inTrans dst then s.failWalk x 0x03
    else
      let n := min (len - i) (min (64 - src % 64) (64 - dst % 64))
      match s.vread x.v src n, s.xlate x.v dst true with
      | .ok bs, .ok key =>
        let way := s.way 23 (s.streamerOf x.v src) (streamerAt key)
        if way = .astray then s
        else if way ≠ .there then s.failWalk x 0x13
        else if s.isProt key then s.holdWrite (.nodeCopy w) key bs else s.copyAt w bs key
      | .error c, _ => (s.noteFail x.v (s.vfail x.v src n) c).failWalk x c
      | _, .error c => s.failWalk x c
/-- R285: END ends the walk. -/
def execNodeEnd (w : Nat) (s : State) : Res := s.atNode w 7 fun _ _ => s.endWalk w
/-- R200, R287: a core's launch request begins a walk in the dispatcher it came to, for its context's virtual device and its launch's event ring. -/
def execWalkBegin (p : Packet) (s : State) : Res :=
  .next <|
  match p.body with
  | .walk id va => match s.launchOf id with
    | some l => s.beginWalk (dieOf (ofCoord p.dst)) p.vdev l.queue va.toNat
    | none => s
  | _ => s

/-! ## Launches (R287) -/

/-- A launch refused at install: event 0x0404 (R294). -/
def State.refuseLaunch (s : State) (q : Nat) (va id reason core : Nat) : State :=
  s.post q (event [(0, 2, 0x0404), (2, 2, id), (4, 4, reason), (8, 8, va), (16, 4, core), (56, 8, s.cycle.toNat)])
/-- The home tile of a territory as a launch finds or makes it (R156, R258): the steward's tile, to which pool, directory and table move, or
the tile of lowest index; the tile is anchored. -/
def State.makeHome (s : State) (ter : BitVec 6) (r : Record) (id : Word) (steward : Option Nat) : State :=
  let put (s : State) (t : Nat) (f : Tile → Tile) : State := s.onTile t fun k => f { k with home := true, anchor := true }
  match s.homeOf ter, steward with
  | none, some c => put s (tileOf c) fun k => { k with pool := r.pool, homeLaunch := id }
  | none, none => match (s.tilesOf ter).head? with
    | some t => put s t fun k => { k with pool := r.pool, homeLaunch := id }
    | none => s
  | some h, some c =>
    if h = tileOf c then s else
    let o := s.tileAt h
    let s := s.onTile h fun k => { k with home := false, pool := 0, dir := [], times := [], turn := 0, used := 0, ends := 0 }
    put s (tileOf c) fun k => { k with pool := o.pool, dir := o.dir, times := o.times, turn := o.turn, used := o.used, ends := o.ends, homeLaunch := o.homeLaunch }
  | some _, none => s
/-- The channel of a declaration, as an entry of its consumer's tile (R36, R146). (DESIGN CHOICE, log 13.) -/
def ChanDecl.entryOf (d : ChanDecl) (prod cons : Nat) (base : Nat) (launch : Word) (v : Nat) : Chan :=
  { idx := BitVec.ofNat 15 (tileOf cons * 512 + d.entry), producer := coord prod, consumer := coord cons, prodCtx := d.prod, consCtx := d.cons,
    ring := base + d.ring, capacity := d.capacity, esize := d.esize, off := 0, on := 0, f := 0, streamer := 0, spillBase := d.spillBase,
    limit := d.limit, head := 0, tail := 0, grow := 0, written := 0, read := 0, xoff := false, spillBit := false, eosBit := false,
    suspect := false, prodBound := false, consBound := false, bound := false, out := 0, sr := 0, spilling := false, prodXoff := false,
    episode := false, entered := 0, refill := false, owed := 0, marker := none, eosPopped := false, strEpisode := false, ahead := [], epBase := 0,
    notice := false, drawn := 0, launch := launch, vdev := v }
/-- Install a record's placements in order, or the first that breaks a rule: its context, its core, the reason (R18, R294). -/
def State.installAll (s : State) (r : Record) (v : Nat) (ter : BitVec 6) (id : Word) : List (Half × Nat) → Except (Nat × Nat × Nat) State
  | [] => .ok s
  | (x, c) :: ps =>
    match r.ctxs.find? (·.id = x) with
    | none => .error (0, 10, 0)
    | some g =>
      match s.installFault c g v ter with
      | some e => .error (x.toNat, e, (coord c).toNat)
      | none => (s.install c (g.ctx id v r.block) g.classes g.data).installAll r v ter id ps
/-- Install a record's channels, or the first whose entry is in use: its consumer's context and core (R36, R294). -/
def State.declareAll (s : State) (r : Record) (v : Nat) (id : Word) : List ChanDecl → Except (Nat × Nat) State
  | [] => .ok s
  | d :: ds =>
    let core (x : Half) : Nat := match r.places.find? (·.1 = x) with
      | some p => p.2
      | none => 0
    let base := match r.ctxs.find? (·.id = d.cons) with
      | some g => g.base
      | none => 0
    let k := d.entryOf (core d.prod) (core d.cons) base id v
    if (s.tileAt (chanTile k.idx)).chans.any (·.idx = k.idx) then .error (d.cons.toNat, (coord (core d.cons)).toNat)
    else (s.onTile (chanTile k.idx) fun t => { t with chans := t.chans ++ [k] }).declareAll r v id ds
/-- A channel declaration keeps to R36: each end is placed at exactly one core, and entry, element size (as a power of 2), capacity and ring fit. -/
def Record.chanOk (r : Record) (d : ChanDecl) : Bool :=
  let once (x : Half) : Bool := decide ((r.places.filter (·.1 = x)).length = 1)
  once d.prod && once d.cons && decide (d.entry < 512 ∧ 2 ≤ d.esize ∧ d.esize ≤ 6 ∧ 4 ≤ d.capacity ∧ d.capacity ≤ 4096 ∧ d.limit < 2 ^ 32 ∧ d.ring % 2 ^ d.esize = 0)
    && r.ctxs.any fun g => g.id == d.cons && decide (d.ring + d.capacity * 2 ^ d.esize ≤ g.size)
/-- The lowest class that a configuration declares with kind start. -/
def CtxConfig.startClass (g : CtxConfig) : Option (BitVec 5) :=
  (List.range 20).findSome? fun i => match look g.classes (BitVec.ofNat 5 i) with
    | some h => if h.kind = 3 then some (BitVec.ofNat 5 i) else none
    | none => none
/-- A record holds what R34–R37 and R245 ask of it as a whole; a start context without a class of kind start, which does not assemble, makes it
malformed. (DESIGN CHOICE, log 13.) -/
def Record.wellFormed (r : Record) : Bool :=
  r.owned && decide (1 ≤ r.kends ∧ r.kends ≤ 65535 ∧ r.fence ≤ 65535 ∧ r.places ≠ [] ∧ r.places.length ≤ 8192)
    && r.places.all (fun p => (r.ctxs.any (·.id = p.1)) && decide (p.2 < 8192))
    && r.places.any (fun p => p.1 = r.start) && r.chans.all r.chanOk
    && ((r.ctxs.find? (·.id = r.start)).bind CtxConfig.startClass).isSome
    && (match r.steward with
      | some x => decide ((r.places.filter (·.1 = x)).length = 1)
      | none => true)
/-- The start firings of a launch (R37, R317): from its dispatcher to every core that hosts the start context, at its lowest class declared start; a
start context without one gets none (R37 has such a file not assemble, and such a record is refused; DESIGN CHOICE, log 13). -/
def State.sendStarts (s : State) (die : Nat) (r : Record) (id : Word) (arg : Word) : State :=
  match (r.ctxs.find? (·.id = r.start)).bind CtxConfig.startClass with
  | none => s
  | some n => (r.places.filter (·.1 = r.start)).foldl (fun s p =>
      let d := dispatcherCore die
      s.issue d (s.agentPacket d (coord p.2) 26 n 0 r.start r.v 0 (.start id (if arg = 0 then r.arg else arg)))) s
/-- R287's checks and install of a record: the state with the launch in it, or what a refusal posts (context, reason, core). A TERID above 63 is no
tile's. -/
def State.installLaunch (s : State) (w : Walk) (va ter : Nat) (id : Word) : Except (Nat × Nat × Nat) (State × Record) :=
  let t : BitVec 6 := if ter < 64 then BitVec.ofNat 6 ter else 0
  match s.records.find? fun r => r.v = w.v && r.va.toNat = va with
  | none => .error (0, 10, 0)
  | some r =>
    if ¬ r.wellFormed then .error (0, 10, 0)
    else if r.steward.isSome ∧ (s.stewardOf t).isSome then .error (0, 9, 0)
    else
      let steward := r.steward.bind fun x => (r.places.find? (·.1 = x)).map (·.2)
      let fits := r.places.all fun p => (s.tileAt (tileOf p.2)).ter == t && t != 0
      let s' := if fits then s.makeHome t r id steward else s
      match s'.installAll r w.v t id r.places with
      | .error e => .error e
      | .ok s1 =>
        match s1.declareAll r w.v id r.chans with
        | .error (x, c) => .error (x, 5, c)
        | .ok s2 =>
          let s2 := match r.steward, steward with
            | some x, some c => s2.onTile (tileOf c) fun k => { k with steward := some (x, c), anchor := true }
            | _, _ => s2
          .ok ({ s2 with launches := s2.launches ++ [⟨id, w.v, r.va, 0, r.kends, r.fence, w.queue, ter, false, r.ctxs⟩] }, r)
/-- The tiles that a record's launch would anchor and fill: those of its placements, and the tile that would become its territory's home. -/
def State.launchTiles (s : State) (r : Record) (ter : BitVec 6) : List Nat :=
  (r.places.map fun p => tileOf p.2) ++ (if (s.homeOf ter).isSome || r.steward.isSome then [] else (s.tilesOf ter).head?.toList)
/-- A launch waits while a tile that it would anchor or fill is in steps 1 to 4 of a transfer, whose owner it checks when those are over (R255, R258).
(DESIGN CHOICE, log 81.) -/
def State.launchWaits (s : State) (w : Walk) (va ter : Nat) : Bool :=
  match s.records.find? fun r => r.v = w.v && r.va.toNat = va with
  | none => false
  | some r =>
    let t : BitVec 6 := BitVec.ofNat 6 ter
    decide (0 < ter ∧ ter < 64) && r.wellFormed && (r.places.all fun p => (s.tileAt (tileOf p.2)).ter == t)
      && (s.launchTiles r t).any fun u => (s.tileAt u).xfer.before5
/-- The launch that a walk waits for has completed. (DEDUCED, log 30.) -/
def State.launchDone (s : State) (id : Word) : Bool := (s.launchOf id).any (·.done)
/-- R287: a LAUNCH node takes its launch ID, installs and starts its record's launch with event 0x0405, or is refused with 0x0404; with
wait set, the walk goes on when the launch completes. (DESIGN CHOICE, log 1.) -/
def execNodeLaunch (w : Nat) (s : State) : Res :=
  s.atNode w 1 fun x b =>
    match x.awaits with
    | some id => if s.launchDone id then s.walkTo w (le b 8 8) else s
    | none =>
      if s.launchWaits x (le b 16 8) (le b 24 1) then s else
      let n := vget s.launchCount x.die 0
      let id : Word := BitVec.ofNat 32 (2 ^ 30 * x.die + n % 2 ^ 30)
      let s := { s with launchCount := vset s.launchCount x.die (n + 1) }
      let va := le b 16 8
      let ter := le b 24 1
      match s.installLaunch x va ter id with
      | .error (i, reason, c) => (s.refuseLaunch x.queue va i reason c).walkTo w (le b 8 8)
      | .ok (s, r) =>
        let s := s.post x.queue (event [(0, 2, 0x0405), (4, 4, id.toNat), (8, 8, va), (16, 2, r.fence), (18, 1, ter), (56, 8, s.cycle.toNat)])
        let s := s.sendStarts x.die r id (BitVec.ofNat 32 (le b 28 4))
        if (b.getD 1 0).getLsbD 0 then s.onWalk w fun x => { x with awaits := some id } else s.walkTo w (le b 8 8)
/-- R202, R287: a kend is counted; at the record's count the launch completes and its fence counter rises. -/
def execKendArrival (p : Packet) (s : State) : Res :=
  .next <|
  match (match p.body with
    | .kend id => s.launchOf id
    | _ => none) with
  | none => s
  | some l =>
    if l.done then s else
    let full := decide (l.need ≤ l.kends + 1)
    let s := { s with launches := s.launches.map fun m => if m.id = l.id then { m with kends := m.kends + 1, done := full } else m }
    if full then s.fenceAdd l.fence 1 else s
/-- R202: a program event enters its launch's event ring, or is dropped and counted. -/
def execHpostArrival (p : Packet) (s : State) : Res :=
  .next (match p.body with
    | .post id bs => if (s.launchOf id).isSome then s.postLaunch id bs else s
    | _ => s)

/-! ## The dispatcher's choice (R288) -/

/-- A virtual device is switched out of a territory that it shares over time (R261). -/
def State.switchedOut (s : State) (v : Nat) : Bool :=
  (List.range 64).any fun t => let k := s.tileAt t; k.home && (k.times.any fun e => e.vdev = v) && !(k.times.any fun e => e.vdev = v && e.idx = k.turn)
/-- The queue's head entry may be taken now: a WAIT waits for its counter. -/
def State.queueUnit (s : State) (q : Nat) : Bool :=
  match s.qserved q with
  | none => false
  | some (v, x) => !s.switchedOut v && (match x with
    | .error _ => true
    | .ok e => if e.getD 0 0 = 2 ∧ s.fenceOk v (le e 2 2) ∧ zeroAt e (1 :: span 4 8 ++ span 16 64) then decide (le e 8 8 ≤ s.fence (le e 2 2)) else true)
/-- A walk's node may be performed now. -/
def State.walkUnit (s : State) (x : Walk) : Bool :=
  x.copied.isNone && !(s.held.any fun h => h.step == .nodeLoop x.num || h.step == .nodeCopy x.num) &&
  (match x.awaits with
    | some id => s.launchDone id
    | none => match s.node x with
      | .error _ => true
      | .ok b => if b.getD 0 0 = 1 ∧ zeroAt b (nodeReserved 1) ∧ b.getD 1 0 ≤ 1 ∧ s.launchWaits x (le b 16 8) (le b 24 1) then false
        else if b.getD 0 0 = 2 ∧ zeroAt b (nodeReserved 2) ∧ s.fenceOk x.v (le b 16 2) then decide (le b 24 8 ≤ s.fence (le b 16 2)) else true)
/-- The ready units of a die: virtual device and number, queues first, walks from 32,768 on. -/
def State.units (s : State) (die : Nat) : List (Nat × Nat) :=
  (((s.queues ++ s.seen.map (·.1)).dedup.filter fun q => dieOfQueue q == die && s.queueUnit q).map fun q => ((s.qserved q).elim (s.qvdev q) (·.1), q)) ++
  ((s.walks.filter fun x => x.die == die && s.walkUnit x).map fun x => (x.v, 32768 + x.num))
/-- The least of some numbers at or after a pointer, or the least of all. -/
def nextAfter (ns : List Nat) (p : Nat) : Option Nat := match lowest (ns.filter (p ≤ ·)) with
  | some n => some n
  | none => lowest ns
def State.weightOf (s : State) (v : Nat) : Nat := match s.vdev v with
  | some d => max 1 d.weight
  | none => 1
/-- The unit that a dispatcher takes next, and its state after (R288). -/
def State.chooseUnit (s : State) (die : Nat) : Option (Nat × Disp) :=
  let d := vget s.disp die ⟨0, 0, []⟩
  let us := s.units die
  let vs := us.map (·.1)
  let v := if vs.contains d.vd ∧ d.used < s.weightOf d.vd then some d.vd else nextAfter vs (d.vd + 1)
  v.bind fun v => (nextAfter ((us.filter (·.1 = v)).map (·.2)) ((look d.ptrs v).getD 0)).map fun n =>
    (n, ⟨v, if v = d.vd ∧ d.used < s.weightOf v then d.used + 1 else 1, upd d.ptrs v (n + 1)⟩)
/-- The admin command of an entry (R289); none for an unknown code. -/
def adminEvent (via : Option Nat) (e : List Byte) : Option Ev :=
  let b (i : Nat) : Byte := e.getD i 0
  let d (i : Nat) : DWord := BitVec.ofNat 64 (le e i 8)
  let w (i : Nat) : Word := BitVec.ofNat 32 (le e i 4)
  let blk : MapBlock := ⟨d 16, d 24, b 32, b 33, b 34, b 35⟩
  match (b 1).toNat with
  | 1 => some (.adminMap via (le e 8 2) blk)
  | 2 => some (.adminUnmap via (le e 8 2) blk)
  | 3 => some (.adminCancel via (w 8))
  | 4 => some (.adminClaim via (le e 8 1) (d 16))
  | 5 => some (.adminFree via (le e 8 1) (d 16))
  | 6 => some (.adminTimeshare via (le e 8 1) (le e 9 1) (d 16))
  | 7 => some (.adminVdev via (le e 8 2) (b 10) (w 12) (w 16) (d 24) (d 32) (d 40))
  | 8 => some (.adminPair via (le e 8 1) (le e 9 1) (le e 10 1))
  | 9 => some (.adminQueue via (le e 8 2) (le e 10 2) (le e 12 1) (le e 13 1) (le e 14 1) (d 16) (d 24))
  | 10 => match le e 10 1 with
    | 0 => some (.adminOwnAssign via (le e 8 2) (d 16) (d 24))
    | 1 => some (.adminOwnRelease via (le e 8 2) (d 16) (d 24))
    | _ => none
  | 11 => match le e 16 1 with
    | 0 => some (.adminTenantCreate via (d 8) (d 24))
    | 1 => some (.adminTenantDelete via (d 8))
    | _ => none
  | _ => none
/-- R289: the answer of an admin command: event 0x0403 and the queue's head moves on, or the mailbox. -/
def State.adminDone (s : State) (via : Option Nat) (code status : Nat) : State :=
  match via with
  | some q => (s.post q (event [(0, 2, 0x0403), (2, 1, code), (4, 4, status), (8, 4, s.qhead q), (56, 8, s.cycle.toNat)])).qnext q
  | none => { s with mailbox := leBytes 4 status }
/-- R288: the dispatcher of a die chooses a ready unit; its node or entry is then performed. An entry that R283 does not allow stops its queue. -/
def execDispatcherStep (die : Nat) (s : State) : Res :=
  if 4 ≤ die then .fault .noSuchAgent else .next <|
  match s.chooseUnit die with
  | none => s
  | some (n, d) =>
    let s := { s with disp := vset s.disp die d }
    if n < 32768 then
      match s.qserved n with
      | none => s
      | some (_, .error c) => s.qunread n c
      | some (v, .ok e) => match (e.getD 0 0).toNat with
        | 1 => s.send (.queueEntryLaunch n)
        | 2 => s.send (.queueEntryWait n)
        | 3 => s.send (.queueEntrySignal n)
        | 4 =>
          if v ≠ 0 ∨ ¬ zeroAt e (span 2 8) then s.qstop n else
          match adminEvent (some n) e with
          | some a => s.send a
          | none => s.adminDone (some n) (e.getD 1 0).toNat 7
        | _ => s.qstop n
    else
      let w := n - 32768
      match s.walk w with
      | none => s
      | some x => match s.node x with
        | .error c => (s.noteFail x.v (s.vfail x.v x.node.toNat 64) c).failWalk x c
        | .ok b => match (b.getD 0 0).toNat with
          | 1 => s.send (.nodeLaunch w)
          | 2 => s.send (.nodeWait w)
          | 3 => s.send (.nodeSignal w)
          | 4 => s.send (.nodeCond w)
          | 5 => s.send (.nodeLoop w)
          | 6 => (s.onWalk w fun x => { x with copied := some 0 }).send (.nodeCopy w)
          | 7 => s.send (.nodeEnd w)
          | _ => s.failWalk x (Config.byte s.tick)

end Sys2Proof.Machine
end

