-- ==== Sys2Proof/Machine/Admin.lean ====
section
/-! DEFINITION. The admin commands (R289–R293, R296) and the firmware services of fwcall (R280, R291, R311). -/

namespace Sys2Proof.Machine

/-! ## Mapping (R290–R292, R295) -/

/-- Every page of a range of pages is owned by a virtual device: `fuel` bounds the ranges that cover it. -/
def State.ownsPages (s : State) (v : Nat) : Nat → Nat → Nat → Bool
  | 0, _, n => n == 0
  | fuel + 1, p, n =>
    if n = 0 then true else
    match s.owned.find? fun o => decide (o.1 ≤ p ∧ p < o.1 + o.2.1) with
    | none => false
    | some o => if o.2.2 = v then s.ownsPages v fuel (o.1 + o.2.1) (n - (o.1 + o.2.1 - p)) else false
/-- Two ranges of bytes meet. -/
def meetsRange (a n b m : Nat) : Bool := decide (a < b + m ∧ b < a + n)
/-- Pages that no virtual device can own: those of the control blocks, of the fence counters and of the tables of R290 (R284, R293). -/
def State.reservedPages (s : State) (p n : Nat) : Bool :=
  meetsRange (0x10000 * p) (0x10000 * n) s.qbase (64 * 32768) || meetsRange (0x10000 * p) (0x10000 * n) s.fbase (8 * 65536)
    || s.tables.any fun t => decide (p ≤ t.2 ∧ t.2 < p + n)
/-- The lowest page from `p` on that has no owner and holds nothing of the firmware controller; `fuel` bounds what is passed over. (DESIGN CHOICE, log 58.) -/
def State.freePage (s : State) : Nat → Nat → Option Nat
  | 0, _ => none
  | n + 1, p =>
    if 384 * 2 ^ 14 ≤ p then none else
    match s.owned.find? fun o => decide (o.1 ≤ p ∧ p < o.1 + o.2.1) with
    | some o => s.freePage n (o.1 + o.2.1)
    | none => if s.reservedPages p 1 then s.freePage n (p + 1) else some p
/-- The tables of a tree from level 1 to the level of a leaf, allocated as needed with every entry zero (R290, R291); none when no page is left. -/
def State.needTables (s : State) (v va : Nat) : Nat → Option State
  | 0 => some s
  | level + 1 => match s.needTables v va level with
    | none => none
    | some s =>
      if (s.tableFor v (level + 1) va).isSome then some s else
      (s.freePage (s.owned.length + s.tables.length + 48) 0).map fun p =>
        { s with tables := s.tables ++ [((v, level + 1, if level = 0 then 0 else va / levelBytes level), p)], gmem := s.gmem.clear (p * 0x10000) 0x10000 }
/-- The entries of a tree for an address down to a level, in memory. -/
def State.putEntries (s : State) (v level va : Nat) : State := ((List.range level).map (· + 1)).foldl (fun s n => s.putEntry v n va) s
/-- A page of the fence counters that holds one of a virtual device's, which it may map to read (R284). (DESIGN CHOICE, log 59.) -/
def State.fencePage (s : State) (d : VDev) (b : MapBlock) : Bool :=
  b.size == 0 && b.rw == 1 && decide (d.fenceLo < d.fenceHi ∧ s.fbase ≤ b.pa.toNat ∧ b.pa.toNat + 0x10000 ≤ s.fbase + 8 * 65536
    ∧ s.fbase + 8 * d.fenceLo < b.pa.toNat + 0x10000 ∧ b.pa.toNat < s.fbase + 8 * d.fenceHi)
/-! ### Invalidations (R295) -/

/-- The tiles that hold a territory of a virtual device: every tile of a territory in which a context of it is resident. -/
def State.tilesOfDev (s : State) (v : Nat) : List Nat :=
  let ters := (s.cores.filter fun e => e.2.ctxs.any (·.vdev = v)).map fun e => (s.tileAt (tileOf e.1)).ter
  (List.range 64).filter fun t => (s.tileAt t).ter != 0 && ters.contains (s.tileAt t).ter
/-- The invalidation that an asker waits for. -/
def State.fadingOf (s : State) (who : MapAsker) : Option Fading := s.fading.find? (·.who = who)
/-- A leaf leaves its tables: an invalidation goes to every tile that holds a territory of its virtual device, if there is one. -/
def State.fade (s : State) (who : MapAsker) (l : Leaf) : State :=
  match s.tilesOfDev l.v with
  | [] => s
  | t :: ts => { s with fading := s.fading ++ [⟨who, l, t :: ts⟩] }
/-- The answer of an asker's invalidation is given. -/
def State.faded (s : State) (who : MapAsker) : State := { s with fading := s.fading.filter (·.who ≠ who) }
/-- Somebody asks for the answer: a command, or a request that is still at the firmware controller. -/
def State.asks (s : State) (who : MapAsker) : Bool := match who with
  | .via _ => true
  | .core c n => s.service.any fun p => ofCoord p.src == c && p.serial == n
/-- A tile acknowledges an invalidation; one that nobody waits for any more is gone with its last acknowledgement. -/
def State.acknowledge (s : State) (k : Nat) : State :=
  match s.fading[k]? with
  | none => s
  | some f => { s with fading := if f.tiles.length ≤ 1 ∧ ¬ s.asks f.who then s.fading.eraseIdx k else s.fading.set k { f with tiles := f.tiles.drop 1 } }

/-! ### MAP, UNMAP -/

/-- MAP for a virtual device: its status (R292), and the tables after it. A leaf of a save area is pinned (R18; DESIGN CHOICE, log 24). A MAP of a VA that a leaf of the same size maps replaces it (DEDUCED, log 21), with an invalidation (R295). (DESIGN CHOICE, log 19.) (DESIGN CHOICE, log 37.) -/
def State.mapPage (s : State) (who : MapAsker) (v : Nat) (b : MapBlock) : State × Nat :=
  let n := pageBytes b.size.toNat
  let va := b.va.toNat
  match s.vdev v with
  | none => (s, 7)
  | some d =>
    if 2 < b.size.toNat ∨ 3 < b.rw.toNat ∨ 2 < b.target.toNat ∨ 2 ^ 52 ≤ b.pa.toNat then (s, 7)
    else if va % n ≠ 0 ∨ b.pa.toNat % n ≠ 0 then (s, 2)
    else if ¬ inTrans va ∨ ¬ inTrans (va + n - 1) then (s, 5)
    else if s.leaves.any fun l => l.v = v && meetsRange va n l.va.toNat (pageBytes l.size) && !(decide (l.va.toNat = va) && decide (l.size = b.size.toNat)) then (s, 3)
    else if b.target = 0 ∧ ¬ s.ownsPages v (s.owned.length + 1) (b.pa.toNat / 0x10000) (n / 0x10000) ∧ ¬ s.fencePage d b then (s, 1)
    else if b.target = 1 ∧ ¬ (d.winLo.toNat ≤ b.pa.toNat ∧ b.pa.toNat + n ≤ d.winHi.toNat) then (s, 1)
    else if b.target = 2 ∧ ¬ Config.remoteAgrees s.tick then (s, 6)
    else if s.pinned v va n then (s, 7)
    else match s.needTables v va (leafLevel b.size.toNat) with
    | none => (s, 7)
    | some t =>
      let t : State := { t with leaves := (s.leaves.filter fun l => !(l.v = v && decide (l.va.toNat = va))) ++
        [⟨v, b.va, b.size.toNat, b.pa, b.rw.getLsbD 0, b.rw.getLsbD 1, b.target.toNat, b.package⟩] }
      let t := t.putEntries v (leafLevel b.size.toNat) va
      ((s.leaves.filter fun l => l.v = v && decide (l.va.toNat = va)).foldl (fun t l => t.fade who l) t, 0)
/-- The checks of a VA that UNMAP and QUERY share: a status, or the leaf. -/
def State.blockLeaf (s : State) (v : Nat) (b : MapBlock) : Except Nat Leaf :=
  let n := pageBytes b.size.toNat
  if 2 < b.size.toNat ∨ (s.vdev v).isNone then .error 7
  else if b.va.toNat % n ≠ 0 then .error 2
  else if ¬ inTrans b.va.toNat then .error 5
  else match s.leafNow v b.va.toNat with
  | none => .error 4
  | some l => if l.va = b.va ∧ l.size = b.size.toNat then .ok l else .error 4
/-- A checkpoint of the job is in progress. -/
def Job.busy (j : Job) : Bool := j.active || j.arming
/-- The first shard address of a job that some unmapped bytes hold. -/
def Job.loses (j : Job) (va n : Nat) : Option Nat :=
  j.shards.findSome? fun h => if meetsRange h.va.toNat h.len va n then some (max h.va.toNat va) else none
/-- Checkpoints in progress lose the shard pages of a virtual device that are unmapped, and are to fail (R305). -/
def State.loseShards (s : State) (v va n : Nat) : State :=
  { s with jobs := s.jobs.map fun j => if j.v = v ∧ j.busy ∧ j.lost.isNone then { j with lost := j.loses va n } else j }
/-- UNMAP (R291); an access that follows the answer finds no leaf (R295). A leaf of a save area is pinned (R18; DESIGN CHOICE, log 24). -/
def State.unmapPage (s : State) (who : MapAsker) (v : Nat) (b : MapBlock) : State × Nat :=
  match s.blockLeaf v b with
  | .error e => (s, e)
  | .ok l => if s.pinned v l.va.toNat (pageBytes l.size) then (s, 7) else
    ((((State.putEntry { s with leaves := s.leaves.filter fun m => m ≠ l } v (leafLevel l.size) l.va.toNat).fade who l).loseShards v l.va.toNat (pageBytes l.size)), 0)
/-- A mapping command of a queue or the mailbox: it is answered once every tile has acknowledged its invalidation (R295); until then it stays in flight
as `e`. -/
def State.mapCommand (s : State) (via : Option Nat) (code : Nat) (e : Ev) (f : State → State × Nat) : State :=
  match s.fadingOf (.via via) with
  | some g => if g.tiles.isEmpty then (s.faded (.via via)).adminDone via code 0 else s.send e
  | none =>
    let r := f s
    if (r.1.fadingOf (.via via)).isSome then r.1.send e else r.1.adminDone via code r.2
/-- An admin command that comes through the mailbox is not served in recovery mode (R309); the status it gets then is free. -/
def State.admin (s : State) (via : Option Nat) (k : State → Res) : Res :=
  if via.isNone ∧ s.recovery then .next { s with mailbox := leBytes 4 (Config.word s.tick).toNat } else k s
/-- R291, R295: admin MAP. -/
def execAdminMap (via : Option Nat) (v : Nat) (b : MapBlock) (s : State) : Res :=
  s.admin via fun s => .next (s.mapCommand via 1 (.adminMap via v b) fun s => s.mapPage (.via via) v b)
/-- R291, R295: admin UNMAP. -/
def execAdminUnmap (via : Option Nat) (v : Nat) (b : MapBlock) (s : State) : Res :=
  s.admin via fun s => .next (s.mapCommand via 2 (.adminUnmap via v b) fun s => s.unmapPage (.via via) v b)

/-! ## Launches and tiles (R255, R256, R258, R289) -/

/-- Tiles on which a launch's contexts are resident. -/
def State.tilesWith (s : State) (id : Word) : List Nat := ((s.cores.filter fun e => e.2.ctxs.any (·.launch = id)).map fun e => tileOf e.1).dedup
/-- R289: CANCEL drops a launch's contexts as R255 does, once no commit of their tiles is under way, and removes it; no fence rises. Its event ring is
kept for local events it has caused (R179). (DEDUCED, log 30.) -/
def execAdminCancel (via : Option Nat) (id : Word) (s : State) : Res :=
  s.admin via fun s =>
    .next <|
    match s.launchOf id with
    | none => s.adminDone via 3 7
    | some l =>
      if (s.tilesWith id).any fun t => !s.noGrant t then s.send (.adminCancel via id) else
      let s := s.cores.foldl (fun s e => ((e.2.ctxs.filter (·.launch = id)).map (·.id)).foldl (fun s x => s.dropCtx e.1 x) s) s
      let out := s.swapped.filter (·.ctx.launch = id)
      let s := out.foldl State.loseSwapped { s with swapped := s.swapped.filter (·.ctx.launch ≠ id) }
      ({ s with launches := s.launches.filter fun m => m.id ≠ l.id, gone := upd s.gone l.id l.queue }).adminDone via 3 0
/-- Tiles of a mask. -/
def tilesIn (m : DWord) : List Nat := (List.range 64).filter m.getLsbD
/-- The 4-neighbours of a tile. -/
def sides (t : Nat) : List Nat := (List.range 4).filterMap (side t)
/-- What is reached from some tiles within a set, in a number of rounds. -/
def reach (ts : List Nat) : Nat → List Nat → List Nat
  | 0, r => r
  | n + 1, r => reach ts n (ts.filter fun t => r.contains t || (sides t).any r.contains)
/-- The tiles are 4-connected; none are. -/
def connected (ts : List Nat) : Bool := match ts with
  | [] => true
  | t :: _ => (reach ts 64 [t]).length == ts.length
/-- Every tile of a territory holds its mask and size. -/
def State.remask (s : State) (ter : BitVec 6) : State :=
  let ts := s.tilesOf ter
  ts.foldl (fun s t => s.onTile t fun k => { k with mask := maskOf ts, size := BitVec.ofNat 7 ts.length }.withPress) s
/-- R289: CLAIM makes free tiles part of a territory, which stays 4-connected. -/
def execAdminClaim (via : Option Nat) (ter : Nat) (mask : DWord) (s : State) : Res :=
  s.admin via fun s =>
    let ts := tilesIn mask
    let a : BitVec 6 := BitVec.ofNat 6 ter
    if ter = 0 ∨ 63 < ter ∨ ts.isEmpty ∨ ts.any (fun t => (s.tileAt t).ter != 0 || (s.tileAt t).xfer != .none) ∨ ¬ connected ((List.range 64).filter fun t => ts.contains t || (s.tileAt t).ter == a)
    then .next (s.adminDone via 4 7)
    else
      let shared := (s.homeOf a).any fun h => decide (2 ≤ (s.tileAt h).times.length)
      let s := ts.foldl (fun s t => s.onTile t fun k => { k with ter := a, shared := shared }) s
      .next ((s.remask a).adminDone via 4 0)
/-- The tile that holds a territory's pool, directory and table is freed while others stay: they pass to the tile of lowest index (DEDUCED, log 22). -/
def State.rehome (s : State) (ter : BitVec 6) (ts : List Nat) : State :=
  match s.homeOf ter with
  | none => s
  | some h =>
    if ¬ ts.contains h then s else
    let o := s.tileAt h
    let s := s.onTile h fun k => { k with home := false, pool := 0, dir := [], times := [], turn := 0, used := 0, ends := 0 }
    match (s.tilesOf ter).find? fun t => !ts.contains t with
    | none => s
    | some t => s.onTile t fun k => { k with home := true, anchor := true, pool := o.pool, dir := o.dir, times := o.times, turn := o.turn, used := o.used, ends := o.ends, homeLaunch := o.homeLaunch }
/-- R256, R258: FREE clears tiles of a territory, whose contexts go with them, and leaves the rest 4-connected; it waits for commits under way. (DEDUCED, log 22.) (DEDUCED, log 29.) -/
def execAdminFree (via : Option Nat) (ter : Nat) (mask : DWord) (s : State) : Res :=
  s.admin via fun s =>
    let ts := tilesIn mask
    let a : BitVec 6 := BitVec.ofNat 6 ter
    if ter = 0 ∨ 63 < ter ∨ ts.isEmpty ∨ ts.any (fun t => (s.tileAt t).ter != a || (s.tileAt t).xfer != .none) ∨ ¬ connected ((s.tilesOf a).filter fun t => !ts.contains t)
    then .next (s.adminDone via 5 7)
    else if ts.any fun t => !s.noGrant t then .next (s.send (.adminFree via ter mask))
    else
      let s := ts.foldl (fun s t => (tileCores t).foldl (fun s c => ((s.coreAt c).ctxs.map (·.id)).foldl (fun s x => s.removeCtx c x) s) s) s
      let s := ts.foldl State.clearTile s
      let s := s.rehome a ts
      let s := ts.foldl (fun s t => s.onTile t fun k => { k with ter := 0, size := 0, stated := false, demand := 0, press := 0, mask := 0, hold := 0, shared := false, steward := none }) s
      .next ((s.remask a).adminDone via 5 0)
/-- R260, R262: an entry of a territory's time-share table; a quantum of 0 is refused. One that keeps its virtual device keeps what it has posted. -/
def execAdminTimeshare (via : Option Nat) (ter idx : Nat) (entry : DWord) (s : State) : Res :=
  s.admin via fun s =>
    .next <|
    let a : BitVec 6 := BitVec.ofNat 6 ter
    match s.homeOf a with
    | none => s.adminDone via 6 7
    | some h =>
      let valid := entry.getLsbD 63
      let q := (entry.extractLsb' 0 32).toNat
      if ter = 0 ∨ 63 < ter ∨ 7 < idx ∨ q = 0 ∨ entry.extractLsb' 60 3 ≠ 0 ∨ entry.extractLsb' 32 8 ≠ 0 then s.adminDone via 6 7 else
      let v := (entry.extractLsb' 48 12).toNat
      let old := (s.tileAt h).times.find? fun e => e.idx = idx && e.vdev = v
      let e : TimeEntry := ⟨idx, v, (entry.extractLsb' 40 8).toNat, q, (old.map (·.seen)).getD 0, (old.map (·.posted)).getD false⟩
      let rest := (s.tileAt h).times.filter (·.idx ≠ idx)
      let first := (s.tileAt h).times.isEmpty
      let s := s.onTile h fun k => { k with times := if valid then rest ++ [e] else rest }
      let n := (s.tileAt h).times.length
      let s := (s.tilesOf a).foldl (fun s t => s.onTile t fun k => { k with shared := decide (2 ≤ n) }) s
      let s := if valid then
          let s := if first then s.onTile h fun k => { k with turn := idx, used := 1, ends := s.cycle.toNat + s.effective h e } else s
          s.quantumNote h
        else s
      s.adminDone via 6 0

/-! ## Virtual devices, pairs, queues, ownership, tenants (R282, R289, R293, R296) -/

/-- A context of a virtual device is installed. -/
def State.inUse (s : State) (v : Nat) : Bool := (s.cores.any fun e => e.2.ctxs.any (·.vdev = v)) || s.swapped.any (·.ctx.vdev = v)
/-- R293: VDEV sets a virtual device's weight, fence range, host window and tenant. (DESIGN CHOICE, log 37.) -/
def execAdminVdev (via : Option Nat) (v : Nat) (weight : Byte) (fenceLo fenceHi : Word) (winLo winHi : DWord) (handle : DWord) (s : State) : Res :=
  s.admin via fun s =>
    let old := (s.vdev v).map (·.handle)
    let clash := s.vdevs.any fun d => d.v ≠ v && decide (fenceLo.toNat < d.fenceHi ∧ d.fenceLo < fenceHi.toNat)
    if 4095 < v ∨ weight = 0 ∨ 65536 < fenceHi.toNat ∨ fenceHi.toNat < fenceLo.toNat ∨ clash ∨ (handle ≠ 0 ∧ (look s.tenants handle).isNone)
        ∨ (s.inUse v ∧ old ≠ some handle) then .next (s.adminDone via 7 7)
    else .next (({ s with vdevs := (s.vdevs.filter fun d => d.v ≠ v) ++ [⟨v, weight.toNat, fenceLo.toNat, fenceHi.toNat, winLo, winHi, handle⟩] } : State).adminDone via 7 0)
/-- R296: PAIR names the territory of another package that a local one is paired with. -/
def execAdminPair (via : Option Nat) (ter pkg remote : Nat) (s : State) : Res :=
  s.admin via fun s =>
    if ter = 0 ∨ 63 < ter ∨ remote = 0 ∨ 63 < remote ∨ 255 < pkg then .next (s.adminDone via 8 7)
    else .next (({ s with pairs := (s.pairs.filter fun p => !(p.2.1 == pkg && p.2.2 == remote)) ++ [(ter, pkg, remote)] } : State).adminDone via 8 0)
/-- R282: QUEUE writes the admin fields of a control block; an entry in progress there is kept, to be finished as it was taken (R289). -/
def execAdminQueue (via : Option Nat) (q v size evSize enable : Nat) (ring evRing : DWord) (s : State) : Res :=
  s.admin via fun s =>
    let st := if 32768 ≤ q ∨ (s.vdev v).isNone ∨ size < 4 ∨ 16 < size ∨ evSize < 4 ∨ 16 < evSize ∨ 1 < enable then 7
      else if ring.toNat % 64 ≠ 0 ∨ evRing.toNat % 64 ≠ 0 then 2
      else if ¬ inTrans ring.toNat ∨ ¬ inTrans evRing.toNat then 5 else 0
    if st ≠ 0 then .next (s.adminDone via 9 st)
    else
      let s := match s.qprogress q with
        | some f => { s with finishing := upd s.finishing q f }
        | none => s
      .next ((((((((s.qput q 0 8 ring.toNat).qput q 16 1 size).qput q 17 1 enable).qput q 18 2 v).qput q 24 8 evRing.toNat).qput q 32 1 evSize)).adminDone via 9 0)
/-- The argument checks of OWN (R289): a status. -/
def ownStatus (pa len : DWord) : Nat :=
  if pa.toNat % 0x10000 ≠ 0 then 2 else if len.toNat % 0x10000 ≠ 0 ∨ len = 0 ∨ 384 * 2 ^ 30 < pa.toNat + len.toNat then 7 else 0
/-- R293: OWN assign makes a virtual device the owner of pages that have none. (DEDUCED, log 39.) -/
def execAdminOwnAssign (via : Option Nat) (v : Nat) (pa len : DWord) (s : State) : Res :=
  s.admin via fun s =>
    let p := pa.toNat / 0x10000
    let n := len.toNat / 0x10000
    let st := if (s.vdev v).isNone then 7 else if ownStatus pa len ≠ 0 then ownStatus pa len
      else if s.reservedPages p n ∨ s.owned.any (fun o => meetsRange o.1 o.2.1 p n) then 1 else 0
    if st ≠ 0 then .next (s.adminDone via 10 st) else .next ({ s with owned := s.owned ++ [(p, n, v)] }.adminDone via 10 0)
/-- A range of pages without those of another range. -/
def cutPages (p n : Nat) (o : Nat × Nat × Nat) : List (Nat × Nat × Nat) :=
  if ¬ meetsRange o.1 o.2.1 p n then [o] else
  (if o.1 < p then [(o.1, p - o.1, o.2.2)] else []) ++ (if p + n < o.1 + o.2.1 then [(p + n, o.1 + o.2.1 - (p + n), o.2.2)] else [])
/-- R293: OWN release returns pages that no leaf maps. (DEDUCED, log 39.) -/
def execAdminOwnRelease (via : Option Nat) (v : Nat) (pa len : DWord) (s : State) : Res :=
  s.admin via fun s =>
    let p := pa.toNat / 0x10000
    let n := len.toNat / 0x10000
    let st := if ownStatus pa len ≠ 0 then ownStatus pa len
      else if ¬ s.ownsPages v (s.owned.length + 1) p n then 1
      else if s.leaves.any fun l => l.target = 0 && meetsRange l.pa.toNat (pageBytes l.size) pa.toNat len.toNat then 3 else 0
    if st ≠ 0 then .next (s.adminDone via 10 st) else .next ({ s with owned := s.owned.flatMap (cutPages p n) }.adminDone via 10 0)
/-- R293: TENANT create unwraps a key and keeps it under a new handle; the key is read through the host's own virtual device. (DEDUCED, log 39.) -/
def execAdminTenantCreate (via : Option Nat) (handle keyVa : DWord) (s : State) : Res :=
  s.admin via fun s =>
    if handle = 0 ∨ (look s.tenants handle).isSome then .next (s.adminDone via 11 7)
    else if ¬ inTrans keyVa.toNat then .next (s.adminDone via 11 5)
    else match s.vread 0 keyVa.toNat 512 with
    | .error e => .next ((s.noteFail 0 (s.vfail 0 keyVa.toNat 512) e).adminDone via 11 4)
    | .ok bs =>
      match Config.unwrapKey bs with
      | none => .next (s.adminDone via 11 7)
      | some k => .next ({ s with tenants := s.tenants ++ [(handle, k)] }.adminDone via 11 0)
/-- R293: TENANT delete removes a tenant that no virtual device is bound to. -/
def execAdminTenantDelete (via : Option Nat) (handle : DWord) (s : State) : Res :=
  s.admin via fun s =>
    if (look s.tenants handle).isNone ∨ s.vdevs.any (·.handle = handle) then .next (s.adminDone via 11 7)
    else .next ({ s with tenants := del s.tenants handle }.adminDone via 11 0)

/-! ## Firmware services (R280, R291, R311) -/

/-- The block of MAP, UNMAP and QUERY (R291). -/
def blockOf (bs : List Byte) : MapBlock := ⟨BitVec.ofNat 64 (le bs 0 8), BitVec.ofNat 64 (le bs 8 8), bs.getD 16 0, bs.getD 17 0, bs.getD 18 0, bs.getD 19 0⟩
/-- The firmware controller answers a request, by an answer of class 23 (R216); one that has no way is lost. (DEDUCED, log 55.) -/
def State.answerService (s : State) (p : Packet) (r : Except Byte Word) (ps : List Nat) : State :=
  let c := ofCoord p.src
  if s.trip 23 p.ter firmwareCore c ≠ .there then s else s.send (.answer c p.serial (match r with
    | .error e => .fault e
    | .ok v => .status v ps))
/-- An answer reaches its core: the firing that still waits for it goes on, traps, or waits for the pages whose writes are held (R280, R299, R302). -/
def State.answered (s : State) (c serial : Nat) (a : Answered) : State :=
  if (s.coreAt c).fir.serial ≠ serial then s else
  let t := (s.goto c).setStatus .running
  match (s.coreAt c).status, a with
  | .answer .mark, .mark => t.retire 1
  | .answer (.service _ blk _), .fault e => t.trapAt e blk
  | .answer (.service rd _ _), .status v ps => if ps.isEmpty then (t.setS rd v).retire 1 else t.setStatus (.answer (.served rd v ps))
  | _, _ => s
/-- Serve the request at the head of the firmware controller's queue, when it is core `c`'s for service `n`; `f` gives the state and the status. One that its
firing has abandoned is served all the same. The answer waits for the tiles that an invalidation of `who` has gone to (R295). -/
def State.serve (s : State) (c n : Nat) (f : State → Packet → MapAsker → DWord → List Byte → State × Word) : Res :=
  atCore c s fun s =>
    match s.service with
    | [] => s
    | p :: rest =>
      match p.body with
      | .service blk m =>
        if m.toNat ≠ n ∨ ofCoord p.src ≠ c then s else
        let who := MapAsker.core c p.serial
        let t := { s with service := rest }
        match s.fadingOf who with
        | some g => if g.tiles.isEmpty then (t.faded who).answerService p (.ok 0) [] else s
        | none =>
          match s.vread p.vdev blk.toNat 64 with
          | .error e => (t.noteFail p.vdev (s.vfail p.vdev blk.toNat 64) e).answerService p (.error e) []
          | .ok bs =>
            let r := f t p who blk bs
            if (r.1.fadingOf who).isSome then { r.1 with service := s.service } else r.1.answerService p (.ok r.2) (r.1.newHeld s)
      | _ => { s with service := rest }
/-- R291: MAP for the caller's virtual device. -/
def execFwMap (c : Nat) (s : State) : Res := s.serve c 0 fun s p who _ bs => let r := s.mapPage who p.vdev (blockOf bs); (r.1, BitVec.ofNat 32 r.2)
/-- R291: UNMAP for the caller's virtual device. -/
def execFwUnmap (c : Nat) (s : State) : Res := s.serve c 1 fun s p who _ bs => let r := s.unmapPage who p.vdev (blockOf bs); (r.1, BitVec.ofNat 32 r.2)
/-- The block's fields of a leaf (R291). -/
def Leaf.block (l : Leaf) : List Byte :=
  leBytes 8 l.va.toNat ++ leBytes 8 l.pa.toNat ++ [BitVec.ofNat 8 l.size, (if l.rd then 1 else 0) + (if l.wr then 2 else 0), BitVec.ofNat 8 l.target, l.pkg]
/-- R291: QUERY writes the fields of the leaf that maps the VA into the block, or zero. -/
def execFwQuery (c : Nat) (s : State) : Res :=
  s.serve c 2 fun s p _ blk bs =>
    let v := p.vdev
    let va := (blockOf bs).va.toNat
    if ¬ inTrans va then (s, 5) else
    match s.leafNow v va with
    | none => (s.vwrite v blk.toNat (List.replicate 20 0), 4)
    | some l => (s.vwrite v blk.toNat l.block, 0)
/-- The digest of the running firmware (R311). -/
def State.fwDigest (s : State) : List Byte := match s.fwRun with
  | some img => sha512 img
  | none => Config.firmwareDigest
/-- R311: ATTEST writes a signed report; bytes of it that R311 does not name are free. -/
def execFwAttest (c : Nat) (s : State) : Res :=
  s.serve c 3 fun s p _ _ bs =>
    let v := p.vdev
    let va := le bs 0 8
    let x := ((s.coreAt c).byId p.ctx).getD .none
    if va % 64 ≠ 0 then (s, 2)
    else if ¬ inTrans va ∨ ¬ s.rangeOk v va 704 true then (s, 4)
    else if ¬ zeroAt bs (span 40 64) then (s, 7)
    else
      let free (n : Nat) : List Byte := (List.range n).map fun i => Config.byte (64 * s.tick + i)
      let body := leBytes 2 1 ++ leBytes 2 x.id.toNat ++ [(if x.prot then 1 else 0) + (if s.firstStart then 2 else 0)] ++ free 3
        ++ leBytes 8 Config.serial.toNat ++ leBytes 2 v ++ free 6 ++ leBytes 8 s.cycle.toNat ++ padTo 64 s.fwDigest ++ slice bs 8 32
        ++ padTo 64 (sha512 (s.gmem.read x.codeKey x.code.length))
      (s.vwrite v va (body ++ padTo 512 (Config.sign s.tick body)), 0)

end Sys2Proof.Machine
end

