-- ==== Sys2Proof/Machine/Checkpoint.lean ====
section
/-! DEFINITION. Checkpoint jobs (R297, R298), marks and boundaries (R299), arming (R300), the copy (R301, R302), its completion or failure
(R303–R305), and restore (R306). -/

namespace Sys2Proof.Machine

def State.job (s : State) (j : Nat) : Option Job := s.jobs.find? (·.id = j)
def State.onJob (s : State) (j : Nat) (f : Job → Job) : State := { s with jobs := updFirst s.jobs (·.id = j) f }

/-! ## Checks (R298) -/

/-- The first fault of a shard's range: mapped readable and writable, target 0, owned; `fuel` bounds its 64 KiB pages. -/
def State.shardFault (s : State) (v : Nat) : Nat → Nat → Nat → Option (Byte × Nat)
  | 0, _, _ => none
  | fuel + 1, va, n =>
    if n = 0 then none else
    let room := 0x10000 - va % 0x10000
    match s.leafNow v va with
    | none => some (0x05, va)
    | some l =>
      if ¬ (l.rd && l.wr) ∨ l.target ≠ 0 ∨ s.ownerOfPage ((l.pa.toNat + (va - l.va.toNat)) / 0x10000) ≠ some v then some (0x06, va)
      else if n ≤ room then none else s.shardFault v fuel (va + room) (n - room)
/-- The first fault among a job's shards. -/
def State.shardsFault (s : State) (v : Nat) (shards : List Shard) : Option (Byte × Nat) :=
  shards.findSome? fun h => s.shardFault v (h.len / 0x10000 + 2) h.va.toNat h.len
/-- The first fault of a job's shards for reading: a page of them that is unmapped or not readable fails the checkpoint in progress (R305). -/
def State.shardGone (s : State) (j : Job) : Option (Byte × Nat) :=
  j.shards.findSome? fun h => s.rangeFault j.v false false (h.len / 0x10000 + 2) h.va.toNat h.len
/-- The manifest area of a job with `n` shards (R298). -/
def manifestArea (n : Nat) : Nat := 4096 * ((576 + 96 * n + 4095) / 4096)
/-- The length of a job's destination. -/
def destLen (shards : List Shard) : Nat := manifestArea shards.length + (shards.map (·.len)).sum
/-- Destination offset of a shard. -/
def shardOff (shards : List Shard) (i : Nat) : Nat := manifestArea shards.length + ((shards.take i).map (·.len)).sum

/-! ## Held writes (R302) -/

/-- A held write is performed at the place it was checked for, with the bytes that arrived (R302). -/
def State.performHeld (s : State) (h : HeldWrite) : State :=
  match h.step with
  | .globalStorePerformed c key bs _ => s.gput c key bs
  | .protectedWrite key bs _ => s.gset key bs
  | .depositWrite p => s.depositAt p h.place
  | .atomicStep p => s.atomAt p h.place
  | .spillWrite ch slot ep _ bs => s.spillAt ch slot ep bs h.place
  | .nodeLoop w => s.loopAt w h.bytes h.place
  | .nodeCopy w => s.copyAt w h.bytes h.place
  | .copyPieceWrite c _ key _ => s.heldPieceAt c key h.place h.bytes
  | _ => s
/-- A held write may be performed: the trigger of a deposit or an atomic finds room for its event (R181). -/
def State.heldMay (s : State) (h : HeldWrite) : Bool :=
  match h.step with
  | .depositWrite p => (match p.body with
    | .deposit _ _ trig fireAt _ => s.trigMay ((fireAt.map (·.toNat)).getD (ofCoord p.src)) trig
    | _ => true)
  | .atomicStep p => (match p.body with
    | .atomic _ _ _ _ _ trig _ => s.trigMay (ofCoord p.src) trig
    | _ => true)
  | _ => true
/-- Writes that were held are performed in the order they arrived; one that may not be yet stays held, and those of its page behind it. -/
def State.performAll (s : State) (hs : List HeldWrite) : State :=
  hs.foldl (fun s h => if s.heldMay h && !(s.held.any (·.page = h.page)) then s.performHeld h else { s with held := s.held ++ [h] }) s
/-- The protection of pages is cleared, and the writes held for them are performed in the order they arrived. -/
def State.unprotect (s : State) (pages : List Nat) : State :=
  State.performAll { s with protect := s.protect.filter (!pages.contains ·), held := s.held.filter (!pages.contains ·.page) } (s.held.filter (pages.contains ·.page))
/-- The held writes of a page may go on: it is still protected, so that its urgent read comes, or the first of them may be performed. -/
def State.pageMay (s : State) (page : Nat) : Bool := s.protect.contains page || (s.held.find? (·.page = page)).any s.heldMay

/-! ## Marks and boundaries (R299) -/

/-- The controller answers a mark, by an answer of class 23 (R216); one that has no way is lost. (DEDUCED, log 55.) -/
def State.answerMark (s : State) (m : Nat × Nat) : State :=
  if s.trip 23 (s.terOf m.1) checkpointCore m.1 = .there then s.send (.answer m.1 m.2 .mark) else s
def State.answerAll (s : State) (ms : List (Nat × Nat)) : State := ms.foldl State.answerMark s
/-- The step whose first mark arrives now is a boundary. -/
def Job.due (j : Job) (step : Nat) : Bool := !j.busy && (if j.stepKind then decide (j.lastStep + j.trigger ≤ step) else j.fired)
/-- R299: a mark reaches the controller: it is counted and answered, or held for its boundary step; the last one of it begins arming. -/
def execStepMark (p : Packet) (s : State) : Res :=
  .next <|
  let m : Nat × Nat := (ofCoord p.src, p.serial)
  match s.jobs.find? (·.v = p.vdev) with
  | none => s.answerMark m
  | some j =>
    let n := j.marks + 1
    let step := (n - 1) / j.marksPer + 1
    let b := if (n - 1) % j.marksPer = 0 ∧ j.due step then some step else j.boundary
    if b = some step then
      s.onJob j.id fun j => { j with marks := n, boundary := b, held := j.held ++ [m], arming := n % j.marksPer == 0, step := step }
    else (s.onJob j.id fun j => { j with marks := n }).answerMark m
/-- R299: the timer of a job fires: the next step to begin is a boundary. -/
def execCheckpointTimer (job : Nat) (s : State) : Res :=
  .next <|
  match s.job job with
  | none => s
  | some j => if j.stepKind ∨ j.fired ∨ s.cycle.toNat < j.since.toNat + j.trigger then s else s.onJob job fun j => { j with fired := true }

/-! ## Failure (R305) -/

/-- A job's boundary is behind it: the next one counts from it (R299). A boundary whose arming fails counts too. (DEDUCED, log 65.) -/
def Job.bounded (j : Job) (cycle : DWord) : Job := { j with arming := false, boundary := none, held := [], lastStep := j.step, since := cycle, fired := false }
/-- A checkpoint fails: protection goes, event 0x0501 is posted, held marks are answered, held writes are performed. -/
def State.failCheckpoint (s : State) (j : Job) (cause va : Nat) : State :=
  let s := s.post j.queue (event [(0, 2, 0x0501), (2, 2, j.id), (4, 1, cause), (8, 8, j.step), (16, 8, va), (56, 8, s.cycle.toNat)])
  let s := s.onJob j.id fun j => { (if j.arming then j.bounded s.cycle else j) with active := false, boundary := none, held := [], left := [], copied := [], lost := none }
  (s.unprotect (j.left.map CkPage.key)).answerAll j.held

/-! ## Arming and the copy (R300–R303) -/

/-- The pages of a job's shards, in shard-list and address order. -/
def State.pagesOf (s : State) (j : Job) : List CkPage :=
  (j.shards.zipIdx).flatMap fun e => (List.range (e.1.len / 4096)).filterMap fun i =>
    match s.xlate j.v (e.1.va.toNat + 4096 * i) false with
    | .ok key => some ⟨pageOf key, e.1.va + BitVec.ofNat 64 (4096 * i), shardOff j.shards e.2 + 4096 * i, e.2, []⟩
    | .error _ => none
/-- R300: protection is armed over every shard page and the held marks are answered; shards that fail their checks abandon the checkpoint. -/
def execArmingComplete (job : Nat) (s : State) : Res :=
  .next <|
  match s.job job with
  | none => s
  | some j =>
    if ¬ j.arming then s else
    match s.shardsFault j.v j.shards with
    | some (c, va) => s.failCheckpoint j c.toNat va
    | none =>
      let ps := s.pagesOf j
      let s := { s with protect := s.protect ++ ps.map CkPage.key }
      (s.onJob job fun j => { j.bounded s.cycle with active := true, left := ps, copied := [], armedAt := s.cycle }).answerAll j.held
/-- The write of `n` bytes at a destination's address that fails (R305), with its cause: not mapped, refused by the package that holds the page (UNDELIV), or
a line that fails lastingly. (DESIGN CHOICE, log 72.) -/
def State.destFault (s : State) (v va n : Nat) : Option (Byte × Nat) :=
  match s.rangeFault v true false (n / 0x10000 + 2) va n with
  | some e => some e
  | none => (List.range ((n + 63) / 64)).findSome? fun i => match s.xlate v (va + 64 * i) true with
    | .error c => some (c, va + 64 * i)
    | .ok key =>
      if key / 2 ^ 60 = 2 ∧ ¬ Config.remoteAgrees (s.tick + i) then some (0x13, va + 64 * i)
      else if s.bad key (min 64 (n - 64 * i)) then some (0x0D, va + 64 * i) else none
/-- The destination's write at an address fails the checkpoint of a job. -/
def State.destFails (s : State) (j : Job) (e : Byte × Nat) : State := (s.noteFail j.v e.2 e.1).failCheckpoint j e.1.toNat e.2
/-- R301, R302: a page is read, its protection cleared, its held writes performed, and its bytes written to the destination; a fault, or a shard page
that has been unmapped, fails the checkpoint (R305). -/
def State.copyPage (s : State) (j : Job) (p : CkPage) : State :=
  match s.shardGone j with
  | some (c, va) => s.failCheckpoint j c.toNat va
  | none =>
  if s.bad (4096 * p.key) 4096 then (s.noteBad (4096 * p.key)).failCheckpoint j 0x0D p.va.toNat else
  let bs := s.gmem.read (4096 * p.key) 4096
  let s := (s.onJob j.id fun j => { j with left := j.left.filter (· ≠ p), copied := j.copied ++ [{ p with digest := sha512 bs }] }).unprotect [p.key]
  let dst := j.dest.toNat + p.off
  match s.destFault j.v dst 4096 with
  | some e => match s.job j.id with
    | some j => s.destFails j e
    | none => s
  | none => s.vwrite j.v dst bs
/-- The page copies that have been issued of those left, which stand in shard-list and address order: none behind a streamer that has 8 outstanding (R301). -/
def issuedPages : List CkPage → List (BitVec 9) → List CkPage
  | [], _ => []
  | p :: ps, out =>
    let i := Config.streamerOf (4096 * p.key / 0x10000)
    if 8 ≤ out.count i then [] else p :: issuedPages ps (i :: out)
/-- R301: a protected page is copied in the background; of the copies issued, any may complete next. -/
def execCheckpointPageCopy (job : Nat) (s : State) : Res :=
  .next <|
  match s.job job with
  | none => s
  | some j =>
    if ¬ j.active ∨ j.left = [] then s else
    let ps := issuedPages j.left []
    match ps[Config.pick s.tick % ps.length]? with
    | none => s
    | some p => s.copyPage j p
/-- R302: the urgent read of a page with held writes ends; a page whose protection is gone has them go on. -/
def execUrgentReadComplete (page : Nat) (s : State) : Res :=
  .next <|
  if ¬ s.held.any (·.page = page) then s else
  match s.jobs.findSome? fun j => (j.left.find? (·.key = page)).map fun p => (j, p) with
  | none => s.unprotect [page]
  | some (j, p) => s.copyPage j p
/-- The header and entries of a manifest (R303, R304); the digest of a shard is over its page digests in ascending address order. -/
def Job.manifest (j : Job) : List Byte :=
  let entry (e : Shard × Nat) : List Byte :=
    let ds := (List.range (e.1.len / 4096)).flatMap fun i => match j.copied.find? fun p => p.shard = e.2 && decide (p.va = e.1.va + BitVec.ofNat 64 (4096 * i)) with
      | some p => p.digest
      | none => []
    leBytes 4 e.1.id.toNat ++ leBytes 4 0 ++ leBytes 8 e.1.va.toNat ++ leBytes 8 e.1.len ++ leBytes 8 (shardOff j.shards e.2) ++ padTo 64 (sha512 ds)
  padTo 64 (leBytes 2 1 ++ leBytes 2 j.id ++ leBytes 4 j.shards.length ++ leBytes 8 j.step ++ leBytes 8 j.armedAt.toNat ++ leBytes 2 j.v
    ++ leBytes 6 0 ++ leBytes 8 Config.serial.toNat) ++ (j.shards.zipIdx).flatMap entry
/-- A page under protection, for which writes wait (R302), lies in a job's destination. -/
def State.destWaits (s : State) (j : Job) : Bool :=
  let n := destLen j.shards
  s.leaves.any fun l => decide (l.v = j.v) &&
    let a := max j.dest.toNat l.va.toNat
    let b := min (j.dest.toNat + n) (l.va.toNat + pageBytes l.size)
    decide (a < b) && s.protect.any fun p => meetsRange (4096 * p) 4096 (l.key a) (b - a)
/-- R305: every page is copied and every write performed: the manifest is written, its signature last, and the job's fence counter rises. It waits while
another job's protection holds writes of the destination. A shard page unmapped since the arming began fails it before anything else. -/
def execCheckpointComplete (job : Nat) (s : State) : Res :=
  .next <|
  match s.job job with
  | none => s
  | some j =>
    match (if j.busy then j.lost else none) with
    | some va => s.failCheckpoint j 0x05 va
    | none =>
    if ¬ j.active ∨ j.left ≠ [] ∨ s.destWaits j then s else
    match s.shardGone j with
    | some (c, va) => s.failCheckpoint j c.toNat va
    | none =>
    let m := j.manifest
    match s.destFault j.v j.dest.toNat (m.length + 512) with
    | some e => s.destFails j e
    | none =>
      let s := (s.vwrite j.v j.dest.toNat m).vwrite j.v (j.dest.toNat + m.length) (padTo 512 (Config.sign s.tick m))
      (s.onJob job fun j => { j with active := false, copied := [] }).fenceAdd j.fence 1

/-! ## Mailbox commands on jobs (R298, R306) -/

/-- The mailbox's answer: a status and results. -/
def State.mbox (s : State) (status : Nat) (bytes : List Byte) : State := { s with mailbox := leBytes 4 status ++ bytes }
/-- A mailbox command that recovery mode does not serve (R307, R309); the status it gets then is free. -/
def State.served (s : State) (k : State → State) : Res := .next (if s.recovery then s.mbox (Config.word s.tick).toNat [] else k s)
/-- The shard list of a descriptor. -/
def shardsIn (bs : List Byte) (n : Nat) : List Shard :=
  (List.range n).map fun i => ⟨BitVec.ofNat 32 (le bs (24 * i) 4), BitVec.ofNat 64 (le bs (24 * i + 8) 8), le bs (24 * i + 16) 8⟩
/-- Two of these ranges meet. -/
def anyMeet : List (Nat × Nat) → Bool
  | [] => false
  | r :: rs => rs.any (fun q => meetsRange r.1 r.2 q.1 q.2) || anyMeet rs
/-- R297, R298: CKPT-JOB registers a job from its descriptor, read through virtual device `v`'s tables (DEDUCED, log 23). -/
def execCkptJob (descr : DWord) (v : Nat) (s : State) : Res :=
  s.served fun s =>
    if descr.toNat % 64 ≠ 0 then s.mbox 2 [] else
    match s.vread v descr.toNat 64 with
    | .error c => (s.noteFail v (s.vfail v descr.toNat 64) c).mbox 7 []
    | .ok d =>
      let id := le d 2 2
      let w := le d 4 2
      let kind := le d 6 1
      let trig := le d 8 8
      let m := le d 16 4
      let fence := le d 20 2
      let n := le d 22 2
      let dest := le d 24 8
      let share := le d 40 1
      if le d 0 2 ≠ 1 ∨ id = 0 ∨ 255 < id ∨ 1 < kind ∨ (kind = 0 ∧ (trig < 2 ^ 20 ∨ 2 ^ 48 < trig)) ∨ (kind = 1 ∧ (trig = 0 ∨ 2 ^ 32 ≤ trig))
          ∨ m = 0 ∨ 8192 < m ∨ n = 0 ∨ 4096 < n ∨ share = 0 ∨ 8 < share ∨ 32768 ≤ le d 42 2 ∨ ¬ zeroAt d (7 :: 41 :: span 44 64) then s.mbox 7 [] else
      match s.vread v (le d 32 8) (24 * n) with
      | .error c => (s.noteFail v (s.vfail v (le d 32 8) (24 * n)) c).mbox 7 []
      | .ok bs =>
        let shards := shardsIn bs n
        if dest % 0x10000 ≠ 0 ∨ shards.any (fun h => h.va.toNat % 4096 ≠ 0 || h.len % 4096 ≠ 0) then s.mbox 2 []
        else if shards.any (fun h => h.len < 4096 || 2 ^ 40 < h.len) ∨ (List.range n).any (fun i => le bs (24 * i + 4) 4 ≠ 0)
            ∨ anyMeet ((dest, destLen shards) :: shards.map fun h => (h.va.toNat, h.len)) then s.mbox 7 []
        else if s.jobs.any fun j => j.v = w || j.id = id then s.mbox 3 []
        else if ¬ s.ownsFence w fence ∨ (s.shardsFault w shards).isSome ∨ ¬ s.rangeOk w dest (destLen shards) true then s.mbox 1 []
        else
          State.mbox { s with jobs := s.jobs ++ [(⟨id, w, kind == 1, trig, m, fence, BitVec.ofNat 64 dest, shards, share, le d 42 2, 0, [], 0, s.cycle, false,
              none, false, false, [], [], 0, 0, none⟩ : Job)] } 0 []
/-- R298: CKPT-DROP abandons a checkpoint in progress, whose event's cause and failing VA the spec does not state, and removes the job. -/
def execCkptDrop (job : Nat) (s : State) : Res :=
  s.served fun s =>
    match s.job job with
    | none => s.mbox 4 []
    | some j =>
      let s := if j.busy then s.failCheckpoint j (Config.byte s.tick).toNat (Config.word s.tick).toNat else s.answerAll j.held
      { s with jobs := s.jobs.filter (·.id ≠ job) }.mbox 0 []
/-- R298: CKPT-KEY registers a signer. -/
def execCkptKey (serial : DWord) (key : List Byte) (s : State) : Res :=
  s.served fun s => if key.length ≠ 512 then s.mbox 7 [] else { s with signers := upd s.signers serial key }.mbox 0 []
/-- The digests of the pages of some bytes. -/
def pageDigests (bs : List Byte) : List (List Byte) := (List.range (bs.length / 4096)).map fun i => sha512 (slice bs (4096 * i) 4096)
/-- The digest of a restored shard's data (R303). -/
def dataDigest (bs : List Byte) : List Byte := padTo 64 (sha512 (pageDigests bs).flatten)
/-- The first fault of a shard's range at a restore: mapped writable, target 0, owned; `fuel` bounds its 64 KiB pages. -/
def State.targetFault (s : State) (v : Nat) : Nat → Nat → Nat → Option Nat
  | 0, _, _ => none
  | fuel + 1, va, n =>
    if n = 0 then none else
    let room := 0x10000 - va % 0x10000
    match s.leafNow v va with
    | none => some 4
    | some l =>
      if ¬ l.wr then some 4
      else if l.target ≠ 0 ∨ s.ownerOfPage ((l.pa.toNat + (va - l.va.toNat)) / 0x10000) ≠ some v then some 1
      else if n ≤ room then none else s.targetFault v fuel (va + room) (n - room)
/-- The status of a restore that cannot read a range, with the address and the cause of the failure (R306, R310). -/
def State.unread (s : State) (v va n : Nat) (c : Byte) : Nat × Option (Nat × Byte) := (4, some (s.vfail v va n, c))
/-- R306's steps 1 to 5: a status, with the read that failed if one did, or the second pass that follows, in which nothing has been written. -/
def State.restoreData (s : State) (manifest : DWord) (v fence queue : Nat) : Except (Nat × Option (Nat × Byte)) Restore :=
  match s.vread v manifest.toNat 64 with
  | .error c => .error (s.unread v manifest.toNat 64 c)
  | .ok hd =>
    let n := le hd 4 4
    match s.vread v manifest.toNat (64 + 96 * n), s.vread v (manifest.toNat + 64 + 96 * n) 512 with
    | .ok m, .ok sig =>
      let serial : DWord := BitVec.ofNat 64 (le hd 32 8)
      let key := if serial = Config.serial then some Config.identityKey else look s.signers serial
      if le hd 0 2 ≠ 1 ∨ ¬ key.any fun k => Config.verify k m sig then .error (6, none)
      else
        let shard (i : Nat) : Nat × Nat := (le m (64 + 96 * i + 8) 8, le m (64 + 96 * i + 16) 8)
        match (List.range n).findSome? fun i => s.targetFault v ((shard i).2 / 0x10000 + 2) (shard i).1 (shard i).2 with
        | some st => .error (st, none)
        | none =>
          if s.inUse v then .error (7, none) else
          ((List.range n).foldr (fun i (r : Except (Nat × Option (Nat × Byte)) (List (Nat × Nat × List Byte))) =>
            let src := manifest.toNat + le m (64 + 96 * i + 24) 8
            match r, s.vread v src (shard i).2 with
            | .error e, _ => .error e
            | _, .error c => .error (s.unread v src (shard i).2 c)
            | .ok l, .ok bs =>
              if dataDigest bs = slice m (64 + 96 * i + 32) 64 then .ok ((pageDigests bs).zipIdx.map (fun d => (src + 4096 * d.2, (shard i).1 + 4096 * d.2, d.1)) ++ l)
              else .error (7, none)) (.ok [])).map fun l => ⟨v, fence, queue, l, (List.range n).map shard⟩
    | .error c, _ => .error (s.unread v manifest.toNat (64 + 96 * n) c)
    | _, .error c => .error (s.unread v (manifest.toNat + 64 + 96 * n) 512 c)
/-- The status of a restore: event 0x0502 and the mailbox's answer. -/
def State.restored (s : State) (queue st : Nat) : State := (s.post queue (event [(0, 2, 0x0502), (4, 4, st), (56, 8, s.cycle.toNat)])).mbox st []
/-- A second pass that fails zero-fills every shard range before it is reported (R306). -/
def State.restoreFails (s : State) (r : Restore) (st : Nat) : State :=
  State.restored (r.ranges.foldl (fun s q => s.vwrite r.v q.1 (List.replicate q.2 0)) { s with restore := none }) r.queue st
/-- R306, step 6: the next page's bytes are read and their digest checked again, and they are written; after the last the fence counter rises. -/
def State.restorePage (s : State) : State :=
  match s.restore with
  | none => s
  | some r =>
    match r.left with
    | [] => ({ s with restore := none }.fenceAdd r.fence 1).restored r.queue 0
    | (src, dst, d) :: rest =>
      match s.vread r.v src 4096, s.rangeFault r.v true false 2 dst 4096 with
      | .ok bs, none => if sha512 bs = d then { s with restore := some { r with left := rest } }.vwrite r.v dst bs else s.restoreFails r 7
      | .error c, _ => (s.noteFail r.v (s.vfail r.v src 4096) c).restoreFails r 4
      | _, some (c, _) => s.restoreFails r (if c = 0x05 then 4 else 1)
/-- R306: CKPT-RESTORE verifies a manifest and its shards' digests, and only then the second pass begins; its status is posted as 0x0502. -/
def execCkptRestore (manifest : DWord) (v fence queue : Nat) (s : State) : Res :=
  s.served fun s =>
    match s.restoreData manifest v fence queue with
    | .error (st, e) => (match e with
      | some (va, c) => s.noteFail v va c
      | none => s).restored queue st
    | .ok r => { s with restore := some r }

end Sys2Proof.Machine
end

