-- ==== Sys2Proof/Machine/Vector.lean ====
section
/-! DEFINITION. Vector arithmetic, comparison and division (R112–R118). -/

namespace Sys2Proof.Machine

/-- An integer form on each active lane, wrapped to the lane (R114). -/
def State.vint (s : State) (vd va vb : Reg) (mk : MReg) (t : VTy) (f : Int → Int → Int) : State :=
  s.vmap vd mk (tyWidth t) (tyLanes t) fun i => wrap (tyWidth t) (f (intLane t (lane (s.v va) (tyWidth t) i)) (intLane t (lane (s.v vb) (tyWidth t) i)))
/-- A bitwise form on each active lane (R114). -/
def State.vbits (s : State) (vd va vb : Reg) (mk : MReg) (t : VTy) (f : Nat → Nat → Nat) : State :=
  s.vmap vd mk (tyWidth t) (tyLanes t) fun i => f (lane (s.v va) (tyWidth t) i) (lane (s.v vb) (tyWidth t) i)
/-- A floating form that rounds each active lane once under FRM, with a draw per active lane under mode 4 (R112). -/
def State.vfp (s : State) (vd : Reg) (mk : MReg) (t : VTy) (f : Nat → Exact) : State :=
  s.vround vd mk (tyWidth t) (tyLanes t) (s.active mk (tyLanes t)) fun i d => (f i).into (tyFmt t) s.mode d
/-- A floating form that rounds nothing and takes no draw (R115). -/
def State.vpick (s : State) (vd : Reg) (mk : MReg) (t : VTy) (f : Nat → Exact) : State :=
  s.vround vd mk (tyWidth t) (tyLanes t) 0 fun i _ => (f i).into (tyFmt t) .rne 0
/-- Complete a one-word vector form. -/
def State.vdone (s : State) : Res := .next (s.retire 1)

/-- R114: vadd. -/
def execVadd (vd va vb : Reg) (m : MReg) (t : VTy) (s : State) : Res :=
  if t.isFloat then (s.vfp vd m t fun i => addV s.mode (fpLane t (s.v va) i) (fpLane t (s.v vb) i)).vdone
  else (s.vint vd va vb m t fun a b => a + b).vdone
/-- R114: vsub. -/
def execVsub (vd va vb : Reg) (m : MReg) (t : VTy) (s : State) : Res :=
  if t.isFloat then (s.vfp vd m t fun i => addV s.mode (fpLane t (s.v va) i) (fpLane t (s.v vb) i).negate).vdone
  else (s.vint vd va vb m t fun a b => a - b).vdone
/-- R114, R115: vmin. -/
def execVmin (vd va vb : Reg) (m : MReg) (t : VTy) (s : State) : Res :=
  if t.isFloat then (s.vpick vd m t fun i => minmaxV false (fpLane t (s.v va) i) (fpLane t (s.v vb) i)).vdone
  else (s.vint vd va vb m t fun a b => if a < b then a else b).vdone
/-- R114, R115: vmax. -/
def execVmax (vd va vb : Reg) (m : MReg) (t : VTy) (s : State) : Res :=
  if t.isFloat then (s.vpick vd m t fun i => minmaxV true (fpLane t (s.v va) i) (fpLane t (s.v vb) i)).vdone
  else (s.vint vd va vb m t fun a b => if a < b then b else a).vdone
/-- R114: vmul. -/
def execVmul (vd va vb : Reg) (m : MReg) (t : VTy) (s : State) : Res :=
  if t.isFloat then (s.vfp vd m t fun i => mulV (fpLane t (s.v va) i) (fpLane t (s.v vb) i)).vdone
  else (s.vint vd va vb m t fun a b => a * b).vdone
/-- R114: vmulh; signed, unsigned for N32. -/
def execVmulh (vd va vb : Reg) (m : MReg) (t : VTy) (s : State) : Res :=
  (s.vint vd va vb m t fun a b => a * b / 2 ^ tyWidth t).vdone
/-- A sign change of a floating lane: a NaN gives the default NaN, a signalling one NV (R115). -/
def signOp (f : FVal → FVal) (a : FVal) : Exact := if a.isNan then .nan a.isSig else .of (f a)
/-- R114, R115: vabs; the least integer stays. -/
def execVabs (vd va : Reg) (m : MReg) (t : VTy) (s : State) : Res :=
  if t.isFloat then (s.vpick vd m t fun i => signOp .abs (fpLane t (s.v va) i)).vdone
  else (s.vint vd va va m t fun a _ => a.natAbs).vdone
/-- R114, R115: vneg. -/
def execVneg (vd va : Reg) (m : MReg) (t : VTy) (s : State) : Res :=
  if t.isFloat then (s.vpick vd m t fun i => signOp .negate (fpLane t (s.v va) i)).vdone
  else (s.vint vd va va m t fun a _ => -a).vdone
/-- R116: vfma; vd is the addend. -/
def execVfma (vd va vb : Reg) (m : MReg) (t : VTy) (s : State) : Res :=
  (s.vfp vd m t fun i => fmaV s.mode (fpLane t (s.v va) i) (fpLane t (s.v vb) i) (fpLane t (s.v vd) i)).vdone
/-- R116: vfms; vd is the addend. -/
def execVfms (vd va vb : Reg) (m : MReg) (t : VTy) (s : State) : Res :=
  (s.vfp vd m t fun i => fmaV s.mode (fpLane t (s.v va) i) (fpLane t (s.v vb) i) ((fpLane t (s.v vd) i).negate)).vdone
/-- R116: vfnma; vd is the addend. -/
def execVfnma (vd va vb : Reg) (m : MReg) (t : VTy) (s : State) : Res :=
  (s.vfp vd m t fun i => fmaV s.mode ((fpLane t (s.v va) i).negate) (fpLane t (s.v vb) i) (fpLane t (s.v vd) i)).vdone
/-- R116: vfnms; vd is the addend. -/
def execVfnms (vd va vb : Reg) (m : MReg) (t : VTy) (s : State) : Res :=
  (s.vfp vd m t fun i => fmaV s.mode ((fpLane t (s.v va) i).negate) (fpLane t (s.v vb) i) ((fpLane t (s.v vd) i).negate)).vdone
/-- R114: vand. -/
def execVand (vd va vb : Reg) (m : MReg) (t : VTy) (s : State) : Res :=
  (s.vbits vd va vb m t fun a b => a &&& b).vdone
/-- R114: vor. -/
def execVor (vd va vb : Reg) (m : MReg) (t : VTy) (s : State) : Res :=
  (s.vbits vd va vb m t fun a b => a ||| b).vdone
/-- R114: vxor. -/
def execVxor (vd va vb : Reg) (m : MReg) (t : VTy) (s : State) : Res :=
  (s.vbits vd va vb m t fun a b => a ^^^ b).vdone
/-- R114: vandn. -/
def execVandn (vd va vb : Reg) (m : MReg) (t : VTy) (s : State) : Res :=
  (s.vbits vd va vb m t fun a b => a ^^^ (a &&& b)).vdone
/-- R114: vshl. -/
def execVshl (vd va vb : Reg) (m : MReg) (t : VTy) (s : State) : Res :=
  (s.vbits vd va vb m t fun a b => a * 2 ^ (b % tyWidth t)).vdone
/-- R114: vshr. -/
def execVshr (vd va vb : Reg) (m : MReg) (t : VTy) (s : State) : Res :=
  (s.vbits vd va vb m t fun a b => a / 2 ^ (b % tyWidth t)).vdone
/-- R114: vsra. -/
def execVsra (vd va vb : Reg) (m : MReg) (t : VTy) (s : State) : Res :=
  (s.vbits vd va vb m t fun a b => wrap (tyWidth t) (sgn (tyWidth t) a / 2 ^ (b % tyWidth t))).vdone
/-- R114: vror. -/
def execVror (vd va vb : Reg) (m : MReg) (t : VTy) (s : State) : Res :=
  (s.vbits vd va vb m t fun a b => let k := b % tyWidth t; a / 2 ^ k + a * 2 ^ (tyWidth t - k)).vdone
/-- The active lanes among the first `n`. -/
def State.lanesOn' (s : State) (m : MReg) (n : Nat) : List Nat := (List.range n).filter fun i => (s.m m).getLsbD i
/-- A comparison (R118): bit i of md is the relation on an active lane and clear elsewhere. -/
def State.vcmp (s : State) (md : MReg) (va vb : Reg) (mk : MReg) (t : VTy) (ri : Int → Int → Bool) (rf : Ordering → Bool) (nan quiet : Bool) : State :=
  let n := tyLanes t
  let w := tyWidth t
  let a := fun i => fpLane t (s.v va) i
  let b := fun i => fpLane t (s.v vb) i
  let on := s.lanesOn' mk n
  let holds (i : Nat) : Bool :=
    if t.isFloat then (if (a i).isNan || (b i).isNan then nan else rf (cmpV (a i) (b i)))
    else ri (intLane t (lane (s.v va) w i)) (intLane t (lane (s.v vb) w i))
  let nv := t.isFloat && on.any fun i => if quiet then (a i).isSig || (b i).isSig else (a i).isNan || (b i).isNan
  (s.setM md (BitVec.ofNat 64 ((on.filter holds).foldl (fun r i => r + 2 ^ i) 0))).flag (flagIf nv fNV)
/-- R118: vceq. -/
def execVceq (md : MReg) (va vb : Reg) (m : MReg) (t : VTy) (s : State) : Res :=
  (s.vcmp md va vb m t (fun a b => a == b) (fun o => o == .eq) false true).vdone
/-- R118: vcne. -/
def execVcne (md : MReg) (va vb : Reg) (m : MReg) (t : VTy) (s : State) : Res :=
  (s.vcmp md va vb m t (fun a b => a != b) (fun o => o != .eq) true true).vdone
/-- R118: vclt. -/
def execVclt (md : MReg) (va vb : Reg) (m : MReg) (t : VTy) (s : State) : Res :=
  (s.vcmp md va vb m t (fun a b => decide (a < b)) (fun o => o == .lt) false false).vdone
/-- R118: vcle. -/
def execVcle (md : MReg) (va vb : Reg) (m : MReg) (t : VTy) (s : State) : Res :=
  (s.vcmp md va vb m t (fun a b => decide (a ≤ b)) (fun o => o != .gt) false false).vdone
/-- R117: vdiv. -/
def execVdiv (vd va vb : Reg) (m : MReg) (t : VTy) (s : State) : Res :=
  (s.vfp vd m t fun i => divV (fpLane t (s.v va) i) (fpLane t (s.v vb) i)).vdone
/-- R117: vsqrt. -/
def execVsqrt (vd va : Reg) (m : MReg) (t : VTy) (s : State) : Res :=
  (s.vfp vd m t fun i => sqrtV (fpLane t (s.v va) i)).vdone
/-- R117: vrcp. -/
def execVrcp (vd va : Reg) (m : MReg) (t : VTy) (s : State) : Res :=
  (s.vfp vd m t fun i => divV (.fin false 1 0) (fpLane t (s.v va) i)).vdone
/-- R117: vrsq. -/
def execVrsq (vd va : Reg) (m : MReg) (t : VTy) (s : State) : Res :=
  (s.vfp vd m t fun i => rsqrtV (fpLane t (s.v va) i)).vdone

end Sys2Proof.Machine
end

