-- ==== Sys2Proof/Machine/Lanes.lean ====
section
/-! DEFINITION. Conversion and quantisation (R119, R120), reductions (R121), lane moves (R122) and masks (R123). -/

namespace Sys2Proof.Machine

/-- Saturate an integer to a type (R119): the bits and whether it was out of range. -/
def saturate (t : VTy) (x : Int) : Nat × Bool :=
  if x < minInt t then (wrap (tyWidth t) (minInt t), true) else if maxInt t < x then (wrap (tyWidth t) (maxInt t), true) else (wrap (tyWidth t) x, false)
/-- Convert one lane (R119). -/
def convertLane (mode : Mode) (draw : Nat) (src dst : VTy) (x : Nat) : Nat × Flags :=
  if src.isInt then
    let v := intLane src x
    if dst.isInt then let r := saturate dst v; (r.1, flagIf r.2 fOF)
    else roundTo (tyFmt dst) mode draw (v < 0) v.natAbs 0 false
  else
    let v := (tyFmt src).value x
    if dst.isInt then
      match v with
      | .nan _ _ => (0, fNV)
      | .inf n => (wrap (tyWidth dst) (if n then minInt dst else maxInt dst), fNV)
      | .fin n m e =>
        let r := roundInt mode draw n m e
        let q := saturate dst r.1
        (q.1, if q.2 then fNV else flagIf r.2 fNX)
    else (Exact.mk v false (flagIf v.isSig fNV)).into (tyFmt dst) mode draw
/-- R119: vcvt; a destination lane past the source's lanes is zero. (DEDUCED, log 44.) -/
def execVcvt (vd va : Reg) (dst : VTy) (m : MReg) (t : VTy) (s : State) : Res :=
  let n := tyLanes dst
  let draws := if t.isFloat || dst.isFloat then s.active m n else 0
  (s.vround vd m (tyWidth dst) n draws fun i d =>
    if i < min (tyLanes t) n then convertLane s.mode d t dst (lane (s.v va) (tyWidth t) i) else (0, 0)).vdone
/-- R120: vqnt quantises the active FP32 lanes into one block; codes low, the scale in byte 63. -/
def execVqnt (vd va : Reg) (fmt : BitVec 4) (m : MReg) (s : State) : Res :=
  let f := (Fmt.ofCode fmt).getD .e2m1
  let mk := s.m m
  let els := (List.range 16).map fun i =>
    (if mk.getLsbD i then some (fpLane .f32 (s.v va) i) else none, drawAt s.prog.seed (activeBefore mk i))
  let b := quantBlock f s.mode 1 0 els
  let codes := packCodes f.bits b.codes
  let v := bytesVec (slice codes 0 63 ++ [BitVec.ofNat 8 b.scale])
  (((s.setV vd v).flag (b.flags ||| flagIf b.sat fOF)).drawn s.mode (s.active m 16)).vdone
/-- The value of a narrow code under a block scale, in FP32 (R120). -/
def dequant (f : Fmt) (scale code : Nat) : Nat :=
  if scale = 0 then 0 else
  let sc := scaleMag scale
  Fmt.f32.encode (mulV (f.value code) (.fin false sc.1 sc.2)).v
/-- R120: vdqnt. -/
def execVdqnt (vd va : Reg) (fmt : BitVec 4) (m : MReg) (s : State) : Res :=
  let f := (Fmt.ofCode fmt).getD .e2m1
  let bs := vecBytes (s.v va) 64
  (s.vmap vd m 32 16 fun i => dequant f (bs.getD 63 0).toNat (unpackCode f.bits bs i)).vdone
/-- R120: vamax, a running magnitude maximum. -/
def execVamax (vd va : Reg) (m : MReg) (t : VTy) (s : State) : Res :=
  (s.vmap vd m (tyWidth t) (tyLanes t) fun i =>
    let a := fpLane t (s.v va) i
    let d := fpLane t (s.v vd) i
    if a.isNan then lane (s.v vd) (tyWidth t) i
    else if d.isNan then (tyFmt t).encode a.abs
    else if belowV d a.abs then (tyFmt t).encode a.abs else lane (s.v vd) (tyWidth t) i).vdone

/-! ## Reductions (R121) -/

/-- One level: pairs combined, lowest first; each combination of two present values takes the next draw. A lane that
meets no other is passed on as it is. -/
def reduceLevel (f : Nat → Nat → Nat → Option Nat × Flags) : List (Option Nat) → Nat → Flags → List (Option Nat) × Nat × Flags
  | some a :: some b :: r, k, fl =>
    let c := f k a b
    let q := reduceLevel f r (k + 1) (fl ||| c.2)
    (c.1 :: q.1, q.2)
  | some a :: none :: r, k, fl => let q := reduceLevel f r k fl; (some a :: q.1, q.2)
  | none :: x :: r, k, fl => let q := reduceLevel f r k fl; (x :: q.1, q.2)
  | l, k, fl => (l, k, fl)
/-- Level by level to one value. -/
def reduceAll (f : Nat → Nat → Nat → Option Nat × Flags) : Nat → List (Option Nat) → Nat → Flags → Option Nat × Flags
  | 0, l, _, fl => (l.headD none, fl)
  | n + 1, l, k, fl => let r := reduceLevel f l k fl; reduceAll f n r.1 r.2.1 r.2.2
/-- A result as it is written: a NaN, that of a lane that met no other too, is the default NaN (R83). -/
def tyNorm (t : VTy) (b : Nat) : Nat := if t.isFloat && ((tyFmt t).value b).isNan then (tyFmt t).nanMag.getD b else b
/-- A reduction of the active lanes of va into lane 0 of vd; the other lanes are zero. -/
def State.vreduce (s : State) (vd va : Reg) (m : MReg) (t : VTy) (draws : Bool) (f : Nat → Nat → Nat → Option Nat × Flags) (empty : Nat) : State :=
  let n := tyLanes t
  let mk := s.m m
  let ls := (List.range n).map fun i => if mk.getLsbD i then some (lane (s.v va) (tyWidth t) i) else none
  let sig := t.isFloat && (s.lanesOn' m n).any fun i => (fpLane t (s.v va) i).isSig
  let r := reduceAll f n.log2 ls 0 (flagIf sig fNV)
  let s' := (s.setV vd (packLanes (tyWidth t) [tyNorm t (r.1.getD empty)])).flag r.2
  if draws && t.isFloat then s'.drawn s.mode (s.active m n) else s'
/-- R121: vrsum. -/
def execVrsum (vd va : Reg) (m : MReg) (t : VTy) (s : State) : Res :=
  let f := tyFmt t
  (s.vreduce vd va m t true (fun k a b =>
    if t.isFloat then let r := (addV s.mode (f.value a) (f.value b)).into f s.mode (drawAt s.prog.seed k); (some r.1, r.2)
    else (some (wrap (tyWidth t) (intLane t a + intLane t b)), 0)) 0).vdone
/-- vmax or vmin on two lanes (R114, R115). -/
def pick2 (mx : Bool) (t : VTy) (a b : Nat) : Nat × Flags :=
  if t.isFloat then (minmaxV mx ((tyFmt t).value a) ((tyFmt t).value b)).into (tyFmt t) .rne 0
  else (if (intLane t a < intLane t b) = mx then b else a, 0)
/-- R121: vrmax; a floating one takes draws (R112). -/
def execVrmax (vd va : Reg) (m : MReg) (t : VTy) (s : State) : Res :=
  (s.vreduce vd va m t true (fun _ a b => let r := pick2 true t a b; (some r.1, r.2))
    (if t.isFloat then (tyFmt t).sign true + (tyFmt t).infMag else wrap (tyWidth t) (minInt t))).vdone
/-- R121: vrmin; a floating one takes draws (R112). -/
def execVrmin (vd va : Reg) (m : MReg) (t : VTy) (s : State) : Res :=
  (s.vreduce vd va m t true (fun _ a b => let r := pick2 false t a b; (some r.1, r.2))
    (if t.isFloat then (tyFmt t).infMag else wrap (tyWidth t) (maxInt t))).vdone
/-- The larger magnitude, NaNs left out (R121); two NaNs leave nothing. -/
def mag2 (t : VTy) (a b : Nat) : Option Nat :=
  if t.isFloat then
    let f := tyFmt t
    let x := f.value a
    let y := f.value b
    if x.isNan && y.isNan then none
    else if x.isNan then some (f.encode y.abs)
    else if y.isNan then some (f.encode x.abs)
    else some (f.encode (if cmpV x.abs y.abs = .lt then y.abs else x.abs))
  else some (max (sgn (tyWidth t) a).natAbs (sgn (tyWidth t) b).natAbs)
/-- R121: vramax. -/
def execVramax (vd va : Reg) (m : MReg) (t : VTy) (s : State) : Res :=
  (s.vreduce vd va m t false (fun _ a b => (mag2 t a b, 0)) 0).vdone

/-! ## Moves (R122) -/

/-- The scalar operand of a lane move: s(r), or for FP64 the pair d(r). -/
def State.laneSrc (s : State) (r : Reg) (t : VTy) : Nat := if t = .f64 then (s.d (r.setWidth 5)).toNat else (s.s r).toNat
/-- R122: vsplat. -/
def execVsplat (vd ra : Reg) (m : MReg) (t : VTy) (s : State) : Res :=
  (s.vmap vd m (tyWidth t) (tyLanes t) fun _ => s.laneSrc ra t).vdone
/-- R122: vext; sign-extended for I16 and I8, zero-extended for BF16 and FP16. -/
def execVext (rd va rb : Reg) (t : VTy) (s : State) : Res :=
  let x := lane (s.v va) (tyWidth t) ((s.s rb).toNat % tyLanes t)
  if t = .f64 then s.giveD (rd.setWidth 5) (BitVec.ofNat 64 x)
  else s.giveS rd (if t = .i16 ∨ t = .i8 then BitVec.ofInt 32 (sgn (tyWidth t) x) else BitVec.ofNat 32 x)
/-- R122: vins writes one lane, if it is active. -/
def execVins (vd ra rb : Reg) (m : MReg) (t : VTy) (s : State) : Res :=
  let k := (s.s rb).toNat % tyLanes t
  (s.vmap vd m (tyWidth t) (tyLanes t) fun i => if i = k then s.laneSrc ra t else lane (s.v vd) (tyWidth t) i).vdone
/-- R122: vsel writes every lane. -/
def execVsel (vd va vb : Reg) (m : MReg) (t : VTy) (s : State) : Res :=
  (s.setV vd (mergeLanes (s.v vb) (tyWidth t) (tyLanes t) (s.m m) fun i => lane (s.v va) (tyWidth t) i)).vdone
/-- R122: vperm. -/
def execVperm (vd va vb : Reg) (m : MReg) (t : VTy) (s : State) : Res :=
  (s.vmap vd m (tyWidth t) (tyLanes t) fun i => lane (s.v va) (tyWidth t) (lane (s.v vb) (tyWidth t) i % tyLanes t)).vdone
/-- R122: vslu. -/
def execVslu (vd va rb : Reg) (m : MReg) (t : VTy) (s : State) : Res :=
  let k := (s.s rb).toNat
  (s.vmap vd m (tyWidth t) (tyLanes t) fun i => if k ≤ i then lane (s.v va) (tyWidth t) (i - k) else 0).vdone
/-- R122: vsld. -/
def execVsld (vd va rb : Reg) (m : MReg) (t : VTy) (s : State) : Res :=
  let k := (s.s rb).toNat
  (s.vmap vd m (tyWidth t) (tyLanes t) fun i => if i + k < tyLanes t then lane (s.v va) (tyWidth t) (i + k) else 0).vdone
/-- R122: vbcl. -/
def execVbcl (vd va rb : Reg) (m : MReg) (t : VTy) (s : State) : Res :=
  (s.vmap vd m (tyWidth t) (tyLanes t) fun _ => lane (s.v va) (tyWidth t) ((s.s rb).toNat % tyLanes t)).vdone

/-! ## Masks (R123) -/

/-- R123: mand. -/
def execMand (md ma mb : MReg) (s : State) : Res := .next ((s.setM md (s.m ma &&& s.m mb)).retire 1)
/-- R123: mor. -/
def execMor (md ma mb : MReg) (s : State) : Res := .next ((s.setM md (s.m ma ||| s.m mb)).retire 1)
/-- R123: mxor. -/
def execMxor (md ma mb : MReg) (s : State) : Res := .next ((s.setM md (s.m ma ^^^ s.m mb)).retire 1)
/-- R123: mpop counts all 64 bits. -/
def execMpop (rd : Reg) (ma : MReg) (s : State) : Res := s.giveS rd (BitVec.ofNat 32 (popN (s.m ma) 64))

end Sys2Proof.Machine
end

