-- ==== Sys2Proof/Machine/Mailbox.lean ====
section
/-! DEFINITION. The mailbox (R307): starts (R308, R309), firmware (R307, R311), READ and WRITE of the management class (R312), HALT, RESUME and
DEBUG (R269, R312), HEALTH (R310, R312) and the power controller (R313). -/

namespace Sys2Proof.Machine

/-! ## Starts (R308, R309) -/

/-- The firmware image that a start is to run fails its check with the key that the boot ROM knows (R308). Its signature is its last 512 bytes (DESIGN
CHOICE, log 66); of an image in place since before the model's first start the check is a fact of the start. -/
def State.fwBad (s : State) (f : StartFacts) : Bool := match s.fwNext.orElse fun _ => s.fwRun with
  | some img => !Config.verify Config.bootKey (img.take (img.length - 512)) (img.drop (img.length - 512))
  | none => f.fwFails
/-- The step that fails in a start, in the table's order; a warm start skips steps 2 to 4. -/
def startFails (f : StartFacts) (fw cold : Bool) : Option Nat :=
  if fw then some 1 else if cold && f.fusesFail then some 2 else if cold && f.hbmFails then some 3 else if cold && f.testFails then some 4
  else if f.meshFails then some 5 else if f.clearFails then some 6 else if f.cxlFails then some 7 else none
/-- A tile as a start leaves it: cleared and free, its anchor flag, side pointer and THAWCFG kept (R256, R308). -/
def Tile.started (t : Tile) : Tile := { Tile.reset with anchor := t.anchor, side := t.side, thaw := t.thaw }
/-- Step 6: every tile cleared and free, every queue disabled; everything in progress is abandoned and what the part keeps through a start stays (R256,
R308). Lasting errors from before it no longer count, since CYCLE begins again (DESIGN CHOICE, log 70). (DEDUCED, log 35.) (DEDUCED, log 41.) -/
def State.wiped (s : State) : State :=
  let s := s.queues.foldl (fun s q => s.qput q 17 1 0) s
  { State.reset with
    core := { ({ s.core with ctx := .none } : Core).cleared with lasting := [] }
    cur := s.cur
    others := s.others.map fun e => (e.1, { e.2.cleared with lasting := [] })
    tiles := s.tiles.map Tile.started
    tick := s.tick
    seen := s.queues.map fun q => (q, s.qhead q)
    gmem := s.gmem
    leaves := s.leaves, tables := s.tables
    badLines := s.badLines, qbase := s.qbase, fbase := s.fbase, ports := s.ports, records := s.records, saveN := s.saveN, saveE := s.saveE,
    switchN := s.switchN, signers := s.signers, failed := s.failed, recovery := s.recovery, firstStart := s.firstStart, fwRun := s.fwRun,
    fwNext := s.fwNext, clock := s.clock, health := s.health, submitted := s.submitted }
/-- Step 7: fence counters and translation tables zero (R284, R290, R308). -/
def State.linked (s : State) : State :=
  { s with gmem := s.tables.foldl (fun m t => m.clear (t.2 * 0x10000) 0x10000) (s.gmem.clear s.fbase (8 * 65536)), leaves := [], tables := [] }
/-- What every start abandons: launches, walks, checkpoints and what is in flight (R308). -/
def State.abandoned (s : State) : State :=
  { s with launches := [], gone := [], walks := [], jobs := [], protect := [], held := [], link := [], fading := [], restore := none, service := []
           progress := none, tries := [], agenda := [] }
/-- What a start that comes to step `n` counts and finds (R308, R310): a firmware image that is not verified; of step 5 each link that trains at its second
try, a mesh link and each port that failed twice; the ports that are disabled from now on. -/
def State.trained (s : State) (f : StartFacts) (n : Nat) : State :=
  let s := if n = 1 then s.count 4 else s
  if n < 5 then s else
  let s := (List.range f.retrained).foldl (fun s _ => s.count 3) s
  let s := if f.meshFails then s.count 3 else s
  let s := f.badPorts.foldl (fun s _ => s.count 3) s
  { s with health := { s.health with ports := f.badPorts.dedup } }
/-- HEALTH's number for a start that is counted as failed after an overheat stop; the others are those of R308's steps. (DEDUCED, log 41.) -/
def heatFail : Nat := 8
/-- R308, R309: a start, cold when the failed-start count is not zero or after an overheat stop, and then counted as failed (R313). One that fails at a step
ends there. (DEDUCED, log 41.) -/
def State.start (s : State) (cold : Bool) (f : StartFacts) : State :=
  let hot := s.stopped
  let cold := cold || decide (s.failed ≠ 0) || hot
  match startFails f (s.fwBad f) cold with
  | some n =>
    let w := (if n = 7 then s.wiped else s.abandoned).trained f n
    { w with failed := s.failed + 1, recovery := s.recovery || decide (3 ≤ s.failed + 1), up := false, stopped := false
             health := { w.health with lastFail := n } }.mbox (Config.word s.tick).toNat []
  | none =>
    let w := s.wiped.linked.trained f 7
    let failed := if hot then s.failed + 1 else 0
    { w with
      failed := failed, recovery := decide (3 ≤ failed), up := decide (failed < 3)
      health := { w.health with lastFail := if hot then heatFail else w.health.lastFail }
      fwRun := s.fwNext.orElse fun _ => s.fwRun
      fwNext := none
      firstStart := s.fwNext.isSome }.mbox 0 []
/-- R307–R309: START with byte 4 zero; with a failed start on record it runs cold, in recovery mode too. -/
def execStartWarm (f : StartFacts) (s : State) : Res := .next (s.start false f)
/-- R307–R309: START with byte 4 one. -/
def execStartCold (f : StartFacts) (s : State) : Res := .next (s.start true f)

/-! ## Firmware, identity, health (R307, R310–R312) -/

/-- R307: FW-LOAD takes a signed image from host memory, for the next start. -/
def execFwLoad (addr len : DWord) (s : State) : Res := .next ({ s with fwNext := some (s.gmem.read (gkey 1 0 addr.toNat) len.toNat) }.mbox 0 [])
/-- R311: IDENTITY. -/
def execIdentity (s : State) : Res := .next (s.mbox 0 (leBytes 8 Config.serial.toNat ++ padTo 512 Config.identityKey))
/-- R307: LAYOUT. (DESIGN CHOICE, log 6.) -/
def execLayout (s : State) : Res := s.served fun s => s.mbox 0 (leBytes 8 s.qbase ++ leBytes 8 s.fbase ++ leBytes 8 Config.serial.toNat)
/-- R310, R312: HEALTH gives its record: of the counts, 1 is uncorrectable reads of HBM, 2 refused packets, 3 links, 4 firmware; the cores count double-bit errors. -/
def execHealth (s : State) : Res :=
  let h := s.health
  let cs := s.cores
  .next (s.mbox 0 (Config.healthRecord [[s.failed], [h.lastFail], h.counts.flatMap fun c => [c.1, c.2], [(cs.map fun e => e.2.doubles).sum], h.ports,
    cs.flatMap fun e => e.2.degraded.flatMap fun d => [e.1, d.2], (cs.filter fun e => e.2.fenced).map (·.1), [h.watts, h.die, h.coolant], h.badPages, [h.clocks]]))

/-! ## HALT, RESUME, DEBUG (R269, R312) -/

/-- Change every resident context with an ID; status 7 where there is none. -/
def State.onContexts (s : State) (id : Half) (f : Ctx → Ctx) : State :=
  if ¬ s.cores.any fun e => (e.2.byId id).isSome then s.mbox 7 [] else
  (s.cores.foldl (fun s e => if (e.2.byId id).isSome then s.onCore e.1 fun k => k.onId id f else s) s).mbox 0 []
/-- R312: HALT takes effect at the next boundary of the context's firing. -/
def execHalt (id : Half) (s : State) : Res := s.served fun s => s.onContexts id fun x => { x with halted := true }
/-- R269, R307: RESUME lets a halted context go on, and with it the device after a debug stop. (DESIGN CHOICE, log 7.) -/
def execResume (id : Half) (s : State) : Res :=
  s.served fun s =>
    let stops := s.cores.any fun e => (e.2.byId id).any fun x => x.halted
    let s := s.onContexts id fun x => { x with halted := false }
    { s with atBreak := s.atBreak && !stops }
/-- R269: DEBUG sets debug mode. -/
def execDebugSet (id : Half) (s : State) : Res := s.served fun s => s.onContexts id fun x => { x with debug := true }
/-- R269: DEBUG clears debug mode. -/
def execDebugClear (id : Half) (s : State) : Res := s.served fun s => s.onContexts id fun x => { x with debug := false }

/-! ## READ and WRITE (R312) -/

/-- A handler entry (R177). -/
def handlerWord (h : Handler) : DWord :=
  BitVec.ofNat 64 (2 ^ 63 + 2 ^ 61 * h.slot + (if h.high then 2 ^ 60 else 0) + (if h.actor then 2 ^ 59 else 0) + 2 ^ 56 * h.kind.toNat
    + 2 ^ 40 * h.ctx.toNat + h.pc.toNat % 2 ^ 24)
/-- A channel entry (R146). -/
def Chan.entry (k : Chan) : List Byte :=
  let st := [true, k.xoff, k.spillBit, k.eosBit, k.suspect, k.prodBound, k.consBound].zipIdx.foldl (fun a e => a + (if e.1 then 2 ^ e.2 else 0)) 0
  leBytes 4 k.producer.toNat ++ leBytes 4 k.consumer.toNat ++ leBytes 4 k.ring ++ leBytes 2 k.capacity ++ [BitVec.ofNat 8 k.esize, BitVec.ofNat 8 st]
    ++ leBytes 2 k.off ++ leBytes 2 k.on ++ [BitVec.ofNat 8 k.f, 0] ++ leBytes 2 k.streamer ++ leBytes 8 k.spillBase.toNat ++ leBytes 4 k.limit
    ++ leBytes 4 k.head ++ leBytes 4 k.tail ++ leBytes 2 k.grow ++ leBytes 2 0 ++ leBytes 8 k.written.toNat ++ leBytes 8 k.read.toNat
/-- An entry of the error log (R140). -/
def LogEntry.bytes (e : LogEntry) : List Byte :=
  leBytes 2 (e.bank + 32 * e.row) ++ [e.syndrome, e.cls] ++ leBytes 2 e.ctx.toNat ++ [0, 0] ++ leBytes 8 e.cycle.toNat ++ leBytes 8 0
/-- TERFL (R250). -/
def Tile.flagsWord (t : Tile) : Nat :=
  (if t.anchor then 2 ^ 31 else 0) + (if t.steward.isSome then 2 ^ 30 else 0) + (if t.xfer = .none then 0 else 2 ^ 29) + (if t.shared then 2 ^ 28 else 0)
    + 2 ^ 26 * t.side.toNat + t.hold.toNat
/-- The context in a slot of a core, open to the management class unless protected. -/
def Core.openCtx (k : Core) (slot : Nat) : Except Nat Ctx := match k.ctxs.find? fun x => x.slot = slot with
  | none => .error 7
  | some x => if x.prot then .error 1 else .ok x
/-- The firings of a core, with the slots of their contexts: 0 the one that runs, 1 one that is preempted, 2 and up those that are parked. -/
def Core.firingAt (k : Core) : Nat → Option (Nat × Firing)
  | 0 => if k.resident ∧ k.status ≠ .idle then some (k.ctx.slot, k.fir) else none
  | 1 => if k.resident then k.under.map fun f => (k.ctx.slot, f) else none
  | n + 2 => k.parks[n]?.map fun p => (p.slot, p.fir)
/-- A firing of a core whose context is halted, or the status that says why its registers are closed (R312). -/
def Core.openFiring (k : Core) (i : Nat) : Except Nat Firing :=
  match k.firingAt i with
  | none => .error 7
  | some (slot, f) => match k.openCtx slot with
    | .error e => .error e
    | .ok x => if x.halted ∧ ¬ (i = 0 ∧ k.status.inside) then .ok f else .error 7
/-- What a control register is one copy of (R272). -/
inductive HeldBy
  | firing | context | core
deriving DecidableEq, Repr
/-- What holds a control register (R272); STATUS, whose level and in-trap bits are a firing's, goes with the firing, where there is one. -/
def csrHeld (n : Nat) : HeldBy :=
  if [0x000, 0x001, 0x002, 0x003, 0x009, 0x048, 0x049, 0x04C, 0x04D, 0x04E, 0x04F, 0x050, 0x051].contains n then .firing
  else if [0x040, 0x052, 0x053, 0x054, 0x070, 0x071, 0x080, 0x081].contains n then .core else .context
/-- The state as control register `n` of core `c` is seen in: with firing `i`, with the context in slot `i`, or as the core stands; or the status that says
why it is closed (R272, R312). (DESIGN CHOICE, log 40.) -/
def State.csrView (s : State) (c i n : Nat) : Except Nat State :=
  let t := s.goto c
  let k := s.coreAt c
  let with' (x : Ctx) (f : Firing) : State := { t with core := { t.core with ctx := x, fir := f } }
  let context (slot : Nat) (f : Firing) : Except Nat State := (k.openCtx slot).map fun x => with' x f
  match csrHeld n with
  | .core => .ok t
  | .context => context i (if k.resident && k.ctx.slot == i then k.fir else .zero)
  | .firing => match k.firingAt i with
    | some (slot, _) => (k.openFiring i).bind (context slot)
    | none => if n = 0 then context i .zero else .error 7
/-- The ring of the channel that a queue of a core's context consumes from: its place and its bytes. -/
def State.ringOf (s : State) (x : Ctx) (q : Nat) : Option (Nat × Nat) :=
  (x.prog.binds.find? fun b => b.q.toNat = q && b.consumer).bind fun b => (s.chanAt b.ch).map fun k => (k.ring, k.capacity * 2 ^ k.esize)
/-- A byte range of a scratchpad lies in a protected allocation. -/
def Core.sealed (k : Core) (off : Nat) : Bool := k.ctxs.any fun x => x.prot && decide (off < x.base + x.size ∧ x.base < off + 8)
/-- Read an 8-byte unit: the value, or a status with which it reads as zero. (DESIGN CHOICE, log 40.) -/
def State.readUnit (s : State) (r : Resource) : State × Except Nat Nat :=
  let u (x : Except Nat Nat) : State × Except Nat Nat := (s, x)
  match r with
  | .scratch c off =>
    if 8192 ≤ c ∨ 0x18000 < off + 8 then u (.error 7) else if (s.coreAt c).sealed off then u (.error 1) else
    let q := s.scrRead c off 8 0
    (q.1, match q.2 with
      | some bs => .ok (ofBytes bs)
      | none => .error (Config.word s.tick).toNat)
  | .scalar c i n => u (((s.coreAt c).openFiring i).map fun f => (vget f.regs.s n 0).toNat)
  | .mask c i n => u (((s.coreAt c).openFiring i).map fun f => (vget f.regs.m n 0).toNat)
  | .index c i n => u (((s.coreAt c).openFiring i).map fun f => (vget f.regs.j n 0).toNat)
  | .pc c i => u (((s.coreAt c).openFiring i).map fun f => f.regs.pc.toNat)
  | .payload c i n => u (((s.coreAt c).openFiring i).map fun f => le (vecBytes f.regs.v0 64) (8 * n) 8)
  | .vector c sl n i => u (((s.coreAt c).openCtx sl).map fun x => le (vecBytes (vget x.prog.v n 0) 64) (8 * i) 8)
  | .acc c sl n i => u (((s.coreAt c).openCtx sl).map fun x => le (wordBytes (vget x.acc n (.replicate 256 0)).toList) (8 * i) 8)
  | .queue c sl q i => match (s.coreAt c).openCtx sl with
      | .error e => u (.error e)
      | .ok x =>
        if q = 0 then u (.ok (x.q0.getD i 0).toNat)
        else if q = 1 then u (.ok (match x.q1[i]? with
          | some r => r.1.toNat + 2 ^ 32 * r.2.toNat
          | none => 0))
        else if i = 0 then u (.ok (({ s with cur := c, core := { (s.coreAt c) with ctx := x, fir := .zero } } : State).qstat (BitVec.ofNat 4 q)).toNat)
        else match s.ringOf x q with
          | none => u (.error 7)
          | some (a, n) => if n < 8 * i then u (.error 7) else
            let r := s.scrRead c (a + 8 * (i - 1)) 8 0
            (r.1, match r.2 with
              | some bs => .ok (ofBytes bs)
              | none => .error (Config.word s.tick).toNat)
  | .slot c sl n i => u (((s.coreAt c).openCtx sl).map fun x => le (x.prog.slot n).bytes (8 * i) 8)
  | .barrier c n i => u (.ok (let b := (s.coreAt c).bar (BitVec.ofNat 7 n)
      if i = 0 then b.word.toNat + 2 ^ 32 * b.expected.toNat else b.pending.toNat))
  | .csr c i n => u ((s.csrView c i n).bind fun t => match t.csr (BitVec.ofNat 12 n) with
      | some v => .ok v.toNat
      | none => .error 7)
  | .handler c i => u (match look (s.coreAt c).handlers (BitVec.ofNat 5 i) with
      | some h => ((s.coreAt c).openCtx h.slot).map fun _ => (handlerWord h).toNat
      | none => .ok 0)
  | .errlog c i n => u (.ok (match (s.coreAt c).errlog[i]? with
      | some e => le e.bytes (8 * n) 8
      | none => 0))
  | .einj c => u (.ok (s.coreAt c).einj.toNat)
  | .route c i => u (.ok ((look (s.coreAt c).routes (BitVec.ofNat 5 i)).getD 0).toNat)
  | .channel t i n => u (.ok (match (s.tileAt t).chans.find? (·.idx = BitVec.ofNat 15 (512 * t + i)) with
      | some k => le k.entry (8 * n) 8
      | none => 0))
  | .terid t => u (.ok (s.tileAt t).ter.toNat)
  | .termsk t => u (.ok (s.tileAt t).mask.toNat)
  | .tersz t => u (.ok (s.tileAt t).size.toNat)
  | .terdm t => u (.ok ((if (s.tileAt t).stated then 2 ^ 31 else 0) + (s.tileAt t).demand.toNat))
  | .terpr t => u (.ok (s.tileAt t).press.toNat)
  | .terfl t => u (.ok (s.tileAt t).flagsWord)
  | .thawcfg t => u (.ok (s.tileAt t).thaw.toNat)
  | .driv => u (.ok s.driv.toNat)
  | .drthr => u (.ok s.drthr.toNat)
  | .drhold => u (.ok s.drhold.toNat)
  | .vacb => u (.ok s.vacb.toNat)
  | .fence f => u (.ok (s.fence f))
  | .absent => u (.error 7)
/-- R139: EINJ takes a value whose bank, row and bit numbers are in range, and whose two bits differ where it flips two. -/
def einjOk (w : Word) : Bool :=
  let bank := (w.extractLsb' 25 4).toNat
  let row := (w.extractLsb' 15 10).toNat
  let a := (w.extractLsb' 8 7).toNat
  let b := (w.extractLsb' 1 7).toNat
  decide ((w.getLsbD 29 → bank < 4) ∧ row < 768 ∧ a < 72 ∧ b < 72 ∧ (w.getLsbD 30 → a ≠ b))
/-- R220: a route-class entry with no reserved value; bits <7:5> that are not zero are one, and the write is refused. (DESIGN CHOICE, log 40.) -/
def routeOk (b : Byte) : Bool := decide (b.extractLsb' 5 3 = 0 ∧ (b.extractLsb' 2 3).toNat < 4 ∧ (b.extractLsb' 0 2).toNat < 3)
/-- Change a halted firing of a core. -/
def State.putFiring (s : State) (c i : Nat) (f : Regs → Regs) : State × Nat := match (s.coreAt c).openFiring i with
  | .error e => (s, e)
  | .ok x => (s.onCore c fun k =>
    let x := { x with regs := f x.regs }
    match i with
    | 0 => { k with fir := x }
    | 1 => { k with under := some x }
    | n + 2 => { k with parks := k.parks.zipIdx.map fun p => if p.2 = n then { p.1 with fir := x } else p.1 }, 0)
/-- Change a context of a core. -/
def State.putCtx (s : State) (c slot : Nat) (f : Ctx → Ctx) : State × Nat := match (s.coreAt c).openCtx slot with
  | .error e => (s, e)
  | .ok _ => (s.onCore c fun k => k.onCtx slot f, 0)
/-- A control register is written by its own rules (R271, R272): one that is read-only keeps its value; a matrix register is written in program order and in
the matrix unit; of CLSMSK the bits of the classes that the context in slot `i` claims (R201). -/
def State.putCsr (s : State) (c i : Nat) (n : BitVec 12) (v : Word) : State × Nat :=
  let k := s.coreAt c
  match (if n = 0x040 then (k.openCtx i).map fun x => { s.goto c with core := { (s.goto c).core with ctx := x } } else s.csrView c i n.toNat) with
  | .error e => (s, e)
  | .ok t =>
    match t.csr n with
    | none => (s, 7)
    | some old =>
      if csrReadOnly n 1 then (s, 0) else
      let m := n.toNat - 0x020
      let w := matrixKeep n.toNat old v
      let u : State :=
        if 0x020 ≤ n.toNat ∧ n.toNat < 0x030 then t.setCtx { t.ctx with prog := { t.prog with po := vset t.prog.po m w }, hw := vset t.ctx.hw m w }
        else if n = 0x030 then t.setCtx { t.ctx with qstat := v }
        else t.csrPut n v
      if n = 0x040 then (s.onCore c fun k => { k with clsmsk := (k.clsmsk &&& ~~~t.claims) ||| (v &&& t.claims) }, 0)
      else if 0x04C ≤ n.toNat ∧ n.toNat < 0x050 then s.putFiring c i fun _ => u.regs
      else s.putCtx c t.ctx.slot fun _ => u.ctx
/-- A barrier as a unit of it leaves it when it is written: its word as bstat reads it with expected above, or its pending bytes (R204, R207). A class
above 19 is a reserved value, which keeps the old one. -/
def Bar.put (b : Bar) (i v : Nat) : Bar :=
  let w : Word := BitVec.ofNat 32 v
  if i ≠ 0 then { b with pending := BitVec.ofNat 48 v } else
  { b with phase := w.getLsbD 31, enable := w.getLsbD 30, cls := if (w.extractLsb' 25 5).toNat < 20 then w.extractLsb' 25 5 else b.cls
           arrivals := w.extractLsb' 0 16, expected := BitVec.ofNat 16 (v / 2 ^ 32) }
/-- Replace 8-byte unit `i` of some bytes. -/
def setUnit (bs : List Byte) (i v : Nat) : List Byte := bs.take (8 * i) ++ leBytes 8 v ++ bs.drop (8 * i + 8)
/-- Write an 8-byte unit under its resource's own rules (R139, R153, R220, R250, R251); its status. (DESIGN CHOICE, log 40.) -/
def State.writeUnit (s : State) (r : Resource) (v : Nat) : State × Nat :=
  let w : Word := BitVec.ofNat 32 v
  match r with
  | .scratch c off =>
    if 8192 ≤ c ∨ 0x18000 < off + 8 then (s, 7) else if (s.coreAt c).sealed off then (s, 1) else (s.agentWrite c off (leBytes 8 v) 0, 0)
  | .scalar c i n => s.putFiring c i fun r => r.setS (BitVec.ofNat 6 n) w
  | .mask c i n => s.putFiring c i fun r => r.setM (BitVec.ofNat 3 n) (BitVec.ofNat 64 v)
  | .index c i n => s.putFiring c i fun r => { r with j := vset r.j n w }
  | .pc c i => s.putFiring c i fun r => { r with pc := w &&& 0xFFFFFF }
  | .payload c i n => s.putFiring c i fun r => { r with v0 := bytesVec (setUnit (vecBytes r.v0 64) n v) }
  | .csr c i n => s.putCsr c i (BitVec.ofNat 12 n) w
  | .vector c sl n i => s.putCtx c sl fun x => { x with prog := { x.prog with v := vset x.prog.v n (bytesVec (setUnit (vecBytes (vget x.prog.v n 0) 64) i v)) } }
  | .acc c sl n i => s.putCtx c sl fun x =>
      let old := vget x.acc n (.replicate 256 0)
      let new : Vector Word 256 := Vector.ofFn fun j : Fin 256 => if j.val / 2 = i then BitVec.ofNat 32 (v / 2 ^ (32 * (j.val % 2))) else vget old j.val 0
      { x with acc := vset x.acc n new }
  | .queue c sl q i => match (s.coreAt c).openCtx sl with
    | .error e => (s, e)
    | .ok x =>
      if q = 0 then s.putCtx c sl fun x => { x with q0 := x.q0.set i w }
      else if q = 1 then s.putCtx c sl fun x => { x with q1 := x.q1.set i (w, BitVec.ofNat 2 (v / 2 ^ 32)) }
      else if i = 0 then (s, 0)
      else match s.ringOf x q with
        | none => (s, 7)
        | some (a, n) => if n < 8 * i then (s, 7) else (s.agentWrite c (a + 8 * (i - 1)) (leBytes 8 v) 0, 0)
  | .slot c sl n i => s.putCtx c sl fun x =>
      let old := x.prog.slot n
      { x with prog := x.prog.setSlot n { Slot.ofBytes (setUnit old.bytes i v) with holder := old.holder } }
  | .barrier c n i => (s.onCore c fun k => { k with bars := upd k.bars (BitVec.ofNat 7 n) ((k.bar (BitVec.ofNat 7 n)).put i v) }, 0)
  | .handler _ _ | .errlog _ _ _ | .channel _ _ _ | .terid _ | .termsk _ | .tersz _ | .terdm _ | .terpr _ | .fence _ => (s, 0)
  | .einj c => (if einjOk w then s.onCore c fun k => { k with einj := w } else s, 0)
  | .route c i => (if routeOk (w.setWidth 8) then s.onCore c fun k => { k with routes := upd k.routes (BitVec.ofNat 5 i) (w.setWidth 8) } else s, 0)
  | .terfl t => (s.onTile t fun k => { k with anchor := w.getLsbD 31 }, 0)
  | .thawcfg t => (if 1024 ≤ v % 2 ^ 24 then s.onTile t fun k => { k with thaw := w &&& 0x80FFFFFF } else s, 0)
  | .driv =>
    let n := v % 2 ^ 25
    (if 1024 ≤ n ∧ n < 2 ^ 24 then { s with driv := BitVec.ofNat 32 n, phase := s.cycle.toNat / n } else s, 0)
  | .drthr => ({ s with drthr := w &&& 0xFFFF }, 0)
  | .drhold => ({ s with drhold := w &&& 0xF }, 0)
  | .vacb => (if 1024 ≤ v % 2 ^ 24 then { s with vacb := w &&& 0xFFFFFF } else s, 0)
  | .absent => (s, 7)
/-- The arguments of READ and WRITE are in range (R307). -/
def unitsOk (kind addr len : Nat) : Bool := decide (kind ≤ 3 ∧ 8 ≤ len ∧ len ≤ 4096 ∧ len % 8 = 0 ∧ addr % 8 = 0)
/-- The target kind that reaches a resource (R312): 0 core state, 1 tile state, 2 package registers, 3 fence counters. -/
def kindOf : Resource → Nat
  | .scratch _ _ | .scalar _ _ _ | .mask _ _ _ | .index _ _ _ | .pc _ _ | .payload _ _ _ | .csr _ _ _ | .vector _ _ _ _ | .acc _ _ _ _ | .queue _ _ _ _
  | .slot _ _ _ _ | .barrier _ _ _ | .handler _ _ | .errlog _ _ _ | .einj _ | .route _ _ => 0
  | .channel _ _ _ | .terid _ | .termsk _ | .tersz _ | .terdm _ | .terpr _ | .terfl _ | .thawcfg _ => 1
  | .driv | .drthr | .drhold | .vacb | .absent => 2
  | .fence _ => 3
/-- The router of a resource's core, or of its tile's territory registers; none for one of the firmware controller's own. -/
def routerOf : Resource → Option Nat
  | .scratch c _ | .scalar c _ _ | .mask c _ _ | .index c _ _ | .pc c _ | .payload c _ _ | .csr c _ _ | .vector c _ _ _ | .acc c _ _ _ | .queue c _ _ _
  | .slot c _ _ _ | .barrier c _ _ | .handler c _ | .errlog c _ _ | .einj c | .route c _ => some c
  | .channel t _ _ | .terid t | .termsk t | .tersz t | .terdm t | .terpr t | .terfl t | .thawcfg t => some (territoryCore t)
  | .driv | .drthr | .drhold | .vacb | .fence _ | .absent => none
/-- The resource of a kind at an address, reached by messages of class 27 from the firmware controller and answered by class 23 (R216, R220); none where one
of them has no way. (DEDUCED, log 55.) -/
def State.resource (s : State) (kind addr : Nat) : Option Resource :=
  let r := Config.resourceAt kind addr
  let r := if kindOf r = kind then r else .absent
  if (routerOf r).all fun c => s.way 27 firmwareCore c == .there && s.way 23 c firmwareCore == .there then some r else none
/-- One more of a command's units is done: with the last one it answers the first status that is not 0, before that it stays in flight (R312). -/
def State.unitDone (s : State) (e : Ev) (n status st : Nat) (bytes : List Byte) (i : Nat) : State :=
  let st := if status = 0 then st else status
  if n ≤ i + 1 then { s with progress := none }.mbox st bytes else { s with progress := some (i + 1, st, bytes) }.send e
/-- The next unit of a command goes over the mesh, to a resource elsewhere than at the firmware controller. -/
def State.unitAway (s : State) (kind addr : Nat) : Bool := (s.resource kind (addr + 8 * (s.progress.getD (0, 0, [])).1)).any fun r => (routerOf r).any (· ≠ firmwareCore)
/-- R312: READ: its next unit, in address order; a unit that cannot be reached has a free status. -/
def execRead (kind : Nat) (addr : DWord) (len : Nat) (s : State) : Res :=
  s.served fun s =>
    if ¬ unitsOk kind addr.toNat len then s.mbox 7 [] else
    let (i, status, bytes) := s.progress.getD (0, 0, [])
    let q : State × Except Nat Nat := match s.resource kind (addr.toNat + 8 * i) with
      | some r => s.readUnit r
      | none => (s, .error (Config.word s.tick).toNat)
    q.1.unitDone (.read kind addr len) (len / 8) status (match q.2 with
      | .ok _ => 0
      | .error e => e) (bytes ++ leBytes 8 (match q.2 with
      | .ok v => v
      | .error _ => 0)) i
/-- R312: WRITE: its next unit, in address order. -/
def execWrite (kind : Nat) (addr : DWord) (bytes : List Byte) (s : State) : Res :=
  s.served fun s =>
    if ¬ unitsOk kind addr.toNat bytes.length then s.mbox 7 [] else
    let (i, status, _) := s.progress.getD (0, 0, [])
    let q : State × Nat := match s.resource kind (addr.toNat + 8 * i) with
      | some r => s.writeUnit r (le bytes (8 * i) 8)
      | none => (s, (Config.word s.tick).toNat)
    q.1.unitDone (.write kind addr bytes) (bytes.length / 8) status q.2 [] i

/-! ## Commands (R307) -/

/-- A command that the mailbox brings; a sample of the power controller is none. -/
def evCommand : Ev → Bool
  | .startWarm _ | .startCold _ | .health | .fwLoad _ _ | .read _ _ _ | .write _ _ _ | .halt _ | .resume _ | .identity | .layout | .debugSet _ | .debugClear _
  | .ckptJob _ _ | .ckptDrop _ | .ckptKey _ _ | .ckptRestore _ _ _ _
  | .adminMap none _ _ | .adminUnmap none _ _ | .adminCancel none _ | .adminClaim none _ _ | .adminFree none _ _ | .adminTimeshare none _ _ _
  | .adminVdev none _ _ _ _ _ _ _ | .adminPair none _ _ _ | .adminQueue none _ _ _ _ _ _ _ | .adminOwnAssign none _ _ _ | .adminOwnRelease none _ _ _
  | .adminTenantCreate none _ _ | .adminTenantDelete none _ => true
  | _ => false
/-- What the steps of a start will meet, which nothing in the part decides (DESIGN CHOICE, log 7). -/
def State.startFacts (s : State) : StartFacts :=
  let b := Config.byte s.tick
  let w := Config.word s.tick
  ⟨b.getLsbD 0, b.getLsbD 1, b.getLsbD 2, (List.range 16).filter fun i => w.getLsbD i, b.getLsbD 3, b.getLsbD 4, b.getLsbD 5, b.getLsbD 6, (w >>> 16).toNat⟩
/-- The command of an input payload: device code, two zero bytes, arguments from byte 4, whose places are the spec's for START, ADMIN and DEBUG and in
the order of the tables for the others (DESIGN CHOICE, log 66); none answers 7. -/
def commandOf (f : StartFacts) (bs : List Byte) : Option Ev :=
  let d (i : Nat) : DWord := BitVec.ofNat 64 (le bs i 8)
  let h (i : Nat) : Half := BitVec.ofNat 16 (le bs i 2)
  if le bs 2 2 ≠ 0 then none else
  match le bs 0 2 with
  | 0x0001 => match le bs 4 1 with
    | 0 => some (.startWarm f)
    | 1 => some (.startCold f)
    | _ => none
  | 0x0002 => some .health
  | 0x0003 => some (.fwLoad (d 4) (d 12))
  | 0x0004 => some (.read (le bs 4 1) (d 8) (le bs 16 4))
  | 0x0005 => some (.write (le bs 4 1) (d 8) (slice bs 20 (le bs 16 4)))
  | 0x0006 => some (.halt (h 4))
  | 0x0007 => some (.resume (h 4))
  | 0x0008 => some .identity
  | 0x0009 =>
    let e := slice bs 4 64
    if e.getD 0 0 = 4 ∧ zeroAt e (span 2 8) then adminEvent none e else none
  | 0x000A => some .layout
  | 0x000B => match le bs 6 1 with
    | 0 => some (.debugClear (h 4))
    | 1 => some (.debugSet (h 4))
    | _ => none
  | 0x0601 => if le bs 12 2 < 4096 then some (.ckptJob (d 4) (le bs 12 2)) else none
  | 0x0602 => some (.ckptDrop (le bs 4 2))
  | 0x0603 => some (.ckptKey (d 4) (bs.drop 12))
  | 0x0604 => if le bs 12 2 < 4096 ∧ le bs 16 2 < 32768 then some (.ckptRestore (d 4) (le bs 12 2) (le bs 14 2) (le bs 16 2)) else none
  | _ => none
/-- R307: the mailbox takes the next command that has been submitted; a code it does not know answers 7. -/
def State.mailboxTake (s : State) : State :=
  match s.submitted with
  | [] => s
  | bs :: rest =>
    let t : State := { s with submitted := rest }
    match commandOf s.startFacts bs with
    | some e => t.send e
    | none => t.mbox 7 []
/-- The part runs: it has started, and neither an overheat stop nor a debug break holds it (R269, R308, R313). -/
def State.runs (s : State) : Bool := s.up && !s.stopped && !s.atBreak
/-- A restore in its second pass keeps the mailbox from its next command; one of a part that stands still does not. -/
def State.restoring (s : State) : Bool := s.restore.isSome && s.runs
/-- A command of the mailbox is under way. -/
def State.mailboxBusy (s : State) : Bool := s.agenda.any evCommand || s.restoring

/-! ## Power and cooling (R313) -/

/-- R313: a sample of power and temperature: the clock falls or rises by 150 MHz, or the part stops. -/
def execPowerSample (watts die coolant : Nat) (s : State) : Res :=
  .next <|
  let clock := if 95 < die ∨ 2200 < watts then max 1200 (s.clock - 150) else if die ≤ 90 ∧ watts ≤ 2100 then min 2400 (s.clock + 150) else s.clock
  { s with
    clock := clock, stopped := s.stopped || decide (105 ≤ die)
    health := { s.health with watts := watts, die := max s.health.die die, coolant := max s.health.coolant coolant,
                              clocks := s.health.clocks + (if clock = s.clock then 0 else 1) } }

end Sys2Proof.Machine
end

