-- ==== Sys2Proof/Machine/Pair.lean ====
section
/-! DEFINITION. The PAIR and MISC groups (R61–R63) and the immediate forms (R64). -/

namespace Sys2Proof.Machine

/-- R61: dadd. -/
def execDadd (rd ra rb : Pair) (s : State) : Res :=
  let a := s.d ra
  let b := s.d rb
  s.giveD rd (a + b)
/-- R61: dsub. -/
def execDsub (rd ra rb : Pair) (s : State) : Res :=
  let a := s.d ra
  let b := s.d rb
  s.giveD rd (a - b)
/-- R61: dand. -/
def execDand (rd ra rb : Pair) (s : State) : Res :=
  let a := s.d ra
  let b := s.d rb
  s.giveD rd (a &&& b)
/-- R61: dshl. -/
def execDshl (rd ra rb : Pair) (s : State) : Res :=
  let a := s.d ra
  let b := s.d rb
  s.giveD rd (a <<< (b.toNat % 64))
/-- R61: dshr. -/
def execDshr (rd ra rb : Pair) (s : State) : Res :=
  let a := s.d ra
  let b := s.d rb
  s.giveD rd (a >>> (b.toNat % 64))
/-- R61: dsra. -/
def execDsra (rd ra rb : Pair) (s : State) : Res :=
  let a := s.d ra
  let b := s.d rb
  s.giveD rd (a.sshiftRight (b.toNat % 64))
/-- R61: dslt. -/
def execDslt (rd ra rb : Pair) (s : State) : Res :=
  let a := s.d ra
  let b := s.d rb
  s.giveD rd ((bit (a.slt b)).setWidth 64)
/-- R61: dsltn. -/
def execDsltn (rd ra rb : Pair) (s : State) : Res :=
  let a := s.d ra
  let b := s.d rb
  s.giveD rd ((bit (a.ult b)).setWidth 64)
/-- R61: dmul. -/
def execDmul (rd ra rb : Pair) (s : State) : Res :=
  let a := s.d ra
  let b := s.d rb
  s.giveD rd (a * b)
/-- R62: rdcyc gives CYCLE whole. -/
def execRdcyc (rd : Pair) (s : State) : Res := s.giveD rd s.cycle
/-- R62: rdid gives COREID (R21). -/
def execRdid (rd : Reg) (s : State) : Res := s.giveS rd ((coord s.cur).setWidth 32)
/-- R62: mvsm. -/
def execMvsm (md : MReg) (ra : Pair) (s : State) : Res := .next ((s.setM md (s.d ra)).retire 1)
/-- R62: mvms. -/
def execMvms (rd : Pair) (ma : MReg) (s : State) : Res := s.giveD rd (s.m ma)
/-- R62, R63: rand steps SEED and gives its new value. -/
def execRand (rd : Reg) (s : State) : Res :=
  let x := stepSeed s.prog.seed
  (s.setProg { s.prog with seed := x }).giveS rd x
/-- R64: addi. -/
def execAddi (rd ra : Reg) (imm : BitVec 14) (s : State) : Res :=
  let a := s.s ra
  s.giveS rd (a + sx imm)
/-- R64: andi. -/
def execAndi (rd ra : Reg) (imm : BitVec 14) (s : State) : Res :=
  let a := s.s ra
  s.giveS rd (a &&& imm.setWidth 32)
/-- R64: ori. -/
def execOri (rd ra : Reg) (imm : BitVec 14) (s : State) : Res :=
  let a := s.s ra
  s.giveS rd (a ||| imm.setWidth 32)
/-- R64: xori. -/
def execXori (rd ra : Reg) (imm : BitVec 14) (s : State) : Res :=
  let a := s.s ra
  s.giveS rd (a ^^^ imm.setWidth 32)
/-- R64: shli. -/
def execShli (rd ra : Reg) (imm : BitVec 5) (s : State) : Res :=
  let a := s.s ra
  s.giveS rd (a <<< imm.toNat)
/-- R64: shri. -/
def execShri (rd ra : Reg) (imm : BitVec 5) (s : State) : Res :=
  let a := s.s ra
  s.giveS rd (a >>> imm.toNat)
/-- R64: srai. -/
def execSrai (rd ra : Reg) (imm : BitVec 5) (s : State) : Res :=
  let a := s.s ra
  s.giveS rd (a.sshiftRight imm.toNat)
/-- R64: slti. -/
def execSlti (rd ra : Reg) (imm : BitVec 14) (s : State) : Res :=
  let a := s.s ra
  s.giveS rd (bit (a.slt (sx imm)))
/-- R64: sltni. -/
def execSltni (rd ra : Reg) (imm : BitVec 14) (s : State) : Res :=
  let a := s.s ra
  s.giveS rd (bit (a.ult (sx imm)))
/-- R64: muli. -/
def execMuli (rd ra : Reg) (imm : BitVec 14) (s : State) : Res :=
  let a := s.s ra
  s.giveS rd (a * sx imm)
/-- R64: daddi. -/
def execDaddi (rd ra : Pair) (imm : BitVec 14) (s : State) : Res := s.giveD rd (s.d ra + sxd imm)
/-- R64: lui. -/
def execLui (rd : Reg) (imm : BitVec 20) (s : State) : Res := s.giveS rd (imm.setWidth 32 <<< 12)
/-- R64: li. -/
def execLi (rd : Reg) (imm : BitVec 20) (s : State) : Res := s.giveS rd (sx imm)

end Sys2Proof.Machine
end

