-- ==== Sys2Proof/Machine/Dispatch.lean ====
section
/-! DEFINITION. The meaning of every instruction: one arm per constructor of `Instr`. -/

namespace Sys2Proof.Machine

def exec (i : Instr) (s : State) : Host.Outcome State Fault Refusal :=
  match i with
  | .add rd ra rb => Sys2Proof.Machine.execAdd rd ra rb s
  | .sub rd ra rb => Sys2Proof.Machine.execSub rd ra rb s
  | .and rd ra rb => Sys2Proof.Machine.execAnd rd ra rb s
  | .or rd ra rb => Sys2Proof.Machine.execOr rd ra rb s
  | .xor rd ra rb => Sys2Proof.Machine.execXor rd ra rb s
  | .andn rd ra rb => Sys2Proof.Machine.execAndn rd ra rb s
  | .shl rd ra rb => Sys2Proof.Machine.execShl rd ra rb s
  | .shr rd ra rb => Sys2Proof.Machine.execShr rd ra rb s
  | .sra rd ra rb => Sys2Proof.Machine.execSra rd ra rb s
  | .ror rd ra rb => Sys2Proof.Machine.execRor rd ra rb s
  | .min rd ra rb => Sys2Proof.Machine.execMin rd ra rb s
  | .max rd ra rb => Sys2Proof.Machine.execMax rd ra rb s
  | .minn rd ra rb => Sys2Proof.Machine.execMinn rd ra rb s
  | .maxn rd ra rb => Sys2Proof.Machine.execMaxn rd ra rb s
  | .slt rd ra rb => Sys2Proof.Machine.execSlt rd ra rb s
  | .sltn rd ra rb => Sys2Proof.Machine.execSltn rd ra rb s
  | .seq rd ra rb => Sys2Proof.Machine.execSeq rd ra rb s
  | .sne rd ra rb => Sys2Proof.Machine.execSne rd ra rb s
  | .mul rd ra rb => Sys2Proof.Machine.execMul rd ra rb s
  | .mulh rd ra rb => Sys2Proof.Machine.execMulh rd ra rb s
  | .mulhn rd ra rb => Sys2Proof.Machine.execMulhn rd ra rb s
  | .div rd ra rb => Sys2Proof.Machine.execDiv rd ra rb s
  | .divn rd ra rb => Sys2Proof.Machine.execDivn rd ra rb s
  | .rem rd ra rb => Sys2Proof.Machine.execRem rd ra rb s
  | .remn rd ra rb => Sys2Proof.Machine.execRemn rd ra rb s
  | .clz rd ra => Sys2Proof.Machine.execClz rd ra s
  | .ctz rd ra => Sys2Proof.Machine.execCtz rd ra s
  | .popc rd ra => Sys2Proof.Machine.execPopc rd ra s
  | .brev rd ra => Sys2Proof.Machine.execBrev rd ra s
  | .sextb rd ra => Sys2Proof.Machine.execSextb rd ra s
  | .sexth rd ra => Sys2Proof.Machine.execSexth rd ra s
  | .zextb rd ra => Sys2Proof.Machine.execZextb rd ra s
  | .zexth rd ra => Sys2Proof.Machine.execZexth rd ra s
  | .bfx rd ra rb => Sys2Proof.Machine.execBfx rd ra rb s
  | .bfi rd ra rb => Sys2Proof.Machine.execBfi rd ra rb s
  | .dadd rd ra rb => Sys2Proof.Machine.execDadd rd ra rb s
  | .dsub rd ra rb => Sys2Proof.Machine.execDsub rd ra rb s
  | .dand rd ra rb => Sys2Proof.Machine.execDand rd ra rb s
  | .dshl rd ra rb => Sys2Proof.Machine.execDshl rd ra rb s
  | .dshr rd ra rb => Sys2Proof.Machine.execDshr rd ra rb s
  | .dsra rd ra rb => Sys2Proof.Machine.execDsra rd ra rb s
  | .dslt rd ra rb => Sys2Proof.Machine.execDslt rd ra rb s
  | .dsltn rd ra rb => Sys2Proof.Machine.execDsltn rd ra rb s
  | .dmul rd ra rb => Sys2Proof.Machine.execDmul rd ra rb s
  | .rdcyc rd => Sys2Proof.Machine.execRdcyc rd s
  | .rdid rd => Sys2Proof.Machine.execRdid rd s
  | .mvsm md ra => Sys2Proof.Machine.execMvsm md ra s
  | .mvms rd ma => Sys2Proof.Machine.execMvms rd ma s
  | .rand rd => Sys2Proof.Machine.execRand rd s
  | .addi rd ra imm => Sys2Proof.Machine.execAddi rd ra imm s
  | .andi rd ra imm => Sys2Proof.Machine.execAndi rd ra imm s
  | .ori rd ra imm => Sys2Proof.Machine.execOri rd ra imm s
  | .xori rd ra imm => Sys2Proof.Machine.execXori rd ra imm s
  | .shli rd ra n => Sys2Proof.Machine.execShli rd ra n s
  | .shri rd ra n => Sys2Proof.Machine.execShri rd ra n s
  | .srai rd ra n => Sys2Proof.Machine.execSrai rd ra n s
  | .slti rd ra imm => Sys2Proof.Machine.execSlti rd ra imm s
  | .sltni rd ra imm => Sys2Proof.Machine.execSltni rd ra imm s
  | .daddi rd ra imm => Sys2Proof.Machine.execDaddi rd ra imm s
  | .lui rd imm => Sys2Proof.Machine.execLui rd imm s
  | .li rd imm => Sys2Proof.Machine.execLi rd imm s
  | .muli rd ra imm => Sys2Proof.Machine.execMuli rd ra imm s
  | .beq ra rb off => Sys2Proof.Machine.execBeq ra rb off s
  | .bne ra rb off => Sys2Proof.Machine.execBne ra rb off s
  | .blt ra rb off => Sys2Proof.Machine.execBlt ra rb off s
  | .bge ra rb off => Sys2Proof.Machine.execBge ra rb off s
  | .bltn ra rb off => Sys2Proof.Machine.execBltn ra rb off s
  | .bgen ra rb off => Sys2Proof.Machine.execBgen ra rb off s
  | .bz ra off => Sys2Proof.Machine.execBz ra off s
  | .bnz ra off => Sys2Proof.Machine.execBnz ra off s
  | .j off => Sys2Proof.Machine.execJ off s
  | .jal off => Sys2Proof.Machine.execJal off s
  | .jr ra => Sys2Proof.Machine.execJr ra s
  | .jalr rd ra => Sys2Proof.Machine.execJalr rd ra s
  | .loop rd ra rb fn => Sys2Proof.Machine.execLoop rd ra rb fn s
  | .nstclm rd ra => Sys2Proof.Machine.execNstclm rd ra s
  | .nstnxt rd => Sys2Proof.Machine.execNstnxt rd s
  | .ldb rt base off p => Sys2Proof.Machine.execLdb rt base off p s
  | .ldbn rt base off p => Sys2Proof.Machine.execLdbn rt base off p s
  | .ldh rt base off p => Sys2Proof.Machine.execLdh rt base off p s
  | .ldhn rt base off p => Sys2Proof.Machine.execLdhn rt base off p s
  | .ldw rt base off p => Sys2Proof.Machine.execLdw rt base off p s
  | .ldd rt base off p => Sys2Proof.Machine.execLdd rt base off p s
  | .stb rt base off p => Sys2Proof.Machine.execStb rt base off p s
  | .sth rt base off p => Sys2Proof.Machine.execSth rt base off p s
  | .stw rt base off p => Sys2Proof.Machine.execStw rt base off p s
  | .std rt base off p => Sys2Proof.Machine.execStd rt base off p s
  | .vld vd base off m p => Sys2Proof.Machine.execVld vd base off m p s
  | .vst vs base off m p => Sys2Proof.Machine.execVst vs base off m p s
  | .vldbc vd size base off m p => Sys2Proof.Machine.execVldbc vd size base off m p s
  | .vgath vd dbl base off m idx => Sys2Proof.Machine.execVgath vd dbl base off m idx s
  | .vscat vs dbl base off m idx => Sys2Proof.Machine.execVscat vs dbl base off m idx s
  | .amoAdd a => Sys2Proof.Machine.execAmoAdd a s
  | .amoAnd a => Sys2Proof.Machine.execAmoAnd a s
  | .amoOr a => Sys2Proof.Machine.execAmoOr a s
  | .amoXor a => Sys2Proof.Machine.execAmoXor a s
  | .amoMin a => Sys2Proof.Machine.execAmoMin a s
  | .amoMax a => Sys2Proof.Machine.execAmoMax a s
  | .amoMinn a => Sys2Proof.Machine.execAmoMinn a s
  | .amoMaxn a => Sys2Proof.Machine.execAmoMaxn a s
  | .amoSwap a => Sys2Proof.Machine.execAmoSwap a s
  | .amoCas a => Sys2Proof.Machine.execAmoCas a s
  | .amoFadd a => Sys2Proof.Machine.execAmoFadd a s
  | .depos vs base off len1 trig => Sys2Proof.Machine.execDepos vs base off len1 trig s
  | .send vs sd cls len1 net pri => Sys2Proof.Machine.execSend vs sd cls len1 net pri s
  | .reply vs cls len1 pri => Sys2Proof.Machine.execReply vs cls len1 pri s
  | .done => Sys2Proof.Machine.execDone s
  | .launch node => Sys2Proof.Machine.execLaunch node s
  | .clsmask cls => Sys2Proof.Machine.execClsmask cls s
  | .clsunm cls => Sys2Proof.Machine.execClsunm cls s
  | .kend => Sys2Proof.Machine.execKend s
  | .vdone => Sys2Proof.Machine.execVdone s
  | .terdem ra => Sys2Proof.Machine.execTerdem ra s
  | .termap rd => Sys2Proof.Machine.execTermap rd s
  | .stepmk => Sys2Proof.Machine.execStepmk s
  | .hpost vs => Sys2Proof.Machine.execHpost vs s
  | .binit bar ra rb => Sys2Proof.Machine.execBinit bar ra rb s
  | .barr bar => Sys2Proof.Machine.execBarr bar s
  | .barrx bar ra => Sys2Proof.Machine.execBarrx bar ra s
  | .baddb bar ra => Sys2Proof.Machine.execBaddb bar ra s
  | .bwait bar ra => Sys2Proof.Machine.execBwait bar ra s
  | .bstat bar rd => Sys2Proof.Machine.execBstat bar rd s
  | .qrd rd q => Sys2Proof.Machine.execQrd rd q s
  | .qwr q ra => Sys2Proof.Machine.execQwr q ra s
  | .qrdv vd q => Sys2Proof.Machine.execQrdv vd q s
  | .qwrv q va => Sys2Proof.Machine.execQwrv q va s
  | .qstat rd q => Sys2Proof.Machine.execQstat rd q s
  | .chbind q ra consumer => Sys2Proof.Machine.execChbind q ra consumer s
  | .chunb q => Sys2Proof.Machine.execChunb q s
  | .cheos q => Sys2Proof.Machine.execCheos q s
  | .chgrow q ra => Sys2Proof.Machine.execChgrow q ra s
  | .chstat rd q => Sys2Proof.Machine.execChstat rd q s
  | .slclm n => Sys2Proof.Machine.execSlclm n s
  | .slrel n => Sys2Proof.Machine.execSlrel n s
  | .slstat rd => Sys2Proof.Machine.execSlstat rd s
  | .xidrd rd k => Sys2Proof.Machine.execXidrd rd k s
  | .xidwt ra k => Sys2Proof.Machine.execXidwt ra k s
  | .csrr rd n => Sys2Proof.Machine.execCsrr rd n s
  | .csrw rd ra n => Sys2Proof.Machine.execCsrw rd ra n s
  | .csrs rd ra n => Sys2Proof.Machine.execCsrs rd ra n s
  | .csrc rd ra n => Sys2Proof.Machine.execCsrc rd ra n s
  | .chunk => Sys2Proof.Machine.execChunk s
  | .fenceD => Sys2Proof.Machine.execFenceD s
  | .fenceS => Sys2Proof.Machine.execFenceS s
  | .lbsync => Sys2Proof.Machine.execLbsync s
  | .psync ra rb => Sys2Proof.Machine.execPsync ra rb s
  | .trap n => Sys2Proof.Machine.execTrap n s
  | .tret skip => Sys2Proof.Machine.execTret skip s
  | .brk n => Sys2Proof.Machine.execBrk n s
  | .prioff => Sys2Proof.Machine.execPrioff s
  | .prion => Sys2Proof.Machine.execPrion s
  | .ctxsav ra => Sys2Proof.Machine.execCtxsav ra s
  | .ctxrst ra => Sys2Proof.Machine.execCtxrst ra s
  | .fwcall rd ra svc => Sys2Proof.Machine.execFwcall rd ra svc s
  | .vadd vd va vb m t => Sys2Proof.Machine.execVadd vd va vb m t s
  | .vsub vd va vb m t => Sys2Proof.Machine.execVsub vd va vb m t s
  | .vmin vd va vb m t => Sys2Proof.Machine.execVmin vd va vb m t s
  | .vmax vd va vb m t => Sys2Proof.Machine.execVmax vd va vb m t s
  | .vmul vd va vb m t => Sys2Proof.Machine.execVmul vd va vb m t s
  | .vmulh vd va vb m t => Sys2Proof.Machine.execVmulh vd va vb m t s
  | .vabs vd va m t => Sys2Proof.Machine.execVabs vd va m t s
  | .vneg vd va m t => Sys2Proof.Machine.execVneg vd va m t s
  | .vfma vd va vb m t => Sys2Proof.Machine.execVfma vd va vb m t s
  | .vfms vd va vb m t => Sys2Proof.Machine.execVfms vd va vb m t s
  | .vfnma vd va vb m t => Sys2Proof.Machine.execVfnma vd va vb m t s
  | .vfnms vd va vb m t => Sys2Proof.Machine.execVfnms vd va vb m t s
  | .vand vd va vb m t => Sys2Proof.Machine.execVand vd va vb m t s
  | .vor vd va vb m t => Sys2Proof.Machine.execVor vd va vb m t s
  | .vxor vd va vb m t => Sys2Proof.Machine.execVxor vd va vb m t s
  | .vandn vd va vb m t => Sys2Proof.Machine.execVandn vd va vb m t s
  | .vshl vd va vb m t => Sys2Proof.Machine.execVshl vd va vb m t s
  | .vshr vd va vb m t => Sys2Proof.Machine.execVshr vd va vb m t s
  | .vsra vd va vb m t => Sys2Proof.Machine.execVsra vd va vb m t s
  | .vror vd va vb m t => Sys2Proof.Machine.execVror vd va vb m t s
  | .vceq md va vb m t => Sys2Proof.Machine.execVceq md va vb m t s
  | .vcne md va vb m t => Sys2Proof.Machine.execVcne md va vb m t s
  | .vclt md va vb m t => Sys2Proof.Machine.execVclt md va vb m t s
  | .vcle md va vb m t => Sys2Proof.Machine.execVcle md va vb m t s
  | .vdiv vd va vb m t => Sys2Proof.Machine.execVdiv vd va vb m t s
  | .vsqrt vd va m t => Sys2Proof.Machine.execVsqrt vd va m t s
  | .vrcp vd va m t => Sys2Proof.Machine.execVrcp vd va m t s
  | .vrsq vd va m t => Sys2Proof.Machine.execVrsq vd va m t s
  | .vcvt vd va dst m t => Sys2Proof.Machine.execVcvt vd va dst m t s
  | .vqnt vd va fmt m => Sys2Proof.Machine.execVqnt vd va fmt m s
  | .vdqnt vd va fmt m => Sys2Proof.Machine.execVdqnt vd va fmt m s
  | .vamax vd va m t => Sys2Proof.Machine.execVamax vd va m t s
  | .vrsum vd va m t => Sys2Proof.Machine.execVrsum vd va m t s
  | .vrmax vd va m t => Sys2Proof.Machine.execVrmax vd va m t s
  | .vrmin vd va m t => Sys2Proof.Machine.execVrmin vd va m t s
  | .vramax vd va m t => Sys2Proof.Machine.execVramax vd va m t s
  | .vsplat vd ra m t => Sys2Proof.Machine.execVsplat vd ra m t s
  | .vext rd va rb t => Sys2Proof.Machine.execVext rd va rb t s
  | .vins vd ra rb m t => Sys2Proof.Machine.execVins vd ra rb m t s
  | .vsel vd va vb m t => Sys2Proof.Machine.execVsel vd va vb m t s
  | .vperm vd va vb m t => Sys2Proof.Machine.execVperm vd va vb m t s
  | .vslu vd va rb m t => Sys2Proof.Machine.execVslu vd va rb m t s
  | .vsld vd va rb m t => Sys2Proof.Machine.execVsld vd va rb m t s
  | .vbcl vd va rb m t => Sys2Proof.Machine.execVbcl vd va rb m t s
  | .mand md ma mb => Sys2Proof.Machine.execMand md ma mb s
  | .mor md ma mb => Sys2Proof.Machine.execMor md ma mb s
  | .mxor md ma mb => Sys2Proof.Machine.execMxor md ma mb s
  | .mpop rd ma => Sys2Proof.Machine.execMpop rd ma s
  | .mld slot fmt tr src stride => Sys2Proof.Machine.execMld slot fmt tr src stride s
  | .mma acc sa sb bandA bandB => Sys2Proof.Machine.execMma acc sa sb bandA bandB s
  | .mzero acc => Sys2Proof.Machine.execMzero acc s
  | .mst acc dst stride => Sys2Proof.Machine.execMst acc dst stride s
  | .mqnt acc fmt rnd codes cstride sstride scales => Sys2Proof.Machine.execMqnt acc fmt rnd codes cstride sstride scales s
  | .mamax acc cnt1 => Sys2Proof.Machine.execMamax acc cnt1 s
  | .queuedCsrWrite c => Sys2Proof.Machine.execQueuedCsrWrite c s
  | .cpin k len va sp t => Sys2Proof.Machine.execCpin k len va sp t s
  | .cpout k len va sp t => Sys2Proof.Machine.execCpout k len va sp t s
  | .cp2d k len va sp t outward rows pitch => Sys2Proof.Machine.execCp2d k len va sp t outward rows pitch s
  | .cploc k len ga sp t => Sys2Proof.Machine.execCploc k len ga sp t s
  | .cpfill k len dst pattern t => Sys2Proof.Machine.execCpfill k len dst pattern t s
  | .xred k count ty op src dst t parts => Sys2Proof.Machine.execXred k count ty op src dst t parts s
  | .xbcast k count ty src dst t parts => Sys2Proof.Machine.execXbcast k count ty src dst t parts s
  | .matrixCommandStart c => Sys2Proof.Machine.execMatrixCommandStart c s
  | .matrixCommandComplete c => Sys2Proof.Machine.execMatrixCommandComplete c s
  | .commitGrant t => Sys2Proof.Machine.execCommitGrant t s
  | .commitComplete c => Sys2Proof.Machine.execCommitComplete c s
  | .firingChoose c => Sys2Proof.Machine.execFiringChoose c s
  | .preemption c => Sys2Proof.Machine.execPreemption c s
  | .parkWake c k => Sys2Proof.Machine.execParkWake c k s
  | .waitResume c => Sys2Proof.Machine.execWaitResume c s
  | .watchdogExpiry c => Sys2Proof.Machine.execWatchdogExpiry c s
  | .trapEntry c => Sys2Proof.Machine.execTrapEntry c s
  | .codeFetchComplete c line => Sys2Proof.Machine.execCodeFetchComplete c line s
  | .configCacheFill c => Sys2Proof.Machine.execConfigCacheFill c s
  | .packetArrival p => Sys2Proof.Machine.execPacketArrival p s
  | .routerDrop p => Sys2Proof.Machine.execRouterDrop p s
  | .ackReceived c reply seq => Sys2Proof.Machine.execAckReceived c reply seq s
  | .nackReceived p reason hint => Sys2Proof.Machine.execNackReceived p reason hint s
  | .retryTimerExpiry p => Sys2Proof.Machine.execRetryTimerExpiry p s
  | .directoryLookup p id => Sys2Proof.Machine.execDirectoryLookup p id s
  | .directoryAnswer p at_ => Sys2Proof.Machine.execDirectoryAnswer p at_ s
  | .depositWrite p => Sys2Proof.Machine.execDepositWrite p s
  | .atomicStep p => Sys2Proof.Machine.execAtomicStep p s
  | .atomicReturn c old fails => Sys2Proof.Machine.execAtomicReturn c old fails s
  | .nestClaimStep p => Sys2Proof.Machine.execNestClaimStep p s
  | .nestClaimReturn c start cnt ext fails => Sys2Proof.Machine.execNestClaimReturn c start cnt ext fails s
  | .barrierUpdate c us => Sys2Proof.Machine.execBarrierUpdate c us s
  | .copyPieceWrite c k id piece => Sys2Proof.Machine.execCopyPieceWrite c k id piece s
  | .copyComplete c k id => Sys2Proof.Machine.execCopyComplete c k id s
  | .q1Record c => Sys2Proof.Machine.execQ1Record c s
  | .xredContribution p => Sys2Proof.Machine.execXredContribution p s
  | .xbcastWrite c k id piece => Sys2Proof.Machine.execXbcastWrite c k id piece s
  | .channelElementEnter ch idx eos bytes => Sys2Proof.Machine.execChannelElementEnter ch idx eos bytes s
  | .channelAckReceived ch xoff => Sys2Proof.Machine.execChannelAckReceived ch xoff s
  | .xonReceived ch => Sys2Proof.Machine.execXonReceived ch s
  | .spillWrite ch slot episode eos bytes => Sys2Proof.Machine.execSpillWrite ch slot episode eos bytes s
  | .refillReturn ch => Sys2Proof.Machine.execRefillReturn ch s
  | .emptyNoticeSend ch => Sys2Proof.Machine.execEmptyNoticeSend ch s
  | .emptyNoticeReceived ch tail => Sys2Proof.Machine.execEmptyNoticeReceived ch tail s
  | .thawReport c k => Sys2Proof.Machine.execThawReport c k s
  | .thawProbe p => Sys2Proof.Machine.execThawProbe p s
  | .spillPoolDraw ch elems bytes asker p => Sys2Proof.Machine.execSpillPoolDraw ch elems bytes asker p s
  | .spillPoolAnswer ch elems bytes granted asker p => Sys2Proof.Machine.execSpillPoolAnswer ch elems bytes granted asker p s
  | .parityUpdate c g => Sys2Proof.Machine.execParityUpdate c g s
  | .parityForcedUpdate c g => Sys2Proof.Machine.execParityForcedUpdate c g s
  | .scrub c bank => Sys2Proof.Machine.execScrub c bank s
  | .correctedWriteback c bank row => Sys2Proof.Machine.execCorrectedWriteback c bank row s
  | .bankRetirement c bank => Sys2Proof.Machine.execBankRetirement c bank s
  | .driftPhase => Sys2Proof.Machine.execDriftPhase s
  | .transferQuiesced t => Sys2Proof.Machine.execTransferQuiesced t s
  | .vacateBudgetExpiry t => Sys2Proof.Machine.execVacateBudgetExpiry t s
  | .contextRemoval c slot => Sys2Proof.Machine.execContextRemoval c slot s
  | .tileClearComplete t => Sys2Proof.Machine.execTileClearComplete t s
  | .transferNotice t moved gain => Sys2Proof.Machine.execTransferNotice t moved gain s
  | .transferComplete t => Sys2Proof.Machine.execTransferComplete t s
  | .timeshareQuantumEnd ter => Sys2Proof.Machine.execTimeshareQuantumEnd ter s
  | .hostQueueTail q => Sys2Proof.Machine.execHostQueueTail q s
  | .queueEntryLaunch q => Sys2Proof.Machine.execQueueEntryLaunch q s
  | .queueEntryWait q => Sys2Proof.Machine.execQueueEntryWait q s
  | .queueEntrySignal q => Sys2Proof.Machine.execQueueEntrySignal q s
  | .dispatcherStep die => Sys2Proof.Machine.execDispatcherStep die s
  | .nodeLaunch w => Sys2Proof.Machine.execNodeLaunch w s
  | .nodeWait w => Sys2Proof.Machine.execNodeWait w s
  | .nodeSignal w => Sys2Proof.Machine.execNodeSignal w s
  | .nodeCond w => Sys2Proof.Machine.execNodeCond w s
  | .nodeLoop w => Sys2Proof.Machine.execNodeLoop w s
  | .nodeCopy w => Sys2Proof.Machine.execNodeCopy w s
  | .nodeEnd w => Sys2Proof.Machine.execNodeEnd w s
  | .walkBegin p => Sys2Proof.Machine.execWalkBegin p s
  | .kendArrival p => Sys2Proof.Machine.execKendArrival p s
  | .hpostArrival p => Sys2Proof.Machine.execHpostArrival p s
  | .adminMap via v b => Sys2Proof.Machine.execAdminMap via v b s
  | .adminUnmap via v b => Sys2Proof.Machine.execAdminUnmap via v b s
  | .adminCancel via id => Sys2Proof.Machine.execAdminCancel via id s
  | .adminClaim via ter mask => Sys2Proof.Machine.execAdminClaim via ter mask s
  | .adminFree via ter mask => Sys2Proof.Machine.execAdminFree via ter mask s
  | .adminTimeshare via ter idx entry => Sys2Proof.Machine.execAdminTimeshare via ter idx entry s
  | .adminVdev via v weight fenceLo fenceHi winLo winHi handle => Sys2Proof.Machine.execAdminVdev via v weight fenceLo fenceHi winLo winHi handle s
  | .adminPair via ter pkg remote => Sys2Proof.Machine.execAdminPair via ter pkg remote s
  | .adminQueue via q v size evSize enable ring evRing => Sys2Proof.Machine.execAdminQueue via q v size evSize enable ring evRing s
  | .adminOwnAssign via v pa len => Sys2Proof.Machine.execAdminOwnAssign via v pa len s
  | .adminOwnRelease via v pa len => Sys2Proof.Machine.execAdminOwnRelease via v pa len s
  | .adminTenantCreate via handle keyVa => Sys2Proof.Machine.execAdminTenantCreate via handle keyVa s
  | .adminTenantDelete via handle => Sys2Proof.Machine.execAdminTenantDelete via handle s
  | .fwMap c => Sys2Proof.Machine.execFwMap c s
  | .fwUnmap c => Sys2Proof.Machine.execFwUnmap c s
  | .fwQuery c => Sys2Proof.Machine.execFwQuery c s
  | .fwAttest c => Sys2Proof.Machine.execFwAttest c s
  | .stepMark p => Sys2Proof.Machine.execStepMark p s
  | .checkpointTimer job => Sys2Proof.Machine.execCheckpointTimer job s
  | .armingComplete job => Sys2Proof.Machine.execArmingComplete job s
  | .checkpointPageCopy job => Sys2Proof.Machine.execCheckpointPageCopy job s
  | .protectedWrite key bytes why => Sys2Proof.Machine.execProtectedWrite key bytes why s
  | .urgentReadComplete page => Sys2Proof.Machine.execUrgentReadComplete page s
  | .checkpointComplete job => Sys2Proof.Machine.execCheckpointComplete job s
  | .ckptJob descr v => Sys2Proof.Machine.execCkptJob descr v s
  | .ckptDrop job => Sys2Proof.Machine.execCkptDrop job s
  | .ckptKey serial key => Sys2Proof.Machine.execCkptKey serial key s
  | .ckptRestore manifest v fence queue => Sys2Proof.Machine.execCkptRestore manifest v fence queue s
  | .startWarm f => Sys2Proof.Machine.execStartWarm f s
  | .startCold f => Sys2Proof.Machine.execStartCold f s
  | .health => Sys2Proof.Machine.execHealth s
  | .fwLoad addr len => Sys2Proof.Machine.execFwLoad addr len s
  | .read kind addr len => Sys2Proof.Machine.execRead kind addr len s
  | .write kind addr bytes => Sys2Proof.Machine.execWrite kind addr bytes s
  | .halt id => Sys2Proof.Machine.execHalt id s
  | .resume id => Sys2Proof.Machine.execResume id s
  | .identity => Sys2Proof.Machine.execIdentity s
  | .layout => Sys2Proof.Machine.execLayout s
  | .debugSet id => Sys2Proof.Machine.execDebugSet id s
  | .debugClear id => Sys2Proof.Machine.execDebugClear id s
  | .powerSample watts die coolant => Sys2Proof.Machine.execPowerSample watts die coolant s
  | .hostMemAccess key w n => Sys2Proof.Machine.execHostMemAccess key w n s
  | .translatedLoadReturn c => Sys2Proof.Machine.execTranslatedLoadReturn c s
  | .globalStorePerformed c key bytes why => Sys2Proof.Machine.execGlobalStorePerformed c key bytes why s

end Sys2Proof.Machine
end

