-- ==== Sys2Proof/Machine/Agents.lean ====
section
/-! DEFINITION. A step of an agent, in flight or enabled by the state, performed: the meaning of its row of the opcode table. -/

namespace Sys2Proof.Machine

/-- Perform a step of an agent. -/
def runEv (e : Ev) (s : State) : Res :=
  match e with
  | .queuedCsrWrite c => execQueuedCsrWrite c s
  | .answer c serial a => atCore c s fun s => s.answered c serial a
  | .matrixCommandStart c => execMatrixCommandStart c s
  | .matrixCommandComplete c => execMatrixCommandComplete c s
  | .commitGrant t => execCommitGrant t s
  | .commitComplete c => execCommitComplete c s
  | .firingChoose c => execFiringChoose c s
  | .preemption c => execPreemption c s
  | .parkWake c k => execParkWake c k s
  | .waitResume c => execWaitResume c s
  | .watchdogExpiry c => execWatchdogExpiry c s
  | .trapEntry c => execTrapEntry c s
  | .codeFetchComplete c line => execCodeFetchComplete c line s
  | .configCacheFill c => execConfigCacheFill c s
  | .packetArrival p => execPacketArrival p s
  | .routerDrop p => execRouterDrop p s
  | .ackReceived c reply seq => execAckReceived c reply seq s
  | .nackReceived p reason hint => execNackReceived p reason hint s
  | .retryTimerExpiry p => execRetryTimerExpiry p s
  | .directoryLookup p id => execDirectoryLookup p id s
  | .directoryAnswer p at_ => execDirectoryAnswer p at_ s
  | .depositWrite p => execDepositWrite p s
  | .atomicStep p => execAtomicStep p s
  | .atomicReturn c old fails => execAtomicReturn c old fails s
  | .nestClaimStep p => execNestClaimStep p s
  | .nestClaimReturn c start cnt ext fails => execNestClaimReturn c start cnt ext fails s
  | .barrierUpdate c us => execBarrierUpdate c us s
  | .copyPieceWrite c k id piece => execCopyPieceWrite c k id piece s
  | .copyComplete c k id => execCopyComplete c k id s
  | .q1Record c => execQ1Record c s
  | .xredContribution p => execXredContribution p s
  | .xbcastWrite c k id piece => execXbcastWrite c k id piece s
  | .channelElementEnter ch idx eos bytes => execChannelElementEnter ch idx eos bytes s
  | .channelAckReceived ch xoff => execChannelAckReceived ch xoff s
  | .xonReceived ch => execXonReceived ch s
  | .spillWrite ch slot episode eos bytes => execSpillWrite ch slot episode eos bytes s
  | .refillReturn ch => execRefillReturn ch s
  | .emptyNoticeSend ch => execEmptyNoticeSend ch s
  | .emptyNoticeReceived ch tail => execEmptyNoticeReceived ch tail s
  | .thawReport c k => execThawReport c k s
  | .thawProbe p => execThawProbe p s
  | .spillPoolDraw ch elems bytes asker p => execSpillPoolDraw ch elems bytes asker p s
  | .spillPoolAnswer ch elems bytes granted asker p => execSpillPoolAnswer ch elems bytes granted asker p s
  | .parityUpdate c g => execParityUpdate c g s
  | .parityForcedUpdate c g => execParityForcedUpdate c g s
  | .scrub c bank => execScrub c bank s
  | .correctedWriteback c bank row => execCorrectedWriteback c bank row s
  | .bankRetirement c bank => execBankRetirement c bank s
  | .driftPhase => execDriftPhase s
  | .transferQuiesced t => execTransferQuiesced t s
  | .vacateBudgetExpiry t => execVacateBudgetExpiry t s
  | .contextRemoval c slot => execContextRemoval c slot s
  | .tileClearComplete t => execTileClearComplete t s
  | .transferNotice t moved gain => execTransferNotice t moved gain s
  | .transferComplete t => execTransferComplete t s
  | .timeshareQuantumEnd ter => execTimeshareQuantumEnd ter s
  | .hostQueueTail q => execHostQueueTail q s
  | .queueEntryLaunch q => execQueueEntryLaunch q s
  | .queueEntryWait q => execQueueEntryWait q s
  | .queueEntrySignal q => execQueueEntrySignal q s
  | .dispatcherStep die => execDispatcherStep die s
  | .nodeLaunch w => execNodeLaunch w s
  | .nodeWait w => execNodeWait w s
  | .nodeSignal w => execNodeSignal w s
  | .nodeCond w => execNodeCond w s
  | .nodeLoop w => execNodeLoop w s
  | .nodeCopy w => execNodeCopy w s
  | .nodeEnd w => execNodeEnd w s
  | .walkBegin p => execWalkBegin p s
  | .kendArrival p => execKendArrival p s
  | .hpostArrival p => execHpostArrival p s
  | .adminMap via v b => execAdminMap via v b s
  | .adminUnmap via v b => execAdminUnmap via v b s
  | .adminCancel via id => execAdminCancel via id s
  | .adminClaim via ter mask => execAdminClaim via ter mask s
  | .adminFree via ter mask => execAdminFree via ter mask s
  | .adminTimeshare via ter idx entry => execAdminTimeshare via ter idx entry s
  | .adminVdev via v weight fenceLo fenceHi winLo winHi handle => execAdminVdev via v weight fenceLo fenceHi winLo winHi handle s
  | .adminPair via ter pkg remote => execAdminPair via ter pkg remote s
  | .adminQueue via q v size evSize enable ring evRing => execAdminQueue via q v size evSize enable ring evRing s
  | .adminOwnAssign via v pa len => execAdminOwnAssign via v pa len s
  | .adminOwnRelease via v pa len => execAdminOwnRelease via v pa len s
  | .adminTenantCreate via handle keyVa => execAdminTenantCreate via handle keyVa s
  | .adminTenantDelete via handle => execAdminTenantDelete via handle s
  | .fwMap c => execFwMap c s
  | .fwUnmap c => execFwUnmap c s
  | .fwQuery c => execFwQuery c s
  | .fwAttest c => execFwAttest c s
  | .stepMark p => execStepMark p s
  | .checkpointTimer job => execCheckpointTimer job s
  | .armingComplete job => execArmingComplete job s
  | .checkpointPageCopy job => execCheckpointPageCopy job s
  | .protectedWrite key bytes why => execProtectedWrite key bytes why s
  | .urgentReadComplete page => execUrgentReadComplete page s
  | .checkpointComplete job => execCheckpointComplete job s
  | .ckptJob descr v => execCkptJob descr v s
  | .ckptDrop job => execCkptDrop job s
  | .ckptKey serial key => execCkptKey serial key s
  | .ckptRestore manifest v fence queue => execCkptRestore manifest v fence queue s
  | .startWarm f => execStartWarm f s
  | .startCold f => execStartCold f s
  | .health => execHealth s
  | .fwLoad addr len => execFwLoad addr len s
  | .read kind addr len => execRead kind addr len s
  | .write kind addr bytes => execWrite kind addr bytes s
  | .halt id => execHalt id s
  | .resume id => execResume id s
  | .identity => execIdentity s
  | .layout => execLayout s
  | .debugSet id => execDebugSet id s
  | .debugClear id => execDebugClear id s
  | .powerSample watts die coolant => execPowerSample watts die coolant s
  | .hostMemAccess key w n => execHostMemAccess key w n s
  | .translatedLoadReturn c => execTranslatedLoadReturn c s
  | .globalStorePerformed c key bytes why => execGlobalStorePerformed c key bytes why s

end Sys2Proof.Machine
end

