-- ==== Sys2Proof/Machine/Retry.lean ====
section
/-! DEFINITION. Refusals on the mesh of what is no `Packet` of the model: channel data, copy data, draws and lookups with their answers, stores, load data,
code, answers of the device's controllers, management and notices (R216, R219, R316, R317). -/

namespace Sys2Proof.Machine

/-- The next piece of a COPY node goes from one streamer to another (R285, R286). -/
def State.nodeAway (s : State) (w : Nat) : Bool := (s.walk w).any fun x => match s.node x with
  | .ok b => let i := x.copied.getD 0
    decide (i < le b 32 4) && s.streamerOf x.v (le b 16 8 + i) != s.streamerOf x.v (le b 24 8 + i)
  | .error _ => false
/-- A step in flight comes over the mesh, where a router may drop it or its agent have no room for it (R219). (DESIGN CHOICE, log 9.) -/
def State.carried (s : State) : Ev → Bool
  | .channelElementEnter _ _ _ _ | .spillWrite _ _ _ _ _ | .refillReturn _ | .spillPoolDraw _ _ _ _ _ | .spillPoolAnswer _ _ _ _ _ _
  | .directoryLookup _ _ | .directoryAnswer _ _ | .atomicReturn _ _ _ | .nestClaimReturn _ _ _ _ _ | .translatedLoadReturn _
  | .transferNotice _ _ _ | .answer _ _ _ => true
  | .globalStorePerformed c key _ (.store _ _ _) => c != streamerAt key
  | .read kind addr _ | .write kind addr _ => s.unitAway kind addr.toNat
  | .nodeCopy w => s.nodeAway w
  | _ => false
/-- A unit of a command that does not come to its resource: its status is free, what it reads is 0 (DESIGN CHOICE, log 40). -/
def State.unitLost (s : State) (e : Ev) (n : Nat) (reads : Bool) : State :=
  let (i, status, bytes) := s.progress.getD (0, 0, [])
  s.unitDone e n status (Config.word s.tick).toNat (if reads then bytes ++ leBytes 8 0 else bytes) i
/-- What becomes of a message whose 64th retry is refused too (R219): UNDELIV to the one that sent it, where R152, R172 or R190 says how; an answer is lost
to the one that waits for it. A
COPY node ends its walk, a unit of READ or WRITE has a free status, and a code line is fetched anew. (DEDUCED, log 55.) -/
def State.undelivered (s : State) (e : Ev) : State :=
  match e with
  | .channelElementEnter ch _ _ _ => s.elementLost ch 0x13
  | .spillWrite ch _ _ _ _ => (s.suspect ch 0x13).touch ch
  | .refillReturn ch => s.refillLost ch 0x13
  | .spillPoolDraw ch elems bytes asker p =>
    s.drawFails ch elems bytes asker p 0x13 (match s.homeOf (s.tileAt (chanTile ch)).ter with
      | some h => territoryCore h
      | none => 0)
  | .directoryLookup p _ | .directoryAnswer p _ => s.fails p 0x13
  | .globalStorePerformed c _ _ (.store ea ctx pc) => s.defer c ctx ⟨5, 0x13, lo32 ea, pc⟩
  | .nodeCopy w => match s.walk w with
    | some x => s.failWalk x 0x13
    | none => s
  | .read _ _ len => s.unitLost e (len / 8) true
  | .write _ _ bs => s.unitLost e (bs.length / 8) false
  | .copyPieceWrite c _ key _ | .xbcastWrite c _ key _ => s.copyFault c key 0x13
  | _ => s
/-- How often a message on its way has been refused. -/
def State.refusals (s : State) (e : Ev) : Nat := (s.tries.find? (·.1 = e)).elim 0 (·.2)
/-- A message has come to its end: its refusals are forgotten. -/
def State.done (s : State) (e : Ev) : State := if s.tries.isEmpty then s else { s with tries := s.tries.filter (·.1 ≠ e) }
/-- A message is refused, which HEALTH counts (R310); its source sends it again, up to 64 times (R219). `last` takes it out of what is on its way. -/
def State.refuse (s : State) (e : Ev) (last : State → State) : State :=
  let s := s.count 2
  let n := s.refusals e
  if 64 ≤ n then (last (s.done e)).undelivered e else { s.done e with tries := (s.done e).tries ++ [(e, n + 1)] }
/-- What an enabled step brings comes over the mesh, to another router than its own: a piece of a sent transfer, a message of a broadcast, a piece of a COPY
node, a line of code (R169, R187, R210, R285). -/
def State.pieceCarried (s : State) : Ev → Bool
  | .copyPieceWrite c _ key p => match (s.coreAt c).copies.find? (·.key = key) with
    | some t => t.sent && (match planOf t.cmd with
      | some pl =>
        let q := pl.piece p
        s.sourceAgent c t q.1 q.2.1 != s.agentAt c t.vdev q.2.1 true
      | none => false)
    | none => false
  | .xbcastWrite c _ key p => match (s.coreAt c).copies.find? (·.key = key) with
    | some t => match t.cmd with
      | .xbcast _ _ _ _ dst _ _ => t.sent && c != (t.bcast c dst p).1
      | _ => false
    | none => false
  | .nodeCopy w => (s.walk w).any (·.copied.isSome) && s.nodeAway w
  | .codeFetchComplete c line => let k := s.coreAt c
    k.status == .fetch && k.missing == some line && (look (s.tileAt (tileOf c)).store k.ctx.id).isNone && streamerAt k.ctx.codeKey != c
  | _ => false
/-- Refusals are kept for what is still on its way. -/
def State.tidyTries (s : State) : State :=
  if s.tries.isEmpty then s else { s with tries := s.tries.filter fun t => s.agenda.contains t.1 || s.pieceCarried t.1 }

end Sys2Proof.Machine
end

