-- ==== Sys2Proof/Machine/Sched.lean ====
section
/-! DEFINITION. One turn of the part: the fetch and execution of an instruction (R55, R184, R187, R266), the steps of agents that the state
enables, the steps in flight, the passing of time, and the choice of what moves next (DESIGN CHOICE, log 3). -/

namespace Sys2Proof.Machine

/-! ## An instruction (R54, R55, R184, R187) -/

/-- The bytes of the running context's image from the pc on, at most the longest instruction. -/
def State.fetched (s : State) : List Byte := (s.ctx.code.drop s.pc.toNat).take 32
/-- The lines of the instruction at the pc are in the core's configuration cache, those that its image has (R187). (DESIGN CHOICE, log 11.) -/
def State.lineHere (s : State) : Bool := s.core.missing.isNone
/-- The chunk that the instruction at pc belongs to: a new one keeps what a squash restores (R230); the firing has begun (R186). -/
def State.opened (s : State) : State :=
  let f := s.fir
  s.setFir { f with
    begun := true
    chunk := if f.chunk.count = 0 then { f.chunk with snap := some ⟨f.regs, f.inTrap, f.saved, f.window, f.wcount, s.prog⟩ } else f.chunk }
/-- The window is open and 256 instructions have executed in it (R184). -/
def State.windowSpent (s : State) : Bool := s.fir.window && !s.fir.inTrap && decide (256 ≤ s.fir.wcount)
/-- The instruction at pc: ILLOP found at decode first (R55), whose first word is a free value when the image ends before it (DESIGN CHOICE, log 10); then
PRIWIN (R184); then its meaning. -/
def State.execAt (s : State) : Res :=
  match decode s.fetched with
  | .illegal n => .next (s.trap 0x01 ((s.codeWord s.pc.toNat).getD (Config.word s.tick)) (BitVec.ofNat 32 n))
  | .ok i _ => if s.windowSpent then .next (s.trap 0x10 0 0) else exec i s
/-- The current core's turn: a chunk that waits to run solo begins (R232), a missing line is asked for, or the instruction at pc runs. -/
def State.coreTurn (s : State) : Res :=
  match s.core.status with
  | .solo =>
    if (s.tileAt s.tile).soloHead = some (localOf s.cur) then .next ((s.setChunk { s.chunk with solo := true }).setStatus .running) else .next s
  | .running =>
    if s.lineHere then s.opened.execAt else .next (s.setStatus .fetch)
  | _ => .next s

/-! ## What agents write in scratchpads (R227) -/

/-- What an agent's step does in a scratchpad: the core the agent belongs to, the core written, the offset, the bytes read and the bytes written there. -/
structure Span where
  agent : Nat
  core : Nat
  off : Nat
  reads : Nat
  writes : Nat
deriving DecidableEq, Repr

/-- The core that a scratchpad address of a packet's source names, else that source. -/
def ownerAt (p : Packet) (ea : DWord) : Nat := ((scrPlace (ofCoord p.src) ea.toNat).getD (ofCoord p.src, 0)).1
/-- The span of an agent at the scratchpad that an address names, seen from a core. -/
def spanAt (me ea r w : Nat) : Option Span := (scrPlace me ea).map fun p => ⟨p.1, p.1, p.2, r, w⟩
/-- The place in a channel's ring that its next element enters. -/
def Chan.nextSpan (k : Chan) : Span :=
  let c := ofCoord k.consumer
  ⟨c, c, k.ring + k.entered % k.capacity * 2 ^ k.esize, 0, 2 ^ k.esize⟩
/-- The transfer of core `c` that a key names. -/
def Core.transfer (k : Core) (key : Nat) : Option Transfer := k.copies.find? (·.key = key)
/-- What a step of an agent does in a scratchpad; none when it does nothing there. -/
def State.evSpan (s : State) (e : Ev) : Option Span :=
  match e with
  | .depositWrite p => match p.body with
    | .deposit ea bs _ _ _ => spanAt (ofCoord p.src) ea.toNat 0 bs.length
    | _ => none
  | .atomicStep p => match p.body with
    | .atomic _ dbl ea _ _ _ _ => spanAt (ofCoord p.src) ea.toNat (if dbl then 8 else 4) (if dbl then 8 else 4)
    | _ => none
  | .nestClaimStep p => match p.body with
    | .claim ea => spanAt (ofCoord p.src) ea.toNat 24 4
    | _ => none
  | .xredContribution p => match p.body with
    | .contribute _ _ dst _ _ _ _ _ total _ => if (s.wholeOf (ownerAt p dst) p).isNone then none else spanAt (ofCoord p.src) dst.toNat 0 total
    | _ => none
  | .channelElementEnter ch _ _ _ | .refillReturn ch => ((s.chanAt ch).filter s.consumerLives).map Chan.nextSpan
  | .copyPieceWrite c _ key p => ((s.coreAt c).transfer key).bind fun t =>
    if t.sent then (planOf t.cmd).bind fun pl =>
      let q := pl.piece p
      (scrPlace c q.2.1).map fun d => ⟨if inTrans q.1 then d.1 else s.sourceAgent c t q.1 q.2.1, d.1, d.2, 0, q.2.2⟩
    else none
  | .xbcastWrite c _ key p => ((s.coreAt c).transfer key).bind fun t => match t.cmd with
    | .xbcast _ _ _ _ dst _ _ =>
      let q := t.bcast c dst p
      some ⟨c, q.1, q.2.1, 0, q.2.2.2⟩
    | _ => none
  | _ => none
/-- The next row of a matrix write of core `c`, of those that have still to be committed (R100). -/
def MCmd.nextRow (m : MCmd) (c : Nat) : Option Asker := match m.eff with
  | some { writes := _ :: ws, .. } => some (.row c m.ctx m.seq ws.length)
  | _ => none
/-- What a request of an agent does in a scratchpad. -/
def State.askSpan (s : State) : Asker → Option Span
  | .step e => s.evSpan e
  | .row c ctx seq n => ((s.coreAt c).mq.find? fun m => m.ctx = ctx && m.seq = seq).bind fun m => match m.eff with
    | some { writes := w :: ws, .. } => if ws.length = n then (scrPlace c w.1.toNat).map fun d => ⟨c, d.1, d.2, 0, w.2.length⟩ else none
    | _ => none

/-! ## Steps that the state enables -/

/-- One of some numbers, by the model's free choice. -/
def State.anyOf (s : State) (salt n : Nat) : Nat := Config.pick (s.tick + salt) % n
/-- Something is taken at the boundary before an instruction of this core (R266), its context is halted (R312), or it is to be dropped there (R255). -/
def State.dueAt (s : State) (c : Nat) : Bool :=
  let k := s.coreAt c
  (s.preemptor c).isSome || k.faultDue || k.fir.timeout || decide (k.ctx.prog.wdog.toNat ≤ k.fir.wdcnt) || k.ctx.halted || s.overBudget (tileOf c)
/-- Scheduling steps of a core. (DEDUCED, log 25.) (DESIGN CHOICE, log 27.) -/
def State.coreAutos (s : State) (c : Nat) (k : Core) : List Ev :=
  let busy := k.status != .idle
  let at' := k.status.atBoundary
  let yields := k.status.yields
  (if k.status == .idle && !k.fenced && (k.first (s.startable c)).isSome then [Ev.firingChoose c] else [])
  ++ (if yields && (s.preemptor c).isSome then [Ev.preemption c] else [])
  ++ (k.parks.filterMap fun p => match k.ctxs.find? (·.slot = p.slot) with
    | some x => if !p.woken && s.queueReady x p.q p.push then some (Ev.parkWake c p.key) else none
    | none => none)
  ++ (match k.status with
    | .waiting w => if s.waitOver c w && !s.dueAt c then [Ev.waitResume c] else []
    | .answer (.saved ps _) | .answer (.switched ps) | .answer (.served _ _ ps) => if s.heldFree ps then [Ev.waitResume c] else []
    | .entry _ _ _ _ => [Ev.trapEntry c]
    | .fetch => if (look (s.tileAt (tileOf c)).store k.ctx.id).isSome then [Ev.configCacheFill c]
        else if s.codeComes c k.ctx then [Ev.codeFetchComplete c (k.missing.getD 0)] else []
    | .granted _ => if s.mayComplete c then [Ev.commitComplete c] else []
    | _ => [])
  ++ (if busy && !k.fir.timeout && decide (k.ctx.prog.wdog.toNat ≤ k.fir.wdcnt) then [Ev.watchdogExpiry c] else [])
  ++ (if at' && !k.ctx.halted && (s.preemptor c).isNone && (k.faultDue || k.fir.timeout) then [Ev.trapEntry c] else [])
/-- The piece of a transfer that an agent has asked a grant for (R229). -/
def State.askedPiece (s : State) (key : Nat) : Option Nat :=
  (List.range 64).findSome? fun t => (s.tileAt t).asks.findSome? fun a => match a.what with
    | .step (.copyPieceWrite _ _ k p) | .step (.xbcastWrite _ _ k p) => if k = key then some p else none
    | _ => none
/-- The writes of a sent transfer of core `c` that may come next: the one that has asked for its grant, else the first byte's that is left, or one of the
others by the model's free choice (R169, R210). -/
def State.piecesOf (s : State) (c : Nat) (t : Transfer) : List Ev :=
  if ¬ t.sent ∨ t.fault.isSome ∨ t.done then [] else
  match t.left[s.anyOf 1 t.left.length]? with
  | none => []
  | some r =>
    let q := r.1 + 64 - r.1 % 64
    match t.cmd with
    | .xbcast _ _ _ _ dst _ _ =>
      let n := t.bytes.length
      let any := (r.1 + s.anyOf 2 (r.2 - r.1)) / n * n
      ((match s.askedPiece t.key with
        | some p => [p]
        | none => [r.1, any, any + 64 * s.anyOf 4 ((n + 63) / 64)]).filter fun p => t.bcastLeft p && s.way 23 c (t.bcast c dst p).1 != Way.astray).map fun p => Ev.xbcastWrite c t.chan t.key p
    | _ =>
      if (planOf t.cmd).isNone then [] else
      ((match s.askedPiece t.key with
        | some p => [p]
        | none => r.1 :: (if r.2 ≤ q then [] else [q + 64 * s.anyOf 2 ((r.2 - q + 63) / 64)])).filter fun p => beginsPiece t.left p && !s.pieceAstray c t p).map fun p => Ev.copyPieceWrite c t.chan t.key p
/-- Steps of a core's matrix unit, copy engine and reduction agent. -/
def State.engineAutos (s : State) (c : Nat) (k : Core) : List Ev :=
  (match k.nextStart with
    | some (_, m) => if (k.byId m.ctx).isNone then [] else match m.what with
      | .csr _ _ _ => [Ev.queuedCsrWrite c]
      | .cmd _ => [Ev.matrixCommandStart c]
    | none => [])
  ++ (match k.mq with
    | m :: _ => match m.eff, k.byId m.ctx with
      | some e, some x => if m.isDone ∧ (e.q0.isNone ∨ x.q0.length < 8) then [Ev.matrixCommandComplete c] else []
      | _, _ => []
    | [] => [])
  ++ (k.copies.flatMap fun t =>
    if k.next t then [Ev.copyPieceWrite c t.chan t.key 0]
    else if s.transferOver c t then [Ev.copyComplete c t.chan t.key]
    else (s.piecesOf c t).filter fun e => (s.evSpan e).isNone)
  ++ (if k.ctxs.any fun x => !x.q1wait.isEmpty && decide (x.q1.length < 16) then [Ev.q1Record c] else [])
/-- The data that engines, dispatchers and streamers send over the mesh now, which may be refused there (R219). -/
def State.refusable (s : State) : List Ev :=
  ((s.cores.flatMap fun e => (e.2.copies.flatMap (s.piecesOf e.1)) ++ (if e.2.status = .fetch then [Ev.codeFetchComplete e.1 (e.2.missing.getD 0)] else []))
    ++ s.walks.map fun x => Ev.nodeCopy x.num).filter s.pieceCarried
/-- A stream's next step reads a bank of this group of core `c`, which is not idle for the updater (R131). -/
def State.streamAsks (s : State) (c g : Nat) : Bool :=
  (tileCores (tileOf c)).any fun d => [0, 1].any fun l => ((s.coreAt d).laneStep l).any fun p => p.core == c && p.banks.any (· / 4 = g)
/-- Steps of a core's parity units (R130–R136); the scrubber's are offered apart. The updater takes no cycle between a chunk's release and the start of the
commands that leave with it. (DESIGN CHOICE, log 28.) -/
def State.parityAutos (s : State) (c : Nat) (k : Core) : List Ev :=
  ((List.range 4).filterMap fun g =>
    if (s.nextRow c g).isSome && !k.forced g && !s.streamAsks c g && k.entering.isEmpty && !k.mayStart then some (Ev.parityUpdate c g) else none)
  ++ (k.fixes.map fun f => Ev.correctedWriteback c f.1 f.2)
  ++ ((List.range 16).filterMap fun b =>
    if k.lasting.isEmpty then none
    else if k.worn b && !k.fenced && look k.degraded (b / 4) != some b && s.noGrant (tileOf c) then some (Ev.bankRetirement c b) else none)
/-- Steps of a core's barrier agent and thaw unit, and the removal of its contexts. -/
def State.otherAutos (s : State) (c : Nat) (k : Core) : List Ev :=
  let cfg := (s.tileAt (tileOf c)).thaw
  (if !k.barq.isEmpty || ((k.bars.any (·.2.held)) && s.storeRoom c) then [Ev.barrierUpdate c []] else [])
  ++ (k.waitsOf.filterMap fun w =>
    if cfg.getLsbD 31 && w.thaw.stamp.isNone && decide (w.thaw.since.toNat + (cfg &&& 0xFFFFFF).toNat ≤ s.cycle.toNat) then some (Ev.thawReport c w.thaw.key) else none)
  ++ (match (s.tileAt (tileOf c)).xfer with
    | .vacate _ _ _ => k.ctxs.filterMap fun x => if k.departing x.slot then some (Ev.contextRemoval c x.slot) else none
    | _ => [])
/-- Steps of a tile. -/
def State.tileAutos (s : State) (t : Nat) : List Ev :=
  let k := s.tileAt t
  (if k.reqs.isEmpty && k.asks.isEmpty then [] else if (s.winners t).isEmpty then [] else [Ev.commitGrant t])
  ++ (match k.xfer with
    | .none => []
    | .quiesce _ => if s.quiet t then [Ev.transferQuiesced t] else []
    | .vacate _ _ _ => if s.overBudget t && s.noGrant t && (tileCores t).any fun c => !(s.coreAt c).droppable.isEmpty then [Ev.vacateBudgetExpiry t] else []
    | .drain _ => if s.mayClear t then [Ev.tileClearComplete t] else []
    | .notify _ _ l => if l.isEmpty then [Ev.transferComplete t] else [])
  ++ (if k.home && !k.times.isEmpty then (if s.quantumOver t && ((s.nextEntry t).isSome || (k.times.any fun e => e.idx = k.turn)) then [Ev.timeshareQuantumEnd k.ter.toNat] else []) else [])
/-- The die whose dispatcher a step belongs to, of those that a dispatcher performs itself (R288). -/
def State.evDie (s : State) (e : Ev) : Option Nat :=
  let w (n : Nat) : Option Nat := (s.walk n).map (·.die)
  match e with
  | .queueEntryLaunch q | .queueEntryWait q | .queueEntrySignal q => some (dieOfQueue q)
  | .nodeLaunch n | .nodeWait n | .nodeSignal n | .nodeCond n | .nodeLoop n | .nodeEnd n => w n
  | .adminMap (some q) _ _ | .adminUnmap (some q) _ _ | .adminCancel (some q) _ | .adminClaim (some q) _ _ | .adminFree (some q) _ _
  | .adminTimeshare (some q) _ _ _ | .adminVdev (some q) _ _ _ _ _ _ _ | .adminPair (some q) _ _ _ | .adminQueue (some q) _ _ _ _ _ _ _
  | .adminOwnAssign (some q) _ _ _ | .adminOwnRelease (some q) _ _ _ | .adminTenantCreate (some q) _ _ | .adminTenantDelete (some q) _ => some (dieOfQueue q)
  | _ => none
/-- Steps of the host queues, dispatchers, firmware controller and checkpoint controller. -/
def State.deviceAutos (s : State) : List Ev :=
  (s.queues.filterMap fun q => if (look s.seen q).getD 0 ≠ s.qget q 8 4 then some (Ev.hostQueueTail q) else none)
  ++ ((List.range 4).filterMap fun d => if (s.agenda.any fun e => s.evDie e == some d) then none else if (s.chooseUnit d).isSome then some (Ev.dispatcherStep d) else none)
  ++ (s.walks.filterMap fun x =>
    if x.copied.isSome && !s.agenda.contains (.nodeCopy x.num) && !(s.held.any fun h => h.step == .nodeCopy x.num) then some (Ev.nodeCopy x.num) else none)
  ++ (match s.service with
    | [] => []
    | p :: _ =>
      let c := ofCoord p.src
      if (s.fadingOf (.core c p.serial)).any fun f => !f.tiles.isEmpty then [] else match p.body with
      | .service _ n => [match n.toNat with
        | 0 => Ev.fwMap c
        | 1 => Ev.fwUnmap c
        | 2 => Ev.fwQuery c
        | _ => Ev.fwAttest c]
      | _ => [])
  ++ (s.jobs.flatMap fun j =>
    (if !j.stepKind && !j.fired && decide (j.since.toNat + j.trigger ≤ s.cycle.toNat) then [Ev.checkpointTimer j.id] else [])
    ++ (if j.arming then [Ev.armingComplete j.id] else [])
    ++ (if !j.active then [] else if !j.left.isEmpty then [Ev.checkpointPageCopy j.id] else if s.destWaits j then [] else [Ev.checkpointComplete j.id]))
  ++ (((s.held.map (·.page)).dedup.filter s.pageMay).map Ev.urgentReadComplete)
/-- A core may take its turn: its firing runs with nothing due at the boundary, or its solo chunk comes first (R232). It executes one instruction in a cycle
of its matrix unit, when that has something to do. (DESIGN CHOICE, log 28.) -/
def State.coreMay (s : State) (c : Nat) (k : Core) : Bool := match k.status with
  | .running => !s.dueAt c && !(k.ran && (k.mayStart || k.unitDue || k.writeDone))
  | .solo => (s.tileAt (tileOf c)).soloHead == some (localOf c)
  | _ => false
/-- What happens at a cycle before everything else: the first cycle of a drift phase (R252), a change of W that a home tile looks at (R260), and the
updater cycles that a full wait count makes due in their groups (R131), and the failure of a checkpoint under which a shard page has been unmapped
(R305). (DESIGN CHOICE, log 28.) -/
def State.forcedTurns (s : State) : List Turn :=
  (if s.phase < s.phaseNow then [Turn.auto .driftPhase] else [])
  ++ ((List.range 64).filterMap fun t => let k := s.tileAt t; if k.home && k.times.any (s.wDue t) then some (Turn.inner (.quantumNote t)) else none)
  ++ (s.jobs.filterMap fun j => if j.busy && j.lost.isSome then some (Turn.auto (.checkpointComplete j.id)) else none)
  ++ s.cores.flatMap fun e => (List.range 4).filterMap fun g => if e.2.forced g then some (Turn.auto (.parityForcedUpdate e.1 g)) else none
/-- The mailbox may take its next command. -/
def State.mailboxMoves (s : State) : List Inner := if !s.submitted.isEmpty && !s.mailboxBusy then [Inner.mailboxTake] else []
/-- Moves inside a core's units and inside the device's memory: they are no rows of the opcode table (DESIGN CHOICE, log 3). -/
def State.innerTurns (s : State) : List Inner :=
  (s.cores.flatMap fun e =>
    (match e.2.status with
      | .granted _ => if s.mayComplete e.1 && e.2.fir.chunk.held.any Held.isLocal then [Inner.storesLeave e.1] else []
      | _ => [])
    ++ (if e.2.port.isEmpty then [] else [Inner.portDrain e.1])
    ++ (if e.2.lag.isEmpty then [] else [Inner.portSee e.1])
    ++ (if e.2.unitDue && !e.2.mayStart then [Inner.unitCycle e.1] else []))
  ++ (List.range s.link.length).map Inner.linkDone
  ++ (s.fading.zipIdx.filterMap fun f => if f.1.tiles.isEmpty then none else some (Inner.acknowledge f.2))
  ++ (if s.restore.isSome then [Inner.restorePage] else [])
  ++ s.mailboxMoves
/-- One word that a scrubber may read now: any bank of a core that holds something (R131). (DESIGN CHOICE, log 28.) -/
def State.scrubs (s : State) : List Ev := match s.cores[s.anyOf 3 s.cores.length]? with
  | some e => [.scrub e.1 (s.anyOf 4 20)]
  | none => []

/-! ## Steps in flight -/

/-- The order that channel notices to a producer keep, the streamer's and the consumer's alike: the channel they belong to. (DESIGN CHOICE, log 80.) -/
def evNotice : Ev → Option (BitVec 15)
  | .channelAckReceived ch _ | .xonReceived ch | .emptyNoticeReceived ch _ => some ch
  | _ => none
/-- A store of core `c` on its way to a 64-byte line of global memory. -/
def evLine (c : Nat) : Ev → Option Nat
  | .globalStorePerformed d key _ _ => if d = c then some (key / 64) else none
  | _ => none
/-- What a step in flight that carries release waits for: its core (R203). -/
def State.evRelease (s : State) (e : Ev) : Option Nat := match e with
  | .packetArrival p => match p.body with
    | .arrive _ => some (ofCoord p.src)
    | _ => none
  | e => s.evReleases e
/-- A step that comes from outside and is served while the part stands still (R269, R307, R313): a command of the mailbox, or a sample of the power
controller. (DESIGN CHOICE, log 7.) -/
def evMailbox (e : Ev) : Bool := evCommand e || match e with
  | .powerSample _ _ _ => true
  | _ => false
/-- A step in flight, with those before it, may be performed now as far as order goes: release (R203), notices of one channel, one core's
stores to one line and its loads of it (R237), commands of the mailbox, which run one at a time (R307). -/
def State.inOrder (s : State) (before : List Ev) (e : Ev) : Bool :=
  (match s.evRelease e with
    | some c => !before.any (evScratch c)
    | none => true)
  && !(evCommand e && (before.any evCommand || s.restoring))
  && (match evNotice e with
    | some ch => !before.any fun b => evNotice b == some ch
    | none => true)
  && (match e with
    | .globalStorePerformed c key _ _ => !(before.any fun b => evLine c b == some (key / 64)) && !(s.held.any fun h => evLine c h.step == some (key / 64))
    | .translatedLoadReturn c => match (s.coreAt c).load with
      | none => true
      | some l => l.pieces.all fun p => match s.xlate (s.coreAt c).ctx.vdev p.1.toNat false with
        | .ok key => !(before.any fun b => evLine c b == some (key / 64)) && !(s.held.any fun h => evLine c h.step == some (key / 64))
        | .error _ => true
    | _ => true)
/-- The agent that a step in flight reaches has room for its effects now. -/
def State.agentReady (s : State) (e : Ev) : Bool :=
  match e with
  | .depositWrite p => match p.body with
    | .deposit ea _ trig fireAt _ => s.trigMay ((fireAt.map (·.toNat)).getD (ownerAt p ea)) trig
    | _ => true
  | .atomicStep p => match p.body with
    | .atomic _ _ ea _ _ trig _ => s.trigMay (ownerAt p ea) trig
    | _ => true
  | .channelElementEnter ch idx _ _ => match s.chanAt ch with
    | some k => decide (k.entered = idx)
    | none => true
  | .xredContribution p => match p.body with
    | .contribute _ _ dst _ _ _ _ _ _ _ =>
      let d := ownerAt p dst
      (s.wholeOf d p).isNone || (s.coreAt d).rounds.any (·.dst = dst) || decide ((s.coreAt d).rounds.length < 8)
    | _ => true
  | .adminMap via _ _ | .adminUnmap via _ _ => !(s.fadingOf (.via via)).any fun f => !f.tiles.isEmpty
  | .adminCancel _ id => (s.tilesWith id).all s.noGrant
  | .adminFree _ _ mask => (tilesIn mask).all s.noGrant
  | _ => true
/-- The steps in flight that may be performed now, by place, and those that come over the mesh, which may be refused (R219, log 9). -/
def State.agendaTurns (s : State) : List Turn :=
  let n := s.agenda.zipIdx
  (n.filter fun e => s.inOrder (s.agenda.take e.2) e.1 && s.agentReady e.1 && (s.evSpan e.1).isNone).map (fun e => Turn.event e.2)
  ++ n.filterMap fun e => match e.1 with
    | .packetArrival _ => some (Turn.drop e.2)
    | x => if s.carried x then some (Turn.drop e.2) else none

/-! ## Requests of agents (R229) -/

/-- The agents' steps that need a grant now: steps in flight that have come to their agent and may be performed as far as order and room go, the next pieces
of copies and broadcasts, and the next row of each matrix write. (DEDUCED, log 47.) -/
def State.askers (s : State) : List Asker :=
  ((s.agenda.zipIdx.filter fun e => s.inOrder (s.agenda.take e.2) e.1 && s.agentReady e.1).map fun e => Asker.step e.1)
  ++ s.cores.flatMap fun e => (e.2.copies.flatMap fun t => (s.piecesOf e.1 t).map Asker.step) ++ e.2.mq.filterMap fun m => m.nextRow e.1
/-- An agent's request, with its tile. -/
def State.askOf (s : State) (now : DWord) (a : Asker) : Option (Nat × Ask) :=
  (s.askSpan a).map fun p =>
    let w := sigRange (globalEA p.core p.off) p.writes
    (tileOf p.core, ⟨128 + localOf (if tileOf p.agent = tileOf p.core then p.agent else p.core), now, w ||| sigRange (globalEA p.core p.off) p.reads, w, false, a⟩)
/-- Requests of agents stand while their steps do; new ones join them, made in the cycle `now`. -/
def State.tidyAsks (s : State) (now : DWord) : State :=
  let l := s.askers.filterMap (s.askOf now)
  if l.isEmpty && s.tiles.all fun t => t.asks.isEmpty then s else
  { s with tiles := Vector.ofFn fun t : Fin 64 =>
      let k := s.tiles[t.val]
      let mine := (l.filter (·.1 = t.val)).map (·.2)
      { k with asks := (k.asks.filter fun a => mine.any (·.what = a.what)) ++ mine.filter fun a => !(k.asks.any (·.what = a.what)) } }
/-- A message that is refused asks for nothing. -/
def State.unask (s : State) (e : Ev) : State := { s with tiles := s.tiles.map fun t => { t with asks := t.asks.filter fun a => a.what ≠ .step e } }
/-- The agents' steps that have been granted, when every commit granted before that meets them is complete (R227, R231). -/
def State.askTurns (s : State) : List Turn := (List.range 64).flatMap fun t =>
  (s.tileAt t).asks.filterMap fun a =>
    if !a.won || (s.tileAt t).granted.any fun l => meets (s.chunkOf t l).wsig a.wsig then none else
    match a.what with
    | .step e => some ((s.agenda.findIdx? (· = e)).elim (Turn.auto e) Turn.event)
    | .row c ctx seq _ => ((s.coreAt c).mq.findIdx? fun m => m.ctx = ctx && m.seq = seq).map fun k => Turn.inner (.rowCommit c k)

/-! ## The choice of what moves next (DESIGN CHOICE, log 3) -/

/-- What may move next: the core it belongs to, and the turn. (DESIGN CHOICE, log 3.) (DESIGN CHOICE, log 7.) -/
def State.candidates (s : State) : List (Nat × Turn) :=
  if s.runs then
    match s.forcedTurns with
    | [] =>
      (s.agendaTurns ++ s.askTurns).map (fun t => (s.cur, t))
      ++ (s.deviceAutos ++ (List.range 64).flatMap s.tileAutos
          ++ s.cores.flatMap fun e => s.coreAutos e.1 e.2 ++ s.engineAutos e.1 e.2 ++ s.parityAutos e.1 e.2 ++ s.otherAutos e.1 e.2).map (fun e => (s.cur, Turn.auto e))
      ++ s.refusable.map (fun e => (s.cur, Turn.refused e))
      ++ (s.cores.filter fun e => s.coreMay e.1 e.2).map (fun e => (e.1, Turn.core))
      ++ s.innerTurns.map (fun i => (s.cur, Turn.inner i))
      ++ s.scrubs.map (fun e => (s.cur, Turn.auto e))
    | ts => ts.map fun t => (s.cur, t)
  else ((s.agenda.zipIdx.filter fun e => evMailbox e.1 && s.inOrder (s.agenda.take e.2) e.1).map fun e => (s.cur, Turn.event e.2))
    ++ s.mailboxMoves.map fun i => (s.cur, Turn.inner i)
/-- Choose the next turn; with one candidate there is nothing to choose. (DESIGN CHOICE, log 3.) -/
def State.choose (s : State) : State :=
  match s.candidates with
  | [] => { s with turn := .idle }
  | [x] => { s.goto x.1 with turn := x.2 }
  | x :: y :: l => let z := (x :: y :: l).getD (Config.pick s.tick % (l.length + 2)) x
    { s.goto z.1 with turn := z.2 }

/-! ## Time -/

/-- Cycles beyond the first that a step takes. (DESIGN CHOICE, log 4.) -/
def State.extra (s : State) : Nat := ((Config.cost s.tick).setWidth 32).toNat
/-- Time passes at a core: its firing's watchdog count (R186). (DESIGN CHOICE, log 4.) -/
def Core.pass (n : Nat) (k : Core) : Core :=
  let counts := k.status != .idle && k.fir.begun && (match k.status with
    | .waiting (.parkRoom _ _ _) => false
    | _ => true)
  { k with fir := if counts then { k.fir with wdcnt := k.fir.wdcnt + n } else k.fir }
/-- A solo queue keeps the cores whose chunk still waits to run solo, or does (R232). -/
def State.tidySolo (s : State) : State :=
  { s with tiles := Vector.ofFn fun t : Fin 64 =>
      let k := s.tiles[t.val]
      if k.solo.isEmpty then k else { k with solo := k.solo.filter fun l =>
        let e := s.coreAt (coreOf t.val l)
        e.status == .solo || e.fir.chunk.solo } }
/-- Shared records that have come free are taken at once by what waits for them, whatever freed them (R181). -/
def State.refillAll (s : State) : State :=
  let fill (c : Nat) (k : Core) : Core := if k.waiting.isEmpty then k else k.refill c s.cycle 32
  { s with core := fill s.cur s.core, others := s.others.map fun e => (e.1, fill e.1 e.2) }
/-- A step is over: time passes, a read of HBM that its retry has cured is counted (R310; DESIGN CHOICE, log 73), free records fill and the next turn is
chosen. (DESIGN CHOICE, log 2.) (DESIGN CHOICE, log 4.) -/
def State.settle (s : State) : State :=
  let n := 1 + s.extra
  let now := s.cycle
  let s := { s with tick := s.tick + 1, cycle := s.cycle + BitVec.ofNat 64 n, core := { s.core.pass n with ran := s.core.ran || s.turn == Turn.core }, others := s.others.map (fun (e : Nat × Core) => (e.1, e.2.pass n)) }
  ((if Config.hbmRetried s.tick then s.count 1 else s).tidyVacant.refillAll.tidySolo.tidyTries |>.tidyAsks now).choose

/-! ## A turn -/

/-- Perform step `k` in flight. Packets that it sends take its place, so that what releases behind it still finds them (R203),
and so does a command of the mailbox that is not done. -/
def State.performEvent (s : State) (k : Nat) (e : Ev) : Res :=
  let rest := s.agenda.eraseIdx k
  match runEv e { s with agenda := rest } with
  | .next t =>
    if t.agenda.take rest.length = rest then
      let new := t.agenda.drop rest.length
      let stays (x : Ev) : Bool := (evPacket x).isSome || (evCommand x && x == e)
      .next { t with agenda := rest.take k ++ new.filter stays ++ rest.drop k ++ new.filter fun x => !stays x }
    else .next t
  | r => r
/-- A move inside a unit. -/
def State.inner (s : State) : Inner → State
  | .storesLeave c => s.storesLeave c
  | .portDrain c => s.onCore c fun k => k.drainOne s.cycle s.syn
  | .portSee c => s.onCore c fun k => { k with lag := k.lag.drop 1 }
  | .unitCycle c => s.unitCycle c
  | .rowCommit c k => s.rowCommit c k
  | .linkDone k => { s with link := s.link.eraseIdx k }
  | .quantumNote t => s.quantumNote t
  | .acknowledge k => s.acknowledge k
  | .restorePage => s.restorePage
  | .mailboxTake => s.mailboxTake
/-- What the state's turn names happens. (DESIGN CHOICE, log 3.) -/
def State.act (s : State) : Res :=
  match s.turn with
  | .core => s.coreTurn
  | .auto e => runEv e (s.done e)
  | .event k => match s.agenda[k]? with
    | some e => (s.done e).performEvent k e
    | none => .next s
  | .drop k => match s.agenda[k]? with
    | some (.packetArrival p) => s.performEvent k (.routerDrop p)
    | some e => .next (if s.carried e then (s.unask e).refuse e fun s => { s with agenda := s.agenda.eraseIdx k } else s)
    | none => .next s
  | .refused e => .next (if s.pieceCarried e then (s.unask e).refuse e id else s)
  | .inner i => .next (s.inner i)
  | .idle => .next s

end Sys2Proof.Machine
end

