-- ==== Sys2Proof/Machine/Step.lean ====
section
/-! DEFINITION. One step of the part, and the placing of an instruction where the next step fetches. -/

namespace Sys2Proof.Machine

/-- The state's turn is taken, and the next one is chosen. -/
def step (s : State) : Host.Outcome State Fault Refusal :=
  match s.act with
  | .next t => .next t.settle
  | r => r

/-- `s` with an instruction at the current core's pc, and the core at its turn: a resident context whose code image holds the instruction's
32 bytes at the pc, the lines it needs in the configuration cache (those of a loop's body too), the firing running. It stands for a launch from outside and the first fetch (DESIGN CHOICE, log 1). -/
def State.withFetchWord (s : State) (nbits w : Nat) : State :=
  let pc := s.core.fir.regs.pc.toNat
  let x := { s.core.ctx with code := slice s.core.ctx.code 0 pc ++ tableBytes nbits w ++ s.core.ctx.code.drop (pc + 32) }
  let lines := (x.linesAt pc fun _ => true).map fun l => (x.id, l)
  { s with
    turn := .core
    core := { s.core with
      status := .running
      resident := true
      cache := s.core.cache ++ lines.dedup.filter fun l => !s.core.cache.contains l
      ctx := x } }

end Sys2Proof.Machine
end

