-- ==== Sys2Proof/Safety.lean ====
section
/-! DEFINITION. The terms that claims use: what it means that memory, a register file or a context is left as it was, the invariant of the
memories, and the results that the spec's tables give, by the integers and the bits of the operands. -/

namespace Sys2Proof.Machine

/-! ## What stays as it was -/

/-- Every byte of global memory and of every scratchpad reads as before. -/
def State.SameMemory (s t : State) : Prop :=
  (∀ a, t.gmem.get a = s.gmem.get a) ∧ ∀ c a, (t.coreAt c).mem.get a = (s.coreAt c).mem.get a
/-- Every byte reads as before but for `n` bytes from `off` of the scratchpad of core `d`. -/
def State.SameOutside (s t : State) (d off n : Nat) : Prop :=
  (∀ a, t.gmem.get a = s.gmem.get a) ∧ ∀ c a, ¬ (c = d ∧ off ≤ a ∧ a < off + n) → (t.coreAt c).mem.get a = (s.coreAt c).mem.get a
/-- The scratchpad of core `d` holds these bytes from `off` on. -/
def State.Holds (t : State) (d off : Nat) (bs : List Byte) : Prop := ∀ i, i < bs.length → (t.coreAt d).mem.get (off + i) = bs.getD i 0
/-- Every byte of global memory reads as before but for `n` bytes from `key`, and every scratchpad reads as before. -/
def State.SameGlobalOutside (s t : State) (key n : Nat) : Prop :=
  (∀ a, ¬ (key ≤ a ∧ a < key + n) → t.gmem.get a = s.gmem.get a) ∧ ∀ c a, (t.coreAt c).mem.get a = (s.coreAt c).mem.get a
/-- The same machine but for the wait counts of the parity groups, which an access to a scratchpad may raise (R131); its list may also write out cores
that it had left unlisted as they are after reset. -/
def State.Alike (s u : State) : Prop :=
  u = { s with core := { s.core with waits := u.core.waits }, others := u.others }
    ∧ ∀ d, u.coreAt d = { s.coreAt d with waits := (u.coreAt d).waits } ∧ ∀ g, vget (s.coreAt d).waits g 0 ≤ vget (u.coreAt d).waits g 0
/-- The induction registers of the levels that are open: the only scalars that completing an instruction may step (R69, R70). -/
def State.loopRegs (s : State) : List Reg :=
  (if s.regs.l0.on then [s.regs.l0.rd] else []) ++ (if s.regs.l1.on then [s.regs.l1.rd] else [])
/-- Everything that no instruction of a register-only form writes: memory, what the engines and the agents hold, and of the firing all but its
scalars, masks, payload, pc, loop levels and counts; a chunk that its 512th instruction ends asks for its commit (R26). -/
def State.SameRest (s t : State) : Prop :=
  s.SameMemory t ∧ t = { s with core := t.core, tiles := t.tiles } ∧ (∀ k, t.tileAt k = { s.tileAt k with reqs := (t.tileAt k).reqs })
    ∧ t.core = { s.core with ctx := t.core.ctx, fir := t.core.fir, status := t.core.status }
    ∧ t.fir = { s.fir with regs := t.regs, wcount := t.fir.wcount, chunk := t.chunk } ∧ t.chunk = { s.chunk with count := t.chunk.count }
    ∧ t.regs.j = s.regs.j ∧ t.regs.ext = s.regs.ext

/-! ## The invariant of the memories (DESIGN CHOICE, log 5) -/

/-- Global memory and every scratchpad have their canonical form. -/
def State.MemOk (s : State) : Prop := s.gmem.wf = true ∧ ∀ c, (s.coreAt c).mem.wf = true

/-! ## Results by integers and bits (R58, R61, R64) -/

/-- A three-register form of the INT group with its result as an integer, to be taken modulo 2^32 (R58). -/
def intForms : List ((Reg → Reg → Reg → Instr) × (Word → Word → Int)) :=
  [(.add, fun a b => a.toInt + b.toInt), (.sub, fun a b => a.toInt - b.toInt),
   (.shl, fun a b => a.toInt * 2 ^ (b.toNat % 32)), (.shr, fun a b => (a.toNat / 2 ^ (b.toNat % 32) : Nat)),
   (.sra, fun a b => a.toInt / 2 ^ (b.toNat % 32)),
   (.min, fun a b => min a.toInt b.toInt), (.max, fun a b => max a.toInt b.toInt),
   (.minn, fun a b => (min a.toNat b.toNat : Nat)), (.maxn, fun a b => (max a.toNat b.toNat : Nat)),
   (.slt, fun a b => if a.toInt < b.toInt then 1 else 0), (.sltn, fun a b => if a.toNat < b.toNat then 1 else 0),
   (.seq, fun a b => if a.toInt = b.toInt then 1 else 0), (.sne, fun a b => if a.toInt = b.toInt then 0 else 1),
   (.mul, fun a b => a.toInt * b.toInt), (.mulh, fun a b => a.toInt * b.toInt / 2 ^ 32),
   (.mulhn, fun a b => (a.toNat * b.toNat / 2 ^ 32 : Nat))]
/-- A three-register form of the INT group with bit `k` of its result (R58). -/
def bitForms : List ((Reg → Reg → Reg → Instr) × (Word → Word → Nat → Bool)) :=
  [(.and, fun a b k => a.getLsbD k && b.getLsbD k), (.or, fun a b k => a.getLsbD k || b.getLsbD k),
   (.xor, fun a b k => a.getLsbD k != b.getLsbD k), (.andn, fun a b k => a.getLsbD k && !b.getLsbD k),
   (.ror, fun a b k => a.getLsbD ((k + b.toNat) % 32))]
/-- A two-register form of the INT group with bit `k` of its result (R58). -/
def unaryForms : List ((Reg → Reg → Instr) × (Word → Nat → Bool)) :=
  [(.brev, fun a k => a.getLsbD (31 - k)), (.sextb, fun a k => a.getLsbD (min k 7)), (.sexth, fun a k => a.getLsbD (min k 15)),
   (.zextb, fun a k => decide (k < 8) && a.getLsbD k), (.zexth, fun a k => decide (k < 16) && a.getLsbD k)]
/-- A form of the PAIR group with its result as an integer, to be taken modulo 2^64 (R61). -/
def pairForms : List ((Pair → Pair → Pair → Instr) × (DWord → DWord → Int)) :=
  [(.dadd, fun a b => a.toInt + b.toInt), (.dsub, fun a b => a.toInt - b.toInt),
   (.dshl, fun a b => a.toInt * 2 ^ (b.toNat % 64)), (.dshr, fun a b => (a.toNat / 2 ^ (b.toNat % 64) : Nat)),
   (.dsra, fun a b => a.toInt / 2 ^ (b.toNat % 64)),
   (.dslt, fun a b => if a.toInt < b.toInt then 1 else 0), (.dsltn, fun a b => if a.toNat < b.toNat then 1 else 0),
   (.dmul, fun a b => a.toInt * b.toInt)]
/-- An immediate form with a 14-bit immediate and its result as an integer, to be taken modulo 2^32 (R64). -/
def immForms : List ((Reg → Reg → BitVec 14 → Instr) × (Word → BitVec 14 → Int)) :=
  [(.addi, fun a i => a.toInt + i.toInt), (.muli, fun a i => a.toInt * i.toInt),
   (.slti, fun a i => if a.toInt < i.toInt then 1 else 0), (.sltni, fun a i => if a.toNat < (i.signExtend 32).toNat then 1 else 0)]
/-- An immediate form with a 14-bit immediate and bit `k` of its result (R64). -/
def immBitForms : List ((Reg → Reg → BitVec 14 → Instr) × (Word → BitVec 14 → Nat → Bool)) :=
  [(.andi, fun a i k => a.getLsbD k && i.getLsbD k), (.ori, fun a i k => a.getLsbD k || i.getLsbD k), (.xori, fun a i k => a.getLsbD k != i.getLsbD k)]
/-- A shift by a constant and its result as an integer (R64). -/
def shiftForms : List ((Reg → Reg → BitVec 5 → Instr) × (Word → Nat → Int)) :=
  [(.shli, fun a n => a.toInt * 2 ^ n), (.shri, fun a n => (a.toNat / 2 ^ n : Nat)), (.srai, fun a n => a.toInt / 2 ^ n)]
/-- A conditional branch on two scalars and its condition (R66). -/
def branchForms : List ((Reg → Reg → BitVec 14 → Instr) × (Word → Word → Bool)) :=
  [(.beq, fun a b => decide (a = b)), (.bne, fun a b => decide (a ≠ b)), (.blt, fun a b => decide (a.toInt < b.toInt)),
   (.bge, fun a b => decide (b.toInt ≤ a.toInt)), (.bltn, fun a b => decide (a.toNat < b.toNat)), (.bgen, fun a b => decide (b.toNat ≤ a.toNat))]
/-- The scalars of a pair that a write reaches: none of d0 (R14). -/
def pairDest (d : Pair) : List Reg := if d = 0 then [] else [pairLo d, pairHi d]
/-- The scalars that an instruction of a register-only form writes; none for every other instruction (R14, R58–R64, R96, R122, R123, R162, R171,
R202, R205). -/
def scalarDest : Instr → Option (List Reg)
  | .add d _ _ | .sub d _ _ | .and d _ _ | .or d _ _ | .xor d _ _ | .andn d _ _ | .shl d _ _ | .shr d _ _ | .sra d _ _ | .ror d _ _
  | .min d _ _ | .max d _ _ | .minn d _ _ | .maxn d _ _ | .slt d _ _ | .sltn d _ _ | .seq d _ _ | .sne d _ _ | .mul d _ _ | .mulh d _ _
  | .mulhn d _ _ | .div d _ _ | .divn d _ _ | .rem d _ _ | .remn d _ _ | .bfx d _ _ | .bfi d _ _ | .clz d _ | .ctz d _ | .popc d _ | .brev d _
  | .sextb d _ | .sexth d _ | .zextb d _ | .zexth d _ | .rdid d | .addi d _ _ | .andi d _ _ | .ori d _ _ | .xori d _ _ | .shli d _ _
  | .shri d _ _ | .srai d _ _ | .slti d _ _ | .sltni d _ _ | .lui d _ | .li d _ | .muli d _ _ | .bstat _ d | .qstat d _ | .slstat d
  | .xidrd d _ | .mpop d _ => some [d]
  | .dadd d _ _ | .dsub d _ _ | .dand d _ _ | .dshl d _ _ | .dshr d _ _ | .dsra d _ _ | .dslt d _ _ | .dsltn d _ _ | .dmul d _ _ | .rdcyc d
  | .mvms d _ | .daddi d _ _ | .termap d => some (pairDest d)
  | .vext d _ _ t => some (if t = .f64 then pairDest (d.setWidth 5) else [d])
  | _ => none
/-- The vector register that an instruction of a register-only form writes; none for every other instruction (R112–R122). -/
def vectorDest : Instr → Option Reg
  | .vadd d _ _ _ _ | .vsub d _ _ _ _ | .vmin d _ _ _ _ | .vmax d _ _ _ _ | .vmul d _ _ _ _ | .vmulh d _ _ _ _ | .vabs d _ _ _
  | .vneg d _ _ _ | .vfma d _ _ _ _ | .vfms d _ _ _ _ | .vfnma d _ _ _ _ | .vfnms d _ _ _ _ | .vand d _ _ _ _ | .vor d _ _ _ _
  | .vxor d _ _ _ _ | .vandn d _ _ _ _ | .vshl d _ _ _ _ | .vshr d _ _ _ _ | .vsra d _ _ _ _ | .vror d _ _ _ _ | .vdiv d _ _ _ _
  | .vsqrt d _ _ _ | .vrcp d _ _ _ | .vrsq d _ _ _ | .vcvt d _ _ _ _ | .vqnt d _ _ _ | .vdqnt d _ _ _ | .vamax d _ _ _ | .vrsum d _ _ _
  | .vrmax d _ _ _ | .vrmin d _ _ _ | .vramax d _ _ _ | .vsplat d _ _ _ | .vins d _ _ _ _ | .vsel d _ _ _ _ | .vperm d _ _ _ _
  | .vslu d _ _ _ _ | .vsld d _ _ _ _ | .vbcl d _ _ _ _ => some d
  | _ => none
/-- The mask that an instruction of a register-only form writes; none for every other instruction (R62, R118, R123). -/
def maskDest : Instr → Option MReg
  | .mvsm d _ | .vceq d _ _ _ _ | .vcne d _ _ _ _ | .vclt d _ _ _ _ | .vcle d _ _ _ _ | .mand d _ _ | .mor d _ _ | .mxor d _ _ => some d
  | _ => none

/-! ## Results of vector forms (R112–R118) -/

/-- An instruction completes by writing one vector register whose active lanes are these numbers, modulo the lane's width (R112). -/
def State.WritesLanes (s : State) (i : Instr) (vd : Reg) (m : MReg) (w n : Nat) (f : Nat → Int) : Prop :=
  ∃ v : Vec, exec i s = .next ((s.setV vd v).retire 1)
    ∧ ∀ k, k < n → (lane v w k : Int) = if (s.m m).getLsbD k then f k % 2 ^ w else lane (s.v vd) w k
/-- A vector form on integer lanes with its result from the lanes of va and vb (R114). -/
def vecIntForms : List ((Reg → Reg → Reg → MReg → VTy → Instr) × (VTy → Nat → Nat → Int)) :=
  [(.vadd, fun t a b => intLane t a + intLane t b), (.vsub, fun t a b => intLane t a - intLane t b),
   (.vmin, fun t a b => min (intLane t a) (intLane t b)), (.vmax, fun t a b => max (intLane t a) (intLane t b)),
   (.vmul, fun t a b => intLane t a * intLane t b), (.vmulh, fun t a b => intLane t a * intLane t b / 2 ^ tyWidth t),
   (fun d a _ m t => .vabs d a m t, fun t a _ => (intLane t a).natAbs), (fun d a _ m t => .vneg d a m t, fun t a _ => -intLane t a),
   (.vshl, fun t a b => (a * 2 ^ (b % tyWidth t) : Nat)), (.vshr, fun t a b => (a / 2 ^ (b % tyWidth t) : Nat)),
   (.vsra, fun t a b => sgn (tyWidth t) a / 2 ^ (b % tyWidth t))]
/-- A vector form on bits with bit `k` of its lane's result (R114). -/
def vecBitForms : List ((Reg → Reg → Reg → MReg → VTy → Instr) × (VTy → Nat → Nat → Nat → Bool)) :=
  [(.vand, fun _ a b k => a.testBit k && b.testBit k), (.vor, fun _ a b k => a.testBit k || b.testBit k),
   (.vxor, fun _ a b k => a.testBit k != b.testBit k), (.vandn, fun _ a b k => a.testBit k && !b.testBit k),
   (.vror, fun t a b k => a.testBit ((k + b) % tyWidth t))]
/-- A floating vector form that rounds once with its exact result from the values of va, vb and vd (R114, R116, R117). -/
def vecFpForms : List ((Reg → Reg → Reg → MReg → VTy → Instr) × (Mode → FVal → FVal → FVal → Exact)) :=
  [(.vadd, fun md a b _ => addV md a b), (.vsub, fun md a b _ => addV md a b.negate), (.vmul, fun _ a b _ => mulV a b),
   (.vfma, fun md a b d => fmaV md a b d), (.vfms, fun md a b d => fmaV md a b d.negate), (.vfnma, fun md a b d => fmaV md a.negate b d),
   (.vfnms, fun md a b d => fmaV md a.negate b d.negate), (.vdiv, fun _ a b _ => divV a b), (fun d a _ m t => .vsqrt d a m t, fun _ a _ _ => sqrtV a),
   (fun d a _ m t => .vrcp d a m t, fun _ a _ _ => divV (.fin false 1 0) a), (fun d a _ m t => .vrsq d a m t, fun _ a _ _ => rsqrtV a)]
/-- A floating vector form that rounds nothing (R115). -/
def vecPickForms : List ((Reg → Reg → Reg → MReg → VTy → Instr) × (FVal → FVal → Exact)) :=
  [(.vmin, fun a b => minmaxV false a b), (.vmax, fun a b => minmaxV true a b),
   (fun d a _ m t => .vabs d a m t, fun a _ => if a.isNan then .nan a.isSig else .of a.abs),
   (fun d a _ m t => .vneg d a m t, fun a _ => if a.isNan then .nan a.isSig else .of a.negate)]
/-- A comparison: its relation on integers and on ordered values, its result for a NaN, whether only a signalling NaN sets NV (R118). -/
def compareForms : List ((MReg → Reg → Reg → MReg → VTy → Instr) × (Int → Int → Prop) × (Ordering → Prop) × Bool × Bool) :=
  [(.vceq, fun a b => a = b, fun o => o = .eq, false, true), (.vcne, fun a b => a ≠ b, fun o => o ≠ .eq, true, true),
   (.vclt, fun a b => a < b, fun o => o = .lt, false, false), (.vcle, fun a b => a ≤ b, fun o => o ≠ .gt, false, false)]

/-! ## Conversion, quantisation and reduction (R92, R119–R121) -/

/-- The stored bits and the flags that converting a lane to a floating type gives: an integer or a floating value rounded once (R119). -/
def toFloat (mode : Mode) (draw : Nat) (src dst : VTy) (x : Nat) : Nat × Flags :=
  if src.isFloat then (Exact.mk ((tyFmt src).value x) false (flagIf ((tyFmt src).value x).isSig fNV)).into (tyFmt dst) mode draw
  else roundTo (tyFmt dst) mode draw (decide (intLane src x < 0)) (intLane src x).natAbs 0 false
/-- An integer clamped to a type's range. -/
def clampTo (t : VTy) (x : Int) : Int := max (minInt t) (min (maxInt t) x)
/-- The integer that converting a floating value gives, and its flags: NV for a NaN, an infinity and a value out of range, else NX where it is inexact (R119). -/
def toInteger (mode : Mode) (draw : Nat) (dst : VTy) (v : FVal) : Int × Flags :=
  match v with
  | .nan _ _ => (0, fNV)
  | .inf n => (if n then minInt dst else maxInt dst, fNV)
  | .fin n m e =>
    let r := roundInt mode draw n m e
    (clampTo dst r.1, if clampTo dst r.1 = r.1 then (if r.2 then fNX else 0) else fNV)
/-- The magnitude of a value is at most that of scale code `c` times β = bm·2^be times the format's largest finite value (R92). -/
def inScale (f : Fmt) (bm : Nat) (be : Int) (c : Nat) (v : FVal) : Bool :=
  match v, f.value f.maxMag with
  | .fin _ m e, .fin _ fm fe => cmpMag m e ((scaleMag c).1 * bm * fm) ((scaleMag c).2 + be + fe) != .gt
  | v, _ => v.isNan
/-- `c` is the scale code that R92 gives a block of these values: 0 where all are zeros and NaNs, else the least from 1 on whose scale holds every one of
them that is no NaN, and 0xFF where none holds them. -/
def ScaleFor (f : Fmt) (bm : Nat) (be : Int) (vs : List FVal) (c : Nat) : Prop :=
  (c = 0 ↔ ∀ v ∈ vs, v.isNan = true ∨ v.isZero = true) ∧ c ≤ 255 ∧ (0 < c → c < 255 → ∀ v ∈ vs, inScale f bm be c v = true)
  ∧ ∀ d, 1 ≤ d → d < c → ∃ v ∈ vs, inScale f bm be d v = false
/-- A value too great for every scale (R92). -/
def beyondScales (f : Fmt) (bm : Nat) (be : Int) (v : FVal) : Bool := !inScale f bm be 255 v
/-- A value below the least scale, 2^−8, times β and the format's largest finite value, or a NaN (R92). -/
def belowScales (f : Fmt) (bm : Nat) (be : Int) (v : FVal) : Bool :=
  match v, f.value f.maxMag with
  | .fin _ m e, .fin _ fm fe => cmpMag m e (bm * fm) (be + fe - 8) == .lt
  | v, _ => v.isNan
/-- The code and the flags of an element under scale code `c` and β (R92). -/
def scaledCode (f : Fmt) (mode : Mode) (bm : Nat) (be : Int) (c : Nat) (v : FVal) (draw : Nat) : Nat × Flags :=
  if c = 0 then (0, flagIf v.isNan fNV)
  else if v.isNan || v.isInf then (f.sign v.neg + f.maxMag, fNV)
  else
    let q := (divV v (.fin false ((scaleMag c).1 * bm) ((scaleMag c).2 + be))).into f mode draw
    if f.maxMag < q.1 % 2 ^ (f.ebits + f.fbits) then (f.sign v.neg + f.maxMag, fOF ||| fNX) else q
/-- A value is present at a level of a reduction: one of the lanes under it is active (R121). -/
def redPresent (act : Nat → Bool) : Nat → Nat → Bool
  | 0, i => act i
  | l + 1, i => redPresent act l (2 * i) || redPresent act l (2 * i + 1)
/-- The combinations of two present values among the first `k` pairs of a level. -/
def redPairs (act : Nat → Bool) (l k : Nat) : Nat :=
  ((List.range k).filter fun i => redPresent act l (2 * i) && redPresent act l (2 * i + 1)).length
/-- The combinations before the `i`-th pair of level `l` of `n` lanes: level by level, lowest pair first. -/
def redBefore (act : Nat → Bool) (n l i : Nat) : Nat := ((List.range l).map fun j => redPairs act j (n / 2 ^ (j + 1))).sum + redPairs act l i
/-- The value at a level of a reduction, and the flags of what was combined under it (R121): absent with x gives x. -/
def redAt (comb : Nat → Nat → Nat → Option Nat × Flags) (act : Nat → Bool) (x : Nat → Nat) (n : Nat) : Nat → Nat → Option Nat × Flags
  | 0, i => (if act i then some (x i) else none, 0)
  | l + 1, i =>
    let a := redAt comb act x n l (2 * i)
    let b := redAt comb act x n l (2 * i + 1)
    match a.1, b.1 with
    | some p, some q => let c := comb (redBefore act n l i) p q; (c.1, a.2 ||| b.2 ||| c.2)
    | some p, none => (some p, a.2 ||| b.2)
    | none, q => (q, a.2 ||| b.2)

/-! ## Sums of the matrix unit (R89–R91) -/

/-- The rational number of a finite value; 0 for the others. -/
def FVal.rat : FVal → ℚ
  | .fin n m e => (if n then -1 else 1) * m * 2 ^ e
  | _ => 0
/-- A value times a positive number m·2^e. -/
def FVal.times (v : FVal) (p : Nat × Int) : FVal := match v with
  | .fin n m e => .fin n (m * p.1) (e + p.2)
  | v => v
/-- `r` is this finite sum, rounded once into FP32; an exact zero is −0 where `z` says so, else +0. -/
def RoundsSum (x : ℚ) (z : Bool) (r : Nat × Flags) : Prop :=
  ∃ neg m e, (FVal.fin neg m e).rat = x ∧ (m = 0 → neg = z) ∧ r = roundTo .f32 .rne 0 neg m e false
/-- `r` is C plus the products, by IEEE 754 on the exact expression (R89, R90): a NaN among them, or an invalid product, gives the default NaN; then
infinities of opposite signs do; then an infinity gives itself; a finite sum is rounded once. NV for a signalling C, an invalid product or an invalid sum. -/
def SumsTo (c : FVal) (ps : List Exact) (r : Nat × Flags) : Prop :=
  let vs := c :: ps.map (·.v)
  let nv := flagIf (c.isSig || ps.any fun p => p.flags.getLsbD 4) fNV
  if vs.any (·.isNan) then r = (0x7FC00000, nv)
  else if .inf false ∈ vs ∧ .inf true ∈ vs then r = (0x7FC00000, fNV)
  else if .inf false ∈ vs then r = (0x7F800000, nv)
  else if .inf true ∈ vs then r = (0xFF800000, nv)
  else RoundsSum (vs.map FVal.rat).sum (vs.all (·.neg)) r
/-- A number cut toward zero to a multiple of 2^q (R91). -/
def cutTo (q : Int) (x : ℚ) : ℚ := (if x < 0 then -1 else 1) * 2 ^ q * (⌊|x| / 2 ^ q⌋ : ℤ)
/-- `r` is C plus the products with every term cut to 47 bits below the greatest one's leading bit (R91). -/
def CutSumsTo (c : FVal) (ps : List Exact) (r : Nat × Flags) : Prop :=
  let vs := c :: ps.map (·.v)
  if (vs.any fun v => v.isNan || v.isInf) = true ∨ (∀ v ∈ vs, v.rat = 0) then SumsTo c ps r
  else ∃ e : Int, (∀ v ∈ vs, |v.rat| < 2 ^ (e + 1)) ∧ (∃ v ∈ vs, 2 ^ e ≤ |v.rat|) ∧ RoundsSum (vs.map fun v => cutTo (e - 47) v.rat).sum false r

/-- The bytes that a scratchpad address names, seen from a core; none elsewhere. -/
def State.bytesAt (s : State) (c ea n : Nat) : List Byte := match scrPlace c ea with
  | some (d, off) => (s.coreAt d).mem.read off n
  | none => []
/-- Nothing disturbs a read of the scratchpads that these ranges lie in. -/
def State.undisturbed (s : State) (c : Nat) (rs : List (Nat × Nat)) : Prop := ∀ r ∈ rs, ∀ d off, scrPlace c r.1 = some (d, off) → (s.coreAt d).clean = true

/-! ## Forms that access memory (R77, R195) -/

/-- A scalar load into one register, its bytes, whether it sign-extends (R77). -/
def loadForms : List ((Reg → Pair → BitVec 24 → Option Pred → Instr) × Nat × Bool) :=
  [(.ldb, 1, true), (.ldbn, 1, false), (.ldh, 2, true), (.ldhn, 2, false), (.ldw, 4, false)]
/-- A scalar store of one register and its bytes (R77). -/
def storeForms : List ((Reg → Pair → BitVec 24 → Option Pred → Instr) × Nat) := [(.stb, 1), (.sth, 2), (.stw, 4)]
/-- An amo form and its operation (R195). -/
def amoForms : List ((AmoArgs → Instr) × AmoOp) :=
  [(.amoAdd, .add), (.amoAnd, .and), (.amoOr, .or), (.amoXor, .xor), (.amoMin, .min), (.amoMax, .max), (.amoMinn, .minn), (.amoMaxn, .maxn),
   (.amoSwap, .swap), (.amoCas, .cas), (.amoFadd, .fadd)]
/-- The byte that a load of the open chunk gets at an offset of the running context's scratchpad: the last held store to it, or memory (R79). -/
def State.byteSeen (s : State) (off : Nat) : Byte := (forward s.chunk.held off).getD (s.core.seenByte off)
/-- The number in `n` bytes there, least significant first. -/
def State.numberSeen (s : State) (off n : Nat) : Nat := ofBytes ((List.range n).map fun i => s.byteSeen (off + i))
/-- The number in `n` bytes at an address whose bytes in memory are these, under the stores that the chunk holds (R79). -/
def State.numberOver (s : State) (ea : Nat) (bs : List Byte) : Nat := ofBytes ((List.range bs.length).map fun i => (forward s.chunk.held (ea + i)).getD (bs.getD i 0))
/-- The firing waits for the data of a load at translated addresses (R79). -/
def State.waitsFor (s : State) (l : LoadWait) : State :=
  { s with core := { s.core with load := some l, status := .answer .load }, agenda := s.agenda ++ [.translatedLoadReturn s.cur] }
/-- `n` bytes of the private alias that the running context may access (R22, R23). -/
def State.Own (s : State) (ea : DWord) (n : Nat) : Prop := ea.toNat % n = 0 ∧ ea.toNat < 0x18000 ∧ s.ctx.base ≤ ea.toNat ∧ ea.toNat + n ≤ s.ctx.base + s.ctx.size
/-- The first cause that R23 gives an access of `n` bytes, none for one that is allowed. -/
def State.cause (s : State) (ea n : Nat) (write : Bool) : Option Byte :=
  if ea % n ≠ 0 then some 0x02
  else if ea < 0x18000 then (if s.ctx.base ≤ ea ∧ ea + n ≤ s.ctx.base + s.ctx.size then none else some 0x03)
  else if 0x100000000 ≤ ea ∧ ea < 0x140000000 then
    let off := ea % 0x20000
    let c := 128 * ((ea - 0x100000000) / 0x1000000) + ea / 0x20000 % 128
    if 0x18000 ≤ off then some 0x03
    else if tileOf c ≠ tileOf s.cur then some 0x04
    else if (s.coreAt c).fenced then some 0x03
    else if (s.coreAt c).ctxs.any fun x => x.prot && x.id != s.ctx.id && decide (off < x.base + x.size ∧ x.base < off + n) then some 0x06 else none
  else if 0x10000000000 ≤ ea ∧ ea < 0x1000000000000 then
    (match s.leafAt s.ctx.vdev ea with
      | none => some 0x05
      | some l => if (if write then l.wr else l.rd) then none else some 0x06)
  else some 0x03
/-- The value that an atomic leaves in its `n` bytes: from the old value, the operand and the replacement of cas (R196). -/
def amoResult (op : AmoOp) (n old v w : Nat) : Nat :=
  match op with
  | .add => (old + v) % 2 ^ (8 * n)
  | .and => old &&& v
  | .or => old ||| v
  | .xor => old ^^^ v
  | .min => if sgn (8 * n) v < sgn (8 * n) old then v else old
  | .max => if sgn (8 * n) old < sgn (8 * n) v then v else old
  | .minn => min old v
  | .maxn => max old v
  | .swap => v
  | .cas => if old = v then w else old
  | .fadd => faddBits (n = 8) old v

end Sys2Proof.Machine
end

