-- ==== Sys2Proof/Certificates/Slice0/Obligations.lean ====
section
/-! DEFINITION. The statements for the provers. -/

open Sys2Proof Sys2Proof.Machine

/-! ## Encoding and the step -/

/-- Words that the spec writes out decode to the instructions they stand for (R40, R60, R64, R78), and the decoding of a table word is that of its
bytes laid out little-endian with zeros above (R3, R39). -/
def Obligations.SpecWordsDecode : Prop :=
  decodeWords [0x04304200] = .ok (.add 3 1 2) 1 ∧ decodeWords [0x04304215] = .ok (.div 3 1 2) 1
    ∧ decodeWords [0x04304019] = .ok (.clz 3 1) 1 ∧ decodeWords [0x04304119] = .illegal 0
    ∧ decodeWords [0x30411111] = .ok (.lui 4 0x11111) 1 ∧ decodeWords [0x10413FFF] = .ok (.addi 4 4 0x3FFF) 1
    ∧ decodeWords [0x2051201F] = .ok (.srai 5 4 31) 1
    ∧ decodeWords [0x804F2004, 0x000C0000] = .ok (.ldw 4 30 0x000C00 none) 2
    ∧ decodeWords [0x804F2004, 0x000C0087] = .ok (.ldw 4 30 0x000C00 (some ⟨false, 7⟩)) 2
    ∧ decodeWords [0x804F2004, 0x000C00C7] = .ok (.ldw 4 30 0x000C00 (some ⟨true, 7⟩)) 2
    ∧ ∀ w : Word, decodeTableWord 32 w.toNat = (match decodeWords (w :: List.replicate 7 0) with
      | .ok i _ => some i
      | .illegal _ => none)

/-- Decoding the words of a well-formed instruction gives it back, whatever follows (R39–R53); the agents' steps have no words. -/
def Obligations.DecodeOfEncode : Prop :=
  ∀ (i : Instr) (rest : List Word), i.wf = true → encode i ≠ [] → decodeWords (encode i ++ rest) = .ok i (encode i).length

/-- What decodes is well formed, and its words are the only ones that give it: a reserved bit that is not zero is refused (R41, R54). -/
def Obligations.DecodedWordsAreItsEncoding : Prop :=
  ∀ (ws : List Word) (i : Instr) (n : Nat), decodeWords ws = .ok i n → i.wf = true ∧ encode i = ws.take n ∧ (encode i).length = n

/-- A turn of the current core whose line is in the configuration cache and whose word decodes runs that instruction on the opened chunk, and
then time passes and the next turn is chosen (R26, R55, R184, R187). -/
def Obligations.StepRunsDecoded : Prop :=
  ∀ (s : State) (i : Instr) (n : Nat), s.turn = .core → s.core.status = .running → s.lineHere = true → decode s.fetched = .ok i n →
    s.windowSpent = false →
    step s = (match exec i s.opened with
      | .next t => .next t.settle
      | r => r)

/-- What traps in the place of an instruction: a word that does not decode traps ILLOP with its first word and the index of the first violating
word (R55), past the end of the image with some value for the first word (free, log 10); and with 256 instructions executed in an open window the
next one traps PRIWIN (R184). -/
def Obligations.TrapsInPlaceOfAnInstruction : Prop :=
  ∀ (s : State), s.turn = .core → s.core.status = .running →
    (∀ k w, s.lineHere = true → decode s.fetched = .illegal k → s.codeWord s.pc.toNat = some w →
      step s = .next (s.opened.trap 0x01 w (BitVec.ofNat 32 k)).settle)
    ∧ (s.ctx.code.length ≤ s.pc.toNat → ∃ x : Word, step s = .next (s.opened.trap 0x01 x 0).settle)
    ∧ ∀ i n, s.lineHere = true → decode s.fetched = .ok i n → s.fir.window = true → s.fir.inTrap = false → 256 ≤ s.fir.wcount →
      step s = .next (s.opened.trap 0x10 0 0).settle

/-- After a start every tile is free, without steward, home or transfer, the drift registers hold their reset values, no context is resident, no
launch and no leaf exists (R250, R251, R256, R308); that global memory lists nothing, so that every byte of it reads as 0, is the model's choice (DESIGN
CHOICE, log 5), no rule's. -/
def Obligations.ResetStateAsStarted : Prop :=
  (∀ t, (State.reset.tileAt t).ter = 0 ∧ (State.reset.tileAt t).size = 0 ∧ (State.reset.tileAt t).mask = 0 ∧ (State.reset.tileAt t).home = false
    ∧ (State.reset.tileAt t).xfer = .none ∧ (State.reset.tileAt t).anchor = false ∧ (State.reset.tileAt t).thaw = 0x80010000)
  ∧ State.reset.driv = 0x20000 ∧ State.reset.drthr = 0x1000 ∧ State.reset.drhold = 4 ∧ State.reset.vacb = 0x100000
  ∧ (∀ c, (State.reset.coreAt c).resident = false ∧ (State.reset.coreAt c).others = [] ∧ (State.reset.coreAt c).clsmsk = 0)
  ∧ State.reset.launches = [] ∧ State.reset.leaves = [] ∧ State.reset.gmem = [] ∧ State.reset.MemOk

/-- Every step keeps the canonical form of global memory and of every scratchpad (DESIGN CHOICE, log 5). -/
def Obligations.StepKeepsMemoriesCanonical : Prop := ∀ (s t : State), s.MemOk → step s = .next t → t.MemOk

/-! ## Registers (R14, R57) -/

/-- A scalar, pair or mask reads what was last written to it; s0, d0 and m0 discard writes and read 0, 0 and all ones; a pair is its two scalars. -/
def Obligations.RegistersReadWhatWasWritten : Prop :=
  ∀ (s : State), (∀ i j v, (s.setS i v).s j = if j = 0 then 0 else if j = i then v else s.s j)
    ∧ (∀ p q v, (s.setD p v).d q = if q = 0 then 0 else if q = p then v else s.d q)
    ∧ (∀ i j v, (s.setM i v).m j = if j = 0 then BitVec.allOnes 64 else if j = i then v else s.m j)
    ∧ (∀ i j v, (s.setV i v).v j = if j = i then v else s.v j)
    ∧ (∀ p, p ≠ 0 → s.d p = s.s (pairHi p) ++ s.s (pairLo p)) ∧ s.s 0 = 0 ∧ s.d 0 = 0 ∧ s.m 0 = BitVec.allOnes 64

/-- Completing an instruction of `w` words counts it in its chunk, whose commit the 512th asks for (R26); where no open level's body ends with it, it moves
the pc past its words and changes no scalar and no level (R55). At the end of an iteration of a level the induction register steps, the count falls, and the
pc goes to the body's start, or past the body with the level closed after the last one (R69, R70). An instruction that ends both bodies ends level 1's
iteration first, and level 0's too only when level 1 closes (R71). -/
def Obligations.CompletionMovesPastOrLoops : Prop :=
  ∀ (s : State) (w : Nat),
    let t := s.retire w
    let past := s.pc + BitVec.ofNat 32 (4 * w)
    let ends (l : Level) : Bool := l.on && decide (l.start.toNat ≤ s.pc.toNat) && decide (s.pc.toNat < l.stop.toNat) && decide (l.stop = past)
    let stepped (l : Level) (x : Reg → Word) (r : Reg) : Word := if r = l.rd ∧ r ≠ 0 then x r + l.stride else x r
    let l0 := s.regs.l0
    let l1 := s.regs.l1
    t.chunk.count = s.chunk.count + 1 ∧ t.core.status = (if 511 ≤ s.chunk.count then .ending .run else s.core.status)
    ∧ (ends l0 = false → ends l1 = false → t.pc = past ∧ t.regs.l0 = l0 ∧ t.regs.l1 = l1 ∧ ∀ r, t.s r = s.s r)
    ∧ (ends l0 = true → ends l1 = false → t.regs.l1 = l1 ∧ (∀ r, t.s r = stepped l0 s.s r)
      ∧ (if l0.count = 1 then t.regs.l0 = .shut ∧ t.pc = past else t.regs.l0 = { l0 with count := l0.count - 1 } ∧ t.pc = l0.start))
    ∧ (ends l1 = true → l1.count ≠ 1 → t.regs.l0 = l0 ∧ t.regs.l1 = { l1 with count := l1.count - 1 } ∧ t.pc = l1.start ∧ ∀ r, t.s r = stepped l1 s.s r)
    ∧ (ends l0 = false → ends l1 = true → l1.count = 1 → t.regs.l0 = l0 ∧ t.regs.l1 = .shut ∧ t.pc = past ∧ ∀ r, t.s r = stepped l1 s.s r)
    ∧ (ends l0 = true → ends l1 = true → l1.count = 1 → t.regs.l1 = .shut ∧ (∀ r, t.s r = stepped l0 (stepped l1 s.s) r)
      ∧ (if l0.count = 1 then t.regs.l0 = .shut ∧ t.pc = past else t.regs.l0 = { l0 with count := l0.count - 1 } ∧ t.pc = l0.start))

/-! ## Scalar instructions (R57–R75) -/

/-- R58: the forms of the INT group but for R59 and R60 complete with their result in rd: a number modulo 2^32, bits, or a count. -/
def Obligations.IntFormsGiveTheirResults : Prop :=
  (∀ f ∈ intForms, ∀ rd ra rb s, exec (f.1 rd ra rb) s = .next ((s.setS rd (BitVec.ofInt 32 (f.2 (s.s ra) (s.s rb)))).retire 1))
  ∧ (∀ f ∈ bitForms, ∀ rd ra rb s, ∃ v : Word, exec (f.1 rd ra rb) s = .next ((s.setS rd v).retire 1)
      ∧ ∀ k, k < 32 → v.getLsbD k = f.2 (s.s ra) (s.s rb) k)
  ∧ (∀ f ∈ unaryForms, ∀ rd ra s, ∃ v : Word, exec (f.1 rd ra) s = .next ((s.setS rd v).retire 1) ∧ ∀ k, k < 32 → v.getLsbD k = f.2 (s.s ra) k)
  ∧ (∀ rd ra s, ∃ n, n ≤ 32 ∧ exec (.clz rd ra) s = .next ((s.setS rd (BitVec.ofNat 32 n)).retire 1)
      ∧ (∀ k, k < n → (s.s ra).getLsbD (31 - k) = false) ∧ (n < 32 → (s.s ra).getLsbD (31 - n) = true))
  ∧ (∀ rd ra s, ∃ n, n ≤ 32 ∧ exec (.ctz rd ra) s = .next ((s.setS rd (BitVec.ofNat 32 n)).retire 1)
      ∧ (∀ k, k < n → (s.s ra).getLsbD k = false) ∧ (n < 32 → (s.s ra).getLsbD n = true))
  ∧ ∀ rd ra s, exec (.popc rd ra) s = .next ((s.setS rd (BitVec.ofNat 32 ((List.range 32).filter fun k => (s.s ra).getLsbD k).length)).retire 1)

/-- R59: division and remainder in each of its cases; in every case a = q·b + r modulo 2^32. -/
def Obligations.DivisionFollowsItsTable : Prop :=
  ∀ (rd ra rb : Reg) (s : State), ∃ q r qn rn : Word,
    exec (.div rd ra rb) s = .next ((s.setS rd q).retire 1) ∧ exec (.rem rd ra rb) s = .next ((s.setS rd r).retire 1)
    ∧ exec (.divn rd ra rb) s = .next ((s.setS rd qn).retire 1) ∧ exec (.remn rd ra rb) s = .next ((s.setS rd rn).retire 1)
    ∧ s.s ra = q * s.s rb + r ∧ s.s ra = qn * s.s rb + rn
    ∧ (if s.s rb = 0 then q = 0xFFFFFFFF ∧ r = s.s ra ∧ qn = 0xFFFFFFFF ∧ rn = s.s ra
       else (if s.s ra = 0x80000000 ∧ s.s rb = 0xFFFFFFFF then q = 0x80000000 ∧ r = 0
             else q.toInt = (s.s ra).toInt.tdiv (s.s rb).toInt ∧ r.toInt = (s.s ra).toInt - q.toInt * (s.s rb).toInt)
         ∧ qn.toNat = (s.s ra).toNat / (s.s rb).toNat ∧ rn.toNat = (s.s ra).toNat - qn.toNat * (s.s rb).toNat)

/-- R60: bfx and bfi with their position, width and mask; a width of 0 gives 0 and leaves the destination; the rule's words of add, div and clz, and of
a clz whose rb is not zero, which is refused. -/
def Obligations.FieldsAreExtractedAndInserted : Prop :=
  ∀ (rd ra rb : Reg) (s : State),
    let a : DWord := (s.s ra).setWidth 64
    let d : DWord := (s.s rd).setWidth 64
    let p := (s.s rb).toNat % 32
    let w := min ((s.s rb).toNat / 256 % 64) 32
    let m : DWord := BitVec.ofNat 64 (2 ^ w - 1)
    exec (.bfx rd ra rb) s = .next ((s.setS rd (((a >>> p) &&& m).setWidth 32)).retire 1)
    ∧ exec (.bfi rd ra rb) s = .next ((s.setS rd (((d &&& ~~~(m <<< p)) ||| ((a &&& m) <<< p)).setWidth 32)).retire 1)
    ∧ (w = 0 → ((a >>> p) &&& m).setWidth 32 = (0 : Word) ∧ ((d &&& ~~~(m <<< p)) ||| ((a &&& m) <<< p)).setWidth 32 = s.s rd)
    ∧ encode (.add 3 1 2) = [0x04304200] ∧ encode (.div 3 1 2) = [0x04304215] ∧ encode (.clz 3 1) = [0x04304019] ∧ decodeWords [0x04304219] = .illegal 0

/-- R61: the PAIR group. -/
def Obligations.PairFormsGiveTheirResults : Prop :=
  (∀ f ∈ pairForms, ∀ rd ra rb s, exec (f.1 rd ra rb) s = .next ((s.setD rd (BitVec.ofInt 64 (f.2 (s.d ra) (s.d rb)))).retire 1))
  ∧ ∀ rd ra rb s, ∃ v : DWord, exec (.dand rd ra rb) s = .next ((s.setD rd v).retire 1)
      ∧ ∀ k, k < 64 → v.getLsbD k = ((s.d ra).getLsbD k && (s.d rb).getLsbD k)

/-- R62: the MISC group but for rand: CYCLE whole, COREID as x, y and package (R21), and moves between a pair and a mask. -/
def Obligations.MiscFormsGiveTheirResults : Prop :=
  ∀ (s : State), (∀ rd, exec (.rdcyc rd) s = .next ((s.setD rd s.cycle).retire 1))
    ∧ (∀ rd, s.cur < 8192 → exec (.rdid rd) s
        = .next ((s.setS rd (BitVec.ofNat 32 (s.cur % 128 + 2 ^ 7 * (s.cur / 128) + 2 ^ 13 * Config.package.toNat))).retire 1))
    ∧ (∀ md ra, exec (.mvsm md ra) s = .next ((s.setM md (s.d ra)).retire 1))
    ∧ ∀ rd ma, exec (.mvms rd ma) s = .next ((s.setD rd (s.m ma)).retire 1)

/-- R63: one step of the generator, whose new value goes to SEED and to rd. -/
def Obligations.RandStepsTheGenerator : Prop :=
  ∀ (rd : Reg) (s : State),
    let x0 : Word := if s.prog.seed = 0 then 0x6D2B79F5 else s.prog.seed
    let x1 := x0 ^^^ (x0 <<< 13)
    let x2 := x1 ^^^ (x1 >>> 17)
    let x3 := x2 ^^^ (x2 <<< 5)
    exec (.rand rd) s = .next (((s.setProg { s.prog with seed := x3 }).setS rd x3).retire 1)

/-- R64: the immediate forms. -/
def Obligations.ImmediateFormsGiveTheirResults : Prop :=
  (∀ f ∈ immForms, ∀ rd ra i s, exec (f.1 rd ra i) s = .next ((s.setS rd (BitVec.ofInt 32 (f.2 (s.s ra) i))).retire 1))
  ∧ (∀ f ∈ immBitForms, ∀ rd ra i s, ∃ v : Word, exec (f.1 rd ra i) s = .next ((s.setS rd v).retire 1) ∧ ∀ k, k < 32 → v.getLsbD k = f.2 (s.s ra) i k)
  ∧ (∀ f ∈ shiftForms, ∀ rd ra n s, exec (f.1 rd ra n) s = .next ((s.setS rd (BitVec.ofInt 32 (f.2 (s.s ra) n.toNat))).retire 1))
  ∧ (∀ rd ra i s, exec (.daddi rd ra i) s = .next ((s.setD rd (BitVec.ofInt 64 ((s.d ra).toInt + i.toInt))).retire 1))
  ∧ (∀ rd i s, exec (.lui rd i) s = .next ((s.setS rd (BitVec.ofNat 32 (4096 * i.toNat))).retire 1))
  ∧ ∀ rd i s, exec (.li rd i) s = .next ((s.setS rd (BitVec.ofInt 32 i.toInt)).retire 1)

/-- R66, R56: a conditional branch goes to pc + 4·offset when its condition holds and the target lies in the code image, goes on when it does not
hold, and traps ACCESS with the target in TVALL when the target lies outside. -/
def Obligations.BranchesGoWhereTheySay : Prop :=
  (∀ f ∈ branchForms, ∀ ra rb o s,
    let to' := s.pc + BitVec.ofInt 32 (4 * o.toInt)
    exec (f.1 ra rb o) s = .next (if f.2 (s.s ra) (s.s rb) then
      (if to'.toNat < s.ctx.code.length then s.retireTo to' true else s.trap 0x03 to' 0) else s.retire 1))
  ∧ ∀ (ra : Reg) (o : BitVec 20) (s : State),
    let to' := s.pc + BitVec.ofInt 32 (4 * o.toInt)
    let go := if to'.toNat < s.ctx.code.length then s.retireTo to' true else s.trap 0x03 to' 0
    exec (.bz ra o) s = .next (if s.s ra = 0 then go else s.retire 1) ∧ exec (.bnz ra o) s = .next (if s.s ra = 0 then s.retire 1 else go)

/-- R67, R56: the jumps and their links; a target outside the image traps ACCESS and a jr or jalr target that is no multiple of 4 traps ALIGN,
with no link written; that a target which is both traps ALIGN is the model's choice (DESIGN CHOICE, log 60). jalr reads its target before it writes the link. R70: a taken branch, j or jr out of level 0's body closes both levels, and
jal and jalr close none. -/
def Obligations.JumpsGoAndLink : Prop :=
  (∀ (s : State), (∀ o : BitVec 26,
      let to' := s.pc + BitVec.ofInt 32 (4 * o.toInt)
      exec (.j o) s = .next (if to'.toNat < s.ctx.code.length then s.retireTo to' true else s.trap 0x03 to' 0)
      ∧ exec (.jal o) s = .next (if to'.toNat < s.ctx.code.length then (s.setS 63 (s.pc + 4)).retireTo to' false else s.trap 0x03 to' 0))
    ∧ ∀ ra rd, let t := s.s ra
      exec (.jr ra) s = .next (if t.toNat % 4 ≠ 0 then s.trap 0x02 t 0 else if t.toNat < s.ctx.code.length then s.retireTo t true else s.trap 0x03 t 0)
      ∧ exec (.jalr rd ra) s = .next (if t.toNat % 4 ≠ 0 then s.trap 0x02 t 0
          else if t.toNat < s.ctx.code.length then (s.setS rd (s.pc + 4)).retireTo t false else s.trap 0x03 t 0))
  ∧ ∀ (r : Regs) (to' : Word), (r.jump to' true).pc = to' ∧ (r.jump to' false).pc = to' ∧ (r.jump to' false).l0 = r.l0 ∧ (r.jump to' false).l1 = r.l1
    ∧ (r.l0.on = true → r.l0.holds to' = false → (r.jump to' true).l0 = .shut ∧ (r.jump to' true).l1 = .shut)
    ∧ (r.l0.holds to' = true → (r.jump to' true).l0 = r.l0) ∧ ∀ i, (r.jump to' true).getS i = r.getS i

/-- R68, R69, R71, R56: loop with a step that is not 0 and a body in the image opens level 0, or level 1 inside it, with the exact trip count, and goes
past its body when that is 0, to a place inside the image. A step of 0 traps ILLOP, a body that leaves the image or a place past it ACCESS, and a level
too many or one that reaches beyond level 0 NEST; where a body that leaves the image meets a level too many, ACCESS is the model's choice (DESIGN CHOICE, log 60), and so is that a loop opens level 0 where
level 0 is shut and level 1 still open (DESIGN CHOICE, log 68). A loop of no trips ends no iteration of level 0 (DESIGN CHOICE, log 76). -/
def Obligations.LoopOpensWithItsTripCount : Prop :=
  ∀ (rd ra rb : Reg) (fn : Byte) (s : State), (s.s rb = 0 → ∃ w, exec (.loop rd ra rb fn) s = .next (s.trap 0x01 w 0))
    ∧ (s.s rb ≠ 0 → s.bodyEnd (fn.toNat + 1) (s.pc.toNat + 4) = none → exec (.loop rd ra rb fn) s = .next (s.trap 0x03 (BitVec.ofNat 32 s.ctx.code.length) 0))
    ∧ ∀ e : Nat, s.s rb ≠ 0 → s.bodyEnd (fn.toNat + 1) (s.pc.toNat + 4) = some e →
    let l (n : Nat) : Level := ⟨BitVec.ofNat 32 n, s.pc + 4, BitVec.ofNat 32 e, rd, s.s rb, true⟩
    (s.regs.l0.on = true → (s.regs.l1.on = true ∨ s.regs.l0.stop.toNat < e) → ∃ w, exec (.loop rd ra rb fn) s = .next (s.trap 0x0F w 0))
    ∧ ((s.regs.l0.on = false ∨ s.regs.l1.on = false ∧ e ≤ s.regs.l0.stop.toNat) → ∃ n : Nat, (if 0 < (s.s rb).toInt then
          (n : Int) * (s.s rb).toInt < (s.s ra).toInt - (s.s rd).toInt + (s.s rb).toInt ∧ (s.s ra).toInt - (s.s rd).toInt ≤ (n : Int) * (s.s rb).toInt
            ∨ n = 0 ∧ (s.s ra).toInt ≤ (s.s rd).toInt
        else (n : Int) * -(s.s rb).toInt < (s.s rd).toInt - (s.s ra).toInt - (s.s rb).toInt ∧ (s.s rd).toInt - (s.s ra).toInt ≤ (n : Int) * -(s.s rb).toInt
            ∨ n = 0 ∧ (s.s rd).toInt ≤ (s.s ra).toInt)
      ∧ (n = 0 → s.ctx.code.length ≤ (BitVec.ofNat 32 e).toNat → exec (.loop rd ra rb fn) s = .next (s.trap 0x03 (BitVec.ofNat 32 e) 0))
      ∧ ((n ≠ 0 ∨ (BitVec.ofNat 32 e).toNat < s.ctx.code.length) → ∃ t, exec (.loop rd ra rb fn) s = .next t ∧ (∀ r, t.s r = s.s r)
        ∧ (if n = 0 then t.pc = BitVec.ofNat 32 e ∧ t.regs.l0 = s.regs.l0 ∧ t.regs.l1 = s.regs.l1
           else t.pc = s.pc + 4 ∧ t.regs.l0 = (if s.regs.l0.on then s.regs.l0 else l n) ∧ t.regs.l1 = (if s.regs.l0.on then l n else s.regs.l1))))

/-- R75: nstnxt counts down and steps the indices in mixed radix; at 0 it changes nothing. -/
def Obligations.NestNextSteps : Prop :=
  ∀ (rd : Reg) (s : State),
    let j (i : Nat) : Word := vget s.regs.j i 0
    let e (i : Nat) : Word := (vget s.regs.ext i 1).setWidth 32
    let c0 := j 0 + 1 = e 0
    let j1 := if c0 then j 1 + 1 else j 1
    let j2 := if j1 = e 1 then j 2 + 1 else j 2
    let j3 := if j2 = e 2 then j 3 + 1 else j 3
    (s.s rd = 0 → exec (.nstnxt rd) s = .next (s.retire 1))
    ∧ (s.s rd ≠ 0 → exec (.nstnxt rd) s = .next (((s.setRegs { s.regs with
        j := #v[if c0 then 0 else j 0 + 1, if j1 = e 1 then 0 else j1, if j2 = e 2 then 0 else j2, if j3 = e 3 then 0 else j3] }).setS rd (s.s rd - 1)).retire 1))

/-! ## Frames -/

/-- What a register-only scalar or mask form changes: its destination, the induction registers of open loops, the pc, the counts of its chunk, and
for a mask form the flags that a comparison accrues; nothing else, and no byte of memory (R14, R69, R70, R87). -/
def Obligations.ScalarAndMaskFormsChangeOnlyTheirDestination : Prop :=
  ∀ (i : Instr) (s t : State), exec i s = .next t →
    (∀ ds, scalarDest i = some ds → (∀ r, r ∉ ds → r ∉ s.loopRegs → t.s r = s.s r) ∧ (∀ m, t.m m = s.m m) ∧ t.regs.v0 = s.regs.v0
      ∧ t.ctx = s.ctx ∧ s.SameRest t)
    ∧ (∀ d, maskDest i = some d → (∀ r, r ∉ s.loopRegs → t.s r = s.s r) ∧ (∀ m, m ≠ d → t.m m = s.m m) ∧ t.regs.v0 = s.regs.v0
      ∧ t.ctx = { s.ctx with prog := { s.prog with fflags := t.prog.fflags } } ∧ s.prog.fflags &&& t.prog.fflags = s.prog.fflags ∧ s.SameRest t)

/-- What a register-only vector form changes: its destination, FFLAGS, to which bits only accrue, SEED, the induction registers of open loops, the
pc and the counts of its chunk; nothing else, and no byte of memory (R69, R70, R93, R112). -/
def Obligations.VectorFormsChangeOnlyTheirDestination : Prop :=
  ∀ (i : Instr) (d : Reg) (s t : State), vectorDest i = some d → exec i s = .next t →
    (∀ r, r ≠ d → t.v r = s.v r) ∧ (∀ r, r ∉ s.loopRegs → t.s r = s.s r) ∧ (∀ m, t.m m = s.m m)
    ∧ t.ctx = { s.ctx with prog := { s.prog with v := t.prog.v, fflags := t.prog.fflags, seed := t.prog.seed } }
    ∧ s.prog.fflags &&& t.prog.fflags = s.prog.fflags ∧ s.SameRest t

/-! ## Vector instructions (R112–R123) -/

/-- R114: the integer and bitwise forms, lane by lane; inactive lanes keep their values. -/
def Obligations.VectorIntegerFormsGiveTheirLanes : Prop :=
  (∀ f ∈ vecIntForms, ∀ vd va vb m t (s : State), VTy.isFloat t = false →
    s.WritesLanes (f.1 vd va vb m t) vd m (tyWidth t) (tyLanes t) fun k => f.2 t (lane (s.v va) (tyWidth t) k) (lane (s.v vb) (tyWidth t) k))
  ∧ ∀ f ∈ vecBitForms, ∀ vd va vb m t (s : State), ∃ v : Vec, exec (f.1 vd va vb m t) s = .next ((s.setV vd v).retire 1)
      ∧ ∀ i, i < tyLanes t → if (s.m m).getLsbD i then ∀ k, k < tyWidth t →
            (lane v (tyWidth t) i).testBit k = f.2 t (lane (s.v va) (tyWidth t) i) (lane (s.v vb) (tyWidth t) i) k
          else lane v (tyWidth t) i = lane (s.v vd) (tyWidth t) i

/-- R112, R114–R117: a floating form rounds the exact result of each active lane once, under FRM, with the draw of its turn in mode 4; the flags of
the active lanes accrue, and SEED moves on by one draw an active lane. vmin, vmax, vabs and vneg round nothing and draw nothing. -/
def Obligations.VectorFloatingFormsRoundOnce : Prop :=
  (∀ f ∈ vecFpForms, ∀ vd va vb m t (s : State), VTy.isFloat t = true →
    let r (i : Nat) := (f.2 s.mode (fpLane t (s.v va) i) (fpLane t (s.v vb) i) (fpLane t (s.v vd) i)).into (tyFmt t) s.mode
      (drawAt s.prog.seed (activeBefore (s.m m) i))
    ∃ (v : Vec) (fl : Flags), exec (f.1 vd va vb m t) s = .next ((((s.setV vd v).flag fl).drawn s.mode (activeBefore (s.m m) (tyLanes t))).retire 1)
      ∧ (∀ i, i < tyLanes t → lane v (tyWidth t) i = if (s.m m).getLsbD i then (r i).1 % 2 ^ tyWidth t else lane (s.v vd) (tyWidth t) i)
      ∧ ∀ k, fl.getLsbD k = true ↔ ∃ i, i < tyLanes t ∧ (s.m m).getLsbD i = true ∧ (r i).2.getLsbD k = true)
  ∧ ∀ f ∈ vecPickForms, ∀ vd va vb m t (s : State), VTy.isFloat t = true →
    let r (i : Nat) := (f.2 (fpLane t (s.v va) i) (fpLane t (s.v vb) i)).into (tyFmt t) .rne 0
    ∃ (v : Vec) (fl : Flags), exec (f.1 vd va vb m t) s = .next (((s.setV vd v).flag fl).retire 1)
      ∧ (∀ i, i < tyLanes t → lane v (tyWidth t) i = if (s.m m).getLsbD i then (r i).1 % 2 ^ tyWidth t else lane (s.v vd) (tyWidth t) i)
      ∧ ∀ k, fl.getLsbD k = true ↔ ∃ i, i < tyLanes t ∧ (s.m m).getLsbD i = true ∧ (r i).2.getLsbD k = true

/-- R118: a comparison sets the bit of an active lane where its relation holds and clears every other bit; NV is set for the NaNs it names.
R123: the mask operations, and mpop over all 64 bits. -/
def Obligations.ComparesAndMaskFormsGiveTheirBits : Prop :=
  (∀ f ∈ compareForms, ∀ md va vb m t (s : State), ∃ (v : DWord) (fl : Flags), exec (f.1 md va vb m t) s = .next (((s.setM md v).flag fl).retire 1)
    ∧ (∀ i, i < 64 → (v.getLsbD i = true ↔ i < tyLanes t ∧ (s.m m).getLsbD i = true ∧
        (if VTy.isFloat t then
          (if (fpLane t (s.v va) i).isNan || (fpLane t (s.v vb) i).isNan then f.2.2.2.1 = true else f.2.2.1 (cmpV (fpLane t (s.v va) i) (fpLane t (s.v vb) i)))
         else f.2.1 (intLane t (lane (s.v va) (tyWidth t) i)) (intLane t (lane (s.v vb) (tyWidth t) i)))))
    ∧ ((fl = fNV ∨ fl = 0) ∧ (fl = fNV ↔ VTy.isFloat t = true ∧ ∃ i, i < tyLanes t ∧ (s.m m).getLsbD i = true ∧
        (if f.2.2.2.2 then (fpLane t (s.v va) i).isSig || (fpLane t (s.v vb) i).isSig else (fpLane t (s.v va) i).isNan || (fpLane t (s.v vb) i).isNan) = true)))
  ∧ (∀ md ma mb (s : State), exec (.mand md ma mb) s = .next ((s.setM md (s.m ma &&& s.m mb)).retire 1)
      ∧ exec (.mor md ma mb) s = .next ((s.setM md (s.m ma ||| s.m mb)).retire 1) ∧ exec (.mxor md ma mb) s = .next ((s.setM md (s.m ma ^^^ s.m mb)).retire 1))
  ∧ ∀ rd ma (s : State), exec (.mpop rd ma) s = .next ((s.setS rd (BitVec.ofNat 32 ((List.range 64).filter fun k => (s.m ma).getLsbD k).length)).retire 1)

/-- R119, R120, R92, R112, R88: a conversion completes with each active lane that has a source lane clamped between integers, OF set when and only when one of them
clamps, rounded once to a floating type, or rounded to an integer, NV where it is a NaN or clamps; lanes past the source are zero. vqnt writes the least scale
that holds its active lanes into byte 63, each active lane's code under it packed from byte 0 on, zeros in every other byte, and the flags of the lanes, OF
where no scale holds them. vdqnt gives the exact product of each code with the scale, zero under a scale of 0. vamax keeps the greater magnitude: a NaN in va
leaves the lane, a NaN in vd gives way. In mode 4 each active destination lane of a conversion that rounds takes a draw, one without a source lane too, and
none is taken between integers (DEDUCED, log 44). -/
def Obligations.ConversionsAndQuantisersComplete : Prop :=
  (∀ vd va dst m t (s : State),
    let on (i : Nat) : Prop := i < tyLanes dst ∧ i < tyLanes t ∧ (s.m m).getLsbD i = true
    let x (i : Nat) : Nat := lane (s.v va) (tyWidth t) i
    let draw (i : Nat) : Nat := drawAt s.prog.seed (activeBefore (s.m m) i)
    ∃ (v : Vec) (fl : Flags), exec (.vcvt vd va dst m t) s
        = .next ((((s.setV vd v).flag fl).drawn s.mode (if VTy.isFloat t || VTy.isFloat dst then activeBefore (s.m m) (tyLanes dst) else 0)).retire 1)
      ∧ (∀ i, i < tyLanes dst → (s.m m).getLsbD i = false → lane v (tyWidth dst) i = lane (s.v vd) (tyWidth dst) i)
      ∧ (∀ i, i < tyLanes dst → (s.m m).getLsbD i = true → tyLanes t ≤ i → lane v (tyWidth dst) i = 0)
      ∧ (VTy.isFloat dst = true → (∀ i, on i → lane v (tyWidth dst) i = (toFloat s.mode (draw i) t dst (x i)).1 % 2 ^ tyWidth dst)
        ∧ ∀ k, fl.getLsbD k = true ↔ ∃ i, on i ∧ (toFloat s.mode (draw i) t dst (x i)).2.getLsbD k = true)
      ∧ (VTy.isFloat dst = false → VTy.isFloat t = true →
        (∀ i, on i → intLane dst (lane v (tyWidth dst) i) = (toInteger s.mode (draw i) dst (fpLane t (s.v va) i)).1)
        ∧ ∀ k, fl.getLsbD k = true ↔ ∃ i, on i ∧ (toInteger s.mode (draw i) dst (fpLane t (s.v va) i)).2.getLsbD k = true)
      ∧ (VTy.isFloat dst = false → VTy.isFloat t = false → (∀ i, on i → intLane dst (lane v (tyWidth dst) i) = clampTo dst (intLane t (x i)))
        ∧ (fl = fOF ∨ fl = 0) ∧ (fl = fOF ↔ ∃ i, on i ∧ clampTo dst (intLane t (x i)) ≠ intLane t (x i))))
  ∧ (∀ vd va (fmt : BitVec 4) f m (s : State), fmt ≠ 0 → Fmt.ofCode fmt = some f →
    let on (i : Nat) : Bool := (s.m m).getLsbD i
    let x (i : Nat) : FVal := fpLane .f32 (s.v va) i
    let live := ((List.range 16).filter on).map x
    let code (c i : Nat) : Nat × Flags := scaledCode f s.mode 1 0 c (x i) (drawAt s.prog.seed (activeBefore (s.m m) i))
    (∃ (v : Vec) (fl : Flags) (c : Nat), exec (.vqnt vd va fmt m) s = .next ((((s.setV vd v).flag fl).drawn s.mode (activeBefore (s.m m) 16)).retire 1)
      ∧ lane v 8 63 = c ∧ ScaleFor f 1 0 live c
      ∧ (∀ i, i < 16 → lane v f.bits i = if on i then (code c i).1 % 2 ^ f.bits else 0) ∧ (∀ j, 2 * f.bits ≤ j → j < 63 → lane v 8 j = 0)
      ∧ ∀ k, fl.getLsbD k = true ↔ (k = 2 ∧ ∃ a ∈ live, beyondScales f 1 0 a = true) ∨ ∃ i, i < 16 ∧ on i = true ∧ (code c i).2.getLsbD k = true)
    ∧ ∃ v : Vec, exec (.vdqnt vd va fmt m) s = .next ((s.setV vd v).retire 1)
      ∧ ∀ i, i < 16 → lane v 32 i = if on i = false then lane (s.v vd) 32 i else
        let c := lane (s.v va) 8 63
        if c = 0 then 0 else Fmt.f32.encode (mulV (f.value (lane (s.v va) f.bits i)) (.fin false (scaleMag c).1 (scaleMag c).2)).v % 2 ^ 32)
  ∧ ∀ vd va m t (s : State), VTy.isFloat t = true → ∃ v : Vec, exec (.vamax vd va m t) s = .next ((s.setV vd v).retire 1)
      ∧ ∀ i, i < tyLanes t →
        let a := fpLane t (s.v va) i
        let d := fpLane t (s.v vd) i
        lane v (tyWidth t) i = if (s.m m).getLsbD i = false ∨ a.isNan = true then lane (s.v vd) (tyWidth t) i
          else if d.isNan = true ∨ cmpV d a.abs = .lt ∨ cmpV d a.abs = .eq ∧ d.neg = true then (tyFmt t).encode a.abs % 2 ^ tyWidth t
          else lane (s.v vd) (tyWidth t) i

/-- R121, R112, R83: the reductions write lane 0 and clear the others; a floating vrsum, vrmax or vrmin takes a draw for each active lane. Lane 0 of a floating
one is the tree's combination of the active lanes, pair by pair and level by level, each sum rounded once under FRM with the draw of its turn, a NaN as
the default NaN; the flags are those of the combinations, NV too for a signalling lane. On integers vrsum is the sum of the active lanes modulo 2^w; vrmax and
vrmin are the greatest and the least of them, and without any the least and the greatest integer of the type; vramax combines magnitudes. -/
def Obligations.ReductionsCombineTheActiveLanes : Prop :=
  ∀ (vd va : Reg) (m : MReg) (t : VTy) (s : State),
    let n := tyLanes t
    let w := tyWidth t
    let f := tyFmt t
    let act := (List.range n).filter fun i => (s.m m).getLsbD i
    let x (i : Nat) : Int := intLane t (lane (s.v va) w i)
    let up (v : Vec) : Prop := ∀ i, 0 < i → i < n → lane v w i = 0
    let draws := if VTy.isFloat t then activeBefore (s.m m) n else 0
    let tree (comb : Nat → Nat → Nat → Option Nat × Flags) := redAt comb (fun i => (s.m m).getLsbD i) (fun i => lane (s.v va) w i) n n.log2 0
    let out (empty : Nat) (r : Option Nat) : Nat := (if VTy.isFloat t && (f.value (r.getD empty)).isNan then f.nanMag.getD 0 else r.getD empty) % 2 ^ w
    let sig : Flags := if act.any fun i => (fpLane t (s.v va) i).isSig then fNV else 0
    let some' (r : Nat × Flags) : Option Nat × Flags := (some r.1, r.2)
    let sum (k a b : Nat) := some' ((addV s.mode (f.value a) (f.value b)).into f s.mode (drawAt s.prog.seed k))
    let pick (mx : Bool) (_ a b : Nat) := some' ((minmaxV mx (f.value a) (f.value b)).into f .rne 0)
    let mag (_ a b : Nat) : Option Nat × Flags :=
      (if VTy.isFloat t then (match (f.value a).isNan, (f.value b).isNan with
        | true, true => none
        | true, false => some (f.encode (f.value b).abs)
        | false, true => some (f.encode (f.value a).abs)
        | false, false => some (f.encode (if cmpV (f.value a).abs (f.value b).abs = .lt then (f.value b).abs else (f.value a).abs)))
       else some (max (sgn w a).natAbs (sgn w b).natAbs), 0)
    (∃ (v : Vec) (fl : Flags), exec (.vrsum vd va m t) s = .next ((((s.setV vd v).flag fl).drawn s.mode draws).retire 1) ∧ up v
      ∧ (VTy.isFloat t = true → lane v w 0 = out 0 (tree sum).1 ∧ fl = (tree sum).2 ||| sig)
      ∧ (VTy.isFloat t = false → fl = 0 ∧ (lane v w 0 : Int) = (act.map x).sum % 2 ^ w))
    ∧ (∃ (v : Vec) (fl : Flags), exec (.vrmax vd va m t) s = .next ((((s.setV vd v).flag fl).drawn s.mode draws).retire 1) ∧ up v
      ∧ (VTy.isFloat t = true → lane v w 0 = out (f.sign true + f.infMag) (tree (pick true)).1 ∧ fl = (tree (pick true)).2 ||| sig)
      ∧ (VTy.isFloat t = false → fl = 0 ∧ (act = [] → intLane t (lane v w 0) = minInt t)
        ∧ (act ≠ [] → (∃ i ∈ act, intLane t (lane v w 0) = x i) ∧ ∀ i ∈ act, x i ≤ intLane t (lane v w 0))))
    ∧ (∃ (v : Vec) (fl : Flags), exec (.vrmin vd va m t) s = .next ((((s.setV vd v).flag fl).drawn s.mode draws).retire 1) ∧ up v
      ∧ (VTy.isFloat t = true → lane v w 0 = out f.infMag (tree (pick false)).1 ∧ fl = (tree (pick false)).2 ||| sig)
      ∧ (VTy.isFloat t = false → fl = 0 ∧ (act = [] → intLane t (lane v w 0) = maxInt t)
        ∧ (act ≠ [] → (∃ i ∈ act, intLane t (lane v w 0) = x i) ∧ ∀ i ∈ act, intLane t (lane v w 0) ≤ x i)))
    ∧ ∃ (v : Vec) (fl : Flags), exec (.vramax vd va m t) s = .next (((s.setV vd v).flag fl).retire 1) ∧ up v
      ∧ lane v w 0 = out 0 (tree mag).1 ∧ (VTy.isFloat t = false → fl = 0) ∧ (VTy.isFloat t = true → fl = sig)

/-- R122: the lane moves. A lane number counts modulo the lanes; a slide takes its whole count. -/
def Obligations.LaneMovesGiveTheirLanes : Prop :=
  ∀ (vd va vb rb : Reg) (m : MReg) (t : VTy) (s : State),
    let w := tyWidth t
    let n := tyLanes t
    let a (i : Nat) : Int := lane (s.v va) w i
    let k := (s.s rb).toNat
    let src : Int := if t = .f64 then (s.d (va.setWidth 5)).toNat else (s.s va).toNat
    s.WritesLanes (.vsplat vd va m t) vd m w n (fun _ => src)
    ∧ s.WritesLanes (.vins vd va rb m t) vd m w n (fun i => if i = k % n then src else lane (s.v vd) w i)
    ∧ s.WritesLanes (.vperm vd va vb m t) vd m w n (fun i => a (lane (s.v vb) w i % n))
    ∧ s.WritesLanes (.vslu vd va rb m t) vd m w n (fun i => if k ≤ i then a (i - k) else 0)
    ∧ s.WritesLanes (.vsld vd va rb m t) vd m w n (fun i => if i + k < n then a (i + k) else 0)
    ∧ s.WritesLanes (.vbcl vd va rb m t) vd m w n (fun _ => a (k % n))
    ∧ (∃ v : Vec, exec (.vsel vd va vb m t) s = .next ((s.setV vd v).retire 1)
      ∧ ∀ i, i < n → lane v w i = if (s.m m).getLsbD i then lane (s.v va) w i else lane (s.v vb) w i)
    ∧ exec (.vext vd va rb t) s = .next (if t = .f64 then (s.setD (vd.setWidth 5) (BitVec.ofInt 64 (a (k % n)))).retire 1
      else (s.setS vd (BitVec.ofInt 32 (if t = .i16 ∨ t = .i8 then sgn w (lane (s.v va) w (k % n)) else a (k % n)))).retire 1)

/-! ## Loads and stores (R77–R80, R125–R127) -/

/-- R77, R79, R126: a scalar load that passes its checks gives the bytes of its address under the stores that its chunk holds, zero- or sign-extended, and moves
past its two words. In the running context's scratchpad, with no stored error to disturb it, they are the bytes that the core's private port sees, which may be
of released stores not yet performed or of before another's write (log 56); at a global alias those of the owner's scratchpad, whose words enter the read
signature; the read may raise the wait counts of the banks' parity groups (R131). A word that a granted commit is still to write keeps the load waiting. A load at a translated address waits for its data, whose return gives
the bytes of global memory there to its destination. -/
def Obligations.LoadsGiveTheBytesSeen : Prop :=
  (∀ (s : State) (base : Pair) (off : BitVec 24) (p : Option Pred), s.pred p = true →
    let ea := s.ea base off
    let value (sg : Bool) (n x : Nat) : Word := if sg then BitVec.ofInt 32 (sgn (8 * n) x) else BitVec.ofNat 32 x
    (s.core.clean = true →
      (∀ f ∈ loadForms, ∀ rt, s.Own ea f.2.1 →
        ∃ u, s.Alike u ∧ exec (f.1 rt base off p) s = .next ((u.setS rt (value f.2.2 f.2.1 (s.numberSeen ea.toNat f.2.1))).retire 2))
      ∧ ∀ rt, s.Own ea 8 → ∃ u, s.Alike u ∧ exec (.ldd rt base off p) s = .next ((u.setD rt (BitVec.ofNat 64 (s.numberSeen ea.toNat 8))).retire 2))
    ∧ (∀ c o, place ea.toNat = .glob c o → (s.coreAt c).clean = true →
      let seen (n : Nat) : Nat := s.numberOver ea.toNat ((s.coreAt c).mem.read o n)
      (∀ f ∈ loadForms, ∀ rt, s.cause ea.toNat f.2.1 false = none → if s.busy ea.toNat f.2.1 then exec (f.1 rt base off p) s = .next s
        else ∃ u, s.Alike u ∧ exec (f.1 rt base off p) s = .next (((u.noteRead ea.toNat f.2.1).setS rt (value f.2.2 f.2.1 (seen f.2.1))).retire 2))
      ∧ ∀ rt, s.cause ea.toNat 8 false = none → if s.busy ea.toNat 8 then exec (.ldd rt base off p) s = .next s
        else ∃ u, s.Alike u ∧ exec (.ldd rt base off p) s = .next (((u.noteRead ea.toNat 8).setD rt (BitVec.ofNat 64 (seen 8))).retire 2))
    ∧ (inTrans ea.toNat = true →
      (∀ f ∈ loadForms, ∀ rt, s.cause ea.toNat f.2.1 false = none → exec (f.1 rt base off p) s = .next (s.waitsFor ⟨.scalar f.2.2, rt, none, [(ea, 0, f.2.1)]⟩))
      ∧ ∀ rt, s.cause ea.toNat 8 false = none → exec (.ldd rt base off p) s = .next (s.waitsFor ⟨.pair, pairLo rt, none, [(ea, 0, 8)]⟩)))
  ∧ ∀ (s : State) (ea : DWord) (n : Nat) (rt : Reg) (bs : List Byte), s.cur < 8192 → s.core.status = .answer .load → inTrans ea.toNat = true → s.dataComes ea.toNat = true →
    s.vread s.ctx.vdev ea.toNat n = .ok bs →
    let x := s.numberOver ea.toNat bs
    let back : State := { s with core := { s.core with load := none, status := .running } }
    (∀ sg, s.core.load = some ⟨.scalar sg, rt, none, [(ea, 0, n)]⟩ → exec (.translatedLoadReturn s.cur) s
      = .next ((back.setS rt (if sg then BitVec.ofInt 32 (sgn (8 * n) x) else BitVec.ofNat 32 x)).retire 2))
    ∧ (s.core.load = some ⟨.pair, rt, none, [(ea, 0, n)]⟩ → exec (.translatedLoadReturn s.cur) s = .next ((back.setD (BitVec.ofNat 5 (rt.toNat / 2)) (BitVec.ofNat 64 x)).retire 2))

/-- R26, R77, R79: a store that passes its checks and fits the store buffer completes, held in its chunk: its address is the effective address, its bytes the
low ones of its register, the least significant first; a translated address is held with the place in global memory that its write translates to. No byte
of memory and no register but the pc and an open loop's induction register changes. One that does not fit ends the chunk before itself. -/
def Obligations.StoresAreHeldAtTheirAddress : Prop :=
  ∀ (s : State) (base : Pair) (off : BitVec 24) (p : Option Pred), s.pred p = true →
    let ea := s.ea base off
    let key := if inTrans ea.toNat then (s.xlate s.ctx.vdev ea.toNat true).toOption else none
    let holds (i : Instr) (bs : List Byte) : Prop := s.cause ea.toNat bs.length true = none →
      (s.chunk.stbuf < 128 → ∃ t, exec i s = .next t ∧ t.chunk.held = s.chunk.held ++ [.store ea key bs false s.pc]
        ∧ t.chunk.stbuf = s.chunk.stbuf + 1 ∧ s.SameMemory t ∧ t.ctx = s.ctx ∧ (∀ r, r ∉ s.loopRegs → t.s r = s.s r) ∧ ∀ m, t.m m = s.m m)
      ∧ (128 ≤ s.chunk.stbuf → exec i s = .next (s.endChunk .run))
    (∀ f ∈ storeForms, ∀ rt, holds (f.1 rt base off p) (leBytes f.2 (s.s rt).toNat)) ∧ ∀ rt, holds (.std rt base off p) (leBytes 8 (s.d rt).toNat)

/-- R230, R231, R234, R237, R302: what a commit performs of a held store: exactly its bytes change, at the scratchpad address it was held for. A global-alias
store is performed at once; a private-alias one goes into the core's port, whose loads see its bytes, and reaches its bank when the port is drained
(log 56); the commit is complete when both kinds stand in memory. At a translated address they are written at its place in global memory, unless its page is under protection, when they wait. -/
def Obligations.StoresChangeExactlyTheirBytes : Prop :=
  (∀ (s : State) (c d off : Nat) (ea : DWord) (bs : List Byte) (rows : Bool) (pc : Word), s.MemOk → scrPlace c ea.toNat = some (d, off) →
    let t := s.performStore c ea none bs rows pc
    (0x18000 ≤ ea.toNat → t.Holds d off bs ∧ s.SameOutside t d off bs.length)
    ∧ (ea.toNat < 0x18000 → s.SameMemory t ∧ (∀ i, i < bs.length → (t.coreAt c).seenByte (off + i) = bs.getD i 0)
      ∧ ((s.coreAt c).port = [] → (t.drain c).Holds d off bs ∧ s.SameOutside (t.drain c) d off bs.length)))
  ∧ (∀ (s : State) (c d off : Nat) (ea : DWord) (bs : List Byte) (rows : Bool) (pc : Word), s.MemOk → c < 8192 → scrPlace c ea.toNat = some (d, off) →
    (s.coreAt c).status = .granted .run → (s.coreAt c).fir.chunk.held = [.store ea none bs rows pc] → (s.tileAt (tileOf c)).granted = [localOf c] →
    ∃ t, exec (.commitComplete c) s = .next t ∧ (t.coreAt c).status = .running ∧ (t.coreAt c).fir.chunk = .fresh ∧ localOf c ∉ (t.tileAt (tileOf c)).granted
      ∧ (t.coreAt c).port = [] ∧ ((s.coreAt c).port = [] ∨ ea.toNat < 0x18000 → t.Holds d off bs) ∧ ((s.coreAt c).port = [] → s.SameOutside t d off bs.length)
      ∧ (ea.toNat < 0x18000 → ∀ i, i < bs.length → (t.coreAt c).seenByte (off + i) = bs.getD i 0))
  ∧ ∀ (s : State) (c key : Nat) (bs : List Byte) (why : GlobalWrite), s.MemOk →
    (s.isProt key = false → ∀ i ∈ [Instr.globalStorePerformed c key bs why, Instr.protectedWrite key bs why, Instr.hostMemAccess key (some bs) 0],
      ∃ t, exec i s = .next t ∧ (∀ k, k < bs.length → t.gmem.get (key + k) = bs.getD k 0) ∧ s.SameGlobalOutside t key bs.length)
    ∧ (s.isProt key = true → ∀ p ∈ [(Instr.globalStorePerformed c key bs why, Ev.globalStorePerformed c key bs why),
        (.protectedWrite key bs why, .protectedWrite key bs why), (.hostMemAccess key (some bs) 0, .protectedWrite key bs .host)],
      ∃ t, exec p.1 s = .next t ∧ s.SameMemory t ∧ t.held = s.held ++ [⟨p.2, key, bs⟩])

/-- R78, R126: an access whose predicate fails, or a vector access with no active lane, has no effect but to move past its words. -/
def Obligations.AccessesThatDoNotExecute : Prop :=
  ∀ (s : State) (base : Pair) (off : BitVec 24) (m : MReg) (idx : Reg),
    (∀ p, s.pred p = false → (∀ f ∈ loadForms, ∀ rt, exec (f.1 rt base off p) s = .next (s.retire 2))
      ∧ (∀ f ∈ storeForms, ∀ rt, exec (f.1 rt base off p) s = .next (s.retire 2))
      ∧ (∀ rt, exec (.ldd rt base off p) s = .next (s.retire 2) ∧ exec (.std rt base off p) s = .next (s.retire 2))
      ∧ ∀ v n, exec (.vld v base off m p) s = .next (s.retire 2) ∧ exec (.vst v base off m p) s = .next (s.retire 2)
        ∧ exec (.vldbc v n base off m p) s = .next (s.retire 2))
    ∧ (s.m m = 0 → ∀ v p n d, exec (.vld v base off m p) s = .next (s.retire 2) ∧ exec (.vst v base off m p) s = .next (s.retire 2)
      ∧ exec (.vldbc v n base off m p) s = .next (s.retire 2) ∧ exec (.vgath v d base off m idx) s = .next (s.retire 2)
      ∧ exec (.vscat v d base off m idx) s = .next (s.retire 2))

/-- R23, R80, R126, R137: an access that executes traps with the first cause that applies, its address in TVALL and TVALH: ALIGN, then ACCESS, FARSP, PERM, XLATE as
the address's window has them; ACCESS too at a core that is fenced off, behind FARSP, which is the model's order (DESIGN CHOICE, log 68). A vld or vst is
an access of 64 bytes, a vldbc one of its element, a vgath or vscat one for each active lane in ascending order, the first that fails
giving the cause and the address; that every lane of a vgath passes these checks before one is read is the model's choice (DESIGN CHOICE, log 57). -/
def Obligations.AccessesTrapInTheirOrder : Prop :=
  (∀ (s : State) (base : Pair) (off : BitVec 24) (p : Option Pred) (e : Byte), s.pred p = true →
    let ea := s.ea base off
    let trap := s.trap e (BitVec.ofNat 32 ea.toNat) (BitVec.ofNat 32 (ea.toNat / 2 ^ 32))
    (∀ f ∈ loadForms, ∀ rt, s.cause ea.toNat f.2.1 false = some e → exec (f.1 rt base off p) s = .next trap)
    ∧ (∀ f ∈ storeForms, ∀ rt, s.cause ea.toNat f.2 true = some e → exec (f.1 rt base off p) s = .next trap)
    ∧ (∀ rt, s.cause ea.toNat 8 false = some e → exec (.ldd rt base off p) s = .next trap)
    ∧ (∀ rt, s.cause ea.toNat 8 true = some e → exec (.std rt base off p) s = .next trap)
    ∧ ∀ v m, (∃ i, i < 16 ∧ (s.m m).getLsbD i = true) → (s.cause ea.toNat 64 false = some e → exec (.vld v base off m p) s = .next trap)
      ∧ (s.cause ea.toNat 64 true = some e → exec (.vst v base off m p) s = .next trap)
      ∧ ∀ size : BitVec 2, (∃ i, i < 64 / 2 ^ size.toNat ∧ (s.m m).getLsbD i = true) → s.cause ea.toNat (2 ^ size.toNat) false = some e →
        exec (.vldbc v size base off m p) s = .next trap)
  ∧ ∀ (s : State) (v idx : Reg) (d : Bool) (base : Pair) (off : BitVec 24) (m : MReg) (i : Nat) (e : Byte),
    let n := if d then 8 else 4
    let at' (i : Nat) : DWord := s.ea base off + BitVec.ofInt 64 (sgn (8 * n) (lane (s.v idx) (8 * n) i))
    let trap := s.trap e (BitVec.ofNat 32 (at' i).toNat) (BitVec.ofNat 32 ((at' i).toNat / 2 ^ 32))
    let first (w : Bool) : Prop := s.cause (at' i).toNat n w = some e ∧ ∀ j, j < i → (s.m m).getLsbD j = true → s.cause (at' j).toNat n w = none
    i < 64 / n → (s.m m).getLsbD i = true → (first false → exec (.vgath v d base off m idx) s = .next trap) ∧ (first true → exec (.vscat v d base off m idx) s = .next trap)

/-- R126, R127: the vector loads and stores that pass their checks: each active lane gets, or is held with, the bytes of its address. In the running context's
scratchpad a load sees what the core's private port sees (log 56); at a global alias it gets the owner's bytes and its active words enter the read
signature; either may raise the wait counts of parity groups (R131); at translated addresses it waits, and the return of the data writes the active lanes. A vst is held word by word, whole where both lanes
of a word are active, and marked as one that reads no bank; a store that does not fit the store buffer ends its chunk before itself. -/
def Obligations.VectorAccessesMoveTheirLanes : Prop :=
  (∀ (s : State) (base : Pair) (off : BitVec 24) (m : MReg) (v idx : Reg),
    let ea := s.ea base off
    let on (n : Nat) := (List.range n).filter fun i => (s.m m).getLsbD i
    let active (i : Nat) : Bool := (s.m m).getLsbD i
    let keyOf (a : DWord) : Option Nat := if inTrans a.toNat then (s.xlate s.ctx.vdev a.toNat true).toOption else none
    (∀ p, s.pred p = true → on 16 ≠ [] →
      (s.core.clean = true → s.Own ea 64 → ∃ (u : State) (x : Vec), s.Alike u ∧ exec (.vld v base off m p) s = .next ((u.setV v x).retire 2)
        ∧ ∀ i, i < 16 → lane x 32 i = if active i then s.numberSeen (ea.toNat + 4 * i) 4 else lane (s.v v) 32 i)
      ∧ (∀ c o, place ea.toNat = .glob c o → (s.coreAt c).clean = true → s.cause ea.toNat 64 false = none →
        ((∃ i ∈ on 16, s.busy (ea.toNat + 4 * i) 4 = true) → exec (.vld v base off m p) s = .next s)
        ∧ ((∀ i ∈ on 16, s.busy (ea.toNat + 4 * i) 4 = false) → ∃ (u : State) (x : Vec), s.Alike u ∧ exec (.vld v base off m p) s = .next (((u.setChunk { s.chunk with
            rsig := (on 16).foldl (fun a i => a ||| sigWord (ea.toNat + 4 * i)) s.chunk.rsig }).setV v x).retire 2)
          ∧ ∀ i, i < 16 → lane x 32 i = if active i then s.numberOver (ea.toNat + 4 * i) ((s.coreAt c).mem.read (o + 4 * i) 4) else lane (s.v v) 32 i))
      ∧ (inTrans ea.toNat = true → s.cause ea.toNat 64 false = none → ∃ ps, exec (.vld v base off m p) s = .next (s.waitsFor ⟨.lanes, v, some ea, ps⟩)
        ∧ (∀ q ∈ ps, q.1 = ea + BitVec.ofNat 64 q.2.1) ∧ ps.Pairwise (fun a b => a.2.1 + a.2.2 ≤ b.2.1)
        ∧ ∀ k, (∃ q ∈ ps, q.2.1 ≤ k ∧ k < q.2.1 + q.2.2) ↔ k < 64 ∧ active (k / 4) = true)
      ∧ (s.cause ea.toNat 64 true = none →
        (s.chunk.stbuf + 8 ≤ 128 → ∃ t, exec (.vst v base off m p) s = .next t ∧ s.SameMemory t
          ∧ t.chunk.held = s.chunk.held ++ (List.range 8).flatMap fun k =>
            let at' (i n : Nat) : List Held :=
              let a := ea + BitVec.ofNat 64 (4 * i)
              [.store a (keyOf a) (leBytes n (lane (s.v v) (8 * n) (i * 4 / n))) true s.pc]
            match active (2 * k), active (2 * k + 1) with
            | true, true => at' (2 * k) 8
            | true, false => at' (2 * k) 4
            | false, true => at' (2 * k + 1) 4
            | false, false => [])
        ∧ (128 < s.chunk.stbuf + 8 → exec (.vst v base off m p) s = .next (s.endChunk .run))))
    ∧ (∀ p (size : BitVec 2), s.pred p = true → on (64 / 2 ^ size.toNat) ≠ [] →
      let n := 2 ^ size.toNat
      let bcast (x : Vec) (z : Nat) : Prop := ∀ i, i < 64 / n → lane x (8 * n) i = if active i then z else lane (s.v v) (8 * n) i
      (s.core.clean = true → s.Own ea n → ∃ (u : State) (x : Vec), s.Alike u ∧ exec (.vldbc v size base off m p) s = .next ((u.setV v x).retire 2)
        ∧ bcast x (s.numberSeen ea.toNat n))
      ∧ (∀ c o, place ea.toNat = .glob c o → (s.coreAt c).clean = true → s.cause ea.toNat n false = none → if s.busy ea.toNat n then exec (.vldbc v size base off m p) s = .next s
        else ∃ (u : State) (x : Vec), s.Alike u ∧ exec (.vldbc v size base off m p) s = .next (((u.noteRead ea.toNat n).setV v x).retire 2)
          ∧ bcast x (s.numberOver ea.toNat ((s.coreAt c).mem.read o n)))
      ∧ (inTrans ea.toNat = true → s.cause ea.toNat n false = none → exec (.vldbc v size base off m p) s = .next (s.waitsFor ⟨.bcast n (s.m m), v, none, [(ea, 0, n)]⟩)))
    ∧ ∀ d : Bool, let n := if d then 8 else 4
      let at' (i : Nat) : DWord := ea + BitVec.ofInt 64 (sgn (8 * n) (lane (s.v idx) (8 * n) i))
      on (64 / n) ≠ [] →
      (s.core.clean = true → (∀ i ∈ on (64 / n), s.Own (at' i) n) → ∃ (u : State) (x : Vec), s.Alike u ∧ exec (.vgath v d base off m idx) s = .next ((u.setV v x).retire 2)
        ∧ ∀ i, i < 64 / n → lane x (8 * n) i = if active i then s.numberSeen (at' i).toNat n else lane (s.v v) (8 * n) i)
      ∧ (∀ pl : Nat → Nat × Nat, (∀ i ∈ on (64 / n), place (at' i).toNat = .glob (pl i).1 (pl i).2 ∧ (s.coreAt (pl i).1).clean = true
          ∧ s.cause (at' i).toNat n false = none) →
        ((∃ i ∈ on (64 / n), s.busy (at' i).toNat n = true) → exec (.vgath v d base off m idx) s = .next s)
        ∧ ((∀ i ∈ on (64 / n), s.busy (at' i).toNat n = false) → ∃ (u : State) (x : Vec), s.Alike u ∧ exec (.vgath v d base off m idx) s = .next (((u.setChunk { s.chunk with
            rsig := (on (64 / n)).foldl (fun a i => a ||| sigRange (at' i).toNat n) s.chunk.rsig }).setV v x).retire 2)
          ∧ ∀ i, i < 64 / n → lane x (8 * n) i = if active i then s.numberOver (at' i).toNat ((s.coreAt (pl i).1).mem.read (pl i).2 n) else lane (s.v v) (8 * n) i))
      ∧ ((∃ i ∈ on (64 / n), inTrans (at' i).toNat = true) → (∀ i ∈ on (64 / n), s.cause (at' i).toNat n false = none) →
        exec (.vgath v d base off m idx) s = .next (s.waitsFor ⟨.lanes, v, none, (on (64 / n)).map fun i => (at' i, n * i, n)⟩))
      ∧ ((∀ i ∈ on (64 / n), s.cause (at' i).toNat n true = none) →
        (s.chunk.stbuf + 64 / n ≤ 128 → ∃ t, exec (.vscat v d base off m idx) s = .next t ∧ s.SameMemory t
          ∧ t.chunk.held = s.chunk.held ++ (on (64 / n)).map fun i => .store (at' i) (keyOf (at' i)) (leBytes n (lane (s.v v) (8 * n) i)) false s.pc)
        ∧ (128 < s.chunk.stbuf + 64 / n → exec (.vscat v d base off m idx) s = .next (s.endChunk .run))))
  ∧ ∀ (s : State) (v : Reg) (tv : Option DWord) (ps : List (DWord × Nat × Nat)) (data : DWord → List Byte), s.cur < 8192 → s.core.status = .answer .load →
    (∀ q ∈ ps, inTrans q.1.toNat = true ∧ s.dataComes q.1.toNat = true ∧ s.vread s.ctx.vdev q.1.toNat q.2.2 = .ok (data q.1)) →
    let back : State := { s with core := { s.core with load := none, status := .running } }
    (s.core.load = some ⟨.lanes, v, tv, ps⟩ → (∀ q ∈ ps, q.2.1 + q.2.2 ≤ 64) → ps.Pairwise (fun a b => a.2.1 + a.2.2 ≤ b.2.1) →
      ∃ x : Vec, exec (.translatedLoadReturn s.cur) s = .next ((back.setV v x).retire 2)
        ∧ (∀ q ∈ ps, ∀ k, k < q.2.2 → lane x 8 (q.2.1 + k) = ((forward s.chunk.held (q.1.toNat + k)).getD ((data q.1).getD k 0)).toNat)
        ∧ ∀ k, k < 64 → (∀ q ∈ ps, ¬ (q.2.1 ≤ k ∧ k < q.2.1 + q.2.2)) → lane x 8 k = lane (s.v v) 8 k)
    ∧ ∀ (n : Nat) (mk : DWord) (ea : DWord), n ∈ [1, 2, 4, 8] → s.core.load = some ⟨.bcast n mk, v, tv, ps⟩ → ps = [(ea, 0, n)] →
      ∃ x : Vec, exec (.translatedLoadReturn s.cur) s = .next ((back.setV v x).retire 2)
        ∧ ∀ i, i < 64 / n → lane x (8 * n) i = if mk.getLsbD i then s.numberOver ea.toNat (data ea) else lane (s.v v) (8 * n) i

/-! ## Requests and held effects (R188–R205) -/

/-- R188, R191, R194, R196, R200, R202, R205, R287, R296, R317: with room in the pool, the request forms complete with one packet held, with the destination,
class and content the spec gives it: kend and hpost go to the dispatcher that runs the launch, launch to that of the core's die, a deposit or atomic to
the core that owns its address or to the router of its page's streamer (log 51), for a page of another package there as here (R296; DESIGN CHOICE, log 19). An amo with ret=yes is the last of its chunk and waits for its answer.
Without room they trap SQFULL or wait. R74: nstclm is the last of its chunk too, and
waits for its claim, which writes its count and moves on. -/
def Obligations.RequestsHoldOnePacket : Prop :=
  ∀ (s : State),
    let one (i : Instr) (lo hi : Word) (t : State) : Prop := (s.requestRoom = true → exec i s = .next t)
      ∧ (s.requestRoom = false → exec i s = .next (if s.prog.sqt then s.trap 0x07 lo hi else s.waitOn .request))
    let held (p : Packet) (n : Nat) : State := (s.setChunk { s.chunk with held := s.chunk.held ++ [.packet p] }).retire n
    let last (p : Packet) (a : Answer) : State := (s.setChunk { s.chunk with held := s.chunk.held ++ [.packet p] }).counted.endChunk (.answer a)
    let p (dst : BitVec 21) (cls : BitVec 5) (body : Body) : Packet := s.packet dst cls false false (some false) body
    let me := coord (dispatcherCore (s.ctx.launch.toNat / 2 ^ 30))
    let owner (ea : DWord) (c : BitVec 21) : Prop := (∃ k o, scrPlace s.cur ea.toNat = some (k, o) ∧ c = coord k)
      ∨ scrPlace s.cur ea.toNat = none ∧ ∃ key, s.xlate s.ctx.vdev ea.toNat true = .ok key ∧ c = (match placePackage key with
        | some q => q ++ (coord (streamerAt key)).extractLsb' 0 13
        | none => coord (streamerAt key))
    one .kend 0 0 (held (p me 26 (.kend s.ctx.launch)) 1)
    ∧ (∀ rd ra, (∀ e, s.claimFault (s.d ra).toNat = some e → exec (.nstclm rd ra) s = .next (s.trap e (lo32 (s.d ra)) (hi32 (s.d ra))))
      ∧ ∀ c o, s.claimFault (s.d ra).toNat = none → scrPlace s.cur (s.d ra).toNat = some (c, o) →
        exec (.nstclm rd ra) s = .next (last (s.packet (coord c) 21 false false none (.claim (s.d ra))) (.claim rd (s.d ra))))
    ∧ (∀ (u : State) rd ea start cnt (ext : BitVec 64), u.cur < 8192 → u.core.status = .answer (.claim rd ea) →
      ∃ r : Regs, exec (.nestClaimReturn u.cur start cnt ext 0) u = .next (((((u.goto u.cur).setStatus .running).setRegs r).setS rd cnt).advance 1))
    ∧ (∀ vs sd cls len1 net pri, (s.s sd).toNat < 2 ^ 21 → one (.send vs sd cls len1 net pri) (s.s sd) 0
      (held (s.packet ((s.s sd).setWidth 21) cls net pri (some false) (.message (leBytes (len1.toNat + 1) (s.v vs).toNat))) 1))
    ∧ (∀ node, (s.d node).toNat % 64 = 0 → inTrans (s.d node).toNat = true →
      one (.launch node) 0 0 (held (p (coord (dispatcherCore (dieOf s.cur))) 26 (.walk s.ctx.launch (s.d node))) 1))
    ∧ (∀ vs, ∃ bs : List Byte, one (.hpost vs) 0 0 (held (p me 26 (.post s.ctx.launch bs)) 1) ∧ bs.length = 64
      ∧ ∀ i, i < 64 → bs.getD i 0 = BitVec.ofNat 8 (lane (s.v vs) 8 i) ||| (if i = 1 then 0x80 else 0))
    ∧ (∀ bar ra, (s.s ra).toNat < 2 ^ 21 → one (.barrx bar ra) 0 0 (held (p ((s.s ra).setWidth 21) 22 (.arrive bar)) 1))
    ∧ (∀ vs base off len1 trig c, let ea := s.ea base off
      ea.toNat / 64 = (ea.toNat + len1.toNat) / 64 → s.reachFault ea.toNat (len1.toNat + 1) = none → owner ea c →
      one (.depos vs base off len1 trig) (lo32 ea) (hi32 ea)
        (held (p c 20 (.deposit ea (leBytes (len1.toNat + 1) (s.v vs).toNat) trig (if inTrans ea.toNat then some (BitVec.ofNat 13 s.cur) else none) none)) 2))
    ∧ ∀ f ∈ amoForms, ∀ (a : AmoArgs) (c : BitVec 21), let ea := s.ea a.base a.off
      let reg (i : Nat) : DWord := if a.dbl then s.d (BitVec.ofNat 5 (a.rt.toNat / 2 + i)) else (s.s (BitVec.ofNat 6 (a.rt.toNat + i))).setWidth 64
      let q := p c 21 (.atomic f.2 a.dbl ea (reg 0) (if f.2 = .cas then reg 1 else 0) a.trig a.ret)
      ea.toNat % (if a.dbl then 8 else 4) = 0 → s.reachFault ea.toNat (if a.dbl then 8 else 4) = none → owner ea c →
      (a.ret = false → one (f.1 a) (lo32 ea) (hi32 ea) (held q 2)) ∧ (a.ret = true → one (f.1 a) (lo32 ea) (hi32 ea) (last q (.atomic a.rt a.dbl ea)))

/-- R192, R199, R201, R202, R205: the forms whose effect is one held effect and nothing else until the chunk commits; a reply goes to the source of the
running firing on the reply network and never traps SQFULL; done ends the chunk with itself, and the firing with it. -/
def Obligations.FormsHeldToTheCommit : Prop :=
  ∀ (s : State),
    let held (h : Held) : State := (s.setChunk { s.chunk with held := s.chunk.held ++ [h] }).retire 1
    (∀ cls, s.claims.getLsbD cls.toNat = true → exec (.clsmask cls) s = .next (held (.mask 1 (1 <<< cls.toNat) (1 <<< cls.toNat)))
      ∧ exec (.clsunm cls) s = .next (held (.mask 2 (1 <<< cls.toNat) (1 <<< cls.toNat))))
    ∧ (∀ cls, s.claims.getLsbD cls.toNat = false → exec (.clsmask cls) s = .next (s.trap 0x06 (cls.setWidth 32) 0)
      ∧ exec (.clsunm cls) s = .next (s.trap 0x06 (cls.setWidth 32) 0))
    ∧ exec .vdone s = .next (held .vdone) ∧ (∀ ra, exec (.terdem ra) s = .next (held (.terdem (s.s ra))))
    ∧ (∀ bar ra rb, exec (.binit bar ra rb) s = .next (held (.bar (.init bar ((s.s ra).setWidth 16) ((s.s rb).setWidth 5) ((s.s rb).getLsbD 5) s.ctx.launch))))
    ∧ (∀ bar, exec (.barr bar) s = .next (held (.bar (.arrive bar)))) ∧ (∀ bar ra, exec (.baddb bar ra) s = .next (held (.bar (.add bar (s.s ra)))))
    ∧ (∀ vs cls len1 pri, s.fir.kind ≠ 2 → s.fir.kind ≠ 3 → (s.replyRoom = true → exec (.reply vs cls len1 pri) s = .next
        (held (.packet (s.packet s.fir.src cls true pri (some true) (.message (leBytes (len1.toNat + 1) (s.v vs).toNat))))))
      ∧ (s.replyRoom = false → exec (.reply vs cls len1 pri) s = .next (s.waitOn .reply)))
    ∧ exec .done s = .next (s.counted.endChunk .finish)

/-- R96, R162, R171, R202, R207: the forms that read a unit's state into a register; qstat of a bound channel end gives the elements that the end may
still take, the held ones of its chunk counted, with the bits of that end. -/
def Obligations.StatusFormsReadTheirUnits : Prop :=
  ∀ (s : State), (∀ rd, exec (.termap rd) s = .next ((s.setD rd (s.tileAt (tileOf s.cur)).mask).retire 1))
    ∧ (∀ bar rd, ∃ w : Word, exec (.bstat bar rd) s = .next ((s.setS rd w).retire 1) ∧
        let b := s.core.bar bar
        w.getLsbD 31 = b.phase ∧ w.getLsbD 30 = b.enable ∧ w.extractLsb' 25 5 = b.cls ∧ w.getLsbD 24 = decide (b.pending ≠ 0)
        ∧ w.getLsbD 23 = decide (b.pending.toInt < 0) ∧ w.extractLsb' 16 7 = 0 ∧ w.extractLsb' 0 16 = b.arrivals)
    ∧ (∀ rd, ∃ w : Word, exec (.slstat rd) s = .next ((s.setS rd w).retire 1) ∧
        ∀ n, n < 16 → w.getLsbD n = (s.prog.slot n).claimed ∧ w.getLsbD (16 + n) = (s.prog.slot n).full)
    ∧ (∀ rd k, exec (.xidrd rd k) s = .next ((s.setS rd (s.ctx.xid[k.toNat]'(by omega) + BitVec.ofNat 32 (s.heldCopies k))).retire 1))
    ∧ ∀ rd q, ∃ w : Word, exec (.qstat rd q) s = .next ((s.setS rd w).retire 1)
        ∧ (q.toNat < 2 → w = BitVec.ofNat 32 (2 ^ 16 + ((if q = 0 then s.ctx.q0.length else s.ctx.q1.length) - s.heldPops q 0)))
        ∧ (2 ≤ q.toNat → s.bindOf q = none → w = 0)
        ∧ ∀ b k, 2 ≤ q.toNat → s.bindOf q = some b → s.chanSeen b.ch = some k → k.occ < 2 ^ 16 → k.f < 2 ^ 16 →
          w.getLsbD 16 = true ∧ w.getLsbD 17 = b.consumer ∧ w.getLsbD 21 = k.suspect ∧ w.extractLsb' 23 9 = 0
          ∧ (b.consumer = true → (w.extractLsb' 0 16).toNat = k.occ - s.heldPops q b.ch ∧ w.getLsbD 18 = decide (k.off ≤ k.occ) ∧ w.getLsbD 19 = false
            ∧ w.getLsbD 20 = (k.eosPopped || s.poppedEos b.ch) ∧ w.getLsbD 22 = k.refill)
          ∧ (b.consumer = false → (w.extractLsb' 0 16).toNat = k.f - (k.out + s.heldPushes b.ch false) ∧ w.getLsbD 18 = k.prodXoff
            ∧ w.getLsbD 19 = (k.spilling || s.heldPushes b.ch true != 0) ∧ w.getLsbD 20 = k.eosBit ∧ w.getLsbD 22 = false)

/-- R26, R31, R133, R171, R205, R234, R238, R239, R273: at the head of a chunk, a form that waits completes at once when its condition holds, and
waits where it does not: xidwt for an ID that XIDC has not reached, psync for the pairs of its range that are stale once the core's released stores are
performed (log 56), whatever other rows are;
lbsync takes a grant of its own; with earlier instructions in the chunk each ends the chunk before itself. -/
def Obligations.WaitsPassWhenTheirConditionHolds : Prop :=
  ∀ (s : State), (s.chunkEmpty = true → exec .chunk s = .next (s.retire 1)
      ∧ (s.globalBusy s.cur = false → exec .fenceD s = .next (s.retire 1) ∧ (s.linkBusy s.cur = false → exec .fenceS s = .next (s.retire 1))
        ∧ (s.linkBusy s.cur = true → exec .fenceS s = .next (s.setStatus (.waiting .link)))
        ∧ (s.requestRoom = true → exec .stepmk s = .next ((s.issue s.cur (s.packet (coord checkpointCore) 30 false false (some false) .mark)).setStatus (.answer .mark))))
      ∧ (s.globalBusy s.cur = true → ∀ i ∈ [Instr.fenceD, .fenceS, .stepmk], exec i s = .next (s.setStatus (.waiting .fence)))
      ∧ (∀ bar ra, (s.core.bar bar).phase ≠ (s.s ra).getLsbD 0 → exec (.bwait bar ra) s = .next ((s.catchUp s.cur).retire 1))
      ∧ (∀ bar ra, (s.core.bar bar).phase = (s.s ra).getLsbD 0 → exec (.bwait bar ra) s = .next (s.setStatus (.waiting (.phase bar ((s.s ra).getLsbD 0)))))
      ∧ (∀ ra k, let done := s.ctx.xidc[k.toNat]'(by omega)
        idBefore (s.xidNow k) (s.s ra) = false → ((s.s ra = done ∨ idBefore (s.s ra) done = true) → exec (.xidwt ra k) s = .next ((s.catchUp s.cur).retire 1))
        ∧ (s.s ra ≠ done → idBefore (s.s ra) done = false → exec (.xidwt ra k) s = .next (s.setStatus (.waiting (.transfer k (s.s ra))))))
      ∧ (∀ ra k, idBefore (s.xidNow k) (s.s ra) = true → exec (.xidwt ra k) s = .next (s.trap 0x0E (s.s ra) 0))
      ∧ (∀ ra rb, s.s rb = 0 → exec (.psync ra rb) s = .next (s.retire 1))
      ∧ (∀ ra rb c off, let a := (s.d ra).toNat
        let n := (s.s rb).toNat
        n ≠ 0 → (c = s.cur ∧ off = a ∧ a < 0x18000 ∧ s.ctx.base ≤ a ∧ a + n ≤ s.ctx.base + s.ctx.size
          ∨ place a = .glob c off ∧ off + n ≤ 0x18000 ∧ tileOf c = s.tile ∧ (s.coreAt c).fenced = false ∧ s.foreign c off n s.ctx.id = false) →
        let u := s.drain s.cur
        let stale (p : Nat × Nat) : Prop := p ∈ (u.coreAt c).stale ∧ ∃ i, i < n ∧ p = ((off + i) / 128, (off + i) / 32 % 4)
        ((∀ p, ¬ stale p) → exec (.psync ra rb) s = .next (u.retire 1))
        ∧ ∀ p, stale p → ∃ ps, exec (.psync ra rb) s = .next (u.setStatus (.waiting (.sync c ps))) ∧ ∀ q, q ∈ ps ↔ stale q)
      ∧ (∀ ra rb, s.s rb ≠ 0 → (place (s.d ra).toNat = .trans ∨ place (s.d ra).toNat = .nowhere) → exec (.psync ra rb) s = .next (s.trapAt 0x03 (s.d ra)))
      ∧ exec .lbsync s = .next ((s.advance 1).counted.endChunk .sync))
    ∧ (s.chunkEmpty = false → ∀ bar ra k da rb, ∀ i ∈ [Instr.chunk, .fenceD, .fenceS, .lbsync, .stepmk, .bwait bar ra, .xidwt ra k, .psync da rb],
      exec i s = .next (s.endChunk .run))

/-! ## Queues, slots and engine commands (R96–R98, R149, R158–R171) -/

/-- R158, R159, R161, R163, R149: a pop of q0 or q1 gives its oldest record, whole with qrdv, and is held; what it acquires the core's later
loads see (R236); a pop of a bound consumer end gives the element at its
read index, as it entered the ring, the core's own released stores over it (log 56); a push of a bound producer end with room in its window is held with the element's bytes; a queue register that is not bound traps CHAN. -/
def Obligations.QueuesPopAndPushTheirElements : Prop :=
  ∀ (s : State),
    let held (t : State) (h : Held) : Host.Outcome State Fault Refusal := .next ((t.setChunk { t.chunk with held := t.chunk.held ++ [h] }).retire 1)
    let popped (t : State) (h : Held) : Host.Outcome State Fault Refusal := held (t.catchUp s.cur) h
    (∀ rd w r, s.chunk.held = [] → s.ctx.q0 = w :: r → exec (.qrd rd 0) s = popped (s.setS rd w) (.pop 0 0 false)
      ∧ exec (.qrdv rd 0) s = popped (s.setV rd (w.setWidth 512)) (.pop 0 0 false))
    ∧ (∀ rd w k r, s.chunk.held = [] → s.ctx.q1 = (w, k) :: r → exec (.qrd rd 1) s = popped (s.setS rd w) (.pop 1 0 false)
      ∧ exec (.qrdv rd 1) s = popped (s.setV rd ((w.setWidth 512) ||| (k.setWidth 512 <<< 32))) (.pop 1 0 false))
    ∧ (∀ rd q b k, 4 ≤ q.toNat → s.chunk.held = [] → s.bindOf q = some b → s.chanAt b.ch = some k → b.consumer = true → k.suspect = false → k.eosPopped = false →
      k.marker = none → k.read.toNat < k.entered → s.core.clean = true →
      let bs := { s.core with lag := [] }.seen (k.ring + k.read.toNat % k.capacity * 2 ^ k.esize) (2 ^ k.esize)
      ∃ u, s.Alike u ∧ (k.esize = 2 → exec (.qrd rd q) s = popped (u.setS rd (BitVec.ofNat 32 (ofBytes bs))) (.pop q b.ch false))
        ∧ exec (.qrdv rd q) s = popped (u.setV rd (BitVec.ofNat 512 (ofBytes bs))) (.pop q b.ch false))
    ∧ (∀ q ra b k, s.chunk.held = [] → s.bindOf q = some b → s.chanAt b.ch = some k → b.consumer = false → k.suspect = false → k.eosBit = false →
      k.prodXoff = false → k.spilling = false → k.out < k.f →
      (k.esize = 2 → exec (.qwr q ra) s = held s (.push k.idx false false 0 (leBytes 4 (s.s ra).toNat)))
      ∧ exec (.qwrv q ra) s = held s (.push k.idx false false 0 (leBytes (2 ^ k.esize) (s.v ra).toNat))
      ∧ ∃ bs : List Byte, bs.length = 2 ^ k.esize ∧ exec (.cheos q) s = held s (.push k.idx false true 0 bs))
    ∧ ∀ q r, 2 ≤ q.toNat → s.bindOf q = none → ∀ i ∈ [Instr.qrd r q, .qwr q r, .qrdv r q, .qwrv q r, .cheos q], exec i s = .next (s.trap 0x0E (q.setWidth 32) 0)

/-- R165–R167: chbind binds an end that is its own and free, chunb frees it, chgrow asks the pool for its elements and waits, chstat reads the limit
and the spilled count. -/
def Obligations.BindingsAndSpillFormsAct : Prop :=
  ∀ (s : State),
    (∀ q ra con k, (s.s ra).toNat < 0x8000 → s.chanAt ((s.s ra).setWidth 15) = some k → s.bindOf q = none → s.prog.binds = [] → k.bound = true →
      (if con then k.consCtx = s.ctx.id ∧ k.consumer = coord s.cur else k.prodCtx = s.ctx.id ∧ k.producer = coord s.cur) →
      ∃ t, exec (.chbind q ra con) s = .next t ∧ t.prog.binds = [⟨q, (s.s ra).setWidth 15, con⟩]
        ∧ t.chunk.held = s.chunk.held ++ [.bind ((s.s ra).setWidth 15) con k.f k.off k.on k.streamer] ∧ s.SameMemory t)
    ∧ (∀ q ra con, s.chanAt ((s.s ra).setWidth 15) = none → exec (.chbind q ra con) s = .next (s.trap 0x0E (s.s ra) 0))
    ∧ (∀ q b, s.bindOf q = some b → ∃ t, exec (.chunb q) s = .next t ∧ (∀ x ∈ t.prog.binds, x.q ≠ q)
      ∧ t.chunk.held = s.chunk.held ++ [.unbind b.ch b.consumer] ∧ s.SameMemory t)
    ∧ (∀ q b k ra, s.chunkEmpty = true → s.bindOf q = some b → s.chanAt b.ch = some k → k.suspect = false → k.limit + (s.s ra).toNat < 2 ^ 32 → s.s ra ≠ 0 →
      ∃ t, exec (.chgrow q ra) s = .next t ∧ t.core.status = .answer (.grant k.idx)
        ∧ t.agenda = s.agenda ++ [.spillPoolDraw k.idx (s.s ra).toNat ((s.s ra).toNat * 2 ^ k.esize) (some (s.cur, s.fir.serial)) none])
    ∧ ∀ q b k rd, s.chunkEmpty = true → s.bindOf q = some b → s.chanAt b.ch = some k →
      exec (.chstat rd q) s = .next ((s.setS rd (BitVec.ofNat 32 (65536 * min k.limit 65535 + min (k.tail - k.head) 65535))).retire 1)

/-- R96: slclm claims a free slot of the quota for the running firing, empty; of one that another firing holds it waits for the slot, and of one that
the running firing holds already it traps SLOT. slrel frees a claimed one that no command names; of an unclaimed one it traps SLOT. A number past the
quota, of the 64 that the field holds, traps SLOT in both. -/
def Obligations.SlotsAreClaimedAndReleased : Prop :=
  ∀ (s : State) (n : Reg),
    let trap := s.trap 0x0A (n.setWidth 32) 0
    (s.ctx.slotQ ≤ n.toNat → exec (.slclm n) s = .next trap ∧ exec (.slrel n) s = .next trap)
    ∧ (n.toNat < 16 → n.toNat < s.ctx.slotQ →
      ((s.prog.slot n.toNat).claimed = false → exec (.slrel n) s = .next trap ∧ ∃ t, exec (.slclm n) s = .next t ∧ s.SameMemory t
        ∧ t.prog.slot n.toNat = ⟨true, some s.fir.serial, false, 0, false, []⟩ ∧ ∀ k, k ≠ n.toNat → t.prog.slot k = s.prog.slot k)
      ∧ ((s.prog.slot n.toNat).claimed = true →
        ((s.prog.slot n.toNat).holder = some s.fir.serial → exec (.slclm n) s = .next trap)
        ∧ ((s.prog.slot n.toNat).holder ≠ some s.fir.serial → exec (.slclm n) s = .next (s.waitOn (.slot n.toNat)))
        ∧ ((∃ m ∈ s.commands, n.toNat ∈ m.slots) → exec (.slrel n) s = .next trap)
        ∧ ((∀ m ∈ s.commands, n.toNat ∉ m.slots) → ∃ t, exec (.slrel n) s = .next t
          ∧ s.SameMemory t ∧ t.prog.slot n.toNat = .empty ∧ ∀ k, k ≠ n.toNat → t.prog.slot k = s.prog.slot k)))

/-- R97, R98, R103, R168, R170, R208: with room in its queue, a tile command is held with the next sequence number and a copy or reduction command
with the next ID of its channel, the command's operands whole; without room the firing waits. mqnt in mode 4 moves SEED past its draws, of which a
reserved format code and BF16 take 768 by the model's choice (DESIGN CHOICE, log 62). -/
def Obligations.CommandsArePushedWhole : Prop :=
  ∀ (s : State), s.chunk.held = [] →
    let pushed (t : State) (i : Instr) : State :=
      (t.setChunk { t.chunk with held := [.mcmd ⟨s.ctx.id, s.ctx.mseq + 1, s.pc, .cmd i, s.prog.seed, none, 0, none, false⟩] }).retire 8
    let matrixAs (t : State) (i : Instr) : Prop := (s.core.commands.length < 8 → exec i s = .next (pushed t i)) ∧ (8 ≤ s.core.commands.length → exec i s = .next (s.waitOn .matrixRoom))
    let matrix (i : Instr) : Prop := matrixAs s i
    let copied (k : BitVec 2) (i : Instr) : Prop :=
      let n := (s.core.copies.filter fun t => t.chan == k && !t.done).length
      (n < 8 → exec i s = .next ((s.setChunk { s.chunk with held :=
        [.copy ⟨0, s.ctx.id, s.ctx.vdev, k, s.ctx.xid[k.toNat]'(by omega) + 1, s.pc, i, false, [], [], none, false⟩] }).retire 8))
      ∧ (8 ≤ n → exec i s = .next (s.waitOn (.copyRoom k)))
    (∀ slot fmt tr src stride, matrix (.mld slot fmt tr src stride)) ∧ (∀ acc sa sb ba bb, matrix (.mma acc sa sb ba bb)) ∧ (∀ acc, matrix (.mzero acc))
    ∧ (∀ acc dst stride, matrix (.mst acc dst stride)) ∧ (∀ acc n, matrix (.mamax acc n))
    ∧ (∀ acc fmt rnd codes cs ss scales,
        let sr := if rnd = 0 then (vget s.prog.po 11 0).toNat % 8 = 4 else rnd = 5
        matrixAs (if sr then s.setProg { s.prog with seed := stepsSeed (if fmt = 5 then 256 else 768) s.prog.seed } else s) (.mqnt acc fmt rnd codes cs ss scales))
    ∧ (∀ k len va sp t, copied k (.cpin k len va sp t)) ∧ (∀ k len va sp t, copied k (.cpout k len va sp t))
    ∧ (∀ k len va sp t o rows pitch, copied k (.cp2d k len va sp t o rows pitch)) ∧ (∀ k len ga sp t, copied k (.cploc k len ga sp t))
    ∧ (∀ k len dst pat t, copied k (.cpfill k len dst pat t)) ∧ (∀ k n ty op src dst t parts, copied k (.xred k n ty op src dst t parts))
    ∧ ∀ k n ty src dst t parts, copied k (.xbcast k n ty src dst t parts)

/-! ## Control registers, traps and system forms (R184, R263–R280) -/

/-- R271, R272: csrr reads a register; csrw, csrs and csrc write, set and clear it and give its old value to rd; reserved bits and values are
discarded, a read-only register traps ILLOP, and a matrix register's write is queued behind the commands before it (R102).
One that reads QSTAT ends its chunk before itself. Of STATUS only SQT is written, a WDOG of zero is ignored, and csrc clears the named bits of ERRCNT,
which no other form writes. -/
def Obligations.ControlRegistersReadAndWrite : Prop :=
  ∀ (s : State) (rd ra : Reg),
    (∀ n v, s.csr n = some v → n ≠ 0x030 → exec (.csrr rd n) s = .next ((s.setS rd v).retire 1))
    ∧ (s.chunkEmpty = true → s.matrixBusy = false → exec (.csrr rd 0x030) s = .next ((s.setS rd s.ctx.qstat).retire 1))
    ∧ (∀ n, s.csr n = none → ∃ w, exec (.csrr rd n) s = .next (s.trap 0x01 w 0) ∧ ∃ w, exec (.csrw rd ra n) s = .next (s.trap 0x01 w 0))
    ∧ (∀ n, csrReadOnly n 1 = true → n ≠ 0x071 → ∀ i ∈ [Instr.csrw rd ra n, .csrs rd ra n, .csrc rd ra n], ∃ w, exec i s = .next (s.trap 0x01 w 0))
    ∧ exec (.csrw rd ra 0x012) s = .next (((s.setProg { s.prog with seed := s.s ra }).setS rd s.prog.seed).retire 1)
    ∧ exec (.csrs rd ra 0x011) s = .next (((s.setProg { s.prog with fflags := s.prog.fflags ||| (s.s ra).setWidth 5 }).setS rd (s.prog.fflags.setWidth 32)).retire 1)
    ∧ exec (.csrc rd ra 0x012) s = .next (((s.setProg { s.prog with seed := s.prog.seed &&& ~~~(s.s ra) }).setS rd s.prog.seed).retire 1)
    ∧ exec (.csrw rd ra 0x005) s = .next (((s.setProg { s.prog with tvec := s.s ra &&& 0xFFFFFC }).setS rd s.prog.tvec).retire 1)
    ∧ exec (.csrw rd ra 0x010) s = .next (((if (s.s ra).toNat % 8 ≤ 4 then s.setProg { s.prog with frm := (s.s ra).setWidth 3 } else s).setS rd
        (s.prog.frm.setWidth 32)).retire 1)
    ∧ exec (.csrw rd ra 0x00A) s = .next (((if 1 ≤ (s.s ra).toNat % 32 ∧ (s.s ra).toNat % 32 ≤ 16 then s.setProg { s.prog with rqlim := (s.s ra).setWidth 5 } else s).setS rd
        (s.prog.rqlim.setWidth 32)).retire 1)
    ∧ (∀ k, s.statusWord.getLsbD k = (match k with
        | 0 => s.fir.high
        | 1 => s.fir.inTrap
        | 2 => s.prog.sqt
        | 3 => s.fir.window
        | 4 => s.ctx.prot
        | k => decide (k < 7) && s.ctx.slot.testBit (k - 5)))
    ∧ (∀ f : (BitVec 12 → Instr) × (Word → Word → Word), f ∈ [(.csrw rd ra, fun _ v => v), (.csrs rd ra, fun o v => o ||| v), (.csrc rd ra, fun o v => o &&& ~~~v)] →
      let v := s.s ra
      exec (f.1 0x000) s = .next (((s.setProg { s.prog with sqt := (f.2 s.statusWord v).getLsbD 2 }).setS rd s.statusWord).retire 1)
      ∧ exec (f.1 0x004) s = .next (((s.setProg { s.prog with tepc := f.2 s.prog.tepc v &&& 0xFFFFFC }).setS rd s.prog.tepc).retire 1)
      ∧ exec (f.1 0x008) s = .next (((if f.2 s.prog.wdog v &&& 0xFFFFFF = 0 then s else s.setProg { s.prog with wdog := f.2 s.prog.wdog v &&& 0xFFFFFF }).setS rd
        s.prog.wdog).retire 1)
      ∧ ∀ i : Fin 4, exec (f.1 (0x04C + BitVec.ofNat 12 i)) s = .next (((s.setRegs { s.regs with j := s.regs.j.set i (f.2 s.regs.j[i] v) }).setS rd s.regs.j[i]).retire 1))
    ∧ (∃ e, exec (.csrc rd ra 0x071) s = .next (((({ s with core := { s.core with errcnt := s.core.errcnt &&& ~~~(s.s ra) } } : State).setChunk
        { s.chunk with erased := e }).setS rd s.core.errcnt).retire 1))
    ∧ (∀ i ∈ [Instr.csrw rd ra 0x071, .csrs rd ra 0x071], ∃ w, exec i s = .next (s.trap 0x01 w 0))
    ∧ exec (.csrw rd ra 0x040) s = .next (((s.setS rd s.core.clsmsk).hold (.mask 0 (s.s ra) s.claims)).retire 1)
    ∧ (s.chunk.held = [] → ∀ f : (BitVec 12 → Instr) × (Word → Word → Word),
      f ∈ [(.csrw rd ra, fun _ v => v), (.csrs rd ra, fun o v => o ||| v), (.csrc rd ra, fun o v => o &&& ~~~v)] → ∀ i : Fin 16, i ≠ 15 →
      let n : BitVec 12 := 0x020 + BitVec.ofNat 12 i
      let old := s.prog.po[i]
      let raw := f.2 old (s.s ra)
      let new : Word := if i = 0 ∨ i = 1 then raw &&& 0xF else if i = 10 then raw &&& 0xFFFF else if i = 11 then raw &&& 0x107
        else if i = 13 then (if ((raw &&& 0x9F001FFF).extractLsb' 24 5).toNat < 20 then raw &&& 0x9F001FFF else (raw &&& 0x80001FFF) ||| (old &&& 0x1F000000)) else raw
      (s.core.commands.length < 8 → exec (f.1 n) s = .next ((((s.setProg { s.prog with po := vset s.prog.po i new }).setS rd old).setChunk { s.chunk with held :=
        [.mcmd ⟨s.ctx.id, s.ctx.mseq + 1, s.pc, .csr n 1 new, s.prog.seed, none, 0, none, false⟩] }).retire 1))
      ∧ (8 ≤ s.core.commands.length → exec (f.1 n) s = .next (s.waitOn .matrixRoom)))
    ∧ (∀ f ∈ [((.csrw rd ra 0x030 : Instr), (1 : BitVec 2)), (.csrs rd ra 0x030, 2), (.csrc rd ra 0x030, 3)],
      (rd ≠ 0 → s.chunkEmpty = false → exec f.1 s = .next (s.endChunk .run))
      ∧ ((rd = 0 ∨ s.chunkEmpty = true ∧ s.matrixBusy = false) → s.core.commands.length < 8 → s.chunk.held = [] → exec f.1 s = .next (((s.setS rd s.ctx.qstat).setChunk
        { s.chunk with held := [.mcmd ⟨s.ctx.id, s.ctx.mseq + 1, s.pc, .csr 0x030 f.2 (s.s ra), s.prog.seed, none, 0, none, false⟩] }).retire 1)))
    ∧ (s.chunkEmpty = false → exec (.csrr rd 0x030) s = .next (s.endChunk .run))

/-- R263, R265, R267: entering a trap with a handler and none running: CAUSE, TVALL and TVALH of the firing's bank, TEPC (the 24 bits of the pc, R5), the zeroed
trap bank s56–s63, a fresh chunk and watchdog count, the handler's pc; every other register and all of memory stay. In a handler, or while TVEC reads zero,
the trap kills the context instead: it is gone from its core with its firings and commands, the core is idle, and the event of R267 is posted to its
launch. trap and brk trap at the head of a chunk, and else once their chunk has been released. -/
def Obligations.TrapEntrySavesAndTransfers : Prop :=
  ∀ (s : State) (code : Byte) (lo hi : Word) (d : Bool),
    let t := s.enterTrap code lo hi d
    (s.fir.inTrap = false → s.prog.tvec &&& 0xFFFFFC ≠ 0 →
      t.trapRegs = ⟨BitVec.ofNat 32 ((if d then 256 else 0) + code.toNat), lo, hi⟩ ∧ t.prog.tepc = s.pc &&& 0xFFFFFF ∧ t.pc = s.prog.tvec &&& 0xFFFFFC
      ∧ t.fir.inTrap = true ∧ t.fir.wdcnt = 0 ∧ t.core.status = .running ∧ t.chunk = .fresh ∧ (t.fir.window = (s.fir.window && decide (code ≠ 0x10)))
      ∧ (∀ r : Reg, t.s r = if r.toNat < 56 then s.s r else 0) ∧ (∀ m, t.m m = s.m m) ∧ (∀ v, t.v v = s.v v) ∧ s.SameMemory t
      ∧ t.prog = { s.prog with tepc := s.pc &&& 0xFFFFFF, lo := t.prog.lo, hi := t.prog.hi } ∧ (if s.fir.high then t.prog.lo = s.prog.lo else t.prog.hi = s.prog.hi))
    ∧ ((s.fir.inTrap = true ∨ s.prog.tvec &&& 0xFFFFFC = 0) → s.core.resident = true → s.cur < 8192 → (∀ x ∈ s.core.others, x.id ≠ s.ctx.id) →
      let id := s.ctx.id
      let k := t.coreAt s.cur
      (k.byId id = none ∧ k.resident = false ∧ k.status = .idle ∧ k.under = none ∧ (∀ m ∈ k.mq ++ k.entering, m.ctx ≠ id) ∧ (∀ x ∈ k.copies, x.ctx ≠ id ∨ x.ctx = 0)
        ∧ (∀ p ∈ k.parks, p.slot ≠ s.ctx.slot) ∧ ∀ e ∈ k.handlers, e.2.ctx ≠ id)
      ∧ ∃ ev : List Byte, t = (s.removeCtx s.cur id).postLaunch s.ctx.launch ev ∧ ev.length = 64 ∧ le ev 0 2 = 0x0102 ∧ le ev 2 2 = id.toNat
        ∧ le ev 4 4 = (coord s.cur).toNat ∧ le ev 8 1 = (if s.fir.inTrap = true then s.trapRegs.cause.toNat % 256 else 0) ∧ le ev 9 1 = code.toNat
        ∧ le ev 12 4 = s.prog.tepc.toNat ∧ le ev 16 4 = s.pc.toNat ∧ le ev 24 8 = s.cycle.toNat ∧ zeroAt ev ([10, 11] ++ span 20 24 ++ span 32 64) = true)
    ∧ ∀ n : Reg, (s.chunkEmpty = true → exec (.trap n) s = .next (s.enterTrap 0x12 (n.setWidth 32) 0 false)
        ∧ (s.ctx.debug = false → exec (.brk n) s = .next (s.enterTrap 0x11 (n.setWidth 32) 0 false)))
      ∧ (s.chunkEmpty = false → exec (.trap n) s = .next (s.endChunk (.trap 0x12 (n.setWidth 32) 0 false))
        ∧ (s.ctx.debug = false → exec (.brk n) s = .next (s.endChunk (.trap 0x11 (n.setWidth 32) 0 false))))

/-- R269: tret goes to TEPC, or past the instruction there, and the scalars that the trap bank replaced come back: after a trap and an immediate
tret every register of the firing is as it was before, at a pc of the 24 bits that TEPC holds. Outside a handler tret traps ILLOP. -/
def Obligations.TrapReturnRestores : Prop :=
  (∀ s : State, s.fir.inTrap = true → s.chunkEmpty = true → ∃ t, exec (.tret false) s = .next t ∧ t.pc = s.prog.tepc ∧ t.fir.inTrap = false
      ∧ (∀ r : Reg, t.s r = if h : r.toNat < 56 then s.s r else s.fir.saved[r.toNat - 56]'(by omega)) ∧ t.prog = s.prog ∧ s.SameMemory t)
  ∧ (∀ (s : State) (w : Word), s.fir.inTrap = true → s.chunkEmpty = true → s.codeWord s.prog.tepc.toNat = some w →
      ∃ t, exec (.tret true) s = .next t ∧ t.pc = s.prog.tepc + BitVec.ofNat 32 (4 * wordsOf w))
  ∧ (∀ (s : State) (k : Bool), s.fir.inTrap = false → ∃ w, exec (.tret k) s = .next (s.trap 0x01 w 0))
  ∧ ∀ (s : State) (code : Byte) (lo hi : Word) (d : Bool), s.fir.inTrap = false → s.prog.tvec &&& 0xFFFFFC ≠ 0 → s.pc.toNat < 2 ^ 24 →
    ∃ t, exec (.tret false) (s.enterTrap code lo hi d) = .next t ∧ t.regs = s.regs

/-- R184, R269, R270: prioff opens a window that counts from the next instruction and prion closes it; brk in debug mode stops the
device and moves on; that the context itself is halted with it is the model's choice (DESIGN CHOICE, log 7). -/
def Obligations.WindowsAndDebugBreaks : Prop :=
  ∀ s : State, (∃ t, exec .prioff s = .next t ∧ t.fir.window = true ∧ (s.fir.window = false → t.fir.wcount = 0) ∧ t.regs = (s.advance 1).regs ∧ s.SameMemory t)
    ∧ (∃ t, exec .prion s = .next t ∧ t.fir.window = false ∧ t.regs = (s.advance 1).regs ∧ s.SameMemory t)
    ∧ (s.ctx.debug = true → ∀ n : Reg, ∃ t, exec (.brk n) s = .next t ∧ t.ctx.halted = true ∧ t.atBreak = true ∧ t.regs = (s.advance 1).regs)

/-- R278–R280, R302: an unprotected ctxsav performs the core's released stores (log 56) and writes header and body at its address and its tag after them; where
some of that is held it waits and completes once the held writes are performed, or traps precisely where the tag can then no longer be written; an unprotected ctxrst installs the image's context; fwcall sends its
request to the firmware controller and waits, or answers all ones at once for a service that is none (DEDUCED, log 55). -/
def Obligations.ContextImagesAndServices : Prop :=
  ∀ (s : State) (ra : Pair), s.chunkEmpty = true →
    let a := s.d ra
    let v := s.ctx.vdev
    (a.toNat % 64 = 0 → inTrans a.toNat = true → inTrans (a.toNat + s.ctx.imageLen - 1) = true →
      s.rangeFault v true false (s.ctx.imageLen / 0x10000 + 2) a.toNat s.ctx.imageLen = none → s.core.engineBusy s.ctx.id = false → s.ctx.prot = false →
      let d := s.drain s.cur
      d.core.clean = true → d.badBlock v a.toNat s.ctx.imageLen = none →
      ∃ b, d.Alike b ∧
      let t := (b.vwriteBy s.cur v a.toNat (s.ctx.header 0)).vwriteBy s.cur v (a.toNat + 64) (s.ctx.body (d.core.mem.read s.ctx.base s.ctx.size))
      let tag : DWord × List Byte := (a + 48, List.replicate 16 0)
      let u := t.vwriteBy s.cur v tag.1.toNat tag.2
      (∀ key, t.held = s.held → u.held = s.held → t.xlate v tag.1.toNat true = .ok key → t.bad key 16 = false → exec (.ctxsav ra) s = .next (u.retire 1))
      ∧ ∀ h hs, t.held = s.held ++ h :: hs → exec (.ctxsav ra) s = .next (t.setStatus (.answer (.saved (((h :: hs).map (·.page)).dedup) (some tag)))))
    ∧ (∀ ps rd w, s.cur < 8192 → s.heldFree ps = true → (s.core.status = .answer (.saved ps none) → s.ctx.prot = false →
        exec (.waitResume s.cur) s = .next ((s.setStatus .running).retire 1))
      ∧ (∀ tag : DWord × List Byte, s.core.status = .answer (.saved ps (some tag)) → s.ctx.prot = false →
        let r := s.setStatus .running
        let u := r.vwriteBy s.cur v tag.1.toNat tag.2
        (∀ e, s.xlate v tag.1.toNat true = .error e → exec (.waitResume s.cur) s = .next (r.trapAt e tag.1))
        ∧ ∀ key, s.xlate v tag.1.toNat true = .ok key → (s.bad key 16 = true → exec (.waitResume s.cur) s = .next ((r.noteBad key).trapAt 0x0D tag.1))
          ∧ (s.bad key 16 = false → (u.held = s.held → exec (.waitResume s.cur) s = .next (u.retire 1))
            ∧ ∀ h hs, u.held = s.held ++ h :: hs → exec (.waitResume s.cur) s = .next (u.setStatus (.answer (.saved (((h :: hs).map (·.page)).dedup) none)))))
      ∧ (s.core.status = .answer (.served rd w ps) → exec (.waitResume s.cur) s = .next (((s.setStatus .running).setS rd w).retire 1)))
    ∧ (∀ hd body g, a.toNat % 64 = 0 → inTrans a.toNat = true → s.vread v a.toNat 64 = .ok hd → le hd 0 2 = 1 → (hd.getD 4 0).getLsbD 0 = false →
      let id : Half := BitVec.ofNat 16 (le hd 2 2)
      let cfg : CtxConfig := { g with base := le hd 8 4, size := le hd 12 4, slotQ := le hd 5 1, accQ := le hd 6 1, save := BitVec.ofNat 64 (le hd 32 8) }
      s.declared v id = some g → g.prot = false → le hd 24 4 = imageLen cfg.size cfg.accQ cfg.slotQ → limitsOk id cfg.base cfg.size cfg.slotQ cfg.accQ = true →
      s.rangeFault v false false (le hd 24 4 / 0x10000 + 2) a.toNat (le hd 24 4) = none → s.vread v (a.toNat + 64) (le hd 24 4 - 64) = .ok body →
      (∀ e ∈ s.cores, e.2.byId id = none) → s.installFault s.cur cfg v (s.tileAt s.tile).ter = none →
      exec (.ctxrst ra) s = .next (((s.leaveStub id s.cur).install s.cur ((cfg.ctx s.ctx.launch v s.ctx.block).ofBody body) g.classes
        (slice body 0x1140 cfg.size)).retire 1))
    ∧ ∀ rd (svc : Reg), s.blockFault a.toNat = none → s.globalBusy s.cur = false →
      (svc.toNat < 4 → exec (.fwcall rd ra svc) s = .next ((s.issue s.cur (s.packet (coord firmwareCore) 30 false false none (.service a svc))).setStatus
        (.answer (.service rd a svc))))
      ∧ (4 ≤ svc.toNat → exec (.fwcall rd ra svc) s = .next ((s.setS rd 0xFFFFFFFF).retire 1))

/-! ## The agents of a core -/

/-- R8, R9, R11, R12, R89–R94, R99, R100, R102, R105–R109: up to two commands enter a matrix queue in a cycle of its unit; the next command of a queue starts: a queued write takes effect on its context, mzero records zeros for
its accumulator, mst its sixteen rows, mld its stream over the words it needs; mma gives each element C plus its products in one rounding, with BF16 after the
cut of R91, and a quiet NaN among the operands before infinities of opposite signs are looked for (DESIGN CHOICE, log 62); mqnt the scale and the codes of every row and block, its diverted columns as deposits, and its counts; mamax the greatest magnitude or the
default NaN; one that fails its checks has no effect but its pending fault. A loader takes a step's words where nothing asks for their banks (log 28), and after the last one the image
is the source's element matrix or its transpose. A row is committed at its place and nowhere else. The oldest command completes with every row committed: its
result enters q0, its accumulators, image, flags and counts its context, a fault that arose while it ran becomes pending (log 69). -/
def Obligations.MatrixUnitSteps : Prop :=
  (∀ (s : State) (c k : Nat) (m : MCmd) (x : Ctx), c < 8192 → (s.coreAt c).nextStart = some (k, m) → (s.coreAt c).byId m.ctx = some x →
    let queue (t : State) (f : MCmd → MCmd) : Prop := (t.coreAt c).mq = (s.coreAt c).mq.map fun q => if q.ctx = m.ctx ∧ q.seq = m.seq then f q else q
    let starts (f : MCmd → MCmd) : Prop := ∃ t, exec (.matrixCommandStart c) s = .next t ∧ s.SameMemory t ∧ queue t f
    let faults (code : Byte) : Prop := ∃ t y, exec (.matrixCommandStart c) s = .next t ∧ s.SameMemory t ∧ (t.coreAt c).byId m.ctx = some y
      ∧ y.faults = x.faults ++ [⟨0, code, m.seq, m.pc⟩] ∧ y.mdrop = true ∧ ∀ q ∈ (t.coreAt c).mq, q.ctx = m.ctx → q.seq ≠ m.seq
    (∀ n op v, m.what = .csr n op v → ∃ t, exec (.queuedCsrWrite c) s = .next t ∧ s.SameMemory t ∧ queue t (fun q => { q with eff := some .none })
      ∧ (t.coreAt c).byId m.ctx = some (if n = 0x030 then { x with qstat := csrNew op x.qstat v } else { x with hw := vset x.hw (n.toNat - 0x020) v }))
    ∧ (∀ a, m.what = .cmd (.mzero a) → (a.toNat < x.accQ → starts fun q => { q with eff := some { MEffect.none with accs := [(a.toNat, .replicate 256 0)] }, reads := false })
      ∧ (x.accQ ≤ a.toNat → faults 0x0A))
    ∧ (∀ a (dst : DWord) (st : Word), m.what = .cmd (.mst a dst st) → a.toNat < x.accQ → 64 ≤ st.toNat → dst.toNat % 4 = 0 → st.toNat % 4 = 0 →
      s.matFaults c x ((List.range 16).map fun n => (dst.toNat + n * st.toNat, 64)) = none →
      starts fun q => { q with reads := false, eff := some { MEffect.none with writes := (List.range 16).map fun n => (BitVec.ofNat 64 (dst.toNat + n * st.toNat),
        (List.range 16).flatMap fun i => leBytes 4 (vget (x.acc1 a.toNat) (16 * n + i) 0).toNat) } })
    ∧ (∀ n f tr a st, m.what = .cmd (.mld n f tr a st) → (∀ e, s.startMld c x n f a st = .error e → faults e)
      ∧ ∀ str, s.startMld c x n f a st = .ok str → starts fun q => { q with stream := some str, reads := true })
    ∧ (∀ (a : BitVec 3) sa sb ba bb fa fb k kb, m.what = .cmd (.mma a sa sb ba bb) → a.toNat < x.accQ → sa.toNat < x.slotQ → sb.toNat < x.slotQ →
      let xa := x.prog.slot sa.toNat
      let xb := x.prog.slot sb.toNat
      let ca : BitVec 4 := (vget x.hw 0 0).setWidth 4
      let cb : BitVec 4 := (vget x.hw 1 0).setWidth 4
      xa.claimed = true → xb.claimed = true → xa.full = true → xb.full = true → xa.shapeB = false → xb.shapeB = true → xa.fmt = ca → xb.fmt = cb →
      Fmt.ofCode ca = some fa → Fmt.ofCode cb = some fb → widthClass ca = widthClass cb → shapeOf ca = some k → kb = blocksOf ca →
      let ea (n i : Nat) : FVal := fa.value (elemAt fa.bits (ofBytes xa.image) (n * k.1 + i))
      let eb (i n : Nat) : FVal := fb.value (elemAt fb.bits (ofBytes xb.image) (i * 16 + n))
      let adds (reads : Bool) (sum : FVal → List Exact → Nat × Flags → Prop) (product : Nat → Nat → Nat → Exact) : Prop :=
        ∃ (v : Vector Word 256) (fl : Flags), (starts fun q => { q with reads := reads, eff := some { MEffect.none with accs := [(a.toNat, v)], flags := fl } })
          ∧ ∃ r : Nat → Nat × Flags, (∀ i, i < 256 → vget v i 0 = BitVec.ofNat 32 (r i).1
            ∧ sum (Fmt.f32.value (vget (x.acc1 a.toNat) i 0).toNat) ((List.range k.1).map (product (i / 16) (i % 16))) (r i))
          ∧ ∀ b, fl.getLsbD b = true ↔ ∃ i, i < 256 ∧ (r i).2.getLsbD b = true
      (ca = 0 → adds false CutSumsTo fun n c i => mulV (ea n i) (eb i c))
      ∧ ∀ pa pb, let ranges := [(x.ptr 2, 16 * kb), (x.ptr 4, 16 * kb), (x.ptr 6 + 2 * ba.toNat, 2), (x.ptr 8 + 2 * bb.toNat, 2)]
        ca ≠ 0 → s.matFaults c x ranges = none → s.undisturbed c ranges → bandOf (ofBytes (s.bytesAt c (x.ptr 6 + 2 * ba.toNat) 2)) = some pa →
        bandOf (ofBytes (s.bytesAt c (x.ptr 8 + 2 * bb.toNat) 2)) = some pb → adds true SumsTo fun n m i =>
          let sa := ((s.bytesAt c (x.ptr 2) (16 * kb)).getD (n * kb + i / (k.1 / kb)) 0).toNat
          let sb := ((s.bytesAt c (x.ptr 4) (16 * kb)).getD (i / (k.1 / kb) * 16 + m) 0).toNat
          if sa = 0 ∨ sb = 0 then .of (.fin false 0 0) else mulV (((ea n i).times (scaleMag sa)).times pa) (((eb i m).times (scaleMag sb)).times pb))
    ∧ (∀ (a : BitVec 3) fmt rnd codes cs ss scales f bm be, m.what = .cmd (.mqnt a fmt rnd codes cs ss scales) →
      let groups := if fmt = 5 then 1 else 3
      let cols := 16 * groups
      let w := (cols * f.bits + 7) / 8
      let qcfg := vget x.hw 11 0
      let oasis := vget x.hw 13 0
      let oc := 128 * (oasis.extractLsb' 7 6).toNat + (oasis.extractLsb' 0 7).toNat
      let base := x.ptr 14
      let mode := if rnd = 0 then qcfg.setWidth 3 else rnd - 1
      let ranges := (List.range 16).flatMap fun n => [(codes.toNat + n * cs.toNat, w), (scales.toNat + n * ss.toNat, 2)]
      let el (n j : Nat) : Word := vget (x.acc1 (a.toNat + j / 16)) (16 * n + j % 16) 0
      let v (n j : Nat) : FVal := Fmt.f32.value (el n j).toNat
      let thr := Fmt.f32.value (vget x.hw 12 0).toNat
      let outlier (j : Nat) : Bool := qcfg.getLsbD 8 && !thr.isNan && (cmpV (.fin false 0 0) thr == .gt
        || (List.range 16).any fun n => !(v n j).isNan && cmpV (v n j).abs thr == .gt)
      let outs := (List.range cols).filter outlier
      let gone := outs.take 2
      let live (n b : Nat) : List FVal := (((List.range (cols / 2)).map (b * (cols / 2) + ·)).filter fun j => !gone.contains j).map (v n)
      a.toNat + groups ≤ 8 → a.toNat + groups ≤ x.accQ → fmt ≠ 0 → Fmt.ofCode fmt = some f → bandOf (vget x.hw 10 0).toNat = some (bm, be) → mode.toNat ≤ 4 →
      w ≤ cs.toNat → 2 ≤ ss.toNat → codes.toNat % 4 = 0 → cs.toNat % 4 = 0 → s.matFaults c x ranges = none →
      (qcfg.getLsbD 8 = true → ∀ d off, place base = .glob d off → d = oc) →
      ∃ (t : State) (e : MEffect) (sent : Nat) (cb : Nat → List Byte) (sc : Nat → Nat → Nat),
        let code (n j : Nat) : Nat × Flags := scaledCode f (Mode.ofCode mode) bm be (sc n (j / (cols / 2))) (v n j)
          (if Mode.ofCode mode = .sr then draw16 (stepsSeed (n * cols + j + 1) m.seed) else 0)
        exec (.matrixCommandStart c) s = .next t ∧ s.SameMemory t ∧ queue t (fun q => { q with eff := some e, reads := false, unacked := q.unacked + sent })
        ∧ e.slot = none ∧ e.accs = [] ∧ e.q0 = none ∧ e.diverted = gone.length ∧ e.inPlace = outs.length - gone.length
        ∧ e.writes = ((List.range 16).flatMap fun n => [(BitVec.ofNat 64 (codes.toNat + n * cs.toNat), cb n),
          (BitVec.ofNat 64 (scales.toNat + n * ss.toNat), [BitVec.ofNat 8 (sc n 0), BitVec.ofNat 8 (sc n 1)])])
        ∧ (∀ n, n < 16 → (cb n).length = w ∧ (∀ b, b < 2 → ScaleFor f bm be (live n b) (sc n b))
          ∧ ∀ j, j < cols → elemAt f.bits (ofBytes (cb n)) j = if j ∈ gone then 0 else (code n j).1 % 2 ^ f.bits)
        ∧ (∀ k, e.flags.getLsbD k = true ↔ ∃ n j, n < 16 ∧ j < cols ∧ j ∉ gone ∧ (code n j).2.getLsbD k = true)
        ∧ e.sats = ((List.range 32).filter fun i => (live (i / 2) (i % 2)).any (beyondScales f bm be)).length
        ∧ e.clamps = ((List.range 32).filter fun i => sc (i / 2) (i % 2) != 0 && (live (i / 2) (i % 2)).all (belowScales f bm be)).length
        ∧ (gone = [] → sent = 0 ∧ e.fault = none)
        ∧ ∀ off, place base = .glob oc off → off % 64 = 0 → off + 64 * cols ≤ 0x18000 →
          (tileOf oc = tileOf c ∨ (s.tileAt (tileOf c)).mask.getLsbD (tileOf oc) = true) → s.foreign oc off (64 * cols) x.id = false →
          sent = gone.length ∧ e.fault = none ∧ ∀ j ∈ gone, ∃ p, .packetArrival p ∈ t.agenda ∧ p.src = coord c ∧ p.dst = coord oc ∧ p.cls = 20
            ∧ p.body = .deposit (BitVec.ofNat 64 (base + 64 * j)) ((List.range 16).flatMap fun n => leBytes 4 (el n j).toNat)
              (if oasis.getLsbD 31 then some (oasis.extractLsb' 24 5) else none) (some (BitVec.ofNat 13 oc)) (some m.seq))
    ∧ (∀ (a n : BitVec 3), m.what = .cmd (.mamax a n) → a.toNat + n.toNat < 8 → a.toNat + n.toNat < x.accQ →
      let mag (i k : Nat) : Nat := (vget (x.acc1 (a.toNat + i)) k 0).toNat % 2 ^ 31
      let isNan (i k : Nat) : Prop := i ≤ n.toNat ∧ k < 256 ∧ 0x7F800000 < mag i k
      ∃ v : Word, (starts fun q => { q with reads := false, eff := some { MEffect.none with q0 := some v } })
        ∧ ((∃ i k, isNan i k) → v = 0x7FC00000) ∧ ((∀ i k, ¬ isNan i k) → (∃ i k, i ≤ n.toNat ∧ k < 256 ∧ v.toNat = mag i k)
          ∧ ∀ i k, i ≤ n.toNat → k < 256 → mag i k ≤ v.toNat))
    ∧ (∀ n f tr (a : DWord) (st : Word) str isA rows w k len, m.what = .cmd (.mld n f tr a st) → s.startMld c x n f a st = .ok str → mldShape f st = some (isA, rows, w, k, len) →
      str.got = [] ∧ str.steps = 0 ∧ ∀ i j d off, i < rows → j < w → scrPlace c (a.toNat + i * st.toNat) = some (d, off) →
        ∃ p ∈ str.left, p.core = d ∧ p.row = (off + j) / 128 ∧ (off + j) / 8 % 16 ∈ p.banks)
    ∧ ∀ i, m.what = .cmd i → (∀ n f tr a st, i ≠ .mld n f tr a st) → (∀ e, s.startCmd c x m i = (s, .error e) → faults e)
      ∧ ∀ e ds r, s.startCmd c x m i = (r, .ok (e, ds)) → ∃ t, exec (.matrixCommandStart c) s = .next t
        ∧ (ds = [] → t = r.onCmd c m fun q => { q with eff := some e, reads := (s.coreAt c).willRead m }))
  ∧ (∀ (s : State) (c : Nat) (m : MCmd) (str : Stream) (p : LoadStep) (rest : List LoadStep) n f tr a st,
    (s.coreAt c).mq.find? (fun q => q.stream.any (·.lane = 0)) = some m → m.stream = some str → str.left = p :: rest → m.what = .cmd (.mld n f tr a st) →
    (∀ q ∈ (s.coreAt c).mq, q.stream.any (·.lane = 1) = false) → s.rivals c = false → (s.coreAt p.core).clean = true →
    let t := s.loaderCycle c
    let str' : Stream := { str with
      left := rest, first := (if str.steps = 0 then s.cycle else str.first), last := s.cycle,
      steps := str.steps + 1, got := str.got ++ p.banks.map fun b => ((p.core, 16 * p.row + b), (s.coreAt p.core).mem.read (8 * (16 * p.row + b)) 8) }
    let queue (g : MCmd → MCmd) : Prop := (t.coreAt c).mq = (s.coreAt c).mq.map fun q => if q.ctx = m.ctx ∧ q.seq = m.seq then g q else q
    s.SameMemory t ∧ (rest ≠ [] → queue fun q => { q with stream := some str' })
    ∧ (rest = [] → queue fun q => { q with stream := none, eff := some { MEffect.none with slot := some (n.toNat, mldImage c f tr a st str'.got) } }))
  ∧ (∀ (c : Nat) (f : BitVec 4) (tr : Bool) (a : DWord) (st : Word) got (g : Fmt) isA rows w k len (src : Nat → List Byte), Fmt.ofCode f = some g →
    mldShape f st = some (isA, rows, w, k, len) → (∀ i, i < rows → (src i).length = w ∧ ∃ d off, scrPlace c (a.toNat + i * st.toNat) = some (d, off)
      ∧ ∀ j, j < w → ∃ word, look got (d, (off + j) / 8) = some word ∧ word.getD ((off + j) % 8) 0 = (src i).getD j 0) →
    let v := mldImage c f tr a st got
    let cols := if isA then k else 16
    v.full = true ∧ v.fmt = f ∧ v.shapeB = (isA == tr) ∧ v.image.length = 1536 ∧ (∀ j, len ≤ j → v.image.getD j 0 = 0)
    ∧ ∀ i j, i < rows → j < cols → elemAt g.bits (ofBytes v.image) (if tr then j * rows + i else i * cols + j) = elemAt g.bits (ofBytes (src i)) j)
  ∧ (∀ (s : State) (c k d off : Nat) (m : MCmd) (e : MEffect) (w : DWord × List Byte) (ws : List (DWord × List Byte)), s.MemOk → (s.coreAt c).mq[k]? = some m →
    m.eff = some e → e.writes = w :: ws → scrPlace c w.1.toNat = some (d, off) →
    (s.rowCommit c k).Holds d off w.2 ∧ s.SameOutside (s.rowCommit c k) d off w.2.length)
  ∧ (∀ (s : State) (c : Nat), c < 8192 → (∀ q ∈ (s.coreAt c).mq, q.stream = none) →
    let k := (s.unitCycle c).coreAt c
    k.mq = (s.coreAt c).mq ++ (s.coreAt c).entering.take 2 ∧ k.entering = (s.coreAt c).entering.drop 2 ∧ s.SameMemory (s.unitCycle c))
  ∧ ∀ (s : State) (c : Nat) (m : MCmd) (rest : List MCmd) (e : MEffect) (x : Ctx), c < 8192 → (s.coreAt c).mq = m :: rest → m.eff = some e →
    (s.coreAt c).byId m.ctx = some x → m.unacked = 0 → e.writes = [] → (e.q0 = none ∨ x.q0.length < 8) →
    ∃ t y, exec (.matrixCommandComplete c) s = .next t ∧ (e.fault = none → (t.coreAt c).mq = rest) ∧ (t.coreAt c).byId m.ctx = some y ∧ y.q0 = x.q0 ++ e.q0.toList
      ∧ y.acc = e.accs.foldl (fun a p => vset a p.1 p.2) x.acc ∧ y.prog.fflags = x.prog.fflags ||| e.flags
      ∧ (∀ n v, n < 16 → e.slot = some (n, v) → y.prog.slot n = { x.prog.slot n with full := v.full, fmt := v.fmt, shapeB := v.shapeB, image := v.image })
      ∧ (∀ f ∈ [(0, 12, e.sats), (12, 12, e.clamps), (24, 4, e.diverted), (28, 4, e.inPlace)],
        (y.qstat.extractLsb' f.1 f.2.1).toNat = min (2 ^ f.2.1 - 1) ((x.qstat.extractLsb' f.1 f.2.1).toNat + f.2.2))
      ∧ y.faults = x.faults ++ (e.fault.map fun f => ⟨0, f.1, m.seq, m.pc⟩).toList ∧ s.SameMemory t

/-- R17, R182: a free core takes its only record and its firing starts: header, source and event words, argument block, scratchpad base, payload and
handler pc; every other scalar, mask and index zero, extents one, loops shut, with the context as it was (here the
last to run, or one not saved since its install, R20); that the core's released private stores are performed by then is read from R234 (DEDUCED, log 56). -/
def Obligations.FiringsStartWithTheirRegisters : Prop :=
  ∀ (s : State) (c : Nat) (r : Ready) (h : Handler), c < 8192 → (s.coreAt c).status = .idle → (s.coreAt c).fenced = false → (s.coreAt c).runq = [.fresh r] →
    look (s.coreAt c).handlers r.cls = some h → (s.coreAt c).resident = true → (s.coreAt c).ctx.slot = h.slot →
    ((s.coreAt c).last = true ∨ (s.coreAt c).ctx.saved = false) →
    s.startable c (.fresh r) = true → r.len ≤ 64 →
    ∃ t, exec (.firingChoose c) s = .next t ∧ (t.coreAt c).status = .running ∧ (t.coreAt c).ctx = (s.coreAt c).ctx ∧ (s.drain c).SameMemory t ∧
      let f := (t.coreAt c).fir
      f.regs.getS 1 = BitVec.ofNat 32 (r.cls.toNat + 32 * (r.len - 1) + (if r.inbox = some true then 2048 else 0)
        + (if (if r.kind = 0 then r.pri else h.high) then 4096 else 0) + 8192 * r.kind.toNat)
      ∧ f.regs.getS 2 = r.src.setWidth 32 ∧ f.regs.getS 3 = r.evt ∧ f.regs.getD 2 = (s.coreAt c).ctx.block
      ∧ f.regs.getD 30 = BitVec.ofNat 64 ((s.coreAt c).ctx.base % 2 ^ 32) ∧ f.regs.v0 = r.payload ∧ f.regs.pc = h.pc ∧ f.high = h.high ∧ f.kind = r.kind
      ∧ (∀ i : Reg, i ∉ [(1 : Reg), 2, 3, 4, 5, 60] → f.regs.getS i = 0) ∧ (∀ m : MReg, m ≠ 0 → f.regs.getM m = 0) ∧ f.regs.j = .replicate 4 0
      ∧ f.regs.ext = .replicate 4 1 ∧ f.regs.l0 = .shut ∧ f.regs.l1 = .shut ∧ f.inTrap = false ∧ f.window = false

/-- R143, R151, R183, R186, R187, R229, R230, R232, R265: the steps that schedule a core: a lone request is granted, and squashes the chunks in flight of its tile that
its write signature meets, and no other; a squash discards what its chunk held and puts back what it changed, and after the third the chunk runs solo, in the
order of the tile's solo queue, while no request that meets it is granted; an agent's lone request is granted too, and performed in a later step (log 47); a high firing preempts at a boundary, or a wait for an answer, which it abandons (log 25);
a parked firing whose condition holds is woken; a wait that is over goes on; a spent watchdog budget is latched; a committed trap is entered, and a
pending deferred fault; and a missing line arrives, of the image in the context store or, where it is not there, in memory at its streamer. -/
def Obligations.SchedulingSteps : Prop :=
  (∀ (s : State) (t : Nat) (r : Nat × DWord) (a : After), t < 64 → r.1 < 128 → (s.tileAt t).reqs = [r] → s.grantable t r = true →
    (∀ a ∈ (s.tileAt t).asks, a.won = false ∧ s.askable t a = false) → (∀ d ∈ tileCores t, (s.coreAt d).spills = []) →
    (s.coreAt (coreOf t r.1)).status = .ending a → ∃ u, exec (.commitGrant t) s = .next u ∧ (u.coreAt (coreOf t r.1)).status = .granted a
      ∧ (u.tileAt t).reqs = [] ∧ (u.tileAt t).granted = (s.tileAt t).granted ++ [r.1] ∧ s.SameMemory u
      ∧ ∀ d ∈ tileCores t, d ≠ coreOf t r.1 →
        let k := s.coreAt d
        let w := (s.coreAt (coreOf t r.1)).fir.chunk.wsig
        if k.inFlight = true ∧ k.fir.chunk.solo = false ∧ (meets k.fir.chunk.rsig w = true ∨ meets k.fir.chunk.wsig w = true)
        then u.coreAt d = k.squash ∧ (2 ≤ k.fir.chunk.squashes → localOf d ∈ (u.tileAt t).solo) else u.coreAt d = k)
  ∧ (∀ (k : Core) (p : Snap), k.fir.chunk.snap = some p →
      let q := k.squash
      q.fir.regs = p.regs ∧ q.ctx.prog = p.prog ∧ q.fir.inTrap = p.inTrap ∧ q.fir.saved = p.saved ∧ q.fir.window = p.window ∧ q.fir.wcount = p.wcount
      ∧ q.fir.chunk = { Chunk.fresh with squashes := k.fir.chunk.squashes + 1 } ∧ q.status = (if 2 ≤ k.fir.chunk.squashes then .solo else .running) ∧ q.load = none
      ∧ q.mem = k.mem ∧ q.port = k.port ∧ q.fir.serial = k.fir.serial ∧ q.ctx = { k.ctx with prog := p.prog })
  ∧ (∀ s : State, s.core.status = .solo →
      ((s.tileAt s.tile).solo.head? = some (localOf s.cur) → s.coreTurn = .next ((s.setChunk { s.chunk with solo := true }).setStatus .running))
      ∧ ((s.tileAt s.tile).solo.head? ≠ some (localOf s.cur) → s.coreTurn = .next s))
  ∧ (∀ (s : State) (t l : Nat) (ls : List Nat) (r : Nat × DWord), t < 64 → (s.tileAt t).solo = l :: ls → (s.tileAt t).reqs = [r] → r.1 ≠ l →
      let k := (s.coreAt (coreOf t l)).fir.chunk
      let w := (s.coreAt (coreOf t r.1)).fir.chunk.wsig
      (∀ a ∈ (s.tileAt t).asks, s.askable t a = false) → k.solo = true → (meets k.rsig w = true ∨ meets k.wsig w = true) → exec (.commitGrant t) s = .next s)
  ∧ (∀ (s : State) (t : Nat) (a : Ask), t < 64 → (s.tileAt t).reqs = [] → (s.tileAt t).asks = [a] → a.won = false → s.askable t a = true →
      exec (.commitGrant t) s = .next (s.onTile t fun k => { k with asks := [{ a with won := true }], ptr := (a.place + 1) % 256 }))
  ∧ (∀ (s : State) (i : Nat) (r : Ready) (h : Handler), s.cur < 8192 → s.core.status = .running → s.chunkEmpty = true → s.preemptor s.cur = some (i, .fresh r) →
    look s.core.handlers r.cls = some h → h.slot = s.ctx.slot → s.core.resident = true → s.core.last = true →
    ∃ t, exec (.preemption s.cur) s = .next t ∧ t.core.under = some { s.fir with chunk := .fresh } ∧ t.core.status = .running ∧ t.pc = h.pc ∧ t.fir.cls = r.cls)
  ∧ (∀ (s : State) (i : Nat) (r : Ready) (h : Handler) (a : Answer), s.cur < 8192 → s.core.status = .answer a →
    (match a with
      | .load | .saved _ _ | .switched _ => False
      | _ => True) → s.preemptor s.cur = some (i, .fresh r) → look s.core.handlers r.cls = some h → h.slot = s.ctx.slot → s.core.resident = true → s.core.last = true →
    ∃ t f, exec (.preemption s.cur) s = .next t ∧ t.core.under = some f ∧ f.regs = s.regs ∧ f.serial = s.core.serial + 1 ∧ t.core.status = .running ∧ t.pc = h.pc
      ∧ ∀ e ∈ t.agenda, answersCore s.cur e = false)
  ∧ (∀ (s : State) (c k : Nat) (p : Park) (x : Ctx), c < 8192 → (s.coreAt c).parks.find? (·.key = k) = some p → (s.coreAt c).ctxs.find? (·.slot = p.slot) = some x →
    p.woken = false → s.queueReady x p.q p.push = true →
    ∃ t, exec (.parkWake c k) s = .next t ∧ (t.coreAt c).parks.find? (·.key = k) = some { p with woken := true } ∧ s.SameMemory t)
  ∧ (∀ (s : State) (c : Nat) (w : WaitFor), c < 8192 → (s.coreAt c).status = .waiting w → s.waitOver c w = true →
    (match w with
      | .sync _ _ | .parkRoom _ _ _ => False
      | _ => True) → exec (.waitResume c) s = .next ((s.goto c).setStatus .running))
  ∧ (∀ (s : State) (c d : Nat), c < 8192 → (s.coreAt c).status = .waiting (.sync d []) → exec (.waitResume c) s = .next (((s.goto c).setStatus .running).retire 1))
  ∧ (∀ (s : State) (c : Nat) (q : QReg) (push : Bool) (w : ThawWait), c < 8192 → (s.coreAt c).status = .waiting (.parkRoom q push w) →
    (s.queueReady (s.coreAt c).ctx q push = true → exec (.waitResume c) s = .next ((s.goto c).setStatus .running))
    ∧ (s.queueReady (s.coreAt c).ctx q push = false → (s.coreAt c).parks.length < 8 →
      exec (.waitResume c) s = .next (((s.goto c).setStatus .running).parkAs q push w)))
  ∧ (∀ (s : State) (c : Nat), c < 8192 → (s.coreAt c).status ≠ .idle → (s.coreAt c).fir.timeout = false →
    (s.coreAt c).ctx.prog.wdog.toNat ≤ (s.coreAt c).fir.wdcnt → ∃ t, exec (.watchdogExpiry c) s = .next t ∧ (t.coreAt c).fir.timeout = true ∧ s.SameMemory t)
  ∧ (∀ (s : State) (c : Nat) (code : Byte) (lo hi : Word) (d : Bool), c < 8192 → (s.coreAt c).status = .entry code lo hi d →
    exec (.trapEntry c) s = .next ((s.goto c).enterTrap code lo hi d))
  ∧ (∀ (s : State) (f : Deferred) (fs : List Deferred), s.cur < 8192 → s.core.status = .running → s.ctx.halted = false → s.preemptor s.cur = none →
    s.chunkEmpty = true → s.fir.inTrap = false → s.ctx.faults = f :: fs → ∃ t : State, exec (.trapEntry s.cur) s = .next (t.enterTrap f.code f.lo f.hi true)
      ∧ t.ctx.faults = fs ∧ (f.rank = 0 → t.prog.po = s.ctx.hw) ∧ t.regs = s.regs ∧ s.SameMemory t)
  ∧ ∀ (s : State) (c l : Nat), c < 8192 → (s.coreAt c).status = .fetch → (s.coreAt c).missing = some l →
    let k := s.coreAt c
    let filled (i : Instr) (byte : Nat → Byte) (t : State) : Prop := exec i s = .next t ∧ (t.coreAt c).status = .running ∧ (k.ctx.id, l) ∈ (t.coreAt c).cache
      ∧ (∀ i, i < k.ctx.code.length → (t.coreAt c).ctx.code.getD i 0 = if 64 * l ≤ i ∧ i < 64 * l + 64 then byte i else k.ctx.code.getD i 0) ∧ s.SameMemory t
    (∀ img, look (s.tileAt (tileOf c)).store k.ctx.id = some img → img.length = k.ctx.code.length → ∃ t, filled (.configCacheFill c) (fun i => img.getD i 0) t)
    ∧ (look (s.tileAt (tileOf c)).store k.ctx.id = none → s.codeComes c k.ctx = true → s.badImage k.ctx = none → ∃ t, filled (.codeFetchComplete c l) (fun i => s.gmem.get (k.ctx.codeKey + i)) t
      ∧ ∃ img, (k.ctx.id, img) ∈ (t.tileAt (tileOf c)).store ∧ ∀ i, i < k.ctx.code.length → img.getD i 0 = s.gmem.get (k.ctx.codeKey + i))

/-! ## The mesh and the agents of memory -/

/-- R2, R179, R181, R188, R215, R219, R220, R222, R223, R257, R314, R317: a packet whose class's routes lead past the mesh's edge, or that a border stops, is refused. One
that arrives is taken by its agent, or it is a message that is enqueued with its header, refused and tried again, or sent on by a stub. A NACK is
retried up to 64 times, the source's copy one older each time, or fails the packet; an acknowledgement frees the pool entry; a stub's NACK asks the
directory of the territory of the core that refused it, by class 25 both ways (log 55), whose answer sends the packet on. Before step 5 of a transfer a request for a class that is still there
is refused with reason 1, and a reply without an entry, or without room, is taken and dropped. An agent whose buffer, of at least one place, is full refuses (log 52). The head flit's fields stand where R215 has them, the payload lies in the flits byte by byte from there on (log 54), and the attachments lie on their dies. -/
def Obligations.PacketSteps : Prop :=
  (∀ (s : State) (p : Packet), isLocal p.dst = true → isLocal p.src = true → p.via = none →
    let d := ofCoord p.dst
    let way := s.way p.cls (ofCoord p.src) d
    let lets := s.borderOk p.cls (some p.ter) (!(Packet.toStreamer p) && s.crosses p.cls (ofCoord p.src) d) d
    let refused (reason : Nat) (hint : Half) : Prop := exec (.packetArrival p) s = .next { s with agenda := s.agenda ++ [.nackReceived p reason hint] }
    let sends (e : Ev) : Prop := ∃ t, exec (.packetArrival p) s = .next t ∧ s.SameMemory t ∧ ∃ r, t.agenda = s.agenda ++ r ∧ e ∈ r
    let waits (e : Ev) : Nat := (s.agenda.filter fun x => agentOf x == agentOf e).length
    (way = .edge → refused 5 0) ∧ (way = .there → lets = false → refused 4 0)
    ∧ (way = .there → lets = true →
      (∀ bs h, p.body = .message bs → p.reply = false → (s.coreAt d).fenced = false → look (s.coreAt d).handlers p.cls = some h →
        ((s.tileAt (tileOf d)).xfer.before5 = true → refused 1 0) ∧ ((s.tileAt (tileOf d)).xfer.before5 = false →
        ((s.coreAt d).masked p.cls = false → (s.coreAt d).inboxUsed false < 24 → ∃ t, exec (.packetArrival p) s = .next t ∧ s.SameMemory t
          ∧ (t.coreAt d).runq = (s.coreAt d).runq ++ [.fresh ⟨p.cls, 0, some false, p.hiPri, bs.length, p.src, 0, bytesVec bs, p.launch, s.cycle⟩])
        ∧ ((s.coreAt d).masked p.cls = true → refused 1 0)
        ∧ ((s.coreAt d).masked p.cls = false → 24 ≤ (s.coreAt d).inboxUsed false → refused 2 0)))
      ∧ (∀ bs h, p.body = .message bs → p.reply = true → (s.coreAt d).fenced = false → look (s.coreAt d).handlers p.cls = some h → 8 ≤ (s.coreAt d).inboxUsed true →
        ((s.tileAt (tileOf d)).xfer.before5 = true → p.pool = some true →
          exec (.packetArrival p) s = .next { s with agenda := s.agenda ++ [.ackReceived (ofCoord p.src) true p.seq] })
        ∧ ((s.tileAt (tileOf d)).xfer.before5 = false → refused 2 0))
      ∧ (∀ bs, p.body = .message bs → ((s.coreAt d).fenced = true → refused 3 0)
        ∧ ((s.coreAt d).fenced = false → look (s.coreAt d).handlers p.cls = none →
          (∀ b, (s.coreAt d).stubs.find? (fun b => b.mask.getLsbD p.cls.toNat) = some b →
            (p.fwd.toNat < 4 → exec (.packetArrival p) s = .next { s with agenda := s.agenda ++ [.packetArrival { p with fwd := p.fwd + 1, via := some (d, b.at_) }] })
            ∧ (4 ≤ p.fwd.toNat → refused 6 b.ctx))
          ∧ ((s.coreAt d).stubs = [] → ∀ id, id ≠ 0 → look (s.coreAt d).departed p.cls = some id → refused 6 id)
          ∧ ((s.coreAt d).stubs = [] → look (s.coreAt d).departed p.cls = none →
            (((s.tileAt (tileOf d)).xfer.before5 = false ∨ p.reply = false) → refused 3 0)
            ∧ ((s.tileAt (tileOf d)).xfer.before5 = true → p.reply = true → p.pool = some true →
              exec (.packetArrival p) s = .next { s with agenda := s.agenda ++ [.ackReceived (ofCoord p.src) true p.seq] }))))
      ∧ (let takes (e : Ev) : Prop := (waits e = 0 → sends e) ∧ (max 1 Config.agentBuffer ≤ waits e → refused 2 0)
        (∀ ea bs trig f m, p.body = .deposit ea bs trig f m → takes (.depositWrite p))
        ∧ (∀ op dbl ea v w trig ret, p.body = .atomic op dbl ea v w trig ret → takes (.atomicStep p)) ∧ (∀ ea, p.body = .claim ea → takes (.nestClaimStep p))
        ∧ (∀ k id dst ty op parts tl off total bs, p.body = .contribute k id dst ty op parts tl off total bs → takes (.xredContribution p))
        ∧ (∀ l, p.body = .kend l → takes (.kendArrival p)) ∧ (∀ l bs, p.body = .post l bs → takes (.hpostArrival p))
        ∧ (∀ l va, p.body = .walk l va → takes (.walkBegin p)) ∧ (p.body = .mark → takes (.stepMark p)))
      ∧ (∀ blk n, p.body = .service blk n → (s.service = [] → ∃ t, exec (.packetArrival p) s = .next t ∧ t.service = [p] ∧ s.SameMemory t)
        ∧ (max 1 Config.agentBuffer ≤ s.service.length → refused 2 0))
      ∧ ∀ b, p.body = .arrive b → (s.coreAt d).fenced = true → refused 3 0))
  ∧ (∀ (s : State) (p : Packet), exec (.routerDrop p) s = .next { s with agenda := s.agenda ++ [.nackReceived p 0 0] }
    ∧ (∀ r hint, r ≤ 3 → p.retries < 64 → exec (.nackReceived p r hint) s = .next { s.count 2 with agenda := s.agenda ++ [.retryTimerExpiry p] })
    ∧ (∀ r hint, r ≤ 3 → 64 ≤ p.retries → exec (.nackReceived p r hint) s = .next ((s.count 2).fails p 0x13))
    ∧ (∀ hint, exec (.nackReceived p 4 hint) s = .next ((s.count 2).fails p 0x06) ∧ exec (.nackReceived p 5 hint) s = .next ((s.count 2).fails p 0x13)
      ∧ exec (.nackReceived p 6 hint) s = .next { s.count 2 with agenda := s.agenda ++ [.directoryLookup p hint] })
    ∧ exec (.retryTimerExpiry p) s = .next { s with agenda := s.agenda ++
        [.packetArrival { p with retries := p.retries + 1, age := if p.age = 15 then 15 else p.age + 1, fwd := 0, via := none }] }
    ∧ (∀ c reply seq, c < 8192 → ∃ t, exec (.ackReceived c reply seq) s = .next t ∧ s.SameMemory t
      ∧ (t.coreAt c).pool = (s.coreAt c).pool.filter fun e => !(e.packet.reply == reply && e.seq == seq))
    ∧ (∀ h id, s.homeOf (s.terOf (ofCoord (Packet.to p))) = some h → s.way 25 (ofCoord p.src) (territoryCore h) = .there →
      (s.way 25 (territoryCore h) (ofCoord p.src) = .there →
        exec (.directoryLookup p id) s = .next { s with agenda := s.agenda ++ [.directoryAnswer p (look (s.tileAt h).dir id)] })
      ∧ (s.way 25 (territoryCore h) (ofCoord p.src) = .edge → exec (.directoryLookup p id) s = .next (s.fails p 0x13)))
    ∧ (∀ id, s.homeOf (s.terOf (ofCoord (Packet.to p))) = none → exec (.directoryLookup p id) s = .next { s with agenda := s.agenda ++ [.directoryAnswer p none] })
    ∧ exec (.directoryAnswer p none) s = .next (s.fails p 0x13)
    ∧ ∀ d, exec (.directoryAnswer p (some d)) s = .next { s with agenda := s.agenda ++ [.packetArrival { p with dst := d, fwd := 0, via := none }] })
  ∧ (∀ p : Packet, let h := Packet.header p
    h.extractLsb' 21 21 = p.src ∧ (p.via = none → h.extractLsb' 0 21 = p.dst) ∧ h.extractLsb' 42 2 = 0 ∧ h.extractLsb' 44 5 = p.cls ∧ h.getLsbD 49 = p.reply
    ∧ h.extractLsb' 58 6 = p.ter ∧ h.extractLsb' 64 16 = p.seq ∧ h.extractLsb' 80 4 = p.age ∧ h.getLsbD 84 = p.hiPri ∧ h.extractLsb' 96 32 = p.launch)
  ∧ (∀ p : Packet, (Packet.flits p) = 1 + ((Packet.payload p).length - 16 + 31) / 32 ∧ (∀ k, (Packet.flit p k).2.2 = decide (k + 1 = (Packet.flits p)))
    ∧ (Packet.flit p 0).1.extractLsb' 0 128 = (Packet.header p) ∧ ∀ i, i < (Packet.payload p).length → (Packet.payload p).getD i 0 = if i < 16 then (Packet.flit p 0).1.extractLsb' (128 + 8 * i) 8
      else (Packet.flit p ((i - 16) / 32 + 1)).1.extractLsb' (8 * ((i - 16) % 32)) 8)
  ∧ (∀ i, i < 512 → dieOf (streamerCore i) = i / 128) ∧ (∀ d, d < 4 → dieOf (dispatcherCore d) = d) ∧ dieOf firmwareCore = 0 ∧ dieOf checkpointCore = 0

/-- R74, R79, R130, R194, R196, R206: the agents of memory: a deposit writes exactly its bytes, an atomic exactly its word with the value its operation
makes, a claim advances its descriptor, though released private stores of the owning core may be performed between the read and the write of the last two
(DESIGN CHOICE, log 71), of which those to the rest of the words read are written over with the bytes that were read (R130); their answers write the registers that wait for them; an arrival counts, and advances its barrier when
the expected arrivals are there and no bytes pend. -/
def Obligations.MemoryAgentSteps : Prop :=
  (∀ (s : State) (p : Packet) (ea : DWord) (c off : Nat), s.MemOk → scrPlace (ofCoord p.src) ea.toNat = some (c, off) → (s.coreAt c).fenced = false →
    (∀ bs f, p.body = .deposit ea bs none f none → s.foreign c off bs.length p.ctx = false →
      ∃ t, exec (.depositWrite p) s = .next t ∧ t.Holds c off bs ∧ s.SameOutside t c off bs.length)
    ∧ ∀ op dbl v w ret, p.body = .atomic op dbl ea v w none ret → (s.coreAt c).clean = true →
      let n := if dbl then 8 else 4
      s.foreign c off n p.ctx = false →
      ∃ t u, exec (.atomicStep p) s = .next t ∧ (u = s ∨ u = s.drain c) ∧ u.SameOutside t c (off / 8 * 8) ((off + n + 7) / 8 * 8 - off / 8 * 8)
        ∧ (∀ a, off / 8 * 8 ≤ a → a < (off + n + 7) / 8 * 8 → ¬ (off ≤ a ∧ a < off + n) → (t.coreAt c).mem.get a = (s.coreAt c).mem.get a)
        ∧ t.Holds c off (leBytes n (amoResult op n (ofBytes ((s.coreAt c).mem.read off n)) (v.toNat % 2 ^ (8 * n)) (w.toNat % 2 ^ (8 * n)))))
  ∧ (∀ (s : State) (p : Packet) (ea : DWord) (key : Nat), s.MemOk → inTrans ea.toNat = true → s.xlate p.vdev ea.toNat true = .ok key → s.isProt key = false →
    (∀ bs f, p.body = .deposit ea bs none f none →
      ∃ t, exec (.depositWrite p) s = .next t ∧ (∀ k, k < bs.length → t.gmem.get (key + k) = bs.getD k 0) ∧ s.SameGlobalOutside t key bs.length)
    ∧ ∀ op dbl v w ret, p.body = .atomic op dbl ea v w none ret →
      let n := if dbl then 8 else 4
      s.bad key n = false → ∃ t, exec (.atomicStep p) s = .next t ∧ s.SameGlobalOutside t key n
        ∧ ∀ k, k < n → t.gmem.get (key + k) =
          (leBytes n (amoResult op n (ofBytes (s.gmem.read key n)) (v.toNat % 2 ^ (8 * n)) (w.toNat % 2 ^ (8 * n)))).getD k 0)
  ∧ (∀ (s : State) (p : Packet) (ea : DWord) (c off : Nat), s.MemOk → p.body = .claim ea → scrPlace (ofCoord p.src) ea.toNat = some (c, off) →
    (s.coreAt c).fenced = false → (s.coreAt c).clean = true →
    let bs := (s.coreAt c).mem.read off 24
    let next := le bs 0 4
    let rem := le bs 4 4 - next
    let cnt := min rem (max (max 1 (le bs 8 4)) ((rem + max 1 (le bs 12 4) - 1) / max 1 (le bs 12 4)))
    ∃ t u, exec (.nestClaimStep p) s = .next t ∧ (u = s ∨ u = s.drain c) ∧ t.Holds c off (leBytes 4 ((next + cnt) % 2 ^ 32))
      ∧ u.SameOutside t c (off / 8 * 8) ((off + 11) / 8 * 8 - off / 8 * 8)
      ∧ ∀ a, off / 8 * 8 ≤ a → a < (off + 11) / 8 * 8 → ¬ (off ≤ a ∧ a < off + 4) → (t.coreAt c).mem.get a = (s.coreAt c).mem.get a)
  ∧ (∀ (s : State) (c : Nat) (rt : Reg) (ea old : DWord), c < 8192 → (s.coreAt c).status = .answer (.atomic rt false ea) →
    exec (.atomicReturn c old 0) s = .next ((((s.goto c).setStatus .running).setS rt (old.setWidth 32)).advance 2))
  ∧ (∀ (s : State) (c : Nat) (rt : Reg) (ea old : DWord), c < 8192 → (s.coreAt c).status = .answer (.atomic rt true ea) →
    exec (.atomicReturn c old 0) s = .next ((((s.goto c).setStatus .running).setD (BitVec.ofNat 5 (rt.toNat / 2)) old).advance 2))
  ∧ (∀ (s : State) (c : Nat) (rd : Reg) (ea : DWord) (start cnt : Word) (ext : BitVec 64), c < 8192 → (s.coreAt c).status = .answer (.claim rd ea) →
    let e (i : Nat) : Nat := ext.toNat / 2 ^ (16 * i) % 2 ^ 16
    exec (.nestClaimReturn c start cnt ext 0) s = .next (((((s.goto c).setStatus .running).setRegs { (s.coreAt c).fir.regs with
      j := #v[BitVec.ofNat 32 (start.toNat % e 0), BitVec.ofNat 32 (start.toNat / e 0 % e 1), BitVec.ofNat 32 (start.toNat / (e 0 * e 1) % e 2),
        BitVec.ofNat 32 (start.toNat / (e 0 * e 1 * e 2) % e 3)]
      ext := #v[BitVec.ofNat 16 (e 0), BitVec.ofNat 16 (e 1), BitVec.ofNat 16 (e 2), BitVec.ofNat 16 (e 3)] }).setS rd cnt).advance 1))
  ∧ (∀ (s : State) (c n : Nat) (rt : Reg) (ea : DWord) (bs : List Byte), c < 8192 → (s.coreAt c).status = .answer .load →
    (s.coreAt c).load = some ⟨.scalar false, rt, none, [(ea, 0, n)]⟩ → (s.coreAt c).fir.chunk.held = [] → inTrans ea.toNat = true →
    s.vread (s.coreAt c).ctx.vdev ea.toNat n = .ok bs → (s.goto c).dataComes ea.toNat = true →
    exec (.translatedLoadReturn c) s = .next (({ s.goto c with core := { (s.goto c).core with load := none, status := .running } }.setS rt
      (BitVec.ofNat 32 (ofBytes bs))).retire 2))
  ∧ ∀ (s : State) (c : Nat) (b : BitVec 7) (x : Bar), c < 8192 → (s.coreAt c).bar b = x → (s.coreAt c).barq = [] →
    (∀ e cls en l, ∃ t, exec (.barrierUpdate c [.init b e cls en l]) s = .next t ∧ s.SameMemory t
      ∧ (t.coreAt c).bar b = { x with expected := e, arrivals := 0, pending := 0, cls := cls, enable := en, launch := l })
    ∧ (x.enable = false → x.arrivals ≠ 0xFFFF → ∃ t, exec (.barrierUpdate c [.arrive b]) s = .next t ∧ s.SameMemory t
      ∧ (t.coreAt c).bar b = if x.expected.toNat ≤ x.arrivals.toNat + 1 ∧ x.pending = 0
        then { x with phase := !x.phase, arrivals := x.arrivals + 1 - x.expected, held := false } else { x with arrivals := x.arrivals + 1 })

/-! ## Copies and channels -/

/-- R169–R172, R209, R210, R215: a copy that passes its checks is sent whole and then written piece by piece (log 32), each piece exactly its bytes; its completion
moves XIDC past it and makes its record; a waiting record enters q1; the packets of a contribution are brought together at its agent, where a first one
is written and a later one combined, exactly its bytes; and so is a broadcast (log 33). -/
def Obligations.CopySteps : Prop :=
  (∀ (s : State) (c : Nat) (t : Transfer) (k : BitVec 2) (len pat : Word) (dst : DWord) (tl : CopyTail), s.MemOk → c < 8192 → (s.coreAt c).copies = [t] →
    t.cmd = .cpfill k len dst pat tl → tl.barOn = false → t.fault = none → t.done = false →
    (∀ x, t.sent = false → (s.coreAt c).byId t.ctx = some x → s.copyCheck c x t.cmd = none → ∃ u, exec (.copyPieceWrite c t.chan t.key 0) s = .next u
      ∧ (u.coreAt c).copies = [{ t with sent := true, left := if len = 0 then [] else [(0, len.toNat)] }] ∧ s.SameMemory u)
    ∧ ∀ p d off n, t.sent = true → beginsPiece t.left p = true → n = (CopyPlan.piece ⟨1, len.toNat, 0, 0, dst.toNat, 0, some pat⟩ p).2.2 → p < len.toNat →
      scrPlace c (dst.toNat + p) = some (d, off) → s.takesPiece c d d = true → ∃ u, exec (.copyPieceWrite c t.chan t.key p) s = .next u
        ∧ u.Holds d off ((List.range n).map fun i => BitVec.ofNat 8 (pat.toNat / 256 ^ ((p + i) % 4))) ∧ s.SameOutside u d off n
        ∧ (u.coreAt c).copies = [{ t with left := cutRange t.left p n }])
  ∧ (∀ (s : State) (c p : Nat) (t : Transfer) (pl : CopyPlan) (tl : CopyTail), s.MemOk → c < 8192 → (s.coreAt c).copies = [t] → planOf t.cmd = some pl →
    pl.fill = none → tailOf t.cmd = some tl → tl.barOn = false → t.fault = none → t.done = false → t.sent = true → beginsPiece t.left p = true →
    s.pieceAstray c t p = false →
    let src := (pl.piece p).1
    let dst := (pl.piece p).2.1
    let n := (pl.piece p).2.2
    let a := s.sourceAgent c t src dst
    let writes (d off : Nat) (bs : List Byte) : Prop := ∃ u, exec (.copyPieceWrite c t.chan t.key p) s = .next u ∧ u.Holds d off bs
      ∧ s.SameOutside u d off n ∧ (u.coreAt c).copies = [{ t with left := cutRange t.left p n }]
    (∀ e oe d off, scrPlace c src = some (e, oe) → (s.coreAt e).clean = true → s.takesPiece c c e = true → scrPlace c dst = some (d, off) → s.takesPiece c a d = true →
      writes d off ((s.coreAt e).mem.read oe n))
    ∧ (∀ key d off, inTrans src = true → s.xlate t.vdev src false = .ok key → s.bad key n = false → scrPlace c dst = some (d, off) → s.takesPiece c a d = true →
      writes d off (s.gmem.read key n))
    ∧ ∀ e oe key, scrPlace c src = some (e, oe) → (s.coreAt e).clean = true → s.takesPiece c c e = true → inTrans dst = true → s.xlate t.vdev dst true = .ok key →
      s.isProt key = false → s.way 23 a (streamerAt key) = .there → ∃ u, exec (.copyPieceWrite c t.chan t.key p) s = .next u
        ∧ (∀ i, i < n → u.gmem.get (key + i) = (s.coreAt e).mem.get (oe + i)) ∧ s.SameGlobalOutside u key n)
  ∧ (∀ (s : State) (c : Nat) (t : Transfer) (x : Ctx), c < 8192 → (s.coreAt c).copies = [t] → s.transferOver c t = true → t.fault = none →
    (s.coreAt c).byId t.ctx = some x → x.xdone = [] → t.id = x.xidc[t.chan.toNat]'(by omega) + 1 → x.q1wait = [] → x.q1.length < 16 →
    ∃ u y, exec (.copyComplete c t.chan t.key) s = .next u ∧ (u.coreAt c).copies = [] ∧ (u.coreAt c).byId t.ctx = some y
      ∧ y.xidc[t.chan.toNat]'(by omega) = t.id ∧ y.q1 = x.q1 ++ (if (tailOf t.cmd).any (·.toQ1) then [(t.id, t.chan)] else []) ∧ s.SameMemory u)
  ∧ (∀ (s : State) (c : Nat) (r : Word × BitVec 2) (rs : List (Word × BitVec 2)), c < 8192 → (s.coreAt c).ctx.q1wait = r :: rs → (s.coreAt c).ctx.q1.length < 16 →
    ∃ u, exec (.q1Record c) s = .next u ∧ (u.coreAt c).ctx.q1 = (s.coreAt c).ctx.q1 ++ [r] ∧ (u.coreAt c).ctx.q1wait = rs)
  ∧ (∀ (s : State) (p : Packet) (k : BitVec 2) (key : Nat) (dst : DWord) (ty : VTy) (op : BitVec 2) (parts : BitVec 13) (tl : CopyTail) (at' total : Nat) (bit bs : List Byte)
    (d off : Nat), s.MemOk → p.body = .contribute k key dst ty op parts tl at' total bit → tl.barOn = false → scrPlace (ofCoord p.src) dst.toNat = some (d, off) →
    (s.coreAt d).fenced = false →
    (s.wholeOf d p = none → ∃ u, exec (.xredContribution p) s = .next u ∧ s.SameMemory u ∧ (u.coreAt d).arrived = (s.coreAt d).arrived ++ [⟨p.src, key, at', bit⟩])
    ∧ (s.wholeOf d p = some bs →
    let n := bs.length / (tyWidth ty / 8)
    ((s.coreAt d).rounds = [] → ∃ u, exec (.xredContribution p) s = .next u ∧ u.Holds d off bs ∧ s.SameOutside u d off bs.length
      ∧ (u.coreAt d).rounds = if parts = 1 then [] else [⟨dst, n, ty, op, parts.toNat, 1⟩])
    ∧ ∀ k, 0 < k → (s.coreAt d).rounds = [⟨dst, n, ty, op, parts.toNat, k⟩] → (s.coreAt d).clean = true → ∃ u, exec (.xredContribution p) s = .next u
      ∧ u.Holds d off (combine ty op ((s.coreAt d).mem.read off bs.length) bs)
      ∧ (u.coreAt d).rounds = if k + 1 = parts.toNat then [] else [⟨dst, n, ty, op, parts.toNat, k + 1⟩]))
  ∧ (∀ (s : State) (d : Nat) (p : Packet) (k : BitVec 2) (key : Nat) (dst : DWord) (ty : VTy) (op : BitVec 2) (parts : BitVec 13) (tl : CopyTail) (at' : Nat) (bit whole : List Byte),
    p.body = .contribute k key dst ty op parts tl at' whole.length bit →
    let ps := ((s.coreAt d).arrived.filter fun a => a.src = p.src && a.key = key) ++ [⟨p.src, key, at', bit⟩]
    (∀ a ∈ ps, a.off + a.bytes.length ≤ whole.length ∧ a.bytes = (whole.drop a.off).take a.bytes.length) →
    ((ps.map (·.bytes.length)).sum < whole.length → s.wholeOf d p = none)
    ∧ (whole.length ≤ (ps.map (·.bytes.length)).sum → (∀ i, i < whole.length → ∃ a ∈ ps, a.off ≤ i ∧ i < a.off + a.bytes.length) → s.wholeOf d p = some whole))
  ∧ ∀ (s : State) (c d p : Nat) (t : Transfer) (k : BitVec 2) (n : Half) (ty : VTy) (src dst : DWord) (tl : CopyTail) (parts : BitVec 13) (off : Nat),
    let m := t.bytes.length
    let target := d + p / m
    let o := p % m
    let l := min 64 (m - o)
    s.MemOk → c < 8192 → (s.coreAt c).copies = [t] → t.cmd = .xbcast k n ty src dst tl parts → tl.barOn = false → t.fault = none → t.done = false →
    o % 64 = 0 → t.left.any (fun r => decide (r.1 ≤ p ∧ p < r.2)) = true → scrPlace c dst.toNat = some (d, off) → s.takesPiece c c target = true →
    s.way 23 c target ≠ .astray → ∃ u, exec (.xbcastWrite c t.chan t.key p) s = .next u ∧ u.Holds target (off + o) ((t.bytes.drop o).take l)
      ∧ s.SameOutside u target (off + o) l ∧ (u.coreAt c).copies = [{ t with left := cutRange t.left p l }]

/-- R142, R148–R157, R166: the steps of a channel: an element enters its slot of the ring and is acknowledged; one that no way or a border stops, or whose consumer is gone,
makes the channel suspect, and its window slot comes back (DEDUCED, log 55); acknowledgements, XON and empty notices
reach the producer; a spilled element is written at its slot; a refill brings one element after another into the ring (R215) and asks for the notice after the last; the thaw unit stamps a wait and passes probes on; the pool grants
what it holds to a draw of class 25, by an answer of class 23 (DEDUCED, log 55), and the limit grows. -/
def Obligations.ChannelSteps : Prop :=
  ∀ (s : State) (ch : BitVec 15) (k : Chan), s.chanAt ch = some k →
    (∀ bytes, s.MemOk → s.dataWay (ofCoord k.producer) k = .there → s.consumerLives k = true →
      bytes.length = 2 ^ k.esize →
      let d := ofCoord k.consumer
      let off := k.ring + k.entered % k.capacity * 2 ^ k.esize
      ∃ t k', exec (.channelElementEnter ch k.entered false bytes) s = .next t ∧ t.Holds d off bytes ∧ s.SameOutside t d off bytes.length
        ∧ t.chanAt ch = some k' ∧ k'.entered = k.entered + 1 ∧ .channelAckReceived ch (decide (k.off ≤ k.entered + 1 - k.read.toNat)) ∈ t.agenda)
    ∧ (∀ eos bytes, (s.dataWay (ofCoord k.producer) k = .edge ∨ s.dataWay (ofCoord k.producer) k = .barred
        ∨ s.dataWay (ofCoord k.producer) k = .there ∧ s.consumerLives k = false) →
      ∃ t k', exec (.channelElementEnter ch k.entered eos bytes) s = .next t ∧ t.chanAt ch = some k' ∧ k'.suspect = true
        ∧ .channelAckReceived ch false ∈ t.agenda)
    ∧ (∀ x, ∃ t k', exec (.channelAckReceived ch x) s = .next t ∧ t.chanAt ch = some k' ∧ k'.out = k.out - 1 ∧ k'.prodXoff = (k.prodXoff || x) ∧ s.SameMemory t)
    ∧ (∃ t k', exec (.xonReceived ch) s = .next t ∧ t.chanAt ch = some k' ∧ k'.prodXoff = false ∧ s.SameMemory t)
    ∧ (∀ key eos bytes, s.MemOk → s.way 24 (ofCoord k.producer) (streamerCore k.streamer) = .there → s.xlate k.vdev (k.spillBase.toNat + k.tail * 2 ^ k.esize) true = .ok key → s.isProt key = false → k.ahead = [] →
      bytes.length = 2 ^ k.esize → ∃ t k', exec (.spillWrite ch k.tail k.strEpisode eos bytes) s = .next t ∧ (∀ i, i < bytes.length → t.gmem.get (key + i) = bytes.getD i 0)
        ∧ s.SameGlobalOutside t key (2 ^ k.esize) ∧ t.chanAt ch = some k' ∧ k'.tail = k.tail + 1)
    ∧ (∀ bs, let n := if k.owed = 0 then min (k.tail - k.head) (k.off - (k.entered - k.read.toNat)) else k.owed
      let d := ofCoord k.consumer
      let off := k.ring + k.entered % k.capacity * 2 ^ k.esize
      s.MemOk → k.refill = true → 0 < n → s.dataWay (streamerCore k.streamer) k = .there → s.consumerLives k = true →
      s.vread k.vdev (k.spillBase.toNat + k.head * 2 ^ k.esize) (2 ^ k.esize) = .ok bs →
      ∃ t k', exec (.refillReturn ch) s = .next t ∧ t.Holds d off bs ∧ s.SameOutside t d off bs.length ∧ t.chanAt ch = some k'
        ∧ k'.head = k.head + 1 ∧ k'.entered = k.entered + 1 ∧ k'.owed = n - 1 ∧ (1 < n → .refillReturn ch ∈ t.agenda)
        ∧ (n = 1 → k.tail = k.head + 1 → .emptyNoticeSend ch ∈ t.agenda))
    ∧ (k.notice = true → ∃ t, exec (.emptyNoticeSend ch) s = .next t ∧ .emptyNoticeReceived ch k.head ∈ t.agenda ∧ s.SameMemory t)
    ∧ (k.spilling = true → ∃ t k', exec (.emptyNoticeReceived ch (k.sr + s.heldSpills k)) s = .next t ∧ t.chanAt ch = some k' ∧ k'.spilling = false ∧ k'.sr = 0
      ∧ k'.episode = !k.episode ∧ s.SameMemory t)
    ∧ (∀ h elems bytes asker p, s.homeOf (s.tileAt (chanTile ch)).ter = some h → bytes ≤ (s.tileAt h).pool.toNat →
      s.way 25 (drawFrom asker p) (territoryCore h) = .there → s.trip 23 (s.tileAt h).ter (territoryCore h) (drawFrom asker p) = .there → ∃ t, exec (.spillPoolDraw ch elems bytes asker p) s = .next t ∧ (t.tileAt h).pool = (s.tileAt h).pool - BitVec.ofNat 64 bytes
      ∧ t.agenda = s.agenda ++ [.spillPoolAnswer ch elems bytes true asker p] ∧ s.SameMemory t)
    ∧ (∀ elems bytes, ∃ t k', exec (.spillPoolAnswer ch elems bytes true none none) s = .next t ∧ t.chanAt ch = some k'
      ∧ k'.limit = min (k.limit + elems) (2 ^ 32 - 1) ∧ s.SameMemory t)
    ∧ (∀ bytes p, ∃ t k', exec (.spillPoolAnswer ch k.growth bytes true none (some p)) s = .next t ∧ t.chanAt ch = some k' ∧ k'.limit = k.limit + k.growth
      ∧ k'.grow = min (k.grow + 1) 0xFFFF ∧ s.SameMemory t)
    ∧ (∀ c w key, c < 8192 → (s.tileAt (tileOf c)).thaw.getLsbD 31 = true → (s.coreAt c).waitsOf.find? (·.thaw.key = key) = some w → w.thaw.stamp = none →
      w.thaw.since.toNat + ((s.tileAt (tileOf c)).thaw &&& 0xFFFFFF).toNat ≤ s.cycle.toNat → s.edge c w = none → ∃ t, exec (.thawReport c key) s = .next t
      ∧ t.coreAt c = (s.coreAt c).onWaits (·.thaw.key = key) (fun x => { x with stamp := some (s.cycle.setWidth 32) }) ∧ s.SameMemory t)
    ∧ ∀ p w, p.edges.getLast? = some ch → (s.tileAt (tileOf p.at_.toNat)).thaw.getLsbD 31 = true → p.at_ ≠ p.origin →
      s.waitAt p.at_.toNat (if ofCoord k.producer = p.at_.toNat then k.prodCtx else k.consCtx) = some w →
      exec (.thawProbe p) s = .next (s.thawFollow none 64 p p.at_.toNat w)

/-! ## Parity, banks and territories -/

/-- R129–R137: with no stored error to disturb it, the updater makes its pair fresh and no other, forced or not; the scrubber moves to the next row; a
write-back leaves its word without errors; a worn bank is replaced by its group's parity bank, and a second one of the group fences the core off, whose
contexts are gone. -/
def Obligations.ParitySteps : Prop :=
  ∀ (s : State) (c : Nat), c < 8192 →
    let k := s.coreAt c
    (∀ g row, g < 4 → s.nextRow c g = some row → k.clean = true →
      let fresh (i : Instr) : Prop := ∃ t, exec i s = .next t ∧ (row, g) ∉ (t.coreAt c).stale ∧ (∀ p, p ≠ (row, g) → (p ∈ (t.coreAt c).stale ↔ p ∈ k.stale))
        ∧ s.SameMemory t
      fresh (.parityUpdate c g) ∧ (63 ≤ k.waitCount g → fresh (.parityForcedUpdate c g)))
    ∧ (∀ bank, bank < 20 → k.clean = true → ∃ t, exec (.scrub c bank) s = .next t ∧ s.SameMemory t
      ∧ t.coreAt c = { k with scrubRow := vset k.scrubRow bank ((vget k.scrubRow bank 0 + 1) % 768) })
    ∧ (∀ bank row, (bank, row) ∈ k.fixes → ∃ t, exec (.correctedWriteback c bank row) s = .next t ∧ s.SameMemory t
      ∧ (t.coreAt c).errors bank row = [] ∧ (bank, row) ∉ (t.coreAt c).fixes)
    ∧ ∀ bank, bank < 16 → k.worn bank = true → k.fenced = false →
      (look k.degraded (bank / 4) = none → ∃ t, exec (.bankRetirement c bank) s = .next t ∧ look (t.coreAt c).degraded (bank / 4) = some bank ∧ s.SameMemory t)
      ∧ ∀ b, look k.degraded (bank / 4) = some b → b ≠ bank → ∃ t, exec (.bankRetirement c bank) s = .next t ∧ (t.coreAt c).fenced = true ∧ (t.coreAt c).ctxs = []

/-- R252–R261: a phase begins with demand as measured; a transfer's step 1 ends in VACATE or, on an empty tile, in step 4; the budget's end drops what is
left, but for a context inside an instruction, which goes at its next boundary (DEDUCED, log 36); a context that has gone is removed; a spent tile, whose old owner has received LOSS, is cleared and changes owner; a notice counts the tile in or out, where the flood from tile to tile
brings it (R317; DEDUCED, log 55); the last acknowledgement ends the transfer; and a quantum's end serves the next entry, of the same virtual device for at least its quantum and with no context moved. -/
def Obligations.TerritorySteps : Prop :=
  ∀ (s : State),
    (s.phase < s.cycle.toNat / (s.driv &&& 0x1FFFFFF).toNat → ∃ u, exec .driftPhase s = .next u ∧ u.phase = s.phase + 1 ∧ s.SameMemory u
      ∧ ∀ t, t < 64 → (s.tileAt t).ter ≠ 0 → (s.tileAt t).stated = false → (u.tileAt t).demand = BitVec.ofNat 16 (min 65535 (s.measured t)))
    ∧ (∀ t dst, t < 64 → (s.tileAt t).xfer = .quiesce dst → s.quiet t = true → ∃ u, exec (.transferQuiesced t) s = .next u ∧ s.SameMemory u
      ∧ (u.tileAt t).xfer = if s.vacant t then .drain dst else .vacate dst 0 s.cycle.toNat)
    ∧ (∀ t dst n since, t < 64 → (s.tileAt t).xfer = .vacate dst n since → since + (s.vacb &&& 0xFFFFFF).toNat ≤ s.cycle.toNat → s.vacateFlies t = false →
      (s.tileAt t).granted = [] → ((∀ c ∈ tileCores t, (s.coreAt c).status.inside = false) →
        ∃ u, exec (.vacateBudgetExpiry t) s = .next u ∧ (u.tileAt t).xfer = .drain dst ∧ ∀ c ∈ tileCores t, (u.coreAt c).ctxs = [])
      ∧ ∀ c ∈ tileCores t, (s.coreAt c).resident = true → (s.coreAt c).status.inside = true → (∀ x ∈ (s.coreAt c).others, x.id ≠ (s.coreAt c).ctx.id) →
        ∃ u m, exec (.vacateBudgetExpiry t) s = .next u ∧ (u.tileAt t).xfer = .vacate dst m since ∧ (u.coreAt c).ctxs.map (·.id) = [(s.coreAt c).ctx.id])
    ∧ (∀ c slot x dst n since, c < 8192 → (s.tileAt (tileOf c)).xfer = .vacate dst n since → (s.coreAt c).ctxs = [x] → x.slot = slot →
      (s.coreAt c).departing slot = true → ∃ u, exec (.contextRemoval c slot) s = .next u ∧ (u.coreAt c).ctxs = [])
    ∧ (∀ t dst, t < 64 → (s.tileAt t).xfer = .drain dst → s.lossFlies t = false → (∀ c ∈ tileCores t, s.spent c = true) → s.agenda.any (evInto t) = false → ∃ u left, exec (.tileClearComplete t) s = .next u
      ∧ (u.tileAt t).ter = BitVec.ofNat 6 dst ∧ (u.tileAt t).xfer = .notify (s.tileAt t).ter.toNat dst left ∧ (u.tileAt t).chans = []
      ∧ (∀ c ∈ tileCores t, (u.coreAt c).mem = [] ∧ (u.coreAt c).ctxs = [])
      ∧ ∀ c, c ∉ tileCores t → u.coreAt c = { s.coreAt c with stubs := (u.coreAt c).stubs } ∧ ((∀ w ∈ s.swapped, tileOf w.core ≠ t) → u.coreAt c = s.coreAt c))
    ∧ (∀ t moved gain src dst left, t < 64 → moved < 64 → t ≠ moved → (s.tileAt moved).xfer = .notify src dst left → (t, gain) ∈ left →
      s.noticed moved t = true → (s.tileAt t).ter.toNat = (if gain then dst else src) → ∃ u, exec (.transferNotice t moved gain) s = .next u ∧ s.SameMemory u
      ∧ (∀ k, k < 64 → (u.tileAt t).mask.getLsbD k = if k = moved then gain else (s.tileAt t).mask.getLsbD k)
      ∧ (u.tileAt t).size = (if (s.tileAt t).mask.getLsbD moved = gain then (s.tileAt t).size else if gain then (s.tileAt t).size + 1 else (s.tileAt t).size - 1)
      ∧ (u.tileAt moved).xfer = .notify src dst (left.filter (· ≠ (t, gain))))
    ∧ (∀ t src dst, t < 64 → (s.tileAt t).xfer = .notify src dst [] → ∃ u, exec (.transferComplete t) s = .next u ∧ (u.tileAt t).xfer = .none ∧ s.SameMemory u)
    ∧ ∀ ter h e, ter < 64 → s.homeOf (BitVec.ofNat 6 ter) = some h → s.quantumOver h = true → s.nextEntry h = some e →
      ∃ u, exec (.timeshareQuantumEnd ter) s = .next u ∧ (u.tileAt h).turn = e.idx
        ∧ ∀ o, (s.tileAt h).times.find? (·.idx = (s.tileAt h).turn) = some o → o.vdev = e.vdev →
          s.cycle.toNat + e.quantum ≤ (u.tileAt h).ends ∧ u.core = s.core ∧ u.others = s.others

/-! ## The host's side -/

/-- R282–R288, R289, R202: queue entries, one in progress when its queue was written among them, and graph nodes do what they say: a launch entry begins a walk; waits go on at their counter's value; signals add to it;
a COND takes one of two ways; a LOOP counts its word down; a COPY writes exactly its piece, up to the next 64-byte line of either side (the model's choice,
logs 32 and 48), between streamers by the routes of class 23 (DEDUCED, log 55); an END ends its walk, and so does a node in a page that its device does not own,
for which PERM is the model's choice of a cause (DESIGN CHOICE, log 59); a launch whose tile is in a transfer waits (DESIGN CHOICE, log 81), another is recorded and its kends
counted, the last raising its fence; an event enters its ring or is counted as dropped; the dispatcher hands the unit it chose on. -/
def Obligations.HostSteps : Prop :=
  ∀ (s : State), s.MemOk → (s.qbase + 64 * 32768 ≤ s.fbase ∨ s.fbase + 8 * 65536 ≤ s.qbase) →
    let serves (q v : Nat) (e : List Byte) : Prop :=
      look s.finishing q = some (v, e) ∨ look s.finishing q = none ∧ s.qpending q = true ∧ s.qentry q = .ok e ∧ v = s.qvdev q
    (∀ q, q < 32768 → exec (.hostQueueTail q) s = .next { s with seen := upd s.seen q (s.qget q 8 4) })
    ∧ (∀ q v e, q < 32768 → serves q v e →
      ((e.getD 0 0).toNat = 1 → zeroAt e (span 1 8 ++ span 16 64) = true → ∃ t w, exec (.queueEntryLaunch q) s = .next t ∧ t.walks = s.walks ++ [w]
        ∧ w.node.toNat = le e 8 8 ∧ w.v = v ∧ w.queue = q ∧ w.die = q / 8192 ∧ t.qhead q = (s.qhead q + 1) % 2 ^ 32)
      ∧ ((e.getD 0 0).toNat = 2 → zeroAt e (1 :: span 4 8 ++ span 16 64) = true → s.ownsFence v (le e 2 2) = true →
        (le e 8 8 ≤ s.fence (le e 2 2) → ∃ t, exec (.queueEntryWait q) s = .next t ∧ t.qhead q = (s.qhead q + 1) % 2 ^ 32 ∧ t.core = s.core)
        ∧ (s.fence (le e 2 2) < le e 8 8 → exec (.queueEntryWait q) s = .next s))
      ∧ ((e.getD 0 0).toNat = 3 → zeroAt e (1 :: span 4 8 ++ span 16 64) = true → s.ownsFence v (le e 2 2) = true →
        ∃ t, exec (.queueEntrySignal q) s = .next t ∧ t.qhead q = (s.qhead q + 1) % 2 ^ 32
          ∧ t.fence (le e 2 2) = (s.fence (le e 2 2) + le e 8 8) % 2 ^ 64))
    ∧ (∀ die n d, die < 4 → s.chooseUnit die = some (n, d) →
      let goes (e : Ev) : Prop := exec (.dispatcherStep die) s = .next { s with disp := vset s.disp die d, agenda := s.agenda ++ [e] }
      (∀ v e, n < 32768 → serves n v e → ((e.getD 0 0).toNat = 1 → goes (.queueEntryLaunch n)) ∧ ((e.getD 0 0).toNat = 2 → goes (.queueEntryWait n))
        ∧ ((e.getD 0 0).toNat = 3 → goes (.queueEntrySignal n)))
      ∧ ∀ x b, 32768 ≤ n → s.walk (n - 32768) = some x → s.node x = .ok b →
        ∀ f ∈ [(1, Ev.nodeLaunch (n - 32768)), (2, .nodeWait (n - 32768)), (3, .nodeSignal (n - 32768)), (4, .nodeCond (n - 32768)), (5, .nodeLoop (n - 32768)),
          (7, .nodeEnd (n - 32768))], (b.getD 0 0).toNat = f.1 → goes f.2)
    ∧ (∀ die w d x b, die < 4 → s.chooseUnit die = some (32768 + w, d) → s.walk w = some x → s.node x = .ok b → (b.getD 0 0).toNat = 6 →
      exec (.dispatcherStep die) s = .next (({ s with disp := vset s.disp die d }.onWalk w fun x => { x with copied := some 0 }).send (.nodeCopy w)))
    ∧ (∀ w x b, s.walk w = some x → s.node x = .ok b → zeroAt b (nodeReserved (b.getD 0 0).toNat) = true →
      let f := le b 16 2
      let va := le b 16 8
      ((b.getD 0 0).toNat = 1 → (b.getD 1 0).toNat ≤ 1 → x.awaits = none → s.launchWaits x va (le b 24 1) = true → exec (.nodeLaunch w) s = .next s)
      ∧ ((b.getD 0 0).toNat = 1 → (b.getD 1 0).toNat ≤ 1 → x.awaits = none → s.launchWaits x va (le b 24 1) = false →
        let id : Word := BitVec.ofNat 32 (2 ^ 30 * x.die + vget s.launchCount x.die 0 % 2 ^ 30)
        let s1 : State := { s with launchCount := vset s.launchCount x.die (vget s.launchCount x.die 0 + 1) }
        (∀ i reason c, s1.installLaunch x va (le b 24 1) id = .error (i, reason, c) →
          exec (.nodeLaunch w) s = .next ((s1.refuseLaunch x.queue va i reason c).walkTo w (le b 8 8)))
        ∧ ∀ s2 r, s1.installLaunch x va (le b 24 1) id = .ok (s2, r) → ∃ t, exec (.nodeLaunch w) s = .next t ∧ t.launchCount = s1.launchCount
          ∧ ⟨id, x.v, r.va, 0, r.kends, r.fence, x.queue, le b 24 1, false, r.ctxs⟩ ∈ t.launches)
      ∧ ((b.getD 0 0).toNat = 2 → s.ownsFence x.v f = true →
        (le b 24 8 ≤ s.fence f → exec (.nodeWait w) s = .next (s.walkTo w (le b 8 8))) ∧ (s.fence f < le b 24 8 → exec (.nodeWait w) s = .next s))
      ∧ ((b.getD 0 0).toNat = 3 → s.ownsFence x.v f = true → ∃ t : State, exec (.nodeSignal w) s = .next (t.walkTo w (le b 8 8)) ∧ t.walks = s.walks
        ∧ t.fence f = (s.fence f + le b 24 8) % 2 ^ 64)
      ∧ (∀ n bs, (b.getD 0 0).toNat = 4 → n = le b 25 1 → n = 4 ∨ n = 8 → va % n = 0 → inTrans va = true → s.vread x.v va n = .ok bs →
        let a := ofBytes bs
        let d := le b 32 n
        ∀ o ∈ [(0, decide (a = d)), (1, decide (a ≠ d)), (2, decide (sgn (8 * n) a < sgn (8 * n) d)), (3, decide (sgn (8 * n) d ≤ sgn (8 * n) a)),
          (4, decide (a < d)), (5, decide (d ≤ a))], le b 24 1 = o.1 → exec (.nodeCond w) s = .next (s.walkTo w (if o.2 then le b 8 8 else le b 40 8)))
      ∧ (∀ k key, (b.getD 0 0).toNat = 5 → va % 8 = 0 → inTrans va = true → s.xlate x.v va false = .ok k → s.xlate x.v va true = .ok key → s.bad key 8 = false →
        let n := ofBytes (s.gmem.read key 8)
        (n = 0 → exec (.nodeLoop w) s = .next (s.walkTo w (le b 40 8)))
        ∧ (n ≠ 0 → s.isProt key = false → ∃ t : State, exec (.nodeLoop w) s = .next (t.walkTo w (le b 8 8)) ∧ s.SameGlobalOutside t key 8 ∧ t.walks = s.walks
          ∧ ofBytes (t.gmem.read key 8) = n - 1))
      ∧ ((b.getD 0 0).toNat = 6 → le b 32 4 % 4 = 0 →
        ∀ i, x.copied = some i →
        let n := min (le b 32 4 - i) (min (64 - (le b 16 8 + i) % 64) (64 - (le b 24 8 + i) % 64))
        (le b 32 4 ≤ i → exec (.nodeCopy w) s = .next (s.walkTo w (le b 8 8)))
        ∧ ∀ bs key, i < le b 32 4 → inTrans (le b 16 8 + i) = true → inTrans (le b 24 8 + i) = true → s.vread x.v (le b 16 8 + i) n = .ok bs →
          s.xlate x.v (le b 24 8 + i) true = .ok key →
          let way := s.way 23 (s.streamerOf x.v (le b 16 8 + i)) (streamerAt key)
          (way = .edge ∨ way = .barred → exec (.nodeCopy w) s = .next (s.failWalk x 0x13))
          ∧ (way = .there → s.isProt key = false → ∃ t, exec (.nodeCopy w) s = .next t ∧ s.SameGlobalOutside t key n
          ∧ (∀ j, j < n → t.gmem.get (key + j) = bs.getD j 0) ∧ t.walk w = some { x with copied := some (i + n) }))
      ∧ ((b.getD 0 0).toNat = 7 → ∃ t, exec (.nodeEnd w) s = .next t ∧ t.walk w = none ∧ s.SameMemory t))
    ∧ (∀ w x key, s.walk w = some x → x.node.toNat % 64 = 0 → inTrans x.node.toNat = true → s.xlate x.v x.node.toNat false = .ok key → key / 2 ^ 60 = 0 →
      s.ownerOfPage (key / 0x10000) ≠ some x.v → exec (.nodeEnd w) s = .next (s.failWalk x 0x06))
    ∧ (∀ w x b id l, s.walk w = some x → s.node x = .ok b → zeroAt b (nodeReserved 1) = true → (b.getD 0 0).toNat = 1 → (b.getD 1 0).toNat = 1 → x.awaits = some id →
      s.launchOf id = some l → exec (.nodeLaunch w) s = .next (if l.done then s.walkTo w (le b 8 8) else s))
    ∧ (∀ p id l, s.launchOf id = some l →
      (∀ va, p.body = .walk id va → ∃ t w, exec (.walkBegin p) s = .next t ∧ t.walks = s.walks ++ [w] ∧ w.node = va ∧ w.v = p.vdev ∧ w.queue = l.queue
        ∧ w.die = dieOf (ofCoord p.dst) ∧ w.num = s.walkCount ∧ s.SameMemory t)
      ∧ (p.body = .kend id → l.done = false → ∃ t, exec (.kendArrival p) s = .next t
        ∧ t.launchOf id = some { l with kends := l.kends + 1, done := decide (l.need ≤ l.kends + 1) }
        ∧ t.fence l.fence = if l.need ≤ l.kends + 1 then (s.fence l.fence + 1) % 2 ^ 64 else s.fence l.fence)
      ∧ ∀ bs, p.body = .post id bs → exec (.hpostArrival p) s = .next (s.post l.queue bs))
    ∧ ∀ q ev, let room := (s.qget q 36 4 + 2 ^ 32 - s.qget q 40 4) % 2 ^ 32
      (2 ^ s.qget q 32 1 ≤ room → (s.post q ev).qget q 44 4 = min 0xFFFFFFFF (s.qget q 44 4 + 1))
      ∧ ∀ key, room < 2 ^ s.qget q 32 1 → s.xlate (s.qget q 18 2) (s.qget q 24 8 + 64 * (s.qget q 36 4 % 2 ^ s.qget q 32 1)) true = .ok key → s.isProt key = false →
        (key + 64 ≤ s.qcb q + 36 ∨ s.qcb q + 40 ≤ key) →
        (s.post q ev).qget q 36 4 = (s.qget q 36 4 + 1) % 2 ^ 32 ∧ ∀ i, i < 64 → (s.post q ev).gmem.get (key + i) = ev.getD i 0

/-- R289–R296, R280, R311: the admin commands with arguments that pass their checks answer 0 with their effect, whether a queue or, outside recovery mode,
the mailbox brings them; a MAP finds its tables or makes them, cleared, in pages that nobody owns (with status 7 where there is none: the model's choice,
log 58), its entries stand in memory, and the walk of the trees gives every leaf that stands alone; an UNMAP of a device with tiles waits until each has
acknowledged, its page is lost to the checkpoints that copy it (R305), and an access whose leaf is gone everywhere faults XLATE; a QUEUE leaves the entry in
progress to be finished (DEDUCED, log 38); and the firmware services give their status to the fwcall whose request is first.
The model's choices: 7 for a pinned page (log 24), the half-open ranges of fence counters (log 37), a tenant's key read through virtual device 0 (log 39). -/
def Obligations.AdminSteps : Prop :=
  (∀ (s : State) (via : Option Nat), (via.isSome = true ∨ s.recovery = false) →
    (∀ v (b : MapBlock) d, s.fadingOf (.via via) = none → let n := pageBytes b.size.toNat
      s.vdev v = some d → b.size.toNat ≤ 2 → b.rw.toNat ≤ 3 → b.target = 1 → b.pa.toNat < 2 ^ 52 → b.va.toNat % n = 0 → b.pa.toNat % n = 0 →
      inTrans b.va.toNat = true → inTrans (b.va.toNat + n - 1) = true → d.winLo.toNat ≤ b.pa.toNat → b.pa.toNat + n ≤ d.winHi.toNat →
      (∀ l ∈ s.leaves, l.v = v → b.va.toNat + n ≤ l.va.toNat ∨ l.va.toNat + pageBytes l.size ≤ b.va.toNat) → s.pinned v b.va.toNat n = false →
      exec (.adminMap via v b) s = .next (match s.needTables v b.va.toNat (leafLevel b.size.toNat) with
        | none => s.adminDone via 1 7
        | some t => (State.putEntries { t with leaves := s.leaves ++
          [⟨v, b.va, b.size.toNat, b.pa, b.rw.getLsbD 0, b.rw.getLsbD 1, 1, b.package⟩] } v (leafLevel b.size.toNat) b.va.toNat).adminDone via 1 0))
    ∧ (∀ v va n t, s.needTables v va n = some t → t.leaves = s.leaves ∧ (∀ k, 1 ≤ k → k ≤ n → (t.tableFor v k va).isSome = true)
      ∧ (∀ e, e ∈ t.tables → e ∉ s.tables → s.ownerOfPage e.2 = none ∧ s.reservedPages e.2 1 = false)
      ∧ (∀ c, t.coreAt c = s.coreAt c)
      ∧ ∀ a, ((∃ e ∈ t.tables, e ∉ s.tables ∧ a / 0x10000 = e.2) → t.gmem.get a = 0) ∧ (s.MemOk → (∀ e ∈ t.tables, e ∉ s.tables → a / 0x10000 ≠ e.2) → t.gmem.get a = s.gmem.get a))
    ∧ (∀ v level va k a, s.MemOk → (s.tables.map (·.2)).Nodup → 1 ≤ k → k ≤ level → s.entryPlace v k va = some a →
      ofBytes ((s.putEntries v level va).gmem.read a 8) = (s.entryAt v k va).toNat)
    ∧ (∀ v level va a, s.MemOk → (∀ e ∈ s.tables, a / 0x10000 ≠ e.2) → (s.putEntries v level va).gmem.get a = s.gmem.get a)
    ∧ (∀ v va l, s.leafNow v va = some l → (∀ m ∈ s.leaves, m.size ≤ 2 ∧ m.va.toNat % pageBytes m.size = 0 ∧
        (m.v = v → m = l ∨ m.va.toNat + pageBytes m.size ≤ l.va.toNat ∨ l.va.toNat + pageBytes l.size ≤ m.va.toNat)) →
      (∀ k, 2 ≤ k → k ≤ leafLevel l.size → (s.tableFor v k va).isSome = true) → s.tableWalk v va = some (leafLevel l.size, l.entry))
    ∧ (∀ v (b : MapBlock) l, (s.vdev v).isSome = true → b.size.toNat ≤ 2 → b.va.toNat % pageBytes b.size.toNat = 0 → inTrans b.va.toNat = true →
      s.leafNow v b.va.toNat = some l → l.va = b.va → l.size = b.size.toNat → s.fadingOf (.via via) = none →
      let t : State := State.putEntry { s with leaves := s.leaves.filter (· ≠ l) } v (leafLevel l.size) l.va.toNat
      exec (.adminUnmap via v b) s = .next (if s.pinned v l.va.toNat (pageBytes l.size) then s.adminDone via 2 7
        else if s.tilesOfDev v = [] then (t.loseShards v l.va.toNat (pageBytes l.size)).adminDone via 2 0
        else { t.loseShards v l.va.toNat (pageBytes l.size) with fading := s.fading ++ [⟨.via via, l, s.tilesOfDev v⟩], agenda := s.agenda ++ [.adminUnmap via v b] }))
    ∧ (∀ v va n j, j ∈ s.jobs → j.v = v → j.busy = true → (∃ h ∈ j.shards, h.va.toNat < va + n ∧ va < h.va.toNat + h.len) →
      ∃ a, { j with lost := some a } ∈ (s.loseShards v va n).jobs)
    ∧ (∀ f v b, s.fadingOf (.via via) = some f → f.tiles = [] → exec (.adminMap via v b) s = .next ((s.faded (.via via)).adminDone via 1 0)
      ∧ exec (.adminUnmap via v b) s = .next ((s.faded (.via via)).adminDone via 2 0))
    ∧ (∀ v va w, (∀ f ∈ s.fading, f.leaf.maps v va = true → f.tiles = []) → s.leafNow v va = none → s.xlate v va w = .error 0x05)
    ∧ (∀ id, (s.launchOf id).isSome = true → (∀ t, s.noGrant t = true) → ∃ t, exec (.adminCancel via id) s = .next t ∧ t.launchOf id = none ∧ (look t.gone id).isSome = true
      ∧ ((∀ c, ((s.coreAt c).ctxs.map (·.id)).Nodup) → ∀ c, ∀ x ∈ (t.coreAt c).ctxs, x.launch ≠ id))
    ∧ (∀ id, s.launchOf id = none → exec (.adminCancel via id) s = .next (s.adminDone via 3 7))
    ∧ (∀ ter mask, 1 ≤ ter → ter ≤ 63 → mask ≠ 0 →
      let a : BitVec 6 := BitVec.ofNat 6 ter
      let own := (List.range 64).filter fun t => mask.getLsbD t || (s.tileAt t).ter == a
      ((∀ t, t < 64 → mask.getLsbD t = true → (s.tileAt t).ter = 0 ∧ (s.tileAt t).xfer = .none) → connected own = true → ∃ u, exec (.adminClaim via ter mask) s = .next u
        ∧ ∀ t, t < 64 → (u.tileAt t).ter = (if mask.getLsbD t then a else (s.tileAt t).ter) ∧ (t ∈ own → (u.tileAt t).size = BitVec.ofNat 7 own.length))
      ∧ ((∀ t, t < 64 → mask.getLsbD t = true → (s.tileAt t).ter = a ∧ (s.tileAt t).xfer = .none ∧ (s.tileAt t).granted = []) →
        connected ((List.range 64).filter fun t => (s.tileAt t).ter == a && !mask.getLsbD t) = true → ∃ u, exec (.adminFree via ter mask) s = .next u
        ∧ ∀ t, t < 64 → (u.tileAt t).ter = (if mask.getLsbD t then 0 else (s.tileAt t).ter)
          ∧ (mask.getLsbD t = true → ∀ c ∈ tileCores t, (u.coreAt c).mem = [] ∧ (u.coreAt c).ctxs = [])))
    ∧ (∀ ter idx (entry : DWord) h, 1 ≤ ter → ter ≤ 63 → idx ≤ 7 → s.homeOf (BitVec.ofNat 6 ter) = some h → entry.extractLsb' 60 3 = 0 → entry.extractLsb' 32 8 = 0 →
      (entry.toNat % 2 ^ 32 = 0 → exec (.adminTimeshare via ter idx entry) s = .next (s.adminDone via 6 7))
      ∧ (entry.getLsbD 63 = true → entry.toNat % 2 ^ 32 ≠ 0 → ∃ u, exec (.adminTimeshare via ter idx entry) s = .next u
        ∧ ∃ e ∈ (u.tileAt h).times, e.idx = idx ∧ e.quantum = entry.toNat % 2 ^ 32 ∧ e.weight = entry.toNat / 2 ^ 40 % 2 ^ 8 ∧ e.vdev = entry.toNat / 2 ^ 48 % 2 ^ 12)
      ∧ (entry.getLsbD 63 = false → entry.toNat % 2 ^ 32 ≠ 0 → ∃ u, exec (.adminTimeshare via ter idx entry) s = .next u ∧ ∀ e ∈ (u.tileAt h).times, e.idx ≠ idx))
    ∧ (∀ v (weight : Byte) (lo hi : Word) (winLo winHi handle : DWord), v ≤ 4095 → weight ≠ 0 → lo.toNat ≤ hi.toNat → hi.toNat ≤ 65536 →
      (∀ d ∈ s.vdevs, d.v ≠ v → d.fenceHi ≤ lo.toNat ∨ hi.toNat ≤ d.fenceLo) → handle = 0 ∨ (look s.tenants handle).isSome = true → s.inUse v = false →
      exec (.adminVdev via v weight lo hi winLo winHi handle) s = .next (State.adminDone { s with
        vdevs := (s.vdevs.filter fun d => d.v ≠ v) ++ [⟨v, weight.toNat, lo.toNat, hi.toNat, winLo, winHi, handle⟩] } via 7 0))
    ∧ (∀ ter pkg remote, 1 ≤ ter → ter ≤ 63 → 1 ≤ remote → remote ≤ 63 → pkg ≤ 255 → ∃ u : State, exec (.adminPair via ter pkg remote) s = .next (u.adminDone via 8 0)
      ∧ (ter, pkg, remote) ∈ u.pairs ∧ (∀ p ∈ u.pairs, p.2 = (pkg, remote) → p.1 = ter) ∧ s.SameMemory u)
    ∧ (∀ q v size evSize enable (ring evRing : DWord), s.MemOk → q < 32768 → (s.vdev v).isSome = true → 4 ≤ size → size ≤ 16 → 4 ≤ evSize → evSize ≤ 16 → enable ≤ 1 →
      ring.toNat % 64 = 0 → evRing.toNat % 64 = 0 → inTrans ring.toNat = true → inTrans evRing.toNat = true →
      ∃ u : State, exec (.adminQueue via q v size evSize enable ring evRing) s = .next (u.adminDone via 9 0) ∧ u.qget q 0 8 = ring.toNat ∧ u.qget q 16 1 = size
        ∧ u.qget q 17 1 = enable ∧ u.qget q 18 2 = v % 2 ^ 16 ∧ u.qget q 24 8 = evRing.toNat ∧ u.qget q 32 1 = evSize ∧ u.qget q 8 4 = s.qget q 8 4
        ∧ ∀ f, s.qprogress q = some f → look u.finishing q = some f)
    ∧ (∀ v (pa len : DWord), let p := pa.toNat / 0x10000
      let n := len.toNat / 0x10000
      pa.toNat % 0x10000 = 0 → len.toNat % 0x10000 = 0 → len ≠ 0 → pa.toNat + len.toNat ≤ 384 * 2 ^ 30 →
      ((s.vdev v).isSome = true → s.reservedPages p n = false → (∀ o ∈ s.owned, o.1 + o.2.1 ≤ p ∨ p + n ≤ o.1) →
        exec (.adminOwnAssign via v pa len) s = .next (State.adminDone { s with owned := s.owned ++ [(p, n, v)] } via 10 0))
      ∧ (s.ownsPages v (s.owned.length + 1) p n = true →
        (∀ l ∈ s.leaves, l.target = 0 → l.pa.toNat + pageBytes l.size ≤ pa.toNat ∨ pa.toNat + len.toNat ≤ l.pa.toNat) →
        ∃ u : State, exec (.adminOwnRelease via v pa len) s = .next (u.adminDone via 10 0) ∧ s.SameMemory u
          ∧ ∀ k, u.ownerOfPage k = if p ≤ k ∧ k < p + n then none else s.ownerOfPage k))
    ∧ (∀ (handle va : DWord) bs, handle ≠ 0 → look s.tenants handle = none → inTrans va.toNat = true → s.vread 0 va.toNat 512 = .ok bs →
      exec (.adminTenantCreate via handle va) s = .next (match Config.unwrapKey bs with
        | none => s.adminDone via 11 7
        | some k => State.adminDone { s with tenants := s.tenants ++ [(handle, k)] } via 11 0))
    ∧ ∀ handle, (look s.tenants handle).isSome = true → (∀ d ∈ s.vdevs, d.handle ≠ handle) →
      exec (.adminTenantDelete via handle) s = .next (State.adminDone { s with tenants := s.tenants.filter fun e => e.1 ≠ handle } via 11 0))
  ∧ (∀ (s : State) (p : Packet) (rd : Reg) (blk : DWord) (n : BitVec 6) (ps : List Nat), let c := ofCoord p.src
    (s.trip 23 p.ter firmwareCore c = .there → (∀ e, s.answerService p (.error e) ps = { s with agenda := s.agenda ++ [.answer c p.serial (.fault e)] })
      ∧ ∀ st, s.answerService p (.ok st) ps = { s with agenda := s.agenda ++ [.answer c p.serial (.status st ps)] })
    ∧ ((s.coreAt c).status = .answer (.service rd blk n) → (s.coreAt c).fir.serial = p.serial →
      let t := (s.goto c).setStatus .running
      (∀ e, s.answered c p.serial (.fault e) = t.trapAt e blk)
      ∧ ∀ st, s.answered c p.serial (.status st ps) = if ps = [] then (t.setS rd st).retire 1 else t.setStatus (.answer (.served rd st ps))))
  ∧ ∀ (s : State) (p : Packet) (rest : List Packet) (blk : DWord) (n : BitVec 6) (bs : List Byte), let c := ofCoord p.src
    s.service = p :: rest → p.body = .service blk n → s.vread p.vdev blk.toNat 64 = .ok bs →
    let v := p.vdev
    let s0 : State := { s with service := rest }
    let who : MapAsker := .core c p.serial
    (∀ f, s.fadingOf who = some f → f.tiles = [] → (n = 0 → exec (.fwMap c) s = .next ((s0.faded who).answerService p (.ok 0) []))
      ∧ (n = 1 → exec (.fwUnmap c) s = .next ((s0.faded who).answerService p (.ok 0) [])))
    ∧ (s.fadingOf who = none →
    let answered (i : Instr) (u : State) (st : Word) : Prop := exec i s = .next (
      if (u.fadingOf who).isSome then { u with service := s.service } else u.answerService p (.ok st) (u.newHeld s))
    (n = 0 → answered (.fwMap c) (s0.mapPage who v (blockOf bs)).1 (BitVec.ofNat 32 (s0.mapPage who v (blockOf bs)).2))
    ∧ (n = 1 → answered (.fwUnmap c) (s0.unmapPage who v (blockOf bs)).1 (BitVec.ofNat 32 (s0.unmapPage who v (blockOf bs)).2))
    ∧ (∀ l, n = 2 → inTrans (le bs 0 8) = true → s.leafNow v (le bs 0 8) = some l → answered (.fwQuery c) (s0.vwrite v blk.toNat (leBytes 8 l.va.toNat ++
      leBytes 8 l.pa.toNat ++ [BitVec.ofNat 8 l.size, BitVec.ofNat 8 ((if l.rd then 1 else 0) + (if l.wr then 2 else 0)), BitVec.ofNat 8 l.target, l.pkg])) 0)
    ∧ (n = 2 → inTrans (le bs 0 8) = true → s.leafNow v (le bs 0 8) = none → answered (.fwQuery c) (s0.vwrite v blk.toNat (List.replicate 20 0)) 4)
    ∧ (n = 3 → le bs 0 8 % 64 = 0 → inTrans (le bs 0 8) = true → s.rangeOk v (le bs 0 8) 704 true = true → zeroAt bs (span 40 64) = true →
      ∃ r : List Byte, answered (.fwAttest c) (s0.vwrite v (le bs 0 8) r) 0 ∧ r.length = 704 ∧ le r 0 2 = 1
        ∧ le r 2 2 = (((s.coreAt c).byId p.ctx).getD .none).id.toNat ∧ le r 8 8 = Config.serial.toNat ∧ le r 24 8 = s.cycle.toNat ∧ slice r 96 32 = slice bs 8 32))

/-- R297–R306: marks, boundaries, arming, the copy and its end: a mark off a boundary is counted and answered, where the answer has a way (DEDUCED, log 55),
one of a boundary step is held; the timer makes the next step a boundary; arming protects every shard page, or, where a shard fails its check, ends the
checkpoint (log 65); the copies issued are the first of those left, at most 8 of them at a streamer; a page is copied as it was before its held writes,
then freed; a job's descriptor is read through the tables of the virtual device that the command names (DEDUCED, log 23); a destination takes its writes
where log 65 says so; one whose shard page an UNMAP took fails (R305); the last page's manifest raises the fence; jobs, signers and restores answer the mailbox; and the second pass of a
restore writes a page whose digest agrees, zeroes its ranges where one does not, and raises its fence at the end. -/
def Obligations.CheckpointSteps : Prop :=
  ∀ (s : State),
    (∀ p, let m := (ofCoord p.src, p.serial)
      (s.jobs.find? (·.v = p.vdev) = none → exec (.stepMark p) s = .next (s.answerMark m))
      ∧ ∀ j, s.jobs.find? (·.v = p.vdev) = some j → s.job j.id = some j →
        let step := j.marks / j.marksPer + 1
        ((j.marks % j.marksPer ≠ 0 ∨ j.due step = false) → j.boundary ≠ some step → ∃ u : State, exec (.stepMark p) s = .next (u.answerMark m)
          ∧ u.job j.id = some { j with marks := j.marks + 1 } ∧ s.SameMemory u)
        ∧ (j.marks % j.marksPer = 0 → j.due step = true → ∃ u, exec (.stepMark p) s = .next u ∧ s.SameMemory u
          ∧ u.job j.id = some { j with marks := j.marks + 1, boundary := some step, held := j.held ++ [m], arming := decide ((j.marks + 1) % j.marksPer = 0), step := step }))
    ∧ (∀ m : Nat × Nat, (s.trip 23 (s.terOf m.1) checkpointCore m.1 = .there → s.answerMark m = { s with agenda := s.agenda ++ [.answer m.1 m.2 .mark] })
      ∧ ((s.coreAt m.1).status = .answer .mark → (s.coreAt m.1).fir.serial = m.2 → s.answered m.1 m.2 .mark = ((s.goto m.1).setStatus .running).retire 1))
    ∧ (∀ id j, s.job id = some j →
      (j.stepKind = false → j.fired = false → j.since.toNat + j.trigger ≤ s.cycle.toNat → ∃ u, exec (.checkpointTimer id) s = .next u
        ∧ u.job id = some { j with fired := true } ∧ s.SameMemory u)
      ∧ (j.arming = true → s.shardsFault j.v j.shards = none → ∃ u, exec (.armingComplete id) s = .next u ∧ s.SameMemory u
        ∧ (∀ p ∈ s.pagesOf j, p.key ∈ u.protect) ∧ u.job id = some { j with
          arming := false, active := true, boundary := none, held := [], left := s.pagesOf j, copied := [], lastStep := j.step, since := s.cycle, fired := false, armedAt := s.cycle })
      ∧ (∀ cause va, j.arming = true → j.left = [] → s.shardsFault j.v j.shards = some (cause, va) → ∃ u, exec (.armingComplete id) s = .next u
        ∧ u.job id = some { j with
          arming := false, active := false, boundary := none, held := [], left := [], copied := [], lastStep := j.step, since := s.cycle, fired := false, lost := none })
      ∧ (j.active = true → j.left ≠ [] → ∃ p ∈ issuedPages j.left [], exec (.checkpointPageCopy id) s = .next (s.copyPage j p))
      ∧ (∀ p key, s.MemOk → j.active = true → j.left = [p] → s.shardGone j = none → s.bad (4096 * p.key) 4096 = false → s.protect = [p.key] → (∀ i, i < 4096 →
          s.xlate j.v (j.dest.toNat + p.off + i) true = .ok (key + i)) → s.destFault j.v (j.dest.toNat + p.off) 4096 = none → s.held = [] → ∃ u, exec (.checkpointPageCopy id) s = .next u ∧ u.protect = []
        ∧ (∀ i, i < 4096 → u.gmem.get (key + i) = s.gmem.get (4096 * p.key + i)) ∧ s.SameGlobalOutside u key 4096
        ∧ u.job id = some { j with left := [], copied := j.copied ++ [{ p with digest := sha512 (s.gmem.read (4096 * p.key) 4096) }] })
      ∧ (∀ p, j.left = [p] → s.jobs = [j] → s.shardGone j = none → s.bad (4096 * p.key) 4096 = false → s.protect = [p.key] → s.destFault j.v (j.dest.toNat + p.off) 4096 = none →
        (∃ key bs why, s.held = [⟨.protectedWrite key bs why, key, bs⟩] ∧ key / 4096 = p.key) → ∃ u, exec (.urgentReadComplete p.key) s = .next u ∧ u.protect = [] ∧ u.held = []
          ∧ u.job id = some { j with left := [], copied := j.copied ++ [{ p with digest := sha512 (s.gmem.read (4096 * p.key) 4096) }] })
      ∧ (∀ va, (j.active = true ∨ j.arming = true) → j.lost = some va → exec (.checkpointComplete id) s = .next (s.failCheckpoint j 0x05 va))
      ∧ (j.active = true → j.left = [] → j.lost = none → s.shardGone j = none → s.destWaits j = false → s.destFault j.v j.dest.toNat (j.manifest.length + 512) = none →
        ∃ u : State, exec (.checkpointComplete id) s = .next (u.fenceAdd j.fence 1) ∧ u.job id = some { j with active := false, copied := [] }))
    ∧ (∀ ps : List CkPage, ∃ n, issuedPages ps [] = ps.take n ∧ ∀ i, ((issuedPages ps []).map fun p => Config.streamerOf (4096 * p.key / 0x10000)).count i ≤ 8)
    ∧ (s.recovery = false →
      (∀ (descr : DWord) v d bs, descr.toNat % 64 = 0 → s.vread v descr.toNat 64 = .ok d →
        let n := le d 22 2
        let w := le d 4 2
        let shards := shardsIn bs n
        let dest := le d 24 8
        s.vread v (le d 32 8) (24 * n) = .ok bs → le d 0 2 = 1 → 1 ≤ le d 2 2 → le d 2 2 ≤ 255 →
        (le d 6 1 = 0 ∧ 2 ^ 20 ≤ le d 8 8 ∧ le d 8 8 ≤ 2 ^ 48 ∨ le d 6 1 = 1 ∧ 1 ≤ le d 8 8 ∧ le d 8 8 < 2 ^ 32) → 1 ≤ le d 16 4 → le d 16 4 ≤ 8192 →
        1 ≤ n → n ≤ 4096 → 1 ≤ le d 40 1 → le d 40 1 ≤ 8 → le d 42 2 < 32768 → zeroAt d (7 :: 41 :: span 44 64) = true → dest % 0x10000 = 0 →
        (∀ h ∈ shards, h.va.toNat % 4096 = 0 ∧ h.len % 4096 = 0 ∧ 4096 ≤ h.len ∧ h.len ≤ 2 ^ 40) → (∀ i, i < n → le bs (24 * i + 4) 4 = 0) →
        anyMeet ((dest, destLen shards) :: shards.map fun h => (h.va.toNat, h.len)) = false → (∀ j ∈ s.jobs, j.v ≠ w ∧ j.id ≠ le d 2 2) →
        s.ownsFence w (le d 20 2) = true → s.shardsFault w shards = none → s.rangeOk w dest (destLen shards) true = true →
        ∃ u j, exec (.ckptJob descr v) s = .next u ∧ u.jobs = s.jobs ++ [j] ∧ u.mailbox = leBytes 4 0 ∧ s.SameMemory u ∧ j.id = le d 2 2 ∧ j.v = w
          ∧ j.stepKind = decide (le d 6 1 = 1) ∧ j.trigger = le d 8 8 ∧ j.marksPer = le d 16 4 ∧ j.fence = le d 20 2 ∧ j.shards = shards ∧ j.dest.toNat = dest
          ∧ j.queue = le d 42 2 ∧ j.marks = 0 ∧ j.active = false)
      ∧ (∀ id j, s.job id = some j → ∃ u, exec (.ckptDrop id) s = .next u ∧ u.job id = none ∧ u.mailbox = leBytes 4 0)
      ∧ (∀ serial key, key.length = 512 → exec (.ckptKey serial key) s = .next { s with signers := upd s.signers serial key, mailbox := leBytes 4 0 })
      ∧ ∀ manifest v fence queue, exec (.ckptRestore manifest v fence queue) s = .next (
        match s.restoreData manifest v fence queue with
        | .error (st, e) =>
          let u := match e with
            | some (va, c) => s.noteFail v va c
            | none => s
          { (u.post queue (event [(0, 2, 0x0502), (4, 4, st), (56, 8, u.cycle.toNat)])) with mailbox := leBytes 4 st }
        | .ok r => { s with restore := some r }))
    ∧ ∀ r, s.restore = some r →
      let s0 : State := { s with restore := none }
      let answer (u : State) (st : Nat) : State := { (u.post r.queue (event [(0, 2, 0x0502), (4, 4, st), (56, 8, u.cycle.toNat)])) with mailbox := leBytes 4 st }
      (r.left = [] → s.restorePage = answer (s0.fenceAdd r.fence 1) 0)
      ∧ ∀ src dst d rest bs, r.left = (src, dst, d) :: rest → s.vread r.v src 4096 = .ok bs → s.rangeFault r.v true false 2 dst 4096 = none →
        s.restorePage = if sha512 bs = d then { s with restore := some { r with left := rest } }.vwrite r.v dst bs
          else answer (r.ranges.foldl (fun u q => u.vwrite r.v q.1 (List.replicate q.2 0)) s0) 7

/-- R307–R313: a start whose steps succeed leaves every tile free and cleared, every queue disabled and every fence counter zero, and after an overheat stop
it counts as failed; with a failed start on record a warm one runs cold; the third failed cold start in a row enters recovery mode and leaves the tiles as
they were (DEDUCED, log 41); an image that waits is checked with the boot key, its signature being its last 512 bytes (the model's choice, log 66); a
command submitted to the mailbox is read from its payload, or answered 7 where it is not well formed (DESIGN CHOICE, log 7); HALT, RESUME and DEBUG reach every
context with the ID; READ and WRITE do one unit at a time, in address order, a failing unit reading as 0, and answer with the last one the first status that is
not zero (DESIGN CHOICE, log 40), and a register that the core itself holds is read whatever runs there; the clock falls and rises by 150 MHz and 105 degrees stop the
part. -/
def Obligations.MailboxSteps : Prop :=
  ∀ (s : State),
    (∀ f : StartFacts, s.fwBad f = false → f.meshFails = false → f.clearFails = false → f.cxlFails = false → s.MemOk →
      let started (i : Instr) : Prop := ∃ t, exec i s = .next t ∧ t.mailbox = leBytes 4 0 ∧ t.launches = [] ∧ t.stopped = false
        ∧ t.leaves = [] ∧ t.agenda = [] ∧ (∀ k, (t.tileAt k).ter = 0 ∧ (t.tileAt k).home = false) ∧ (∀ c, (t.coreAt c).mem = [] ∧ (t.coreAt c).ctxs = [])
        ∧ (∀ q, q < 32768 → t.qget q 17 1 = 0) ∧ (∀ k, k < 65536 → t.fence k = 0)
        ∧ t.failed = (if s.stopped then s.failed + 1 else 0) ∧ t.up = decide (t.failed < 3) ∧ t.recovery = decide (3 ≤ t.failed)
      (s.stopped = false → s.failed = 0 → started (.startWarm f))
      ∧ (f.fusesFail = false → f.hbmFails = false → f.testFails = false → started (.startCold f)))
    ∧ (∀ f : StartFacts, (s.failed ≠ 0 ∨ s.stopped = true → exec (.startWarm f) s = exec (.startCold f) s)
      ∧ (s.fwBad f = true → s.failed = 2 → ∃ t, exec (.startCold f) s = .next t ∧ t.recovery = true ∧ t.up = false ∧ t.failed = 3
        ∧ t.tiles = s.tiles ∧ t.launches = [] ∧ t.walks = [] ∧ t.jobs = [])
      ∧ ∀ img, s.fwNext = some img → s.fwBad f = !Config.verify Config.bootKey (img.take (img.length - 512)) (img.drop (img.length - 512)))
    ∧ (∀ bs rest, s.submitted = bs :: rest →
      ((le bs 2 2 ≠ 0 ∨ le bs 0 2 ∉ [1, 2, 3, 4, 5, 6, 7, 8, 9, 10, 11, 0x601, 0x602, 0x603, 0x604]) → s.mailboxTake = { s with submitted := rest, mailbox := leBytes 4 7 })
      ∧ (le bs 2 2 = 0 → le bs 0 2 = 8 → s.mailboxTake = { s with submitted := rest, agenda := s.agenda ++ [.identity] })
      ∧ (le bs 2 2 = 0 → le bs 0 2 = 11 → le bs 6 1 = 1 → s.mailboxTake = { s with submitted := rest, agenda := s.agenda ++ [.debugSet (BitVec.ofNat 16 (le bs 4 2))] })
      ∧ (le bs 2 2 = 0 → le bs 0 2 = 9 → le bs 4 1 = 4 → le bs 5 1 = 3 → zeroAt (slice bs 4 64) (span 2 8) = true →
        s.mailboxTake = { s with submitted := rest, agenda := s.agenda ++ [.adminCancel none (BitVec.ofNat 32 (le (slice bs 4 64) 8 4))] }))
    ∧ (∃ bs, exec .health s = .next { s with mailbox := leBytes 4 0 ++ bs })
    ∧ (∀ addr len, ∃ img : List Byte, exec (.fwLoad addr len) s = .next { s with fwNext := some img, mailbox := leBytes 4 0 } ∧ img.length = len.toNat)
    ∧ exec .identity s = .next { s with mailbox := leBytes 4 0 ++ (leBytes 8 Config.serial.toNat ++ padTo 512 Config.identityKey) }
    ∧ (s.recovery = false → exec .layout s = .next { s with mailbox := leBytes 4 0 ++ (leBytes 8 s.qbase ++ leBytes 8 s.fbase ++ leBytes 8 Config.serial.toNat) }
      ∧ (∀ kind (addr : DWord) i st bs, kind ≤ 3 → addr.toNat % 8 = 0 → s.progress.getD (0, 0, []) = (i, st, bs) →
        (∀ len, len % 8 = 0 → 8 ≤ len → len ≤ 4096 →
          let does (u : State) (x : Except Nat Nat) : Prop :=
            let st' := match x with
              | .ok _ => st
              | .error e => if st = 0 then e else st
            let bs' := bs ++ leBytes 8 (match x with
              | .ok v => v
              | .error _ => 0)
            exec (.read kind addr len) s = .next (if len ≤ 8 * i + 8 then { u with progress := none, mailbox := leBytes 4 st' ++ bs' }
              else { u with progress := some (i + 1, st', bs'), agenda := u.agenda ++ [.read kind addr len] })
          (∀ r, s.resource kind (addr.toNat + 8 * i) = some r → does (s.readUnit r).1 (s.readUnit r).2)
          ∧ (s.resource kind (addr.toNat + 8 * i) = none → ∃ e, does s (.error e)))
        ∧ ∀ bytes : List Byte, bytes.length % 8 = 0 → 8 ≤ bytes.length → bytes.length ≤ 4096 →
          let does (u : State) (e : Nat) : Prop :=
            let st' := if st = 0 then e else st
            exec (.write kind addr bytes) s = .next (if bytes.length ≤ 8 * i + 8 then { u with progress := none, mailbox := leBytes 4 st' }
              else { u with progress := some (i + 1, st', []), agenda := u.agenda ++ [.write kind addr bytes] })
          (∀ r, s.resource kind (addr.toNat + 8 * i) = some r → does (s.writeUnit r (le bytes (8 * i) 8)).1 (s.writeUnit r (le bytes (8 * i) 8)).2)
          ∧ (s.resource kind (addr.toNat + 8 * i) = none → ∃ e, does s e))
      ∧ ∀ id, (∃ e ∈ s.cores, (e.2.byId id).isSome = true) →
        let reaches (i : Instr) (f : Ctx → Bool) : Prop := ∃ t, exec i s = .next t ∧ t.mailbox = leBytes 4 0 ∧ (∀ c x, (t.coreAt c).byId id = some x → f x = true) ∧ s.SameMemory t
        reaches (.halt id) (·.halted) ∧ reaches (.resume id) (fun x => !x.halted) ∧ reaches (.debugSet id) (·.debug) ∧ reaches (.debugClear id) (fun x => !x.debug))
    ∧ (∀ c off, c < 8192 → off + 8 ≤ 0x18000 → ((s.coreAt c).sealed off = true → s.readUnit (.scratch c off) = (s, .error 1) ∧ ∀ v, s.writeUnit (.scratch c off) v = (s, 1))
      ∧ ((s.coreAt c).sealed off = false → (s.coreAt c).clean = true → (s.readUnit (.scratch c off)).2 = .ok (ofBytes ((s.coreAt c).mem.read off 8))))
    ∧ (∀ c n, (s.coreAt c).resident = true → (s.coreAt c).status ≠ .idle →
      s.readUnit (.scalar c 0 n) = (s, if (s.coreAt c).ctx.prot then .error 1 else if (s.coreAt c).ctx.halted = true ∧ (s.coreAt c).status.inside = false
        then .ok (vget (s.coreAt c).fir.regs.s n 0).toNat else .error 7))
    ∧ (∀ c i, s.readUnit (.csr c i 0x070) = (s, .ok (s.coreAt c).parstat.toNat) ∧ s.readUnit (.csr c i 0x071) = (s, .ok (s.coreAt c).errcnt.toNat))
    ∧ (∀ v, v % 2 ^ 24 < 1024 → s.writeUnit .vacb v = (s, 0)) ∧ (∀ v, s.writeUnit .drthr v = ({ s with drthr := BitVec.ofNat 32 (v % 2 ^ 16) }, 0))
    ∧ (∀ key n, s.bad key n = false → exec (.hostMemAccess key none n) s = .next s)
    ∧ ∀ watts die coolant, ∃ t, exec (.powerSample watts die coolant) s = .next t ∧ t.stopped = (s.stopped || decide (105 ≤ die)) ∧ t.core = s.core ∧ t.gmem = s.gmem
      ∧ t.clock = (if 95 < die ∨ 2200 < watts then max 1200 (s.clock - 150) else if die ≤ 90 ∧ watts ≤ 2100 then min 2400 (s.clock + 150) else s.clock)
      ∧ t.health.clocks = s.health.clocks + (if t.clock = s.clock then 0 else 1)
end

