-- ==== Sys2Proof/Laws/Memory.lean ====
section
/-! SUPPORT. The byte lists of memories: the canonical form is kept, a read after a write gives the bytes written and leaves the rest, and equal
reads mean equal lists. Little-endian bytes and the number they hold. -/

namespace Sys2Proof.Machine
namespace Mem

/-! ## The canonical form -/

theorem above_cons {lo a : Nat} {b : Byte} {m : Mem} : above lo ((a, b) :: m) = true ↔ lo ≤ a ∧ b ≠ 0 ∧ above (a + 1) m = true := by
  simp only [above, Bool.and_eq_true, decide_eq_true_eq, bne_iff_ne, and_assoc]

theorem above_mono {lo lo' : Nat} {m : Mem} (h : above lo m = true) (hle : lo' ≤ lo) : above lo' m = true := by
  cases m with
  | nil => rfl
  | cons c m => rw [above_cons] at h ⊢; exact ⟨by omega, h.2⟩

/-- Below the first address that may be listed every byte is zero. -/
theorem get_below {lo i : Nat} {m : Mem} (h : above lo m = true) (hi : i < lo) : get m i = 0 := by
  cases m with
  | nil => rfl
  | cons c m => rw [above_cons] at h; rw [get, if_neg (by omega), if_pos (by omega)]

theorem above_set {lo i : Nat} {m : Mem} (v : Byte) (h : above lo m = true) (hi : lo ≤ i) : above lo (set m i v) = true := by
  induction m generalizing lo with
  | nil =>
    rw [set]
    split
    · rfl
    · exact above_cons.2 ⟨hi, ‹_›, rfl⟩
  | cons c m ih =>
    obtain ⟨a, b⟩ := c
    have h' := above_cons.1 h
    simp only [set]
    split_ifs with h1 hv h2 hv
    · exact h
    · exact above_cons.2 ⟨hi, hv, above_cons.2 ⟨by omega, h'.2⟩⟩
    · exact above_mono h'.2.2 (by omega)
    · exact above_cons.2 ⟨hi, hv, h2 ▸ h'.2.2⟩
    · exact above_cons.2 ⟨h'.1, h'.2.1, ih h'.2.2 (by omega)⟩

/-- Writing one byte keeps the canonical form. -/
theorem wf_set {m : Mem} (i : Nat) (v : Byte) (h : m.wf = true) : (set m i v).wf = true := above_set v h (Nat.zero_le i)

theorem get_cons (a : Nat) (b : Byte) (m : Mem) (i : Nat) : get ((a, b) :: m) i = if i = a then b else if i < a then 0 else get m i := rfl

theorem get_set_above {lo i : Nat} {m : Mem} (j : Nat) (v : Byte) (h : above lo m = true) : get (set m i v) j = if j = i then v else get m j := by
  induction m generalizing lo with
  | nil =>
    have h0 : get [] j = 0 := rfl
    have h1 : set [] i v = if v = 0 then [] else [(i, v)] := rfl
    rw [h1, h0]
    by_cases hv : v = 0
    · rw [if_pos hv, h0, hv, ite_self]
    · rw [if_neg hv, get_cons, h0, ite_self]
  | cons c m ih =>
    obtain ⟨a, b⟩ := c
    have h' := (above_cons.1 h).2.2
    have hs : set ((a, b) :: m) i v = if i < a then (if v = 0 then (a, b) :: m else (i, v) :: (a, b) :: m)
      else if i = a then (if v = 0 then m else (i, v) :: m) else (a, b) :: set m i v := rfl
    rw [hs]
    by_cases h1 : i < a
    · rw [if_pos h1]
      by_cases hv : v = 0
      · rw [if_pos hv]
        by_cases hj : j = i
        · rw [if_pos hj, hj, hv, get_cons, if_neg (by omega), if_pos h1]
        · rw [if_neg hj]
      · rw [if_neg hv, get_cons i v]
        by_cases hj : j = i
        · rw [if_pos hj, if_pos hj]
        · rw [if_neg hj, if_neg hj]
          by_cases hlt : j < i
          · rw [if_pos hlt, get_cons, if_neg (by omega), if_pos (by omega)]
          · rw [if_neg hlt]
    · rw [if_neg h1]
      by_cases h2 : i = a
      · subst h2
        rw [if_pos rfl]
        have hm : get (if v = 0 then m else (i, v) :: m) j = if j = i then v else if j < i then 0 else get m j := by
          by_cases hv : v = 0
          · rw [if_pos hv, hv]
            by_cases hj : j = i
            · rw [if_pos hj, get_below h' (by omega)]
            · by_cases hlt : j < i
              · rw [if_neg hj, if_pos hlt, get_below h' (by omega)]
              · rw [if_neg hj, if_neg hlt]
          · rw [if_neg hv, get_cons]
        rw [hm, get_cons]
        by_cases hj : j = i
        · rw [if_pos hj, if_pos hj]
        · rw [if_neg hj, if_neg hj, if_neg hj]
      · rw [if_neg h2, get_cons, ih h', get_cons]
        by_cases hj : j = a
        · rw [if_pos hj, if_pos hj, if_neg (by omega)]
        · rw [if_neg hj, if_neg hj]
          by_cases hlt : j < a
          · rw [if_pos hlt, if_pos hlt, if_neg (by omega)]
          · rw [if_neg hlt, if_neg hlt]

/-- A byte after a write of one byte: that byte at its address, every other as before. -/
theorem get_set {m : Mem} (i j : Nat) (v : Byte) (h : m.wf = true) : get (set m i v) j = if j = i then v else get m j := get_set_above j v h

/-- Writing bytes keeps the canonical form. -/
theorem wf_write {m : Mem} (i : Nat) (bs : List Byte) (h : m.wf = true) : (write m i bs).wf = true := by
  induction bs generalizing m i with
  | nil => exact h
  | cons b bs ih => exact ih (i + 1) (wf_set i b h)

/-- A byte after a write of bytes from `i` on. -/
theorem get_write {m : Mem} (i j : Nat) (bs : List Byte) (h : m.wf = true) :
    get (write m i bs) j = if i ≤ j ∧ j < i + bs.length then bs.getD (j - i) 0 else get m j := by
  induction bs generalizing m i with
  | nil => simp [write]
  | cons b bs ih =>
    rw [write, ih (i + 1) (wf_set i b h), get_set i j b h]
    by_cases h1 : j = i
    · subst h1; simp
    · by_cases h2 : i + 1 ≤ j ∧ j < i + 1 + bs.length
      · rw [if_pos h2, if_pos (by simp; omega), show j - i = (j - (i + 1)) + 1 by omega]; simp
      · rw [if_neg h2, if_neg h1, if_neg (by simp; omega)]

/-- Clearing a range keeps the canonical form. -/
theorem above_filter {lo : Nat} {m : Mem} (p : Host.Cell → Bool) (h : above lo m = true) : above lo (m.filter p) = true := by
  induction m generalizing lo with
  | nil => rfl
  | cons c m ih =>
    obtain ⟨a, b⟩ := c
    simp only [above, Bool.and_eq_true, decide_eq_true_eq] at h
    rw [List.filter_cons]
    split
    · simp only [above, Bool.and_eq_true, decide_eq_true_eq]; exact ⟨h.1, ih h.2⟩
    · exact above_mono (ih h.2) (by omega)

theorem wf_clear {m : Mem} (i n : Nat) (h : m.wf = true) : (clear m i n).wf = true := above_filter _ h

theorem get_filter {lo : Nat} {m : Mem} (p : Nat → Bool) (j : Nat) (h : above lo m = true) :
    get (m.filter fun c => p c.1) j = if p j then get m j else 0 := by
  induction m generalizing lo with
  | nil => simp [get]
  | cons c m ih =>
    obtain ⟨a, b⟩ := c
    simp only [above, Bool.and_eq_true, decide_eq_true_eq] at h
    rw [List.filter_cons]
    by_cases hp : p a = true
    · simp only [hp, if_true, get]
      by_cases h1 : j = a
      · subst h1; simp [hp]
      · by_cases h2 : j < a
        · simp [h1, h2]
        · simp [h1, h2, ih h.2]
    · simp only [hp, Bool.false_eq_true, if_false]
      rw [ih h.2]
      by_cases h1 : j = a
      · subst h1; simp [hp]
      · by_cases h2 : j < a
        · simp [get, h1, h2, get_below h.2 (show j < a + 1 by omega)]
        · simp [get, h1, h2]

/-- A byte after a range has been cleared. -/
theorem get_clear {m : Mem} (i n j : Nat) (h : m.wf = true) : get (clear m i n) j = if i ≤ j ∧ j < i + n then 0 else get m j := by
  have := get_filter (fun a => !(decide (i ≤ a) && decide (a < i + n))) j h
  rw [clear, this]
  by_cases h1 : i ≤ j ∧ j < i + n
  · simp [h1]
  · rw [if_neg h1, if_pos (by simp; omega)]

/-- Memories in canonical form with the same bytes are the same list. -/
theorem ext_above {lo lo' : Nat} {m n : Mem} (hm : above lo m = true) (hn : above lo' n = true) (h : ∀ i, get m i = get n i) : m = n := by
  induction m generalizing lo lo' n with
  | nil =>
    cases n with
    | nil => rfl
    | cons c n =>
      obtain ⟨a, b⟩ := c
      rw [above_cons] at hn
      exact absurd (h a).symm (by rw [get_cons, if_pos rfl]; exact hn.2.1)
  | cons c m ih =>
    obtain ⟨a, b⟩ := c
    rw [above_cons] at hm
    cases n with
    | nil => exact absurd (h a) (by rw [get_cons, if_pos rfl]; exact hm.2.1)
    | cons c' n =>
      obtain ⟨a', b'⟩ := c'
      rw [above_cons] at hn
      have ha : a = a' := by
        rcases Nat.lt_trichotomy a a' with hl | he | hg
        · have := h a; rw [get_cons, if_pos rfl, get_cons, if_neg (by omega), if_pos hl] at this; exact absurd this hm.2.1
        · exact he
        · have := h a'; rw [get_cons, if_neg (by omega), if_pos hg, get_cons, if_pos rfl] at this; exact absurd this.symm hn.2.1
      subst ha
      have hb : b = b' := by simpa [get] using h a
      subst hb
      have : m = n := ih hm.2.2 hn.2.2 fun i => by
        by_cases h1 : i = a
        · subst h1; rw [get_below hm.2.2 (Nat.lt_succ_self i), get_below hn.2.2 (Nat.lt_succ_self i)]
        · by_cases h2 : i < a
          · rw [get_below hm.2.2 (by omega), get_below hn.2.2 (by omega)]
          · simpa [get, h1, h2] using h i
      rw [this]

theorem ext {m n : Mem} (hm : m.wf = true) (hn : n.wf = true) (h : ∀ i, get m i = get n i) : m = n := ext_above hm hn h

/-! ## Reads of several bytes -/

@[simp] theorem length_read (m : Mem) (i n : Nat) : (read m i n).length = n := by
  induction n generalizing i with
  | zero => rfl
  | succ n ih => simp [read, ih]

theorem getD_read (m : Mem) (i n k : Nat) : (read m i n).getD k 0 = if k < n then get m (i + k) else 0 := by
  induction n generalizing i k with
  | zero => simp [read]
  | succ n ih =>
    cases k with
    | zero => simp [read]
    | succ k => rw [read, List.getD_cons_succ, ih]; simp only [Nat.add_lt_add_iff_right]; rw [show i + 1 + k = i + (k + 1) by omega]

/-- A read depends on the bytes of its range alone. -/
theorem read_congr {m n : Mem} {i k : Nat} (h : ∀ j, i ≤ j → j < i + k → get m j = get n j) : read m i k = read n i k := by
  induction k generalizing i with
  | zero => rfl
  | succ k ih => rw [read, read, h i (by omega) (by omega), ih fun j h1 h2 => h j (by omega) (by omega)]

/-- A read of exactly what was written gives the bytes written. -/
theorem read_write_self {m : Mem} (i : Nat) (bs : List Byte) (h : m.wf = true) : read (write m i bs) i bs.length = bs := by
  apply List.ext_getElem (by simp)
  intro k h1 h2
  have h3 := getD_read (write m i bs) i bs.length k
  rw [if_pos h2, get_write i (i + k) bs h, if_pos (by omega)] at h3
  simpa [List.getD_eq_getElem?_getD, h1, h2] using h3

/-- A read away from what was written is as before. -/
theorem read_write_other {m : Mem} (i j n : Nat) (bs : List Byte) (h : m.wf = true) (hd : j + n ≤ i ∨ i + bs.length ≤ j) :
    read (write m i bs) j n = read m j n :=
  read_congr fun k h1 h2 => by rw [get_write i k bs h, if_neg (by omega)]

end Mem

/-! ## Little-endian bytes (R3) -/

@[simp] theorem length_leBytes (n v : Nat) : (leBytes n v).length = n := by
  induction n generalizing v with
  | zero => rfl
  | succ n ih => simp [leBytes, ih]

/-- The number that the bytes of a number hold. -/
theorem ofBytes_leBytes (n v : Nat) : ofBytes (leBytes n v) = v % 256 ^ n := by
  induction n generalizing v with
  | zero => rw [Nat.pow_zero, Nat.mod_one]; rfl
  | succ n ih =>
    have h8 : (BitVec.ofNat 8 v).toNat = v % 256 := by simp
    rw [leBytes, ofBytes, ih, h8, Nat.pow_succ, Nat.mul_comm (256 ^ n) 256, Nat.mod_mul]

theorem ofBytes_lt (bs : List Byte) : ofBytes bs < 256 ^ bs.length := by
  induction bs with
  | nil => simp [ofBytes]
  | cons b bs ih =>
    have := b.isLt
    simp only [ofBytes, List.length_cons, Nat.pow_succ]
    omega

@[simp] theorem length_slice (bs : List Byte) (i n : Nat) : (slice bs i n).length = n := by
  simp [slice]; omega

theorem le_lt (bs : List Byte) (i n : Nat) : le bs i n < 256 ^ n := by
  simpa [le] using ofBytes_lt (slice bs i n)

/-! ## Lists by key -/

theorem look_upd {α β : Type} [DecidableEq α] (l : List (α × β)) (k j : α) (v : β) : look (upd l k v) j = if j = k then some v else look l j := by
  induction l with
  | nil => by_cases h : k = j <;> simp [upd, look, h, eq_comm]
  | cons e l ih =>
    obtain ⟨a, b⟩ := e
    by_cases h : a = k
    · subst h
      by_cases h2 : a = j
      · subst h2; simp [upd, look]
      · simp [upd, look, h2, show ¬ j = a from fun h => h2 h.symm]
    · by_cases h2 : a = j
      · subst h2; simp [upd, look, h]
      · simp [upd, look, h, h2, ih]

theorem look_del {α β : Type} [DecidableEq α] (l : List (α × β)) (k j : α) : look (del l k) j = if j = k then none else look l j := by
  induction l with
  | nil => simp [del, look]
  | cons e l ih =>
    obtain ⟨a, b⟩ := e
    by_cases h : a = k
    · subst h
      simp only [del] at ih ⊢
      by_cases h2 : a = j
      · subst h2; simpa using ih
      · simpa [look, h2] using ih
    · simp only [del] at ih ⊢
      by_cases h2 : a = j
      · subst h2; simp [look, h]
      · simpa [look, h, h2] using ih

theorem vget_vset {α : Type} {n : Nat} (v : Vector α n) (i j : Nat) (a d : α) :
    vget (vset v i a) j d = if j = i ∧ i < n then a else vget v j d := by
  unfold vget vset
  by_cases hi : i < n
  · by_cases hj : j < n
    · by_cases h : i = j
      · subst h; simp [hi]
      · simp [hi, hj, h, Vector.getElem_set, show ¬ j = i from fun e => h e.symm]
    · simp [hi, hj, show ¬ j = i by omega]
  · simp [hi]

end Sys2Proof.Machine
end

