-- ==== Sys2Proof/Laws/Crypto.lean ====
section
/-! SUPPORT. Sealed bytes open to the bytes that were sealed (R276). -/

namespace Sys2Proof.Machine

@[simp] theorem length_xorBytes (a b : List Byte) : (xorBytes a b).length = min a.length b.length := by simp [xorBytes]
/-- Adding the same key stream twice gives the bytes back. -/
theorem xorBytes_xorBytes (a b : List Byte) (h : a.length ≤ b.length) : xorBytes (xorBytes a b) b = a := by
  induction a generalizing b with
  | nil => simp [xorBytes]
  | cons x a ih =>
    cases b with
    | nil => simp at h
    | cons y b => simpa [xorBytes, BitVec.xor_assoc] using ih b (by simpa using h)
theorem length_gcmStream (ws : List (List Byte)) (nonce : List Byte) (n : Nat) : (gcmStream ws nonce n).length = n := by
  have h : ∀ m, ((List.range m).flatMap fun i => slice (aesBlock ws (slice nonce 0 12 ++ beBytes 4 (i + 2))) 0 16).length = 16 * m := by
    intro m
    induction m with
    | zero => rfl
    | succ m ih => rw [List.range_succ, List.flatMap_append, List.length_append, ih]; simp; omega
  rw [gcmStream, List.length_take, h]
  omega
/-- Opening what was sealed, with the tag it was given, gives the plain bytes (R276). -/
theorem gcmOpen_gcmSeal (key nonce aad plain : List Byte) :
    gcmOpen key nonce aad (gcmSeal key nonce aad plain).1 (gcmSeal key nonce aad plain).2 = some plain := by
  have hs := length_gcmStream (keySchedule key) nonce plain.length
  have hl : (xorBytes plain (gcmStream (keySchedule key) nonce plain.length)).length = plain.length := by simp [hs]
  unfold gcmOpen gcmSeal
  dsimp only
  rw [if_pos rfl, hl, xorBytes_xorBytes _ _ (by omega)]

end Sys2Proof.Machine
end

