-- ==== Sys2Proof/Laws/State.lean ====
section
/-! SUPPORT. What each update of the state leaves as it was and what it writes: one lemma for each field and update, true by `rfl`. -/

namespace Sys2Proof.Machine

/-! ### setCtx -/

@[simp] theorem State.setCtx_cur (s : State) (x : Ctx) : (s.setCtx x).cur = s.cur := rfl
@[simp] theorem State.setCtx_others (s : State) (x : Ctx) : (s.setCtx x).others = s.others := rfl
@[simp] theorem State.setCtx_tiles (s : State) (x : Ctx) : (s.setCtx x).tiles = s.tiles := rfl
@[simp] theorem State.setCtx_cycle (s : State) (x : Ctx) : (s.setCtx x).cycle = s.cycle := rfl
@[simp] theorem State.setCtx_tick (s : State) (x : Ctx) : (s.setCtx x).tick = s.tick := rfl
@[simp] theorem State.setCtx_turn (s : State) (x : Ctx) : (s.setCtx x).turn = s.turn := rfl
@[simp] theorem State.setCtx_agenda (s : State) (x : Ctx) : (s.setCtx x).agenda = s.agenda := rfl
@[simp] theorem State.setCtx_gmem (s : State) (x : Ctx) : (s.setCtx x).gmem = s.gmem := rfl
@[simp] theorem State.setCtx_badLines (s : State) (x : Ctx) : (s.setCtx x).badLines = s.badLines := rfl
@[simp] theorem State.setCtx_qbase (s : State) (x : Ctx) : (s.setCtx x).qbase = s.qbase := rfl
@[simp] theorem State.setCtx_fbase (s : State) (x : Ctx) : (s.setCtx x).fbase = s.fbase := rfl
@[simp] theorem State.setCtx_leaves (s : State) (x : Ctx) : (s.setCtx x).leaves = s.leaves := rfl
@[simp] theorem State.setCtx_tables (s : State) (x : Ctx) : (s.setCtx x).tables = s.tables := rfl
@[simp] theorem State.setCtx_fading (s : State) (x : Ctx) : (s.setCtx x).fading = s.fading := rfl
@[simp] theorem State.setCtx_owned (s : State) (x : Ctx) : (s.setCtx x).owned = s.owned := rfl
@[simp] theorem State.setCtx_tenants (s : State) (x : Ctx) : (s.setCtx x).tenants = s.tenants := rfl
@[simp] theorem State.setCtx_vdevs (s : State) (x : Ctx) : (s.setCtx x).vdevs = s.vdevs := rfl
@[simp] theorem State.setCtx_pairs (s : State) (x : Ctx) : (s.setCtx x).pairs = s.pairs := rfl
@[simp] theorem State.setCtx_ports (s : State) (x : Ctx) : (s.setCtx x).ports = s.ports := rfl
@[simp] theorem State.setCtx_records (s : State) (x : Ctx) : (s.setCtx x).records = s.records := rfl
@[simp] theorem State.setCtx_launches (s : State) (x : Ctx) : (s.setCtx x).launches = s.launches := rfl
@[simp] theorem State.setCtx_gone (s : State) (x : Ctx) : (s.setCtx x).gone = s.gone := rfl
@[simp] theorem State.setCtx_launchCount (s : State) (x : Ctx) : (s.setCtx x).launchCount = s.launchCount := rfl
@[simp] theorem State.setCtx_walks (s : State) (x : Ctx) : (s.setCtx x).walks = s.walks := rfl
@[simp] theorem State.setCtx_walkCount (s : State) (x : Ctx) : (s.setCtx x).walkCount = s.walkCount := rfl
@[simp] theorem State.setCtx_disp (s : State) (x : Ctx) : (s.setCtx x).disp = s.disp := rfl
@[simp] theorem State.setCtx_seen (s : State) (x : Ctx) : (s.setCtx x).seen = s.seen := rfl
@[simp] theorem State.setCtx_finishing (s : State) (x : Ctx) : (s.setCtx x).finishing = s.finishing := rfl
@[simp] theorem State.setCtx_swapped (s : State) (x : Ctx) : (s.setCtx x).swapped = s.swapped := rfl
@[simp] theorem State.setCtx_dropped (s : State) (x : Ctx) : (s.setCtx x).dropped = s.dropped := rfl
@[simp] theorem State.setCtx_phase (s : State) (x : Ctx) : (s.setCtx x).phase = s.phase := rfl
@[simp] theorem State.setCtx_driv (s : State) (x : Ctx) : (s.setCtx x).driv = s.driv := rfl
@[simp] theorem State.setCtx_drthr (s : State) (x : Ctx) : (s.setCtx x).drthr = s.drthr := rfl
@[simp] theorem State.setCtx_drhold (s : State) (x : Ctx) : (s.setCtx x).drhold = s.drhold := rfl
@[simp] theorem State.setCtx_vacb (s : State) (x : Ctx) : (s.setCtx x).vacb = s.vacb := rfl
@[simp] theorem State.setCtx_lost (s : State) (x : Ctx) : (s.setCtx x).lost = s.lost := rfl
@[simp] theorem State.setCtx_saveN (s : State) (x : Ctx) : (s.setCtx x).saveN = s.saveN := rfl
@[simp] theorem State.setCtx_saveE (s : State) (x : Ctx) : (s.setCtx x).saveE = s.saveE := rfl
@[simp] theorem State.setCtx_switchN (s : State) (x : Ctx) : (s.setCtx x).switchN = s.switchN := rfl
@[simp] theorem State.setCtx_jobs (s : State) (x : Ctx) : (s.setCtx x).jobs = s.jobs := rfl
@[simp] theorem State.setCtx_protect (s : State) (x : Ctx) : (s.setCtx x).protect = s.protect := rfl
@[simp] theorem State.setCtx_held (s : State) (x : Ctx) : (s.setCtx x).held = s.held := rfl
@[simp] theorem State.setCtx_link (s : State) (x : Ctx) : (s.setCtx x).link = s.link := rfl
@[simp] theorem State.setCtx_signers (s : State) (x : Ctx) : (s.setCtx x).signers = s.signers := rfl
@[simp] theorem State.setCtx_restore (s : State) (x : Ctx) : (s.setCtx x).restore = s.restore := rfl
@[simp] theorem State.setCtx_service (s : State) (x : Ctx) : (s.setCtx x).service = s.service := rfl
@[simp] theorem State.setCtx_progress (s : State) (x : Ctx) : (s.setCtx x).progress = s.progress := rfl
@[simp] theorem State.setCtx_tries (s : State) (x : Ctx) : (s.setCtx x).tries = s.tries := rfl
@[simp] theorem State.setCtx_failed (s : State) (x : Ctx) : (s.setCtx x).failed = s.failed := rfl
@[simp] theorem State.setCtx_recovery (s : State) (x : Ctx) : (s.setCtx x).recovery = s.recovery := rfl
@[simp] theorem State.setCtx_stopped (s : State) (x : Ctx) : (s.setCtx x).stopped = s.stopped := rfl
@[simp] theorem State.setCtx_atBreak (s : State) (x : Ctx) : (s.setCtx x).atBreak = s.atBreak := rfl
@[simp] theorem State.setCtx_up (s : State) (x : Ctx) : (s.setCtx x).up = s.up := rfl
@[simp] theorem State.setCtx_firstStart (s : State) (x : Ctx) : (s.setCtx x).firstStart = s.firstStart := rfl
@[simp] theorem State.setCtx_fwRun (s : State) (x : Ctx) : (s.setCtx x).fwRun = s.fwRun := rfl
@[simp] theorem State.setCtx_fwNext (s : State) (x : Ctx) : (s.setCtx x).fwNext = s.fwNext := rfl
@[simp] theorem State.setCtx_clock (s : State) (x : Ctx) : (s.setCtx x).clock = s.clock := rfl
@[simp] theorem State.setCtx_health (s : State) (x : Ctx) : (s.setCtx x).health = s.health := rfl
@[simp] theorem State.setCtx_mailbox (s : State) (x : Ctx) : (s.setCtx x).mailbox = s.mailbox := rfl
@[simp] theorem State.setCtx_submitted (s : State) (x : Ctx) : (s.setCtx x).submitted = s.submitted := rfl

/-! ### setFir -/

@[simp] theorem State.setFir_cur (s : State) (x : Firing) : (s.setFir x).cur = s.cur := rfl
@[simp] theorem State.setFir_others (s : State) (x : Firing) : (s.setFir x).others = s.others := rfl
@[simp] theorem State.setFir_tiles (s : State) (x : Firing) : (s.setFir x).tiles = s.tiles := rfl
@[simp] theorem State.setFir_cycle (s : State) (x : Firing) : (s.setFir x).cycle = s.cycle := rfl
@[simp] theorem State.setFir_tick (s : State) (x : Firing) : (s.setFir x).tick = s.tick := rfl
@[simp] theorem State.setFir_turn (s : State) (x : Firing) : (s.setFir x).turn = s.turn := rfl
@[simp] theorem State.setFir_agenda (s : State) (x : Firing) : (s.setFir x).agenda = s.agenda := rfl
@[simp] theorem State.setFir_gmem (s : State) (x : Firing) : (s.setFir x).gmem = s.gmem := rfl
@[simp] theorem State.setFir_badLines (s : State) (x : Firing) : (s.setFir x).badLines = s.badLines := rfl
@[simp] theorem State.setFir_qbase (s : State) (x : Firing) : (s.setFir x).qbase = s.qbase := rfl
@[simp] theorem State.setFir_fbase (s : State) (x : Firing) : (s.setFir x).fbase = s.fbase := rfl
@[simp] theorem State.setFir_leaves (s : State) (x : Firing) : (s.setFir x).leaves = s.leaves := rfl
@[simp] theorem State.setFir_tables (s : State) (x : Firing) : (s.setFir x).tables = s.tables := rfl
@[simp] theorem State.setFir_fading (s : State) (x : Firing) : (s.setFir x).fading = s.fading := rfl
@[simp] theorem State.setFir_owned (s : State) (x : Firing) : (s.setFir x).owned = s.owned := rfl
@[simp] theorem State.setFir_tenants (s : State) (x : Firing) : (s.setFir x).tenants = s.tenants := rfl
@[simp] theorem State.setFir_vdevs (s : State) (x : Firing) : (s.setFir x).vdevs = s.vdevs := rfl
@[simp] theorem State.setFir_pairs (s : State) (x : Firing) : (s.setFir x).pairs = s.pairs := rfl
@[simp] theorem State.setFir_ports (s : State) (x : Firing) : (s.setFir x).ports = s.ports := rfl
@[simp] theorem State.setFir_records (s : State) (x : Firing) : (s.setFir x).records = s.records := rfl
@[simp] theorem State.setFir_launches (s : State) (x : Firing) : (s.setFir x).launches = s.launches := rfl
@[simp] theorem State.setFir_gone (s : State) (x : Firing) : (s.setFir x).gone = s.gone := rfl
@[simp] theorem State.setFir_launchCount (s : State) (x : Firing) : (s.setFir x).launchCount = s.launchCount := rfl
@[simp] theorem State.setFir_walks (s : State) (x : Firing) : (s.setFir x).walks = s.walks := rfl
@[simp] theorem State.setFir_walkCount (s : State) (x : Firing) : (s.setFir x).walkCount = s.walkCount := rfl
@[simp] theorem State.setFir_disp (s : State) (x : Firing) : (s.setFir x).disp = s.disp := rfl
@[simp] theorem State.setFir_seen (s : State) (x : Firing) : (s.setFir x).seen = s.seen := rfl
@[simp] theorem State.setFir_finishing (s : State) (x : Firing) : (s.setFir x).finishing = s.finishing := rfl
@[simp] theorem State.setFir_swapped (s : State) (x : Firing) : (s.setFir x).swapped = s.swapped := rfl
@[simp] theorem State.setFir_dropped (s : State) (x : Firing) : (s.setFir x).dropped = s.dropped := rfl
@[simp] theorem State.setFir_phase (s : State) (x : Firing) : (s.setFir x).phase = s.phase := rfl
@[simp] theorem State.setFir_driv (s : State) (x : Firing) : (s.setFir x).driv = s.driv := rfl
@[simp] theorem State.setFir_drthr (s : State) (x : Firing) : (s.setFir x).drthr = s.drthr := rfl
@[simp] theorem State.setFir_drhold (s : State) (x : Firing) : (s.setFir x).drhold = s.drhold := rfl
@[simp] theorem State.setFir_vacb (s : State) (x : Firing) : (s.setFir x).vacb = s.vacb := rfl
@[simp] theorem State.setFir_lost (s : State) (x : Firing) : (s.setFir x).lost = s.lost := rfl
@[simp] theorem State.setFir_saveN (s : State) (x : Firing) : (s.setFir x).saveN = s.saveN := rfl
@[simp] theorem State.setFir_saveE (s : State) (x : Firing) : (s.setFir x).saveE = s.saveE := rfl
@[simp] theorem State.setFir_switchN (s : State) (x : Firing) : (s.setFir x).switchN = s.switchN := rfl
@[simp] theorem State.setFir_jobs (s : State) (x : Firing) : (s.setFir x).jobs = s.jobs := rfl
@[simp] theorem State.setFir_protect (s : State) (x : Firing) : (s.setFir x).protect = s.protect := rfl
@[simp] theorem State.setFir_held (s : State) (x : Firing) : (s.setFir x).held = s.held := rfl
@[simp] theorem State.setFir_link (s : State) (x : Firing) : (s.setFir x).link = s.link := rfl
@[simp] theorem State.setFir_signers (s : State) (x : Firing) : (s.setFir x).signers = s.signers := rfl
@[simp] theorem State.setFir_restore (s : State) (x : Firing) : (s.setFir x).restore = s.restore := rfl
@[simp] theorem State.setFir_service (s : State) (x : Firing) : (s.setFir x).service = s.service := rfl
@[simp] theorem State.setFir_progress (s : State) (x : Firing) : (s.setFir x).progress = s.progress := rfl
@[simp] theorem State.setFir_tries (s : State) (x : Firing) : (s.setFir x).tries = s.tries := rfl
@[simp] theorem State.setFir_failed (s : State) (x : Firing) : (s.setFir x).failed = s.failed := rfl
@[simp] theorem State.setFir_recovery (s : State) (x : Firing) : (s.setFir x).recovery = s.recovery := rfl
@[simp] theorem State.setFir_stopped (s : State) (x : Firing) : (s.setFir x).stopped = s.stopped := rfl
@[simp] theorem State.setFir_atBreak (s : State) (x : Firing) : (s.setFir x).atBreak = s.atBreak := rfl
@[simp] theorem State.setFir_up (s : State) (x : Firing) : (s.setFir x).up = s.up := rfl
@[simp] theorem State.setFir_firstStart (s : State) (x : Firing) : (s.setFir x).firstStart = s.firstStart := rfl
@[simp] theorem State.setFir_fwRun (s : State) (x : Firing) : (s.setFir x).fwRun = s.fwRun := rfl
@[simp] theorem State.setFir_fwNext (s : State) (x : Firing) : (s.setFir x).fwNext = s.fwNext := rfl
@[simp] theorem State.setFir_clock (s : State) (x : Firing) : (s.setFir x).clock = s.clock := rfl
@[simp] theorem State.setFir_health (s : State) (x : Firing) : (s.setFir x).health = s.health := rfl
@[simp] theorem State.setFir_mailbox (s : State) (x : Firing) : (s.setFir x).mailbox = s.mailbox := rfl
@[simp] theorem State.setFir_submitted (s : State) (x : Firing) : (s.setFir x).submitted = s.submitted := rfl

/-! ### setRegs -/

@[simp] theorem State.setRegs_cur (s : State) (x : Regs) : (s.setRegs x).cur = s.cur := rfl
@[simp] theorem State.setRegs_others (s : State) (x : Regs) : (s.setRegs x).others = s.others := rfl
@[simp] theorem State.setRegs_tiles (s : State) (x : Regs) : (s.setRegs x).tiles = s.tiles := rfl
@[simp] theorem State.setRegs_cycle (s : State) (x : Regs) : (s.setRegs x).cycle = s.cycle := rfl
@[simp] theorem State.setRegs_tick (s : State) (x : Regs) : (s.setRegs x).tick = s.tick := rfl
@[simp] theorem State.setRegs_turn (s : State) (x : Regs) : (s.setRegs x).turn = s.turn := rfl
@[simp] theorem State.setRegs_agenda (s : State) (x : Regs) : (s.setRegs x).agenda = s.agenda := rfl
@[simp] theorem State.setRegs_gmem (s : State) (x : Regs) : (s.setRegs x).gmem = s.gmem := rfl
@[simp] theorem State.setRegs_badLines (s : State) (x : Regs) : (s.setRegs x).badLines = s.badLines := rfl
@[simp] theorem State.setRegs_qbase (s : State) (x : Regs) : (s.setRegs x).qbase = s.qbase := rfl
@[simp] theorem State.setRegs_fbase (s : State) (x : Regs) : (s.setRegs x).fbase = s.fbase := rfl
@[simp] theorem State.setRegs_leaves (s : State) (x : Regs) : (s.setRegs x).leaves = s.leaves := rfl
@[simp] theorem State.setRegs_tables (s : State) (x : Regs) : (s.setRegs x).tables = s.tables := rfl
@[simp] theorem State.setRegs_fading (s : State) (x : Regs) : (s.setRegs x).fading = s.fading := rfl
@[simp] theorem State.setRegs_owned (s : State) (x : Regs) : (s.setRegs x).owned = s.owned := rfl
@[simp] theorem State.setRegs_tenants (s : State) (x : Regs) : (s.setRegs x).tenants = s.tenants := rfl
@[simp] theorem State.setRegs_vdevs (s : State) (x : Regs) : (s.setRegs x).vdevs = s.vdevs := rfl
@[simp] theorem State.setRegs_pairs (s : State) (x : Regs) : (s.setRegs x).pairs = s.pairs := rfl
@[simp] theorem State.setRegs_ports (s : State) (x : Regs) : (s.setRegs x).ports = s.ports := rfl
@[simp] theorem State.setRegs_records (s : State) (x : Regs) : (s.setRegs x).records = s.records := rfl
@[simp] theorem State.setRegs_launches (s : State) (x : Regs) : (s.setRegs x).launches = s.launches := rfl
@[simp] theorem State.setRegs_gone (s : State) (x : Regs) : (s.setRegs x).gone = s.gone := rfl
@[simp] theorem State.setRegs_launchCount (s : State) (x : Regs) : (s.setRegs x).launchCount = s.launchCount := rfl
@[simp] theorem State.setRegs_walks (s : State) (x : Regs) : (s.setRegs x).walks = s.walks := rfl
@[simp] theorem State.setRegs_walkCount (s : State) (x : Regs) : (s.setRegs x).walkCount = s.walkCount := rfl
@[simp] theorem State.setRegs_disp (s : State) (x : Regs) : (s.setRegs x).disp = s.disp := rfl
@[simp] theorem State.setRegs_seen (s : State) (x : Regs) : (s.setRegs x).seen = s.seen := rfl
@[simp] theorem State.setRegs_finishing (s : State) (x : Regs) : (s.setRegs x).finishing = s.finishing := rfl
@[simp] theorem State.setRegs_swapped (s : State) (x : Regs) : (s.setRegs x).swapped = s.swapped := rfl
@[simp] theorem State.setRegs_dropped (s : State) (x : Regs) : (s.setRegs x).dropped = s.dropped := rfl
@[simp] theorem State.setRegs_phase (s : State) (x : Regs) : (s.setRegs x).phase = s.phase := rfl
@[simp] theorem State.setRegs_driv (s : State) (x : Regs) : (s.setRegs x).driv = s.driv := rfl
@[simp] theorem State.setRegs_drthr (s : State) (x : Regs) : (s.setRegs x).drthr = s.drthr := rfl
@[simp] theorem State.setRegs_drhold (s : State) (x : Regs) : (s.setRegs x).drhold = s.drhold := rfl
@[simp] theorem State.setRegs_vacb (s : State) (x : Regs) : (s.setRegs x).vacb = s.vacb := rfl
@[simp] theorem State.setRegs_lost (s : State) (x : Regs) : (s.setRegs x).lost = s.lost := rfl
@[simp] theorem State.setRegs_saveN (s : State) (x : Regs) : (s.setRegs x).saveN = s.saveN := rfl
@[simp] theorem State.setRegs_saveE (s : State) (x : Regs) : (s.setRegs x).saveE = s.saveE := rfl
@[simp] theorem State.setRegs_switchN (s : State) (x : Regs) : (s.setRegs x).switchN = s.switchN := rfl
@[simp] theorem State.setRegs_jobs (s : State) (x : Regs) : (s.setRegs x).jobs = s.jobs := rfl
@[simp] theorem State.setRegs_protect (s : State) (x : Regs) : (s.setRegs x).protect = s.protect := rfl
@[simp] theorem State.setRegs_held (s : State) (x : Regs) : (s.setRegs x).held = s.held := rfl
@[simp] theorem State.setRegs_link (s : State) (x : Regs) : (s.setRegs x).link = s.link := rfl
@[simp] theorem State.setRegs_signers (s : State) (x : Regs) : (s.setRegs x).signers = s.signers := rfl
@[simp] theorem State.setRegs_restore (s : State) (x : Regs) : (s.setRegs x).restore = s.restore := rfl
@[simp] theorem State.setRegs_service (s : State) (x : Regs) : (s.setRegs x).service = s.service := rfl
@[simp] theorem State.setRegs_progress (s : State) (x : Regs) : (s.setRegs x).progress = s.progress := rfl
@[simp] theorem State.setRegs_tries (s : State) (x : Regs) : (s.setRegs x).tries = s.tries := rfl
@[simp] theorem State.setRegs_failed (s : State) (x : Regs) : (s.setRegs x).failed = s.failed := rfl
@[simp] theorem State.setRegs_recovery (s : State) (x : Regs) : (s.setRegs x).recovery = s.recovery := rfl
@[simp] theorem State.setRegs_stopped (s : State) (x : Regs) : (s.setRegs x).stopped = s.stopped := rfl
@[simp] theorem State.setRegs_atBreak (s : State) (x : Regs) : (s.setRegs x).atBreak = s.atBreak := rfl
@[simp] theorem State.setRegs_up (s : State) (x : Regs) : (s.setRegs x).up = s.up := rfl
@[simp] theorem State.setRegs_firstStart (s : State) (x : Regs) : (s.setRegs x).firstStart = s.firstStart := rfl
@[simp] theorem State.setRegs_fwRun (s : State) (x : Regs) : (s.setRegs x).fwRun = s.fwRun := rfl
@[simp] theorem State.setRegs_fwNext (s : State) (x : Regs) : (s.setRegs x).fwNext = s.fwNext := rfl
@[simp] theorem State.setRegs_clock (s : State) (x : Regs) : (s.setRegs x).clock = s.clock := rfl
@[simp] theorem State.setRegs_health (s : State) (x : Regs) : (s.setRegs x).health = s.health := rfl
@[simp] theorem State.setRegs_mailbox (s : State) (x : Regs) : (s.setRegs x).mailbox = s.mailbox := rfl
@[simp] theorem State.setRegs_submitted (s : State) (x : Regs) : (s.setRegs x).submitted = s.submitted := rfl

/-! ### setProg -/

@[simp] theorem State.setProg_cur (s : State) (x : Prog) : (s.setProg x).cur = s.cur := rfl
@[simp] theorem State.setProg_others (s : State) (x : Prog) : (s.setProg x).others = s.others := rfl
@[simp] theorem State.setProg_tiles (s : State) (x : Prog) : (s.setProg x).tiles = s.tiles := rfl
@[simp] theorem State.setProg_cycle (s : State) (x : Prog) : (s.setProg x).cycle = s.cycle := rfl
@[simp] theorem State.setProg_tick (s : State) (x : Prog) : (s.setProg x).tick = s.tick := rfl
@[simp] theorem State.setProg_turn (s : State) (x : Prog) : (s.setProg x).turn = s.turn := rfl
@[simp] theorem State.setProg_agenda (s : State) (x : Prog) : (s.setProg x).agenda = s.agenda := rfl
@[simp] theorem State.setProg_gmem (s : State) (x : Prog) : (s.setProg x).gmem = s.gmem := rfl
@[simp] theorem State.setProg_badLines (s : State) (x : Prog) : (s.setProg x).badLines = s.badLines := rfl
@[simp] theorem State.setProg_qbase (s : State) (x : Prog) : (s.setProg x).qbase = s.qbase := rfl
@[simp] theorem State.setProg_fbase (s : State) (x : Prog) : (s.setProg x).fbase = s.fbase := rfl
@[simp] theorem State.setProg_leaves (s : State) (x : Prog) : (s.setProg x).leaves = s.leaves := rfl
@[simp] theorem State.setProg_tables (s : State) (x : Prog) : (s.setProg x).tables = s.tables := rfl
@[simp] theorem State.setProg_fading (s : State) (x : Prog) : (s.setProg x).fading = s.fading := rfl
@[simp] theorem State.setProg_owned (s : State) (x : Prog) : (s.setProg x).owned = s.owned := rfl
@[simp] theorem State.setProg_tenants (s : State) (x : Prog) : (s.setProg x).tenants = s.tenants := rfl
@[simp] theorem State.setProg_vdevs (s : State) (x : Prog) : (s.setProg x).vdevs = s.vdevs := rfl
@[simp] theorem State.setProg_pairs (s : State) (x : Prog) : (s.setProg x).pairs = s.pairs := rfl
@[simp] theorem State.setProg_ports (s : State) (x : Prog) : (s.setProg x).ports = s.ports := rfl
@[simp] theorem State.setProg_records (s : State) (x : Prog) : (s.setProg x).records = s.records := rfl
@[simp] theorem State.setProg_launches (s : State) (x : Prog) : (s.setProg x).launches = s.launches := rfl
@[simp] theorem State.setProg_gone (s : State) (x : Prog) : (s.setProg x).gone = s.gone := rfl
@[simp] theorem State.setProg_launchCount (s : State) (x : Prog) : (s.setProg x).launchCount = s.launchCount := rfl
@[simp] theorem State.setProg_walks (s : State) (x : Prog) : (s.setProg x).walks = s.walks := rfl
@[simp] theorem State.setProg_walkCount (s : State) (x : Prog) : (s.setProg x).walkCount = s.walkCount := rfl
@[simp] theorem State.setProg_disp (s : State) (x : Prog) : (s.setProg x).disp = s.disp := rfl
@[simp] theorem State.setProg_seen (s : State) (x : Prog) : (s.setProg x).seen = s.seen := rfl
@[simp] theorem State.setProg_finishing (s : State) (x : Prog) : (s.setProg x).finishing = s.finishing := rfl
@[simp] theorem State.setProg_swapped (s : State) (x : Prog) : (s.setProg x).swapped = s.swapped := rfl
@[simp] theorem State.setProg_dropped (s : State) (x : Prog) : (s.setProg x).dropped = s.dropped := rfl
@[simp] theorem State.setProg_phase (s : State) (x : Prog) : (s.setProg x).phase = s.phase := rfl
@[simp] theorem State.setProg_driv (s : State) (x : Prog) : (s.setProg x).driv = s.driv := rfl
@[simp] theorem State.setProg_drthr (s : State) (x : Prog) : (s.setProg x).drthr = s.drthr := rfl
@[simp] theorem State.setProg_drhold (s : State) (x : Prog) : (s.setProg x).drhold = s.drhold := rfl
@[simp] theorem State.setProg_vacb (s : State) (x : Prog) : (s.setProg x).vacb = s.vacb := rfl
@[simp] theorem State.setProg_lost (s : State) (x : Prog) : (s.setProg x).lost = s.lost := rfl
@[simp] theorem State.setProg_saveN (s : State) (x : Prog) : (s.setProg x).saveN = s.saveN := rfl
@[simp] theorem State.setProg_saveE (s : State) (x : Prog) : (s.setProg x).saveE = s.saveE := rfl
@[simp] theorem State.setProg_switchN (s : State) (x : Prog) : (s.setProg x).switchN = s.switchN := rfl
@[simp] theorem State.setProg_jobs (s : State) (x : Prog) : (s.setProg x).jobs = s.jobs := rfl
@[simp] theorem State.setProg_protect (s : State) (x : Prog) : (s.setProg x).protect = s.protect := rfl
@[simp] theorem State.setProg_held (s : State) (x : Prog) : (s.setProg x).held = s.held := rfl
@[simp] theorem State.setProg_link (s : State) (x : Prog) : (s.setProg x).link = s.link := rfl
@[simp] theorem State.setProg_signers (s : State) (x : Prog) : (s.setProg x).signers = s.signers := rfl
@[simp] theorem State.setProg_restore (s : State) (x : Prog) : (s.setProg x).restore = s.restore := rfl
@[simp] theorem State.setProg_service (s : State) (x : Prog) : (s.setProg x).service = s.service := rfl
@[simp] theorem State.setProg_progress (s : State) (x : Prog) : (s.setProg x).progress = s.progress := rfl
@[simp] theorem State.setProg_tries (s : State) (x : Prog) : (s.setProg x).tries = s.tries := rfl
@[simp] theorem State.setProg_failed (s : State) (x : Prog) : (s.setProg x).failed = s.failed := rfl
@[simp] theorem State.setProg_recovery (s : State) (x : Prog) : (s.setProg x).recovery = s.recovery := rfl
@[simp] theorem State.setProg_stopped (s : State) (x : Prog) : (s.setProg x).stopped = s.stopped := rfl
@[simp] theorem State.setProg_atBreak (s : State) (x : Prog) : (s.setProg x).atBreak = s.atBreak := rfl
@[simp] theorem State.setProg_up (s : State) (x : Prog) : (s.setProg x).up = s.up := rfl
@[simp] theorem State.setProg_firstStart (s : State) (x : Prog) : (s.setProg x).firstStart = s.firstStart := rfl
@[simp] theorem State.setProg_fwRun (s : State) (x : Prog) : (s.setProg x).fwRun = s.fwRun := rfl
@[simp] theorem State.setProg_fwNext (s : State) (x : Prog) : (s.setProg x).fwNext = s.fwNext := rfl
@[simp] theorem State.setProg_clock (s : State) (x : Prog) : (s.setProg x).clock = s.clock := rfl
@[simp] theorem State.setProg_health (s : State) (x : Prog) : (s.setProg x).health = s.health := rfl
@[simp] theorem State.setProg_mailbox (s : State) (x : Prog) : (s.setProg x).mailbox = s.mailbox := rfl
@[simp] theorem State.setProg_submitted (s : State) (x : Prog) : (s.setProg x).submitted = s.submitted := rfl

/-! ### setChunk -/

@[simp] theorem State.setChunk_cur (s : State) (x : Chunk) : (s.setChunk x).cur = s.cur := rfl
@[simp] theorem State.setChunk_others (s : State) (x : Chunk) : (s.setChunk x).others = s.others := rfl
@[simp] theorem State.setChunk_tiles (s : State) (x : Chunk) : (s.setChunk x).tiles = s.tiles := rfl
@[simp] theorem State.setChunk_cycle (s : State) (x : Chunk) : (s.setChunk x).cycle = s.cycle := rfl
@[simp] theorem State.setChunk_tick (s : State) (x : Chunk) : (s.setChunk x).tick = s.tick := rfl
@[simp] theorem State.setChunk_turn (s : State) (x : Chunk) : (s.setChunk x).turn = s.turn := rfl
@[simp] theorem State.setChunk_agenda (s : State) (x : Chunk) : (s.setChunk x).agenda = s.agenda := rfl
@[simp] theorem State.setChunk_gmem (s : State) (x : Chunk) : (s.setChunk x).gmem = s.gmem := rfl
@[simp] theorem State.setChunk_badLines (s : State) (x : Chunk) : (s.setChunk x).badLines = s.badLines := rfl
@[simp] theorem State.setChunk_qbase (s : State) (x : Chunk) : (s.setChunk x).qbase = s.qbase := rfl
@[simp] theorem State.setChunk_fbase (s : State) (x : Chunk) : (s.setChunk x).fbase = s.fbase := rfl
@[simp] theorem State.setChunk_leaves (s : State) (x : Chunk) : (s.setChunk x).leaves = s.leaves := rfl
@[simp] theorem State.setChunk_tables (s : State) (x : Chunk) : (s.setChunk x).tables = s.tables := rfl
@[simp] theorem State.setChunk_fading (s : State) (x : Chunk) : (s.setChunk x).fading = s.fading := rfl
@[simp] theorem State.setChunk_owned (s : State) (x : Chunk) : (s.setChunk x).owned = s.owned := rfl
@[simp] theorem State.setChunk_tenants (s : State) (x : Chunk) : (s.setChunk x).tenants = s.tenants := rfl
@[simp] theorem State.setChunk_vdevs (s : State) (x : Chunk) : (s.setChunk x).vdevs = s.vdevs := rfl
@[simp] theorem State.setChunk_pairs (s : State) (x : Chunk) : (s.setChunk x).pairs = s.pairs := rfl
@[simp] theorem State.setChunk_ports (s : State) (x : Chunk) : (s.setChunk x).ports = s.ports := rfl
@[simp] theorem State.setChunk_records (s : State) (x : Chunk) : (s.setChunk x).records = s.records := rfl
@[simp] theorem State.setChunk_launches (s : State) (x : Chunk) : (s.setChunk x).launches = s.launches := rfl
@[simp] theorem State.setChunk_gone (s : State) (x : Chunk) : (s.setChunk x).gone = s.gone := rfl
@[simp] theorem State.setChunk_launchCount (s : State) (x : Chunk) : (s.setChunk x).launchCount = s.launchCount := rfl
@[simp] theorem State.setChunk_walks (s : State) (x : Chunk) : (s.setChunk x).walks = s.walks := rfl
@[simp] theorem State.setChunk_walkCount (s : State) (x : Chunk) : (s.setChunk x).walkCount = s.walkCount := rfl
@[simp] theorem State.setChunk_disp (s : State) (x : Chunk) : (s.setChunk x).disp = s.disp := rfl
@[simp] theorem State.setChunk_seen (s : State) (x : Chunk) : (s.setChunk x).seen = s.seen := rfl
@[simp] theorem State.setChunk_finishing (s : State) (x : Chunk) : (s.setChunk x).finishing = s.finishing := rfl
@[simp] theorem State.setChunk_swapped (s : State) (x : Chunk) : (s.setChunk x).swapped = s.swapped := rfl
@[simp] theorem State.setChunk_dropped (s : State) (x : Chunk) : (s.setChunk x).dropped = s.dropped := rfl
@[simp] theorem State.setChunk_phase (s : State) (x : Chunk) : (s.setChunk x).phase = s.phase := rfl
@[simp] theorem State.setChunk_driv (s : State) (x : Chunk) : (s.setChunk x).driv = s.driv := rfl
@[simp] theorem State.setChunk_drthr (s : State) (x : Chunk) : (s.setChunk x).drthr = s.drthr := rfl
@[simp] theorem State.setChunk_drhold (s : State) (x : Chunk) : (s.setChunk x).drhold = s.drhold := rfl
@[simp] theorem State.setChunk_vacb (s : State) (x : Chunk) : (s.setChunk x).vacb = s.vacb := rfl
@[simp] theorem State.setChunk_lost (s : State) (x : Chunk) : (s.setChunk x).lost = s.lost := rfl
@[simp] theorem State.setChunk_saveN (s : State) (x : Chunk) : (s.setChunk x).saveN = s.saveN := rfl
@[simp] theorem State.setChunk_saveE (s : State) (x : Chunk) : (s.setChunk x).saveE = s.saveE := rfl
@[simp] theorem State.setChunk_switchN (s : State) (x : Chunk) : (s.setChunk x).switchN = s.switchN := rfl
@[simp] theorem State.setChunk_jobs (s : State) (x : Chunk) : (s.setChunk x).jobs = s.jobs := rfl
@[simp] theorem State.setChunk_protect (s : State) (x : Chunk) : (s.setChunk x).protect = s.protect := rfl
@[simp] theorem State.setChunk_held (s : State) (x : Chunk) : (s.setChunk x).held = s.held := rfl
@[simp] theorem State.setChunk_link (s : State) (x : Chunk) : (s.setChunk x).link = s.link := rfl
@[simp] theorem State.setChunk_signers (s : State) (x : Chunk) : (s.setChunk x).signers = s.signers := rfl
@[simp] theorem State.setChunk_restore (s : State) (x : Chunk) : (s.setChunk x).restore = s.restore := rfl
@[simp] theorem State.setChunk_service (s : State) (x : Chunk) : (s.setChunk x).service = s.service := rfl
@[simp] theorem State.setChunk_progress (s : State) (x : Chunk) : (s.setChunk x).progress = s.progress := rfl
@[simp] theorem State.setChunk_tries (s : State) (x : Chunk) : (s.setChunk x).tries = s.tries := rfl
@[simp] theorem State.setChunk_failed (s : State) (x : Chunk) : (s.setChunk x).failed = s.failed := rfl
@[simp] theorem State.setChunk_recovery (s : State) (x : Chunk) : (s.setChunk x).recovery = s.recovery := rfl
@[simp] theorem State.setChunk_stopped (s : State) (x : Chunk) : (s.setChunk x).stopped = s.stopped := rfl
@[simp] theorem State.setChunk_atBreak (s : State) (x : Chunk) : (s.setChunk x).atBreak = s.atBreak := rfl
@[simp] theorem State.setChunk_up (s : State) (x : Chunk) : (s.setChunk x).up = s.up := rfl
@[simp] theorem State.setChunk_firstStart (s : State) (x : Chunk) : (s.setChunk x).firstStart = s.firstStart := rfl
@[simp] theorem State.setChunk_fwRun (s : State) (x : Chunk) : (s.setChunk x).fwRun = s.fwRun := rfl
@[simp] theorem State.setChunk_fwNext (s : State) (x : Chunk) : (s.setChunk x).fwNext = s.fwNext := rfl
@[simp] theorem State.setChunk_clock (s : State) (x : Chunk) : (s.setChunk x).clock = s.clock := rfl
@[simp] theorem State.setChunk_health (s : State) (x : Chunk) : (s.setChunk x).health = s.health := rfl
@[simp] theorem State.setChunk_mailbox (s : State) (x : Chunk) : (s.setChunk x).mailbox = s.mailbox := rfl
@[simp] theorem State.setChunk_submitted (s : State) (x : Chunk) : (s.setChunk x).submitted = s.submitted := rfl

/-! ### setStatus -/

@[simp] theorem State.setStatus_cur (s : State) (x : Status) : (s.setStatus x).cur = s.cur := rfl
@[simp] theorem State.setStatus_others (s : State) (x : Status) : (s.setStatus x).others = s.others := rfl
@[simp] theorem State.setStatus_tiles (s : State) (x : Status) : (s.setStatus x).tiles = s.tiles := rfl
@[simp] theorem State.setStatus_cycle (s : State) (x : Status) : (s.setStatus x).cycle = s.cycle := rfl
@[simp] theorem State.setStatus_tick (s : State) (x : Status) : (s.setStatus x).tick = s.tick := rfl
@[simp] theorem State.setStatus_turn (s : State) (x : Status) : (s.setStatus x).turn = s.turn := rfl
@[simp] theorem State.setStatus_agenda (s : State) (x : Status) : (s.setStatus x).agenda = s.agenda := rfl
@[simp] theorem State.setStatus_gmem (s : State) (x : Status) : (s.setStatus x).gmem = s.gmem := rfl
@[simp] theorem State.setStatus_badLines (s : State) (x : Status) : (s.setStatus x).badLines = s.badLines := rfl
@[simp] theorem State.setStatus_qbase (s : State) (x : Status) : (s.setStatus x).qbase = s.qbase := rfl
@[simp] theorem State.setStatus_fbase (s : State) (x : Status) : (s.setStatus x).fbase = s.fbase := rfl
@[simp] theorem State.setStatus_leaves (s : State) (x : Status) : (s.setStatus x).leaves = s.leaves := rfl
@[simp] theorem State.setStatus_tables (s : State) (x : Status) : (s.setStatus x).tables = s.tables := rfl
@[simp] theorem State.setStatus_fading (s : State) (x : Status) : (s.setStatus x).fading = s.fading := rfl
@[simp] theorem State.setStatus_owned (s : State) (x : Status) : (s.setStatus x).owned = s.owned := rfl
@[simp] theorem State.setStatus_tenants (s : State) (x : Status) : (s.setStatus x).tenants = s.tenants := rfl
@[simp] theorem State.setStatus_vdevs (s : State) (x : Status) : (s.setStatus x).vdevs = s.vdevs := rfl
@[simp] theorem State.setStatus_pairs (s : State) (x : Status) : (s.setStatus x).pairs = s.pairs := rfl
@[simp] theorem State.setStatus_ports (s : State) (x : Status) : (s.setStatus x).ports = s.ports := rfl
@[simp] theorem State.setStatus_records (s : State) (x : Status) : (s.setStatus x).records = s.records := rfl
@[simp] theorem State.setStatus_launches (s : State) (x : Status) : (s.setStatus x).launches = s.launches := rfl
@[simp] theorem State.setStatus_gone (s : State) (x : Status) : (s.setStatus x).gone = s.gone := rfl
@[simp] theorem State.setStatus_launchCount (s : State) (x : Status) : (s.setStatus x).launchCount = s.launchCount := rfl
@[simp] theorem State.setStatus_walks (s : State) (x : Status) : (s.setStatus x).walks = s.walks := rfl
@[simp] theorem State.setStatus_walkCount (s : State) (x : Status) : (s.setStatus x).walkCount = s.walkCount := rfl
@[simp] theorem State.setStatus_disp (s : State) (x : Status) : (s.setStatus x).disp = s.disp := rfl
@[simp] theorem State.setStatus_seen (s : State) (x : Status) : (s.setStatus x).seen = s.seen := rfl
@[simp] theorem State.setStatus_finishing (s : State) (x : Status) : (s.setStatus x).finishing = s.finishing := rfl
@[simp] theorem State.setStatus_swapped (s : State) (x : Status) : (s.setStatus x).swapped = s.swapped := rfl
@[simp] theorem State.setStatus_dropped (s : State) (x : Status) : (s.setStatus x).dropped = s.dropped := rfl
@[simp] theorem State.setStatus_phase (s : State) (x : Status) : (s.setStatus x).phase = s.phase := rfl
@[simp] theorem State.setStatus_driv (s : State) (x : Status) : (s.setStatus x).driv = s.driv := rfl
@[simp] theorem State.setStatus_drthr (s : State) (x : Status) : (s.setStatus x).drthr = s.drthr := rfl
@[simp] theorem State.setStatus_drhold (s : State) (x : Status) : (s.setStatus x).drhold = s.drhold := rfl
@[simp] theorem State.setStatus_vacb (s : State) (x : Status) : (s.setStatus x).vacb = s.vacb := rfl
@[simp] theorem State.setStatus_lost (s : State) (x : Status) : (s.setStatus x).lost = s.lost := rfl
@[simp] theorem State.setStatus_saveN (s : State) (x : Status) : (s.setStatus x).saveN = s.saveN := rfl
@[simp] theorem State.setStatus_saveE (s : State) (x : Status) : (s.setStatus x).saveE = s.saveE := rfl
@[simp] theorem State.setStatus_switchN (s : State) (x : Status) : (s.setStatus x).switchN = s.switchN := rfl
@[simp] theorem State.setStatus_jobs (s : State) (x : Status) : (s.setStatus x).jobs = s.jobs := rfl
@[simp] theorem State.setStatus_protect (s : State) (x : Status) : (s.setStatus x).protect = s.protect := rfl
@[simp] theorem State.setStatus_held (s : State) (x : Status) : (s.setStatus x).held = s.held := rfl
@[simp] theorem State.setStatus_link (s : State) (x : Status) : (s.setStatus x).link = s.link := rfl
@[simp] theorem State.setStatus_signers (s : State) (x : Status) : (s.setStatus x).signers = s.signers := rfl
@[simp] theorem State.setStatus_restore (s : State) (x : Status) : (s.setStatus x).restore = s.restore := rfl
@[simp] theorem State.setStatus_service (s : State) (x : Status) : (s.setStatus x).service = s.service := rfl
@[simp] theorem State.setStatus_progress (s : State) (x : Status) : (s.setStatus x).progress = s.progress := rfl
@[simp] theorem State.setStatus_tries (s : State) (x : Status) : (s.setStatus x).tries = s.tries := rfl
@[simp] theorem State.setStatus_failed (s : State) (x : Status) : (s.setStatus x).failed = s.failed := rfl
@[simp] theorem State.setStatus_recovery (s : State) (x : Status) : (s.setStatus x).recovery = s.recovery := rfl
@[simp] theorem State.setStatus_stopped (s : State) (x : Status) : (s.setStatus x).stopped = s.stopped := rfl
@[simp] theorem State.setStatus_atBreak (s : State) (x : Status) : (s.setStatus x).atBreak = s.atBreak := rfl
@[simp] theorem State.setStatus_up (s : State) (x : Status) : (s.setStatus x).up = s.up := rfl
@[simp] theorem State.setStatus_firstStart (s : State) (x : Status) : (s.setStatus x).firstStart = s.firstStart := rfl
@[simp] theorem State.setStatus_fwRun (s : State) (x : Status) : (s.setStatus x).fwRun = s.fwRun := rfl
@[simp] theorem State.setStatus_fwNext (s : State) (x : Status) : (s.setStatus x).fwNext = s.fwNext := rfl
@[simp] theorem State.setStatus_clock (s : State) (x : Status) : (s.setStatus x).clock = s.clock := rfl
@[simp] theorem State.setStatus_health (s : State) (x : Status) : (s.setStatus x).health = s.health := rfl
@[simp] theorem State.setStatus_mailbox (s : State) (x : Status) : (s.setStatus x).mailbox = s.mailbox := rfl
@[simp] theorem State.setStatus_submitted (s : State) (x : Status) : (s.setStatus x).submitted = s.submitted := rfl

/-! ### hold -/

@[simp] theorem State.hold_cur (s : State) (x : Held) : (s.hold x).cur = s.cur := rfl
@[simp] theorem State.hold_others (s : State) (x : Held) : (s.hold x).others = s.others := rfl
@[simp] theorem State.hold_tiles (s : State) (x : Held) : (s.hold x).tiles = s.tiles := rfl
@[simp] theorem State.hold_cycle (s : State) (x : Held) : (s.hold x).cycle = s.cycle := rfl
@[simp] theorem State.hold_tick (s : State) (x : Held) : (s.hold x).tick = s.tick := rfl
@[simp] theorem State.hold_turn (s : State) (x : Held) : (s.hold x).turn = s.turn := rfl
@[simp] theorem State.hold_agenda (s : State) (x : Held) : (s.hold x).agenda = s.agenda := rfl
@[simp] theorem State.hold_gmem (s : State) (x : Held) : (s.hold x).gmem = s.gmem := rfl
@[simp] theorem State.hold_badLines (s : State) (x : Held) : (s.hold x).badLines = s.badLines := rfl
@[simp] theorem State.hold_qbase (s : State) (x : Held) : (s.hold x).qbase = s.qbase := rfl
@[simp] theorem State.hold_fbase (s : State) (x : Held) : (s.hold x).fbase = s.fbase := rfl
@[simp] theorem State.hold_leaves (s : State) (x : Held) : (s.hold x).leaves = s.leaves := rfl
@[simp] theorem State.hold_tables (s : State) (x : Held) : (s.hold x).tables = s.tables := rfl
@[simp] theorem State.hold_fading (s : State) (x : Held) : (s.hold x).fading = s.fading := rfl
@[simp] theorem State.hold_owned (s : State) (x : Held) : (s.hold x).owned = s.owned := rfl
@[simp] theorem State.hold_tenants (s : State) (x : Held) : (s.hold x).tenants = s.tenants := rfl
@[simp] theorem State.hold_vdevs (s : State) (x : Held) : (s.hold x).vdevs = s.vdevs := rfl
@[simp] theorem State.hold_pairs (s : State) (x : Held) : (s.hold x).pairs = s.pairs := rfl
@[simp] theorem State.hold_ports (s : State) (x : Held) : (s.hold x).ports = s.ports := rfl
@[simp] theorem State.hold_records (s : State) (x : Held) : (s.hold x).records = s.records := rfl
@[simp] theorem State.hold_launches (s : State) (x : Held) : (s.hold x).launches = s.launches := rfl
@[simp] theorem State.hold_gone (s : State) (x : Held) : (s.hold x).gone = s.gone := rfl
@[simp] theorem State.hold_launchCount (s : State) (x : Held) : (s.hold x).launchCount = s.launchCount := rfl
@[simp] theorem State.hold_walks (s : State) (x : Held) : (s.hold x).walks = s.walks := rfl
@[simp] theorem State.hold_walkCount (s : State) (x : Held) : (s.hold x).walkCount = s.walkCount := rfl
@[simp] theorem State.hold_disp (s : State) (x : Held) : (s.hold x).disp = s.disp := rfl
@[simp] theorem State.hold_seen (s : State) (x : Held) : (s.hold x).seen = s.seen := rfl
@[simp] theorem State.hold_finishing (s : State) (x : Held) : (s.hold x).finishing = s.finishing := rfl
@[simp] theorem State.hold_swapped (s : State) (x : Held) : (s.hold x).swapped = s.swapped := rfl
@[simp] theorem State.hold_dropped (s : State) (x : Held) : (s.hold x).dropped = s.dropped := rfl
@[simp] theorem State.hold_phase (s : State) (x : Held) : (s.hold x).phase = s.phase := rfl
@[simp] theorem State.hold_driv (s : State) (x : Held) : (s.hold x).driv = s.driv := rfl
@[simp] theorem State.hold_drthr (s : State) (x : Held) : (s.hold x).drthr = s.drthr := rfl
@[simp] theorem State.hold_drhold (s : State) (x : Held) : (s.hold x).drhold = s.drhold := rfl
@[simp] theorem State.hold_vacb (s : State) (x : Held) : (s.hold x).vacb = s.vacb := rfl
@[simp] theorem State.hold_lost (s : State) (x : Held) : (s.hold x).lost = s.lost := rfl
@[simp] theorem State.hold_saveN (s : State) (x : Held) : (s.hold x).saveN = s.saveN := rfl
@[simp] theorem State.hold_saveE (s : State) (x : Held) : (s.hold x).saveE = s.saveE := rfl
@[simp] theorem State.hold_switchN (s : State) (x : Held) : (s.hold x).switchN = s.switchN := rfl
@[simp] theorem State.hold_jobs (s : State) (x : Held) : (s.hold x).jobs = s.jobs := rfl
@[simp] theorem State.hold_protect (s : State) (x : Held) : (s.hold x).protect = s.protect := rfl
@[simp] theorem State.hold_held (s : State) (x : Held) : (s.hold x).held = s.held := rfl
@[simp] theorem State.hold_link (s : State) (x : Held) : (s.hold x).link = s.link := rfl
@[simp] theorem State.hold_signers (s : State) (x : Held) : (s.hold x).signers = s.signers := rfl
@[simp] theorem State.hold_restore (s : State) (x : Held) : (s.hold x).restore = s.restore := rfl
@[simp] theorem State.hold_service (s : State) (x : Held) : (s.hold x).service = s.service := rfl
@[simp] theorem State.hold_progress (s : State) (x : Held) : (s.hold x).progress = s.progress := rfl
@[simp] theorem State.hold_tries (s : State) (x : Held) : (s.hold x).tries = s.tries := rfl
@[simp] theorem State.hold_failed (s : State) (x : Held) : (s.hold x).failed = s.failed := rfl
@[simp] theorem State.hold_recovery (s : State) (x : Held) : (s.hold x).recovery = s.recovery := rfl
@[simp] theorem State.hold_stopped (s : State) (x : Held) : (s.hold x).stopped = s.stopped := rfl
@[simp] theorem State.hold_atBreak (s : State) (x : Held) : (s.hold x).atBreak = s.atBreak := rfl
@[simp] theorem State.hold_up (s : State) (x : Held) : (s.hold x).up = s.up := rfl
@[simp] theorem State.hold_firstStart (s : State) (x : Held) : (s.hold x).firstStart = s.firstStart := rfl
@[simp] theorem State.hold_fwRun (s : State) (x : Held) : (s.hold x).fwRun = s.fwRun := rfl
@[simp] theorem State.hold_fwNext (s : State) (x : Held) : (s.hold x).fwNext = s.fwNext := rfl
@[simp] theorem State.hold_clock (s : State) (x : Held) : (s.hold x).clock = s.clock := rfl
@[simp] theorem State.hold_health (s : State) (x : Held) : (s.hold x).health = s.health := rfl
@[simp] theorem State.hold_mailbox (s : State) (x : Held) : (s.hold x).mailbox = s.mailbox := rfl
@[simp] theorem State.hold_submitted (s : State) (x : Held) : (s.hold x).submitted = s.submitted := rfl

/-! ### advance -/

@[simp] theorem State.advance_cur (s : State) (x : Nat) : (s.advance x).cur = s.cur := rfl
@[simp] theorem State.advance_others (s : State) (x : Nat) : (s.advance x).others = s.others := rfl
@[simp] theorem State.advance_tiles (s : State) (x : Nat) : (s.advance x).tiles = s.tiles := rfl
@[simp] theorem State.advance_cycle (s : State) (x : Nat) : (s.advance x).cycle = s.cycle := rfl
@[simp] theorem State.advance_tick (s : State) (x : Nat) : (s.advance x).tick = s.tick := rfl
@[simp] theorem State.advance_turn (s : State) (x : Nat) : (s.advance x).turn = s.turn := rfl
@[simp] theorem State.advance_agenda (s : State) (x : Nat) : (s.advance x).agenda = s.agenda := rfl
@[simp] theorem State.advance_gmem (s : State) (x : Nat) : (s.advance x).gmem = s.gmem := rfl
@[simp] theorem State.advance_badLines (s : State) (x : Nat) : (s.advance x).badLines = s.badLines := rfl
@[simp] theorem State.advance_qbase (s : State) (x : Nat) : (s.advance x).qbase = s.qbase := rfl
@[simp] theorem State.advance_fbase (s : State) (x : Nat) : (s.advance x).fbase = s.fbase := rfl
@[simp] theorem State.advance_leaves (s : State) (x : Nat) : (s.advance x).leaves = s.leaves := rfl
@[simp] theorem State.advance_tables (s : State) (x : Nat) : (s.advance x).tables = s.tables := rfl
@[simp] theorem State.advance_fading (s : State) (x : Nat) : (s.advance x).fading = s.fading := rfl
@[simp] theorem State.advance_owned (s : State) (x : Nat) : (s.advance x).owned = s.owned := rfl
@[simp] theorem State.advance_tenants (s : State) (x : Nat) : (s.advance x).tenants = s.tenants := rfl
@[simp] theorem State.advance_vdevs (s : State) (x : Nat) : (s.advance x).vdevs = s.vdevs := rfl
@[simp] theorem State.advance_pairs (s : State) (x : Nat) : (s.advance x).pairs = s.pairs := rfl
@[simp] theorem State.advance_ports (s : State) (x : Nat) : (s.advance x).ports = s.ports := rfl
@[simp] theorem State.advance_records (s : State) (x : Nat) : (s.advance x).records = s.records := rfl
@[simp] theorem State.advance_launches (s : State) (x : Nat) : (s.advance x).launches = s.launches := rfl
@[simp] theorem State.advance_gone (s : State) (x : Nat) : (s.advance x).gone = s.gone := rfl
@[simp] theorem State.advance_launchCount (s : State) (x : Nat) : (s.advance x).launchCount = s.launchCount := rfl
@[simp] theorem State.advance_walks (s : State) (x : Nat) : (s.advance x).walks = s.walks := rfl
@[simp] theorem State.advance_walkCount (s : State) (x : Nat) : (s.advance x).walkCount = s.walkCount := rfl
@[simp] theorem State.advance_disp (s : State) (x : Nat) : (s.advance x).disp = s.disp := rfl
@[simp] theorem State.advance_seen (s : State) (x : Nat) : (s.advance x).seen = s.seen := rfl
@[simp] theorem State.advance_finishing (s : State) (x : Nat) : (s.advance x).finishing = s.finishing := rfl
@[simp] theorem State.advance_swapped (s : State) (x : Nat) : (s.advance x).swapped = s.swapped := rfl
@[simp] theorem State.advance_dropped (s : State) (x : Nat) : (s.advance x).dropped = s.dropped := rfl
@[simp] theorem State.advance_phase (s : State) (x : Nat) : (s.advance x).phase = s.phase := rfl
@[simp] theorem State.advance_driv (s : State) (x : Nat) : (s.advance x).driv = s.driv := rfl
@[simp] theorem State.advance_drthr (s : State) (x : Nat) : (s.advance x).drthr = s.drthr := rfl
@[simp] theorem State.advance_drhold (s : State) (x : Nat) : (s.advance x).drhold = s.drhold := rfl
@[simp] theorem State.advance_vacb (s : State) (x : Nat) : (s.advance x).vacb = s.vacb := rfl
@[simp] theorem State.advance_lost (s : State) (x : Nat) : (s.advance x).lost = s.lost := rfl
@[simp] theorem State.advance_saveN (s : State) (x : Nat) : (s.advance x).saveN = s.saveN := rfl
@[simp] theorem State.advance_saveE (s : State) (x : Nat) : (s.advance x).saveE = s.saveE := rfl
@[simp] theorem State.advance_switchN (s : State) (x : Nat) : (s.advance x).switchN = s.switchN := rfl
@[simp] theorem State.advance_jobs (s : State) (x : Nat) : (s.advance x).jobs = s.jobs := rfl
@[simp] theorem State.advance_protect (s : State) (x : Nat) : (s.advance x).protect = s.protect := rfl
@[simp] theorem State.advance_held (s : State) (x : Nat) : (s.advance x).held = s.held := rfl
@[simp] theorem State.advance_link (s : State) (x : Nat) : (s.advance x).link = s.link := rfl
@[simp] theorem State.advance_signers (s : State) (x : Nat) : (s.advance x).signers = s.signers := rfl
@[simp] theorem State.advance_restore (s : State) (x : Nat) : (s.advance x).restore = s.restore := rfl
@[simp] theorem State.advance_service (s : State) (x : Nat) : (s.advance x).service = s.service := rfl
@[simp] theorem State.advance_progress (s : State) (x : Nat) : (s.advance x).progress = s.progress := rfl
@[simp] theorem State.advance_tries (s : State) (x : Nat) : (s.advance x).tries = s.tries := rfl
@[simp] theorem State.advance_failed (s : State) (x : Nat) : (s.advance x).failed = s.failed := rfl
@[simp] theorem State.advance_recovery (s : State) (x : Nat) : (s.advance x).recovery = s.recovery := rfl
@[simp] theorem State.advance_stopped (s : State) (x : Nat) : (s.advance x).stopped = s.stopped := rfl
@[simp] theorem State.advance_atBreak (s : State) (x : Nat) : (s.advance x).atBreak = s.atBreak := rfl
@[simp] theorem State.advance_up (s : State) (x : Nat) : (s.advance x).up = s.up := rfl
@[simp] theorem State.advance_firstStart (s : State) (x : Nat) : (s.advance x).firstStart = s.firstStart := rfl
@[simp] theorem State.advance_fwRun (s : State) (x : Nat) : (s.advance x).fwRun = s.fwRun := rfl
@[simp] theorem State.advance_fwNext (s : State) (x : Nat) : (s.advance x).fwNext = s.fwNext := rfl
@[simp] theorem State.advance_clock (s : State) (x : Nat) : (s.advance x).clock = s.clock := rfl
@[simp] theorem State.advance_health (s : State) (x : Nat) : (s.advance x).health = s.health := rfl
@[simp] theorem State.advance_mailbox (s : State) (x : Nat) : (s.advance x).mailbox = s.mailbox := rfl
@[simp] theorem State.advance_submitted (s : State) (x : Nat) : (s.advance x).submitted = s.submitted := rfl

/-! ### flag -/

@[simp] theorem State.flag_cur (s : State) (x : BitVec 5) : (s.flag x).cur = s.cur := rfl
@[simp] theorem State.flag_others (s : State) (x : BitVec 5) : (s.flag x).others = s.others := rfl
@[simp] theorem State.flag_tiles (s : State) (x : BitVec 5) : (s.flag x).tiles = s.tiles := rfl
@[simp] theorem State.flag_cycle (s : State) (x : BitVec 5) : (s.flag x).cycle = s.cycle := rfl
@[simp] theorem State.flag_tick (s : State) (x : BitVec 5) : (s.flag x).tick = s.tick := rfl
@[simp] theorem State.flag_turn (s : State) (x : BitVec 5) : (s.flag x).turn = s.turn := rfl
@[simp] theorem State.flag_agenda (s : State) (x : BitVec 5) : (s.flag x).agenda = s.agenda := rfl
@[simp] theorem State.flag_gmem (s : State) (x : BitVec 5) : (s.flag x).gmem = s.gmem := rfl
@[simp] theorem State.flag_badLines (s : State) (x : BitVec 5) : (s.flag x).badLines = s.badLines := rfl
@[simp] theorem State.flag_qbase (s : State) (x : BitVec 5) : (s.flag x).qbase = s.qbase := rfl
@[simp] theorem State.flag_fbase (s : State) (x : BitVec 5) : (s.flag x).fbase = s.fbase := rfl
@[simp] theorem State.flag_leaves (s : State) (x : BitVec 5) : (s.flag x).leaves = s.leaves := rfl
@[simp] theorem State.flag_tables (s : State) (x : BitVec 5) : (s.flag x).tables = s.tables := rfl
@[simp] theorem State.flag_fading (s : State) (x : BitVec 5) : (s.flag x).fading = s.fading := rfl
@[simp] theorem State.flag_owned (s : State) (x : BitVec 5) : (s.flag x).owned = s.owned := rfl
@[simp] theorem State.flag_tenants (s : State) (x : BitVec 5) : (s.flag x).tenants = s.tenants := rfl
@[simp] theorem State.flag_vdevs (s : State) (x : BitVec 5) : (s.flag x).vdevs = s.vdevs := rfl
@[simp] theorem State.flag_pairs (s : State) (x : BitVec 5) : (s.flag x).pairs = s.pairs := rfl
@[simp] theorem State.flag_ports (s : State) (x : BitVec 5) : (s.flag x).ports = s.ports := rfl
@[simp] theorem State.flag_records (s : State) (x : BitVec 5) : (s.flag x).records = s.records := rfl
@[simp] theorem State.flag_launches (s : State) (x : BitVec 5) : (s.flag x).launches = s.launches := rfl
@[simp] theorem State.flag_gone (s : State) (x : BitVec 5) : (s.flag x).gone = s.gone := rfl
@[simp] theorem State.flag_launchCount (s : State) (x : BitVec 5) : (s.flag x).launchCount = s.launchCount := rfl
@[simp] theorem State.flag_walks (s : State) (x : BitVec 5) : (s.flag x).walks = s.walks := rfl
@[simp] theorem State.flag_walkCount (s : State) (x : BitVec 5) : (s.flag x).walkCount = s.walkCount := rfl
@[simp] theorem State.flag_disp (s : State) (x : BitVec 5) : (s.flag x).disp = s.disp := rfl
@[simp] theorem State.flag_seen (s : State) (x : BitVec 5) : (s.flag x).seen = s.seen := rfl
@[simp] theorem State.flag_finishing (s : State) (x : BitVec 5) : (s.flag x).finishing = s.finishing := rfl
@[simp] theorem State.flag_swapped (s : State) (x : BitVec 5) : (s.flag x).swapped = s.swapped := rfl
@[simp] theorem State.flag_dropped (s : State) (x : BitVec 5) : (s.flag x).dropped = s.dropped := rfl
@[simp] theorem State.flag_phase (s : State) (x : BitVec 5) : (s.flag x).phase = s.phase := rfl
@[simp] theorem State.flag_driv (s : State) (x : BitVec 5) : (s.flag x).driv = s.driv := rfl
@[simp] theorem State.flag_drthr (s : State) (x : BitVec 5) : (s.flag x).drthr = s.drthr := rfl
@[simp] theorem State.flag_drhold (s : State) (x : BitVec 5) : (s.flag x).drhold = s.drhold := rfl
@[simp] theorem State.flag_vacb (s : State) (x : BitVec 5) : (s.flag x).vacb = s.vacb := rfl
@[simp] theorem State.flag_lost (s : State) (x : BitVec 5) : (s.flag x).lost = s.lost := rfl
@[simp] theorem State.flag_saveN (s : State) (x : BitVec 5) : (s.flag x).saveN = s.saveN := rfl
@[simp] theorem State.flag_saveE (s : State) (x : BitVec 5) : (s.flag x).saveE = s.saveE := rfl
@[simp] theorem State.flag_switchN (s : State) (x : BitVec 5) : (s.flag x).switchN = s.switchN := rfl
@[simp] theorem State.flag_jobs (s : State) (x : BitVec 5) : (s.flag x).jobs = s.jobs := rfl
@[simp] theorem State.flag_protect (s : State) (x : BitVec 5) : (s.flag x).protect = s.protect := rfl
@[simp] theorem State.flag_held (s : State) (x : BitVec 5) : (s.flag x).held = s.held := rfl
@[simp] theorem State.flag_link (s : State) (x : BitVec 5) : (s.flag x).link = s.link := rfl
@[simp] theorem State.flag_signers (s : State) (x : BitVec 5) : (s.flag x).signers = s.signers := rfl
@[simp] theorem State.flag_restore (s : State) (x : BitVec 5) : (s.flag x).restore = s.restore := rfl
@[simp] theorem State.flag_service (s : State) (x : BitVec 5) : (s.flag x).service = s.service := rfl
@[simp] theorem State.flag_progress (s : State) (x : BitVec 5) : (s.flag x).progress = s.progress := rfl
@[simp] theorem State.flag_tries (s : State) (x : BitVec 5) : (s.flag x).tries = s.tries := rfl
@[simp] theorem State.flag_failed (s : State) (x : BitVec 5) : (s.flag x).failed = s.failed := rfl
@[simp] theorem State.flag_recovery (s : State) (x : BitVec 5) : (s.flag x).recovery = s.recovery := rfl
@[simp] theorem State.flag_stopped (s : State) (x : BitVec 5) : (s.flag x).stopped = s.stopped := rfl
@[simp] theorem State.flag_atBreak (s : State) (x : BitVec 5) : (s.flag x).atBreak = s.atBreak := rfl
@[simp] theorem State.flag_up (s : State) (x : BitVec 5) : (s.flag x).up = s.up := rfl
@[simp] theorem State.flag_firstStart (s : State) (x : BitVec 5) : (s.flag x).firstStart = s.firstStart := rfl
@[simp] theorem State.flag_fwRun (s : State) (x : BitVec 5) : (s.flag x).fwRun = s.fwRun := rfl
@[simp] theorem State.flag_fwNext (s : State) (x : BitVec 5) : (s.flag x).fwNext = s.fwNext := rfl
@[simp] theorem State.flag_clock (s : State) (x : BitVec 5) : (s.flag x).clock = s.clock := rfl
@[simp] theorem State.flag_health (s : State) (x : BitVec 5) : (s.flag x).health = s.health := rfl
@[simp] theorem State.flag_mailbox (s : State) (x : BitVec 5) : (s.flag x).mailbox = s.mailbox := rfl
@[simp] theorem State.flag_submitted (s : State) (x : BitVec 5) : (s.flag x).submitted = s.submitted := rfl

/-! ### counted -/

@[simp] theorem State.counted_cur (s : State) : (s.counted).cur = s.cur := rfl
@[simp] theorem State.counted_others (s : State) : (s.counted).others = s.others := rfl
@[simp] theorem State.counted_tiles (s : State) : (s.counted).tiles = s.tiles := rfl
@[simp] theorem State.counted_cycle (s : State) : (s.counted).cycle = s.cycle := rfl
@[simp] theorem State.counted_tick (s : State) : (s.counted).tick = s.tick := rfl
@[simp] theorem State.counted_turn (s : State) : (s.counted).turn = s.turn := rfl
@[simp] theorem State.counted_agenda (s : State) : (s.counted).agenda = s.agenda := rfl
@[simp] theorem State.counted_gmem (s : State) : (s.counted).gmem = s.gmem := rfl
@[simp] theorem State.counted_badLines (s : State) : (s.counted).badLines = s.badLines := rfl
@[simp] theorem State.counted_qbase (s : State) : (s.counted).qbase = s.qbase := rfl
@[simp] theorem State.counted_fbase (s : State) : (s.counted).fbase = s.fbase := rfl
@[simp] theorem State.counted_leaves (s : State) : (s.counted).leaves = s.leaves := rfl
@[simp] theorem State.counted_tables (s : State) : (s.counted).tables = s.tables := rfl
@[simp] theorem State.counted_fading (s : State) : (s.counted).fading = s.fading := rfl
@[simp] theorem State.counted_owned (s : State) : (s.counted).owned = s.owned := rfl
@[simp] theorem State.counted_tenants (s : State) : (s.counted).tenants = s.tenants := rfl
@[simp] theorem State.counted_vdevs (s : State) : (s.counted).vdevs = s.vdevs := rfl
@[simp] theorem State.counted_pairs (s : State) : (s.counted).pairs = s.pairs := rfl
@[simp] theorem State.counted_ports (s : State) : (s.counted).ports = s.ports := rfl
@[simp] theorem State.counted_records (s : State) : (s.counted).records = s.records := rfl
@[simp] theorem State.counted_launches (s : State) : (s.counted).launches = s.launches := rfl
@[simp] theorem State.counted_gone (s : State) : (s.counted).gone = s.gone := rfl
@[simp] theorem State.counted_launchCount (s : State) : (s.counted).launchCount = s.launchCount := rfl
@[simp] theorem State.counted_walks (s : State) : (s.counted).walks = s.walks := rfl
@[simp] theorem State.counted_walkCount (s : State) : (s.counted).walkCount = s.walkCount := rfl
@[simp] theorem State.counted_disp (s : State) : (s.counted).disp = s.disp := rfl
@[simp] theorem State.counted_seen (s : State) : (s.counted).seen = s.seen := rfl
@[simp] theorem State.counted_finishing (s : State) : (s.counted).finishing = s.finishing := rfl
@[simp] theorem State.counted_swapped (s : State) : (s.counted).swapped = s.swapped := rfl
@[simp] theorem State.counted_dropped (s : State) : (s.counted).dropped = s.dropped := rfl
@[simp] theorem State.counted_phase (s : State) : (s.counted).phase = s.phase := rfl
@[simp] theorem State.counted_driv (s : State) : (s.counted).driv = s.driv := rfl
@[simp] theorem State.counted_drthr (s : State) : (s.counted).drthr = s.drthr := rfl
@[simp] theorem State.counted_drhold (s : State) : (s.counted).drhold = s.drhold := rfl
@[simp] theorem State.counted_vacb (s : State) : (s.counted).vacb = s.vacb := rfl
@[simp] theorem State.counted_lost (s : State) : (s.counted).lost = s.lost := rfl
@[simp] theorem State.counted_saveN (s : State) : (s.counted).saveN = s.saveN := rfl
@[simp] theorem State.counted_saveE (s : State) : (s.counted).saveE = s.saveE := rfl
@[simp] theorem State.counted_switchN (s : State) : (s.counted).switchN = s.switchN := rfl
@[simp] theorem State.counted_jobs (s : State) : (s.counted).jobs = s.jobs := rfl
@[simp] theorem State.counted_protect (s : State) : (s.counted).protect = s.protect := rfl
@[simp] theorem State.counted_held (s : State) : (s.counted).held = s.held := rfl
@[simp] theorem State.counted_link (s : State) : (s.counted).link = s.link := rfl
@[simp] theorem State.counted_signers (s : State) : (s.counted).signers = s.signers := rfl
@[simp] theorem State.counted_restore (s : State) : (s.counted).restore = s.restore := rfl
@[simp] theorem State.counted_service (s : State) : (s.counted).service = s.service := rfl
@[simp] theorem State.counted_progress (s : State) : (s.counted).progress = s.progress := rfl
@[simp] theorem State.counted_tries (s : State) : (s.counted).tries = s.tries := rfl
@[simp] theorem State.counted_failed (s : State) : (s.counted).failed = s.failed := rfl
@[simp] theorem State.counted_recovery (s : State) : (s.counted).recovery = s.recovery := rfl
@[simp] theorem State.counted_stopped (s : State) : (s.counted).stopped = s.stopped := rfl
@[simp] theorem State.counted_atBreak (s : State) : (s.counted).atBreak = s.atBreak := rfl
@[simp] theorem State.counted_up (s : State) : (s.counted).up = s.up := rfl
@[simp] theorem State.counted_firstStart (s : State) : (s.counted).firstStart = s.firstStart := rfl
@[simp] theorem State.counted_fwRun (s : State) : (s.counted).fwRun = s.fwRun := rfl
@[simp] theorem State.counted_fwNext (s : State) : (s.counted).fwNext = s.fwNext := rfl
@[simp] theorem State.counted_clock (s : State) : (s.counted).clock = s.clock := rfl
@[simp] theorem State.counted_health (s : State) : (s.counted).health = s.health := rfl
@[simp] theorem State.counted_mailbox (s : State) : (s.counted).mailbox = s.mailbox := rfl
@[simp] theorem State.counted_submitted (s : State) : (s.counted).submitted = s.submitted := rfl

/-! ### setS -/

@[simp] theorem State.setS_cur (s : State) (i : Reg) (v : Word) : (s.setS i v).cur = s.cur := rfl
@[simp] theorem State.setS_others (s : State) (i : Reg) (v : Word) : (s.setS i v).others = s.others := rfl
@[simp] theorem State.setS_tiles (s : State) (i : Reg) (v : Word) : (s.setS i v).tiles = s.tiles := rfl
@[simp] theorem State.setS_cycle (s : State) (i : Reg) (v : Word) : (s.setS i v).cycle = s.cycle := rfl
@[simp] theorem State.setS_tick (s : State) (i : Reg) (v : Word) : (s.setS i v).tick = s.tick := rfl
@[simp] theorem State.setS_turn (s : State) (i : Reg) (v : Word) : (s.setS i v).turn = s.turn := rfl
@[simp] theorem State.setS_agenda (s : State) (i : Reg) (v : Word) : (s.setS i v).agenda = s.agenda := rfl
@[simp] theorem State.setS_gmem (s : State) (i : Reg) (v : Word) : (s.setS i v).gmem = s.gmem := rfl
@[simp] theorem State.setS_badLines (s : State) (i : Reg) (v : Word) : (s.setS i v).badLines = s.badLines := rfl
@[simp] theorem State.setS_qbase (s : State) (i : Reg) (v : Word) : (s.setS i v).qbase = s.qbase := rfl
@[simp] theorem State.setS_fbase (s : State) (i : Reg) (v : Word) : (s.setS i v).fbase = s.fbase := rfl
@[simp] theorem State.setS_leaves (s : State) (i : Reg) (v : Word) : (s.setS i v).leaves = s.leaves := rfl
@[simp] theorem State.setS_tables (s : State) (i : Reg) (v : Word) : (s.setS i v).tables = s.tables := rfl
@[simp] theorem State.setS_fading (s : State) (i : Reg) (v : Word) : (s.setS i v).fading = s.fading := rfl
@[simp] theorem State.setS_owned (s : State) (i : Reg) (v : Word) : (s.setS i v).owned = s.owned := rfl
@[simp] theorem State.setS_tenants (s : State) (i : Reg) (v : Word) : (s.setS i v).tenants = s.tenants := rfl
@[simp] theorem State.setS_vdevs (s : State) (i : Reg) (v : Word) : (s.setS i v).vdevs = s.vdevs := rfl
@[simp] theorem State.setS_pairs (s : State) (i : Reg) (v : Word) : (s.setS i v).pairs = s.pairs := rfl
@[simp] theorem State.setS_ports (s : State) (i : Reg) (v : Word) : (s.setS i v).ports = s.ports := rfl
@[simp] theorem State.setS_records (s : State) (i : Reg) (v : Word) : (s.setS i v).records = s.records := rfl
@[simp] theorem State.setS_launches (s : State) (i : Reg) (v : Word) : (s.setS i v).launches = s.launches := rfl
@[simp] theorem State.setS_gone (s : State) (i : Reg) (v : Word) : (s.setS i v).gone = s.gone := rfl
@[simp] theorem State.setS_launchCount (s : State) (i : Reg) (v : Word) : (s.setS i v).launchCount = s.launchCount := rfl
@[simp] theorem State.setS_walks (s : State) (i : Reg) (v : Word) : (s.setS i v).walks = s.walks := rfl
@[simp] theorem State.setS_walkCount (s : State) (i : Reg) (v : Word) : (s.setS i v).walkCount = s.walkCount := rfl
@[simp] theorem State.setS_disp (s : State) (i : Reg) (v : Word) : (s.setS i v).disp = s.disp := rfl
@[simp] theorem State.setS_seen (s : State) (i : Reg) (v : Word) : (s.setS i v).seen = s.seen := rfl
@[simp] theorem State.setS_finishing (s : State) (i : Reg) (v : Word) : (s.setS i v).finishing = s.finishing := rfl
@[simp] theorem State.setS_swapped (s : State) (i : Reg) (v : Word) : (s.setS i v).swapped = s.swapped := rfl
@[simp] theorem State.setS_dropped (s : State) (i : Reg) (v : Word) : (s.setS i v).dropped = s.dropped := rfl
@[simp] theorem State.setS_phase (s : State) (i : Reg) (v : Word) : (s.setS i v).phase = s.phase := rfl
@[simp] theorem State.setS_driv (s : State) (i : Reg) (v : Word) : (s.setS i v).driv = s.driv := rfl
@[simp] theorem State.setS_drthr (s : State) (i : Reg) (v : Word) : (s.setS i v).drthr = s.drthr := rfl
@[simp] theorem State.setS_drhold (s : State) (i : Reg) (v : Word) : (s.setS i v).drhold = s.drhold := rfl
@[simp] theorem State.setS_vacb (s : State) (i : Reg) (v : Word) : (s.setS i v).vacb = s.vacb := rfl
@[simp] theorem State.setS_lost (s : State) (i : Reg) (v : Word) : (s.setS i v).lost = s.lost := rfl
@[simp] theorem State.setS_saveN (s : State) (i : Reg) (v : Word) : (s.setS i v).saveN = s.saveN := rfl
@[simp] theorem State.setS_saveE (s : State) (i : Reg) (v : Word) : (s.setS i v).saveE = s.saveE := rfl
@[simp] theorem State.setS_switchN (s : State) (i : Reg) (v : Word) : (s.setS i v).switchN = s.switchN := rfl
@[simp] theorem State.setS_jobs (s : State) (i : Reg) (v : Word) : (s.setS i v).jobs = s.jobs := rfl
@[simp] theorem State.setS_protect (s : State) (i : Reg) (v : Word) : (s.setS i v).protect = s.protect := rfl
@[simp] theorem State.setS_held (s : State) (i : Reg) (v : Word) : (s.setS i v).held = s.held := rfl
@[simp] theorem State.setS_link (s : State) (i : Reg) (v : Word) : (s.setS i v).link = s.link := rfl
@[simp] theorem State.setS_signers (s : State) (i : Reg) (v : Word) : (s.setS i v).signers = s.signers := rfl
@[simp] theorem State.setS_restore (s : State) (i : Reg) (v : Word) : (s.setS i v).restore = s.restore := rfl
@[simp] theorem State.setS_service (s : State) (i : Reg) (v : Word) : (s.setS i v).service = s.service := rfl
@[simp] theorem State.setS_progress (s : State) (i : Reg) (v : Word) : (s.setS i v).progress = s.progress := rfl
@[simp] theorem State.setS_tries (s : State) (i : Reg) (v : Word) : (s.setS i v).tries = s.tries := rfl
@[simp] theorem State.setS_failed (s : State) (i : Reg) (v : Word) : (s.setS i v).failed = s.failed := rfl
@[simp] theorem State.setS_recovery (s : State) (i : Reg) (v : Word) : (s.setS i v).recovery = s.recovery := rfl
@[simp] theorem State.setS_stopped (s : State) (i : Reg) (v : Word) : (s.setS i v).stopped = s.stopped := rfl
@[simp] theorem State.setS_atBreak (s : State) (i : Reg) (v : Word) : (s.setS i v).atBreak = s.atBreak := rfl
@[simp] theorem State.setS_up (s : State) (i : Reg) (v : Word) : (s.setS i v).up = s.up := rfl
@[simp] theorem State.setS_firstStart (s : State) (i : Reg) (v : Word) : (s.setS i v).firstStart = s.firstStart := rfl
@[simp] theorem State.setS_fwRun (s : State) (i : Reg) (v : Word) : (s.setS i v).fwRun = s.fwRun := rfl
@[simp] theorem State.setS_fwNext (s : State) (i : Reg) (v : Word) : (s.setS i v).fwNext = s.fwNext := rfl
@[simp] theorem State.setS_clock (s : State) (i : Reg) (v : Word) : (s.setS i v).clock = s.clock := rfl
@[simp] theorem State.setS_health (s : State) (i : Reg) (v : Word) : (s.setS i v).health = s.health := rfl
@[simp] theorem State.setS_mailbox (s : State) (i : Reg) (v : Word) : (s.setS i v).mailbox = s.mailbox := rfl
@[simp] theorem State.setS_submitted (s : State) (i : Reg) (v : Word) : (s.setS i v).submitted = s.submitted := rfl

/-! ### setD -/

@[simp] theorem State.setD_cur (s : State) (i : Pair) (v : DWord) : (s.setD i v).cur = s.cur := rfl
@[simp] theorem State.setD_others (s : State) (i : Pair) (v : DWord) : (s.setD i v).others = s.others := rfl
@[simp] theorem State.setD_tiles (s : State) (i : Pair) (v : DWord) : (s.setD i v).tiles = s.tiles := rfl
@[simp] theorem State.setD_cycle (s : State) (i : Pair) (v : DWord) : (s.setD i v).cycle = s.cycle := rfl
@[simp] theorem State.setD_tick (s : State) (i : Pair) (v : DWord) : (s.setD i v).tick = s.tick := rfl
@[simp] theorem State.setD_turn (s : State) (i : Pair) (v : DWord) : (s.setD i v).turn = s.turn := rfl
@[simp] theorem State.setD_agenda (s : State) (i : Pair) (v : DWord) : (s.setD i v).agenda = s.agenda := rfl
@[simp] theorem State.setD_gmem (s : State) (i : Pair) (v : DWord) : (s.setD i v).gmem = s.gmem := rfl
@[simp] theorem State.setD_badLines (s : State) (i : Pair) (v : DWord) : (s.setD i v).badLines = s.badLines := rfl
@[simp] theorem State.setD_qbase (s : State) (i : Pair) (v : DWord) : (s.setD i v).qbase = s.qbase := rfl
@[simp] theorem State.setD_fbase (s : State) (i : Pair) (v : DWord) : (s.setD i v).fbase = s.fbase := rfl
@[simp] theorem State.setD_leaves (s : State) (i : Pair) (v : DWord) : (s.setD i v).leaves = s.leaves := rfl
@[simp] theorem State.setD_tables (s : State) (i : Pair) (v : DWord) : (s.setD i v).tables = s.tables := rfl
@[simp] theorem State.setD_fading (s : State) (i : Pair) (v : DWord) : (s.setD i v).fading = s.fading := rfl
@[simp] theorem State.setD_owned (s : State) (i : Pair) (v : DWord) : (s.setD i v).owned = s.owned := rfl
@[simp] theorem State.setD_tenants (s : State) (i : Pair) (v : DWord) : (s.setD i v).tenants = s.tenants := rfl
@[simp] theorem State.setD_vdevs (s : State) (i : Pair) (v : DWord) : (s.setD i v).vdevs = s.vdevs := rfl
@[simp] theorem State.setD_pairs (s : State) (i : Pair) (v : DWord) : (s.setD i v).pairs = s.pairs := rfl
@[simp] theorem State.setD_ports (s : State) (i : Pair) (v : DWord) : (s.setD i v).ports = s.ports := rfl
@[simp] theorem State.setD_records (s : State) (i : Pair) (v : DWord) : (s.setD i v).records = s.records := rfl
@[simp] theorem State.setD_launches (s : State) (i : Pair) (v : DWord) : (s.setD i v).launches = s.launches := rfl
@[simp] theorem State.setD_gone (s : State) (i : Pair) (v : DWord) : (s.setD i v).gone = s.gone := rfl
@[simp] theorem State.setD_launchCount (s : State) (i : Pair) (v : DWord) : (s.setD i v).launchCount = s.launchCount := rfl
@[simp] theorem State.setD_walks (s : State) (i : Pair) (v : DWord) : (s.setD i v).walks = s.walks := rfl
@[simp] theorem State.setD_walkCount (s : State) (i : Pair) (v : DWord) : (s.setD i v).walkCount = s.walkCount := rfl
@[simp] theorem State.setD_disp (s : State) (i : Pair) (v : DWord) : (s.setD i v).disp = s.disp := rfl
@[simp] theorem State.setD_seen (s : State) (i : Pair) (v : DWord) : (s.setD i v).seen = s.seen := rfl
@[simp] theorem State.setD_finishing (s : State) (i : Pair) (v : DWord) : (s.setD i v).finishing = s.finishing := rfl
@[simp] theorem State.setD_swapped (s : State) (i : Pair) (v : DWord) : (s.setD i v).swapped = s.swapped := rfl
@[simp] theorem State.setD_dropped (s : State) (i : Pair) (v : DWord) : (s.setD i v).dropped = s.dropped := rfl
@[simp] theorem State.setD_phase (s : State) (i : Pair) (v : DWord) : (s.setD i v).phase = s.phase := rfl
@[simp] theorem State.setD_driv (s : State) (i : Pair) (v : DWord) : (s.setD i v).driv = s.driv := rfl
@[simp] theorem State.setD_drthr (s : State) (i : Pair) (v : DWord) : (s.setD i v).drthr = s.drthr := rfl
@[simp] theorem State.setD_drhold (s : State) (i : Pair) (v : DWord) : (s.setD i v).drhold = s.drhold := rfl
@[simp] theorem State.setD_vacb (s : State) (i : Pair) (v : DWord) : (s.setD i v).vacb = s.vacb := rfl
@[simp] theorem State.setD_lost (s : State) (i : Pair) (v : DWord) : (s.setD i v).lost = s.lost := rfl
@[simp] theorem State.setD_saveN (s : State) (i : Pair) (v : DWord) : (s.setD i v).saveN = s.saveN := rfl
@[simp] theorem State.setD_saveE (s : State) (i : Pair) (v : DWord) : (s.setD i v).saveE = s.saveE := rfl
@[simp] theorem State.setD_switchN (s : State) (i : Pair) (v : DWord) : (s.setD i v).switchN = s.switchN := rfl
@[simp] theorem State.setD_jobs (s : State) (i : Pair) (v : DWord) : (s.setD i v).jobs = s.jobs := rfl
@[simp] theorem State.setD_protect (s : State) (i : Pair) (v : DWord) : (s.setD i v).protect = s.protect := rfl
@[simp] theorem State.setD_held (s : State) (i : Pair) (v : DWord) : (s.setD i v).held = s.held := rfl
@[simp] theorem State.setD_link (s : State) (i : Pair) (v : DWord) : (s.setD i v).link = s.link := rfl
@[simp] theorem State.setD_signers (s : State) (i : Pair) (v : DWord) : (s.setD i v).signers = s.signers := rfl
@[simp] theorem State.setD_restore (s : State) (i : Pair) (v : DWord) : (s.setD i v).restore = s.restore := rfl
@[simp] theorem State.setD_service (s : State) (i : Pair) (v : DWord) : (s.setD i v).service = s.service := rfl
@[simp] theorem State.setD_progress (s : State) (i : Pair) (v : DWord) : (s.setD i v).progress = s.progress := rfl
@[simp] theorem State.setD_tries (s : State) (i : Pair) (v : DWord) : (s.setD i v).tries = s.tries := rfl
@[simp] theorem State.setD_failed (s : State) (i : Pair) (v : DWord) : (s.setD i v).failed = s.failed := rfl
@[simp] theorem State.setD_recovery (s : State) (i : Pair) (v : DWord) : (s.setD i v).recovery = s.recovery := rfl
@[simp] theorem State.setD_stopped (s : State) (i : Pair) (v : DWord) : (s.setD i v).stopped = s.stopped := rfl
@[simp] theorem State.setD_atBreak (s : State) (i : Pair) (v : DWord) : (s.setD i v).atBreak = s.atBreak := rfl
@[simp] theorem State.setD_up (s : State) (i : Pair) (v : DWord) : (s.setD i v).up = s.up := rfl
@[simp] theorem State.setD_firstStart (s : State) (i : Pair) (v : DWord) : (s.setD i v).firstStart = s.firstStart := rfl
@[simp] theorem State.setD_fwRun (s : State) (i : Pair) (v : DWord) : (s.setD i v).fwRun = s.fwRun := rfl
@[simp] theorem State.setD_fwNext (s : State) (i : Pair) (v : DWord) : (s.setD i v).fwNext = s.fwNext := rfl
@[simp] theorem State.setD_clock (s : State) (i : Pair) (v : DWord) : (s.setD i v).clock = s.clock := rfl
@[simp] theorem State.setD_health (s : State) (i : Pair) (v : DWord) : (s.setD i v).health = s.health := rfl
@[simp] theorem State.setD_mailbox (s : State) (i : Pair) (v : DWord) : (s.setD i v).mailbox = s.mailbox := rfl
@[simp] theorem State.setD_submitted (s : State) (i : Pair) (v : DWord) : (s.setD i v).submitted = s.submitted := rfl

/-! ### setM -/

@[simp] theorem State.setM_cur (s : State) (i : MReg) (v : DWord) : (s.setM i v).cur = s.cur := rfl
@[simp] theorem State.setM_others (s : State) (i : MReg) (v : DWord) : (s.setM i v).others = s.others := rfl
@[simp] theorem State.setM_tiles (s : State) (i : MReg) (v : DWord) : (s.setM i v).tiles = s.tiles := rfl
@[simp] theorem State.setM_cycle (s : State) (i : MReg) (v : DWord) : (s.setM i v).cycle = s.cycle := rfl
@[simp] theorem State.setM_tick (s : State) (i : MReg) (v : DWord) : (s.setM i v).tick = s.tick := rfl
@[simp] theorem State.setM_turn (s : State) (i : MReg) (v : DWord) : (s.setM i v).turn = s.turn := rfl
@[simp] theorem State.setM_agenda (s : State) (i : MReg) (v : DWord) : (s.setM i v).agenda = s.agenda := rfl
@[simp] theorem State.setM_gmem (s : State) (i : MReg) (v : DWord) : (s.setM i v).gmem = s.gmem := rfl
@[simp] theorem State.setM_badLines (s : State) (i : MReg) (v : DWord) : (s.setM i v).badLines = s.badLines := rfl
@[simp] theorem State.setM_qbase (s : State) (i : MReg) (v : DWord) : (s.setM i v).qbase = s.qbase := rfl
@[simp] theorem State.setM_fbase (s : State) (i : MReg) (v : DWord) : (s.setM i v).fbase = s.fbase := rfl
@[simp] theorem State.setM_leaves (s : State) (i : MReg) (v : DWord) : (s.setM i v).leaves = s.leaves := rfl
@[simp] theorem State.setM_tables (s : State) (i : MReg) (v : DWord) : (s.setM i v).tables = s.tables := rfl
@[simp] theorem State.setM_fading (s : State) (i : MReg) (v : DWord) : (s.setM i v).fading = s.fading := rfl
@[simp] theorem State.setM_owned (s : State) (i : MReg) (v : DWord) : (s.setM i v).owned = s.owned := rfl
@[simp] theorem State.setM_tenants (s : State) (i : MReg) (v : DWord) : (s.setM i v).tenants = s.tenants := rfl
@[simp] theorem State.setM_vdevs (s : State) (i : MReg) (v : DWord) : (s.setM i v).vdevs = s.vdevs := rfl
@[simp] theorem State.setM_pairs (s : State) (i : MReg) (v : DWord) : (s.setM i v).pairs = s.pairs := rfl
@[simp] theorem State.setM_ports (s : State) (i : MReg) (v : DWord) : (s.setM i v).ports = s.ports := rfl
@[simp] theorem State.setM_records (s : State) (i : MReg) (v : DWord) : (s.setM i v).records = s.records := rfl
@[simp] theorem State.setM_launches (s : State) (i : MReg) (v : DWord) : (s.setM i v).launches = s.launches := rfl
@[simp] theorem State.setM_gone (s : State) (i : MReg) (v : DWord) : (s.setM i v).gone = s.gone := rfl
@[simp] theorem State.setM_launchCount (s : State) (i : MReg) (v : DWord) : (s.setM i v).launchCount = s.launchCount := rfl
@[simp] theorem State.setM_walks (s : State) (i : MReg) (v : DWord) : (s.setM i v).walks = s.walks := rfl
@[simp] theorem State.setM_walkCount (s : State) (i : MReg) (v : DWord) : (s.setM i v).walkCount = s.walkCount := rfl
@[simp] theorem State.setM_disp (s : State) (i : MReg) (v : DWord) : (s.setM i v).disp = s.disp := rfl
@[simp] theorem State.setM_seen (s : State) (i : MReg) (v : DWord) : (s.setM i v).seen = s.seen := rfl
@[simp] theorem State.setM_finishing (s : State) (i : MReg) (v : DWord) : (s.setM i v).finishing = s.finishing := rfl
@[simp] theorem State.setM_swapped (s : State) (i : MReg) (v : DWord) : (s.setM i v).swapped = s.swapped := rfl
@[simp] theorem State.setM_dropped (s : State) (i : MReg) (v : DWord) : (s.setM i v).dropped = s.dropped := rfl
@[simp] theorem State.setM_phase (s : State) (i : MReg) (v : DWord) : (s.setM i v).phase = s.phase := rfl
@[simp] theorem State.setM_driv (s : State) (i : MReg) (v : DWord) : (s.setM i v).driv = s.driv := rfl
@[simp] theorem State.setM_drthr (s : State) (i : MReg) (v : DWord) : (s.setM i v).drthr = s.drthr := rfl
@[simp] theorem State.setM_drhold (s : State) (i : MReg) (v : DWord) : (s.setM i v).drhold = s.drhold := rfl
@[simp] theorem State.setM_vacb (s : State) (i : MReg) (v : DWord) : (s.setM i v).vacb = s.vacb := rfl
@[simp] theorem State.setM_lost (s : State) (i : MReg) (v : DWord) : (s.setM i v).lost = s.lost := rfl
@[simp] theorem State.setM_saveN (s : State) (i : MReg) (v : DWord) : (s.setM i v).saveN = s.saveN := rfl
@[simp] theorem State.setM_saveE (s : State) (i : MReg) (v : DWord) : (s.setM i v).saveE = s.saveE := rfl
@[simp] theorem State.setM_switchN (s : State) (i : MReg) (v : DWord) : (s.setM i v).switchN = s.switchN := rfl
@[simp] theorem State.setM_jobs (s : State) (i : MReg) (v : DWord) : (s.setM i v).jobs = s.jobs := rfl
@[simp] theorem State.setM_protect (s : State) (i : MReg) (v : DWord) : (s.setM i v).protect = s.protect := rfl
@[simp] theorem State.setM_held (s : State) (i : MReg) (v : DWord) : (s.setM i v).held = s.held := rfl
@[simp] theorem State.setM_link (s : State) (i : MReg) (v : DWord) : (s.setM i v).link = s.link := rfl
@[simp] theorem State.setM_signers (s : State) (i : MReg) (v : DWord) : (s.setM i v).signers = s.signers := rfl
@[simp] theorem State.setM_restore (s : State) (i : MReg) (v : DWord) : (s.setM i v).restore = s.restore := rfl
@[simp] theorem State.setM_service (s : State) (i : MReg) (v : DWord) : (s.setM i v).service = s.service := rfl
@[simp] theorem State.setM_progress (s : State) (i : MReg) (v : DWord) : (s.setM i v).progress = s.progress := rfl
@[simp] theorem State.setM_tries (s : State) (i : MReg) (v : DWord) : (s.setM i v).tries = s.tries := rfl
@[simp] theorem State.setM_failed (s : State) (i : MReg) (v : DWord) : (s.setM i v).failed = s.failed := rfl
@[simp] theorem State.setM_recovery (s : State) (i : MReg) (v : DWord) : (s.setM i v).recovery = s.recovery := rfl
@[simp] theorem State.setM_stopped (s : State) (i : MReg) (v : DWord) : (s.setM i v).stopped = s.stopped := rfl
@[simp] theorem State.setM_atBreak (s : State) (i : MReg) (v : DWord) : (s.setM i v).atBreak = s.atBreak := rfl
@[simp] theorem State.setM_up (s : State) (i : MReg) (v : DWord) : (s.setM i v).up = s.up := rfl
@[simp] theorem State.setM_firstStart (s : State) (i : MReg) (v : DWord) : (s.setM i v).firstStart = s.firstStart := rfl
@[simp] theorem State.setM_fwRun (s : State) (i : MReg) (v : DWord) : (s.setM i v).fwRun = s.fwRun := rfl
@[simp] theorem State.setM_fwNext (s : State) (i : MReg) (v : DWord) : (s.setM i v).fwNext = s.fwNext := rfl
@[simp] theorem State.setM_clock (s : State) (i : MReg) (v : DWord) : (s.setM i v).clock = s.clock := rfl
@[simp] theorem State.setM_health (s : State) (i : MReg) (v : DWord) : (s.setM i v).health = s.health := rfl
@[simp] theorem State.setM_mailbox (s : State) (i : MReg) (v : DWord) : (s.setM i v).mailbox = s.mailbox := rfl
@[simp] theorem State.setM_submitted (s : State) (i : MReg) (v : DWord) : (s.setM i v).submitted = s.submitted := rfl

/-! ### putTile -/

@[simp] theorem State.putTile_cur (s : State) (t : Nat) (x : Tile) : (s.putTile t x).cur = s.cur := rfl
@[simp] theorem State.putTile_core (s : State) (t : Nat) (x : Tile) : (s.putTile t x).core = s.core := rfl
@[simp] theorem State.putTile_others (s : State) (t : Nat) (x : Tile) : (s.putTile t x).others = s.others := rfl
@[simp] theorem State.putTile_cycle (s : State) (t : Nat) (x : Tile) : (s.putTile t x).cycle = s.cycle := rfl
@[simp] theorem State.putTile_tick (s : State) (t : Nat) (x : Tile) : (s.putTile t x).tick = s.tick := rfl
@[simp] theorem State.putTile_turn (s : State) (t : Nat) (x : Tile) : (s.putTile t x).turn = s.turn := rfl
@[simp] theorem State.putTile_agenda (s : State) (t : Nat) (x : Tile) : (s.putTile t x).agenda = s.agenda := rfl
@[simp] theorem State.putTile_gmem (s : State) (t : Nat) (x : Tile) : (s.putTile t x).gmem = s.gmem := rfl
@[simp] theorem State.putTile_badLines (s : State) (t : Nat) (x : Tile) : (s.putTile t x).badLines = s.badLines := rfl
@[simp] theorem State.putTile_qbase (s : State) (t : Nat) (x : Tile) : (s.putTile t x).qbase = s.qbase := rfl
@[simp] theorem State.putTile_fbase (s : State) (t : Nat) (x : Tile) : (s.putTile t x).fbase = s.fbase := rfl
@[simp] theorem State.putTile_leaves (s : State) (t : Nat) (x : Tile) : (s.putTile t x).leaves = s.leaves := rfl
@[simp] theorem State.putTile_tables (s : State) (t : Nat) (x : Tile) : (s.putTile t x).tables = s.tables := rfl
@[simp] theorem State.putTile_fading (s : State) (t : Nat) (x : Tile) : (s.putTile t x).fading = s.fading := rfl
@[simp] theorem State.putTile_owned (s : State) (t : Nat) (x : Tile) : (s.putTile t x).owned = s.owned := rfl
@[simp] theorem State.putTile_tenants (s : State) (t : Nat) (x : Tile) : (s.putTile t x).tenants = s.tenants := rfl
@[simp] theorem State.putTile_vdevs (s : State) (t : Nat) (x : Tile) : (s.putTile t x).vdevs = s.vdevs := rfl
@[simp] theorem State.putTile_pairs (s : State) (t : Nat) (x : Tile) : (s.putTile t x).pairs = s.pairs := rfl
@[simp] theorem State.putTile_ports (s : State) (t : Nat) (x : Tile) : (s.putTile t x).ports = s.ports := rfl
@[simp] theorem State.putTile_records (s : State) (t : Nat) (x : Tile) : (s.putTile t x).records = s.records := rfl
@[simp] theorem State.putTile_launches (s : State) (t : Nat) (x : Tile) : (s.putTile t x).launches = s.launches := rfl
@[simp] theorem State.putTile_gone (s : State) (t : Nat) (x : Tile) : (s.putTile t x).gone = s.gone := rfl
@[simp] theorem State.putTile_launchCount (s : State) (t : Nat) (x : Tile) : (s.putTile t x).launchCount = s.launchCount := rfl
@[simp] theorem State.putTile_walks (s : State) (t : Nat) (x : Tile) : (s.putTile t x).walks = s.walks := rfl
@[simp] theorem State.putTile_walkCount (s : State) (t : Nat) (x : Tile) : (s.putTile t x).walkCount = s.walkCount := rfl
@[simp] theorem State.putTile_disp (s : State) (t : Nat) (x : Tile) : (s.putTile t x).disp = s.disp := rfl
@[simp] theorem State.putTile_seen (s : State) (t : Nat) (x : Tile) : (s.putTile t x).seen = s.seen := rfl
@[simp] theorem State.putTile_finishing (s : State) (t : Nat) (x : Tile) : (s.putTile t x).finishing = s.finishing := rfl
@[simp] theorem State.putTile_swapped (s : State) (t : Nat) (x : Tile) : (s.putTile t x).swapped = s.swapped := rfl
@[simp] theorem State.putTile_dropped (s : State) (t : Nat) (x : Tile) : (s.putTile t x).dropped = s.dropped := rfl
@[simp] theorem State.putTile_phase (s : State) (t : Nat) (x : Tile) : (s.putTile t x).phase = s.phase := rfl
@[simp] theorem State.putTile_driv (s : State) (t : Nat) (x : Tile) : (s.putTile t x).driv = s.driv := rfl
@[simp] theorem State.putTile_drthr (s : State) (t : Nat) (x : Tile) : (s.putTile t x).drthr = s.drthr := rfl
@[simp] theorem State.putTile_drhold (s : State) (t : Nat) (x : Tile) : (s.putTile t x).drhold = s.drhold := rfl
@[simp] theorem State.putTile_vacb (s : State) (t : Nat) (x : Tile) : (s.putTile t x).vacb = s.vacb := rfl
@[simp] theorem State.putTile_lost (s : State) (t : Nat) (x : Tile) : (s.putTile t x).lost = s.lost := rfl
@[simp] theorem State.putTile_saveN (s : State) (t : Nat) (x : Tile) : (s.putTile t x).saveN = s.saveN := rfl
@[simp] theorem State.putTile_saveE (s : State) (t : Nat) (x : Tile) : (s.putTile t x).saveE = s.saveE := rfl
@[simp] theorem State.putTile_switchN (s : State) (t : Nat) (x : Tile) : (s.putTile t x).switchN = s.switchN := rfl
@[simp] theorem State.putTile_jobs (s : State) (t : Nat) (x : Tile) : (s.putTile t x).jobs = s.jobs := rfl
@[simp] theorem State.putTile_protect (s : State) (t : Nat) (x : Tile) : (s.putTile t x).protect = s.protect := rfl
@[simp] theorem State.putTile_held (s : State) (t : Nat) (x : Tile) : (s.putTile t x).held = s.held := rfl
@[simp] theorem State.putTile_link (s : State) (t : Nat) (x : Tile) : (s.putTile t x).link = s.link := rfl
@[simp] theorem State.putTile_signers (s : State) (t : Nat) (x : Tile) : (s.putTile t x).signers = s.signers := rfl
@[simp] theorem State.putTile_restore (s : State) (t : Nat) (x : Tile) : (s.putTile t x).restore = s.restore := rfl
@[simp] theorem State.putTile_service (s : State) (t : Nat) (x : Tile) : (s.putTile t x).service = s.service := rfl
@[simp] theorem State.putTile_progress (s : State) (t : Nat) (x : Tile) : (s.putTile t x).progress = s.progress := rfl
@[simp] theorem State.putTile_tries (s : State) (t : Nat) (x : Tile) : (s.putTile t x).tries = s.tries := rfl
@[simp] theorem State.putTile_failed (s : State) (t : Nat) (x : Tile) : (s.putTile t x).failed = s.failed := rfl
@[simp] theorem State.putTile_recovery (s : State) (t : Nat) (x : Tile) : (s.putTile t x).recovery = s.recovery := rfl
@[simp] theorem State.putTile_stopped (s : State) (t : Nat) (x : Tile) : (s.putTile t x).stopped = s.stopped := rfl
@[simp] theorem State.putTile_atBreak (s : State) (t : Nat) (x : Tile) : (s.putTile t x).atBreak = s.atBreak := rfl
@[simp] theorem State.putTile_up (s : State) (t : Nat) (x : Tile) : (s.putTile t x).up = s.up := rfl
@[simp] theorem State.putTile_firstStart (s : State) (t : Nat) (x : Tile) : (s.putTile t x).firstStart = s.firstStart := rfl
@[simp] theorem State.putTile_fwRun (s : State) (t : Nat) (x : Tile) : (s.putTile t x).fwRun = s.fwRun := rfl
@[simp] theorem State.putTile_fwNext (s : State) (t : Nat) (x : Tile) : (s.putTile t x).fwNext = s.fwNext := rfl
@[simp] theorem State.putTile_clock (s : State) (t : Nat) (x : Tile) : (s.putTile t x).clock = s.clock := rfl
@[simp] theorem State.putTile_health (s : State) (t : Nat) (x : Tile) : (s.putTile t x).health = s.health := rfl
@[simp] theorem State.putTile_mailbox (s : State) (t : Nat) (x : Tile) : (s.putTile t x).mailbox = s.mailbox := rfl
@[simp] theorem State.putTile_submitted (s : State) (t : Nat) (x : Tile) : (s.putTile t x).submitted = s.submitted := rfl

/-! ### onTile -/

@[simp] theorem State.onTile_cur (s : State) (t : Nat) (f : Tile → Tile) : (s.onTile t f).cur = s.cur := rfl
@[simp] theorem State.onTile_core (s : State) (t : Nat) (f : Tile → Tile) : (s.onTile t f).core = s.core := rfl
@[simp] theorem State.onTile_others (s : State) (t : Nat) (f : Tile → Tile) : (s.onTile t f).others = s.others := rfl
@[simp] theorem State.onTile_cycle (s : State) (t : Nat) (f : Tile → Tile) : (s.onTile t f).cycle = s.cycle := rfl
@[simp] theorem State.onTile_tick (s : State) (t : Nat) (f : Tile → Tile) : (s.onTile t f).tick = s.tick := rfl
@[simp] theorem State.onTile_turn (s : State) (t : Nat) (f : Tile → Tile) : (s.onTile t f).turn = s.turn := rfl
@[simp] theorem State.onTile_agenda (s : State) (t : Nat) (f : Tile → Tile) : (s.onTile t f).agenda = s.agenda := rfl
@[simp] theorem State.onTile_gmem (s : State) (t : Nat) (f : Tile → Tile) : (s.onTile t f).gmem = s.gmem := rfl
@[simp] theorem State.onTile_badLines (s : State) (t : Nat) (f : Tile → Tile) : (s.onTile t f).badLines = s.badLines := rfl
@[simp] theorem State.onTile_qbase (s : State) (t : Nat) (f : Tile → Tile) : (s.onTile t f).qbase = s.qbase := rfl
@[simp] theorem State.onTile_fbase (s : State) (t : Nat) (f : Tile → Tile) : (s.onTile t f).fbase = s.fbase := rfl
@[simp] theorem State.onTile_leaves (s : State) (t : Nat) (f : Tile → Tile) : (s.onTile t f).leaves = s.leaves := rfl
@[simp] theorem State.onTile_tables (s : State) (t : Nat) (f : Tile → Tile) : (s.onTile t f).tables = s.tables := rfl
@[simp] theorem State.onTile_fading (s : State) (t : Nat) (f : Tile → Tile) : (s.onTile t f).fading = s.fading := rfl
@[simp] theorem State.onTile_owned (s : State) (t : Nat) (f : Tile → Tile) : (s.onTile t f).owned = s.owned := rfl
@[simp] theorem State.onTile_tenants (s : State) (t : Nat) (f : Tile → Tile) : (s.onTile t f).tenants = s.tenants := rfl
@[simp] theorem State.onTile_vdevs (s : State) (t : Nat) (f : Tile → Tile) : (s.onTile t f).vdevs = s.vdevs := rfl
@[simp] theorem State.onTile_pairs (s : State) (t : Nat) (f : Tile → Tile) : (s.onTile t f).pairs = s.pairs := rfl
@[simp] theorem State.onTile_ports (s : State) (t : Nat) (f : Tile → Tile) : (s.onTile t f).ports = s.ports := rfl
@[simp] theorem State.onTile_records (s : State) (t : Nat) (f : Tile → Tile) : (s.onTile t f).records = s.records := rfl
@[simp] theorem State.onTile_launches (s : State) (t : Nat) (f : Tile → Tile) : (s.onTile t f).launches = s.launches := rfl
@[simp] theorem State.onTile_gone (s : State) (t : Nat) (f : Tile → Tile) : (s.onTile t f).gone = s.gone := rfl
@[simp] theorem State.onTile_launchCount (s : State) (t : Nat) (f : Tile → Tile) : (s.onTile t f).launchCount = s.launchCount := rfl
@[simp] theorem State.onTile_walks (s : State) (t : Nat) (f : Tile → Tile) : (s.onTile t f).walks = s.walks := rfl
@[simp] theorem State.onTile_walkCount (s : State) (t : Nat) (f : Tile → Tile) : (s.onTile t f).walkCount = s.walkCount := rfl
@[simp] theorem State.onTile_disp (s : State) (t : Nat) (f : Tile → Tile) : (s.onTile t f).disp = s.disp := rfl
@[simp] theorem State.onTile_seen (s : State) (t : Nat) (f : Tile → Tile) : (s.onTile t f).seen = s.seen := rfl
@[simp] theorem State.onTile_finishing (s : State) (t : Nat) (f : Tile → Tile) : (s.onTile t f).finishing = s.finishing := rfl
@[simp] theorem State.onTile_swapped (s : State) (t : Nat) (f : Tile → Tile) : (s.onTile t f).swapped = s.swapped := rfl
@[simp] theorem State.onTile_dropped (s : State) (t : Nat) (f : Tile → Tile) : (s.onTile t f).dropped = s.dropped := rfl
@[simp] theorem State.onTile_phase (s : State) (t : Nat) (f : Tile → Tile) : (s.onTile t f).phase = s.phase := rfl
@[simp] theorem State.onTile_driv (s : State) (t : Nat) (f : Tile → Tile) : (s.onTile t f).driv = s.driv := rfl
@[simp] theorem State.onTile_drthr (s : State) (t : Nat) (f : Tile → Tile) : (s.onTile t f).drthr = s.drthr := rfl
@[simp] theorem State.onTile_drhold (s : State) (t : Nat) (f : Tile → Tile) : (s.onTile t f).drhold = s.drhold := rfl
@[simp] theorem State.onTile_vacb (s : State) (t : Nat) (f : Tile → Tile) : (s.onTile t f).vacb = s.vacb := rfl
@[simp] theorem State.onTile_lost (s : State) (t : Nat) (f : Tile → Tile) : (s.onTile t f).lost = s.lost := rfl
@[simp] theorem State.onTile_saveN (s : State) (t : Nat) (f : Tile → Tile) : (s.onTile t f).saveN = s.saveN := rfl
@[simp] theorem State.onTile_saveE (s : State) (t : Nat) (f : Tile → Tile) : (s.onTile t f).saveE = s.saveE := rfl
@[simp] theorem State.onTile_switchN (s : State) (t : Nat) (f : Tile → Tile) : (s.onTile t f).switchN = s.switchN := rfl
@[simp] theorem State.onTile_jobs (s : State) (t : Nat) (f : Tile → Tile) : (s.onTile t f).jobs = s.jobs := rfl
@[simp] theorem State.onTile_protect (s : State) (t : Nat) (f : Tile → Tile) : (s.onTile t f).protect = s.protect := rfl
@[simp] theorem State.onTile_held (s : State) (t : Nat) (f : Tile → Tile) : (s.onTile t f).held = s.held := rfl
@[simp] theorem State.onTile_link (s : State) (t : Nat) (f : Tile → Tile) : (s.onTile t f).link = s.link := rfl
@[simp] theorem State.onTile_signers (s : State) (t : Nat) (f : Tile → Tile) : (s.onTile t f).signers = s.signers := rfl
@[simp] theorem State.onTile_restore (s : State) (t : Nat) (f : Tile → Tile) : (s.onTile t f).restore = s.restore := rfl
@[simp] theorem State.onTile_service (s : State) (t : Nat) (f : Tile → Tile) : (s.onTile t f).service = s.service := rfl
@[simp] theorem State.onTile_progress (s : State) (t : Nat) (f : Tile → Tile) : (s.onTile t f).progress = s.progress := rfl
@[simp] theorem State.onTile_tries (s : State) (t : Nat) (f : Tile → Tile) : (s.onTile t f).tries = s.tries := rfl
@[simp] theorem State.onTile_failed (s : State) (t : Nat) (f : Tile → Tile) : (s.onTile t f).failed = s.failed := rfl
@[simp] theorem State.onTile_recovery (s : State) (t : Nat) (f : Tile → Tile) : (s.onTile t f).recovery = s.recovery := rfl
@[simp] theorem State.onTile_stopped (s : State) (t : Nat) (f : Tile → Tile) : (s.onTile t f).stopped = s.stopped := rfl
@[simp] theorem State.onTile_atBreak (s : State) (t : Nat) (f : Tile → Tile) : (s.onTile t f).atBreak = s.atBreak := rfl
@[simp] theorem State.onTile_up (s : State) (t : Nat) (f : Tile → Tile) : (s.onTile t f).up = s.up := rfl
@[simp] theorem State.onTile_firstStart (s : State) (t : Nat) (f : Tile → Tile) : (s.onTile t f).firstStart = s.firstStart := rfl
@[simp] theorem State.onTile_fwRun (s : State) (t : Nat) (f : Tile → Tile) : (s.onTile t f).fwRun = s.fwRun := rfl
@[simp] theorem State.onTile_fwNext (s : State) (t : Nat) (f : Tile → Tile) : (s.onTile t f).fwNext = s.fwNext := rfl
@[simp] theorem State.onTile_clock (s : State) (t : Nat) (f : Tile → Tile) : (s.onTile t f).clock = s.clock := rfl
@[simp] theorem State.onTile_health (s : State) (t : Nat) (f : Tile → Tile) : (s.onTile t f).health = s.health := rfl
@[simp] theorem State.onTile_mailbox (s : State) (t : Nat) (f : Tile → Tile) : (s.onTile t f).mailbox = s.mailbox := rfl
@[simp] theorem State.onTile_submitted (s : State) (t : Nat) (f : Tile → Tile) : (s.onTile t f).submitted = s.submitted := rfl

/-! ### gset -/

@[simp] theorem State.gset_cur (s : State) (k : Nat) (bs : List Byte) : (s.gset k bs).cur = s.cur := rfl
@[simp] theorem State.gset_core (s : State) (k : Nat) (bs : List Byte) : (s.gset k bs).core = s.core := rfl
@[simp] theorem State.gset_others (s : State) (k : Nat) (bs : List Byte) : (s.gset k bs).others = s.others := rfl
@[simp] theorem State.gset_tiles (s : State) (k : Nat) (bs : List Byte) : (s.gset k bs).tiles = s.tiles := rfl
@[simp] theorem State.gset_cycle (s : State) (k : Nat) (bs : List Byte) : (s.gset k bs).cycle = s.cycle := rfl
@[simp] theorem State.gset_tick (s : State) (k : Nat) (bs : List Byte) : (s.gset k bs).tick = s.tick := rfl
@[simp] theorem State.gset_turn (s : State) (k : Nat) (bs : List Byte) : (s.gset k bs).turn = s.turn := rfl
@[simp] theorem State.gset_agenda (s : State) (k : Nat) (bs : List Byte) : (s.gset k bs).agenda = s.agenda := rfl
@[simp] theorem State.gset_badLines (s : State) (k : Nat) (bs : List Byte) : (s.gset k bs).badLines = s.badLines := rfl
@[simp] theorem State.gset_qbase (s : State) (k : Nat) (bs : List Byte) : (s.gset k bs).qbase = s.qbase := rfl
@[simp] theorem State.gset_fbase (s : State) (k : Nat) (bs : List Byte) : (s.gset k bs).fbase = s.fbase := rfl
@[simp] theorem State.gset_leaves (s : State) (k : Nat) (bs : List Byte) : (s.gset k bs).leaves = s.leaves := rfl
@[simp] theorem State.gset_tables (s : State) (k : Nat) (bs : List Byte) : (s.gset k bs).tables = s.tables := rfl
@[simp] theorem State.gset_fading (s : State) (k : Nat) (bs : List Byte) : (s.gset k bs).fading = s.fading := rfl
@[simp] theorem State.gset_owned (s : State) (k : Nat) (bs : List Byte) : (s.gset k bs).owned = s.owned := rfl
@[simp] theorem State.gset_tenants (s : State) (k : Nat) (bs : List Byte) : (s.gset k bs).tenants = s.tenants := rfl
@[simp] theorem State.gset_vdevs (s : State) (k : Nat) (bs : List Byte) : (s.gset k bs).vdevs = s.vdevs := rfl
@[simp] theorem State.gset_pairs (s : State) (k : Nat) (bs : List Byte) : (s.gset k bs).pairs = s.pairs := rfl
@[simp] theorem State.gset_ports (s : State) (k : Nat) (bs : List Byte) : (s.gset k bs).ports = s.ports := rfl
@[simp] theorem State.gset_records (s : State) (k : Nat) (bs : List Byte) : (s.gset k bs).records = s.records := rfl
@[simp] theorem State.gset_launches (s : State) (k : Nat) (bs : List Byte) : (s.gset k bs).launches = s.launches := rfl
@[simp] theorem State.gset_gone (s : State) (k : Nat) (bs : List Byte) : (s.gset k bs).gone = s.gone := rfl
@[simp] theorem State.gset_launchCount (s : State) (k : Nat) (bs : List Byte) : (s.gset k bs).launchCount = s.launchCount := rfl
@[simp] theorem State.gset_walks (s : State) (k : Nat) (bs : List Byte) : (s.gset k bs).walks = s.walks := rfl
@[simp] theorem State.gset_walkCount (s : State) (k : Nat) (bs : List Byte) : (s.gset k bs).walkCount = s.walkCount := rfl
@[simp] theorem State.gset_disp (s : State) (k : Nat) (bs : List Byte) : (s.gset k bs).disp = s.disp := rfl
@[simp] theorem State.gset_seen (s : State) (k : Nat) (bs : List Byte) : (s.gset k bs).seen = s.seen := rfl
@[simp] theorem State.gset_finishing (s : State) (k : Nat) (bs : List Byte) : (s.gset k bs).finishing = s.finishing := rfl
@[simp] theorem State.gset_swapped (s : State) (k : Nat) (bs : List Byte) : (s.gset k bs).swapped = s.swapped := rfl
@[simp] theorem State.gset_dropped (s : State) (k : Nat) (bs : List Byte) : (s.gset k bs).dropped = s.dropped := rfl
@[simp] theorem State.gset_phase (s : State) (k : Nat) (bs : List Byte) : (s.gset k bs).phase = s.phase := rfl
@[simp] theorem State.gset_driv (s : State) (k : Nat) (bs : List Byte) : (s.gset k bs).driv = s.driv := rfl
@[simp] theorem State.gset_drthr (s : State) (k : Nat) (bs : List Byte) : (s.gset k bs).drthr = s.drthr := rfl
@[simp] theorem State.gset_drhold (s : State) (k : Nat) (bs : List Byte) : (s.gset k bs).drhold = s.drhold := rfl
@[simp] theorem State.gset_vacb (s : State) (k : Nat) (bs : List Byte) : (s.gset k bs).vacb = s.vacb := rfl
@[simp] theorem State.gset_lost (s : State) (k : Nat) (bs : List Byte) : (s.gset k bs).lost = s.lost := rfl
@[simp] theorem State.gset_saveN (s : State) (k : Nat) (bs : List Byte) : (s.gset k bs).saveN = s.saveN := rfl
@[simp] theorem State.gset_saveE (s : State) (k : Nat) (bs : List Byte) : (s.gset k bs).saveE = s.saveE := rfl
@[simp] theorem State.gset_switchN (s : State) (k : Nat) (bs : List Byte) : (s.gset k bs).switchN = s.switchN := rfl
@[simp] theorem State.gset_jobs (s : State) (k : Nat) (bs : List Byte) : (s.gset k bs).jobs = s.jobs := rfl
@[simp] theorem State.gset_protect (s : State) (k : Nat) (bs : List Byte) : (s.gset k bs).protect = s.protect := rfl
@[simp] theorem State.gset_held (s : State) (k : Nat) (bs : List Byte) : (s.gset k bs).held = s.held := rfl
@[simp] theorem State.gset_link (s : State) (k : Nat) (bs : List Byte) : (s.gset k bs).link = s.link := rfl
@[simp] theorem State.gset_signers (s : State) (k : Nat) (bs : List Byte) : (s.gset k bs).signers = s.signers := rfl
@[simp] theorem State.gset_restore (s : State) (k : Nat) (bs : List Byte) : (s.gset k bs).restore = s.restore := rfl
@[simp] theorem State.gset_service (s : State) (k : Nat) (bs : List Byte) : (s.gset k bs).service = s.service := rfl
@[simp] theorem State.gset_progress (s : State) (k : Nat) (bs : List Byte) : (s.gset k bs).progress = s.progress := rfl
@[simp] theorem State.gset_tries (s : State) (k : Nat) (bs : List Byte) : (s.gset k bs).tries = s.tries := rfl
@[simp] theorem State.gset_failed (s : State) (k : Nat) (bs : List Byte) : (s.gset k bs).failed = s.failed := rfl
@[simp] theorem State.gset_recovery (s : State) (k : Nat) (bs : List Byte) : (s.gset k bs).recovery = s.recovery := rfl
@[simp] theorem State.gset_stopped (s : State) (k : Nat) (bs : List Byte) : (s.gset k bs).stopped = s.stopped := rfl
@[simp] theorem State.gset_atBreak (s : State) (k : Nat) (bs : List Byte) : (s.gset k bs).atBreak = s.atBreak := rfl
@[simp] theorem State.gset_up (s : State) (k : Nat) (bs : List Byte) : (s.gset k bs).up = s.up := rfl
@[simp] theorem State.gset_firstStart (s : State) (k : Nat) (bs : List Byte) : (s.gset k bs).firstStart = s.firstStart := rfl
@[simp] theorem State.gset_fwRun (s : State) (k : Nat) (bs : List Byte) : (s.gset k bs).fwRun = s.fwRun := rfl
@[simp] theorem State.gset_fwNext (s : State) (k : Nat) (bs : List Byte) : (s.gset k bs).fwNext = s.fwNext := rfl
@[simp] theorem State.gset_clock (s : State) (k : Nat) (bs : List Byte) : (s.gset k bs).clock = s.clock := rfl
@[simp] theorem State.gset_health (s : State) (k : Nat) (bs : List Byte) : (s.gset k bs).health = s.health := rfl
@[simp] theorem State.gset_mailbox (s : State) (k : Nat) (bs : List Byte) : (s.gset k bs).mailbox = s.mailbox := rfl
@[simp] theorem State.gset_submitted (s : State) (k : Nat) (bs : List Byte) : (s.gset k bs).submitted = s.submitted := rfl

/-! ### send -/

@[simp] theorem State.send_cur (s : State) (e : Ev) : (s.send e).cur = s.cur := rfl
@[simp] theorem State.send_core (s : State) (e : Ev) : (s.send e).core = s.core := rfl
@[simp] theorem State.send_others (s : State) (e : Ev) : (s.send e).others = s.others := rfl
@[simp] theorem State.send_tiles (s : State) (e : Ev) : (s.send e).tiles = s.tiles := rfl
@[simp] theorem State.send_cycle (s : State) (e : Ev) : (s.send e).cycle = s.cycle := rfl
@[simp] theorem State.send_tick (s : State) (e : Ev) : (s.send e).tick = s.tick := rfl
@[simp] theorem State.send_turn (s : State) (e : Ev) : (s.send e).turn = s.turn := rfl
@[simp] theorem State.send_gmem (s : State) (e : Ev) : (s.send e).gmem = s.gmem := rfl
@[simp] theorem State.send_badLines (s : State) (e : Ev) : (s.send e).badLines = s.badLines := rfl
@[simp] theorem State.send_qbase (s : State) (e : Ev) : (s.send e).qbase = s.qbase := rfl
@[simp] theorem State.send_fbase (s : State) (e : Ev) : (s.send e).fbase = s.fbase := rfl
@[simp] theorem State.send_leaves (s : State) (e : Ev) : (s.send e).leaves = s.leaves := rfl
@[simp] theorem State.send_tables (s : State) (e : Ev) : (s.send e).tables = s.tables := rfl
@[simp] theorem State.send_fading (s : State) (e : Ev) : (s.send e).fading = s.fading := rfl
@[simp] theorem State.send_owned (s : State) (e : Ev) : (s.send e).owned = s.owned := rfl
@[simp] theorem State.send_tenants (s : State) (e : Ev) : (s.send e).tenants = s.tenants := rfl
@[simp] theorem State.send_vdevs (s : State) (e : Ev) : (s.send e).vdevs = s.vdevs := rfl
@[simp] theorem State.send_pairs (s : State) (e : Ev) : (s.send e).pairs = s.pairs := rfl
@[simp] theorem State.send_ports (s : State) (e : Ev) : (s.send e).ports = s.ports := rfl
@[simp] theorem State.send_records (s : State) (e : Ev) : (s.send e).records = s.records := rfl
@[simp] theorem State.send_launches (s : State) (e : Ev) : (s.send e).launches = s.launches := rfl
@[simp] theorem State.send_gone (s : State) (e : Ev) : (s.send e).gone = s.gone := rfl
@[simp] theorem State.send_launchCount (s : State) (e : Ev) : (s.send e).launchCount = s.launchCount := rfl
@[simp] theorem State.send_walks (s : State) (e : Ev) : (s.send e).walks = s.walks := rfl
@[simp] theorem State.send_walkCount (s : State) (e : Ev) : (s.send e).walkCount = s.walkCount := rfl
@[simp] theorem State.send_disp (s : State) (e : Ev) : (s.send e).disp = s.disp := rfl
@[simp] theorem State.send_seen (s : State) (e : Ev) : (s.send e).seen = s.seen := rfl
@[simp] theorem State.send_finishing (s : State) (e : Ev) : (s.send e).finishing = s.finishing := rfl
@[simp] theorem State.send_swapped (s : State) (e : Ev) : (s.send e).swapped = s.swapped := rfl
@[simp] theorem State.send_dropped (s : State) (e : Ev) : (s.send e).dropped = s.dropped := rfl
@[simp] theorem State.send_phase (s : State) (e : Ev) : (s.send e).phase = s.phase := rfl
@[simp] theorem State.send_driv (s : State) (e : Ev) : (s.send e).driv = s.driv := rfl
@[simp] theorem State.send_drthr (s : State) (e : Ev) : (s.send e).drthr = s.drthr := rfl
@[simp] theorem State.send_drhold (s : State) (e : Ev) : (s.send e).drhold = s.drhold := rfl
@[simp] theorem State.send_vacb (s : State) (e : Ev) : (s.send e).vacb = s.vacb := rfl
@[simp] theorem State.send_lost (s : State) (e : Ev) : (s.send e).lost = s.lost := rfl
@[simp] theorem State.send_saveN (s : State) (e : Ev) : (s.send e).saveN = s.saveN := rfl
@[simp] theorem State.send_saveE (s : State) (e : Ev) : (s.send e).saveE = s.saveE := rfl
@[simp] theorem State.send_switchN (s : State) (e : Ev) : (s.send e).switchN = s.switchN := rfl
@[simp] theorem State.send_jobs (s : State) (e : Ev) : (s.send e).jobs = s.jobs := rfl
@[simp] theorem State.send_protect (s : State) (e : Ev) : (s.send e).protect = s.protect := rfl
@[simp] theorem State.send_held (s : State) (e : Ev) : (s.send e).held = s.held := rfl
@[simp] theorem State.send_link (s : State) (e : Ev) : (s.send e).link = s.link := rfl
@[simp] theorem State.send_signers (s : State) (e : Ev) : (s.send e).signers = s.signers := rfl
@[simp] theorem State.send_restore (s : State) (e : Ev) : (s.send e).restore = s.restore := rfl
@[simp] theorem State.send_service (s : State) (e : Ev) : (s.send e).service = s.service := rfl
@[simp] theorem State.send_progress (s : State) (e : Ev) : (s.send e).progress = s.progress := rfl
@[simp] theorem State.send_tries (s : State) (e : Ev) : (s.send e).tries = s.tries := rfl
@[simp] theorem State.send_failed (s : State) (e : Ev) : (s.send e).failed = s.failed := rfl
@[simp] theorem State.send_recovery (s : State) (e : Ev) : (s.send e).recovery = s.recovery := rfl
@[simp] theorem State.send_stopped (s : State) (e : Ev) : (s.send e).stopped = s.stopped := rfl
@[simp] theorem State.send_atBreak (s : State) (e : Ev) : (s.send e).atBreak = s.atBreak := rfl
@[simp] theorem State.send_up (s : State) (e : Ev) : (s.send e).up = s.up := rfl
@[simp] theorem State.send_firstStart (s : State) (e : Ev) : (s.send e).firstStart = s.firstStart := rfl
@[simp] theorem State.send_fwRun (s : State) (e : Ev) : (s.send e).fwRun = s.fwRun := rfl
@[simp] theorem State.send_fwNext (s : State) (e : Ev) : (s.send e).fwNext = s.fwNext := rfl
@[simp] theorem State.send_clock (s : State) (e : Ev) : (s.send e).clock = s.clock := rfl
@[simp] theorem State.send_health (s : State) (e : Ev) : (s.send e).health = s.health := rfl
@[simp] theorem State.send_mailbox (s : State) (e : Ev) : (s.send e).mailbox = s.mailbox := rfl
@[simp] theorem State.send_submitted (s : State) (e : Ev) : (s.send e).submitted = s.submitted := rfl

/-! ### qput -/

@[simp] theorem State.qput_cur (s : State) (q o n v : Nat) : (s.qput q o n v).cur = s.cur := rfl
@[simp] theorem State.qput_core (s : State) (q o n v : Nat) : (s.qput q o n v).core = s.core := rfl
@[simp] theorem State.qput_others (s : State) (q o n v : Nat) : (s.qput q o n v).others = s.others := rfl
@[simp] theorem State.qput_tiles (s : State) (q o n v : Nat) : (s.qput q o n v).tiles = s.tiles := rfl
@[simp] theorem State.qput_cycle (s : State) (q o n v : Nat) : (s.qput q o n v).cycle = s.cycle := rfl
@[simp] theorem State.qput_tick (s : State) (q o n v : Nat) : (s.qput q o n v).tick = s.tick := rfl
@[simp] theorem State.qput_turn (s : State) (q o n v : Nat) : (s.qput q o n v).turn = s.turn := rfl
@[simp] theorem State.qput_agenda (s : State) (q o n v : Nat) : (s.qput q o n v).agenda = s.agenda := rfl
@[simp] theorem State.qput_badLines (s : State) (q o n v : Nat) : (s.qput q o n v).badLines = s.badLines := rfl
@[simp] theorem State.qput_qbase (s : State) (q o n v : Nat) : (s.qput q o n v).qbase = s.qbase := rfl
@[simp] theorem State.qput_fbase (s : State) (q o n v : Nat) : (s.qput q o n v).fbase = s.fbase := rfl
@[simp] theorem State.qput_leaves (s : State) (q o n v : Nat) : (s.qput q o n v).leaves = s.leaves := rfl
@[simp] theorem State.qput_tables (s : State) (q o n v : Nat) : (s.qput q o n v).tables = s.tables := rfl
@[simp] theorem State.qput_fading (s : State) (q o n v : Nat) : (s.qput q o n v).fading = s.fading := rfl
@[simp] theorem State.qput_owned (s : State) (q o n v : Nat) : (s.qput q o n v).owned = s.owned := rfl
@[simp] theorem State.qput_tenants (s : State) (q o n v : Nat) : (s.qput q o n v).tenants = s.tenants := rfl
@[simp] theorem State.qput_vdevs (s : State) (q o n v : Nat) : (s.qput q o n v).vdevs = s.vdevs := rfl
@[simp] theorem State.qput_pairs (s : State) (q o n v : Nat) : (s.qput q o n v).pairs = s.pairs := rfl
@[simp] theorem State.qput_ports (s : State) (q o n v : Nat) : (s.qput q o n v).ports = s.ports := rfl
@[simp] theorem State.qput_records (s : State) (q o n v : Nat) : (s.qput q o n v).records = s.records := rfl
@[simp] theorem State.qput_launches (s : State) (q o n v : Nat) : (s.qput q o n v).launches = s.launches := rfl
@[simp] theorem State.qput_gone (s : State) (q o n v : Nat) : (s.qput q o n v).gone = s.gone := rfl
@[simp] theorem State.qput_launchCount (s : State) (q o n v : Nat) : (s.qput q o n v).launchCount = s.launchCount := rfl
@[simp] theorem State.qput_walks (s : State) (q o n v : Nat) : (s.qput q o n v).walks = s.walks := rfl
@[simp] theorem State.qput_walkCount (s : State) (q o n v : Nat) : (s.qput q o n v).walkCount = s.walkCount := rfl
@[simp] theorem State.qput_disp (s : State) (q o n v : Nat) : (s.qput q o n v).disp = s.disp := rfl
@[simp] theorem State.qput_seen (s : State) (q o n v : Nat) : (s.qput q o n v).seen = s.seen := rfl
@[simp] theorem State.qput_finishing (s : State) (q o n v : Nat) : (s.qput q o n v).finishing = s.finishing := rfl
@[simp] theorem State.qput_swapped (s : State) (q o n v : Nat) : (s.qput q o n v).swapped = s.swapped := rfl
@[simp] theorem State.qput_dropped (s : State) (q o n v : Nat) : (s.qput q o n v).dropped = s.dropped := rfl
@[simp] theorem State.qput_phase (s : State) (q o n v : Nat) : (s.qput q o n v).phase = s.phase := rfl
@[simp] theorem State.qput_driv (s : State) (q o n v : Nat) : (s.qput q o n v).driv = s.driv := rfl
@[simp] theorem State.qput_drthr (s : State) (q o n v : Nat) : (s.qput q o n v).drthr = s.drthr := rfl
@[simp] theorem State.qput_drhold (s : State) (q o n v : Nat) : (s.qput q o n v).drhold = s.drhold := rfl
@[simp] theorem State.qput_vacb (s : State) (q o n v : Nat) : (s.qput q o n v).vacb = s.vacb := rfl
@[simp] theorem State.qput_lost (s : State) (q o n v : Nat) : (s.qput q o n v).lost = s.lost := rfl
@[simp] theorem State.qput_saveN (s : State) (q o n v : Nat) : (s.qput q o n v).saveN = s.saveN := rfl
@[simp] theorem State.qput_saveE (s : State) (q o n v : Nat) : (s.qput q o n v).saveE = s.saveE := rfl
@[simp] theorem State.qput_switchN (s : State) (q o n v : Nat) : (s.qput q o n v).switchN = s.switchN := rfl
@[simp] theorem State.qput_jobs (s : State) (q o n v : Nat) : (s.qput q o n v).jobs = s.jobs := rfl
@[simp] theorem State.qput_protect (s : State) (q o n v : Nat) : (s.qput q o n v).protect = s.protect := rfl
@[simp] theorem State.qput_held (s : State) (q o n v : Nat) : (s.qput q o n v).held = s.held := rfl
@[simp] theorem State.qput_link (s : State) (q o n v : Nat) : (s.qput q o n v).link = s.link := rfl
@[simp] theorem State.qput_signers (s : State) (q o n v : Nat) : (s.qput q o n v).signers = s.signers := rfl
@[simp] theorem State.qput_restore (s : State) (q o n v : Nat) : (s.qput q o n v).restore = s.restore := rfl
@[simp] theorem State.qput_service (s : State) (q o n v : Nat) : (s.qput q o n v).service = s.service := rfl
@[simp] theorem State.qput_progress (s : State) (q o n v : Nat) : (s.qput q o n v).progress = s.progress := rfl
@[simp] theorem State.qput_tries (s : State) (q o n v : Nat) : (s.qput q o n v).tries = s.tries := rfl
@[simp] theorem State.qput_failed (s : State) (q o n v : Nat) : (s.qput q o n v).failed = s.failed := rfl
@[simp] theorem State.qput_recovery (s : State) (q o n v : Nat) : (s.qput q o n v).recovery = s.recovery := rfl
@[simp] theorem State.qput_stopped (s : State) (q o n v : Nat) : (s.qput q o n v).stopped = s.stopped := rfl
@[simp] theorem State.qput_atBreak (s : State) (q o n v : Nat) : (s.qput q o n v).atBreak = s.atBreak := rfl
@[simp] theorem State.qput_up (s : State) (q o n v : Nat) : (s.qput q o n v).up = s.up := rfl
@[simp] theorem State.qput_firstStart (s : State) (q o n v : Nat) : (s.qput q o n v).firstStart = s.firstStart := rfl
@[simp] theorem State.qput_fwRun (s : State) (q o n v : Nat) : (s.qput q o n v).fwRun = s.fwRun := rfl
@[simp] theorem State.qput_fwNext (s : State) (q o n v : Nat) : (s.qput q o n v).fwNext = s.fwNext := rfl
@[simp] theorem State.qput_clock (s : State) (q o n v : Nat) : (s.qput q o n v).clock = s.clock := rfl
@[simp] theorem State.qput_health (s : State) (q o n v : Nat) : (s.qput q o n v).health = s.health := rfl
@[simp] theorem State.qput_mailbox (s : State) (q o n v : Nat) : (s.qput q o n v).mailbox = s.mailbox := rfl
@[simp] theorem State.qput_submitted (s : State) (q o n v : Nat) : (s.qput q o n v).submitted = s.submitted := rfl

/-! ### fenceAdd -/

@[simp] theorem State.fenceAdd_cur (s : State) (f n : Nat) : (s.fenceAdd f n).cur = s.cur := rfl
@[simp] theorem State.fenceAdd_core (s : State) (f n : Nat) : (s.fenceAdd f n).core = s.core := rfl
@[simp] theorem State.fenceAdd_others (s : State) (f n : Nat) : (s.fenceAdd f n).others = s.others := rfl
@[simp] theorem State.fenceAdd_tiles (s : State) (f n : Nat) : (s.fenceAdd f n).tiles = s.tiles := rfl
@[simp] theorem State.fenceAdd_cycle (s : State) (f n : Nat) : (s.fenceAdd f n).cycle = s.cycle := rfl
@[simp] theorem State.fenceAdd_tick (s : State) (f n : Nat) : (s.fenceAdd f n).tick = s.tick := rfl
@[simp] theorem State.fenceAdd_turn (s : State) (f n : Nat) : (s.fenceAdd f n).turn = s.turn := rfl
@[simp] theorem State.fenceAdd_agenda (s : State) (f n : Nat) : (s.fenceAdd f n).agenda = s.agenda := rfl
@[simp] theorem State.fenceAdd_badLines (s : State) (f n : Nat) : (s.fenceAdd f n).badLines = s.badLines := rfl
@[simp] theorem State.fenceAdd_qbase (s : State) (f n : Nat) : (s.fenceAdd f n).qbase = s.qbase := rfl
@[simp] theorem State.fenceAdd_fbase (s : State) (f n : Nat) : (s.fenceAdd f n).fbase = s.fbase := rfl
@[simp] theorem State.fenceAdd_leaves (s : State) (f n : Nat) : (s.fenceAdd f n).leaves = s.leaves := rfl
@[simp] theorem State.fenceAdd_tables (s : State) (f n : Nat) : (s.fenceAdd f n).tables = s.tables := rfl
@[simp] theorem State.fenceAdd_fading (s : State) (f n : Nat) : (s.fenceAdd f n).fading = s.fading := rfl
@[simp] theorem State.fenceAdd_owned (s : State) (f n : Nat) : (s.fenceAdd f n).owned = s.owned := rfl
@[simp] theorem State.fenceAdd_tenants (s : State) (f n : Nat) : (s.fenceAdd f n).tenants = s.tenants := rfl
@[simp] theorem State.fenceAdd_vdevs (s : State) (f n : Nat) : (s.fenceAdd f n).vdevs = s.vdevs := rfl
@[simp] theorem State.fenceAdd_pairs (s : State) (f n : Nat) : (s.fenceAdd f n).pairs = s.pairs := rfl
@[simp] theorem State.fenceAdd_ports (s : State) (f n : Nat) : (s.fenceAdd f n).ports = s.ports := rfl
@[simp] theorem State.fenceAdd_records (s : State) (f n : Nat) : (s.fenceAdd f n).records = s.records := rfl
@[simp] theorem State.fenceAdd_launches (s : State) (f n : Nat) : (s.fenceAdd f n).launches = s.launches := rfl
@[simp] theorem State.fenceAdd_gone (s : State) (f n : Nat) : (s.fenceAdd f n).gone = s.gone := rfl
@[simp] theorem State.fenceAdd_launchCount (s : State) (f n : Nat) : (s.fenceAdd f n).launchCount = s.launchCount := rfl
@[simp] theorem State.fenceAdd_walks (s : State) (f n : Nat) : (s.fenceAdd f n).walks = s.walks := rfl
@[simp] theorem State.fenceAdd_walkCount (s : State) (f n : Nat) : (s.fenceAdd f n).walkCount = s.walkCount := rfl
@[simp] theorem State.fenceAdd_disp (s : State) (f n : Nat) : (s.fenceAdd f n).disp = s.disp := rfl
@[simp] theorem State.fenceAdd_seen (s : State) (f n : Nat) : (s.fenceAdd f n).seen = s.seen := rfl
@[simp] theorem State.fenceAdd_finishing (s : State) (f n : Nat) : (s.fenceAdd f n).finishing = s.finishing := rfl
@[simp] theorem State.fenceAdd_swapped (s : State) (f n : Nat) : (s.fenceAdd f n).swapped = s.swapped := rfl
@[simp] theorem State.fenceAdd_dropped (s : State) (f n : Nat) : (s.fenceAdd f n).dropped = s.dropped := rfl
@[simp] theorem State.fenceAdd_phase (s : State) (f n : Nat) : (s.fenceAdd f n).phase = s.phase := rfl
@[simp] theorem State.fenceAdd_driv (s : State) (f n : Nat) : (s.fenceAdd f n).driv = s.driv := rfl
@[simp] theorem State.fenceAdd_drthr (s : State) (f n : Nat) : (s.fenceAdd f n).drthr = s.drthr := rfl
@[simp] theorem State.fenceAdd_drhold (s : State) (f n : Nat) : (s.fenceAdd f n).drhold = s.drhold := rfl
@[simp] theorem State.fenceAdd_vacb (s : State) (f n : Nat) : (s.fenceAdd f n).vacb = s.vacb := rfl
@[simp] theorem State.fenceAdd_lost (s : State) (f n : Nat) : (s.fenceAdd f n).lost = s.lost := rfl
@[simp] theorem State.fenceAdd_saveN (s : State) (f n : Nat) : (s.fenceAdd f n).saveN = s.saveN := rfl
@[simp] theorem State.fenceAdd_saveE (s : State) (f n : Nat) : (s.fenceAdd f n).saveE = s.saveE := rfl
@[simp] theorem State.fenceAdd_switchN (s : State) (f n : Nat) : (s.fenceAdd f n).switchN = s.switchN := rfl
@[simp] theorem State.fenceAdd_jobs (s : State) (f n : Nat) : (s.fenceAdd f n).jobs = s.jobs := rfl
@[simp] theorem State.fenceAdd_protect (s : State) (f n : Nat) : (s.fenceAdd f n).protect = s.protect := rfl
@[simp] theorem State.fenceAdd_held (s : State) (f n : Nat) : (s.fenceAdd f n).held = s.held := rfl
@[simp] theorem State.fenceAdd_link (s : State) (f n : Nat) : (s.fenceAdd f n).link = s.link := rfl
@[simp] theorem State.fenceAdd_signers (s : State) (f n : Nat) : (s.fenceAdd f n).signers = s.signers := rfl
@[simp] theorem State.fenceAdd_restore (s : State) (f n : Nat) : (s.fenceAdd f n).restore = s.restore := rfl
@[simp] theorem State.fenceAdd_service (s : State) (f n : Nat) : (s.fenceAdd f n).service = s.service := rfl
@[simp] theorem State.fenceAdd_progress (s : State) (f n : Nat) : (s.fenceAdd f n).progress = s.progress := rfl
@[simp] theorem State.fenceAdd_tries (s : State) (f n : Nat) : (s.fenceAdd f n).tries = s.tries := rfl
@[simp] theorem State.fenceAdd_failed (s : State) (f n : Nat) : (s.fenceAdd f n).failed = s.failed := rfl
@[simp] theorem State.fenceAdd_recovery (s : State) (f n : Nat) : (s.fenceAdd f n).recovery = s.recovery := rfl
@[simp] theorem State.fenceAdd_stopped (s : State) (f n : Nat) : (s.fenceAdd f n).stopped = s.stopped := rfl
@[simp] theorem State.fenceAdd_atBreak (s : State) (f n : Nat) : (s.fenceAdd f n).atBreak = s.atBreak := rfl
@[simp] theorem State.fenceAdd_up (s : State) (f n : Nat) : (s.fenceAdd f n).up = s.up := rfl
@[simp] theorem State.fenceAdd_firstStart (s : State) (f n : Nat) : (s.fenceAdd f n).firstStart = s.firstStart := rfl
@[simp] theorem State.fenceAdd_fwRun (s : State) (f n : Nat) : (s.fenceAdd f n).fwRun = s.fwRun := rfl
@[simp] theorem State.fenceAdd_fwNext (s : State) (f n : Nat) : (s.fenceAdd f n).fwNext = s.fwNext := rfl
@[simp] theorem State.fenceAdd_clock (s : State) (f n : Nat) : (s.fenceAdd f n).clock = s.clock := rfl
@[simp] theorem State.fenceAdd_health (s : State) (f n : Nat) : (s.fenceAdd f n).health = s.health := rfl
@[simp] theorem State.fenceAdd_mailbox (s : State) (f n : Nat) : (s.fenceAdd f n).mailbox = s.mailbox := rfl
@[simp] theorem State.fenceAdd_submitted (s : State) (f n : Nat) : (s.fenceAdd f n).submitted = s.submitted := rfl

/-! ### What the updates of the current core write -/

@[simp] theorem State.setCtx_core (s : State) (x : Ctx) : (s.setCtx x).core = { s.core with ctx := x } := rfl
@[simp] theorem State.setCtx_ctx (s : State) (x : Ctx) : (s.setCtx x).ctx = x := rfl
@[simp] theorem State.setCtx_fir (s : State) (x : Ctx) : (s.setCtx x).fir = s.fir := rfl
@[simp] theorem State.setCtx_regs (s : State) (x : Ctx) : (s.setCtx x).regs = s.regs := rfl
@[simp] theorem State.setCtx_prog (s : State) (x : Ctx) : (s.setCtx x).prog = x.prog := rfl
@[simp] theorem State.setCtx_chunk (s : State) (x : Ctx) : (s.setCtx x).chunk = s.chunk := rfl
@[simp] theorem State.setCtx_pc (s : State) (x : Ctx) : (s.setCtx x).pc = s.pc := rfl
@[simp] theorem State.setFir_core (s : State) (x : Firing) : (s.setFir x).core = { s.core with fir := x } := rfl
@[simp] theorem State.setFir_ctx (s : State) (x : Firing) : (s.setFir x).ctx = s.ctx := rfl
@[simp] theorem State.setFir_fir (s : State) (x : Firing) : (s.setFir x).fir = x := rfl
@[simp] theorem State.setFir_regs (s : State) (x : Firing) : (s.setFir x).regs = x.regs := rfl
@[simp] theorem State.setFir_prog (s : State) (x : Firing) : (s.setFir x).prog = s.prog := rfl
@[simp] theorem State.setFir_chunk (s : State) (x : Firing) : (s.setFir x).chunk = x.chunk := rfl
@[simp] theorem State.setFir_pc (s : State) (x : Firing) : (s.setFir x).pc = x.regs.pc := rfl
@[simp] theorem State.setRegs_core (s : State) (x : Regs) : (s.setRegs x).core = { s.core with fir := { s.core.fir with regs := x } } := rfl
@[simp] theorem State.setRegs_ctx (s : State) (x : Regs) : (s.setRegs x).ctx = s.ctx := rfl
@[simp] theorem State.setRegs_fir (s : State) (x : Regs) : (s.setRegs x).fir = { s.fir with regs := x } := rfl
@[simp] theorem State.setRegs_regs (s : State) (x : Regs) : (s.setRegs x).regs = x := rfl
@[simp] theorem State.setRegs_prog (s : State) (x : Regs) : (s.setRegs x).prog = s.prog := rfl
@[simp] theorem State.setRegs_chunk (s : State) (x : Regs) : (s.setRegs x).chunk = s.chunk := rfl
@[simp] theorem State.setRegs_pc (s : State) (x : Regs) : (s.setRegs x).pc = x.pc := rfl
@[simp] theorem State.setProg_core (s : State) (x : Prog) : (s.setProg x).core = { s.core with ctx := { s.core.ctx with prog := x } } := rfl
@[simp] theorem State.setProg_ctx (s : State) (x : Prog) : (s.setProg x).ctx = { s.ctx with prog := x } := rfl
@[simp] theorem State.setProg_fir (s : State) (x : Prog) : (s.setProg x).fir = s.fir := rfl
@[simp] theorem State.setProg_regs (s : State) (x : Prog) : (s.setProg x).regs = s.regs := rfl
@[simp] theorem State.setProg_prog (s : State) (x : Prog) : (s.setProg x).prog = x := rfl
@[simp] theorem State.setProg_chunk (s : State) (x : Prog) : (s.setProg x).chunk = s.chunk := rfl
@[simp] theorem State.setProg_pc (s : State) (x : Prog) : (s.setProg x).pc = s.pc := rfl
@[simp] theorem State.setChunk_core (s : State) (x : Chunk) : (s.setChunk x).core = { s.core with fir := { s.core.fir with chunk := x } } := rfl
@[simp] theorem State.setChunk_ctx (s : State) (x : Chunk) : (s.setChunk x).ctx = s.ctx := rfl
@[simp] theorem State.setChunk_fir (s : State) (x : Chunk) : (s.setChunk x).fir = { s.fir with chunk := x } := rfl
@[simp] theorem State.setChunk_regs (s : State) (x : Chunk) : (s.setChunk x).regs = s.regs := rfl
@[simp] theorem State.setChunk_prog (s : State) (x : Chunk) : (s.setChunk x).prog = s.prog := rfl
@[simp] theorem State.setChunk_chunk (s : State) (x : Chunk) : (s.setChunk x).chunk = x := rfl
@[simp] theorem State.setChunk_pc (s : State) (x : Chunk) : (s.setChunk x).pc = s.pc := rfl
@[simp] theorem State.setStatus_core (s : State) (x : Status) : (s.setStatus x).core = { s.core with status := x } := rfl
@[simp] theorem State.setStatus_ctx (s : State) (x : Status) : (s.setStatus x).ctx = s.ctx := rfl
@[simp] theorem State.setStatus_fir (s : State) (x : Status) : (s.setStatus x).fir = s.fir := rfl
@[simp] theorem State.setStatus_regs (s : State) (x : Status) : (s.setStatus x).regs = s.regs := rfl
@[simp] theorem State.setStatus_prog (s : State) (x : Status) : (s.setStatus x).prog = s.prog := rfl
@[simp] theorem State.setStatus_chunk (s : State) (x : Status) : (s.setStatus x).chunk = s.chunk := rfl
@[simp] theorem State.setStatus_pc (s : State) (x : Status) : (s.setStatus x).pc = s.pc := rfl
@[simp] theorem State.hold_ctx (s : State) (x : Held) : (s.hold x).ctx = s.ctx := rfl
@[simp] theorem State.hold_regs (s : State) (x : Held) : (s.hold x).regs = s.regs := rfl
@[simp] theorem State.hold_prog (s : State) (x : Held) : (s.hold x).prog = s.prog := rfl
@[simp] theorem State.hold_chunk (s : State) (x : Held) : (s.hold x).chunk = { s.chunk with held := s.chunk.held ++ [x] } := rfl
@[simp] theorem State.counted_ctx (s : State) : (s.counted).ctx = s.ctx := rfl
@[simp] theorem State.counted_regs (s : State) : (s.counted).regs = s.regs := rfl
@[simp] theorem State.counted_prog (s : State) : (s.counted).prog = s.prog := rfl
@[simp] theorem State.counted_chunk (s : State) : (s.counted).chunk = { s.chunk with count := s.chunk.count + 1 } := rfl
@[simp] theorem State.advance_ctx (s : State) (x : Nat) : (s.advance x).ctx = s.ctx := rfl
@[simp] theorem State.advance_regs (s : State) (x : Nat) : (s.advance x).regs = s.regs.advance x := rfl
@[simp] theorem State.advance_prog (s : State) (x : Nat) : (s.advance x).prog = s.prog := rfl
@[simp] theorem State.advance_chunk (s : State) (x : Nat) : (s.advance x).chunk = s.chunk := rfl
@[simp] theorem State.putTile_ctx (s : State) (t : Nat) (x : Tile) : (s.putTile t x).ctx = s.ctx := rfl
@[simp] theorem State.putTile_fir (s : State) (t : Nat) (x : Tile) : (s.putTile t x).fir = s.fir := rfl
@[simp] theorem State.putTile_regs (s : State) (t : Nat) (x : Tile) : (s.putTile t x).regs = s.regs := rfl
@[simp] theorem State.putTile_prog (s : State) (t : Nat) (x : Tile) : (s.putTile t x).prog = s.prog := rfl
@[simp] theorem State.putTile_chunk (s : State) (t : Nat) (x : Tile) : (s.putTile t x).chunk = s.chunk := rfl
@[simp] theorem State.onTile_ctx (s : State) (t : Nat) (f : Tile → Tile) : (s.onTile t f).ctx = s.ctx := rfl
@[simp] theorem State.onTile_fir (s : State) (t : Nat) (f : Tile → Tile) : (s.onTile t f).fir = s.fir := rfl
@[simp] theorem State.onTile_regs (s : State) (t : Nat) (f : Tile → Tile) : (s.onTile t f).regs = s.regs := rfl
@[simp] theorem State.onTile_prog (s : State) (t : Nat) (f : Tile → Tile) : (s.onTile t f).prog = s.prog := rfl
@[simp] theorem State.onTile_chunk (s : State) (t : Nat) (f : Tile → Tile) : (s.onTile t f).chunk = s.chunk := rfl

end Sys2Proof.Machine
end

