-- ==== Sys2Proof/Laws/Device.lean ====
section
/-! SUPPORT. Cores and tiles by number, reads and writes of global memory and of scratchpads: what each gives, what it leaves, and that the
canonical form of every memory is kept. -/

namespace Sys2Proof.Machine

/-! ## Cores and tiles by number -/

@[simp] theorem State.coreAt_cur (s : State) : s.coreAt s.cur = s.core := by simp [State.coreAt]

/-- A core after another one, or itself, has been replaced. -/
theorem State.coreAt_putCore (s : State) (c d : Nat) (k : Core) : (s.putCore c k).coreAt d = if d = c then k else s.coreAt d := by
  unfold State.putCore
  by_cases hc : c = s.cur
  · subst hc
    rw [if_pos rfl]
    by_cases hd : d = s.cur <;> simp [State.coreAt, hd]
  · rw [if_neg hc]
    by_cases hd : d = c
    · subst hd; simp [State.coreAt, hc, look_upd]
    · by_cases hdc : d = s.cur
      · subst hdc; simp [State.coreAt, hd]
      · simp [State.coreAt, hd, hdc, look_upd]

theorem State.coreAt_onCore (s : State) (c d : Nat) (f : Core → Core) : (s.onCore c f).coreAt d = if d = c then f (s.coreAt c) else s.coreAt d :=
  s.coreAt_putCore c d _

/-- Making a core the current one changes no core. -/
@[simp] theorem State.coreAt_goto (s : State) (c d : Nat) : (s.goto c).coreAt d = s.coreAt d := by
  unfold State.goto
  by_cases hc : c = s.cur
  · rw [if_pos hc]
  · rw [if_neg hc]
    by_cases hd : d = c
    · subst hd; simp [State.coreAt]
    · by_cases hdc : d = s.cur
      · subst hdc; simp [State.coreAt, hd, look_upd]
      · simp [State.coreAt, hd, hdc, look_upd, look_del]

@[simp] theorem State.core_goto (s : State) (c : Nat) : (s.goto c).core = s.coreAt c := by
  unfold State.goto
  by_cases hc : c = s.cur
  · subst hc; simp
  · rw [if_neg hc]

@[simp] theorem State.cur_goto (s : State) (c : Nat) : (s.goto c).cur = c := by
  unfold State.goto
  by_cases hc : c = s.cur
  · rw [if_pos hc, hc]
  · rw [if_neg hc]

@[simp] theorem State.gmem_goto (s : State) (c : Nat) : (s.goto c).gmem = s.gmem := by unfold State.goto; split <;> rfl
@[simp] theorem State.tiles_goto (s : State) (c : Nat) : (s.goto c).tiles = s.tiles := by unfold State.goto; split <;> rfl
@[simp] theorem State.gmem_putCore (s : State) (c : Nat) (k : Core) : (s.putCore c k).gmem = s.gmem := by unfold State.putCore; split <;> rfl
@[simp] theorem State.tiles_putCore (s : State) (c : Nat) (k : Core) : (s.putCore c k).tiles = s.tiles := by unfold State.putCore; split <;> rfl
@[simp] theorem State.cur_putCore (s : State) (c : Nat) (k : Core) : (s.putCore c k).cur = s.cur := by unfold State.putCore; split <;> rfl
@[simp] theorem State.gmem_onCore (s : State) (c : Nat) (f : Core → Core) : (s.onCore c f).gmem = s.gmem := s.gmem_putCore c _
@[simp] theorem State.tiles_onCore (s : State) (c : Nat) (f : Core → Core) : (s.onCore c f).tiles = s.tiles := s.tiles_putCore c _
@[simp] theorem State.cur_onCore (s : State) (c : Nat) (f : Core → Core) : (s.onCore c f).cur = s.cur := s.cur_putCore c _

/-- A tile after one has been replaced. -/
theorem State.tileAt_putTile (s : State) (t u : Nat) (k : Tile) : (s.putTile t k).tileAt u = if u = t ∧ t < 64 then k else s.tileAt u :=
  vget_vset _ t u k _
theorem State.tileAt_onTile (s : State) (t u : Nat) (f : Tile → Tile) : (s.onTile t f).tileAt u = if u = t ∧ t < 64 then f (s.tileAt t) else s.tileAt u :=
  s.tileAt_putTile t u _
@[simp] theorem State.gmem_onTile (s : State) (t : Nat) (f : Tile → Tile) : (s.onTile t f).gmem = s.gmem := rfl
@[simp] theorem State.coreAt_putTile (s : State) (t : Nat) (k : Tile) (c : Nat) : (s.putTile t k).coreAt c = s.coreAt c := rfl
@[simp] theorem State.coreAt_onTile (s : State) (t : Nat) (f : Tile → Tile) (c : Nat) : (s.onTile t f).coreAt c = s.coreAt c := rfl
@[simp] theorem State.tileAt_putCore (s : State) (c : Nat) (k : Core) (t : Nat) : (s.putCore c k).tileAt t = s.tileAt t := by simp [State.tileAt]
@[simp] theorem State.tileAt_onCore (s : State) (c : Nat) (f : Core → Core) (t : Nat) : (s.onCore c f).tileAt t = s.tileAt t := by simp [State.tileAt]
@[simp] theorem State.tileAt_goto (s : State) (c t : Nat) : (s.goto c).tileAt t = s.tileAt t := by simp [State.tileAt]

/-- The updates of the current core leave every other core. -/
theorem State.coreAt_of_others {s t : State} (hc : t.cur = s.cur) (ho : t.others = s.others) {d : Nat} (hd : d ≠ s.cur) : t.coreAt d = s.coreAt d := by
  simp [State.coreAt, hc, ho, hd]

/-! ## The canonical form of the memories (DESIGN CHOICE, log 5) -/

/-- Memories that are the same are canonical alike. -/
theorem State.MemOk.congr {s t : State} (h : s.MemOk) (hg : t.gmem = s.gmem) (hm : ∀ c, (t.coreAt c).mem = (s.coreAt c).mem) : t.MemOk :=
  ⟨hg ▸ h.1, fun c => hm c ▸ h.2 c⟩
/-- The memories after a start without them. -/
theorem State.memOk_reset : State.reset.MemOk := ⟨rfl, fun c => by unfold State.coreAt; split <;> rfl⟩
theorem State.MemOk.gset {s : State} (h : s.MemOk) (k : Nat) (bs : List Byte) : (s.gset k bs).MemOk := ⟨Mem.wf_write k bs h.1, h.2⟩
theorem State.MemOk.gwrite {s : State} (h : s.MemOk) (k : Nat) (bs : List Byte) : (s.gwrite k bs).MemOk := by
  unfold State.gwrite; split
  · exact ⟨h.1, h.2⟩
  · exact h.gset k bs
/-- A write that has still to complete on its link keeps the canonical form (R239). -/
theorem State.MemOk.gput {s : State} (h : s.MemOk) (c k : Nat) (bs : List Byte) : (s.gput c k bs).MemOk := by
  unfold State.gput; split
  exacts [⟨(h.gset k bs).1, (h.gset k bs).2⟩, h.gset k bs]
theorem State.MemOk.qput {s : State} (h : s.MemOk) (q o n v : Nat) : (s.qput q o n v).MemOk := h.gset _ _
theorem State.MemOk.fenceAdd {s : State} (h : s.MemOk) (f n : Nat) : (s.fenceAdd f n).MemOk := h.gset _ _
theorem State.MemOk.gwriteBy {s : State} (h : s.MemOk) (c k : Nat) (bs : List Byte) (why : GlobalWrite) : (s.gwriteBy c k bs why).MemOk := by
  unfold State.gwriteBy; split
  · exact ⟨h.1, h.2⟩
  · exact h.gput c k bs
/-- A range written byte by byte keeps what each byte's write keeps. -/
theorem State.MemOk.vwriteWith {s : State} (h : s.MemOk) (put : State → Nat → List Byte → State) (hp : ∀ {s : State}, s.MemOk → ∀ k bs, (put s k bs).MemOk)
    (v va : Nat) (bs : List Byte) : (s.vwriteWith put v va bs).MemOk := by
  induction bs generalizing s va with
  | nil => exact h
  | cons b bs ih => rw [State.vwriteWith]; split; exacts [ih h _, ih (hp h _ _) _]
theorem State.MemOk.vwrite {s : State} (h : s.MemOk) (v va : Nat) (bs : List Byte) : (s.vwrite v va bs).MemOk :=
  h.vwriteWith _ (fun h => h.gwrite) v va bs
theorem State.MemOk.vwriteBy {s : State} (h : s.MemOk) (c v va : Nat) (bs : List Byte) : (s.vwriteBy c v va bs).MemOk :=
  h.vwriteWith _ (fun h k bs => h.gwriteBy c k bs .copy) v va bs
theorem State.MemOk.post {s : State} (h : s.MemOk) (q : Nat) (ev : List Byte) : (s.post q ev).MemOk := by
  unfold State.post
  dsimp only
  split
  · exact h.qput _ _ _ _
  · split
    · exact h.qput _ _ _ _
    · exact (h.gwrite _ _).qput _ _ _ _
theorem State.MemOk.postLaunch {s : State} (h : s.MemOk) (id : Word) (ev : List Byte) : (s.postLaunch id ev).MemOk := by
  unfold State.postLaunch; split
  exacts [h.post _ _, h.post _ _, h]
theorem State.MemOk.putCore {s : State} (h : s.MemOk) (c : Nat) (k : Core) (hk : k.mem.wf = true) : (s.putCore c k).MemOk :=
  ⟨by simpa using h.1, fun d => by rw [State.coreAt_putCore]; split; exacts [hk, h.2 d]⟩
theorem State.MemOk.onCore {s : State} (h : s.MemOk) (c : Nat) (f : Core → Core) (hf : (f (s.coreAt c)).mem.wf = true) : (s.onCore c f).MemOk :=
  h.putCore c _ hf
theorem State.MemOk.onTile {s : State} (h : s.MemOk) (t : Nat) (f : Tile → Tile) : (s.onTile t f).MemOk := h.congr rfl fun _ => rfl
theorem State.MemOk.goto {s : State} (h : s.MemOk) (c : Nat) : (s.goto c).MemOk := h.congr (by simp) fun d => by simp
theorem State.MemOk.setCore {s : State} (h : s.MemOk) (k : Core) (hk : k.mem.wf = true) : ({ s with core := k } : State).MemOk :=
  ⟨h.1, fun d => by
    by_cases hd : d = s.cur
    · subst hd; simpa [State.coreAt] using hk
    · have he : ({ s with core := k } : State).coreAt d = s.coreAt d := by simp [State.coreAt, hd]
      rw [he]; exact h.2 d⟩

/-! ## One core's scratchpad: what a read and a write change (R129–R140) -/

@[simp] theorem Core.mem_logErr (k : Core) (b r : Nat) (cl : Byte) (x : Half) (cy : DWord) (y : Byte) : (k.logErr b r cl x cy y).mem = k.mem := rfl
@[simp] theorem Core.mem_inject (k : Core) (b r : Nat) : (k.inject b r).mem = k.mem := by unfold Core.inject; dsimp only; split_ifs <;> rfl
@[simp] theorem Core.mem_cleanWord (k : Core) (b r : Nat) : (k.cleanWord b r).mem = k.mem := rfl
@[simp] theorem Core.mem_sense (k : Core) (b r : Nat) : (k.sense b r).1.mem = k.mem := Core.mem_inject k b r
@[simp] theorem Core.mem_toFix (k : Core) (b r : Nat) : (k.toFix b r).mem = k.mem := by unfold Core.toFix; split <;> rfl
@[simp] theorem Core.mem_corrected (k : Core) (b r : Nat) (x : Half) (cy : DWord) (y : Byte) : (k.corrected b r x cy y).mem = k.mem := by
  simp [Core.corrected]
@[simp] theorem Core.mem_markStale (k : Core) (w : Nat) : (k.markStale w).mem = k.mem := by unfold Core.markStale; dsimp only; split <;> rfl
/-- A busy cycle of banks moves wait counts and nothing else. -/
@[simp] theorem Core.mem_busy (k : Core) (gs : List Nat) : (k.busy gs).mem = k.mem := by unfold Core.busy; split <;> rfl
/-- A fold of steps of a core, with a result beside it, keeps the bytes that every step keeps. -/
theorem Core.mem_foldl {α : Type} (l : List α) (f : Core → α → Core) (hf : ∀ k a, (f k a).mem = k.mem) (k : Core) : (l.foldl f k).mem = k.mem := by
  induction l generalizing k with
  | nil => rfl
  | cons a l ih => rw [List.foldl_cons, ih, hf]
theorem Core.mem_foldl₂ {α β : Type} (l : List α) (f : Core × β → α → Core × β) (hf : ∀ q a, (f q a).1.mem = q.1.mem) (q : Core × β) :
    (l.foldl f q).1.mem = q.1.mem := by
  induction l generalizing q with
  | nil => rfl
  | cons a l ih => rw [List.foldl_cons, ih, hf]
/-- A read of a word, to make up another one, by itself or as a mirage read, changes no byte. -/
@[simp] theorem Core.mem_assist (k : Core) (b r : Nat) (x : Half) (cy : DWord) (y : Byte) : (k.assist b r x cy y).1.mem = k.mem := by
  unfold Core.assist
  dsimp only
  split
  · exact Core.mem_sense ..
  · split
    · exact Core.mem_sense ..
    · simp
    · dsimp only; split <;> simp
@[simp] theorem Core.mem_siblings (k : Core) (b r : Nat) (x : Half) (cy : DWord) (y : Byte) : (k.siblings b r x cy y).1.mem = k.mem := by
  unfold Core.siblings
  exact Core.mem_foldl₂ _ _ (fun q a => by simp) _
@[simp] theorem Core.mem_readDirect (k : Core) (b r : Nat) (x : Half) (cy : DWord) (y : Byte) : (k.readDirect b r x cy y).1.mem = k.mem := by
  unfold Core.readDirect
  dsimp only
  split
  · simp
  · split
    · simp
    · simp
    · split_ifs <;> simp
@[simp] theorem Core.mem_readWord (k : Core) (b r : Nat) (lost : Bool) (x : Half) (cy : DWord) (y : Byte) : (k.readWord b r lost x cy y).1.mem = k.mem := by
  unfold Core.readWord
  dsimp only
  split_ifs <;> simp
@[simp] theorem Core.mem_readWords (k : Core) (o n : Nat) (lost : Nat → Bool) (x : Half) (cy : DWord) (y : Byte) :
    (k.readWords o n lost x cy y).1.mem = k.mem := by
  unfold Core.readWords
  split
  · rfl
  · exact Core.mem_foldl₂ _ _ (fun q w => by split <;> simp) _
/-- A read of bytes changes no byte. -/
@[simp] theorem Core.mem_readBytes (k : Core) (o n : Nat) (lost : Nat → Bool) (x : Half) (cy : DWord) (y : Byte) :
    (k.readBytes o n lost x cy y).1.mem = k.mem := Core.mem_readWords ..
/-- With nothing to disturb it a read gives the bytes of memory and leaves the core as it was. -/
theorem Core.readBytes_clean (k : Core) (o n : Nat) (lost : Nat → Bool) (x : Half) (cy : DWord) (y : Byte) (h : k.clean = true) :
    k.readBytes o n lost x cy y = (k, some (k.mem.read o n)) := by simp [Core.readBytes, Core.readWords, h]
@[simp] theorem Core.mem_writeWord (k : Core) (rows : Bool) (w o n : Nat) (x : Half) (cy : DWord) (y : Byte) : (k.writeWord rows w o n x cy y).mem = k.mem := by
  unfold Core.writeWord; dsimp only; split_ifs <;> simp
/-- A write of bytes writes exactly those into memory. -/
@[simp] theorem Core.mem_writeBytes (k : Core) (o : Nat) (bs : List Byte) (x : Half) (cy : DWord) (y : Byte) (rows : Bool) :
    (k.writeBytes o bs x cy y rows).mem = k.mem.write o bs := by
  unfold Core.writeBytes
  rw [Core.mem_foldl _ _ fun k w => Core.mem_markStale k w]
  dsimp only
  split
  · rfl
  · rw [Core.mem_foldl _ _ fun k w => Core.mem_writeWord k rows w ..]
/-- A private-alias store that its bank performs writes its bytes. -/
@[simp] theorem Core.mem_performOwn (k : Core) (o : Nat) (bs : List Byte) (x : Half) (rows : Bool) (cy : DWord) (y : Byte) :
    (k.performOwn o bs x rows cy y).mem = k.mem.write o bs := by simp [Core.performOwn]

/-- A write to a core's scratchpad keeps the canonical form. -/
theorem State.MemOk.scrWrite {s : State} (h : s.MemOk) (c o : Nat) (bs : List Byte) (x : Half) : (s.scrWrite c o bs x).MemOk :=
  h.onCore c _ (by rw [Core.mem_writeBytes, Core.mem_busy]; exact Mem.wf_write o bs (h.2 c))
theorem State.MemOk.extWrite {s : State} (h : s.MemOk) (c o : Nat) (bs : List Byte) (x : Half) (rows : Bool) : (s.extWrite c o bs x rows).MemOk :=
  h.onCore c _ (by dsimp only; rw [Core.mem_writeBytes, Core.mem_busy]; exact Mem.wf_write o bs (h.2 c))
theorem State.MemOk.scrRead {s : State} (h : s.MemOk) (c o n : Nat) (x : Half) : (s.scrRead c o n x).1.MemOk :=
  h.putCore c _ (by rw [Core.mem_readBytes, Core.mem_busy]; exact h.2 c)
theorem State.MemOk.mirRead {s : State} (h : s.MemOk) (c o n : Nat) (x : Half) : (s.mirRead c o n x).1.MemOk :=
  h.putCore c _ (by rw [Core.mem_readBytes, Core.mem_busy]; exact h.2 c)
/-- The private stores that reach their banks keep the canonical form (R234). -/
theorem Core.wf_drain (k : Core) (cy : DWord) (y : Byte) (h : k.mem.wf = true) : (k.drain cy y).mem.wf = true := by
  unfold Core.drain
  suffices ∀ (l : List (Nat × List Byte × Half × Bool)) (k : Core),
      k.mem.wf = true → (l.foldl (fun k w => k.performOwn w.1 w.2.1 w.2.2.1 w.2.2.2 cy y) k).mem.wf = true from
    this _ _ h
  intro l
  induction l with
  | nil => exact fun k h => h
  | cons w l ih => exact fun k h => ih _ (by rw [Core.mem_performOwn]; exact Mem.wf_write _ _ h)
theorem State.MemOk.drain {s : State} (h : s.MemOk) (c : Nat) : (s.drain c).MemOk := h.onCore c _ (Core.wf_drain _ _ _ (h.2 c))
/-- A change of one core whose bytes become a write of it. -/
theorem State.onCore_write_spec {s : State} (h : s.MemOk) (c o : Nat) (bs : List Byte) (f : Core → Core) (hf : ∀ k, (f k).mem = k.mem.write o bs) :
    (s.onCore c f).Holds c o bs ∧ s.SameOutside (s.onCore c f) c o bs.length := by
  refine ⟨fun i hi => ?_, fun a => by simp, fun d a hda => ?_⟩
  · rw [State.coreAt_onCore, if_pos rfl, hf, Mem.get_write _ _ _ (h.2 c), if_pos (by omega), Nat.add_sub_cancel_left]
  · rw [State.coreAt_onCore]
    by_cases hd : d = c
    · subst hd; rw [if_pos rfl, hf, Mem.get_write _ _ _ (h.2 d), if_neg (by tauto)]
    · rw [if_neg hd]
/-- A write to a core's scratchpad puts its bytes there and leaves every other byte. -/
theorem State.scrWrite_spec {s : State} (h : s.MemOk) (c o : Nat) (bs : List Byte) (x : Half) :
    (s.scrWrite c o bs x).Holds c o bs ∧ s.SameOutside (s.scrWrite c o bs x) c o bs.length :=
  State.onCore_write_spec h c o bs _ fun k => by rw [Core.mem_writeBytes, Core.mem_busy]
/-- So does one that the core's private port has yet to see (R234). -/
theorem State.extWrite_spec {s : State} (h : s.MemOk) (c o : Nat) (bs : List Byte) (x : Half) (rows : Bool) :
    (s.extWrite c o bs x rows).Holds c o bs ∧ s.SameOutside (s.extWrite c o bs x rows) c o bs.length :=
  State.onCore_write_spec h c o bs _ fun _ => by dsimp only; rw [Core.mem_writeBytes, Core.mem_busy]

/-! ## Squashes (R230) -/

@[simp] theorem Core.mem_squash (k : Core) : k.squash.mem = k.mem := by unfold Core.squash; dsimp only; cases k.fir.chunk.snap <;> rfl
/-- A fold of steps of the state keeps what every step keeps. -/
theorem State.foldl_keeps {α : Type} (P : State → Prop) (l : List α) (f : State → α → State) (hf : ∀ s a, P s → P (f s a)) (s : State) (h : P s) : P (l.foldl f s) := by
  induction l generalizing s with
  | nil => exact h
  | cons a l ih => exact ih _ (hf s a h)
theorem State.foldl_mem {α : Type} (l : List α) (f : State → α → State)
    (hf : ∀ s a, (f s a).gmem = s.gmem ∧ ∀ c, ((f s a).coreAt c).mem = (s.coreAt c).mem) (s : State) :
    (l.foldl f s).gmem = s.gmem ∧ ∀ c, ((l.foldl f s).coreAt c).mem = (s.coreAt c).mem := by
  induction l generalizing s with
  | nil => exact ⟨rfl, fun _ => rfl⟩
  | cons a l ih =>
    have h1 := hf s a
    have h2 := ih (f s a)
    exact ⟨h2.1.trans h1.1, fun c => (h2.2 c).trans (h1.2 c)⟩
/-- Filling free records changes no byte. -/
theorem Core.mem_refill (k : Core) (c : Nat) (cy : DWord) (n : Nat) : (Core.refill c cy n k).mem = k.mem := by
  induction n generalizing k with
  | zero => rfl
  | succ n ih =>
    unfold Core.refill
    split
    · rfl
    · split
      · rfl
      · exact ih _
/-- What waits for a record of a core takes one, and changes no byte. -/
theorem State.mem_enqueue (s : State) (c : Nat) (w : Waiter) :
    (s.enqueue c w).gmem = s.gmem ∧ ∀ d, ((s.enqueue c w).coreAt d).mem = (s.coreAt d).mem := by
  have on (s : State) (f : Core → Core) (hf : ∀ k, (f k).mem = k.mem) :
      (s.onCore c f).gmem = s.gmem ∧ ∀ d, ((s.onCore c f).coreAt d).mem = (s.coreAt d).mem := by
    refine ⟨by simp, fun d => ?_⟩
    rw [State.coreAt_onCore]
    split
    · rename_i h; subst h; exact hf _
    · rfl
  have h1 := on s (fun k => { k with waiting := k.waiting ++ [w] }) fun _ => rfl
  have h2 (t : State) := on t (Core.refill c t.cycle 32) fun k => Core.mem_refill k c t.cycle 32
  exact ⟨(h2 _).1.trans h1.1, fun d => ((h2 _).2 d).trans (h1.2 d)⟩
theorem State.mem_actors (s : State) (c : Nat) : (s.actors c).gmem = s.gmem ∧ ∀ d, ((s.actors c).coreAt d).mem = (s.coreAt d).mem := by
  unfold State.actors
  refine State.foldl_mem _ _ (fun s e => ?_) s
  dsimp only
  split
  · split
    · exact ⟨rfl, fun _ => rfl⟩
    · split
      · exact s.mem_enqueue c _
      · exact ⟨rfl, fun _ => rfl⟩
  · exact ⟨rfl, fun _ => rfl⟩
/-- Evaluating the actors at a channel's ends changes no byte. -/
theorem State.mem_touch (s : State) (ch : BitVec 15) : (s.touch ch).gmem = s.gmem ∧ ∀ d, ((s.touch ch).coreAt d).mem = (s.coreAt d).mem := by
  unfold State.touch
  split
  · exact ⟨rfl, fun _ => rfl⟩
  · rename_i k _
    have h1 := s.mem_actors (ofCoord k.producer)
    have h2 := (s.actors (ofCoord k.producer)).mem_actors (ofCoord k.consumer)
    exact ⟨h2.1.trans h1.1, fun d => (h2.2 d).trans (h1.2 d)⟩
/-- A squash changes no byte of memory. -/
theorem State.mem_squashMeeting (s : State) (t : Nat) (w : Vec) (e : Option Nat) :
    (s.squashMeeting t w e).gmem = s.gmem ∧ ∀ c, ((s.squashMeeting t w e).coreAt c).mem = (s.coreAt c).mem := by
  unfold State.squashMeeting
  refine State.foldl_mem _ _ (fun s c => ?_) s
  dsimp only
  split
  · have h := State.foldl_mem (s.coreAt c).spills State.touch State.mem_touch (s.onCore c Core.squash)
    refine ⟨by simpa using h.1, fun d => (h.2 d).trans ?_⟩
    rw [State.coreAt_onCore]
    split
    · rename_i h; subst h; simp
    · rfl
  · exact ⟨rfl, fun _ => rfl⟩
/-- A single-write chunk of an agent keeps the canonical form, writes exactly its bytes and leaves every other byte (R227). -/
theorem State.MemOk.squashMeeting {s : State} (h : s.MemOk) (t : Nat) (w : Vec) (e : Option Nat) : (s.squashMeeting t w e).MemOk :=
  h.congr (s.mem_squashMeeting t w e).1 (s.mem_squashMeeting t w e).2
/-- A grant of an agent's step changes no byte (R230). -/
theorem State.mem_agentGrant (s : State) (c : Nat) (w : Vec) :
    (s.agentGrant c w).gmem = s.gmem ∧ ∀ d, ((s.agentGrant c w).coreAt d).mem = (s.coreAt d).mem := s.mem_squashMeeting (tileOf c) w none
theorem State.MemOk.agentGrant {s : State} (h : s.MemOk) (c : Nat) (w : Vec) : (s.agentGrant c w).MemOk := h.squashMeeting _ _ _
theorem State.MemOk.agentWrite {s : State} (h : s.MemOk) (c o : Nat) (bs : List Byte) (x : Half) : (s.agentWrite c o bs x).MemOk :=
  (h.agentGrant _ _).extWrite c o bs x false
theorem State.agentWrite_spec {s : State} (h : s.MemOk) (c o : Nat) (bs : List Byte) (x : Half) :
    (s.agentWrite c o bs x).Holds c o bs ∧ s.SameOutside (s.agentWrite c o bs x) c o bs.length := by
  have hm := s.mem_agentGrant c (sigRange (globalEA c o) bs.length)
  have hw := State.extWrite_spec (h.agentGrant c (sigRange (globalEA c o) bs.length)) c o bs x false
  exact ⟨hw.1, fun a => by rw [← hm.1]; exact hw.2.1 a, fun d a hd => by rw [← hm.2 d]; exact hw.2.2 d a hd⟩

/-! ## Global memory -/

/-- A write of global memory at its streamer puts its bytes there and leaves every other byte. -/
theorem State.gset_spec {s : State} (h : s.MemOk) (k : Nat) (bs : List Byte) :
    (∀ i, i < bs.length → (s.gset k bs).gmem.get (k + i) = bs.getD i 0) ∧ s.SameGlobalOutside (s.gset k bs) k bs.length :=
  ⟨fun i hi => by simp only [State.gset]; rw [Mem.get_write _ _ _ h.1, if_pos (by omega), Nat.add_sub_cancel_left],
   fun a ha => by simp only [State.gset]; rw [Mem.get_write _ _ _ h.1, if_neg ha], fun c a => rfl⟩
/-- A field of a control block reads what was written to it, modulo its size. -/
theorem State.qget_qput_self {s : State} (h : s.MemOk) (q o n v : Nat) : (s.qput q o n v).qget q o n = v % 256 ^ n := by
  have h1 := Mem.read_write_self (m := s.gmem) (s.qcb q + o) (leBytes n v) h.1
  rw [length_leBytes] at h1
  have h2 : (s.qput q o n v).qget q o n = ofBytes ((s.gmem.write (s.qcb q + o) (leBytes n v)).read (s.qcb q + o) n) := rfl
  rw [h2, h1, ofBytes_leBytes]
/-- A field of a control block is as before when what was written lies elsewhere. -/
theorem State.qget_gset_other {s : State} (h : s.MemOk) (q o n k : Nat) (bs : List Byte) (hd : s.qcb q + o + n ≤ k ∨ k + bs.length ≤ s.qcb q + o) :
    (s.gset k bs).qget q o n = s.qget q o n := by
  have h2 : (s.gset k bs).qget q o n = ofBytes ((s.gmem.write k bs).read (s.qcb q + o) n) := rfl
  rw [h2, Mem.read_write_other k _ n bs h.1 hd]; rfl
/-- A fence counter after an increment of it (R284). -/
theorem State.fence_fenceAdd {s : State} (h : s.MemOk) (f n : Nat) : (s.fenceAdd f n).fence f = (s.fence f + n) % 2 ^ 64 := by
  have h1 := Mem.read_write_self (m := s.gmem) (s.fcb f) (leBytes 8 ((s.fence f + n) % 2 ^ 64)) h.1
  rw [length_leBytes] at h1
  have h2 : (s.fenceAdd f n).fence f = ofBytes ((s.gmem.write (s.fcb f) (leBytes 8 ((s.fence f + n) % 2 ^ 64))).read (s.fcb f) 8) := rfl
  rw [h2, h1, ofBytes_leBytes]
  omega

/-! ## Coordinates (R17) -/

theorem coord_fields (p : Byte) (y : BitVec 6) (x : BitVec 7) :
    (p ++ y ++ x : BitVec 21).extractLsb' 0 7 = x ∧ (p ++ y ++ x : BitVec 21).extractLsb' 7 6 = y ∧ (p ++ y ++ x : BitVec 21).extractLsb' 13 8 = p := by
  refine ⟨?_, ?_, ?_⟩ <;> apply BitVec.eq_of_getLsbD_eq <;> intro i hi <;> rw [BitVec.getLsbD_extractLsb', BitVec.getLsbD_append]
  · simp [hi]
  · rw [BitVec.getLsbD_append]
    simp [hi]
  · rw [BitVec.getLsbD_append]
    have h1 : ¬ 13 + i < 7 := by omega
    have h2 : ¬ 13 + i - 7 < 6 := by omega
    have h3 : 13 + i - 7 - 6 = i := by omega
    simp [hi, h1, h2, h3]
/-- The coordinate of a core of this package names that core. -/
theorem ofCoord_coord {c : Nat} (h : c < 8192) : ofCoord (coord c) = c ∧ isLocal (coord c) = true := by
  have := coord_fields Config.package (BitVec.ofNat 6 (cy c)) (BitVec.ofNat 7 (cx c))
  unfold coord ofCoord isLocal
  rw [this.1, this.2.1, this.2.2]
  simp [BitVec.toNat_ofNat, cx, cy]
  omega

end Sys2Proof.Machine
end

