-- ==== Sys2Proof/Laws/Ops.lean ====
section
/-! SUPPORT. What each shared operation of the machine can do, said once: completing an instruction, ending a chunk, waiting, trapping,
returning from a trap, and the reads of registers after writes of them. -/

namespace Sys2Proof.Machine

/-! ## Register files (R14) -/

/-- A scalar after a write of a scalar; s0 stays 0. -/
theorem Regs.getS_setS (r : Regs) (i j : Reg) (v : Word) : (r.setS i v).getS j = if j = 0 then 0 else if j = i then v else r.getS j := by
  by_cases hj : j = 0
  · rw [if_pos hj, Regs.getS, if_pos hj]
  · rw [if_neg hj]
    by_cases hi : i = 0
    · rw [if_neg (fun h => hj (h.trans hi)), Regs.setS, if_pos hi]
    · rw [Regs.setS, if_neg hi, Regs.getS, Regs.getS, if_neg hj, if_neg hj]
      by_cases hji : j = i
      · subst hji; rw [if_pos rfl]; exact Vector.getElem_set_self (by omega)
      · rw [if_neg hji]; exact Vector.getElem_set_ne (by omega) (by omega) fun h => hji (BitVec.eq_of_toNat_eq h.symm)
/-- A mask after a write of a mask; m0 stays all ones. -/
theorem Regs.getM_setM (r : Regs) (i j : MReg) (v : DWord) : (r.setM i v).getM j = if j = 0 then BitVec.allOnes 64 else if j = i then v else r.getM j := by
  by_cases hj : j = 0
  · rw [if_pos hj, Regs.getM, if_pos hj]
  · rw [if_neg hj]
    by_cases hi : i = 0
    · rw [if_neg (fun h => hj (h.trans hi)), Regs.setM, if_pos hi]
    · rw [Regs.setM, if_neg hi, Regs.getM, Regs.getM, if_neg hj, if_neg hj]
      by_cases hji : j = i
      · subst hji; rw [if_pos rfl]; exact Vector.getElem_set_self (by omega)
      · rw [if_neg hji]; exact Vector.getElem_set_ne (by omega) (by omega) fun h => hji (BitVec.eq_of_toNat_eq h.symm)
/-- A write of a scalar leaves the masks, the payload, the indices, the loops and the pc. -/
@[simp] theorem Regs.setS_m (r : Regs) (i : Reg) (v : Word) : (r.setS i v).m = r.m := by unfold Regs.setS; split <;> rfl
@[simp] theorem Regs.setS_j (r : Regs) (i : Reg) (v : Word) : (r.setS i v).j = r.j := by unfold Regs.setS; split <;> rfl
@[simp] theorem Regs.setS_ext (r : Regs) (i : Reg) (v : Word) : (r.setS i v).ext = r.ext := by unfold Regs.setS; split <;> rfl
@[simp] theorem Regs.setS_l0 (r : Regs) (i : Reg) (v : Word) : (r.setS i v).l0 = r.l0 := by unfold Regs.setS; split <;> rfl
@[simp] theorem Regs.setS_l1 (r : Regs) (i : Reg) (v : Word) : (r.setS i v).l1 = r.l1 := by unfold Regs.setS; split <;> rfl
@[simp] theorem Regs.setS_v0 (r : Regs) (i : Reg) (v : Word) : (r.setS i v).v0 = r.v0 := by unfold Regs.setS; split <;> rfl
@[simp] theorem Regs.setS_pc (r : Regs) (i : Reg) (v : Word) : (r.setS i v).pc = r.pc := by unfold Regs.setS; split <;> rfl
/-- A write of a pair is the writes of its two scalars, or none. -/
theorem Regs.setD_eq (r : Regs) (p : Pair) (v : DWord) : r.setD p v = if p = 0 then r else (r.setS (pairLo p) (lo32 v)).setS (pairHi p) (hi32 v) := rfl

/-! ## Completing an instruction (R26, R55, R69–R71) -/

/-- With no level open, advancing moves the pc past the instruction and changes nothing else. -/
theorem Regs.advance_of_no_loop (r : Regs) (n : Nat) (h0 : r.l0.on = false) (h1 : r.l1.on = false) :
    r.advance n = { r with pc := r.pc + BitVec.ofNat 32 (4 * n) } := by simp [Regs.advance, Level.holds, h0, h1]
/-- Advancing leaves the masks, the payload, the indices and the extents. -/
theorem Regs.advance_rest (r : Regs) (n : Nat) : (r.advance n).m = r.m ∧ (r.advance n).v0 = r.v0 ∧ (r.advance n).j = r.j ∧ (r.advance n).ext = r.ext := by
  unfold Regs.advance Regs.end0 Regs.end1
  dsimp only
  split_ifs <;> simp

/-- The 512th instruction ends the chunk, any other leaves the state. -/
theorem State.full_cases (s : State) : s.full = if 512 ≤ s.chunk.count then s.endChunk .run else s := rfl
/-- Ending a chunk sets the status and adds a request to the tile's arbiter: nothing else. -/
theorem State.endChunk_spec (s : State) (a : After) : s.endChunk a = { s with
    core := { s.core with status := .ending a }
    tiles := vset s.tiles s.tile { s.tileAt s.tile with reqs := (s.tileAt s.tile).reqs ++ [(localOf s.cur, s.cycle)] } } := rfl
@[simp] theorem State.endChunk_fir (s : State) (a : After) : (s.endChunk a).fir = s.fir := rfl
@[simp] theorem State.endChunk_ctx (s : State) (a : After) : (s.endChunk a).ctx = s.ctx := rfl
@[simp] theorem State.endChunk_regs (s : State) (a : After) : (s.endChunk a).regs = s.regs := rfl
@[simp] theorem State.endChunk_prog (s : State) (a : After) : (s.endChunk a).prog = s.prog := rfl
@[simp] theorem State.endChunk_chunk (s : State) (a : After) : (s.endChunk a).chunk = s.chunk := rfl
@[simp] theorem State.endChunk_cur (s : State) (a : After) : (s.endChunk a).cur = s.cur := rfl
@[simp] theorem State.endChunk_others (s : State) (a : After) : (s.endChunk a).others = s.others := rfl
@[simp] theorem State.endChunk_mem (s : State) (a : After) : (s.endChunk a).core.mem = s.core.mem := rfl
@[simp] theorem State.endChunk_gmem (s : State) (a : After) : (s.endChunk a).gmem = s.gmem := rfl
@[simp] theorem State.endChunk_status (s : State) (a : After) : (s.endChunk a).core.status = .ending a := rfl
/-- Completing an instruction: its registers advance, its chunk counts it; what the context, the engines and the memories hold stays. -/
theorem State.retire_spec (s : State) (n : Nat) :
    (s.retire n).regs = s.regs.advance n ∧ (s.retire n).chunk = { s.chunk with count := s.chunk.count + 1 } ∧ (s.retire n).ctx = s.ctx
      ∧ (s.retire n).gmem = s.gmem ∧ (s.retire n).core.mem = s.core.mem ∧ (s.retire n).cur = s.cur ∧ (s.retire n).others = s.others
      ∧ (s.retire n).core.status = if 511 ≤ s.chunk.count then .ending .run else s.core.status := by
  unfold State.retire
  rw [State.full_cases]
  have hm : ((s.advance n).counted).core.mem = s.core.mem ∧ ((s.advance n).counted).core.status = s.core.status := ⟨rfl, rfl⟩
  have hc : ((s.advance n).counted).chunk.count = s.chunk.count + 1 := by simp
  by_cases h : 511 ≤ s.chunk.count
  · rw [if_pos (by omega), if_pos h]; simp [hm]
  · rw [if_neg (by omega), if_neg h]; simp [hm]
/-- Completing an instruction changes no byte of memory. -/
theorem State.retire_sameMemory (s : State) (n : Nat) : s.SameMemory (s.retire n) := by
  have h := s.retire_spec n
  refine ⟨fun a => by rw [h.2.2.2.1], fun c a => ?_⟩
  by_cases hc : c = s.cur
  · subst hc; rw [show (s.retire n).coreAt s.cur = (s.retire n).core by rw [← h.2.2.2.2.2.1]; simp, h.2.2.2.2.1, State.coreAt_cur]
  · rw [State.coreAt_of_others h.2.2.2.2.2.1 h.2.2.2.2.2.2.1 hc]

/-! ## Waiting and trapping (R31, R55, R265, R269) -/

/-- A form that waits ends its chunk first, when it has one. -/
theorem State.waitOn_cases (s : State) (w : WaitFor) : s.waitOn w = if s.chunkEmpty then s.setStatus (.waiting w) else s.endChunk (.wait w) := rfl
theorem State.blocking_cases (s : State) (k : State → State) : s.blocking k = if s.chunkEmpty then k s else s.endChunk .run := rfl
/-- A precise trap is entered at once at the head of a chunk, else after the chunk's commit. -/
theorem State.trap_cases (s : State) (c : Byte) (lo hi : Word) :
    s.trap c lo hi = if s.chunkEmpty then s.enterTrap c lo hi false else s.endChunk (.trap c lo hi false) := rfl
/-- Without a handler, or inside one, a trap kills the context. -/
theorem State.enterTrap_kills (s : State) (c : Byte) (lo hi : Word) (d : Bool) (h : s.fir.inTrap = true ∨ s.prog.tvec &&& 0xFFFFFC = 0) :
    s.enterTrap c lo hi d = s.kill c := by unfold State.enterTrap; rw [if_pos h]
/-- Returning from a trap brings s56–s63 back, clears in-trap and goes to the pc given; nothing else changes. -/
theorem State.leaveTrap_spec (s : State) (pc : Word) :
    (s.leaveTrap pc).fir.inTrap = false ∧ (s.leaveTrap pc).pc = pc ∧ (s.leaveTrap pc).ctx = s.ctx ∧ (s.leaveTrap pc).gmem = s.gmem
      ∧ (s.leaveTrap pc).core.mem = s.core.mem ∧ (s.leaveTrap pc).tiles = s.tiles ∧ (s.leaveTrap pc).core.status = s.core.status := by
  simp [State.leaveTrap]

/-! ## Requests in flight -/

/-- Sending adds one step in flight. -/
theorem State.send_agenda (s : State) (e : Ev) : (s.send e).agenda = s.agenda ++ [e] := rfl
theorem State.sendAll_agenda (s : State) (es : List Ev) : (s.sendAll es).agenda = s.agenda ++ es := rfl
end Sys2Proof.Machine
end

