-- ==== Sys2Proof/Tests/Slice0.lean ====
section
/-! SUPPORT. The model's own tests: words written out from the spec's encodings, the checks of well-formedness, states that meet the hypotheses
of each statement (the witnesses, clause by clause), and results from the spec's tables and worked numbers. -/

namespace Sys2Proof.Tests
set_option Elab.async false
open Sys2Proof Sys2Proof.Machine

/-! ## Decoding -/

/-- Each word sequence decodes to its instruction, whatever follows, and is its encoding. -/
def decodesTo (l : List (Instr × List Word)) : Bool :=
  l.all fun p => decide (decodeWords (p.2 ++ [0xFFFFFFFF]) = .ok p.1 p.2.length ∧ encode p.1 = p.2 ∧ p.1.wf = true)

/-- Words composed by hand from R49, R58, one for each constructor of the group. -/
theorem test_decode_int : decodesTo [
    (.add 14 3 35, [0x04E0E300]),
    (.sub 31 28 17, [0x05F71101]),
    (.and 13 11 54, [0x04D2F602]),
    (.or 4 3 11, [0x0440CB03]),
    (.xor 27 29 3, [0x05B74304]),
    (.andn 25 53 28, [0x059D5C05]),
    (.shl 57 35 0, [0x0798C006]),
    (.shr 20 54 43, [0x054DAB07]),
    (.sra 35 19 27, [0x0634DB08]),
    (.ror 43 13 11, [0x06B34B09]),
    (.min 48 12 45, [0x07032D0A]),
    (.max 44 33 5, [0x06C8450B]),
    (.minn 58 15 48, [0x07A3F00C]),
    (.maxn 10 37 46, [0x04A96E0D]),
    (.slt 24 8 5, [0x0582050E]),
    (.sltn 29 37 10, [0x05D94A0F]),
    (.seq 29 12 48, [0x05D33010]),
    (.sne 35 58 46, [0x063EAE11]),
    (.mul 20 47 45, [0x054BED12]),
    (.mulh 26 34 9, [0x05A88913]),
    (.mulhn 21 31 20, [0x0557D414]),
    (.div 59 48 34, [0x07BC2215]),
    (.divn 28 41 7, [0x05CA4716]),
    (.rem 29 4 40, [0x05D12817]),
    (.remn 51 34 8, [0x07388818]),
    (.clz 27 40, [0x05BA0019]),
    (.ctz 27 63, [0x05BFC01A]),
    (.popc 50 58, [0x072E801B]),
    (.brev 18 33, [0x0528401C]),
    (.sextb 17 31, [0x0517C01D]),
    (.sexth 33 54, [0x061D801E]),
    (.zextb 51 46, [0x073B801F]),
    (.zexth 28 17, [0x05C44020]),
    (.bfx 63 11 6, [0x07F2C621]),
    (.bfi 14 19 20, [0x04E4D422])] = true := by decide +kernel

/-- Words composed by hand from R50, R61, R62, one for each constructor of the group. -/
theorem test_decode_pair_misc : decodesTo [
    (.dadd 27 4 24, [0x09B11800]),
    (.dsub 24 29 16, [0x09875001]),
    (.dand 0 7 17, [0x0801D102]),
    (.dshl 21 7 18, [0x0951D203]),
    (.dshr 27 10 29, [0x09B29D04]),
    (.dsra 0 16 11, [0x08040B05]),
    (.dslt 6 19 12, [0x0864CC06]),
    (.dsltn 9 23 10, [0x0895CA07]),
    (.dmul 0 20 31, [0x08051F08]),
    (.rdcyc 1, [0x0C100000]),
    (.rdid 14, [0x0CE00001]),
    (.mvsm 5 19, [0x0C54C002]),
    (.mvms 15 0, [0x0CF00003]),
    (.rand 30, [0x0DE00004])] = true := by decide +kernel

/-- Words composed by hand from R40, R42, R64, one for each constructor of the group. -/
theorem test_decode_immediate : decodesTo [
    (.addi 10 10 15924, [0x10A2BE34]),
    (.andi 8 16 4207, [0x1484106F]),
    (.ori 60 21 8685, [0x1BC561ED]),
    (.xori 54 27 6591, [0x1F66D9BF]),
    (.slti 39 51 12236, [0x267CEFCC]),
    (.sltni 56 57 3965, [0x2B8E4F7D]),
    (.muli 31 28 2098, [0x39F70832]),
    (.daddi 21 1 7540, [0x2D505D74]),
    (.shli 28 0 4, [0x21C00004]),
    (.shri 7 29 4, [0x20775004]),
    (.srai 4 42 4, [0x204AA004]),
    (.lui 30 584009, [0x31E8E949]),
    (.li 62 449287, [0x37E6DB07])] = true := by decide +kernel

/-- Words composed by hand from R40, R50, R66–R75, one for each constructor of the group. -/
theorem test_decode_control : decodesTo [
    (.beq 16 60 7962, [0x410F1F1A]),
    (.bne 60 52 6239, [0x47CD185F]),
    (.blt 12 12 14124, [0x48C3372C]),
    (.bge 45 54 13470, [0x4EDDB49E]),
    (.bltn 59 6 3224, [0x53B18C98]),
    (.bgen 7 51 11118, [0x547CEB6E]),
    (.bz 13 521470, [0x58D7F4FE]),
    (.bnz 24 398896, [0x5D861630]),
    (.j 60211891, [0x6396C2B3]),
    (.jal 18814949, [0x651F17E5]),
    (.jr 54, [0x680D8000]),
    (.jalr 23 35, [0x6978C001]),
    (.loop 59 31 9 226, [0x6FB7C9E2]),
    (.nstclm 12 3, [0x70C0C000]),
    (.nstnxt 1, [0x70100001])] = true := by decide +kernel

/-- Words composed by hand from R43–R45, R78, one for each constructor of the group. -/
theorem test_decode_memory : decodesTo [
    (.ldb 11 15 5580474 (some ⟨true, 27⟩), [0x80B78000, 0x5526BADB]),
    (.ldbn 51 3 5524305 (some ⟨true, 33⟩), [0x83318001, 0x544B51E1]),
    (.ldh 58 18 14193775 (some ⟨true, 19⟩), [0x83A91002, 0xD8946FD3]),
    (.ldhn 24 18 7304829 (some ⟨false, 40⟩), [0x81891003, 0x6F767DA8]),
    (.ldw 7 3 15998367 (some ⟨false, 7⟩), [0x8071A004, 0xF41D9F87]),
    (.ldd 5 11 2299194 (some ⟨false, 51⟩), [0x80A5B005, 0x23153AB3]),
    (.stb 15 15 1333508 (some ⟨true, 40⟩), [0x84F78000, 0x145904E8]),
    (.sth 33 13 10542261 none, [0x86169001, 0xA0DCB500]),
    (.stw 50 8 10066231 (some ⟨false, 1⟩), [0x87242002, 0x99993781]),
    (.std 29 6 2458221 (some ⟨true, 16⟩), [0x87A33003, 0x25826DD0]),
    (.vld 44 4 8196824 5 none, [0x8AC26050, 0x7D12D800]),
    (.vst 56 19 262499 4 (some ⟨false, 17⟩), [0x8B89E041, 0x04016391]),
    (.vldbc 33 0 6 5215966 4 none, [0x8A130042, 0x4F96DE00]),
    (.vgath 26 true 13 8857829 7 32, [0x89A6B073, 0x8728E520]),
    (.vscat 6 false 27 9283847 0 0, [0x886DA004, 0x8DA90700])] = true := by decide +kernel

/-- Words composed by hand from R43–R45, R51, R52, one for each constructor of the group. -/
theorem test_decode_message : decodesTo [
    (.amoAdd ⟨32, true, 10, 14825539, true, (some 3)⟩, [0x8E053000, 0xE238438E]),
    (.amoAnd ⟨19, false, 2, 12388832, false, (some 1)⟩, [0x8D312001, 0xBD09E084]),
    (.amoOr ⟨4, true, 22, 7048998, false, (some 11)⟩, [0x8C4B3002, 0x6B8F26AC]),
    (.amoXor ⟨30, true, 10, 5940891, true, none⟩, [0x8DE53003, 0x5AA69B02]),
    (.amoMin ⟨30, true, 17, 5341793, false, (some 1)⟩, [0x8DE8B004, 0x51826184]),
    (.amoMax ⟨24, true, 29, 11732589, true, (some 7)⟩, [0x8D8EB005, 0xB3066D9E]),
    (.amoMinn ⟨3, false, 12, 13370299, true, none⟩, [0x8C362006, 0xCC03BB02]),
    (.amoMaxn ⟨35, false, 22, 13410981, true, (some 3)⟩, [0x8E3B2007, 0xCCA2A58E]),
    (.amoSwap ⟨32, true, 2, 3637385, true, (some 10)⟩, [0x8E013008, 0x378089AA]),
    (.amoCas ⟨48, true, 12, 8547069, false, (some 0)⟩, [0x8F063009, 0x826AFD80]),
    (.amoFadd ⟨46, false, 27, 2347931, true, (some 3)⟩, [0x8EEDA00A, 0x23D39B8E]),
    (.depos 38 19 13703392 41 (some 9), [0x9A698029, 0xD118E0A4]),
    (.send 16 24 13 48 false true, [0x91061B82]),
    (.reply 51 17 0 true, [0x97302202]),
    (.done, [0x94004000]),
    (.kend, [0x94014000]),
    (.vdone, [0x94018000]),
    (.stepmk, [0x94024000]),
    (.launch 18, [0x95208000]),
    (.clsmask 6, [0x9400CC00]),
    (.clsunm 13, [0x94011A00]),
    (.terdem 41, [0x9691C000]),
    (.termap 29, [0x95D20000]),
    (.hpost 56, [0x97828000]),
    (.binit 113 27 60, [0x9DBF0388]),
    (.barr 43, [0x9C000558]),
    (.barrx 21 36, [0x9E4008A8]),
    (.baddb 85 11, [0x9CB00EA8]),
    (.bwait 60 39, [0x9E7011E0]),
    (.bstat 57 25, [0x9D9015C8])] = true := by decide +kernel

/-- Words composed by hand from R50, one for each constructor of the group. -/
theorem test_decode_queue : decodesTo [
    (.qrd 18 0, [0xA1200000]),
    (.qrdv 5 5, [0xA0514002]),
    (.qstat 60 11, [0xA3C2C004]),
    (.qwr 11 9, [0xA0B24001]),
    (.qwrv 14 53, [0xA0ED4003]),
    (.chbind 13 24 true, [0xA4D60100]),
    (.chunb 11, [0xA4B00001]),
    (.cheos 10, [0xA4A00002]),
    (.chgrow 7 18, [0xA4748003]),
    (.chstat 0 14, [0xA4038004]),
    (.slclm 13, [0xA8000D00]),
    (.slrel 54, [0xA8003601]),
    (.slstat 28, [0xA9C00002]),
    (.xidrd 22 3, [0xAD600300]),
    (.xidwt 6 1, [0xAC018101])] = true := by decide +kernel

/-- Words composed by hand from R40, R50, one for each constructor of the group. -/
theorem test_decode_system : decodesTo [
    (.csrr 15 3739, [0xB0F00E9B]),
    (.csrw 17 59 2599, [0xB11EDA27]),
    (.csrs 56 54 3652, [0xB38DAE44]),
    (.csrc 20 60 3686, [0xB14F3E66]),
    (.chunk, [0xB4000000]),
    (.fenceD, [0xB4000001]),
    (.fenceS, [0xB4000002]),
    (.lbsync, [0xB4000003]),
    (.psync 16 31, [0xB4041F04]),
    (.trap 35, [0xB8002300]),
    (.brk 62, [0xB8003E02]),
    (.tret false, [0xB8000001]),
    (.prioff, [0xB8000003]),
    (.prion, [0xB8000004]),
    (.ctxsav 17, [0xB8044005]),
    (.ctxrst 28, [0xB8070006]),
    (.fwcall 9 18 30, [0xB8949E07])] = true := by decide +kernel

/-- Words composed by hand from R53, one for each constructor of the group. -/
theorem test_decode_vector : decodesTo [
    (.vadd 34 42 40 1 .f32, [0xC22AA828]),
    (.vsub 19 29 49 2 .bf16, [0xC137714D]),
    (.vmin 8 53 52 5 .i8, [0xC08D74BE]),
    (.vmax 53 7 26 6 .i16, [0xC351DADB]),
    (.vmul 2 48 61 0 .f64, [0xC42C3D14]),
    (.vmulh 38 49 53 3 .i8, [0xC66C757D]),
    (.vfma 28 34 55 7 .f32, [0xC9C8B7E8]),
    (.vfms 49 43 51 2 .f64, [0xCB1AF355]),
    (.vfnma 16 3 50 0 .f32, [0xC900F20A]),
    (.vfnms 54 17 59 2 .f32, [0xCB647B4B]),
    (.vand 33 48 41 3 .i8, [0xCE1C297C]),
    (.vor 41 43 48 4 .i16, [0xCE9AF099]),
    (.vxor 32 10 60 0 .i32, [0xCE02BC02]),
    (.vandn 44 28 8 0 .i32, [0xCEC70803]),
    (.vshl 31 25 2 2 .n32, [0xD1F64244]),
    (.vshr 16 60 14 3 .i8, [0xD10F0E7D]),
    (.vsra 32 47 21 1 .n32, [0xD20BD526]),
    (.vror 39 13 3 4 .i8, [0xD273439F]),
    (.vdiv 50 25 9 3 .f32, [0xDB264968]),
    (.vsel 38 15 5 5 .i16, [0xE663C5BB]),
    (.vperm 47 8 43 0 .i16, [0xEAF22B18]),
    (.vslu 62 13 55 5 .i8, [0xEBE377BD]),
    (.vsld 19 55 22 4 .i8, [0xE93DD69E]),
    (.vbcl 59 55 34 5 .bf16, [0xEBBDE2AF]),
    (.vceq 1 35 57 3 .i8, [0xD418F97C]),
    (.vcne 6 43 3 7 .f64, [0xD46AC3F5]),
    (.vclt 2 62 27 5 .f16, [0xD42F9BB2]),
    (.vcle 5 35 35 0 .bf16, [0xD458E30F]),
    (.vabs 10 30 6 .f16, [0xC4A780D2]),
    (.vneg 30 60 7 .f16, [0xC5EF00F3]),
    (.vsqrt 2 11 4 .bf16, [0xD822C08D]),
    (.vrcp 51 31 4 .f16, [0xDB37C092]),
    (.vrsq 60 44 6 .f16, [0xDBCB00D3]),
    (.vamax 45 58 4 .f16, [0xDEDE8093]),
    (.vrsum 32 29 1 .bf16, [0xE207402C]),
    (.vrmax 40 15 2 .bf16, [0xE283C04D]),
    (.vrmin 27 61 4 .f16, [0xE1BF4092]),
    (.vramax 12 24 4 .f32, [0xE0C6008B]),
    (.vcvt 46 22 .i16 4 .i32, [0xDEE58680]),
    (.vqnt 16 35 1 0, [0xDD08C109]),
    (.vdqnt 37 16 1 7, [0xDE5401EA]),
    (.vsplat 36 60 7 .i32, [0xE64F00E0]),
    (.vext 43 23 6 .i8, [0xE6B5C61D]),
    (.vins 61 14 8 6 .f16, [0xE7D388D2]),
    (.mand 7 1 0, [0xEC704000]),
    (.mor 2 2 4, [0xEC208401]),
    (.mxor 1 3 1, [0xEC10C102]),
    (.mpop 53 3, [0xEF50C003])] = true := by decide +kernel

/-- Words composed by hand from R46, R47, one for each constructor of the group. -/
theorem test_decode_tile : decodesTo [
    (.mld 12 14 true 7910514230799020112 3275930923, [0xF8000000, 0x000001EC, 0xFD72B050, 0x6DC7CAC7, 0xC342BD2B, 0x00000000, 0x00000000, 0x00000000]),
    (.mma 3 8 2 1286 1964, [0xF8010000, 0x05060283, 0x000007AC, 0x00000000, 0x00000000, 0x00000000, 0x00000000, 0x00000000]),
    (.mzero 2, [0xF8020000, 0x00000002, 0x00000000, 0x00000000, 0x00000000, 0x00000000, 0x00000000, 0x00000000]),
    (.mst 1 49358426262898074 2550399650, [0xF8030000, 0x00000001, 0x2812859A, 0x00AF5B3A, 0x980402A2, 0x00000000, 0x00000000, 0x00000000]),
    (.mqnt 4 1 1 13041033334950542823 59510 9329 17223143203458040634, [0xF8040000, 0x00000114, 0x49C13DE7, 0xB4FB0EB9, 0x2471E876, 0xCDCCC33A, 0xEF04E57D, 0x00000000]),
    (.mamax 6 1, [0xF8050000, 0x00000016, 0x00000000, 0x00000000, 0x00000000, 0x00000000, 0x00000000, 0x00000000]),
    (.cpin 1 2781569954 1317279037368408296 14621416295300196968 ⟨73, true, 31, 59, true⟩, [0xF8404000, 0xA5CB63A2, 0x246998E8, 0x1247EA4E, 0x2A79EA68, 0xCAE9B4A7, 0x003D9FC9, 0x00000000]),
    (.cpout 3 4048763624 9960901752899170778 16406956473129914620 ⟨82, true, 6, 11, false⟩, [0xF841C000, 0xF1533AE8, 0x801EF1DA, 0x8A3C3B5E, 0x0A3450FC, 0xE3B137FC, 0x000586D2, 0x00000000]),
    (.cploc 0 3248149900 16898560235444498977 17875913931153849854 ⟨120, true, 104, 42, true⟩, [0xF8430000, 0xC19AD58C, 0x7135F221, 0xEA83BF00, 0x7DE1BDFE, 0xF8140102, 0x003568F8, 0x00000000]),
    (.cp2d 0 3683935600 10147491428460141821 1624416440720259217 ⟨64, true, 29, 51, false⟩ true 3385 113674, [0xF8420000, 0xDB946570, 0xC2B01CFD, 0x8CD321B0, 0x746F7891, 0x168B1625, 0x00599DC0, 0x1BC0AD39]),
    (.cpfill 1 2226680251 13953913319298756333 2686110098 ⟨13, false, 68, 16, true⟩, [0xF8444000, 0x84B871BB, 0x9F64EEED, 0xC1A6423B, 0xA01AC992, 0x00000000, 0x0028440D, 0x00000000]),
    (.xred 3 63532 .n32 0 10187240445633899376 16840583878084549850 ⟨118, false, 39, 63, true⟩ 4479, [0xF880C000, 0x0001F82C, 0x03802B70, 0x8D605936, 0xD7665CDA, 0xE9B5C5CF, 0x003FA776, 0x0000117F]),
    (.xbcast 3 63242 .i8 7075913102717829505 16220706426258786109 ⟨17, true, 0, 0, true⟩ 5568, [0xF881C000, 0x0007F70A, 0x25074181, 0x6232B17A, 0xBF0D073D, 0xE11B868D, 0x00200091, 0x000015C0])] = true := by decide +kernel

/-! ## Well-formedness: a term that each check refuses -/

def aArgs (dbl : Bool) (rt : Reg) (trig : Option (BitVec 5)) : AmoArgs := { rt := rt, base := 1, off := 0, dbl := dbl, ret := false, trig := trig }
def illFormed : List Instr :=
  [.amoAdd (aArgs true 3 none), .amoAnd (aArgs false 3 (some 20)), .amoCas (aArgs false 3 none), .amoCas (aArgs true 2 none),
   .depos 1 1 0 3 (some 20), .send 1 1 20 0 false false, .reply 1 20 0 false, .clsmask 20, .clsunm 31,
   .qrd 1 2, .qrdv 1 3, .qstat 1 2, .qwr 3 1, .qwrv 0 1, .chbind 3 1 true, .chunb 3, .cheos 3, .chgrow 3 1, .chstat 1 3,
   .vmulh 1 1 1 0 .f32, .vshl 1 1 1 0 .bf16, .vshr 1 1 1 0 .f16, .vsra 1 1 1 0 .f64, .vror 1 1 1 0 .f32,
   .vabs 1 1 0 .n32, .vneg 1 1 0 .n32, .vramax 1 1 0 .n32,
   .vfma 1 1 1 0 .i32, .vfms 1 1 1 0 .n32, .vfnma 1 1 1 0 .i16, .vfnms 1 1 1 0 .i8, .vdiv 1 1 1 0 .i32, .vsqrt 1 1 0 .i32, .vrcp 1 1 0 .i32,
   .vrsq 1 1 0 .i32, .vamax 1 1 0 .i32, .vcvt 1 1 .f32 0 .f32, .vqnt 1 1 0 0, .vdqnt 1 1 6 0,
   .vsplat 1 32 0 .f64, .vext 32 1 1 .f64, .vins 1 32 1 0 .f64, .mqnt 0 1 6 0 0 0 0,
   .xred 0 1 .f32 3 0 0 ⟨0, false, 0, 0, false⟩ 1, .xbcast 0 1 .f32 0 0 ⟨0, false, 1, 0, false⟩ 1]
theorem test_ill_formed_refused : illFormed.all (fun i => !i.wf) = true := by decide +kernel
theorem test_ill_agents_refused : ([
    .commitComplete 8192, .ackReceived 8192 false 0, .globalStorePerformed 8192 0 [] .host, .commitGrant 64, .transferNotice 64 0 true,
    .contextRemoval 8192 0, .contextRemoval 0 4, .parityUpdate 0 4, .parityForcedUpdate 8192 0, .scrub 0 20, .correctedWriteback 0 20 0,
    .bankRetirement 0 16, .timeshareQuantumEnd 0, .timeshareQuantumEnd 64, .hostQueueTail 32768, .queueEntryLaunch 32768, .dispatcherStep 4,
    .adminClaim none 0 1, .adminFree none 64 1, .adminTimeshare none 1 8 0, .adminVdev none 4096 1 0 0 0 0 0, .adminOwnAssign none 4096 0 0,
    .adminPair none 1 256 1, .adminPair none 1 1 64, .adminQueue none 0 0 3 4 0 0 0, .adminQueue none 0 0 4 17 0 0 0, .adminQueue none 0 0 4 4 2 0 0,
    .ckptJob 0 4096, .ckptRestore 0 0 65536 0, .read 4 0 8, .read 0 0 7, .read 0 0 4104, .write 0 0 [], .write 4 0 (List.replicate 8 0)] : List Instr).all (fun i => !i.wf) = true := by decide +kernel
/-- The nearest admitted operands pass. -/
theorem test_well_formed_at_the_edge : [Instr.amoCas (aArgs true 4 (some 19)), .amoAdd (aArgs true 2 none), .send 1 1 19 63 true true, .qrd 1 1, .chunb 4,
    .vsplat 1 31 0 .f64, .mqnt 0 1 5 0 0 0 0, .vqnt 1 1 5 0, .commitComplete 8191, .scrub 0 19, .adminQueue none 32767 4095 16 16 1 0 0].all (·.wf) = true := by
  decide +kernel

/-! ## States for the witnesses -/

def image (ws : List Word) : List Byte := ws.flatMap fun w => leBytes 4 w.toNat
/-- Context 1 of launch 7: scratchpad bytes 0–4095, two slots, one accumulator, an image of four instructions. -/
def ctx1 : Ctx := { Ctx.none with id := 1, launch := 7, size := 0x1000, slotQ := 2, accQ := 1, code := image [0x04304200, 0x04304215, 0x04304119, 0x10413FFF] }
/-- A core that runs a firing of it. -/
def core1 : Core := { Core.reset with
  status := .running, resident := true, last := true, cache := [(1, 0)], handlers := [(3, ⟨0, false, false, 0, 1, 4, []⟩)], ctx := ctx1 }
def here : State := { State.reset with turn := .core, core := core1 }
/-- `here` with scalars set. -/
def withS (l : List (Reg × Word)) : State := l.foldl (fun s p => s.setS p.1 p.2) here
/-- `here` with the running core changed. -/
def onHere (f : Core → Core) : State := { here with core := f core1 }
def isNext (r : Host.Outcome State Fault Refusal) : Bool := match r with
  | .next _ => true
  | _ => false
theorem next_of {r : Host.Outcome State Fault Refusal} (h : isNext r = true) : ∃ t, r = .next t := by
  cases r with
  | next t => exact ⟨t, rfl⟩
  | fault _ => cases h
  | refused _ => cases h
def isOk {ε α : Type} (r : Except ε α) : Bool := match r with
  | .ok _ => true
  | .error _ => false
theorem ok_of {ε α : Type} {r : Except ε α} (h : isOk r = true) : ∃ a, r = .ok a := by
  cases r with
  | ok a => exact ⟨a, rfl⟩
  | error _ => cases h
theorem error_of {ε α : Type} {r : Except ε α} (h : isOk r = false) : ∃ e, r = .error e := by
  cases r with
  | ok _ => cases h
  | error e => exact ⟨e, rfl⟩
theorem memOk_of {s : State} (hg : s.gmem.wf = true) (hc : s.core.mem.wf = true) (ho : s.others = []) : s.MemOk := by
  refine ⟨hg, fun c => ?_⟩
  unfold State.coreAt
  split
  · exact hc
  · rw [ho]; rfl
theorem here_memOk : here.MemOk := memOk_of rfl rfl rfl
/-! ## Witnesses: encoding and the step -/

theorem witness_DecodeOfEncode : (Instr.add 3 1 2).wf = true ∧ encode (.add 3 1 2) ≠ [] ∧ (Instr.ldw 4 30 0xFFFFFF (some ⟨true, 63⟩)).wf = true := by decide +kernel
theorem witness_DecodedWordsAreItsEncoding : decodeWords [0x04304200, 0] = .ok (.add 3 1 2) 1 := by decide +kernel
theorem witness_StepRunsDecoded : here.turn = .core ∧ here.core.status = .running ∧ here.lineHere = true ∧ decode here.fetched = .ok (.add 3 1 2) 1
    ∧ here.windowSpent = false := by decide +kernel
/-- A pc at an undefined word, one at the end of the image, and an open window with 256 instructions executed. -/
theorem witness_TrapsInPlaceOfAnInstruction :
    (let s := here.setRegs { here.regs with pc := 8 }
     s.turn = .core ∧ s.core.status = .running ∧ s.lineHere = true ∧ decode s.fetched = .illegal 0 ∧ s.codeWord s.pc.toNat = some 0x04304119)
    ∧ (let s := here.setRegs { here.regs with pc := 16 }
      s.turn = .core ∧ s.core.status = .running ∧ s.ctx.code.length ≤ s.pc.toNat)
    ∧ (let s := here.setFir { here.fir with window := true, wcount := 256 }
      s.turn = .core ∧ s.core.status = .running ∧ s.lineHere = true ∧ decode s.fetched = .ok (.add 3 1 2) 1 ∧ s.fir.window = true ∧ s.fir.inTrap = false
        ∧ 256 ≤ s.fir.wcount) := by decide +kernel
theorem step_of_act {s t : State} (h : s.act = .next t) : step s = .next t.settle := by
  unfold step
  rw [h]
theorem witness_StepKeepsMemoriesCanonical : here.MemOk ∧ ∃ t, step here = .next t := by
  refine ⟨here_memOk, ?_⟩
  have ⟨t, ht⟩ : ∃ t, here.act = .next t := next_of (by decide +kernel)
  exact ⟨_, step_of_act ht⟩

/-! ## Witnesses: registers and scalar instructions -/

theorem witness_RegistersReadWhatWasWritten : (31 : Pair) ≠ 0 ∧ (1 : Pair) ≠ 0 := by decide +kernel
def looping (count : Word) : State := here.setRegs { here.regs with l0 := ⟨count, 0, 4, 5, 3, true⟩ }
theorem witness_CompletionMovesPastOrLoops : here.regs.l0.on = false ∧ here.regs.l1.on = false
    ∧ ∀ s ∈ [looping 1, looping 2], s.regs.l1.on = false ∧ s.regs.l0.on = true ∧ s.regs.l0.start.toNat ≤ s.pc.toNat
      ∧ s.regs.l0.stop = s.pc + BitVec.ofNat 32 (4 * 1) ∧ s.pc.toNat < s.regs.l0.stop.toNat := by decide +kernel
theorem witness_MiscFormsGiveTheirResults : here.cur < 8192 ∧ ({ here with cur := 8191 } : State).cur < 8192 := by decide +kernel
/-- A target inside level 0's body and one outside it. -/
theorem witness_JumpsGoAndLink : (looping 2).regs.l0.on = true ∧ (looping 2).regs.l0.holds 4 = false ∧ (looping 2).regs.l0.holds 0 = true
    ∧ (looping 2).regs.l0.holds 3 = true := by decide +kernel
theorem witness_LoopOpensWithItsTripCount : (∀ s ∈ [withS [], withS [(2, 1)], withS [(2, 0xFFFFFFFF)], withS [(1, 5), (2, 2)]],
    s.regs.l0.on = false ∧ s.bodyEnd ((0 : Byte).toNat + 1) (s.pc.toNat + 4) = some 8)
    ∧ (withS []).s 2 = 0 ∧ (withS [(2, 1)]).s 2 ≠ 0 ∧ (withS [(2, 0xFFFFFFFF)]).s 2 ≠ 0 := by decide +kernel
theorem witness_NestNextSteps : (withS []).s 9 = 0 ∧ (withS [(9, 1)]).s 9 ≠ 0 := by decide +kernel
theorem witness_ScalarAndMaskFormsChangeOnlyTheirDestination : (∃ t, exec (.add 3 1 2) here = .next t) ∧ scalarDest (.add 3 1 2) = some [3]
    ∧ (∃ t, exec (.rdcyc 2) here = .next t) ∧ scalarDest (.rdcyc 2) = some [4, 5]
    ∧ (∃ t, exec (.vclt 1 2 3 0 .f32) here = .next t) ∧ maskDest (.vclt 1 2 3 0 .f32) = some 1 :=
  ⟨next_of (by decide +kernel), by decide +kernel, next_of (by decide +kernel), by decide +kernel, next_of (by decide +kernel), by decide +kernel⟩
theorem witness_VectorFormsChangeOnlyTheirDestination : vectorDest (.vadd 1 2 3 0 .f32) = some 1 ∧ ∃ t, exec (.vadd 1 2 3 0 .f32) here = .next t :=
  ⟨by decide +kernel, next_of (by decide +kernel)⟩

/-! ## Witnesses: vectors, loads and stores -/

theorem witness_VectorIntegerFormsGiveTheirLanes : VTy.isFloat .i32 = false ∧ VTy.isFloat .n32 = false ∧ VTy.isFloat .i16 = false ∧ VTy.isFloat .i8 = false
    ∧ (here.m 0).getLsbD 63 = true ∧ (here.m 1).getLsbD 0 = false := by decide +kernel
theorem witness_VectorFloatingFormsRoundOnce : VTy.isFloat .f32 = true ∧ VTy.isFloat .bf16 = true ∧ VTy.isFloat .f16 = true ∧ VTy.isFloat .f64 = true := by decide +kernel
/-- A conversion from 8 lanes to 16 has lanes without a source; formats 1 and 5; a block without active lanes; a lane that is a NaN. -/
theorem witness_ConversionsAndQuantisersComplete : (8 < tyLanes .f32 ∧ tyLanes .f64 ≤ 8 ∧ (here.m 0).getLsbD 8 = true ∧ (here.m 1).getLsbD 8 = false)
    ∧ (VTy.isFloat .i32 = false ∧ VTy.isFloat .i8 = false ∧ 15 < tyLanes .i32 ∧ 15 < tyLanes .i8)
    ∧ (∀ fmt ∈ [(1 : BitVec 4), 5], 1 ≤ fmt.toNat ∧ fmt.toNat ≤ 5) ∧ (∀ i, i < 16 → (here.m 1).getLsbD i = false) ∧ lane (here.v 2) 8 63 = 0
    ∧ (fpLane .f32 ((here.setV 2 0x7FC00000).v 2) 0).isNan = true := by decide +kernel
theorem witness_ReductionsCombineTheActiveLanes : ((List.range (tyLanes .i32)).filter fun i => (here.m 1).getLsbD i) = []
    ∧ ((List.range (tyLanes .i32)).filter fun i => (here.m 0).getLsbD i) ≠ [] ∧ VTy.isFloat .i32 = false := by decide +kernel
theorem witness_LaneMovesGiveTheirLanes : 15 < tyLanes .f32 ∧ 7 < tyLanes .f64 := by decide +kernel
theorem witness_LoadsGiveTheBytesSeen : here.pred none = true ∧ here.pred (some ⟨true, 7⟩) = true ∧ here.core.clean = true
    ∧ (∀ f ∈ loadForms, here.Own (here.ea 0 0) f.2.1) ∧ here.Own (here.ea 0 0) 8 ∧ here.Own (here.ea 0 0xFF8) 8 ∧ here.Own (here.ea 0 0xFFF) 1 := by
  refine ⟨by decide +kernel, by decide +kernel, by decide +kernel, ?_, ?_, ?_, ?_⟩ <;> simp only [State.Own] <;> decide +kernel
def stored (n : Nat) : State := here.setChunk { here.chunk with stbuf := n, count := 1 }
/-- The last and the first number of held stores on each side of the bound. -/
theorem witness_StoresAreHeldAtTheirAddress : ∀ n ∈ [0, 127, 128], (stored n).pred none = true ∧ (stored n).cause ((stored n).ea 0 0xFF8).toNat
      (leBytes 8 ((stored n).d 3).toNat).length true = none
    ∧ (stored n).cause ((stored n).ea 0 0xFFF).toNat (leBytes 1 ((stored n).s 3).toNat).length true = none ∧ ((stored n).chunk.stbuf < 128 ∨ 128 ≤ (stored n).chunk.stbuf) := by
  decide +kernel
/-- A page of global memory of virtual device 0, readable and writable, at the start of the translated window, and one read-only after it. -/
def leaf0 : Leaf := ⟨0, 0x10000000000, 0, 0x800000, true, true, 0, 0⟩
def leafR : Leaf := ⟨0, 0x10000010000, 0, 0x810000, true, false, 0, 0⟩
def mapped : State := { here with leaves := [leaf0, leafR] }
def granted : State := { (onHere fun k => { k with status := .granted .run }) with
  tiles := here.tiles.set 0 { Tile.reset with granted := [0] } }
def grantedStore : State := granted.setChunk { granted.chunk with count := 1, held := [.store 8 none [1, 2, 3, 4] false 0] }
theorem witness_StoresChangeExactlyTheirBytes : here.MemOk ∧ scrPlace 0 (8 : DWord).toNat = some (0, 8) ∧ scrPlace 0 (0x13FFF7FF8 : DWord).toNat = some (8191, 0x17FF8)
    ∧ grantedStore.MemOk ∧ (grantedStore.coreAt 0).status = .granted .run ∧ (grantedStore.coreAt 0).fir.chunk.held = [.store 8 none [1, 2, 3, 4] false 0]
    ∧ (grantedStore.tileAt (tileOf 0)).granted = [localOf 0]
    ∧ mapped.MemOk ∧ mapped.isProt 0x800000 = false ∧ ({ mapped with protect := [0x800] } : State).MemOk ∧ ({ mapped with protect := [0x800] } : State).isProt 0x800FFF = true :=
  ⟨here_memOk, by decide +kernel, by decide +kernel, memOk_of rfl rfl rfl, by decide +kernel, by decide +kernel, by decide +kernel, memOk_of rfl rfl rfl, by decide +kernel,
    memOk_of rfl rfl rfl, by decide +kernel⟩
theorem witness_AccessesThatDoNotExecute : here.pred (some ⟨false, 0⟩) = false ∧ (withS [(7, 1)]).pred (some ⟨true, 7⟩) = false ∧ here.m 1 = 0 := by decide +kernel
/-- Each cause of R23: ALIGN; ACCESS at the ends of the context, of a scratchpad and of the address space; FARSP; PERM and XLATE. -/
theorem witness_AccessesTrapInTheirOrder : mapped.pred none = true ∧ mapped.cause 2 4 false = some 0x02 ∧ mapped.cause 0x1000 4 true = some 0x03
    ∧ mapped.cause 0x18000 4 false = some 0x03 ∧ mapped.cause 0xFFFFFFF8 8 false = some 0x03 ∧ mapped.cause 0x100018000 4 false = some 0x03
    ∧ mapped.cause 0x100200000 4 false = some 0x04 ∧ mapped.cause 0x140000000 4 false = some 0x03 ∧ mapped.cause 0x10000010000 4 true = some 0x06
    ∧ mapped.cause 0x10000020000 4 false = some 0x05 ∧ mapped.cause 0x1000000000000 4 false = some 0x03
    ∧ (let s := (({ mapped with core := { core1 with others := [{ Ctx.none with id := 2, slot := 1, prot := true, base := 0x2000, size := 0x1000 }] } } : State))
       s.cause 0x100002000 4 false = some 0x06 ∧ s.cause 0x100001FFC 4 false = none)
    ∧ (∀ f ∈ storeForms, ((mapped.setD 3 0x10000010000).cause ((mapped.setD 3 0x10000010000).ea 3 0).toNat f.2 true = some 0x06)) := by decide +kernel
theorem witness_VectorAccessesMoveTheirLanes : here.core.clean = true ∧ here.pred none = true ∧ here.Own (here.ea 0 0xFC0) 64 ∧ here.Own (here.ea 0 0xFFF) (2 ^ (0 : BitVec 2).toNat)
    ∧ here.Own (here.ea 0 0xFF8) (2 ^ (3 : BitVec 2).toNat)
    ∧ ((List.range 16).filter fun i => (here.m 0).getLsbD i) ≠ [] ∧ ((List.range (64 / 2 ^ (0 : BitVec 2).toNat)).filter fun i => (here.m 0).getLsbD i) ≠ []
    ∧ (∀ n ∈ [4, 8], ∀ i ∈ (List.range (64 / n)).filter fun i => (here.m 0).getLsbD i, here.Own (here.ea 0 8 + BitVec.ofInt 64 (sgn (8 * n) (lane (here.v 5) (8 * n) i))) n)
    ∧ here.chunk.stbuf + 8 ≤ 128 ∧ (stored 112).chunk.stbuf + 64 / 4 ≤ 128 := by
  refine ⟨?_, ?_, ?_, ?_, ?_, ?_, ?_, ?_, ?_, ?_⟩ <;> (try simp only [State.Own]) <;> decide +kernel

/-! ## Witnesses: requests, waits, queues and commands -/

/-- A full request pool, with SQT off and on. -/
def noRoom (sqt : Bool) : State := let s := here.setProg { here.prog with sqt := sqt }
  s.setChunk { s.chunk with held := List.replicate 16 (.packet {
    src := 0, dst := 0, cls := 3, reply := false, hiPri := false, age := 0, retries := 0, fwd := 0, via := none, seq := 0,
    ter := 0, launch := 0, hcls := 0, ctx := 1, serial := 0, vdev := 0, pc := 0, pool := some false, body := .kend 7 }) }
theorem witness_RequestsHoldOnePacket : here.requestRoom = true ∧ (noRoom false).requestRoom = false ∧ (noRoom true).prog.sqt = true
    ∧ here.claimFault 0 = none ∧ here.claimFault 0xFE8 = none ∧ here.claimFault 4 = some 0x02 ∧ here.claimFault 0xFF0 = some 0x03
    ∧ ((withS [(5, 0x1FFFFF)]).s 5).toNat < 2 ^ 21
    ∧ (let s := withS [(4, 0), (5, 0x100)]
       (s.d 2).toNat % 64 = 0 ∧ inTrans (s.d 2).toNat = true)
    ∧ ((here.ea 0 0xFC0).toNat / 64 = ((here.ea 0 0xFC0).toNat + (63 : BitVec 6).toNat) / 64 ∧ here.reachFault (here.ea 0 0xFC0).toNat 64 = none
      ∧ scrPlace here.cur (here.ea 0 0xFC0).toNat = some (0, 0xFC0))
    ∧ (here.ea 0 0xFF8).toNat % 8 = 0 ∧ here.reachFault (here.ea 0 0xFF8).toNat 8 = none ∧ here.reachFault (here.ea 0 0xFFC).toNat 4 = none := by decide +kernel
theorem witness_FormsHeldToTheCommit : here.claims.getLsbD (3 : BitVec 5).toNat = true ∧ here.claims.getLsbD (4 : BitVec 5).toNat = false
    ∧ here.fir.kind ≠ 2 ∧ here.fir.kind ≠ 3 ∧ here.replyRoom = true := by decide +kernel
theorem witness_StatusFormsReadTheirUnits : (0 : QReg).toNat < 2 ∧ (1 : QReg).toNat < 2 ∧ 2 ≤ (15 : QReg).toNat ∧ here.bindOf 15 = none := by decide +kernel
theorem witness_WaitsPassWhenTheirConditionHolds : here.chunkEmpty = true ∧ here.globalBusy here.cur = false ∧ here.requestRoom = true
    ∧ (here.core.bar 3).phase ≠ ((withS [(1, 1)]).s 1).getLsbD 0 ∧ (here.core.bar 3).phase = (here.s 1).getLsbD 0
    ∧ (here.s 1 = here.ctx.xidc[(2 : BitVec 2).toNat]'(by omega) ∧ idBefore (here.xidNow 2) (here.s 1) = false)
    ∧ idBefore ((withS [(1, 1)]).xidNow 2) ((withS [(1, 1)]).s 1) = true ∧ here.s 2 = 0
    ∧ (let s := withS [(3, 0x1000)]
       s.chunkEmpty = true ∧ s.s 3 ≠ 0 ∧ s.core.stale = [] ∧ (s.d 4).toNat < 0x18000 ∧ s.ctx.base ≤ (s.d 4).toNat ∧ (s.d 4).toNat + (s.s 3).toNat ≤ s.ctx.base + s.ctx.size)
    ∧ (stored 0).chunkEmpty = false := by decide +kernel
/-- A channel from core 0 to core 0 with a ring of four words at 0x100, and both its ends bound by context 1. -/
def chan0 : Chan := {
  idx := 5, producer := coord 0, consumer := coord 0, prodCtx := 1, consCtx := 1, ring := 0x100, capacity := 4, esize := 2, off := 3, on := 1, f := 2, streamer := 0,
  spillBase := 0x10000000000, limit := 0, head := 0, tail := 0, grow := 0, written := 0, read := 0, xoff := false, spillBit := false, eosBit := false, suspect := false, prodBound := true,
  consBound := true, bound := true, out := 0, sr := 0, spilling := false, prodXoff := false, episode := false, entered := 0, refill := false, owed := 0, marker := none, eosPopped := false,
  strEpisode := false, ahead := [], epBase := 0, notice := false, drawn := 0, launch := 7, vdev := 0 }
def onTile0 (s : State) (f : Tile → Tile) : State := { s with tiles := s.tiles.set 0 (f (s.tileAt 0)) }
def withChan (k : Chan) : State := onTile0 (here.setProg { here.prog with binds := [⟨4, 5, true⟩, ⟨6, 5, false⟩] }) fun t => { t with chans := [k] }
theorem witness_QueuesPopAndPushTheirElements :
    (let s := onHere fun k => { k with ctx := { ctx1 with q0 := [7, 8], q1 := [(9, 2)] } }
     s.chunk.held = [] ∧ s.ctx.q0 = 7 :: [8] ∧ s.ctx.q1 = (9, 2) :: [])
    ∧ 4 ≤ (4 : QReg).toNat ∧ (withChan { chan0 with entered := 1 }).chunk.held = [] ∧ (withChan { chan0 with entered := 1 }).bindOf 4 = some ⟨4, 5, true⟩
    ∧ (withChan { chan0 with entered := 1 }).chanAt 5 = some { chan0 with entered := 1 } ∧ (chan0.suspect = false ∧ chan0.eosPopped = false ∧ chan0.marker = none ∧ chan0.read.toNat < 1)
    ∧ (withChan { chan0 with entered := 1 }).core.clean = true ∧ chan0.esize = 2
    ∧ (withChan { chan0 with out := 1 }).bindOf 6 = some ⟨6, 5, false⟩ ∧ (withChan { chan0 with out := 1 }).chanAt 5 = some { chan0 with out := 1 }
    ∧ (chan0.eosBit = false ∧ chan0.prodXoff = false ∧ chan0.spilling = false ∧ 1 < chan0.f)
    ∧ 2 ≤ (2 : QReg).toNat ∧ here.bindOf 2 = none ∧ here.bindOf 15 = none := by
  refine ⟨by decide +kernel, by decide +kernel, rfl, rfl, rfl, by simp [chan0], rfl, rfl, rfl, rfl, by simp [chan0], by decide +kernel, by decide +kernel, by decide +kernel⟩
def bindable : State := onTile0 (here.setS 1 5) fun t => { t with chans := [chan0] }
theorem witness_BindingsAndSpillFormsAct : (bindable.s 1).toNat < 0x8000 ∧ bindable.chanAt ((bindable.s 1).setWidth 15) = some chan0 ∧ bindable.bindOf 4 = none
    ∧ bindable.prog.binds = [] ∧ chan0.bound = true ∧ chan0.consCtx = bindable.ctx.id ∧ chan0.consumer = coord bindable.cur ∧ chan0.prodCtx = bindable.ctx.id
    ∧ chan0.producer = coord bindable.cur
    ∧ here.chanAt ((here.s 1).setWidth 15) = none ∧ (withChan chan0).bindOf 4 = some ⟨4, 5, true⟩ ∧ (withChan chan0).chunkEmpty = true
    ∧ (let s := (withChan chan0).setS 1 0xFFFFFFFF
       s.chunkEmpty = true ∧ s.bindOf 4 = some ⟨4, 5, true⟩ ∧ s.chanAt 5 = some chan0 ∧ chan0.suspect = false ∧ chan0.limit + (s.s 1).toNat < 2 ^ 32 ∧ s.s 1 ≠ 0) := by
  refine ⟨by decide +kernel, rfl, by decide +kernel, by decide +kernel, rfl, by decide +kernel, rfl, by decide +kernel, rfl, by decide +kernel, rfl, by decide +kernel, ?_⟩
  exact ⟨by decide +kernel, rfl, rfl, rfl, by decide +kernel, by decide +kernel⟩
theorem witness_SlotsAreClaimedAndReleased : (15 : Reg).toNat < 16 ∧ here.ctx.slotQ ≤ (2 : Reg).toNat ∧ (1 : Reg).toNat < here.ctx.slotQ ∧ (here.prog.slot (1 : Reg).toNat).claimed = false
    ∧ (let s := here.setProg (here.prog.setSlot 1 ⟨true, some 0, false, 0, false, []⟩)
       (1 : Reg).toNat < s.ctx.slotQ ∧ (s.prog.slot (1 : Reg).toNat).claimed = true ∧ ∀ m ∈ s.commands, (1 : Reg).toNat ∉ m.slots) := by decide +kernel
theorem witness_CommandsArePushedWhole : here.chunk.held = [] ∧ here.core.commands.length < 8 ∧ (here.core.copies.filter fun t => t.chan == 3 && !t.done).length < 8
    ∧ (onHere fun k => { k with mq := List.replicate 8 ⟨1, 1, 0, .cmd (.mzero 0), 0, none, 0, none, false⟩ }).chunk.held = [] := by decide +kernel

/-! ## Witnesses: control registers, traps, images -/

theorem witness_ControlRegistersReadAndWrite : here.csr 0x012 = some 0 ∧ here.chunkEmpty = true ∧ here.matrixBusy = false ∧ here.csr 0x013 = none ∧ here.csr 0xFFF = none
    ∧ csrReadOnly 0x001 1 = true ∧ here.core.commands.length < 8 ∧ here.chunk.held = []
    ∧ ((withS [(1, 5)]).s 1).toNat % 8 = 5 ∧ ((withS [(1, 17)]).s 1).toNat % 32 = 17 ∧ (here.s 1).toNat % 32 = 0 := by decide +kernel
/-- A handler at 4. -/
def handled : State := here.setProg { here.prog with tvec := 4 }
def trapped : State := (handled.enterTrap 0x12 5 0 false).setProg { (handled.enterTrap 0x12 5 0 false).prog with tepc := 4 }
theorem witness_TrapEntrySavesAndTransfers : handled.fir.inTrap = false ∧ handled.prog.tvec &&& 0xFFFFFC ≠ 0 ∧ handled.chunkEmpty = true ∧ handled.ctx.debug = false := by
  decide +kernel
theorem witness_TrapReturnRestores : trapped.fir.inTrap = true ∧ trapped.chunkEmpty = true ∧ trapped.codeWord trapped.prog.tepc.toNat = some 0x04304215
    ∧ here.fir.inTrap = false ∧ handled.fir.inTrap = false ∧ handled.prog.tvec &&& 0xFFFFFC ≠ 0 := by decide +kernel
theorem witness_WindowsAndDebugBreaks : here.fir.window = false ∧ (onHere fun k => { k with ctx := { ctx1 with debug := true } }).ctx.debug = true := by decide +kernel
/-- Virtual device 0's page, with d2 at its first byte and core 0 in territory 1. -/
def atPage : State := onTile0 (({ mapped with core := { core1 with ctx := { ctx1 with size := 0x80, slotQ := 1, accQ := 0 } } } : State).setD 2 0x10000000000) fun t => { t with ter := 1 }
/-- The context that an image at that address restores. -/
def ctx2 : Ctx := { Ctx.none with id := 2, base := 0x1000, size := 0x80, save := 0x10000004000 }
def config2 : CtxConfig := ⟨2, 0, 0, 0, 0, 0, false, [], 0, 0, []⟩
def restorable : State := { atPage with
  gmem := Mem.write [] 0x800000 (ctx2.header 0 ++ List.replicate 16 0)
  owned := [(0x80, 1, 0)]
  launches := [⟨7, 0, 0, 0, 1, 0, 0, 1, false, [config2]⟩] }
/-- Every byte of the first page can be read where no line is bad. -/
theorem vread_page {s : State} (hl : s.leaves.head? = some leaf0) (hf : s.fading = []) (hb : s.badLines = []) :
    ∀ n va, 0x10000000000 ≤ va → va + n ≤ 0x10000010000 → ∃ bs, s.vread 0 va n = .ok bs
  | 0, _, _, _ => ⟨[], rfl⟩
  | n + 1, va, h1, h2 => by
    have ⟨bs, h⟩ := vread_page hl hf hb n (va + 1) (by omega) (by omega)
    have hx : s.xlate 0 va false = .ok (leaf0.key va) := by
      have : s.leafAt 0 va = some leaf0 := by
        unfold State.leafAt State.leafNow
        obtain ⟨l, h⟩ := List.head?_eq_some_iff.mp hl
        rw [h, hf]
        simp [leaf0, pageBytes, Leaf.maps]
        omega
      simp [State.xlate, this, leaf0]
    have hbad : s.bad (leaf0.key va) 1 = false := by simp [State.bad, hb]
    exact ⟨_, by rw [State.vread, hx]; simp only [hbad, h]; rfl⟩
theorem witness_ContextImagesAndServices_save : atPage.chunkEmpty = true ∧ (atPage.d 2).toNat % 64 = 0 ∧ inTrans (atPage.d 2).toNat = true ∧ inTrans ((atPage.d 2).toNat + atPage.ctx.imageLen - 1) = true
    ∧ atPage.rangeFault 0 true false (atPage.ctx.imageLen / 0x10000 + 2) (atPage.d 2).toNat atPage.ctx.imageLen = none ∧ atPage.core.engineBusy atPage.ctx.id = false
    ∧ atPage.ctx.prot = false ∧ atPage.core.clean = true := by decide +kernel
theorem witness_ContextImagesAndServices_restore : restorable.chunkEmpty = true ∧ (restorable.d 2).toNat % 64 = 0 ∧ inTrans (restorable.d 2).toNat = true ∧
    ∃ hd body, restorable.vread 0 (restorable.d 2).toNat 64 = .ok hd ∧ le hd 0 2 = 1 ∧ (hd.getD 4 0).getLsbD 0 = false ∧ BitVec.ofNat 16 (le hd 2 2) = (2 : Half)
      ∧ restorable.declared 0 2 = some config2 ∧ config2.prot = false ∧ le hd 24 4 = imageLen (le hd 12 4) (le hd 6 1) (le hd 5 1)
      ∧ limitsOk 2 (le hd 8 4) (le hd 12 4) (le hd 5 1) (le hd 6 1) = true
      ∧ restorable.rangeFault 0 false false (le hd 24 4 / 0x10000 + 2) (restorable.d 2).toNat (le hd 24 4) = none
      ∧ restorable.vread 0 ((restorable.d 2).toNat + 64) (le hd 24 4 - 64) = .ok body ∧ (∀ e ∈ restorable.cores, e.2.byId 2 = none)
      ∧ restorable.installFault restorable.cur { config2 with base := le hd 8 4, size := le hd 12 4, slotQ := le hd 5 1, accQ := le hd 6 1, save := BitVec.ofNat 64 (le hd 32 8) } 0
        (restorable.tileAt restorable.tile).ter = none := by
  have ⟨body, hb⟩ : ∃ b, restorable.vread 0 ((restorable.d 2).toNat + 64) (le (ctx2.header 0 ++ List.replicate 16 0) 24 4 - 64) = .ok b := by
    rw [show (restorable.d 2).toNat + 64 = 0x10000000040 by decide +kernel, show le (ctx2.header 0 ++ List.replicate 16 0) 24 4 - 64 = 4544 by decide +kernel]
    exact vread_page (s := restorable) rfl rfl rfl _ _ (by omega) (by omega)
  refine ⟨by decide +kernel, by decide +kernel, by decide +kernel, ctx2.header 0 ++ List.replicate 16 0, body, by decide +kernel, by decide +kernel, by decide +kernel, by decide +kernel,
    by decide +kernel, by decide +kernel, by decide +kernel, by decide +kernel, by decide +kernel, hb, by decide +kernel, by decide +kernel⟩
theorem witness_ContextImagesAndServices_fwcall : atPage.chunkEmpty = true ∧ atPage.blockFault (atPage.d 2).toNat = none ∧ atPage.globalBusy atPage.cur = false ∧ (3 : Reg).toNat < 4 ∧ 4 ≤ (4 : Reg).toNat := by
  decide +kernel

/-! ## Witnesses: the agents of a core -/

def withMq (l : List MCmd) (f : Core → Core) : State := onHere fun k => f { k with mq := l }
theorem witness_MatrixUnitSteps :
    (∀ m ∈ [(⟨1, 1, 0, .csr 0x020 1 9, 0, none, 0, none, false⟩ : MCmd), ⟨1, 1, 0, .csr 0x030 1 9, 0, none, 0, none, false⟩, ⟨1, 1, 0, .cmd (.mzero 0), 0, none, 0, none, false⟩, ⟨1, 1, 0, .cmd (.mzero 1), 0, none, 0, none, false⟩],
      ((withMq [m] id).coreAt 0).nextStart = some (0, m) ∧ m.ctx = 1)
    ∧ (∀ l, ((withMq l id).coreAt 0).byId 1 = some ctx1)
    ∧ ((0 : BitVec 3).toNat < ctx1.accQ ∧ ctx1.accQ ≤ (1 : BitVec 3).toNat)
    ∧ (let e : MEffect := ⟨none, [(0, .replicate 256 7)], [], some 5, 1, 0, 0, 0, 0, none⟩
       let m : MCmd := ⟨1, 1, 0, .cmd (.mzero 0), 0, some e, 0, none, false⟩
       ((withMq [m] id).coreAt 0).mq = m :: [] ∧ m.eff = some e ∧ m.ctx = 1 ∧ m.unacked = 0 ∧ e.fault = none ∧ e.writes = [] ∧ (e.q0 = none ∨ ctx1.q0.length < 8)) :=
  ⟨by decide +kernel, fun _ => rfl, by decide +kernel, rfl, rfl, rfl, rfl, rfl, rfl, .inr (by decide +kernel)⟩
/-- A message of 64 bytes ready for class 3 of core 0. -/
def ready3 : Ready := ⟨3, 0, some false, false, 64, coord 0, 0, 5, 0, 0⟩
def ready3' : Ready := ⟨3, 0, none, false, 64, 0, 0, 5, 0, 0⟩
theorem witness_FiringsStartWithTheirRegisters :
    let s := onHere fun k => { k with status := .idle, runq := [.fresh ready3'] }
    (s.coreAt 0).status = .idle ∧ (s.coreAt 0).fenced = false ∧ (s.coreAt 0).runq = [.fresh ready3'] ∧ look (s.coreAt 0).handlers 3 = some ⟨0, false, false, 0, 1, 4, []⟩
      ∧ (s.coreAt 0).resident = true ∧ (s.coreAt 0).ctx.slot = 0 ∧ (s.coreAt 0).last = true ∧ s.startable 0 (.fresh ready3') = true ∧ ready3'.len ≤ 64 := by decide +kernel
def ending : State := onTile0 (onHere fun k => { k with status := .ending .run }) fun t => { t with reqs := [(0, 0)] }
def endingNow : State := { ending with cycle := 1 }
def park9 : Park := ⟨9, 0, 4, false, false, ⟨9, 0, none, []⟩, { Firing.zero with cls := 3 }⟩
theorem witness_SchedulingSteps_wake : ((onHere fun k => { k with status := .idle, parks := [park9] }).coreAt 0).ctxs.find? (·.slot = 0) = some ctx1 := rfl
theorem witness_SchedulingSteps :
    ((0, (0 : DWord)).1 < 128 ∧ (endingNow.tileAt 0).reqs = [(0, 0)] ∧ endingNow.grantable 0 (0, 0) = true ∧ (endingNow.coreAt (coreOf 0 0)).status = .ending .run)
    ∧ (let s := onHere fun k => { k with runq := [.fresh ready3'], handlers := [(3, ⟨0, true, false, 0, 1, 4, []⟩)] }
       s.core.status = .running ∧ s.chunkEmpty = true ∧ s.preemptor s.cur = some (0, .fresh ready3') ∧ look s.core.handlers 3 = some ⟨0, true, false, 0, 1, 4, []⟩ ∧ s.ctx.slot = 0
         ∧ s.core.resident = true ∧ s.core.last = true)
    ∧ (let s := onHere fun k => { k with status := .idle, parks := [park9] }
       (s.coreAt 0).parks.find? (·.key = 9) = some park9 ∧ park9.woken = false ∧ s.queueReady ctx1 4 false = true)
    ∧ (∀ w ∈ [WaitFor.matrixRoom, .slot 1, .request, .copyRoom 3, .fence, .phase 3 true], ((onHere fun k => { k with status := .waiting w }).coreAt 0).status = .waiting w
      ∧ (onHere fun k => { k with status := .waiting w }).waitOver 0 w = true)
    ∧ (let s := onHere fun k => { k with fir := { k.fir with wdcnt := 0x100000 } }
       (s.coreAt 0).status ≠ .idle ∧ (s.coreAt 0).fir.timeout = false ∧ (s.coreAt 0).ctx.prog.wdog.toNat ≤ (s.coreAt 0).fir.wdcnt)
    ∧ ((onHere fun k => { k with status := .entry 0x0A 2 0 false }).coreAt 0).status = .entry 0x0A 2 0 false
    ∧ (let s := onHere fun k => { k with status := .fetch }
       (s.coreAt 0).status = .fetch ∧ (s.tileAt (tileOf 0)).store.isEmpty = true
         ∧ (s.coreAt 0).missing = none) := by decide +kernel

/-! ## Witnesses: the mesh and the agents of memory -/

def packet0 (cls : BitVec 5) (body : Body) : Packet := {
  src := coord 0, dst := coord 0, cls := cls, reply := false, hiPri := false, age := 0, retries := 63, fwd := 0, via := none, seq := 1, ter := 1, launch := 7, hcls := 0, ctx := 1, serial := 0, vdev := 0, pc := 0,
  pool := some false, body := body }
theorem oc0 : ofCoord (coord 0) = 0 := (ofCoord_coord (by decide)).1
theorem witness_PacketSteps : isLocal (packet0 3 (.message [1, 2])).dst = true ∧ isLocal (packet0 3 (.message [1, 2])).src = true
    ∧ here.way 3 (ofCoord (packet0 3 (.message [1, 2])).src) (ofCoord (packet0 3 (.message [1, 2])).dst) = .there
    ∧ (here.coreAt (ofCoord (coord 0))).fenced = false ∧ look (here.coreAt (ofCoord (coord 0))).handlers 3 = some ⟨0, false, false, 0, 1, 4, []⟩
    ∧ (here.tileAt (tileOf (ofCoord (coord 0)))).xfer = .none ∧ (here.coreAt (ofCoord (coord 0))).masked 3 = false ∧ (here.coreAt (ofCoord (coord 0))).inboxUsed false < 24
    ∧ (let s := onHere fun k => { k with clsmsk := 8 }
       (s.coreAt (ofCoord (coord 0))).masked 3 = true)
    ∧ (let s := onHere fun k => { k with runq := List.replicate 24 (.fresh { ready3' with inbox := some false }) }
       (s.coreAt (ofCoord (coord 0))).masked 3 = false ∧ 24 ≤ (s.coreAt (ofCoord (coord 0))).inboxUsed false)
    ∧ (packet0 3 (.message [1, 2])).retries < 64
    ∧ (onTile0 here fun t => { t with ter := 1, home := true }).homeOf ((onTile0 here fun t => { t with ter := 1, home := true }).tileAt (tileOf (ofCoord (coord 0)))).ter = some 0 := by
  refine ⟨(ofCoord_coord (by decide)).2, (ofCoord_coord (by decide)).2, rfl, ?_⟩
  simp only [oc0]
  decide +kernel
/-- A claim descriptor at 0x40: next 2, end 10, least 1, threads 4. -/
def nest40 : Mem := Mem.write [] 0x40 (leBytes 4 2 ++ leBytes 4 10 ++ leBytes 4 1 ++ leBytes 4 4 ++ leBytes 8 0x0001000100040004)
theorem witness_MemoryAgentSteps : here.MemOk ∧ scrPlace 0 (0x10001FFFF - 0x8000 + 0 : DWord).toNat = some (0, 0x17FFF) ∧ (here.coreAt 0).fenced = false
    ∧ here.foreign 0 0x17FFF 1 1 = false ∧ (here.coreAt 0).clean = true ∧ here.foreign 0 0x17FF8 8 1 = false ∧ scrPlace 0 (0x100017FF8 : DWord).toNat = some (0, 0x17FF8)
    ∧ (onHere fun k => { k with mem := nest40 }).MemOk ∧ scrPlace (ofCoord (packet0 21 (.claim 0x40)).src) (0x40 : DWord).toNat = some (0, 0x40)
    ∧ ((onHere fun k => { k with mem := nest40 }).coreAt 0).clean = true
    ∧ ((onHere fun k => { k with status := .answer (.atomic 3 false 8) }).coreAt 0).status = .answer (.atomic 3 false 8)
    ∧ ((onHere fun k => { k with status := .answer (.claim 3 0x40) }).coreAt 0).status = .answer (.claim 3 0x40)
    ∧ (let s := ({ mapped with core := { core1 with status := .answer .load, load := some ⟨.scalar false, 3, none, [(0x1000000FFFC, 0, 4)]⟩ } } : State)
       (s.coreAt 0).status = .answer .load ∧ (s.coreAt 0).load = some ⟨.scalar false, 3, none, [(0x1000000FFFC, 0, 4)]⟩ ∧ (s.coreAt 0).fir.chunk.held = []
         ∧ inTrans (0x1000000FFFC : DWord).toNat = true ∧ s.vread 0 (0x1000000FFFC : DWord).toNat 4 = .ok [0, 0, 0, 0])
    ∧ ((here.coreAt 0).bar 3).enable = false ∧ ((here.coreAt 0).bar 3).arrivals ≠ 0xFFFF := by
  refine ⟨here_memOk, by decide +kernel, by decide +kernel, by decide +kernel, by decide +kernel, by decide +kernel, by decide +kernel, memOk_of (by decide +kernel) (by decide +kernel) rfl,
    by rw [show (packet0 21 (.claim 0x40)).src = coord 0 from rfl, oc0]; decide +kernel, ?_, ?_, ?_, ?_, ?_, ?_⟩
  all_goals decide +kernel

/-! ## Witnesses: copies, channels, parity, territories -/

def tail0 : CopyTail := ⟨0, false, 0, 0, true⟩
/-- Fill 72 bytes from 0x20 of core 0 with a pattern; broadcast one word to two cores. -/
def fill : Transfer := ⟨3, 1, 0, 2, 1, 0, .cpfill 2 72 0x100000020 0x04030201 tail0, false, [], [], none, false⟩
def cast : Transfer := ⟨3, 1, 0, 2, 1, 0, .xbcast 2 1 .f32 0 0x100000020 tail0 2, true, [(0, 8)], [1, 2, 3, 4], none, false⟩
def copying (t : Transfer) : State := onHere fun k => { k with copies := [t] }
theorem witness_CopySteps_context : ∀ t, ((copying t).coreAt 0).byId 1 = some ctx1 := fun _ => rfl
theorem witness_CopySteps :
    ((copying fill).MemOk ∧ ((copying fill).coreAt 0).copies = [fill] ∧ tail0.barOn = false ∧ fill.fault = none ∧ fill.done = false ∧ fill.sent = false
      ∧ (copying fill).copyCheck 0 ctx1 fill.cmd = none)
    ∧ (let t := { fill with sent := true, left := [(64, 72)] }
       (copying t).MemOk ∧ ((copying t).coreAt 0).copies = [t] ∧ beginsPiece t.left 64 = true ∧ (CopyPlan.piece ⟨1, 72, 0, 0, 0x100000020, 0, some 0x04030201⟩ 64).2.2 = 8
         ∧ scrPlace 0 ((0x100000020 : DWord).toNat + 64) = some (0, 0x60) ∧ (copying t).takesPiece 0 0 0 = true)
    ∧ (let t := { fill with sent := true }
       (copying t).transferOver 0 t = true ∧ ctx1.xdone = [] ∧ t.id = ctx1.xidc[t.chan.toNat]'(by omega) + 1 ∧ ctx1.q1wait = [] ∧ ctx1.q1.length < 16)
    ∧ (let s := onHere fun k => { k with ctx := { ctx1 with q1wait := [(1, 2)], q1 := List.replicate 15 (1, 2) } }
       (s.coreAt 0).ctx.q1wait = (1, 2) :: [] ∧ (s.coreAt 0).ctx.q1.length < 16)
    ∧ (here.MemOk ∧ scrPlace (ofCoord (coord 0)) (0x100000020 : DWord).toNat = some (0, 0x20) ∧ (here.coreAt 0).fenced = false ∧ (here.coreAt 0).rounds = [])
    ∧ ((copying cast).MemOk ∧ ((copying cast).coreAt 0).copies = [cast] ∧ cast.left.any (fun r => decide (r.1 ≤ 4 ∧ 4 < r.2)) = true
      ∧ 4 % cast.bytes.length % 64 = 0 ∧ 0 + 4 / cast.bytes.length = 1
      ∧ scrPlace 0 (0x100000020 : DWord).toNat = some (0, 0x20) ∧ (copying cast).takesPiece 0 0 1 = true ∧ (copying cast).way 23 0 1 ≠ .astray) := by
  refine ⟨⟨memOk_of rfl rfl rfl, by decide +kernel⟩, ⟨memOk_of rfl rfl rfl, by decide +kernel⟩, by decide +kernel, by decide +kernel, ⟨here_memOk, ?_, by decide +kernel, by decide +kernel⟩,
    ⟨memOk_of rfl rfl rfl, by decide +kernel⟩⟩
  rw [oc0]; decide +kernel
theorem consumerLives_of {k : Chan} (h : k.consumer = coord 0) (hc : k.consCtx = 1) {s : State} (hs : (s.coreAt 0).fenced = false) (hx : ((s.coreAt 0).byId 1).isSome = true) :
    s.consumerLives k = true := by
  unfold State.consumerLives
  rw [h, oc0, hc]
  exact Bool.and_eq_true_iff.mpr ⟨by rw [hs]; rfl, hx⟩
/-- Context 1 waits to push to channel 5, which has become writable, having waited THAWT cycles. -/
def waiting5 : ChanWait := ⟨0, 6, true, ⟨9, 0, none, []⟩⟩
def pushWait : State := onTile0 ({ here with
    cycle := 0x10000
    core := { core1 with ctx := { ctx1 with prog := { ctx1.prog with binds := [⟨6, 5, false⟩] } }, status := .waiting (.parkRoom 6 true waiting5.thaw) } } : State)
  fun t => { t with chans := [chan0] }
theorem witness_ChannelSteps :
    (let s := { withChan { chan0 with entered := 3 } with leaves := [leaf0] }
     s.chanAt 5 = some { chan0 with entered := 3 } ∧ s.MemOk ∧ s.consumerLives { chan0 with entered := 3 } = true ∧ [(1 : Byte), 2, 3, 4].length = 2 ^ chan0.esize
       ∧ s.xlate chan0.vdev (chan0.spillBase.toNat + chan0.tail * 2 ^ chan0.esize) true = .ok 0x800000 ∧ s.isProt 0x800000 = false ∧ chan0.ahead = [])
    ∧ (let k := { chan0 with refill := true, tail := 2 }
       let s := { withChan k with leaves := [leaf0] }
       s.chanAt 5 = some k ∧ k.refill = true ∧ s.consumerLives k = true ∧ k.owed = 0 ∧ min (k.tail - k.head) (k.off - (k.entered - k.read.toNat)) = 2
         ∧ s.MemOk ∧ s.vread k.vdev (k.spillBase.toNat + k.head * 2 ^ k.esize) (2 ^ k.esize) = .ok [0, 0, 0, 0])
    ∧ ((withChan { chan0 with notice := true, spilling := true }).chanAt 5 = some { chan0 with notice := true, spilling := true })
    ∧ (let s := onTile0 (withChan chan0) fun t => { t with ter := 1, home := true, pool := 16 }
       s.chanAt 5 = some chan0 ∧ s.homeOf (s.tileAt (chanTile 5)).ter = some 0 ∧ 16 ≤ (s.tileAt 0).pool.toNat)
    ∧ (let s := pushWait
       (s.tileAt (tileOf 0)).thaw.getLsbD 31 = true ∧ (s.coreAt 0).waitsOf.find? (·.thaw.key = 9) = some waiting5 ∧ waiting5.thaw.stamp = none
         ∧ waiting5.thaw.since.toNat + ((s.tileAt (tileOf 0)).thaw &&& 0xFFFFFF).toNat ≤ s.cycle.toNat ∧ s.edge 0 waiting5 = none)
    ∧ (let p : Probe := ⟨1, 1, 1, 0, false, 0, 0, 0, 0, [5], []⟩
       p.edges.getLast? = some 5 ∧ (pushWait.tileAt (tileOf p.at_.toNat)).thaw.getLsbD 31 = true ∧ p.at_ ≠ p.origin ∧ ofCoord chan0.producer = p.at_.toNat
         ∧ pushWait.waitAt p.at_.toNat chan0.prodCtx = some waiting5) := by
  refine ⟨⟨rfl, memOk_of rfl rfl rfl, consumerLives_of rfl rfl rfl rfl, by decide +kernel, by decide +kernel, by decide +kernel, rfl⟩,
    ⟨rfl, rfl, consumerLives_of rfl rfl rfl rfl, rfl, by decide +kernel, memOk_of rfl rfl rfl, by decide +kernel⟩, rfl, ⟨rfl, by decide +kernel, by decide +kernel⟩,
    ⟨by decide +kernel, by decide +kernel, rfl, by decide +kernel, by decide +kernel⟩, ⟨rfl, by decide +kernel, by decide +kernel, ?_, by decide +kernel⟩⟩
  exact oc0
theorem witness_ParitySteps :
    (let s := onHere fun k => { k with stale := [(767, 3), (5, 2)], waits := .replicate 4 63 }
     s.nextRow 0 3 = some 767 ∧ (s.coreAt 0).clean = true ∧ 63 ≤ vget (s.coreAt 0).waits 3 0)
    ∧ (let s := onHere fun k => { k with fixes := [(19, 767)], flips := [⟨19, 767, [3], false⟩] }
       (19, 767) ∈ (s.coreAt 0).fixes)
    ∧ (let s := onHere fun k => { k with lasting := [(15, 1), (15, 2), (15, 3), (15, 0x100000001)] }
       (s.coreAt 0).worn 15 = true ∧ (s.coreAt 0).fenced = false ∧ look (s.coreAt 0).degraded (15 / 4) = none)
    ∧ (let s := onHere fun k => { k with lasting := [(15, 1), (15, 2), (15, 3), (15, 0x100000001)], degraded := [(3, 12)] }
       (s.coreAt 0).worn 15 = true ∧ look (s.coreAt 0).degraded (15 / 4) = some 12 ∧ 12 ≠ 15) := by decide +kernel
/-- Tile 0 in a state of transfer, with core 0 free and without a context. -/
def xferring (x : Xfer) : State := onTile0 { here with core := Core.reset, cycle := 0x100000 } fun t => { t with ter := 1, xfer := x }
theorem witness_TerritorySteps_context : ((onHere fun k => { k with status := .idle, ctx := { ctx1 with vdone := true } }).coreAt 0).ctxs = [{ ctx1 with vdone := true }] := rfl
theorem witness_TerritorySteps :
    (let s := ({ onTile0 here (fun t => { t with ter := 1 }) with cycle := 0x20000 } : State)
     s.phase < s.cycle.toNat / (s.driv &&& 0x1FFFFFF).toNat ∧ (s.tileAt 0).ter ≠ 0 ∧ (s.tileAt 0).stated = false)
    ∧ ((xferring (.quiesce 2)).tileAt 0).xfer = .quiesce 2 ∧ (xferring (.quiesce 2)).quiet 0 = true
    ∧ (let s := xferring (.vacate 2 0 0)
       (s.tileAt 0).xfer = .vacate 2 0 0 ∧ 0 + (s.vacb &&& 0xFFFFFF).toNat ≤ s.cycle.toNat ∧ (s.tileAt 0).granted = [])
    ∧ (let s := onTile0 (onHere fun k => { k with status := .idle, ctx := { ctx1 with vdone := true } }) fun t => { t with xfer := .vacate 2 0 0 }
       (s.tileAt (tileOf 0)).xfer = .vacate 2 0 0 ∧ (s.coreAt 0).departing 0 = true)
    ∧ (((xferring (.drain 2)).tileAt 0).xfer = .drain 2 ∧ ∀ c ∈ tileCores 0, (xferring (.drain 2)).spent c = true)
    ∧ (let s := { onTile0 here (fun t => { t with ter := 2, xfer := .notify 1 2 [(1, false), (9, true)] }) with
         tiles := ((onTile0 here (fun t => { t with ter := 2, xfer := .notify 1 2 [(1, false), (9, true)] })).tiles.set 1 { Tile.reset with ter := 1 }).set 9 { Tile.reset with ter := 2 } }
       (s.tileAt 0).xfer = .notify 1 2 [(1, false), (9, true)] ∧ (1, false) ∈ [(1, false), (9, true)] ∧ (s.tileAt 1).ter.toNat = 1 ∧ (9, true) ∈ [(1, false), (9, true)]
         ∧ (s.tileAt 9).ter.toNat = 2)
    ∧ ((xferring (.notify 1 2 [])).tileAt 0).xfer = .notify 1 2 []
    ∧ (let e : TimeEntry := ⟨0, 0, 1, 4096, 0, false⟩
       let s := onTile0 (onHere fun k => { k with status := .idle, runq := [.fresh ready3'] }) fun t => { t with ter := 63, home := true, times := [e], ends := 0 }
       s.homeOf (BitVec.ofNat 6 63) = some 0 ∧ s.quantumOver 0 = true ∧ s.nextEntry 0 = some e ∧ (s.tileAt 0).times.find? (·.idx = (s.tileAt 0).turn) = some e) := by
  refine ⟨?_, ?_, ?_, ?_, ?_, ?_, ?_, ?_, ?_⟩ <;> decide +kernel

/-! ## Witnesses: the host's side -/

/-- Queue 0, enabled, with its ring of 16 entries at the start of virtual device 0's page, its head at 0, and an event ring of 16 entries at 0x1000 of it. -/
def block0 (evTail : Nat) : List Byte := leBytes 8 0x10000000000 ++ leBytes 4 1 ++ leBytes 4 0 ++ [4, 1, 0, 0] ++ leBytes 4 0 ++ leBytes 8 0x10000001000 ++ [4, 0, 0, 0] ++ leBytes 4 evTail
/-- The host's side with an entry at the head of queue 0 and a walk at a node at 0x400 of the page. -/
def hosted (entry node : List Byte) (copied : Option Nat) : State := { here with
  leaves := [leaf0, leafR]
  gmem := Mem.write (Mem.write (Mem.write [] 0 (block0 0)) 0x800000 entry) 0x800400 node
  seen := [(0, 1)]
  vdevs := [⟨0, 1, 0, 4, 0, 0, 0⟩]
  owned := [(0x80, 1, 0)]
  walks := [⟨0, 0, 0, 0, 0x10000000400, none, copied⟩]
  walkCount := 1 }
def walk0 (copied : Option Nat) : Walk := ⟨0, 0, 0, 0, 0x10000000400, none, copied⟩
/-- An entry and a node: opcode, its other fields as offset, size and value. -/
def block64 (op : Nat) (fs : List (Nat × Nat × Nat)) : List Byte := event ((0, 1, op) :: fs)
theorem hosted_memOk (e n : List Byte) (c : Option Nat) : (hosted e n c).MemOk := by
  refine memOk_of ?_ rfl rfl
  exact Mem.wf_write _ _ (Mem.wf_write _ _ (Mem.wf_write _ _ rfl))
theorem witness_HostSteps_queues : here.qbase + 64 * 32768 ≤ here.fbase ∧
    (let launch := block64 1 [(8, 8, 0x10000000400)]
     let s := hosted launch [] none
     s.qpending 0 = true ∧ s.qentry 0 = .ok launch ∧ (launch.getD 0 0).toNat = 1 ∧ zeroAt launch (span 1 8 ++ span 16 64) = true)
    ∧ (∀ v ∈ [0, 1], let wait := block64 2 [(2, 2, 3), (8, 8, v)]
       let s := hosted wait [] none
       s.qpending 0 = true ∧ s.qentry 0 = .ok wait ∧ (wait.getD 0 0).toNat = 2 ∧ zeroAt wait (1 :: span 4 8 ++ span 16 64) = true ∧ s.ownsFence (s.qvdev 0) (le wait 2 2) = true
         ∧ (le wait 8 8 ≤ s.fence (le wait 2 2) ∨ s.fence (le wait 2 2) < le wait 8 8))
    ∧ (let signal := block64 3 [(2, 2, 3), (8, 8, 0xFFFFFFFFFFFFFFFF)]
       let s := hosted signal [] none
       s.qpending 0 = true ∧ s.qentry 0 = .ok signal ∧ (signal.getD 0 0).toNat = 3 ∧ zeroAt signal (1 :: span 4 8 ++ span 16 64) = true ∧ s.ownsFence (s.qvdev 0) 3 = true
         ∧ s.chooseUnit 0 = some (0, ⟨0, 1, [(0, 1)]⟩)) := by refine ⟨?_, ?_, ?_, ?_⟩ <;> decide +kernel
/-- A node of each kind at the walk's place, with its reserved bytes zero. -/
theorem witness_HostSteps_nodes : ∀ b ∈ [block64 1 [(16, 8, 0x10000002000), (24, 1, 1)], block64 2 [(16, 2, 3), (24, 8, 0)], block64 2 [(16, 2, 3), (24, 8, 1)], block64 3 [(16, 2, 3), (24, 8, 1)],
      block64 4 [(16, 8, 0x10000002000), (25, 1, 4)], block64 4 [(16, 8, 0x10000002000), (24, 1, 5), (25, 1, 8)], block64 5 [(16, 8, 0x10000002000)],
      block64 6 [(16, 8, 0x10000002000), (24, 8, 0x10000003000), (32, 4, 72)], block64 7 []],
    (hosted [] b none).walk 0 = some (walk0 none) ∧ (hosted [] b none).node (walk0 none) = .ok b ∧ zeroAt b (nodeReserved (b.getD 0 0).toNat) = true ∧ (b.getD 1 0).toNat ≤ 1 := by decide +kernel
theorem witness_HostSteps_fences : (hosted [] [] none).ownsFence 0 3 = true ∧ (hosted [] [] none).fence 3 = 0 := by decide +kernel
theorem witness_HostSteps_walks : (let s := { (hosted [] (block64 1 [(16, 8, 0x10000002000)]) none) with seen := [] }
     ∃ d, s.chooseUnit 0 = some (32768, d) ∧ s.walk (32768 - 32768) = some (walk0 none)) := ⟨⟨0, 1, [(0, 32769)]⟩, by decide +kernel⟩
theorem witness_HostSteps_cond : (0x10000002000 % 8 = 0 ∧ inTrans 0x10000002000 = true) ∧ (hosted [] [] none).vread 0 0x10000002000 8 = .ok (List.replicate 8 0) := by decide +kernel
theorem witness_HostSteps_loop : (∀ c ∈ [[], leBytes 8 5], let s := { hosted [] [] none with gmem := Mem.write [] 0x802000 c }
     s.xlate 0 0x10000002000 false = .ok 0x802000 ∧ s.xlate 0 0x10000002000 true = .ok 0x802000 ∧ s.bad 0x802000 8 = false ∧ s.isProt 0x802000 = false
       ∧ ofBytes (s.gmem.read 0x802000 8) = ofBytes c) := by decide +kernel
/-- The first, a middle and no piece left of 72 bytes. -/
theorem witness_HostSteps_copy : ∀ c ∈ [none, some 64, some 72], let b := block64 6 [(16, 8, 0x10000002000), (24, 8, 0x10000003000), (32, 4, 72)]
    let s := hosted [] b c
    let i := (walk0 c).copied.getD 0
    s.walk 0 = some (walk0 c) ∧ le b 32 4 % 4 = 0 ∧ (le b 32 4 ≤ i ∨ (inTrans (le b 16 8 + i) = true ∧ inTrans (le b 24 8 + i) = true ∧ isOk (s.vread 0 (le b 16 8 + i) 8) = true
      ∧ s.xlate 0 (le b 24 8 + i) true = .ok (0x803000 + i) ∧ s.isProt (0x803000 + i) = false)) := by decide +kernel
/-- A launch whose record places one context on core 1 of territory 1, and one that names no record. -/
def record0 : Record := ⟨0, 0x10000002000, [{ config2 with id := 3, size := 0x80, save := 0x10000004000, classes := [(19, ⟨0, false, false, 3, 3, 0, []⟩)] }], [(3, 1)], [], 3, 0, 1, 0, none, 0, 0, true⟩
def launching : State := { onTile0 (hosted [] (block64 1 [(16, 8, 0x10000002000), (24, 1, 1)]) none) (fun t => { t with ter := 1 }) with records := [record0], owned := [(0x80, 1, 0)] }
theorem witness_HostSteps_launch : (∃ s2 r, launching.installLaunch (walk0 none) 0x10000002000 1 0 = .ok (s2, r)) ∧ (∃ i reason c, launching.installLaunch (walk0 none) 0x10000002040 1 0 = .error (i, reason, c)) := by
  have ⟨a, ha⟩ := ok_of (r := launching.installLaunch (walk0 none) 0x10000002000 1 0) (by decide +kernel)
  have ⟨e, he⟩ := error_of (r := launching.installLaunch (walk0 none) 0x10000002040 1 0) (by decide +kernel)
  exact ⟨⟨a.1, a.2, ha⟩, ⟨e.1, e.2.1, e.2.2, he⟩⟩
def launch7 : Launch := ⟨7, 0, 0x10000002000, 0, 1, 3, 0, 1, false, []⟩
theorem witness_HostSteps_packets : ({ here with launches := [launch7] } : State).launchOf 7 = some launch7 ∧ launch7.done = false ∧ launch7.need ≤ launch7.kends + 1
    ∧ (packet0 26 (.walk 7 0x10000000400)).body = .walk 7 0x10000000400 ∧ (packet0 26 (.post 7 [])).body = .post 7 []
    ∧ (packet0 26 (.kend 7)).body = .kend 7 := by decide +kernel
/-- An event ring with room and one that is full. -/
theorem witness_HostSteps_events : (let s := hosted [] [] none
     (s.qget 0 36 4 + 2 ^ 32 - s.qget 0 40 4) % 2 ^ 32 < 2 ^ s.qget 0 32 1 ∧ s.xlate (s.qget 0 18 2) (s.qget 0 24 8 + 64 * (s.qget 0 36 4 % 2 ^ s.qget 0 32 1)) true = .ok 0x801000
       ∧ s.isProt 0x801000 = false ∧ s.qcb 0 + 40 ≤ 0x801000)
    ∧ (let s := { here with gmem := Mem.write [] 0 (block0 16) }
       2 ^ s.qget 0 32 1 ≤ (s.qget 0 36 4 + 2 ^ 32 - s.qget 0 40 4) % 2 ^ 32) := by decide +kernel
theorem witness_HostSteps : (hosted [] [] none).MemOk ∧ (hosted [] [] none).qbase + 64 * 32768 ≤ (hosted [] [] none).fbase := ⟨hosted_memOk _ _ _, by decide +kernel⟩

theorem witness_AdminSteps_map : (let b : MapBlock := ⟨0x10000020000, 0x40000, 0, 3, 1, 0⟩
     let d : VDev := ⟨0, 1, 0, 4, 0x40000, 0x50000, 0⟩
     let s := { mapped with vdevs := [d] }
     s.vdev 0 = some d ∧ b.size.toNat ≤ 2 ∧ b.rw.toNat ≤ 3 ∧ b.target = 1 ∧ b.pa.toNat < 2 ^ 52 ∧ b.va.toNat % pageBytes b.size.toNat = 0 ∧ b.pa.toNat % pageBytes b.size.toNat = 0
       ∧ inTrans b.va.toNat = true ∧ inTrans (b.va.toNat + pageBytes b.size.toNat - 1) = true ∧ d.winLo.toNat ≤ b.pa.toNat ∧ b.pa.toNat + pageBytes b.size.toNat ≤ d.winHi.toNat
       ∧ ∀ l ∈ s.leaves, l.v = 0 → b.va.toNat + pageBytes b.size.toNat ≤ l.va.toNat ∨ l.va.toNat + pageBytes l.size ≤ b.va.toNat)
    ∧ (let b : MapBlock := ⟨0x10000000000, 0, 0, 0, 0, 0⟩
       (mapped.vdev 0).isSome = true ∧ b.size.toNat ≤ 2 ∧ b.va.toNat % pageBytes b.size.toNat = 0 ∧ inTrans b.va.toNat = true ∧ mapped.leafNow 0 b.va.toNat = some leaf0 ∧ leaf0.va = b.va
         ∧ leaf0.size = b.size.toNat)
    ∧ mapped.fadingOf (.via none) = none := by decide +kernel
/-- An invalidation of the mailbox's: under way to two tiles, or acknowledged by all. -/
def invalidating (ts : List Nat) : State := { mapped with leaves := [], fading := [⟨.via none, leaf0, ts⟩] }
theorem witness_AdminSteps_invalidation : (invalidating []).fadingOf (.via none) = some ⟨.via none, leaf0, []⟩
    ∧ (∀ f ∈ (invalidating []).fading, f.leaf.maps 0 0x10000000000 = true → f.tiles = []) ∧ (invalidating []).leafNow 0 0x10000000000 = none
    ∧ (let s : State := { mapped with fading := [⟨.core 0 0, leaf0, []⟩] }
       s.fadingOf (.core 0 (s.coreAt 0).fir.serial) = some ⟨.core 0 0, leaf0, []⟩) := by decide +kernel
/-- R295: while a tile has not acknowledged, an access may use the old entry or the new state; its acknowledgement takes it from the list. -/
theorem test_invalidation : (invalidating [0, 8]).leafAt 0 0x10000000000 = (if Config.oldEntry (invalidating [0, 8]).tick then some leaf0 else none)
    ∧ ((invalidating [0, 8]).acknowledge 0).fading = [⟨.via none, leaf0, [8]⟩] := ⟨rfl, by decide +kernel⟩
theorem noGrant_here : ∀ t, here.noGrant t = true := by
  intro t
  show ((here.tileAt t).granted.isEmpty) = true
  unfold State.tileAt vget
  split
  · rename_i h; simp [here, State.reset, Tile.reset]
  · rfl
theorem witness_AdminSteps_cancel : (let s := { here with launches := [launch7] }
     (s.launchOf 7).isSome = true ∧ (∀ t, s.noGrant t = true) ∧ s.launchOf 8 = none ∧ ∀ c, ((s.coreAt c).ctxs.map (·.id)).Nodup) := by
  refine ⟨by decide +kernel, noGrant_here, by decide +kernel, fun c => ?_⟩
  unfold State.coreAt
  split
  · decide +kernel
  · simp [here, State.reset, look, Core.reset, Core.ctxs]
theorem witness_AdminSteps_tiles : (1 ≤ 63 ∧ 63 ≤ 63 ∧ (3 : DWord) ≠ 0 ∧ (∀ t, t < 64 → (3 : DWord).getLsbD t = true → (here.tileAt t).ter = 0 ∧ (here.tileAt t).xfer = .none)
      ∧ connected ((List.range 64).filter fun t => (3 : DWord).getLsbD t || (here.tileAt t).ter == (BitVec.ofNat 6 63)) = true)
    ∧ (let s := { here with tiles := (here.tiles.set 0 { Tile.reset with ter := 1 }).set 1 { Tile.reset with ter := 1, home := true } }
       (∀ t, t < 64 → (1 : DWord).getLsbD t = true → (s.tileAt t).ter = 1 ∧ (s.tileAt t).xfer = .none ∧ (s.tileAt t).granted = [])
         ∧ connected ((List.range 64).filter fun t => (s.tileAt t).ter == 1 && !(1 : DWord).getLsbD t) = true
         ∧ s.homeOf (BitVec.ofNat 6 1) = some 1) := by refine ⟨?_, ?_⟩ <;> decide +kernel
theorem witness_AdminSteps_entries : (let e : DWord := 0x8FFF010000001000
     e.extractLsb' 60 3 = 0 ∧ e.extractLsb' 32 8 = 0 ∧ e.getLsbD 63 = true ∧ e.toNat % 2 ^ 32 ≠ 0 ∧ (0 : DWord).getLsbD 63 = false ∧ (0 : DWord).extractLsb' 60 3 = 0)
    ∧ ((1 : Byte) ≠ 0 ∧ (0 : Word).toNat ≤ (65536 : Word).toNat ∧ (65536 : Word).toNat ≤ 65536
      ∧ (∀ d ∈ here.vdevs, d.v ≠ 4095 → d.fenceHi ≤ (0 : Word).toNat ∨ (65536 : Word).toNat ≤ d.fenceLo) ∧ here.inUse 4095 = false)
    ∧ (here.vdev 0).isSome = true ∧ (0x10000000000 : DWord).toNat % 64 = 0 ∧ inTrans (0x10000000000 : DWord).toNat = true
    ∧ (let pa : DWord := 0x5FFFFF0000
       pa.toNat % 0x10000 = 0 ∧ (0x10000 : DWord).toNat % 0x10000 = 0 ∧ pa.toNat + (0x10000 : DWord).toNat ≤ 384 * 2 ^ 30 ∧ here.reservedPages (pa.toNat / 0x10000) 1 = false
         ∧ (∀ o ∈ here.owned, o.1 + o.2.1 ≤ pa.toNat / 0x10000 ∨ pa.toNat / 0x10000 + 1 ≤ o.1))
    ∧ (let s := { here with owned := [(0x80, 2, 0)], tenants := [(9, [1])] }
       s.ownsPages 0 (s.owned.length + 1) 0x80 1 = true ∧ s.leaves = [] ∧ (look s.tenants 9).isSome = true ∧ (∀ d ∈ s.vdevs, d.handle ≠ 9) ∧ look s.tenants 8 = none) := by decide +kernel
theorem witness_AdminSteps_tenant : (8 : DWord) ≠ 0 ∧ inTrans (0x10000000000 : DWord).toNat = true ∧ ∃ bs, mapped.vread 0 (0x10000000000 : DWord).toNat 512 = .ok bs :=
  ⟨by decide +kernel, by decide +kernel, vread_page rfl rfl rfl _ _ (by decide +kernel) (by decide +kernel)⟩
def request (n : BitVec 6) : Packet := packet0 30 (.service 0x10000000000 n)
def serving (n : BitVec 6) (block : List Byte) : State := onTile0 { mapped with
  core := { core1 with status := .answer (.service 3 0x10000000000 n) }, service := [request n], gmem := Mem.write [] 0x800000 block } fun t => { t with ter := 1 }
theorem witness_AdminSteps_services : (∀ n, (serving n []).service = request n :: [] ∧ (request n).body = .service 0x10000000000 n ∧ (serving n []).fadingOf (.core 0 (request n).serial) = none)
    ∧ (∀ n ∈ [(0 : BitVec 6), 1, 2, 3], (serving n []).vread (request n).vdev (0x10000000000 : DWord).toNat 64 = .ok (List.replicate 64 0))
    ∧ (let bs := padTo 64 (leBytes 8 0x1000000FFFF)
       (serving 2 bs).vread 0 0x10000000000 64 = .ok bs ∧ inTrans (le bs 0 8) = true ∧ (serving 2 bs).leafNow 0 (le bs 0 8) = some leaf0)
    ∧ (inTrans 0x10000020000 = true ∧ mapped.leafNow 0 0x10000020000 = none)
    ∧ (let bs := padTo 40 (leBytes 8 0x10000000100)
       le bs 0 8 % 64 = 0 ∧ inTrans (le bs 0 8) = true ∧ (serving 3 bs).rangeOk 0 (le bs 0 8) 704 true = true ∧ zeroAt bs (span 40 64) = true) :=
  ⟨fun _ => ⟨rfl, rfl, rfl⟩, by decide +kernel, by decide +kernel, by decide +kernel, by decide +kernel⟩
theorem witness_AdminSteps_answer : ∀ n ∈ [(0 : BitVec 6), 3], let c := ofCoord (request n).src
    ((serving n []).coreAt c).status = .answer (.service 3 0x10000000000 n) ∧ ((serving n []).coreAt c).fir.serial = (request n).serial
      ∧ (serving n []).trip 23 (request n).ter firmwareCore c = .there := by
  intro n h
  rw [show ofCoord (request n).src = 0 from oc0]
  revert n
  decide +kernel
theorem witness_AdminSteps : (some 0 : Option Nat).isSome = true ∧ here.recovery = false := by decide +kernel

theorem length_manifest (j : Job) : j.manifest.length = 64 + 96 * j.shards.length := by
  have hp (n : Nat) (bs : List Byte) : (padTo n bs).length = n := by simp [padTo]
  have hl (n v : Nat) : (leBytes n v).length = n := length_leBytes n v
  have hz (l : List (Shard × Nat)) (f : Shard × Nat → List Byte) (h : ∀ e, (f e).length = 96) : (l.flatMap f).length = 96 * l.length := by
    induction l with
    | nil => rfl
    | cons a l ih => rw [List.flatMap_cons, List.length_append, h, ih, List.length_cons]; omega
  unfold Job.manifest
  rw [List.length_append, hp, hz, List.length_zipIdx]
  intro e
  simp only [List.length_append, hp, hl]
/-- A second readable and writable page, for the checkpoint's destination. -/
def leafW : Leaf := ⟨0, 0x10000010000, 0, 0x810000, true, true, 0, 0⟩
def shard0 : Shard := ⟨1, 0x10000000000, 4096⟩
def job5 : Job := {
  id := 5, v := 0, stepKind := true, trigger := 1, marksPer := 2, fence := 0, dest := 0x10000010000, shards := [shard0], share := 8, queue := 0, marks := 0, held := [],
  lastStep := 0, since := 0, fired := false, boundary := none, arming := false, active := false, left := [], copied := [], step := 0, armedAt := 0, lost := none }
def jobbed (j : Job) : State := { here with leaves := [leaf0, leafW], owned := [(0x80, 2, 0)], vdevs := [⟨0, 1, 0, 4, 0, 0, 0⟩], jobs := [j] }
def page5 : CkPage := ⟨0x800, 0x10000000000, 4096, 0, []⟩
theorem witness_CheckpointSteps_marks :
    (here.jobs.find? (·.v = (packet0 30 .mark).vdev) = none)
    ∧ (∀ j ∈ [{ job5 with marks := 1 }, { job5 with lastStep := 1 }, job5], (jobbed j).jobs.find? (·.v = 0) = some j ∧ (jobbed j).job j.id = some j)
    ∧ ({ job5 with marks := 1 }.marks % job5.marksPer ≠ 0 ∧ ({ job5 with marks := 1 }).boundary ≠ some (1 / 2 + 1))
    ∧ (({ job5 with lastStep := 1 } : Job).due 1 = false ∧ job5.marks % job5.marksPer = 0 ∧ job5.due (job5.marks / job5.marksPer + 1) = true)
    ∧ (let s := onHere fun k => { k with status := .answer .mark }
       (s.coreAt 0).status = .answer .mark ∧ (s.coreAt 0).fir.serial = 0 ∧ s.trip 23 (s.terOf 0) checkpointCore 0 = .there) := by
  refine ⟨?_, by decide +kernel, by decide +kernel, by decide +kernel, by decide +kernel⟩
  rfl
theorem witness_CheckpointSteps_boundaries : (let j := { job5 with stepKind := false, trigger := 2 ^ 20 }
     let s := { jobbed j with cycle := 0x100000 }
     s.job 5 = some j ∧ j.stepKind = false ∧ j.fired = false ∧ j.since.toNat + j.trigger ≤ s.cycle.toNat)
    ∧ (let j := { job5 with arming := true }
       (jobbed j).job 5 = some j ∧ j.arming = true ∧ (jobbed j).shardsFault j.v j.shards = none ∧ (jobbed j).pagesOf j = [page5])
    ∧ (let j := { job5 with active := true }
       (jobbed j).job 5 = some j ∧ j.left = [] ∧ (jobbed j).shardGone j = none ∧ (jobbed j).destWaits j = false ∧ (jobbed j).destFault j.v j.dest.toNat (j.manifest.length + 512) = none) := by
  refine ⟨by decide +kernel, by decide +kernel, by decide +kernel, rfl, by decide +kernel, by decide +kernel, ?_⟩
  rw [length_manifest]
  decide +kernel
theorem witness_CheckpointSteps_failures : (let j := { job5 with arming := true }
     let s := { jobbed j with leaves := [leafW] }
     s.job 5 = some j ∧ j.arming = true ∧ j.left = [] ∧ s.shardsFault j.v j.shards = some (0x05, 0x10000000000)) := by decide +kernel
/-- A restore of the first page's first 4 KiB into the second page. -/
def restoring5 (left : List (Nat × Nat × List Byte)) : State := { jobbed job5 with restore := some ⟨0, 0, 0, left, [(0x10000010000, 4096)]⟩ }
theorem witness_CheckpointSteps_restore : (restoring5 []).restore = some ⟨0, 0, 0, [], [(0x10000010000, 4096)]⟩
    ∧ (restoring5 [(0x10000000000, 0x10000010000, [])]).rangeFault 0 true false 2 0x10000010000 4096 = none
    ∧ ∃ bs, (restoring5 [(0x10000000000, 0x10000010000, [])]).vread 0 0x10000000000 4096 = .ok bs := by
  exact ⟨by decide +kernel, by decide +kernel, vread_page rfl rfl rfl _ _ (by decide +kernel) (by decide +kernel)⟩
theorem witness_CheckpointSteps_pageCopy : (let j := { job5 with active := true, left := [page5] }
     let s := { jobbed j with protect := [0x800] }
     s.MemOk ∧ s.job 5 = some j ∧ s.jobs = [j] ∧ s.shardGone j = none ∧ s.bad (4096 * page5.key) 4096 = false ∧ s.protect = [page5.key]
       ∧ (∀ i, i < 4096 → s.xlate j.v (j.dest.toNat + page5.off + i) true = .ok (0x811000 + i)) ∧ s.destFault j.v (j.dest.toNat + page5.off) 4096 = none ∧ s.held = []
       ∧ ∃ key bs why, ({ s with held := [⟨.protectedWrite 0x800000 [1] .host, 0x800000, [1]⟩] } : State).held = [⟨.protectedWrite key bs why, key, bs⟩] ∧ key / 4096 = page5.key) := by
  refine ⟨memOk_of rfl rfl rfl, by decide +kernel, rfl, by decide +kernel, by decide +kernel, rfl, fun i hi => ?_, by decide +kernel, rfl, ⟨_, _, _, rfl, by decide +kernel⟩⟩
  have hd : (({ job5 with active := true, left := [page5] } : Job).dest.toNat + page5.off + i) = 0x10000011000 + i := by
    have : ({ job5 with active := true, left := [page5] } : Job).dest.toNat + page5.off = 0x10000011000 := by decide +kernel
    simp only at this ⊢
    rw [this]
  rw [hd]
  have h1 : ¬ (0x10000011000 + i < 0x10000010000) := by omega
  have h2 : 0x10000011000 + i < 0x10000020000 := by omega
  have hl : (jobbed { job5 with active := true, left := [page5] }).leafAt 0 (0x10000011000 + i) = some leafW := by
    unfold State.leafAt State.leafNow
    rw [show (jobbed { job5 with active := true, left := [page5] }).fading = [] from rfl,
      show (jobbed { job5 with active := true, left := [page5] }).leaves = [leaf0, leafW] from rfl, List.find?_nil, List.find?_cons_of_neg, List.find?_cons_of_pos]
    · simp [leafW, pageBytes, Leaf.maps]; omega
    · simp [leaf0, pageBytes, Leaf.maps]; omega
  have hx : (jobbed { job5 with active := true, left := [page5] }).xlate 0 (0x10000011000 + i) true = .ok (leafW.key (0x10000011000 + i)) := by
    unfold State.xlate
    rw [hl]; rfl
  refine hx.trans ?_
  simp [leafW, Leaf.key, gkey]
  omega
/-- The descriptor of a job of one shard, at its least trigger and most marks. -/
def descr5 : List Byte := leBytes 2 1 ++ leBytes 2 255 ++ leBytes 2 0 ++ [0, 0] ++ leBytes 8 (2 ^ 20) ++ leBytes 4 8192 ++ leBytes 2 3 ++ leBytes 2 1 ++ leBytes 8 0x10000010000
  ++ leBytes 8 0x10000008040 ++ [8, 0] ++ leBytes 2 0 ++ leBytes 20 0
def shards5 : List Byte := leBytes 4 1 ++ leBytes 4 0 ++ leBytes 8 0x10000000000 ++ leBytes 8 4096
def submitted : State := { jobbed job5 with jobs := [], gmem := Mem.write (Mem.write [] 0x808000 descr5) 0x808040 shards5 }
theorem witness_CheckpointSteps_job : submitted.recovery = false ∧ (0x10000008000 : DWord).toNat % 64 = 0 ∧ submitted.vread 0 0x10000008000 64 = .ok descr5
    ∧ submitted.vread 0 (le descr5 32 8) (24 * le descr5 22 2) = .ok shards5 ∧ le descr5 0 2 = 1 ∧ 1 ≤ le descr5 2 2 ∧ le descr5 2 2 ≤ 255
    ∧ (le descr5 6 1 = 0 ∧ 2 ^ 20 ≤ le descr5 8 8 ∧ le descr5 8 8 ≤ 2 ^ 48) ∧ 1 ≤ le descr5 16 4 ∧ le descr5 16 4 ≤ 8192 ∧ 1 ≤ le descr5 22 2 ∧ le descr5 22 2 ≤ 4096
    ∧ 1 ≤ le descr5 40 1 ∧ le descr5 40 1 ≤ 8 ∧ le descr5 42 2 < 32768 ∧ zeroAt descr5 (7 :: 41 :: span 44 64) = true ∧ le descr5 24 8 % 0x10000 = 0
    ∧ (∀ h ∈ shardsIn shards5 1, h.va.toNat % 4096 = 0 ∧ h.len % 4096 = 0 ∧ 4096 ≤ h.len ∧ h.len ≤ 2 ^ 40) ∧ (∀ i, i < 1 → le shards5 (24 * i + 4) 4 = 0)
    ∧ anyMeet ((le descr5 24 8, destLen (shardsIn shards5 1)) :: (shardsIn shards5 1).map fun h => (h.va.toNat, h.len)) = false
    ∧ (∀ j ∈ submitted.jobs, j.v ≠ 0 ∧ j.id ≠ 255) ∧ submitted.ownsFence 0 (le descr5 20 2) = true ∧ submitted.shardsFault 0 (shardsIn shards5 1) = none
    ∧ submitted.rangeOk 0 (le descr5 24 8) (destLen (shardsIn shards5 1)) true = true := by
  refine ⟨?_, ?_, ?_, ?_, ?_, ?_, ?_, ?_, ?_, ?_, ?_, ?_, ?_, ?_, ?_, ?_, ?_, ?_, ?_, ?_, ?_, ?_, ?_, ?_⟩ <;> decide +kernel
theorem witness_CheckpointSteps : (jobbed job5).job 5 = some job5 ∧ here.recovery = false ∧ (List.replicate 512 (1 : Byte)).length = 512 := by decide +kernel

def facts : StartFacts := ⟨false, false, false, [], false, false, false, false, 0⟩
/-- Payloads of the mailbox: an unknown code, IDENTITY, DEBUG for context 1, ADMIN CANCEL of launch 5. -/
def payloads : List (List Byte) := [leBytes 2 12, leBytes 2 8, leBytes 2 11 ++ [0, 0] ++ leBytes 2 1 ++ [1], leBytes 2 9 ++ [0, 0, 4, 3, 0, 0, 0, 0, 0, 0] ++ leBytes 4 5]
theorem witness_MailboxSteps_payloads : (∀ bs ∈ payloads, ({ here with submitted := [bs] } : State).submitted = bs :: [] ∧ le bs 2 2 = 0)
    ∧ payloads.map (fun bs => le bs 0 2) = [12, 8, 11, 9] ∧ le (payloads.getD 2 []) 6 1 = 1 ∧ le (payloads.getD 3 []) 4 1 = 4 ∧ le (payloads.getD 3 []) 5 1 = 3
    ∧ zeroAt (slice (payloads.getD 3 []) 4 64) (span 2 8) = true ∧ 12 ∉ [1, 2, 3, 4, 5, 6, 7, 8, 9, 10, 11, 0x601, 0x602, 0x603, 0x604] := by decide +kernel
/-- R307: the commands of the mailbox run one at a time, in their order. -/
theorem test_mailboxOrder : (({ here with agenda := [.identity, .layout] } : State).inOrder [.identity] .layout) = false
    ∧ (({ here with agenda := [.identity, .layout] } : State).inOrder [] .identity) = true := by decide +kernel
theorem witness_MailboxSteps : (here.fwBad facts = false ∧ facts.meshFails = false ∧ facts.clearFails = false ∧ facts.cxlFails = false ∧ facts.fusesFail = false ∧ facts.hbmFails = false
      ∧ facts.testFails = false) ∧ here.stopped = false ∧ here.recovery = false ∧ here.failed = 0
    ∧ (({ here with failed := 2 } : State).fwBad { facts with fwFails := true } = true ∧ ({ here with failed := 2 } : State).failed = 2)
    ∧ ({ here with fwNext := some [] } : State).fwNext = some [] ∧ ({ here with stopped := true } : State).stopped = true
    ∧ here.progress.getD (0, 0, []) = (0, 0, []) ∧ ({ here with progress := some (511, 7, []) } : State).progress.getD (0, 0, []) = (511, 7, [])
    ∧ (here.coreAt 0).resident = true ∧ (here.coreAt 0).status ≠ .idle
    ∧ (∃ e ∈ here.cores, (e.2.byId 1).isSome = true)
    ∧ (let s := onHere fun k => { k with ctx := { ctx1 with prot := true } }
       (s.coreAt 0).sealed 0 = true ∧ (s.coreAt 0).sealed 0xFF8 = true ∧ (s.coreAt 0).sealed 0x1000 = false ∧ (s.coreAt 0).clean = true) ∧ 0x17FF8 + 8 ≤ 0x18000
    ∧ 1023 % 2 ^ 24 < 1024 ∧ here.bad 0 64 = false := by decide +kernel
theorem witness_MailboxSteps_start : here.MemOk := here_memOk

/-! ## Words that the spec writes out (04, 05, 07, 08, 09, 10, 12, 13, 15, 16, 18, 26) -/

theorem test_spec_words_scalar : decodesTo [
    (.add 0 0 0, [0x04000000]), (.bnz 4 (BitVec.ofInt 20 (-3)), [0x5C4FFFFD]), (.beq 4 5 13, [0x4041400D]), (.bz 6 33, [0x58600021]), (.loop 17 18 12 13, [0x6D148C0D]),
    (.loop 10 11 12 0, [0x6CA2CC00]), (.loop 10 14 13 11, [0x6CA38D0B]), (.psync 3 8, [0xB400C804]), (.chunk, [0xB4000000]), (.csrs 0 4 0x000, [0xB0012000]), (.csrr 56 0x001, [0xB3800001]),
    (.csrc 0 11 0x000, [0xB002F000]), (.tret true, [0xB8000101]), (.fwcall 4 6 3, [0xB8418307]), (.stw 5 28 0x60 none, [0x845E2002, 0x00006000]),
    (.xidrd 4 2, [0xAC400200]), (.xidwt 5 2, [0xAC014201])] = true := by decide +kernel
theorem test_spec_words_vector : decodesTo [
    (.vsplat 1 4 0 .i32, [0xE4110000]), (.vadd 3 1 2 2 .f32, [0xC0304248]), (.vfma 4 5 6 0 .f64, [0xC8414614]), (.vceq 1 1 2 0 .i32, [0xD4104200]), (.vcvt 2 1 .bf16 0 .f32, [0xDC204308]),
    (.vqnt 7 1 2 0, [0xDC704209]), (.vrsum 2 3 0 .f32, [0xE020C008]), (.mpop 4 1, [0xEC404003]), (.vst 1 30 0x800 0 none, [0x881F6001, 0x00080000]),
    (.vgath 5 false 30 0x200 1 6, [0x885F2013, 0x00020006]), (.vext 14 0 12 .i32, [0xE4E00C01]), (.vins 0 14 12 0 .i32, [0xE4038C02]), (.vdiv 4 2 3 0 .f64, [0xD8408314]),
    (.vldbc 6 3 15 0x208 0 none, [0x8867B002, 0x00020800]), (.vext 18 7 0 .f64, [0xE521C015])] = true := by decide +kernel
theorem test_spec_words_messages : decodesTo [
    (.send 0 7 0 3 false false, [0x9001C018]), (.send 0 6 1 3 false false, [0x90018218]), (.send 1 5 0 7 false false, [0x90114038]), (.reply 0 2 7 false, [0x94000438]), (.done, [0x94004000]),
    (.launch 6, [0x94608000]), (.clsmask 5, [0x9400CA00]), (.clsunm 5, [0x94010A00]), (.kend, [0x94014000]), (.vdone, [0x94018000]), (.terdem 4, [0x9441C000]), (.termap 6, [0x94620000]),
    (.stepmk, [0x94024000]), (.hpost 5, [0x94528000]), (.binit 3 4 5, [0x9C414018]), (.barr 5, [0x9C000428]), (.barrx 5 7, [0x9C700828]), (.baddb 3 8, [0x9C800C18]), (.bwait 3 6, [0x9C601018]),
    (.bstat 3 9, [0x9C901418]), (.qrd 10 0, [0xA0A00000]), (.qwr 5 8, [0xA0520001]), (.qrdv 3 5, [0xA0314002]), (.qwrv 6 2, [0xA0608003]), (.qstat 4 1, [0xA0404004]),
    (.chbind 4 6 true, [0xA4418100]), (.chunb 4, [0xA4400001]), (.cheos 5, [0xA4500002]), (.chgrow 5 7, [0xA451C003]), (.chstat 4 5, [0xA4414004])] = true := by decide +kernel
theorem test_spec_words_commands : decodesTo [
    (.mld 2 2 true 0x800 96, [0xF8000000, 0x122, 0x800, 0, 0x60, 0, 0, 0]), (.mma 1 4 5 3 2, [0xF8010000, 0x00030541, 2, 0, 0, 0, 0, 0]), (.mzero 2, [0xF8020000, 2, 0, 0, 0, 0, 0, 0]),
    (.mst 1 0x400 64, [0xF8030000, 1, 0x400, 0, 0x40, 0, 0, 0]), (.mqnt 4 5 5 0x1000 8 2 0x1100, [0xF8040000, 0x554, 0x1000, 0, 0x00020008, 0x1100, 0, 0]),
    (.mamax 0 2, [0xF8050000, 0x20, 0, 0, 0, 0, 0, 0])] = true := by decide +kernel
/-- One code past bfi; a vmulh of FP32; a reserved word 3 of an mma (04, Worked encodings). -/
theorem test_spec_words_refused : decodeWords [0x04100623] = .illegal 0 ∧ decodeWords [0xC4304249] = .illegal 0
    ∧ decodeWords [0xF8010000, 0x00030541, 2, 1, 0, 0, 0, 0] = .illegal 3 := by decide +kernel

/-! ## Results, worked by hand from the rules -/

def after (i : Instr) (s : State) : State := match exec i s with
  | .next t => t
  | _ => s
/-- 05: div of −7 by 2 gives −3 with remainder −1; rem of 7 by −2 gives 1. -/
theorem test_div : (let s := withS [(1, 0xFFFFFFF9), (2, 2), (3, 7), (4, 0xFFFFFFFE)]
    (after (.div 5 1 2) s).s 5 = 0xFFFFFFFD ∧ (after (.rem 5 1 2) s).s 5 = 0xFFFFFFFF ∧ (after (.rem 5 3 4) s).s 5 = 1 ∧ (after (.divn 5 1 0) s).s 5 = 0xFFFFFFFF) := by decide +kernel
theorem test_add_wraps : (after (.add 3 1 2) (withS [(1, 0xFFFFFFFF), (2, 1)])).s 3 = 0 ∧ (after (.add 3 1 2) here).pc = 4 := by decide +kernel
theorem test_shift_counts : (let s := withS [(1, 0x80000001), (2, 33)]
    (after (.shl 3 1 2) s).s 3 = 2 ∧ (after (.shr 3 1 2) s).s 3 = 0x40000000 ∧ (after (.sra 3 1 2) s).s 3 = 0xC0000000 ∧ (after (.ror 3 1 2) s).s 3 = 0xC0000000) := by decide +kernel
/-- R60 with position 4 and width 8. -/
theorem test_fields : (let s := withS [(1, 0x12345678), (2, 0x804), (3, 0xFFFFFFFF)]
    (after (.bfx 5 1 2) s).s 5 = 0x67 ∧ (after (.bfi 3 1 2) s).s 3 = 0xFFFFF78F) := by decide +kernel
/-- A pair's carry, and s0 that discards. -/
theorem test_pair_carry : (let s := withS [(2, 0xFFFFFFFF), (4, 1)]
    (after (.dadd 3 1 2) s).s 6 = 0 ∧ (after (.dadd 3 1 2) s).s 7 = 1 ∧ (after (.dadd 0 1 2) s).s 1 = 0) := by decide +kernel
/-- R63: one step from SEED 0, by hand. -/
theorem test_rand : (after (.rand 3) here).s 3 = 0x40aec71f ∧ (after (.rand 3) here).prog.seed = 0x40aec71f := by decide +kernel
/-- R69: ten steps of 3 from 0 are four trips; from 5 down to 0 by 2 are three. -/
theorem test_trip_count : tripCount 0 10 3 = 4 ∧ tripCount 5 0 (-2) = 3 ∧ tripCount 10 10 1 = 0 := by decide +kernel
/-- A loop of one instruction: its end steps the induction register and returns, then goes on. -/
theorem test_loop : (let s := (withS [(5, 0)]).setRegs { (withS [(5, 0)]).regs with l0 := ⟨2, 0, 4, 5, 3, true⟩ }
    (after (.add 9 0 0) s).s 5 = 3 ∧ (after (.add 9 0 0) s).pc = 0 ∧ (after (.add 9 0 0) (after (.add 9 0 0) s)).s 5 = 6 ∧ (after (.add 9 0 0) (after (.add 9 0 0) s)).pc = 4) := by decide +kernel
/-- R66: taken at its target, outside the image ACCESS with the target. -/
theorem test_branch : (after (.beq 0 0 3) here).pc = 12 ∧ (after (.bne 0 0 3) here).pc = 4 ∧ (after (.beq 0 0 4) handled).trapRegs = ⟨0x03, 16, 0⟩ := by decide +kernel
/-- 02: offset 0x0940 of c(37,21) is 0x0000_0001_154A_0940; c(40,16) shares its tile and c(48,21) does not. -/
theorem test_global_alias : scrPlace 0 0x1154A0940 = some (128 * 21 + 37, 0x940) ∧ tileOf (128 * 16 + 40) = tileOf (128 * 21 + 37) ∧ tileOf (128 * 21 + 48) ≠ tileOf (128 * 21 + 37)
    ∧ tileOf (128 * 21 + 37) = 2 + 8 * 2 := by decide +kernel
/-- A held store forwards to a later load of its chunk, least significant byte first, sign-extended or not (R77, R79). -/
theorem test_store_forwards : (let s := after (.stw 1 0 0x40 none) (withS [(1, 0x8081FF01)])
    (after (.ldb 2 0 0x41 none) s).s 2 = 0xFFFFFFFF ∧ (after (.ldhn 2 0 0x42 none) s).s 2 = 0x8081 ∧ (after (.ldb 2 0 0x40 none) s).s 2 = 1 ∧ s.core.mem.get 0x40 = 0) := by decide +kernel
/-- R118: −0 equals +0, a NaN is unequal; vcne of a NaN sets its bit. -/
theorem test_compare : (let s := (here.setV 1 0x7FC0000080000000).setV 2 0x7FC0000000000000
    (after (.vceq 1 1 2 0 .f32) s).m 1 = 0xFFFD ∧ (after (.vcne 1 1 2 0 .f32) s).m 1 = 2 ∧ (after (.vceq 1 1 2 0 .f32) s).prog.fflags = 0) := by decide +kernel
/-- Round to nearest even at a tie: 1 + 2^−24 is 1 in FP32 and sets NX; a conversion of 1 + 2^−8 to BF16 is 1. -/
theorem test_rounding : (let s := (here.setV 1 0x3F800000).setV 2 0x33800000
    lane ((after (.vadd 3 1 2 0 .f32) s).v 3) 32 0 = 0x3F800000 ∧ (after (.vadd 3 1 2 0 .f32) s).prog.fflags ≠ 0)
    ∧ lane ((after (.vcvt 3 1 .bf16 0 .f32) (here.setV 1 0x3F808000)).v 3) 16 0 = 0x3F80 := by decide +kernel
/-- One rounding: √2 in FP32, 1/3 in FP32, and an exact FMA whose product alone would round. -/
theorem test_correct_rounding : lane ((after (.vsqrt 3 1 0 .f32) (here.setV 1 0x40000000)).v 3) 32 0 = 0x3FB504F3
    ∧ lane ((after (.vrcp 3 1 0 .f32) (here.setV 1 0x40400000)).v 3) 32 0 = 0x3EAAAAAB
    ∧ lane ((after (.vfma 3 1 1 0 .f32) ((here.setV 1 0x3F800001).setV 3 0xBF800002)).v 3) 32 0 = 0x28800000 := by decide +kernel
/-- Integer lanes wrap; an inactive lane stays. -/
theorem test_vector_wraps : (let s := ((here.setV 1 0xFF7F).setV 2 0x0101).setM 1 1
    (after (.vadd 3 1 2 1 .i8) s).v 3 = 0x80 ∧ (after (.vadd 3 1 2 0 .i8) s).v 3 = 0x0080) := by decide +kernel
/-- R263, R265: trap 5 saves and goes to the handler; tret comes back with s56–s63 restored. -/
theorem test_trap : (let s := handled.setS 60 7
    let t := after (.trap 5) s
    t.trapRegs = ⟨0x12, 5, 0⟩ ∧ t.pc = 4 ∧ t.prog.tepc = 0 ∧ t.s 60 = 0 ∧ t.fir.inTrap = true ∧ (after (.tret false) t).s 60 = 7 ∧ (after (.tret false) t).pc = 0) := by decide +kernel
/-- R271, R272: a reserved rounding mode is discarded and the old value read. -/
theorem test_csr : (after (.csrw 3 1 0x010) (withS [(1, 5)])).prog.frm = 0 ∧ (after (.csrw 3 1 0x010) (withS [(1, 4)])).prog.frm = 4 ∧ (after (.csrs 3 1 0x012) (withS [(1, 6)])).prog.seed = 6 := by
  decide +kernel
/-- 15: a barrier enabled for class 4 with one arrival and bytes pending reads 0x4900_0001. -/
theorem test_bstat : (after (.bstat 3 9) (onHere fun k => { k with bars := [(3, ⟨2, 1, 64, false, 4, true, 7, false⟩)] })).s 9 = 0x49000001 := by decide +kernel
/-- R14: d0 and m0. -/
theorem test_hard_wired : (here.setD 0 5).d 0 = 0 ∧ (here.setM 0 5).m 0 = BitVec.allOnes 64 ∧ (here.setS 0 5).s 0 = 0 ∧ (here.setS 63 9).d 31 = 0x900000000 := by decide +kernel
/-- R196: −1 added to a word that holds 1 leaves 0, which is written back whole; cas with an unequal operand leaves the word. -/
theorem test_atomic : (let s := onHere fun k => { k with mem := Mem.write [] 0x40 [1, 0, 0, 0, 9] }
    atomicNew .add false 1 0xFFFFFFFF 0 = some 0 ∧ ((s.writeBack (s.coreAt 0).mem 0 0x40 [0, 0, 0, 0] 1).coreAt 0).mem.read 0x40 5 = [0, 0, 0, 0, 9]
      ∧ ((after (.atomicStep (packet0 21 (.atomic .cas false 0x100000040 2 9 none false))) s).coreAt 0).mem.read 0x40 4 = [1, 0, 0, 0]) := by decide +kernel
/-- R194: a deposit's bytes land at its address and nowhere else. -/
theorem test_deposit : (let t := after (.depositWrite (packet0 20 (.deposit 0x10000007F [7, 8] none none none))) here
    (t.coreAt 0).mem.read 0x7E 4 = [0, 7, 8, 0]) := by decide +kernel
/-- R206: the last of two arrivals with no bytes pending turns the phase. -/
theorem test_barrier : ((after (.barrierUpdate 0 [.arrive 3]) (onHere fun k => { k with bars := [(3, ⟨2, 1, 0, false, 4, false, 7, false⟩)] })).coreAt 0).bar 3
    = ⟨2, 0, 0, true, 4, false, 7, false⟩ := by decide +kernel
/-- R231, R234: the commit releases the chunk's store into the private port, whose drain performs it, and the next chunk starts. -/
theorem test_commit : (let t := after (.commitComplete 0) grantedStore
    (t.coreAt 0).seenByte 8 = 1 ∧ ((t.drain 0).coreAt 0).mem.read 7 6 = [0, 1, 2, 3, 4, 0] ∧ (t.coreAt 0).status = .running ∧ (t.coreAt 0).fir.chunk.held = []) := by decide +kernel
/-- R283, R284: a SIGNAL adds modulo 2^64; a LOOP node counts down (R285). -/
theorem test_signal : (let s := hosted (block64 3 [(2, 2, 3), (8, 8, 0xFFFFFFFFFFFFFFFF)]) [] none
    (after (.queueEntrySignal 0) (s.fenceAdd 3 2)).fence 3 = 1 ∧ (after (.queueEntrySignal 0) s).qhead 0 = 1)
    ∧ (let s := hosted [] (block64 5 [(8, 8, 0x10000000440), (16, 8, 0x10000002000)]) none
      let t := after (.nodeLoop 0) { s with gmem := s.gmem.write 0x802000 [0, 1] }
      t.gmem.read 0x802000 2 = [0xFF, 0] ∧ (t.walk 0).map (·.node) = some 0x10000000440) := by decide +kernel
/-- R289: a claim of two tiles gives each the territory, both bits of the mask and the size. -/
theorem test_claim : (let t := after (.adminClaim none 9 3) here
    (t.tileAt 0).ter = 9 ∧ (t.tileAt 1).mask = 3 ∧ (t.tileAt 1).size = 2 ∧ (t.tileAt 2).ter = 0 ∧ t.mailbox = leBytes 4 0) := by decide +kernel
/-- R287: the last kend completes the launch and raises its fence. -/
theorem test_kend : (let t := after (.kendArrival (packet0 26 (.kend 7))) { here with launches := [launch7] }
    t.fence 3 = 1 ∧ (t.launchOf 7).map (·.done) = some true) := by decide +kernel
/-- 9: offset 0x0A28 lies in bank 5, group 1 and row 20: a store there makes that pair stale (R129). -/
theorem test_stale : ((here.agentWrite 0 0x0A28 [1] 1).coreAt 0).stale = [(20, 1)] := by decide +kernel

/-! ## Witnesses: the clauses for special forms -/

/-- Level 0 open and nested level 1 open; a body past level 0's; one inside it; a body and a place past the image's end. -/
theorem witness_LoopOpensWithItsTripCount_nest :
    (let s := (looping 2).setRegs { (looping 2).regs with l1 := ⟨2, 0, 4, 6, 1, true⟩ }
     (s.setS 2 1).s 2 ≠ 0 ∧ (s.setS 2 1).bodyEnd ((0 : Byte).toNat + 1) ((s.setS 2 1).pc.toNat + 4) = some 8 ∧ s.regs.l0.on = true ∧ s.regs.l1.on = true)
    ∧ (let s := (looping 2).setS 2 1
       s.bodyEnd ((0 : Byte).toNat + 1) (s.pc.toNat + 4) = some 8 ∧ s.regs.l0.on = true ∧ s.regs.l0.stop.toNat < 8)
    ∧ (let s := (here.setRegs { here.regs with l0 := ⟨2, 0, 8, 5, 3, true⟩ }).setS 2 1
       s.bodyEnd ((0 : Byte).toNat + 1) (s.pc.toNat + 4) = some 8 ∧ s.regs.l0.on = true ∧ s.regs.l1.on = false ∧ 8 ≤ s.regs.l0.stop.toNat)
    ∧ (let s := (here.setRegs { here.regs with pc := 12 }).setS 2 1
       s.s 2 ≠ 0 ∧ s.bodyEnd ((0 : Byte).toNat + 1) (s.pc.toNat + 4) = none)
    ∧ (let s := (here.setRegs { here.regs with pc := 8 }).setS 2 1
       s.bodyEnd ((0 : Byte).toNat + 1) (s.pc.toNat + 4) = some 16 ∧ s.ctx.code.length ≤ (BitVec.ofNat 32 16).toNat) := by decide +kernel
/-- A commit of a global-alias store. -/
def grantedGlobal : State := granted.setChunk { granted.chunk with count := 1, held := [.store 0x100000008 none [1, 2, 3, 4] false 0] }
theorem witness_StoresChangeExactlyTheirBytes_alias : scrPlace 0 (0x100000008 : DWord).toNat = some (0, 8) ∧ 0x18000 ≤ (0x100000008 : DWord).toNat
    ∧ (grantedGlobal.coreAt 0).fir.chunk.held = [.store 0x100000008 none [1, 2, 3, 4] false 0] ∧ (grantedGlobal.coreAt 0).port = [] ∧ (8 : DWord).toNat < 0x18000
    ∧ (grantedGlobal.coreAt 0).status = .granted .run ∧ (grantedGlobal.tileAt (tileOf 0)).granted = [localOf 0] := by decide +kernel
/-- A translated address, whose owner is the streamer of its page. -/
theorem witness_RequestsHoldOnePacket_translated : (let ea : DWord := 0x10000000000
      ea.toNat / 64 = (ea.toNat + (63 : BitVec 6).toNat) / 64 ∧ mapped.reachFault ea.toNat 64 = none ∧ scrPlace mapped.cur ea.toNat = none
        ∧ mapped.xlate mapped.ctx.vdev ea.toNat true = .ok 0x800000 ∧ ea.toNat % 8 = 0 ∧ mapped.reachFault ea.toNat 8 = none)
    ∧ scrPlace here.cur (0x100000FE8 : DWord).toNat = some (0, 0xFE8) ∧ scrPlace here.cur (here.d 0).toNat = some (0, 0) := by decide +kernel
/-- No room for a reply; a store of core 0 on its way to global memory; one on its link. -/
theorem witness_WaitsPassWhenTheirConditionHolds_busy : here.replyRoom = true ∧ (onHere fun k => { k with pool := List.replicate 16 ⟨true, 0, 1, packet0 3 (.message [])⟩ }).replyRoom = false
    ∧ (let s := { here with agenda := [.globalStorePerformed 0 0x800000 [1] (.store 0x10000000000 1 0)] }
       s.chunkEmpty = true ∧ s.globalBusy s.cur = true)
    ∧ (let s := { here with link := [⟨0, 2 ^ 60, [0]⟩] }
       s.globalBusy s.cur = false ∧ s.linkBusy s.cur = true) ∧ here.linkBusy here.cur = false := by decide +kernel
theorem witness_CommandsArePushedWhole_full : 8 ≤ (onHere fun k => { k with mq := List.replicate 8 ⟨1, 1, 0, .cmd (.mzero 0), 0, none, 0, none, false⟩ }).core.commands.length
    ∧ 8 ≤ ((onHere fun k => { k with copies := List.replicate 8 cast }).core.copies.filter fun t => t.chan == 2 && !t.done).length
    ∧ (onHere fun k => { k with copies := List.replicate 8 cast }).chunk.held = [] := by decide +kernel
theorem witness_ControlRegistersReadAndWrite_qstat : (stored 0).chunkEmpty = false ∧ (3 : Reg) ≠ 0 ∧ here.chunkEmpty = true ∧ here.matrixBusy = false ∧ here.core.commands.length < 8
    ∧ here.chunk.held = [] := by decide +kernel
/-- The image's page is readable, without a bad line; its firing waits for a page, which then is free, with its tag still to write or not. -/
theorem witness_ContextImagesAndServices_held : (atPage.drain atPage.cur).core.clean = true ∧ (atPage.drain atPage.cur).badBlock 0 (atPage.d 2).toNat atPage.ctx.imageLen = none
    ∧ (∀ tag ∈ [none, some ((0x10000000030 : DWord), List.replicate 16 (0 : Byte))], let s := onHere fun k => { k with status := .answer (.saved [0x800] tag) }
       s.cur < 8192 ∧ s.heldFree [0x800] = true ∧ s.core.status = .answer (.saved [0x800] tag) ∧ s.ctx.prot = false)
    ∧ (onHere fun k => { k with status := .answer (.served 3 0 [0x800]) }).core.status = .answer (.served 3 0 [0x800])
    ∧ (onHere fun k => { k with status := .answer (.served 3 0 [0x800]) }).heldFree [0x800] = true := by decide +kernel
/-- Writes of a core where nothing is protected hold nothing; where the first is protected they hold at least it. -/
theorem held_vwriteBy_none (c v : Nat) : ∀ (bs : List Byte) (s : State) (va : Nat), s.protect = [] → s.held = [] → (s.vwriteBy c v va bs).held = [] ∧ (s.vwriteBy c v va bs).protect = []
  | [], _, _, hp, hh => ⟨hh, hp⟩
  | b :: bs, s, va, hp, hh => by
    unfold State.vwriteBy State.vwriteWith
    split
    · exact held_vwriteBy_none c v bs s (va + 1) hp hh
    · rename_i key _
      have hg : s.gwriteBy c key [b] .copy = s.gput c key [b] := by simp [State.gwriteBy, State.isProt, hp, hh]
      rw [hg]
      have h1 : (s.gput c key [b]).protect = [] ∧ (s.gput c key [b]).held = [] := by unfold State.gput; split <;> exact ⟨hp, hh⟩
      exact held_vwriteBy_none c v bs (s.gput c key [b]) (va + 1) h1.1 h1.2
theorem held_vwriteBy_append (c v : Nat) : ∀ (bs : List Byte) (s : State) (va : Nat), ∃ l, (s.vwriteBy c v va bs).held = s.held ++ l
  | [], s, _ => ⟨[], (List.append_nil _).symm⟩
  | b :: bs, s, va => by
    unfold State.vwriteBy State.vwriteWith
    split
    · exact held_vwriteBy_append c v bs s (va + 1)
    · rename_i key _
      have ⟨l, h⟩ := held_vwriteBy_append c v bs (s.gwriteBy c key [b] .copy) (va + 1)
      rw [State.vwriteBy] at h
      rw [h, State.gwriteBy]
      split
      · exact ⟨_, (List.append_assoc ..)⟩
      · refine ⟨l, ?_⟩
        unfold State.gput
        split <;> rfl
theorem held_vwriteBy_first {s : State} {c v va key : Nat} {bs : List Byte} (hx : s.xlate v va true = .ok key) (hp : s.isProt key = true) (hb : bs ≠ []) :
    ∃ h hs, (s.vwriteBy c v va bs).held = s.held ++ h :: hs := by
  obtain ⟨b, bs, rfl⟩ := List.exists_cons_of_ne_nil hb
  have ⟨l, h⟩ := held_vwriteBy_append c v bs (s.gwriteBy c key [b] .copy) (va + 1)
  refine ⟨⟨.globalStorePerformed c key [b] .copy, key, [b]⟩, l, ?_⟩
  rw [State.vwriteBy, State.vwriteWith, hx]
  show (State.vwriteBy (s.gwriteBy c key [b] .copy) c v (va + 1) bs).held = _
  rw [h]
  simp [State.gwriteBy, hp, State.holdWrite]
def guarded : State := { atPage with protect := [0x800] }
/-- An image's page that is not protected, and one that is: its write is held. -/
theorem witness_ContextImagesAndServices_pages (b1 b2 : List Byte) :
    ((((atPage.drain 0).vwriteBy 0 0 0x10000000000 b1).vwriteBy 0 0 0x10000000040 b2).vwriteBy 0 0 0x10000000030 (List.replicate 16 0)).held = atPage.held
    ∧ (∃ h hs, (((guarded.drain 0).vwriteBy 0 0 (guarded.d 2).toNat (guarded.ctx.header 0)).vwriteBy 0 0 0x10000000040 b2).held = guarded.held ++ h :: hs)
    ∧ ∃ h hs, ((guarded.setStatus .running).vwriteBy 0 0 0x10000000030 (List.replicate 16 0)).held = guarded.held ++ h :: hs := by
  refine ⟨?_, ?_, ?_⟩
  · have h1 := held_vwriteBy_none 0 0 b1 (atPage.drain 0) 0x10000000000 rfl rfl
    have h2 := held_vwriteBy_none 0 0 b2 _ 0x10000000040 h1.2 h1.1
    exact (held_vwriteBy_none 0 0 _ _ 0x10000000030 h2.2 h2.1).1
  · have ⟨h, hs, e⟩ := held_vwriteBy_first (s := guarded.drain 0) (c := 0) (v := 0) (va := (guarded.d 2).toNat) (key := 0x800000)
      (bs := guarded.ctx.header 0) (by decide +kernel) (by decide +kernel) (by decide +kernel)
    have ⟨l, e1⟩ := held_vwriteBy_append 0 0 b2 ((guarded.drain 0).vwriteBy 0 0 (guarded.d 2).toNat (guarded.ctx.header 0)) 0x10000000040
    exact ⟨h, hs ++ l, by rw [e1, e, show (guarded.drain 0).held = guarded.held from rfl]; simp⟩
  · exact held_vwriteBy_first (key := 0x800030) (by decide +kernel) (by decide +kernel) (by decide +kernel)

/-- Operand loads, an mst, an mamax, and commands that fail their checks. -/
def slot0 : Ctx := { ctx1 with prog := ctx1.prog.setSlot 0 ⟨true, some 0, false, 0, false, []⟩ }
def withSlot (l : List MCmd) : State := onHere fun k => { k with mq := l, ctx := slot0 }
def cmd (i : Instr) : MCmd := ⟨1, 1, 0, .cmd i, 0, none, 0, none, false⟩
theorem witness_MatrixUnitSteps_starts : (∀ i ∈ [Instr.mld 0 1 false 0 96, .mld 3 1 false 0 64, .mst 0 0x100 64, .mamax 0 0, .mma 0 9 9 0 0],
      ((withSlot [cmd i]).coreAt 0).nextStart = some (0, cmd i)) ∧ ((withSlot []).coreAt 0).byId 1 = some slot0
    ∧ (∃ str, (withSlot [cmd (.mld 0 1 false 0 96)]).startMld 0 slot0 0 1 0 96 = .ok str) ∧ (∃ e, (withSlot [cmd (.mld 3 1 false 0 64)]).startMld 0 slot0 3 1 0 64 = .error e)
    ∧ ((0 : BitVec 3).toNat < slot0.accQ ∧ 64 ≤ (64 : Word).toNat ∧ (0x100 : DWord).toNat % 4 = 0
      ∧ (withSlot [cmd (.mst 0 0x100 64)]).matFaults 0 slot0 ((List.range 16).map fun n => ((0x100 : DWord).toNat + n * (64 : Word).toNat, 64)) = none)
    ∧ (∃ e ds r, (withSlot [cmd (.mamax 0 0)]).startCmd 0 slot0 (cmd (.mamax 0 0)) (.mamax 0 0) = (r, .ok (e, ds)))
    ∧ ∃ e, (withSlot [cmd (.mma 0 9 9 0 0)]).startCmd 0 slot0 (cmd (.mma 0 9 9 0 0)) (.mma 0 9 9 0 0) = (withSlot [cmd (.mma 0 9 9 0 0)], .error e) := by
  refine ⟨by decide +kernel, by decide +kernel, ok_of (by decide +kernel), error_of (by decide +kernel), by decide +kernel, ?_, ?_⟩
  · have ⟨a, h⟩ := ok_of (r := ((withSlot [cmd (.mamax 0 0)]).startCmd 0 slot0 (cmd (.mamax 0 0)) (.mamax 0 0)).2) (by decide +kernel)
    exact ⟨a.1, a.2, _, Prod.ext rfl h⟩
  · have ⟨e, h⟩ := error_of (r := ((withSlot [cmd (.mma 0 9 9 0 0)]).startCmd 0 slot0 (cmd (.mma 0 9 9 0 0)) (.mma 0 9 9 0 0)).2) (by decide +kernel)
    exact ⟨e, Prod.ext rfl h⟩
theorem witness_MatrixUnitSteps_rows : (let e : MEffect := ⟨none, [], [(0x100, [1, 2]), (0x140, [3, 4])], none, 0, 0, 0, 0, 0, none⟩
      let m : MCmd := { cmd (.mst 0 0x100 64) with eff := some e }
      (withSlot [m]).MemOk ∧ ((withSlot [m]).coreAt 0).mq[0]? = some m ∧ m.eff = some e ∧ e.writes = (0x100, [1, 2]) :: [(0x140, [3, 4])] ∧ scrPlace 0 (0x100 : DWord).toNat = some (0, 0x100))
    ∧ (let e : MEffect := ⟨none, [], [], none, 0, 0, 0, 0, 0, some (0x0C, 0x40, 0)⟩
      let m : MCmd := { cmd (.mamax 0 0) with eff := some e }
      ((withSlot [m]).coreAt 0).mq = m :: [] ∧ e.writes = [] ∧ e.q0 = none ∧ m.unacked = 0) :=
  ⟨⟨memOk_of rfl rfl rfl, by decide +kernel⟩, by decide +kernel⟩
theorem witness_FiringsStartWithTheirRegisters_installed :
    let s := onHere fun k => { k with status := .idle, runq := [.fresh ready3'], last := false }
    (s.coreAt 0).last = false ∧ (s.coreAt 0).ctx.saved = false ∧ s.startable 0 (.fresh ready3') = true := by decide +kernel
/-- Waits of the thaw unit's kind, a psync's, a pending deferred fault, and a missing line, in the context store and not. -/
def fetching (store : List (Half × List Byte)) : State := onTile0 (onHere fun k => { k with status := .fetch, cache := [] }) fun t => { t with store := store }
theorem witness_SchedulingSteps_waits :
    (let s := onHere fun k => { k with status := .waiting (.sync 0 []) }
     (s.coreAt 0).status = .waiting (.sync 0 []))
    ∧ (let s := onHere fun k => { k with status := .waiting (.parkRoom 4 false ⟨9, 0, none, []⟩) }
       (s.coreAt 0).status = .waiting (.parkRoom 4 false ⟨9, 0, none, []⟩) ∧ s.queueReady (s.coreAt 0).ctx 4 false = true)
    ∧ (let s := onTile0 (onHere fun k => { k with status := .waiting (.parkRoom 4 false ⟨9, 0, none, []⟩), ctx := { ctx1 with prog := { ctx1.prog with binds := [⟨4, 5, true⟩] } } })
         fun t => { t with chans := [chan0] }
       s.queueReady (s.coreAt 0).ctx 4 false = false ∧ (s.coreAt 0).parks.length < 8)
    ∧ (let s := onHere fun k => { k with ctx := { ctx1 with faults := [⟨0, 0x0A, 1, 0⟩] } }
       s.core.status = .running ∧ s.ctx.halted = false ∧ s.preemptor s.cur = none ∧ s.chunkEmpty = true ∧ s.fir.inTrap = false ∧ s.ctx.faults = ⟨0, 0x0A, 1, 0⟩ :: [])
    ∧ (let s := fetching [(1, List.replicate 16 5)]
       (s.coreAt 0).status = .fetch ∧ (s.coreAt 0).missing = some 0 ∧ look (s.tileAt (tileOf 0)).store (s.coreAt 0).ctx.id = some (List.replicate 16 5)
         ∧ (List.replicate 16 (5 : Byte)).length = (s.coreAt 0).ctx.code.length)
    ∧ (let s := fetching []
       (s.coreAt 0).missing = some 0 ∧ look (s.tileAt (tileOf 0)).store (s.coreAt 0).ctx.id = none ∧ s.badImage (s.coreAt 0).ctx = none) := by decide +kernel
/-- Stubs, departed contexts, a fenced core, packets that the agents take, and routes past the mesh's edge. -/
theorem way_zero : here.way 3 (ofCoord (coord 0)) (ofCoord (coord 0)) = .there := rfl
theorem witness_PacketSteps_border : (packet0 3 (.message [1, 2])).via = none
    ∧ here.borderOk 3 (some (packet0 3 (.message [1, 2])).ter) (!(Packet.toStreamer (packet0 3 (.message [1, 2]))) && here.crosses 3 0 0) 0 = true
    ∧ here.borderOk 3 (some 1) (!(Packet.toStreamer (packet0 3 (.message [1, 2]))) && here.crosses 3 16 0) 0 = false := by decide +kernel
theorem witness_PacketSteps_stubs :
    (let s := onHere fun k => { k with handlers := [], stubs := [⟨2, 8, 5⟩] }
     (s.coreAt 0).fenced = false ∧ look (s.coreAt 0).handlers 3 = none ∧ (s.coreAt 0).stubs.find? (fun b => b.mask.getLsbD (3 : BitVec 5).toNat) = some ⟨2, 8, 5⟩
       ∧ (0 : BitVec 3).toNat < 4 ∧ 4 ≤ (4 : BitVec 3).toNat)
    ∧ (let s := onHere fun k => { k with handlers := [], departed := [(3, 2)] }
       (s.coreAt 0).stubs = [] ∧ look (s.coreAt 0).departed 3 = some 2 ∧ (2 : Half) ≠ 0)
    ∧ ((onHere fun k => { k with handlers := [] }).coreAt 0).stubs = [] ∧ look ((onHere fun k => { k with handlers := [] }).coreAt 0).departed 3 = none
    ∧ ((onHere fun k => { k with fenced := true }).coreAt 0).fenced = true ∧ (here.agenda.filter fun x => (agentOf x).isSome) = [] := by decide +kernel
/-- Class 3 is routed along x towards the west at core 0. -/
theorem witness_PacketSteps_edge : (onHere fun k => { k with routes := [(3, 0x0A)] }).way 3 0 1 = .edge := by decide +kernel
/-- A deposit, an atomic and a pair's answer at a translated address; a core whose barriers have nothing waiting. -/
theorem witness_MemoryAgentSteps_translated : mapped.MemOk ∧ (let p := packet0 20 (.deposit 0x1000000FFFF [7] none none none)
      inTrans (0x1000000FFFF : DWord).toNat = true ∧ mapped.xlate p.vdev (0x1000000FFFF : DWord).toNat true = .ok 0x80FFFF ∧ mapped.isProt 0x80FFFF = false
        ∧ p.body = .deposit 0x1000000FFFF [7] none none none)
    ∧ (let p := packet0 21 (.atomic .add true 0x1000000FFF8 1 0 none true)
      mapped.xlate p.vdev (0x1000000FFF8 : DWord).toNat true = .ok 0x80FFF8 ∧ mapped.bad 0x80FFF8 8 = false ∧ p.body = .atomic .add true 0x1000000FFF8 1 0 none true)
    ∧ ((onHere fun k => { k with status := .answer (.atomic 4 true 8) }).coreAt 0).status = .answer (.atomic 4 true 8) ∧ (here.coreAt 0).barq = [] :=
  ⟨memOk_of rfl rfl rfl, by decide +kernel⟩
/-- A piece of a cploc, of a cpin and of a cpout; a second contribution; a broadcast on its way. -/
def local0 : Transfer := { fill with cmd := .cploc 2 72 0x100000020 0x100 tail0, sent := true, left := [(0, 72)] }
def in0 : Transfer := { fill with cmd := .cpin 2 72 0x10000000000 0x100 tail0, sent := true, left := [(0, 72)] }
def out0 : Transfer := { fill with cmd := .cpout 2 72 0x10000000000 0x100 tail0, sent := true, left := [(0, 72)] }
def copyingHere (t : Transfer) : State := { mapped with core := { core1 with copies := [t] } }
theorem witness_CopySteps_pieces :
    (∀ t ∈ [local0, in0, out0], ((copyingHere t).coreAt 0).copies = [t] ∧ (∃ pl, planOf t.cmd = some pl ∧ pl.fill = none) ∧ tailOf t.cmd = some tail0 ∧ tail0.barOn = false
      ∧ t.fault = none ∧ t.done = false ∧ t.sent = true ∧ beginsPiece t.left 0 = true ∧ (copyingHere t).pieceAstray 0 t 0 = false)
    ∧ (scrPlace 0 0x100000020 = some (0, 0x20) ∧ ((copyingHere local0).coreAt 0).clean = true ∧ (copyingHere local0).takesPiece 0 0 0 = true ∧ scrPlace 0 0x100 = some (0, 0x100)
      ∧ (copyingHere local0).takesPiece 0 ((copyingHere local0).sourceAgent 0 local0 0x100000020 0x100) 0 = true)
    ∧ (inTrans 0x10000000000 = true ∧ (copyingHere in0).xlate 0 0x10000000000 false = .ok 0x800000 ∧ (copyingHere in0).bad 0x800000 64 = false)
    ∧ ((copyingHere out0).xlate 0 0x10000000000 true = .ok 0x800000 ∧ (copyingHere out0).isProt 0x800000 = false) := by
  refine ⟨?_, by decide +kernel, by decide +kernel, by decide +kernel⟩
  intro t ht
  simp only [List.mem_cons, List.not_mem_nil, or_false] at ht
  rcases ht with rfl | rfl | rfl <;> exact ⟨rfl, ⟨_, rfl, rfl⟩, rfl, rfl, rfl, rfl, rfl, by decide +kernel, by decide +kernel⟩
theorem way_plain {s : State} (h : s.plainRoutes = true) (cls : BitVec 5) (a b : Nat) : s.way cls a b = .there := by simp [State.way, h]
theorem crosses_plain {s : State} (h : s.plainRoutes = true) (cls : BitVec 5) (a b : Nat) : s.crosses cls a b = (tileOf a != tileOf b) := by simp [State.crosses, h]
/-- Where no table has been changed every packet arrives, and the streamer of any page takes a cpin's or cpout's data. -/
theorem witness_CopySteps_ways : (∀ a, (copyingHere in0).takesPiece 0 a 0 = ((copyingHere in0).borderOk 23 (some 0) (tileOf a != tileOf 0 || tileOf 0 != tileOf 0) 0))
    ∧ (∀ a, (copyingHere in0).borderOk 23 (some 0) a 0 = true) ∧ ∀ a b, (copyingHere out0).way 23 a b = .there := by
  refine ⟨fun a => ?_, fun a => ?_, fun a b => way_plain rfl _ _ _⟩
  · unfold State.takesPiece State.pieceStop
    rw [way_plain (s := copyingHere in0) rfl, crosses_plain (s := copyingHere in0) rfl]
    simp only [show ((copyingHere in0).coreAt 0).fenced = false from rfl]
    simp only [reduceCtorEq, Bool.false_eq_true, or_self, if_false]
    show Option.isNone (if (copyingHere in0).borderOk 23 (some 0) (tileOf a != tileOf 0 || tileOf 0 != tileOf 0) 0 then none else some 0x06) = _
    split <;> simp_all
  · cases a <;> rfl
theorem witness_CopySteps_contribution : (let s := onHere fun k => { k with rounds := [⟨0x100000020, 2, .f32, 0, 3, 1⟩] }
      s.MemOk ∧ (s.coreAt 0).rounds = [⟨0x100000020, [(1 : Byte), 2, 3, 4, 5, 6, 7, 8].length / (tyWidth .f32 / 8), .f32, 0, (3 : BitVec 13).toNat, 1⟩] ∧ (s.coreAt 0).clean = true) :=
  ⟨memOk_of rfl rfl rfl, by decide +kernel⟩
/-- Data of channel 5 finds its way, or past the mesh's edge; a grant that grows the limit; a probe at a wait. -/
theorem witness_ChannelSteps_ways : (∀ a b, (withChan chan0).way 24 a b = .there) ∧ (∀ a b, (withChan chan0).way 25 a b = .there) ∧ (∀ ter a, (withChan chan0).trip 23 ter a a = .there)
    ∧ (withChan chan0).dataWay (ofCoord chan0.producer) chan0 = .there
    ∧ (let s := { withChan chan0 with core := { (withChan chan0).core with fenced := true } }
       s.dataWay (ofCoord chan0.producer) chan0 = .there ∧ s.consumerLives chan0 = false) := by
  have h (s : State) (hr : s.plainRoutes = true) (cls : BitVec 5) (ter : BitVec 6) (a : Nat) : s.trip cls ter a a = .there := by
    have hx : ∀ d, s.borderOk cls (some ter) false d = true := fun _ => rfl
    simp only [State.trip, way_plain hr, crosses_plain hr]
    rw [bne_self_eq_false, hx, if_pos rfl]
  refine ⟨way_plain rfl _, way_plain rfl _, h _ rfl _, h _ rfl _ _ _, h _ rfl _ _ _, ?_⟩
  show (!((({ withChan chan0 with core := { (withChan chan0).core with fenced := true } } : State).coreAt (ofCoord (coord 0))).fenced) && _) = false
  rw [oc0]
  rfl
theorem witness_ParitySteps_count : (let s := { (onHere fun k => { k with stale := [(767, 3)], waits := #v[0, 0, 0, 63] }) with cycle := 63 }
    s.nextRow 0 3 = some 767 ∧ 63 ≤ (s.coreAt 0).waitCount 3) ∧ (15, 767) ∉ (onHere fun k => { k with stale := [] }).core.fixes := by decide +kernel
theorem witness_TerritorySteps_flights : (xferring (.vacate 2 0 0)).vacateFlies 0 = false ∧ (xferring (.drain 2)).agenda.any (evInto 0) = false
    ∧ (let s := { onTile0 here (fun t => { t with ter := 2, mask := 2, size := 1, xfer := .notify 1 2 [(1, false)] }) with
         tiles := (onTile0 here (fun t => { t with ter := 2, xfer := .notify 1 2 [(1, false)] })).tiles.set 1 { Tile.reset with ter := 1, mask := 1, size := 2 } }
       (s.tileAt 0).xfer = .notify 1 2 [(1, false)] ∧ (1, false) ∈ [((1 : Nat), false)] ∧ (1 : Nat) ≠ 0 ∧ s.noticed 0 1 = true ∧ (s.tileAt 1).ter.toNat = 1) := by decide +kernel
/-- A walk that waits for a launch, done and not done; a node of kind 6 that a dispatcher takes. -/
def awaiting (done : Bool) : State := let b := block64 1 [(1, 1, 1), (16, 8, 0x10000002000)]
  { hosted [] b none with walks := [⟨0, 0, 0, 0, 0x10000000400, some 7, none⟩], launches := [{ launch7 with done := done }] }
theorem witness_HostSteps_awaits : ∀ d ∈ [true, false], (awaiting d).walk 0 = some ⟨0, 0, 0, 0, 0x10000000400, some 7, none⟩
    ∧ (awaiting d).node ⟨0, 0, 0, 0, 0x10000000400, some 7, none⟩ = .ok (block64 1 [(1, 1, 1), (16, 8, 0x10000002000)])
    ∧ zeroAt (block64 1 [(1, 1, 1), (16, 8, 0x10000002000)]) (nodeReserved 1) = true ∧ (awaiting d).launchOf 7 = some { launch7 with done := d } := by decide +kernel
theorem witness_HostSteps_copyUnit : (let b := block64 6 [(16, 8, 0x10000002000), (24, 8, 0x10000003000), (32, 4, 72)]
     let s := { (hosted [] b none) with seen := [] }
     (∃ d, s.chooseUnit 0 = some (32768 + 0, d)) ∧ s.walk 0 = some (walk0 none) ∧ s.node (walk0 none) = .ok b ∧ (b.getD 0 0).toNat = 6) :=
  ⟨⟨⟨0, 1, [(0, 32769)]⟩, by decide +kernel⟩, by decide +kernel⟩
/-- A leaf that is pinned and one that is not; tables for a new leaf, with their pages' choice; the tree's walk to a leaf; a quantum of 0. -/
def treed : State := { mapped with tables := [((0, 1, 0), 1), ((0, 2, 2), 2), ((0, 3, 0x400), 3), ((0, 4, 0x80000), 4)] }
theorem witness_AdminSteps_tables : treed.leafNow 0 0x10000000040 = some leaf0 ∧ (∀ m ∈ treed.leaves, m.size ≤ 2 ∧ m.va.toNat % pageBytes m.size = 0 ∧
      (m.v = 0 → m = leaf0 ∨ m.va.toNat + pageBytes m.size ≤ leaf0.va.toNat ∨ leaf0.va.toNat + pageBytes leaf0.size ≤ m.va.toNat))
    ∧ (∀ k ∈ [2, 3, 4], (treed.tableFor 0 k 0x10000000040).isSome = true) ∧ leafLevel leaf0.size = 4
    ∧ (∃ t, here.needTables 0 0x10000020000 4 = some t) ∧ here.pinned 0 0x10000020000 0x10000 = false
    ∧ (onHere fun k => { k with ctx := { ctx1 with save := 0x10000004000 } }).pinned 0 0x10000000000 0x10000 = true ∧ (0x8FFF010000000000 : DWord).toNat % 2 ^ 32 = 0
    ∧ (0x0FFF010000001000 : DWord).getLsbD 63 = false ∧ (0x0FFF010000001000 : DWord).toNat % 2 ^ 32 ≠ 0 := by
  refine ⟨by decide +kernel, by decide +kernel, by decide +kernel, rfl, ?_, by decide +kernel, by decide +kernel, by decide +kernel, by decide +kernel, by decide +kernel⟩
  exact Option.isSome_iff_exists.mp (by decide +kernel)
/-- Its tables stand in pages of their own, in which the entries of a leaf have their places. -/
theorem witness_AdminSteps_entries_placed : treed.MemOk ∧ (treed.tables.map (·.2)).Nodup ∧ treed.entryPlace 0 1 0x10000000000 = some 0x10010 ∧ treed.entryPlace 0 4 0x10000000000 = some 0x40000
    ∧ (∀ e ∈ treed.tables, 0x8FFFF / 0x10000 ≠ e.2) := ⟨memOk_of rfl rfl rfl, by decide +kernel⟩
theorem test_tableWalk : (treed.tableWalk 0 0x10000000040).map (·.1) = some 4 ∧ (treed.tableWalk 0 0x10000000040).map (·.2) = some leaf0.entry ∧ treed.tableWalk 0 0x10000020040 = none
    ∧ leaf0.entry = 0x80000F ∧ leafR.entry = 0x810007 := by decide +kernel
theorem witness_MailboxSteps_debug : (onHere fun k => { k with ctx := { ctx1 with halted := true } }).ctx.halted = true := by decide +kernel
/-- The published vectors of FIPS 197, FIPS 180-4 and SP 800-38D for the algorithms that R276 and R303 name. -/
theorem test_aes : aesBlock (keySchedule ((List.range 32).map fun i => BitVec.ofNat 8 i)) ((List.range 16).map fun i => BitVec.ofNat 8 (17 * i))
    = [0x8E, 0xA2, 0xB7, 0xCA, 0x51, 0x67, 0x45, 0xBF, 0xEA, 0xFC, 0x49, 0x90, 0x4B, 0x49, 0x60, 0x89] := by decide +kernel
theorem test_sha512 : (sha512 [0x61, 0x62, 0x63]).take 8 = [0xDD, 0xAF, 0x35, 0xA1, 0x93, 0x61, 0x7A, 0xBA] := by decide +kernel
theorem test_gcm : gcmSeal (List.replicate 32 0) (List.replicate 12 0) [] (List.replicate 16 0)
    = ([0xCE, 0xA7, 0x40, 0x3D, 0x4D, 0x60, 0x6B, 0x6E, 0x07, 0x4E, 0xC5, 0xD3, 0xBA, 0xF3, 0x9D, 0x18],
      [0xD0, 0xD1, 0xC8, 0xA7, 0x99, 0x99, 0x6B, 0xF0, 0x26, 0x5B, 0x98, 0xB5, 0xD4, 0x8A, 0xB9, 0x19]) := by decide +kernel
/-- R68, R56: a loop of no trips whose body ends with the image traps ACCESS at its place past the image; R67: an odd target of jr traps ALIGN. -/
theorem test_loop_end : (after (.loop 1 1 2 0) ((handled.setRegs { handled.regs with pc := 8 }).setS 2 1)).trapRegs = ⟨0x03, 16, 0⟩
    ∧ (after (.jr 5) (handled.setS 5 0x102)).trapRegs.cause = 0x02 := by decide +kernel
theorem witness_RequestsHoldOnePacket_claim : let u := onHere fun k => { k with status := .answer (.claim 3 0x40) }
    u.cur < 8192 ∧ u.core.status = .answer (.claim 3 0x40) := ⟨by decide, rfl⟩

/-! ## Witnesses: the clauses of the third review -/

theorem witness_ConversionsAndQuantisersComplete_formats : (∀ fmt ∈ [(1 : BitVec 4), 5], fmt ≠ 0 ∧ (Fmt.ofCode fmt).isSome = true) ∧ (here.m 0).getLsbD 15 = true ∧ (here.m 1).getLsbD 0 = false
    ∧ lane (here.v 1) 8 63 = 0 ∧ VTy.isFloat .f32 = true ∧ VTy.isFloat .i8 = false ∧ (15 < tyLanes .i8 ∧ 15 < tyLanes .f32) := by decide +kernel
/-- A global alias of core 0, whose word no granted commit writes, or one does; a translated address and its data's way. -/
def writing : State := onTile0 (onHere fun k => { k with fir := { k.fir with chunk := { k.fir.chunk with wsig := BitVec.allOnes 512 } } }) fun t => { t with granted := [0] }
theorem witness_LoadsGiveTheBytesSeen_windows : (let s := here.setD 3 0x100000008
      s.pred none = true ∧ place (s.ea 3 0).toNat = .glob 0 8 ∧ (s.coreAt 0).clean = true ∧ (∀ n ∈ [1, 2, 4, 8], s.cause (s.ea 3 0).toNat n false = none ∧ s.busy (s.ea 3 0).toNat n = false))
    ∧ (writing.cause 0x100000008 8 false = none ∧ writing.busy 0x100000008 8 = true)
    ∧ (let s := mapped.setD 3 0x10000000008
       s.pred none = true ∧ inTrans (s.ea 3 0).toNat = true ∧ ∀ n ∈ [1, 2, 4, 8], s.cause (s.ea 3 0).toNat n false = none)
    ∧ (∀ l ∈ [LoadKind.scalar true, .pair], let s : State := { mapped with core := { core1 with status := .answer .load, load := some ⟨l, 4, none, [(0x1000000FFF8, 0, 8)]⟩ } }
       s.cur < 8192 ∧ s.core.status = .answer .load ∧ s.core.load = some ⟨l, 4, none, [(0x1000000FFF8, 0, 8)]⟩ ∧ s.vread s.ctx.vdev 0x1000000FFF8 8 = .ok (List.replicate 8 0)) := by decide +kernel

/-- Where no route has been changed and the core's territory is that of its tile, data come. -/
theorem dataComes_of {s : State} (hr : s.plainRoutes = true) (ht : s.cur = 0) (ea : Nat) : s.dataComes ea = true := by
  have hb : ∀ x, s.borderOk 23 (some (s.terOf 0)) x 0 = true := by
    intro x
    cases x
    · rfl
    · simp [State.borderOk, State.terOf, exempt, tileOf]
  unfold State.dataComes
  cases inTrans ea
  · rfl
  · cases hk : s.xlate s.ctx.vdev ea false with
    | error _ => rfl
    | ok key => simp only [State.trip, way_plain hr, ht, hb, if_true]; rfl
theorem witness_LoadsGiveTheBytesSeen_comes : mapped.dataComes 0x1000000FFF8 = true := dataComes_of rfl rfl _
/-- Active lanes of a vector access, and a gather whose first lanes pass and whose lane 2 is misaligned. -/
theorem witness_AccessesTrapInTheirOrder_vectors : ((1 : Nat) < 16 ∧ (here.m 0).getLsbD 1 = true) ∧ here.cause 2 64 false = some 0x02 ∧ here.cause 0x1000 64 true = some 0x03
    ∧ here.cause 2 (2 ^ (2 : BitVec 2).toNat) false = some 0x02
    ∧ (let s := here.setV 5 (0x00000002 <<< 64)
       let at' (i : Nat) : DWord := s.ea 0 8 + BitVec.ofInt 64 (sgn 32 (lane (s.v 5) 32 i))
       s.cause (at' 2).toNat 4 false = some 0x02 ∧ s.cause (at' 2).toNat 4 true = some 0x02 ∧ (∀ j, j < 2 → (s.m 0).getLsbD j = true → s.cause (at' j).toNat 4 false = none ∧ s.cause (at' j).toNat 4 true = none)) := by
  decide +kernel
theorem witness_VectorAccessesMoveTheirLanes_windows : (let s := here.setD 3 0x100000040
      s.pred none = true ∧ place (s.ea 3 0).toNat = .glob 0 0x40 ∧ (s.coreAt 0).clean = true ∧ s.cause (s.ea 3 0).toNat 64 false = none ∧ s.cause (s.ea 3 0).toNat 64 true = none
        ∧ (∀ i, i < 16 → s.busy ((s.ea 3 0).toNat + 4 * i) 4 = false) ∧ s.busy (s.ea 3 0).toNat 8 = false)
    ∧ (writing.cause 0x100000040 64 false = none ∧ writing.busy (0x100000040 + 4) 4 = true)
    ∧ (let s := mapped.setD 3 0x10000000040
       inTrans (s.ea 3 0).toNat = true ∧ s.cause (s.ea 3 0).toNat 64 false = none ∧ s.cause (s.ea 3 0).toNat 8 false = none ∧ s.cause (s.ea 3 0).toNat 64 true = none)
    ∧ (128 < (stored 121).chunk.stbuf + 8 ∧ (stored 120).chunk.stbuf + 8 ≤ 128 ∧ 128 < (stored 121).chunk.stbuf + 64 / 8)
    ∧ (let q : List (DWord × Nat × Nat) := [(0x10000000040, 0, 8), (0x10000000078, 56, 8)]
       (∀ p ∈ q, inTrans p.1.toNat = true ∧ mapped.vread 0 p.1.toNat p.2.2 = .ok (List.replicate 8 0) ∧ p.2.1 + p.2.2 ≤ 64) ∧ q.Pairwise (fun a b => a.2.1 + a.2.2 ≤ b.2.1)) := by decide +kernel
/-- Bound ends of a channel. -/
theorem witness_StatusFormsReadTheirUnits_bound : 2 ≤ (4 : QReg).toNat ∧ (withChan chan0).bindOf 4 = some ⟨4, 5, true⟩ ∧ (withChan chan0).bindOf 6 = some ⟨6, 5, false⟩
    ∧ (withChan chan0).chanSeen 5 = some chan0 ∧ chan0.occ < 2 ^ 16 ∧ chan0.f < 2 ^ 16 := ⟨by decide, rfl, rfl, rfl, by decide, by decide⟩
/-- An ID long reached and one not reached; stale rows inside and outside psync's range; a global alias; an address that is no scratchpad's. -/
theorem witness_WaitsPassWhenTheirConditionHolds_sync : (let s := withS [(1, 0xFFFFFFFF)]
      idBefore (s.xidNow 2) (s.s 1) = false ∧ idBefore (s.s 1) (s.ctx.xidc[(2 : BitVec 2).toNat]'(by omega)) = true)
    ∧ (let s := (onHere fun k => { k with ctx := { ctx1 with xid := .replicate 4 2 } }).setS 1 1
       idBefore (s.xidNow 2) (s.s 1) = false ∧ s.s 1 ≠ s.ctx.xidc[(2 : BitVec 2).toNat]'(by omega) ∧ idBefore (s.s 1) (s.ctx.xidc[(2 : BitVec 2).toNat]'(by omega)) = false)
    ∧ (let s := ((onHere fun k => { k with stale := [(0, 1), (0, 3)] }).setD 2 0x20).setS 3 32
       s.s 3 ≠ 0 ∧ (s.d 2).toNat < 0x18000 ∧ s.ctx.base ≤ (s.d 2).toNat ∧ (s.d 2).toNat + (s.s 3).toNat ≤ s.ctx.base + s.ctx.size ∧ (0, 1) ∈ ((s.drain 0).coreAt 0).stale
         ∧ (∀ i, i < 32 → ((0 : Nat), 3) ≠ ((0x20 + i) / 128, (0x20 + i) / 32 % 4)) ∧ ((0 : Nat), 1) = ((0x20 + 31) / 128, (0x20 + 31) / 32 % 4))
    ∧ (let s := (here.setD 2 0x100000020).setS 3 32
       place (s.d 2).toNat = .glob 0 0x20 ∧ 0x20 + 32 ≤ 0x18000 ∧ tileOf 0 = s.tile ∧ (s.coreAt 0).fenced = false ∧ s.foreign 0 0x20 32 s.ctx.id = false)
    ∧ place (0x10000000000 : DWord).toNat = .trans ∧ place (0x8000000000 : DWord).toNat = .nowhere := by decide +kernel
/-- A context in a handler, and one without a handler. -/
theorem witness_TrapEntrySavesAndTransfers_kill : trapped.fir.inTrap = true ∧ trapped.core.resident = true ∧ trapped.cur < 8192 ∧ trapped.core.others = []
    ∧ here.prog.tvec &&& 0xFFFFFC = 0 ∧ here.core.resident = true ∧ here.core.others = [] ∧ handled.pc.toNat < 2 ^ 24 := by decide +kernel
/-- Slots with an operand of A and of B, accumulators 0 to 3, and configurations of one format; an image of A at 0x200. -/
def operands (f : BitVec 4) (hw : List (Nat × Word)) : Ctx := { ctx1 with
  accQ := 4, hw := hw.foldl (fun h p => vset h p.1 p.2) (vset (vset ctx1.hw 0 (f.setWidth 32)) 1 (f.setWidth 32))
  prog := (ctx1.prog.setSlot 0 ⟨true, some 0, true, f, false, []⟩).setSlot 1 ⟨true, some 0, true, f, true, []⟩ }
def withOperands (x : Ctx) (l : List MCmd) (mem : Mem) : State := onHere fun k => { k with mq := l, ctx := x, mem := mem }
theorem witness_MatrixUnitSteps_mma : (∀ f ∈ [(0 : BitVec 4), 2], let x := operands f [(6, 0x200), (8, 0x200)]
      let m := cmd (.mma 3 0 1 0 0)
      let s := withOperands x [m] (Mem.write [] 0x200 [0x80, 0x3F])
      (s.coreAt 0).nextStart = some (0, m) ∧ (s.coreAt 0).byId 1 = some x ∧ (3 : BitVec 3).toNat < x.accQ ∧ (0 : BitVec 4).toNat < x.slotQ ∧ (1 : BitVec 4).toNat < x.slotQ
      ∧ (x.prog.slot 0).claimed = true ∧ (x.prog.slot 1).claimed = true ∧ (x.prog.slot 0).full = true ∧ (x.prog.slot 1).full = true ∧ (x.prog.slot 0).shapeB = false
      ∧ (x.prog.slot 1).shapeB = true ∧ (x.prog.slot 0).fmt = (vget x.hw 0 0).setWidth 4 ∧ (x.prog.slot 1).fmt = (vget x.hw 1 0).setWidth 4 ∧ (Fmt.ofCode f).isSome = true ∧ (shapeOf f).isSome = true
      ∧ (f = 2 → s.matFaults 0 x [(x.ptr 2, 16 * blocksOf f), (x.ptr 4, 16 * blocksOf f), (x.ptr 6, 2), (x.ptr 8, 2)] = none ∧ (s.coreAt 0).clean = true
        ∧ (bandOf (ofBytes (s.bytesAt 0 (x.ptr 6) 2))).isSome = true)) := by decide +kernel
/-- mqnt of a row of one group, with and without an outlier's place; mamax over four accumulators. -/
def quantising (q : Nat) : Ctx := operands 2 [(10, 0x3F80), (11, BitVec.ofNat 32 q), (14, 0x400)]
theorem witness_MatrixUnitSteps_quantise : (∀ q ∈ [0, 0x100], let x := quantising q
      let m := cmd (.mqnt 0 5 1 0x100 16 2 0x300)
      ((withOperands x [m] []).coreAt 0).nextStart = some (0, m) ∧ 0 + 1 ≤ x.accQ ∧ (bandOf (vget x.hw 10 0).toNat).isSome = true ∧ place (x.ptr 14) = .own 0x400)
    ∧ (∀ f ∈ Fmt.ofCode 5, (16 * f.bits + 7) / 8 ≤ 16) ∧ (Fmt.ofCode 5).isSome = true ∧ ((1 : BitVec 3) - 1).toNat ≤ 4 ∧ (0x400 % 64 = 0 ∧ 0x400 + 64 * 16 ≤ 0x18000)
    ∧ (0 : BitVec 3).toNat + (3 : BitVec 3).toNat < (operands 2 []).accQ := by decide +kernel
theorem witness_MatrixUnitSteps_ranges : (withOperands (quantising 0) [] []).matFaults 0 (quantising 0) ((List.range 16).flatMap fun n => [(0x100 + n * 16, 16), (0x300 + n * 2, 2)]) = none := by
  decide +kernel
/-- A running mld: its only stream, the steps of its plan, and a word of its last step taken. -/
def loadingCmd (left : List LoadStep) : MCmd := { cmd (.mld 0 1 false 0 96) with stream := some ⟨0, left, [], 0, 0, 0, 0, 0⟩ }
theorem witness_MatrixUnitSteps_stream : (∀ l ∈ [[(⟨0, 0, [0, 4]⟩ : LoadStep)], [⟨0, 0, [0, 4]⟩, ⟨0, 0, [1]⟩]], let s := withSlot [loadingCmd l]
      (s.coreAt 0).mq.find? (fun q => q.stream.any (·.lane = 0)) = some (loadingCmd l) ∧ (loadingCmd l).stream = some ⟨0, l, [], 0, 0, 0, 0, 0⟩
      ∧ (∀ q ∈ (s.coreAt 0).mq, q.stream.any (·.lane = 1) = false) ∧ s.rivals 0 = false ∧ (s.coreAt 0).clean = true)
    ∧ (mldShape 1 96).isSome = true ∧ scrPlace 0 ((0 : DWord).toNat + 15 * (96 : Word).toNat) = some (0, 1440) := by decide +kernel
def words192 : List ((Nat × Nat) × List Byte) := (List.range 192).map fun w => ((0, w), List.replicate 8 1)
theorem witness_MatrixUnitSteps_image : mldShape 1 96 = some (true, 16, 96, 96, 1536)
    ∧ ∀ i, i < 16 → scrPlace 0 ((0 : DWord).toNat + i * (96 : Word).toNat) = some (0, 96 * i) ∧ ∀ j, j < 96 → look words192 (0, (96 * i + j) / 8) = some (List.replicate 8 1) := by
  have hl : ∀ k, k < 192 → look words192 (0, k) = some (List.replicate 8 1) := by decide +kernel
  exact ⟨by decide +kernel, fun i hi => ⟨by revert i; decide +kernel, fun j hj => hl _ (by omega)⟩⟩
/-- An open chunk with its snapshot, squashed once and twice before; a request that meets it, and the tile's solo queue. -/
def opened (n : Nat) (f : Core → Core) : State := onHere fun k => f { k with fir := { k.fir with chunk := { k.fir.chunk with
  count := 1, squashes := n, rsig := BitVec.allOnes 512, snap := some ⟨k.fir.regs, false, .replicate 8 0, false, 0, k.ctx.prog⟩ } } }
theorem witness_SchedulingSteps_squash : (∀ n ∈ [0, 2], ((opened n id).core.fir.chunk.snap).isSome = true ∧ (opened n id).core.inFlight = true ∧ (opened n id).chunk.solo = false)
    ∧ (let w : Chunk := { Chunk.fresh with wsig := BitVec.allOnes 512 }
       let s := onTile0 { opened 2 (fun k => { k with fir := { k.fir with chunk := { k.fir.chunk with solo := true } } }) with
         cycle := 1, others := [(1, { Core.reset with status := .ending .run, resident := true, ctx := ctx1, fir := { Firing.zero with chunk := w } })] } fun t => { t with solo := [0], reqs := [(1, 0)] }
       (s.tileAt 0).solo = 0 :: [] ∧ (s.tileAt 0).reqs = [(1, 0)] ∧ (1 : Nat) ≠ 0 ∧ (s.coreAt (coreOf 0 0)).fir.chunk.solo = true
         ∧ meets (s.coreAt (coreOf 0 0)).fir.chunk.rsig (s.coreAt (coreOf 0 1)).fir.chunk.wsig = true)
    ∧ (let s := onTile0 (onHere fun k => { k with status := .solo }) fun t => { t with solo := [0] }
       s.core.status = .solo ∧ (s.tileAt s.tile).solo.head? = some (localOf s.cur))
    ∧ ((onHere fun k => { k with status := .solo }).tileAt here.tile).solo.head? ≠ some (localOf here.cur) := by decide +kernel
/-- A high firing comes while a firing waits for an answer. -/
theorem witness_SchedulingSteps_answer : (let s := onHere fun k => { k with status := .answer .mark, runq := [.fresh ready3'], handlers := [(3, ⟨0, true, false, 0, 1, 4, []⟩)] }
    s.cur < 8192 ∧ s.core.status = .answer .mark ∧ s.preemptor s.cur = some (0, .fresh ready3') ∧ look s.core.handlers 3 = some ⟨0, true, false, 0, 1, 4, []⟩ ∧ s.core.resident = true ∧ s.core.last = true) := by
  decide +kernel
theorem witness_SchedulingSteps_code : (fetching []).codeComes 0 ((fetching []).coreAt 0).ctx = true := by
  unfold State.codeComes
  rw [way_plain rfl]
  rfl
/-- Tiles before and after step 5 of a transfer, a request for the firmware controller with room and without, and a directory. -/
theorem witness_PacketSteps_moving : ((xferring (.drain 2)).tileAt 0).xfer.before5 = true ∧ ((xferring (.notify 1 2 [])).tileAt 0).xfer.before5 = false ∧ (here.tileAt 0).xfer.before5 = false
    ∧ (packet0 30 (.service 0 3)).body = .service 0 3 ∧ here.service = [] ∧ (packet0 22 (.arrive 3)).body = .arrive 3 ∧ (packet0 3 (.message [])).fwd.toNat < 4 := ⟨rfl, rfl, rfl, rfl, rfl, rfl, by decide⟩
theorem witness_PacketSteps_directory : (∀ a b, (onTile0 here fun t => { t with ter := 1, home := true }).way 25 a b = .there)
    ∧ (onTile0 here fun t => { t with ter := 1, home := true }).homeOf 1 = some 0 ∧ here.homeOf 0 = none
    ∧ ∃ n, (List.replicate n (packet0 30 (.service 0 3))).length = max 1 Config.agentBuffer := ⟨way_plain rfl _, by decide +kernel, by decide +kernel, _, List.length_replicate ..⟩
/-- A contribution of 8 bytes in one packet, and one in two, of which the second comes last. -/
def part (off : Nat) (bs : List Byte) : Packet := packet0 22 (.contribute 2 3 0x100000020 .f32 0 3 tail0 off 8 bs)
def arrived4 : State := onHere fun k => { k with arrived := [⟨coord 0, 3, 4, [5, 6, 7, 8]⟩] }
theorem witness_CopySteps_parts : here.wholeOf 0 (part 0 [1, 2, 3, 4]) = none ∧ arrived4.wholeOf 0 (part 0 [1, 2, 3, 4]) = some [1, 2, 3, 4, 5, 6, 7, 8]
    ∧ here.wholeOf 0 (part 0 [1, 2, 3, 4, 5, 6, 7, 8]) = some [1, 2, 3, 4, 5, 6, 7, 8] ∧ arrived4.MemOk ∧ (arrived4.coreAt 0).fenced = false ∧ (arrived4.coreAt 0).rounds = [] := by
  refine ⟨rfl, ?_, rfl, memOk_of rfl rfl rfl, rfl, rfl⟩
  show gathered ((List.filter (fun a => decide (a.src = coord 0) && decide (a.key = 3)) [(⟨coord 0, 3, 4, [5, 6, 7, 8]⟩ : Part)]) ++ [⟨coord 0, 3, 0, [1, 2, 3, 4]⟩]) 8 = _
  simp only [List.filter_cons, decide_true, Bool.and_self, if_true]
  rfl
theorem witness_CopySteps_astray : (copyingHere in0).pieceAstray 0 in0 0 = false := by
  unfold State.pieceAstray
  split
  · rfl
  · simp [way_plain (s := copyingHere in0) rfl]
/-- Channel data that a border stops: the consumer's tile is another territory's. -/
theorem witness_ChannelSteps_barred : exempt 24 = false ∧ (onTile0 (withChan chan0) fun t => { t with ter := 1, chans := [chan0] }).borderOk 24 (some 2) true 0 = false := by decide +kernel
/-- The resources that READ and WRITE reach where no route has been changed. -/
theorem witness_MailboxSteps_resources (kind addr : Nat) : ∃ r, here.resource kind addr = some r := by
  unfold State.resource
  have h : ∀ r, ((routerOf r).all fun c => here.way 27 firmwareCore c == .there && here.way 23 c firmwareCore == .there) = true := by
    intro r
    cases routerOf r
    · rfl
    · simp [way_plain (s := here) rfl]
  simp only [h, if_true]
  exact ⟨_, rfl⟩

/-! ## Witnesses: the clauses of boundaries, waits and losses -/

/-- Level 1 inside level 0, whose bodies end at the same place, with the trip counts that are left. -/
def nested (n0 n1 : Word) (stop0 : Word) : State := here.setRegs { here.regs with l0 := ⟨n0, 0, stop0, 5, 3, true⟩, l1 := ⟨n1, 0, 4, 6, 2, true⟩ }
theorem witness_CompletionMovesPastOrLoops_levels : ∀ n ∈ [1, 2],
    (let s := looping (BitVec.ofNat 32 n)
     s.regs.l0.on = true ∧ s.regs.l0.start = s.pc ∧ s.regs.l0.stop = s.pc + BitVec.ofNat 32 (4 * 1) ∧ s.regs.l0.count.toNat = n ∧ s.regs.l1.on = false)
    ∧ (∀ m ∈ [1, 2], ∀ stop ∈ [4, 8], let s := nested (BitVec.ofNat 32 m) (BitVec.ofNat 32 n) (BitVec.ofNat 32 stop)
       s.regs.l1.on = true ∧ s.regs.l1.start = s.pc ∧ s.regs.l1.stop = s.pc + BitVec.ofNat 32 (4 * 1) ∧ s.regs.l1.count.toNat = n ∧ s.regs.l0.on = true
         ∧ s.regs.l0.count.toNat = m ∧ s.regs.l0.stop.toNat = stop) := by decide +kernel
/-- A slot that the running firing holds, one that another holds, one that a command names, one that nobody holds, and the last number of the field. -/
def slotted (h : Option Nat) : State := here.setProg (here.prog.setSlot 1 ⟨true, h, false, 0, false, []⟩)
theorem witness_SlotsAreClaimedAndReleased_held : ((slotted (some 0)).prog.slot (1 : Reg).toNat).holder = some (slotted (some 0)).fir.serial
    ∧ ((slotted (some 9)).prog.slot 1).holder ≠ some (slotted (some 9)).fir.serial ∧ ((slotted none).prog.slot 1).claimed = true
    ∧ (1 : Reg).toNat ∈ (⟨1, 1, 0, .cmd (.mld 1 1 false 0 96), 0, none, 0, none, false⟩ : MCmd).slots
    ∧ (withMq [⟨1, 1, 0, .cmd (.mld 1 1 false 0 96), 0, none, 0, none, false⟩] id).commands.length = 1 ∧ (∀ m ∈ (slotted none).commands, (1 : Reg).toNat ∉ m.slots)
    ∧ here.ctx.slotQ ≤ (63 : Reg).toNat := by decide +kernel
/-- OASIS keeps the class it held where the one written is no class; the other bits are written. BANDO, which holds 0x3F80, keeps bits <15:0> (R5). -/
theorem test_oasis : (let s := (withS [(1, 0x9F001FFF)]).setProg { here.prog with po := vset here.prog.po 13 0x05000001 }
    vget (after (.csrw 3 1 0x02D) s).prog.po 13 0 = 0x85001FFF ∧ (after (.csrw 3 1 0x02D) s).s 3 = 0x05000001
      ∧ vget (after (.csrs 3 1 0x02A) (withS [(1, 0x12345678)])).prog.po 10 0 = 0x7FF8) := by decide +kernel
theorem witness_ControlRegistersReadAndWrite_queued : here.chunk.held = [] ∧ here.core.commands.length < 8
    ∧ 8 ≤ (onHere fun k => { k with entering := List.replicate 8 (cmd (.mzero 0)) }).core.commands.length := by decide +kernel
/-- The header's page of a ctxsav that waits: gone, read-only, or with a line that fails lastingly. -/
theorem witness_ContextImagesAndServices_lost : here.xlate 0 0x10000000030 true = .error 0x05 ∧ mapped.xlate 0 0x10000010030 true = .error 0x06
    ∧ (let s : State := { mapped with badLines := [0x800000 / 64] }
       s.xlate 0 0x10000000030 true = .ok 0x800030 ∧ s.bad 0x800030 16 = true) ∧ mapped.bad 0x800030 16 = false := by decide +kernel
/-- Three commands on their way into the queue, of which two enter it in a cycle. -/
theorem witness_MatrixUnitSteps_cycle : (let s := withMq [cmd (.mzero 0)] fun k => { k with entering := List.replicate 3 (cmd (.mzero 0)) }
    (∀ q ∈ (s.coreAt 0).mq, q.stream = none) ∧ ((s.unitCycle 0).coreAt 0).mq.length = 3 ∧ ((s.unitCycle 0).coreAt 0).entering.length = 1) := by decide +kernel
/-- An agent's lone request, and one made in this cycle beside a core's. -/
def ask0 : Ask := ⟨128, 0, 0, BitVec.allOnes 512, false, .row 0 1 1 0⟩
theorem witness_SchedulingSteps_asks : (let s := onTile0 { here with cycle := 1 } fun t => { t with asks := [ask0] }
     (s.tileAt 0).reqs = [] ∧ (s.tileAt 0).asks = [ask0] ∧ ask0.won = false ∧ s.askable 0 ask0 = true)
    ∧ (let s := onTile0 endingNow fun t => { t with asks := [{ ask0 with since := 1 }] }
       (s.tileAt 0).reqs = [(0, 0)] ∧ (∀ a ∈ (s.tileAt 0).asks, a.won = false ∧ s.askable 0 a = false) ∧ s.grantable 0 (0, 0) = true)
    ∧ ∀ d ∈ tileCores 0, (endingNow.coreAt d).spills = [] := by decide +kernel
/-- A reply at a core whose reply slots are full, in a tile before step 5 of a transfer and not. -/
def replyFull (x : Xfer) : State := onTile0 (onHere fun k => { k with runq := List.replicate 8 (.fresh { ready3' with inbox := some true }) }) fun t => { t with ter := 1, xfer := x }
theorem witness_PacketSteps_replies : ∀ x ∈ [Xfer.none, .quiesce 2, .drain 2, .notify 1 2 []], 8 ≤ ((replyFull x).coreAt 0).inboxUsed true ∧ ((replyFull x).coreAt 0).fenced = false
    ∧ look ((replyFull x).coreAt 0).handlers 3 = some ⟨0, false, false, 0, 1, 4, []⟩ ∧ ((replyFull x).tileAt 0).xfer.before5 = (x == .quiesce 2 || x == .drain 2) := by decide +kernel
/-- A tile whose step 2 runs out with a context inside an instruction, or at a boundary; LOSS is not on its way. -/
def vacating (st : Status) : State := onTile0 { onHere fun k => { k with status := st } with cycle := 0x100000 } fun t => { t with ter := 1, xfer := .vacate 2 0 0 }
theorem witness_TerritorySteps_inside : (∀ c ∈ tileCores 0, ((vacating .running).coreAt c).status.inside = false) ∧ ((vacating (.answer .mark)).coreAt 0).status.inside = true
    ∧ ((vacating (.answer .mark)).coreAt 0).resident = true ∧ ((vacating (.answer .mark)).coreAt 0).others = [] ∧ ((vacating .running).tileAt 0).granted = []
    ∧ (xferring (.drain 2)).lossFlies 0 = false ∧ (xferring (.drain 2)).swapped = [] := by decide +kernel
/-- An entry in progress when its queue was written; a launch at a tile in a transfer; a copy that leaves the mesh; a node in a page that nobody owns. -/
theorem witness_HostSteps_more : (let e := block64 2 [(2, 2, 3), (8, 8, 1)]
     let s := { hosted e [] none with finishing := [(0, 0, e)] }
     look s.finishing 0 = some (0, e) ∧ look (hosted e [] none).finishing 0 = none ∧ (hosted e [] none).qprogress 0 = some (0, e))
    ∧ (let s := onTile0 launching fun t => { t with ter := 1, xfer := .quiesce 2 }
       s.launchWaits (walk0 none) 0x10000002000 1 = true ∧ launching.launchWaits (walk0 none) 0x10000002000 1 = false)
    ∧ (let s := { hosted [] [] none with owned := [] }
       s.walk 0 = some (walk0 none) ∧ (walk0 none).node.toNat % 64 = 0 ∧ s.xlate 0 0x10000000400 false = .ok 0x800400 ∧ 0x800400 / 2 ^ 60 = 0 ∧ s.ownerOfPage (0x800400 / 0x10000) ≠ some 0)
    ∧ (let s := { onHere fun k => { k with routes := [(23, 0x0A)] } with leaves := [leaf0] }
       s.way 23 0 1 = .edge) := by decide +kernel
/-- A checkpoint in progress of a shard that an unmapped page holds, and one that has lost it. -/
theorem witness_CheckpointSteps_lost : (let j := { job5 with active := true }
     j ∈ (jobbed j).jobs ∧ j.busy = true ∧ (∃ h ∈ j.shards, h.va.toNat < 0x10000000000 + 0x10000 ∧ 0x10000000000 < h.va.toNat + h.len) ∧ j.lost = none)
    ∧ (let j := { job5 with active := true, lost := some 0x10000000000 }
       (jobbed j).job 5 = some j ∧ j.active = true ∧ j.lost = some 0x10000000000) := by decide +kernel
/-- A resource of core 0 where core 0's class 23 leads past the mesh's edge: its answer has no way. -/
def cutOff : State := onHere fun k => { k with routes := [(23, 0x0A)] }
theorem witness_MailboxSteps_unreachable (kind addr : Nat) (hk : kindOf (Config.resourceAt kind addr) = kind) (hr : routerOf (Config.resourceAt kind addr) = some 0) :
    cutOff.resource kind addr = none := by
  have h : cutOff.way 23 0 firmwareCore = .edge := by decide +kernel
  unfold State.resource
  simp only [hk, if_true, hr, Option.all_some]
  rw [h]
  simp

end Sys2Proof.Tests
end

/-! # Every step keeps every memory canonical (R3, R22)

Global memory and a scratchpad change only through `Mem.write` and `Mem.clear`, which keep the canonical form. So for every function `f` of the
model that makes a state there is a lemma `State.MemOk.f`, "when the memories of `s` are canonical, so are those of `s.f`", in the order of the
model's files, and for every operation that makes a result a lemma whose conclusion is `Res.MemOk`. A proof follows the branches of its function
and names what each branch does. -/

section
-- One proof at a time: elaborated side by side, so many short proofs hold more threads, each with a stack of its own, than the check has memory for.
set_option Elab.async false

namespace Sys2Proof.Machine

/-! ## The invariant of results and of updates that write no memory -/

/-- The state that a result goes on to, where it goes on, has its memories in canonical form. -/
def Res.MemOk (r : Res) : Prop := ∀ t, r = .next t → t.MemOk
theorem State.MemOk.next {t : State} (h : t.MemOk) : Res.MemOk (.next t) := fun _ e => by cases e; exact h
theorem Res.memOk_fault {f : Fault} : Res.MemOk (.fault f) := fun _ e => by cases e
theorem Res.memOk_refused {f : Refusal} : Res.MemOk (.refused f) := fun _ e => by cases e

/-- An update that leaves global memory, every other core and the current core's bytes. -/
theorem State.MemOk.of {s t : State} (h : s.MemOk) (hg : t.gmem = s.gmem := by rfl) (hc : t.cur = s.cur := by rfl)
    (ho : t.others = s.others := by rfl) (hk : t.core.mem = s.core.mem := by rfl) : t.MemOk :=
  h.congr hg fun c => by unfold State.coreAt; rw [hc, ho]; split; exacts [hk, rfl]
/-- An update of one core that leaves its bytes. -/
theorem State.MemOk.keep {s : State} {c f} (h : s.MemOk) (hf : ∀ k, (f k).mem = k.mem := by intro _; rfl) : (s.onCore c f).MemOk :=
  h.onCore c f (by rw [hf]; exact h.2 c)
theorem State.MemOk.put {s : State} {c k} (h : s.MemOk) (hk : k.mem = (s.coreAt c).mem := by rfl) : (s.putCore c k).MemOk :=
  h.putCore c k (by rw [hk]; exact h.2 c)
theorem State.MemOk.foldl {α : Type} {l : List α} {f : State → α → State} {s : State} (h : s.MemOk) (hf : ∀ s a, s.MemOk → (f s a).MemOk) :
    (l.foldl f s).MemOk := State.foldl_keeps _ l f hf s h
theorem Res.MemOk.ite {p : Prop} [Decidable p] {r t : Res} (hr : Res.MemOk r) (ht : Res.MemOk t) : Res.MemOk (if p then r else t) := by
  split <;> assumption
theorem State.MemOk.ite {p : Prop} [Decidable p] {s t : State} (hs : s.MemOk) (ht : t.MemOk) : (if p then s else t).MemOk := by
  split <;> assumption
/-- Looking a key up in a list whose values have been changed one by one. -/
theorem look_map {α β : Type} [DecidableEq α] {g : α × β → α × β} (hg : ∀ e, (g e).1 = e.1) (l : List (α × β)) (a : α) :
    look (l.map g) a = (look l a).map fun b => (g (a, b)).2 := by
  induction l with
  | nil => rfl
  | cons e l ih =>
    by_cases h : e.1 = a
    · subst h; simp [look, hg]
    · simp [look, hg, h, ih]
/-- An update of every core that writes no global memory keeps the canonical form when it does so core by core. -/
theorem State.MemOk.mapped {s t : State} {g : Nat × Core → Nat × Core} (h : s.MemOk) (hk : t.core.mem.wf = true) (ho : t.others = s.others.map g)
    (h1 : ∀ e, (g e).1 = e.1) (h2 : ∀ e, e.2.mem.wf = true → (g e).2.mem.wf = true)
    (hg : t.gmem = s.gmem := by rfl) (hc : t.cur = s.cur := by rfl) : t.MemOk := by
  refine ⟨hg ▸ h.1, fun c => ?_⟩
  have hs := h.2 c
  unfold State.coreAt at hs ⊢
  rw [hc, ho, look_map h1]
  split
  · exact hk
  · rename_i hne
    rw [if_neg hne] at hs
    cases hl : look s.others c with
    | none => rfl
    | some k => rw [hl] at hs; exact h2 (c, k) hs
theorem State.MemOk.core {s : State} (h : s.MemOk) : s.core.mem.wf = true := s.coreAt_cur ▸ h.2 s.cur

/-! ## Updates of a core that leave its bytes -/

@[simp] theorem Core.mem_onCtx (k : Core) (n : Nat) (f : Ctx → Ctx) : (k.onCtx n f).mem = k.mem := by unfold Core.onCtx; split <;> rfl
@[simp] theorem Core.mem_onId (k : Core) (id : Half) (f : Ctx → Ctx) : (k.onId id f).mem = k.mem := by unfold Core.onId; split <;> rfl
@[simp] theorem Core.mem_cacheLine (k : Core) (id : Half) (l t : Nat) : (k.cacheLine id l t).mem = k.mem := by unfold Core.cacheLine; split <;> rfl
@[simp] theorem Core.mem_fillLine (k : Core) (img : List Byte) (t : Nat) : (k.fillLine img t).mem = k.mem := by
  unfold Core.fillLine; split; exacts [rfl, k.mem_cacheLine ..]
@[simp] theorem Core.mem_front (k : Core) (n : Nat) : (k.front n).mem = k.mem := by
  unfold Core.front
  split
  · rfl
  · split <;> rfl
@[simp] theorem Core.mem_rowRead (k : Core) (g r : Nat) (cy : DWord) (y : Byte) : (k.rowRead g r cy y).1.mem = k.mem := by
  unfold Core.rowRead
  exact Core.mem_foldl₂ _ _ (fun q i => by simp) _
@[simp] theorem Core.mem_renew (k : Core) (g r : Nat) (cy : DWord) (y : Byte) : (k.renew g r cy y).mem = k.mem := by
  unfold Core.renew
  extract_lets q
  have hq : q.1.mem = k.mem := k.mem_rowRead ..
  clear_value q
  split
  exacts [hq, hq]
@[simp] theorem Core.mem_rebuildRow (k : Core) (b r : Nat) (cy : DWord) (y : Byte) : (k.rebuildRow b r cy y).mem = k.mem := by
  unfold Core.rebuildRow
  extract_lets q w
  have hq : q.1.mem = k.mem := k.mem_readDirect ..
  clear_value q
  split
  exacts [hq, hq]
/-- The rows get a name first: with their list in view, a comparison of two states would run the rebuild over all 768. -/
@[simp] theorem Core.mem_rebuild (k : Core) (b : Nat) (cy : DWord) (y : Byte) (r : Nat) : (k.rebuild b cy y r).mem = k.mem := by
  unfold Core.rebuild
  obtain ⟨rows, hr⟩ : ∃ rows, List.range 768 = rows := ⟨_, rfl⟩
  rw [hr]
  extract_lets g k1 k2
  have h1 : k1.mem = k.mem := Core.mem_foldl _ _ (fun k p => k.mem_renew ..) _
  have h2 : k2.mem = k1.mem := Core.mem_foldl _ _ (fun k r => k.mem_rebuildRow ..) _
  exact h2.trans h1
@[simp] theorem Core.mem_readAll (k : Core) (o n : Nat) (x : Half) (cy : DWord) (y : Byte) : (k.readAll o n x cy y).1.mem = k.mem := by
  unfold Core.readAll
  split
  · rfl
  · exact Core.mem_foldl₂ _ _ (fun q w => by simp) _

/-! ## Updates of a core that write its bytes -/

theorem Core.wf_drainOne {k : Core} {cy y} (h : k.mem.wf = true) : (k.drainOne cy y).mem.wf = true := by
  unfold Core.drainOne; split; exacts [h, by rw [Core.mem_performOwn]; exact Mem.wf_write _ _ h]
theorem Core.wf_writeRows {k : Core} {o n bs} (h : k.mem.wf = true) : (k.writeRows o n bs).mem.wf = true := Mem.wf_write _ _ (Mem.wf_clear _ _ h)

/-! ## The operations of the machine, in the order of the model's files -/

/-! ### Machine/Device -/

theorem State.MemOk.putTile {s : State} {t k} (h : s.MemOk) : (s.putTile t k).MemOk := h.of
theorem State.MemOk.count {s : State} {k} (h : s.MemOk) : (s.count k).MemOk := h.of
theorem State.MemOk.noteBad {s : State} {key} (h : s.MemOk) : (s.noteBad key).MemOk := (h.count (k := 1)).of
theorem State.MemOk.holdWrite {s : State} {e key bs} (h : s.MemOk) : (s.holdWrite e key bs).MemOk := h.of
theorem State.MemOk.putEntry {s : State} {v level va} (h : s.MemOk) : (s.putEntry v level va).MemOk := by
  unfold State.putEntry
  split
  exacts [h.gset _ _, h]
theorem State.MemOk.noteFail {s : State} {v va c} (h : s.MemOk) : (s.noteFail v va c).MemOk := by
  unfold State.noteFail
  split
  · split
    exacts [h.noteBad, h]
  exact h
theorem State.MemOk.vreadNote {s : State} {v va n} (h : s.MemOk) : (s.vreadNote v va n).1.MemOk := by
  unfold State.vreadNote
  split
  exacts [h, h.noteFail]
theorem State.MemOk.send {s : State} {e} (h : s.MemOk) : (s.send e).MemOk := h.of
theorem State.MemOk.sendAll {s : State} {es} (h : s.MemOk) : (s.sendAll es).MemOk := h.of

/-! ### Machine/Ready -/

theorem State.MemOk.onChan {s : State} {ch f} (h : s.MemOk) : (s.onChan ch f).MemOk := h.onTile _ _
theorem State.MemOk.refill {s : State} {c} (h : s.MemOk) : (s.refill c).MemOk := h.keep fun k => k.mem_refill ..
theorem State.MemOk.enqueue {s : State} {c w} (h : s.MemOk) : (s.enqueue c w).MemOk := h.congr (s.mem_enqueue c w).1 (s.mem_enqueue c w).2
theorem State.MemOk.localEvent {s : State} {c kind cls evt src payload launch} (h : s.MemOk) :
    (s.localEvent c kind cls evt src payload launch).MemOk := by
  unfold State.localEvent
  split
  exacts [h.postLaunch _ _, h.enqueue]
theorem State.MemOk.actors {s : State} {c} (h : s.MemOk) : (s.actors c).MemOk := h.congr (s.mem_actors c).1 (s.mem_actors c).2
theorem State.MemOk.touch {s : State} {ch} (h : s.MemOk) : (s.touch ch).MemOk := h.congr (s.mem_touch ch).1 (s.mem_touch ch).2

/-! ### Machine/Ops -/

theorem State.MemOk.setCtx {s : State} {x} (h : s.MemOk) : (s.setCtx x).MemOk := h.of
theorem State.MemOk.setFir {s : State} {x} (h : s.MemOk) : (s.setFir x).MemOk := h.of
theorem State.MemOk.setRegs {s : State} {x} (h : s.MemOk) : (s.setRegs x).MemOk := h.of
theorem State.MemOk.setProg {s : State} {x} (h : s.MemOk) : (s.setProg x).MemOk := h.of
theorem State.MemOk.setChunk {s : State} {x} (h : s.MemOk) : (s.setChunk x).MemOk := h.of
theorem State.MemOk.setStatus {s : State} {x} (h : s.MemOk) : (s.setStatus x).MemOk := h.of
theorem State.MemOk.setS {s : State} {i v} (h : s.MemOk) : (s.setS i v).MemOk := h.setRegs
theorem State.MemOk.setD {s : State} {p v} (h : s.MemOk) : (s.setD p v).MemOk := h.setRegs
theorem State.MemOk.setM {s : State} {m v} (h : s.MemOk) : (s.setM m v).MemOk := h.setRegs
theorem State.MemOk.setV {s : State} {i v} (h : s.MemOk) : (s.setV i v).MemOk := by
  unfold State.setV
  dsimp only
  split
  exacts [h.setRegs, h.setProg]
theorem State.MemOk.flag {s : State} {f} (h : s.MemOk) : (s.flag f).MemOk := h.setProg
theorem State.MemOk.setTrapRegs {s : State} {t} (h : s.MemOk) : (s.setTrapRegs t).MemOk := h.setProg
theorem State.MemOk.endChunk {s : State} {a} (h : s.MemOk) : (s.endChunk a).MemOk := h.setStatus.onTile _ _
theorem State.MemOk.hold {s : State} {h'} (h : s.MemOk) : (s.hold h').MemOk := h.setChunk
theorem State.MemOk.counted {s : State} (h : s.MemOk) : s.counted.MemOk := h.setFir
theorem State.MemOk.full {s : State} (h : s.MemOk) : s.full.MemOk := by
  unfold State.full
  split
  exacts [h.endChunk, h]
theorem State.MemOk.advance {s : State} {words} (h : s.MemOk) : (s.advance words).MemOk := h.setRegs
theorem State.MemOk.retire {s : State} {words} (h : s.MemOk) : (s.retire words).MemOk := h.advance.counted.full
theorem State.MemOk.retireTo {s : State} {target closes} (h : s.MemOk) : (s.retireTo target closes).MemOk := h.setRegs.counted.full
theorem State.MemOk.catchUp {s : State} {c} (h : s.MemOk) : (s.catchUp c).MemOk := h.keep
theorem State.MemOk.between {s : State} {c} (h : s.MemOk) : (s.between c).MemOk := by
  unfold State.between
  split
  exacts [h.drain _, h]
theorem State.MemOk.writeBack {s : State} {m c off bs ctx} (h : s.MemOk) : (s.writeBack m c off bs ctx).MemOk := h.extWrite _ _ _ _ _
theorem State.MemOk.suspect {s : State} {ch cause} (h : s.MemOk) : (s.suspect ch cause).MemOk := by
  unfold State.suspect
  split
  · exact h
  split
  exacts [h, h.onChan.postLaunch _ _]
theorem State.MemOk.suspectAll {s : State} {t} (h : s.MemOk) : (s.suspectAll t).MemOk := h.foldl (fun _ _ h => h.foldl (fun _ _ h => h.suspect))
theorem State.MemOk.endsLost {s : State} {c id} (h : s.MemOk) : (s.endsLost c id).MemOk := by
  unfold State.endsLost
  extract_lets t
  have ht : t.MemOk := h.suspectAll
  clear_value t
  exact ht.of
theorem State.MemOk.stripStubs {s : State} {ter id} (h : s.MemOk) : (s.stripStubs ter id).MemOk := by
  refine h.mapped ?_ rfl (fun _ => rfl) fun e he => ?_
  · unfold State.stripStubs
    dsimp only
    split <;> exact h.core
  · dsimp only
    split <;> exact he
theorem State.MemOk.removeCtx {s : State} {c id} (h : s.MemOk) : (s.removeCtx c id).MemOk := by
  unfold State.removeCtx
  split
  · exact h
  extract_lets running s1 zero s2 s3 s4 s5 s6 s7
  have h2 : s2.MemOk := (h.drain c).keep fun _ => by dsimp only; split <;> rfl
  have h3 : s3.MemOk := .ite (h2.onTile _ _) h2
  have h5 : s5.MemOk := h3.endsLost.onTile _ _
  have h6 : s6.MemOk := by
    unfold s6
    split
    exacts [h5, h5.onTile _ _]
  have h7 : s7.MemOk := h6.stripStubs
  exact h7.of
theorem State.MemOk.kill {s : State} {code} (h : s.MemOk) : (s.kill code).MemOk := h.removeCtx.postLaunch _ _
theorem State.MemOk.enterTrap {s : State} {code lo hi deferred} (h : s.MemOk) : (s.enterTrap code lo hi deferred).MemOk := by
  unfold State.enterTrap
  dsimp only
  split
  exacts [h.kill, h.setTrapRegs.setProg.setFir.setStatus]
theorem State.MemOk.trap {s : State} {code lo hi} (h : s.MemOk) : (s.trap code lo hi).MemOk := by
  unfold State.trap
  split
  exacts [h.enterTrap, h.endChunk]
theorem State.MemOk.trapAt {s : State} {code ea} (h : s.MemOk) : (s.trapAt code ea).MemOk := h.trap
theorem State.MemOk.leaveTrap {s : State} {pc} (h : s.MemOk) : (s.leaveTrap pc).MemOk := h.setFir
theorem State.MemOk.waitOn {s : State} {w} (h : s.MemOk) : (s.waitOn w).MemOk := by
  unfold State.waitOn
  split
  exacts [h.setStatus, h.endChunk]
theorem State.MemOk.parkAs {s : State} {q push w} (h : s.MemOk) : (s.parkAs q push w).MemOk := by
  unfold State.parkAs
  dsimp only
  split
  · exact h.enterTrap
  split
  exacts [h.setStatus, h.of]
theorem State.MemOk.parkNow {s : State} {q push} (h : s.MemOk) : (s.parkNow q push).MemOk := h.parkAs
theorem State.MemOk.parkOn {s : State} {q push} (h : s.MemOk) : (s.parkOn q push).MemOk := by
  unfold State.parkOn
  split
  exacts [h.parkNow, h.endChunk]
theorem State.MemOk.noteRead {s : State} {ea n} (h : s.MemOk) : (s.noteRead ea n).MemOk := by
  unfold State.noteRead
  dsimp only
  split
  exacts [h.setChunk, h]
theorem State.MemOk.noteWrite {s : State} {ea n} (h : s.MemOk) : (s.noteWrite ea n).MemOk := by
  unfold State.noteWrite
  dsimp only
  split
  exacts [h.setChunk, h]
theorem State.MemOk.holdStore {s : State} {rows ea bs} (h : s.MemOk) : (s.holdStore rows ea bs).MemOk := h.hold.noteWrite

/-! ### Machine/Operands -/

theorem State.MemOk.drawn {s : State} {mode n} (h : s.MemOk) : (s.drawn mode n).MemOk := by
  unfold State.drawn
  dsimp only
  split
  exacts [h.setProg, h]
theorem State.MemOk.vround {s : State} {vd m w n draws f} (h : s.MemOk) : (s.vround vd m w n draws f).MemOk := h.setV.flag.drawn
theorem State.MemOk.vmap {s : State} {vd m w n f} (h : s.MemOk) : (s.vmap vd m w n f).MemOk := h.setV

/-! ### Machine/Int -/

theorem State.MemOk.giveS {s : State} {rd v} (h : s.MemOk) : Res.MemOk (s.giveS rd v) := h.setS.retire.next
theorem State.MemOk.giveD {s : State} {rd v} (h : s.MemOk) : Res.MemOk (s.giveD rd v) := h.setD.retire.next

/-! ### Machine/Branch -/

theorem State.MemOk.transfer {s : State} {target closes f} (h : s.MemOk) (hf : ∀ {s : State}, s.MemOk → (f s).MemOk) :
    Res.MemOk (s.transfer target closes f) := by
  unfold State.transfer
  split
  exacts [(hf h).retireTo.next, h.trap.next]
theorem State.MemOk.branch {s : State} {taken off} (h : s.MemOk) : Res.MemOk (s.branch taken off) := by
  unfold State.branch
  split
  exacts [h.transfer id, h.retire.next]
theorem State.MemOk.execJ {s : State} {off} (h : s.MemOk) : Res.MemOk (execJ off s) := h.transfer id
theorem State.MemOk.execJal {s : State} {off} (h : s.MemOk) : Res.MemOk (execJal off s) := h.transfer (fun h => h.setS)
theorem State.MemOk.execJr {s : State} {ra} (h : s.MemOk) : Res.MemOk (execJr ra s) := by
  unfold Machine.execJr
  dsimp only
  split
  exacts [h.trap.next, h.transfer id]
theorem State.MemOk.execJalr {s : State} {rd ra} (h : s.MemOk) : Res.MemOk (execJalr rd ra s) := by
  unfold Machine.execJalr
  dsimp only
  split
  exacts [h.trap.next, h.transfer (fun h => h.setS)]
theorem State.MemOk.execLoop {s : State} {rd ra rb fn} (h : s.MemOk) : Res.MemOk (execLoop rd ra rb fn s) := by
  unfold Machine.execLoop
  dsimp only
  split
  · exact h.trap.next
  split
  · exact h.trap.next
  split
  · exact h.trap.next
  split
  · split
    exacts [h.setRegs.counted.full.next, h.trap.next]
  exact h.setRegs.counted.full.next
theorem State.MemOk.execNstclm {s : State} {rd ra} (h : s.MemOk) : Res.MemOk (execNstclm rd ra s) := by
  unfold Machine.execNstclm
  dsimp only
  split
  exacts [h.trapAt.next, h.hold.counted.endChunk.next]
theorem State.MemOk.execNstnxt {s : State} {rd} (h : s.MemOk) : Res.MemOk (execNstnxt rd s) := by
  unfold Machine.execNstnxt
  dsimp only
  split
  exacts [h.retire.next, h.setRegs.giveS]

/-! ### Machine/Message -/

theorem State.MemOk.withRequest {s : State} {lo hi k} (h : s.MemOk) (hk : ∀ {s : State}, s.MemOk → Res.MemOk (k s)) :
    Res.MemOk (s.withRequest lo hi k) := by
  unfold State.withRequest
  split
  exacts [hk h, .next (.ite h.trap h.waitOn)]
theorem State.MemOk.issue {s : State} {c p} (h : s.MemOk) : (s.issue c p).MemOk := by
  unfold State.issue
  extract_lets k q k1 k2
  have h1 : k1.mem = k.mem := by unfold k1; split <;> rfl
  have h2 : k2.mem = k.mem := by unfold k2; split; exacts [h1, h1]
  exact (h.put h2).send
theorem State.MemOk.holdPacket {s : State} {p words} (h : s.MemOk) : Res.MemOk (s.holdPacket p words) := h.hold.retire.next
theorem State.MemOk.execSend {s : State} {vs sd cls len1 net pri} (h : s.MemOk) : Res.MemOk (execSend vs sd cls len1 net pri s) := by
  unfold Machine.execSend
  dsimp only
  split
  exacts [h.trap.next, h.withRequest (fun h => h.holdPacket)]
theorem State.MemOk.execReply {s : State} {vs cls len1 pri} (h : s.MemOk) : Res.MemOk (execReply vs cls len1 pri s) := by
  unfold Machine.execReply
  split
  · exact h.trap.next
  split
  exacts [h.holdPacket, h.waitOn.next]
theorem State.MemOk.execDepos {s : State} {vs base off len1 trig} (h : s.MemOk) : Res.MemOk (execDepos vs base off len1 trig s) := by
  unfold Machine.execDepos
  dsimp only
  split
  · exact h.trapAt.next
  split
  exacts [h.trapAt.next, h.withRequest (fun h => h.holdPacket)]
theorem State.MemOk.amo {s : State} {op a} (h : s.MemOk) : Res.MemOk (s.amo op a) := by
  unfold State.amo
  extract_lets ea pr
  refine .ite h.trapAt.next ?_
  split
  · exact h.trapAt.next
  exact h.withRequest fun h => .ite h.hold.counted.endChunk.next h.holdPacket
theorem State.MemOk.execLaunch {s : State} {node} (h : s.MemOk) : Res.MemOk (execLaunch node s) := by
  unfold Machine.execLaunch
  dsimp only
  split
  · exact h.trapAt.next
  split
  exacts [h.trapAt.next, h.withRequest (fun h => h.holdPacket)]
theorem State.MemOk.classMask {s : State} {op cls} (h : s.MemOk) : Res.MemOk (s.classMask op cls) := by
  unfold State.classMask
  dsimp only
  split
  exacts [h.trap.next, h.hold.retire.next]
theorem State.MemOk.execKend {s : State} (h : s.MemOk) : Res.MemOk (execKend s) := h.withRequest (fun h => h.holdPacket)
theorem State.MemOk.execHpost {s : State} {vs} (h : s.MemOk) : Res.MemOk (execHpost vs s) := h.withRequest (fun h => h.holdPacket)
theorem State.MemOk.holdBar {s : State} {o} (h : s.MemOk) : Res.MemOk (s.holdBar o) := h.hold.retire.next
theorem State.MemOk.execBarrx {s : State} {bar ra} (h : s.MemOk) : Res.MemOk (execBarrx bar ra s) := by
  unfold Machine.execBarrx
  dsimp only
  split
  exacts [h.trap.next, h.withRequest (fun h => h.holdPacket)]
theorem State.MemOk.execBwait {s : State} {bar ra} (h : s.MemOk) : Res.MemOk (execBwait bar ra s) := by
  unfold Machine.execBwait
  dsimp only
  split
  · exact h.endChunk.next
  split
  exacts [h.catchUp.retire.next, h.waitOn.next]

/-! ### Machine/Queue -/

theorem State.MemOk.trapQ {s : State} {q} (h : s.MemOk) : Res.MemOk (s.trapQ q) := h.trap.next
theorem State.MemOk.taken {s : State} {q ch eos give bs} (h : s.MemOk) (hg : ∀ {s : State} {bs}, s.MemOk → (give s bs).MemOk) :
    Res.MemOk (s.taken q ch eos give bs) := (hg h).catchUp.hold.retire.next
theorem State.MemOk.popWith {s : State} {q scalar give} (h : s.MemOk) (hg : ∀ {s : State} {bs}, s.MemOk → (give s bs).MemOk) :
    Res.MemOk (s.popWith q scalar give) := by
  unfold State.popWith
  dsimp only
  split
  · split
    exacts [h.taken hg, h.waitOn.next]
  split
  · split
    exacts [h.taken hg, h.waitOn.next]
  split
  · exact h.trapQ
  split
  · exact h.trapQ
  split
  · exact h.trapQ
  split
  · exact h.parkOn.next
  split
  · exact h.taken hg
  split
  exacts [(h.mirRead _ _ _ _).trapAt.next, (h.mirRead _ _ _ _).taken hg]
theorem State.MemOk.execQrd {s : State} {rd q} (h : s.MemOk) : Res.MemOk (execQrd rd q s) := h.popWith (fun h => h.setS)
theorem State.MemOk.execQrdv {s : State} {vd q} (h : s.MemOk) : Res.MemOk (execQrdv vd q s) := h.popWith (fun h => h.setV)
theorem State.MemOk.route {s : State} {q k eos bs} (h : s.MemOk) : Res.MemOk (s.route q k eos bs) := by
  unfold State.route
  dsimp only
  split
  · split
    exacts [h.hold.retire.next, h.waitOn.next]
  split
  exacts [h.parkOn.next, h.hold.retire.next]
theorem State.MemOk.pushWith {s : State} {q scalar eos bytes} (h : s.MemOk) : Res.MemOk (s.pushWith q scalar eos bytes) := by
  unfold State.pushWith
  split
  · exact h.trapQ
  split
  · exact h.trapQ
  split
  exacts [h.trapQ, h.route]
theorem State.MemOk.execQwr {s : State} {q ra} (h : s.MemOk) : Res.MemOk (execQwr q ra s) := h.pushWith
theorem State.MemOk.execQwrv {s : State} {q va} (h : s.MemOk) : Res.MemOk (execQwrv q va s) := h.pushWith
theorem State.MemOk.execCheos {s : State} {q} (h : s.MemOk) : Res.MemOk (execCheos q s) := h.pushWith
theorem State.MemOk.execChbind {s : State} {q ra consumer} (h : s.MemOk) : Res.MemOk (execChbind q ra consumer s) := by
  unfold Machine.execChbind
  extract_lets w bad ch
  have hb : Res.MemOk bad := h.trap.next
  split
  · exact hb
  split
  · exact hb
  iterate 2 refine .ite hb ?_
  extract_lets f
  refine .ite hb ?_
  exact h.setProg.hold.retire.next
theorem State.MemOk.execChunb {s : State} {q} (h : s.MemOk) : Res.MemOk (execChunb q s) := by
  unfold Machine.execChunb
  dsimp only
  split
  exacts [h.trapQ, h.setProg.hold.retire.next]
theorem State.MemOk.execChgrow {s : State} {q ra} (h : s.MemOk) : Res.MemOk (execChgrow q ra s) := by
  unfold Machine.execChgrow
  dsimp only
  split
  · exact h.endChunk.next
  split
  · exact h.trapQ
  split
  · exact h.trapQ
  split
  exacts [h.retire.next, h.send.setStatus.next]
theorem State.MemOk.execChstat {s : State} {rd q} (h : s.MemOk) : Res.MemOk (execChstat rd q s) := by
  unfold Machine.execChstat
  split
  · exact h.endChunk.next
  split
  exacts [h.trapQ, h.giveS]
theorem State.MemOk.trapSlot {s : State} {n} (h : s.MemOk) : Res.MemOk (s.trapSlot n) := h.trap.next
theorem State.MemOk.execSlclm {s : State} {n} (h : s.MemOk) : Res.MemOk (execSlclm n s) := by
  unfold Machine.execSlclm
  dsimp only
  split
  · exact h.trapSlot
  split
  · exact h.trapSlot
  split
  exacts [h.waitOn.next, h.setProg.retire.next]
theorem State.MemOk.execSlrel {s : State} {n} (h : s.MemOk) : Res.MemOk (execSlrel n s) := by
  unfold Machine.execSlrel
  split
  · exact h.trapSlot
  split
  exacts [h.trapSlot, h.setProg.retire.next]
theorem State.MemOk.pushMatrix {s : State} {f w words} (h : s.MemOk) (hf : ∀ {s : State}, s.MemOk → (f s).MemOk) :
    Res.MemOk (s.pushMatrix f w words) := by
  unfold State.pushMatrix
  dsimp only
  split
  exacts [h.waitOn.next, (hf h).hold.retire.next]
theorem State.MemOk.pushCopy {s : State} {k i} (h : s.MemOk) : Res.MemOk (s.pushCopy k i) := by
  unfold State.pushCopy
  split
  exacts [h.waitOn.next, h.hold.retire.next]
theorem State.MemOk.execMld {s : State} {slot fmt trans src stride} (h : s.MemOk) : Res.MemOk (execMld slot fmt trans src stride s) := h.pushMatrix id
theorem State.MemOk.execMma {s : State} {acc sa sb bandA bandB} (h : s.MemOk) : Res.MemOk (execMma acc sa sb bandA bandB s) := h.pushMatrix id
theorem State.MemOk.execMzero {s : State} {acc} (h : s.MemOk) : Res.MemOk (execMzero acc s) := h.pushMatrix id
theorem State.MemOk.execMst {s : State} {acc dst stride} (h : s.MemOk) : Res.MemOk (execMst acc dst stride s) := h.pushMatrix id
theorem State.MemOk.execMqnt {s : State} {acc fmt rnd codes cstride sstride scales} (h : s.MemOk) :
    Res.MemOk (execMqnt acc fmt rnd codes cstride sstride scales s) := by
  unfold Machine.execMqnt
  extract_lets q sr n
  exact h.pushMatrix fun h => .ite h.setProg h
theorem State.MemOk.execMamax {s : State} {acc cnt1} (h : s.MemOk) : Res.MemOk (execMamax acc cnt1 s) := h.pushMatrix id
theorem State.MemOk.execXidwt {s : State} {ra k} (h : s.MemOk) : Res.MemOk (execXidwt ra k s) := by
  unfold Machine.execXidwt
  dsimp only
  split
  · exact h.endChunk.next
  split
  · exact h.trap.next
  split
  exacts [h.catchUp.retire.next, h.waitOn.next]

/-! ### Machine/Sys -/

theorem State.MemOk.csrPut {s : State} {n v} (h : s.MemOk) : (s.csrPut n v).MemOk := by
  unfold State.csrPut
  dsimp only
  split
  · exact h.setRegs
  split
  · exact h.setProg
  · exact h.setProg
  · exact h.setProg
  · exact .ite h h.setProg
  · exact .ite h h.setProg
  · exact .ite h h.setProg
  · exact h.setProg
  · exact h.setProg
  · exact h.of
  · exact h
theorem State.MemOk.trapSys {s : State} {op rd ra n} (h : s.MemOk) : Res.MemOk (s.trapSys op rd ra n) := h.trap.next
theorem State.MemOk.csrWrite {s : State} {op rd ra n} (h : s.MemOk) : Res.MemOk (s.csrWrite op rd ra n) := by
  unfold State.csrWrite
  dsimp only
  split
  · exact h.trapSys
  split
  · exact h.trapSys
  split
  · split
    · exact h.endChunk.next
    split
    exacts [h.waitOn.next, h.pushMatrix (fun h => h.setS)]
  split
  · exact h.pushMatrix (fun h => h.setProg.setS)
  split
  exacts [h.setS.hold.retire.next, h.csrPut.setS.retire.next]
theorem State.MemOk.execCsrr {s : State} {rd n} (h : s.MemOk) : Res.MemOk (execCsrr rd n s) := by
  unfold Machine.execCsrr
  split
  · exact h.trapSys
  split
  · split
    · exact h.endChunk.next
    split
    exacts [h.waitOn.next, h.giveS]
  exact h.giveS
theorem State.MemOk.execChunk {s : State} (h : s.MemOk) : Res.MemOk (execChunk s) := by
  unfold Machine.execChunk
  split
  exacts [h.retire.next, h.endChunk.next]
theorem State.MemOk.fenced {s : State} {k} (h : s.MemOk) (hk : ∀ {s : State}, s.MemOk → Res.MemOk (k s)) : Res.MemOk (s.fenced k) := by
  unfold State.fenced
  split
  · exact h.endChunk.next
  split
  exacts [h.waitOn.next, hk h]
theorem State.MemOk.execFenceD {s : State} (h : s.MemOk) : Res.MemOk (execFenceD s) := h.fenced (fun h => h.retire.next)
theorem State.MemOk.execFenceS {s : State} (h : s.MemOk) : Res.MemOk (execFenceS s) := by
  unfold Machine.execFenceS
  exact h.fenced (fun h => by
    split
    exacts [h.waitOn.next, h.retire.next])
theorem State.MemOk.execStepmk {s : State} (h : s.MemOk) :
    Res.MemOk (execStepmk s) := h.fenced (fun h => h.withRequest (fun h => h.issue.setStatus.next))
theorem State.MemOk.execLbsync {s : State} (h : s.MemOk) : Res.MemOk (execLbsync s) := by
  unfold Machine.execLbsync
  split
  exacts [h.endChunk.next, h.advance.counted.endChunk.next]
theorem State.MemOk.execPsync {s : State} {ra rb} (h : s.MemOk) : Res.MemOk (execPsync ra rb s) := by
  unfold Machine.execPsync
  dsimp only
  split
  · exact h.endChunk.next
  split
  · exact h.retire.next
  split
  · exact h.trapAt.next
  · exact h.trapAt.next
  split
  exacts [(h.drain _).retire.next, (h.drain _).waitOn.next]
theorem State.MemOk.execBrk {s : State} {n} (h : s.MemOk) : Res.MemOk (execBrk n s) := by
  unfold Machine.execBrk
  dsimp only
  split
  exacts [.next (.retire h.setCtx.of), h.trap.next]
theorem State.MemOk.execTret {s : State} {skip} (h : s.MemOk) : Res.MemOk (execTret skip s) := by
  unfold Machine.execTret
  dsimp only
  split
  · exact h.trap.next
  split
  exacts [h.endChunk.next, h.counted.leaveTrap.full.next]
theorem State.MemOk.execPrioff {s : State} (h : s.MemOk) : Res.MemOk (execPrioff s) := by
  unfold Machine.execPrioff
  dsimp only
  apply State.MemOk.next
  split
  exacts [h.retire, h.retire.setFir]
theorem State.MemOk.execFwcall {s : State} {rd ra svc} (h : s.MemOk) : Res.MemOk (execFwcall rd ra svc s) := by
  unfold Machine.execFwcall
  dsimp only
  split
  · exact h.trapAt.next
  exact h.fenced (fun h => by
    split
    exacts [h.giveS, h.issue.setStatus.next])

/-! ### Machine/Image -/

theorem State.MemOk.grantCounts {s : State} {c slot} (h : s.MemOk) : (s.grantCounts c slot).MemOk := by
  unfold State.grantCounts
  split
  · exact h
  · refine .ite h (State.MemOk.of (s := s.onCore c fun k => k.onCtx slot _) ?_)
    exact h.keep fun k => k.mem_onCtx ..
theorem State.MemOk.freshenBy {s : State} {c f} (h : s.MemOk) : (s.freshenBy c f).MemOk := by
  unfold State.freshenBy
  exact h.foldl (fun _ _ h => by
    split
    · split
      exacts [h.keep, h]
    exact h)
theorem State.MemOk.install {s : State} {c x classes data} (h : s.MemOk) : (s.install c x classes data).MemOk := by
  unfold State.install
  extract_lets k
  split
  · exact h
  extract_lets x s1 k2 s2 s3 s4
  have h1 : s1.MemOk := .ite (h.onTile _ _) h
  have h2 : s2.MemOk := h1.putCore _ _ (Core.wf_writeRows (h.2 c))
  have h3 : s3.MemOk := h2.freshenBy.grantCounts
  have h4 : s4.MemOk := by clear_value s3; exact h3.of
  split
  exacts [h4, h4.onTile _ _]
theorem State.MemOk.nextCount {s : State} {c slot} (h : s.MemOk) : (s.nextCount c slot).1.MemOk := by
  unfold State.nextCount
  split
  · exact h
  split
  · exact h
  · exact .keep (.ite h h.grantCounts) fun k => k.mem_onCtx ..
theorem State.MemOk.switchOut {s : State} {c slot} (h : s.MemOk) : (s.switchOut c slot).MemOk := by
  unfold State.switchOut
  dsimp only
  split
  · exact h
  split
  · exact ((h.nextCount.keep (fun _ => by simp)).vreadNote.vwriteBy _ _ _ _).vwriteBy _ _ _ _
  exact ((h.nextCount.keep (fun _ => by simp)).vwriteBy _ _ _ _).vwriteBy _ _ _ _
theorem State.MemOk.switchIn {s : State} {x} (h : s.MemOk) : (s.switchIn x).1.MemOk := by
  unfold State.switchIn
  dsimp only
  split
  · exact h
  have h1 := h.vreadNote (v := x.vdev) (va := x.save.toNat + x.imageLen) (n := 64)
  split
  all_goals rename_i s1 _ e1; rw [e1] at h1
  · exact h1
  have h2 := h1.vreadNote (v := x.vdev) (va := x.save.toNat + 0xC0) (n := 4032)
  split
  all_goals rename_i s2 _ e2; rw [e2] at h2
  · exact h2
  split
  · exact h2
  have h3 := h2.vreadNote (v := x.vdev) (va := x.save.toNat) (n := 48)
  split
  all_goals rename_i s3 _ e3; rw [e3] at h3; exact h3
theorem State.MemOk.sealedImage {s : State} (h : s.MemOk) : s.sealedImage.MemOk := by
  unfold State.sealedImage
  dsimp only
  split
  exacts [h.of, h]
theorem State.MemOk.writeTag {s : State} {tag} (h : s.MemOk) : (s.writeTag tag).MemOk := by
  unfold State.writeTag
  dsimp only
  split
  · exact h.trapAt
  split
  · exact h.noteBad.trapAt
  split
  exacts [(h.vwriteBy _ _ _ _).sealedImage.retire, (h.vwriteBy _ _ _ _).setStatus]
theorem State.MemOk.execCtxsav {s : State} {ra} (h : s.MemOk) : Res.MemOk (execCtxsav ra s) := by
  unfold Machine.execCtxsav
  extract_lets a x l hv n cnt s1 r s2 hd
  have h1 : s1.MemOk := .drain (.ite h.of h) _
  have h2 : s2.MemOk := h1.scrRead _ _ _ _
  refine .ite h.trapAt.next ?_
  refine .ite h.trapAt.next ?_
  split
  · exact h.trapAt.next
  refine .ite h.endChunk.next ?_
  refine .ite h.waitOn.next ?_
  split
  · exact h2.trapAt.next
  extract_lets body e t1 tag ps
  have h3 : t1.MemOk := (h2.vwriteBy _ _ _ _).vwriteBy _ _ _ _
  split
  · extract_lets t
    have ht : t.MemOk := .ite h2 ((h2.vwriteBy _ _ _ _).vwriteBy _ _ _ _)
    exact ht.noteFail.trapAt.next
  · exact .ite (h3.writeTag.next) (h3.setStatus.next)
theorem State.MemOk.leaveStub {s : State} {id to'} (h : s.MemOk) : (s.leaveStub id to').MemOk := by
  unfold State.leaveStub
  dsimp only
  split
  · exact h
  split
  exacts [h, h.keep]
theorem State.MemOk.execCtxrst {s : State} {ra} (h : s.MemOk) : Res.MemOk (execCtxrst ra s) := by
  unfold Machine.execCtxrst
  dsimp only
  split
  · exact h.trapAt.next
  split
  · exact h.trapAt.next
  split
  · exact h.noteFail.trapAt.next
  split
  · exact h.trapAt.next
  split
  · exact h.trapAt.next
  split
  · exact h.trapAt.next
  split
  · exact h.endChunk.next
  split
  · exact h.noteFail.trapAt.next
  split
  · exact h.trapAt.next
  split
  · exact h.trapAt.next
  split
  exacts [h.trapAt.next, h.leaveStub.install.retire.next]

/-! ### Machine/Load -/

theorem State.MemOk.readPiece {s : State} {ea n} (h : s.MemOk) : (s.readPiece ea n).1.MemOk := by
  unfold State.readPiece
  dsimp only
  split
  · exact h
  · split
    exacts [h.noteFail, h]
  · split <;> exact h.mirRead _ _ _ _
  split
  exacts [h.mirRead _ _ _ _, (h.mirRead _ _ _ _).noteRead]
theorem State.MemOk.readPieces {s : State} {ps} (h : s.MemOk) : (s.readPieces ps).1.MemOk := by
  induction ps generalizing s with
  | nil => exact h
  | cons p ps ih =>
    unfold State.readPieces
    dsimp only
    split
    · exact h.readPiece
    split <;> exact ih h.readPiece
theorem State.MemOk.deliver {s : State} {l ps} (h : s.MemOk) : (s.deliver l ps).MemOk := by
  unfold State.deliver
  dsimp only
  split
  exacts [h.setS, h.setD, h.setV, h.setV]
theorem State.MemOk.finishLoad {s : State} {l} (h : s.MemOk) : (s.finishLoad l).MemOk := by
  unfold State.finishLoad
  dsimp only
  split
  exacts [h.readPieces.trapAt, h.readPieces.deliver.retire]
theorem State.MemOk.load {s : State} {l} (h : s.MemOk) : Res.MemOk (s.load l) := by
  unfold State.load
  dsimp only
  split
  · exact .next (.send h.of)
  split
  exacts [h.next, h.finishLoad.next]
theorem State.MemOk.loadS {s : State} {kind rt size base off p} (h : s.MemOk) : Res.MemOk (s.loadS kind rt size base off p) := by
  unfold State.loadS
  dsimp only
  split
  · split
    exacts [h.trapAt.next, h.load]
  exact h.retire.next
theorem State.MemOk.storeAll {s : State} {rows entries ws} (h : s.MemOk) : Res.MemOk (s.storeAll rows entries ws) := by
  unfold State.storeAll
  dsimp only
  split
  exacts [h.endChunk.next, (h.foldl (fun _ _ h => h.holdStore)).setChunk.retire.next]
theorem State.MemOk.storeS {s : State} {bs base off p} (h : s.MemOk) : Res.MemOk (s.storeS bs base off p) := by
  unfold State.storeS
  dsimp only
  split
  · split
    exacts [h.trapAt.next, h.storeAll]
  exact h.retire.next
theorem State.MemOk.execVld {s : State} {vd base off m p} (h : s.MemOk) : Res.MemOk (execVld vd base off m p s) := by
  unfold Machine.execVld
  dsimp only
  split
  · split
    exacts [h.trapAt.next, h.load]
  exact h.retire.next
theorem State.MemOk.execVst {s : State} {vs base off m p} (h : s.MemOk) : Res.MemOk (execVst vs base off m p s) := by
  unfold Machine.execVst
  dsimp only
  split
  · split
    exacts [h.trapAt.next, h.storeAll]
  exact h.retire.next
theorem State.MemOk.execVldbc {s : State} {vd size base off m p} (h : s.MemOk) : Res.MemOk (execVldbc vd size base off m p s) := by
  unfold Machine.execVldbc
  dsimp only
  split
  · split
    exacts [h.trapAt.next, h.load]
  exact h.retire.next
theorem State.MemOk.execVgath {s : State} {vd dbl base off m idx} (h : s.MemOk) : Res.MemOk (execVgath vd dbl base off m idx s) := by
  unfold Machine.execVgath
  dsimp only
  split
  · exact h.retire.next
  split
  exacts [h.trapAt.next, h.load]
theorem State.MemOk.execVscat {s : State} {vs dbl base off m idx} (h : s.MemOk) : Res.MemOk (execVscat vs dbl base off m idx s) := by
  unfold Machine.execVscat
  dsimp only
  split
  · exact h.retire.next
  split
  exacts [h.trapAt.next, h.storeAll]
theorem State.MemOk.atCore {s : State} {c k} (h : s.MemOk) (hk : s.MemOk → (k s).MemOk) : Res.MemOk (atCore c s k) := by
  unfold Machine.atCore
  split
  exacts [(hk h).next, Res.memOk_fault]
theorem State.MemOk.execTranslatedLoadReturn {s : State} {c} (h : s.MemOk) : Res.MemOk (execTranslatedLoadReturn c s) := by
  unfold Machine.execTranslatedLoadReturn
  dsimp only
  refine h.atCore fun h => ?_
  split
  · split
    · exact (h.goto _).send
    split
    exacts [h.goto _, .finishLoad (h.goto _).of]
  exact h.goto _

/-! ### Machine/RunQueue -/

theorem State.MemOk.dropCtx {s : State} {c id} (h : s.MemOk) : (s.dropCtx c id).MemOk := by
  unfold State.dropCtx
  split
  exacts [h, h.removeCtx.postLaunch _ _]
theorem State.MemOk.switchTo {s : State} {c slot} (h : s.MemOk) : (s.switchTo c slot).1.MemOk := by
  unfold State.switchTo
  extract_lets k s1 s2
  split
  · exact h
  have h2 : s2.MemOk := State.MemOk.keep (.ite h.switchOut h) fun _ => by simp
  have h3 := h2.switchIn (x := (s2.coreAt c).ctx)
  split
  all_goals rename_i s3 _ e; rw [e] at h3
  exacts [h3.dropCtx, h3.keep]
theorem State.MemOk.begin {s : State} {c i r} (h : s.MemOk) : (s.begin c i r).MemOk := by
  unfold State.begin
  extract_lets k hd q1 zero
  split
  · exact h
  clear_value hd
  extract_lets q2 ps t
  have h2 : q2.1.MemOk := (h.keep.drain _).catchUp.switchTo
  have ht : t.MemOk := h2.keep fun k => by
    split
    · split <;> rfl
    · split <;> rfl
  exact .ite (h2.refill) ((State.MemOk.ite ht ht.keep).refill)
theorem State.MemOk.preempt {s : State} {c} (h : s.MemOk) : (s.preempt c).MemOk := by
  unfold State.preempt
  dsimp only
  split
  exacts [h.keep, h.keep.begin]
theorem State.MemOk.abandon {s : State} {c} (h : s.MemOk) : (s.abandon c).MemOk := by
  unfold State.abandon
  extract_lets t
  have ht : t.MemOk := h.keep
  exact ht.of
theorem State.MemOk.finish {s : State} {c} (h : s.MemOk) : (s.finish c).MemOk := h.keep.actors
theorem State.MemOk.execFiringChoose {s : State} {c} (h : s.MemOk) : Res.MemOk (execFiringChoose c s) := by
  unfold Machine.execFiringChoose
  refine h.atCore fun h => ?_
  split
  · exact h
  split
  exacts [h, h.begin]
theorem State.MemOk.execPreemption {s : State} {c} (h : s.MemOk) : Res.MemOk (execPreemption c s) := by
  unfold Machine.execPreemption
  dsimp only
  refine h.atCore fun h => ?_
  split
  · exact h
  split
  · split
    exacts [(h.goto _).preempt, (h.goto _).endChunk]
  · exact (h.goto _).preempt
  · split
    exacts [(h.goto _).abandon.preempt, h]
  exact h
theorem State.MemOk.execParkWake {s : State} {c k} (h : s.MemOk) : Res.MemOk (execParkWake c k s) := by
  unfold Machine.execParkWake
  refine h.atCore fun h => ?_
  split
  · exact h
  split
  · exact h
  split
  exacts [h, h.keep.enqueue]
theorem State.MemOk.execWaitResume {s : State} {c} (h : s.MemOk) : Res.MemOk (execWaitResume c s) := by
  unfold Machine.execWaitResume
  dsimp only
  refine h.atCore fun h => ?_
  split
  · split
    · exact h
    split
    · exact (h.goto _).setStatus.retire
    · split
      exacts [(h.goto _).setStatus, (h.goto _).setStatus.parkAs]
    exact (h.goto _).setStatus
  · split
    · exact h
    split
    exacts [(h.goto _).setStatus.writeTag, (h.goto _).setStatus.sealedImage.retire]
  · split
    exacts [h.keep, h]
  · split
    exacts [(h.goto _).setStatus.setS.retire, h]
  exact h
theorem State.MemOk.execWatchdogExpiry {s : State} {c} (h : s.MemOk) : Res.MemOk (execWatchdogExpiry c s) := by
  unfold Machine.execWatchdogExpiry
  dsimp only
  refine h.atCore fun h => ?_
  split
  exacts [h, h.keep]
theorem State.MemOk.takeFault {s t : State} {f} (h : s.MemOk) (e : s.takeFault = some (f, t)) : t.MemOk := by
  unfold State.takeFault at e
  split at e
  · cases e
  · cases e; exact h.setCtx
theorem State.MemOk.execTrapEntry {s : State} {c} (h : s.MemOk) : Res.MemOk (execTrapEntry c s) := by
  unfold Machine.execTrapEntry
  dsimp only
  refine h.atCore fun h => ?_
  have ht := h.goto c
  split
  · exact ht.enterTrap
  split
  · exact h
  split
  · split
    · exact ht.endChunk
    split
    exacts [h, (ht.takeFault ‹_›).enterTrap]
  split
  · split
    exacts [ht.endChunk, ht.setFir.enterTrap]
  exact h
theorem State.MemOk.execConfigCacheFill {s : State} {c} (h : s.MemOk) : Res.MemOk (execConfigCacheFill c s) := by
  unfold Machine.execConfigCacheFill
  dsimp only
  refine h.atCore fun h => ?_
  split
  · exact h
  split
  exacts [h, (h.onTile _ _).keep (fun _ => by simp)]
theorem State.MemOk.execCodeFetchComplete {s : State} {c line} (h : s.MemOk) : Res.MemOk (execCodeFetchComplete c line s) := by
  unfold Machine.execCodeFetchComplete
  dsimp only
  refine h.atCore fun h => ?_
  split
  · exact h
  split
  · exact h.noteBad.foldl (fun _ _ h => by
      split
      exacts [h, (h.removeCtx.postLaunch _ _).of])
  exact (h.onTile _ _).keep (fun _ => by simp)

/-! ### Machine/Channel -/

theorem State.MemOk.releasePush {s : State} {ch spill eos slot bs} (h : s.MemOk) : (s.releasePush ch spill eos slot bs).MemOk := by
  unfold State.releasePush
  dsimp only
  split
  · exact h
  split <;> exact h.onChan.send
theorem State.MemOk.refillRing {s : State} {ch} (h : s.MemOk) : (s.refillRing ch).MemOk := by
  unfold State.refillRing
  split
  · exact h
  split
  exacts [h, h.onChan.send]
theorem State.MemOk.releasePop {s : State} {ch eos} (h : s.MemOk) : (s.releasePop ch eos).MemOk := by
  unfold State.releasePop
  dsimp only
  split
  exacts [h, .touch (.refillRing (.ite h.onChan.send h.onChan))]
theorem State.MemOk.elementLost {s : State} {ch cause} (h : s.MemOk) : (s.elementLost ch cause).MemOk := h.suspect.send.touch
theorem State.MemOk.refillLost {s : State} {ch cause} (h : s.MemOk) : (s.refillLost ch cause).MemOk := h.onChan.suspect.touch
theorem State.MemOk.execChannelElementEnter {s : State} {ch idx eos bytes} (h : s.MemOk) :
    Res.MemOk (execChannelElementEnter ch idx eos bytes s) := by
  unfold Machine.execChannelElementEnter
  dsimp only
  apply State.MemOk.next
  split
  · exact h
  split
  · exact h
  split
  · exact h.send
  · exact h.elementLost
  · exact h.elementLost
  split
  exacts [h.elementLost, (h.agentWrite _ _ _ _).onChan.send.refillRing.touch]
theorem State.MemOk.spillAt {s : State} {ch slot episode bytes key} (h : s.MemOk) : (s.spillAt ch slot episode bytes key).MemOk := by
  unfold State.spillAt
  dsimp only
  split
  exacts [h, (h.gput _ _ _).onChan.refillRing.touch]
theorem State.MemOk.execSpillWrite {s : State} {ch slot episode eos bytes} (h : s.MemOk) :
    Res.MemOk (execSpillWrite ch slot episode eos bytes s) := by
  unfold Machine.execSpillWrite
  apply State.MemOk.next
  split
  · exact h
  split
  · exact h.send
  · exact h.suspect.touch
  · exact h.suspect.touch
  split
  · exact h.suspect.touch
  split
  exacts [h.holdWrite, h.spillAt]
theorem State.MemOk.execRefillReturn {s : State} {ch} (h : s.MemOk) : Res.MemOk (execRefillReturn ch s) := by
  unfold Machine.execRefillReturn
  dsimp only
  apply State.MemOk.next
  split
  · exact h
  split
  · exact h.onChan
  split
  · exact h.noteFail.refillLost
  split
  · exact h.send
  · exact h.refillLost
  · exact h.refillLost
  split
  · exact h.refillLost
  split
  · exact (h.agentWrite _ _ _ _).onChan.send.touch
  exact .touch (.refillRing (.ite (h.agentWrite _ _ _ _).onChan.send (h.agentWrite _ _ _ _).onChan))
theorem State.MemOk.execEmptyNoticeSend {s : State} {ch} (h : s.MemOk) : Res.MemOk (execEmptyNoticeSend ch s) := by
  unfold Machine.execEmptyNoticeSend
  apply State.MemOk.next
  split
  · exact h
  split
  exacts [h, h.onChan.send.refillRing]
theorem State.MemOk.execEmptyNoticeReceived {s : State} {ch tail} (h : s.MemOk) : Res.MemOk (execEmptyNoticeReceived ch tail s) := by
  unfold Machine.execEmptyNoticeReceived
  apply State.MemOk.next
  split
  · exact h
  split
  exacts [h, h.onChan.refillRing.touch]
theorem State.MemOk.freshWaits {s : State} {p} (h : s.MemOk) : (s.freshWaits p).MemOk := h.foldl (fun _ _ h => h.keep)
theorem State.MemOk.deadlock {s : State} {p reason need} (h : s.MemOk) : (s.deadlock p reason need).MemOk := by
  unfold State.deadlock
  dsimp only
  split
  · exact h
  split
  exacts [h, (h.foldl (fun _ _ h => h.keep)).postLaunch _ _]
theorem State.MemOk.thawAct {s : State} {p} (h : s.MemOk) : (s.thawAct p).MemOk := by
  unfold State.thawAct
  dsimp only
  split
  · exact h
  split
  · exact h.freshWaits.deadlock
  split
  · exact h
  split
  exacts [h, h.send]
theorem State.MemOk.thawFollow {s : State} {own n p c w} (h : s.MemOk) : (s.thawFollow own n p c w).MemOk := by
  induction n generalizing p c w with
  | zero => exact h
  | succ n ih =>
    unfold State.thawFollow
    dsimp only
    split
    · exact h
    split
    · exact h
    split
    · exact h.send
    split
    · exact h
    split
    · exact .ite h.thawAct ih
    split
    exacts [.ite h.thawAct h, ih]
theorem State.MemOk.execThawReport {s : State} {c k} (h : s.MemOk) : Res.MemOk (execThawReport c k s) := by
  unfold Machine.execThawReport
  dsimp only
  refine h.atCore fun h => ?_
  split
  · exact h
  split
  exacts [h, h.keep.thawFollow]
theorem State.MemOk.execThawProbe {s : State} {p} (h : s.MemOk) : Res.MemOk (execThawProbe p s) := by
  unfold Machine.execThawProbe
  dsimp only
  apply State.MemOk.next
  split
  · exact h
  split
  · exact h
  split
  · exact h
  split
  · exact h
  split
  · split
    exacts [h.thawAct, h]
  exact h.thawFollow
theorem State.MemOk.answerDraw {s : State} {h' ch elems bytes granted asker p} (h : s.MemOk) :
    (s.answerDraw h' ch elems bytes granted asker p).MemOk := by
  unfold State.answerDraw
  split
  exacts [h.send, h.send, h]
theorem State.MemOk.drawFails {s : State} {ch elems bytes asker p cause to'} (h : s.MemOk) :
    (s.drawFails ch elems bytes asker p cause to').MemOk := by
  unfold State.drawFails
  dsimp only
  split
  · exact h.send
  split
  exacts [h, h.keep]
theorem State.MemOk.execSpillPoolDraw {s : State} {ch elems bytes asker p} (h : s.MemOk) :
    Res.MemOk (execSpillPoolDraw ch elems bytes asker p s) := by
  unfold Machine.execSpillPoolDraw
  apply State.MemOk.next
  split
  · split
    · exact h.send
    · exact h.drawFails
    · exact h.drawFails
    split
    exacts [(h.onTile _ _).onChan.answerDraw, h.answerDraw]
  exact h.send
theorem State.MemOk.undraw {s : State} {ch bytes} (h : s.MemOk) : (s.undraw ch bytes).MemOk := by
  unfold State.undraw
  dsimp only
  split
  exacts [h.onChan, h.onChan.onTile _ _]
theorem State.MemOk.grown {s : State} {ch elems bytes p} (h : s.MemOk) : (s.grown ch elems bytes p).MemOk := by
  unfold State.grown
  split
  · exact h
  split
  exacts [h.freshWaits.onChan, h.undraw.send]
theorem State.MemOk.execSpillPoolAnswer {s : State} {ch elems bytes granted asker p} (h : s.MemOk) :
    Res.MemOk (execSpillPoolAnswer ch elems bytes granted asker p s) := by
  unfold Machine.execSpillPoolAnswer
  extract_lets s1 s2
  have h1 : s1.MemOk := by
    unfold s1
    split
    exacts [h.grown, h.onChan, h.freshWaits.deadlock, h]
  have h2 : s2.MemOk := by
    unfold s2
    split
    exacts [h1, .ite (h1.goto _).setStatus.retire h1]
  exact h2.touch.next

/-! ### Machine/Commit -/

theorem State.MemOk.barAdvance {s : State} {c n} (h : s.MemOk) : (s.barAdvance c n).MemOk := by
  unfold State.barAdvance
  dsimp only
  split
  · exact h
  split
  · exact h.keep
  split
  exacts [h.keep.localEvent, h.keep]
theorem State.MemOk.barUpdate {s : State} {c us} (h : s.MemOk) : (s.barUpdate c us).MemOk := by
  unfold State.barUpdate
  dsimp only
  exact h.keep.foldl (fun _ _ h => by
    split
    exacts [h.keep.barAdvance, h.keep])
theorem State.MemOk.barArrive {s : State} {c o} (h : s.MemOk) : (s.barArrive c o).MemOk := by
  unfold State.barArrive
  split
  exacts [h.keep, h.barUpdate]
theorem State.MemOk.execBarrierUpdate {s : State} {c us} (h : s.MemOk) : Res.MemOk (execBarrierUpdate c us s) := by
  unfold Machine.execBarrierUpdate
  dsimp only
  refine h.atCore fun h => ?_
  split
  · split
    · exact h.foldl (fun _ _ h => by
        split
        exacts [h.keep.barAdvance, h])
    exact h
  exact h.barUpdate
theorem State.MemOk.grant {s : State} {t r} (h : s.MemOk) : (s.grant t r).MemOk := (h.onTile _ _).keep.squashMeeting _ _ _
theorem State.MemOk.award {s : State} {t r} (h : s.MemOk) : (s.award t r).MemOk := by
  unfold State.award
  split
  exacts [h.grant, h.onTile _ _]
theorem State.MemOk.execCommitGrant {s : State} {t} (h : s.MemOk) : Res.MemOk (execCommitGrant t s) := by
  unfold Machine.execCommitGrant
  split
  exacts [Res.memOk_fault, (h.foldl (fun _ _ h => h.award)).next]
theorem State.MemOk.performStore {s : State} {c ea key bs rows pc} (h : s.MemOk) : (s.performStore c ea key bs rows pc).MemOk := by
  unfold State.performStore
  split
  exacts [h.send, h.keep, h.extWrite _ _ _ _ _, h]
theorem State.MemOk.release {s : State} {c x} (h : s.MemOk) : (s.release c x).MemOk := by
  unfold State.release
  dsimp only
  split
  · exact h
  · exact h
  · exact h.issue
  · split
    exacts [h.keep, h.keep.keep]
  · split <;> exact h.keep.keep
  · exact h.releasePush
  · split
    · exact h.keep
    split
    exacts [h.keep, h.releasePop]
  · exact h.onChan.touch
  · exact h.onChan.touch
  · exact h.keep.refill
  · exact h.keep
  exact h.onTile _ _
theorem State.MemOk.releaseRest {s : State} {c hs} (h : s.MemOk) : (s.releaseRest c hs).MemOk := by
  fun_induction s.releaseRest c hs with
  | case1 => exact h
  | case2 s o r _ ih => exact ih h.send
  | case3 s o r _ _ ih => exact ih h.keep
  | case4 s o r _ _ ih => exact ih h.barUpdate
  | case5 s e r _ ih => exact ih h.release
theorem State.MemOk.performStores {s : State} {c held} (h : s.MemOk) : (s.performStores c held).MemOk := by
  unfold State.performStores
  exact h.foldl (fun _ _ h => by
    split
    exacts [h.performStore, h])
theorem State.MemOk.releaseAll {s : State} {c held} (h : s.MemOk) : (s.releaseAll c held).MemOk := (h.performStores.drain _).releaseRest
theorem State.MemOk.storesLeave {s : State} {c} (h : s.MemOk) : (s.storesLeave c).MemOk := by
  unfold State.storesLeave
  split
  exacts [.ite h h.performStores.keep, h]
theorem State.MemOk.settlePort {s : State} {c x} (h : s.MemOk) : (s.settlePort c x).MemOk := by
  unfold State.settlePort
  split
  exacts [h.catchUp, h]
theorem State.MemOk.after {s : State} {c a} (h : s.MemOk) : (s.after c a).MemOk := by
  unfold State.after
  split
  exacts [h.keep, h.keep, h.finish, h.keep, h.keep, (h.goto _).setStatus.parkNow, h.preempt, h.keep]
theorem State.MemOk.execCommitComplete {s : State} {c} (h : s.MemOk) : Res.MemOk (execCommitComplete c s) := by
  unfold Machine.execCommitComplete
  dsimp only
  refine h.atCore fun h => ?_
  split
  · split
    exacts [h, (h.releaseAll.settlePort.onTile _ _).keep.after]
  exact h

/-! ### Machine/Mesh -/

theorem State.MemOk.defer {s : State} {c id f} (h : s.MemOk) : (s.defer c id f).MemOk := by
  unfold State.defer
  exact h.keep fun k => k.mem_onId ..
theorem State.MemOk.freeEntry {s : State} {c reply seq} (h : s.MemOk) : (s.freeEntry c reply seq).MemOk := h.keep
theorem State.MemOk.divertDone {s : State} {c id seq fails} (h : s.MemOk) : (s.divertDone c id seq fails).MemOk := h.keep
theorem State.MemOk.copyFault {s : State} {c key code} (h : s.MemOk) : (s.copyFault c key code).MemOk := h.keep
theorem State.MemOk.fails {s : State} {p code} (h : s.MemOk) : (s.fails p code).MemOk := by
  unfold State.fails
  refine .ite h ?_
  extract_lets c t defer
  have ht : t.MemOk := by
    unfold t
    split
    exacts [h.freeEntry, h]
  have hd (lo : Word) : (defer lo).MemOk := ht.defer
  clear_value t defer
  cases p.body with
  | atomic => exact .ite (.ite ht.send ht) (hd _)
  | claim => exact .ite ht.send ht
  | deposit _ _ _ _ m => cases m with
    | some => exact ht.divertDone
    | none => exact hd _
  | contribute => exact ht.copyFault.keep
  | start | upcall => exact ht
  | mark | service => exact .defer (.ite ht.keep ht)
  | message | arrive | kend | post | walk => exact hd _
theorem State.MemOk.execNackReceived {s : State} {p reason hint} (h : s.MemOk) : Res.MemOk (execNackReceived p reason hint s) := by
  unfold Machine.execNackReceived
  dsimp only
  apply State.MemOk.next
  split
  · exact h.count.fails
  split
  · exact h.count.fails
  split
  · exact h.count.send
  split
  exacts [h.count.fails, h.count.send]
theorem State.MemOk.execAckReceived {s : State} {c reply seq} (h : s.MemOk) :
    Res.MemOk (execAckReceived c reply seq s) := h.atCore fun h => h.freeEntry
theorem State.MemOk.execDirectoryLookup {s : State} {p id} (h : s.MemOk) : Res.MemOk (execDirectoryLookup p id s) := by
  unfold Machine.execDirectoryLookup
  dsimp only
  apply State.MemOk.next
  split
  · exact h.send
  split
  exacts [h.send, h.send, h.fails]
theorem State.MemOk.execDirectoryAnswer {s : State} {p at_} (h : s.MemOk) : Res.MemOk (execDirectoryAnswer p at_ s) := by
  unfold Machine.execDirectoryAnswer
  apply State.MemOk.next
  split
  exacts [h.fails, h.send]
theorem State.MemOk.ack {s : State} {p} (h : s.MemOk) : (s.ack p).MemOk := by
  unfold State.ack
  split
  · split
    exacts [h.send, h]
  exact h
theorem State.MemOk.nack {s : State} {p reason hint} (h : s.MemOk) : (s.nack p reason hint).MemOk := by
  unfold State.nack
  split
  exacts [h.send, h]
theorem State.MemOk.noEntry {s : State} {c p} (h : s.MemOk) : (s.noEntry c p).MemOk := by
  unfold State.noEntry
  split
  exacts [h.ack, h.nack]
theorem State.MemOk.deliver1 {s : State} {c p cls} (h : s.MemOk) : (s.deliver1 c p cls).MemOk := by
  unfold State.deliver1
  extract_lets k moving vacate
  refine .ite h.nack ?_
  split
  · split
    · exact .ite h.nack h.send
    split
    · exact .ite h.noEntry h.nack
    exact h.noEntry
  refine .ite h.nack ?_
  refine .ite h.nack ?_
  refine .ite (.ite h.ack h.nack) ?_
  exact .ack (.keep (.ite (h.onTile _ _) h))
theorem State.MemOk.toAgent {s : State} {p e accept} (h : s.MemOk) (ha : ∀ {s : State}, s.MemOk → (accept s).MemOk) :
    (s.toAgent p e accept).MemOk := by
  unfold State.toAgent
  split
  exacts [h.nack, (ha h).send]
theorem State.MemOk.accepted {s : State} {c p} (h : s.MemOk) : (s.accepted c p).MemOk := by
  unfold State.accepted
  dsimp only
  split
  · exact h.deliver1
  · exact h.deliver1
  · exact h.deliver1
  · exact h.toAgent (fun h => h.ack)
  · exact h.toAgent (fun h => h.ack)
  · exact h.toAgent id
  · split
    · exact h.nack
    split
    exacts [h.nack, h.barArrive.ack]
  · exact h.toAgent (fun h => h.ack)
  · exact h.toAgent (fun h => h.ack)
  · exact h.toAgent (fun h => h.ack)
  · exact h.toAgent (fun h => h.ack)
  · split
    exacts [h.nack, h.ack.of]
  exact h.toAgent id
theorem State.MemOk.leavesPackage {s : State} {p} (h : s.MemOk) : (s.leavesPackage p).MemOk := by
  unfold State.leavesPackage
  split
  · exact h.nack
  split
  · exact h.nack
  split
  · exact h.nack
  · exact h.nack
  · exact h.send
  split
  · split
    exacts [h.accepted, h.ack]
  exact h.nack
theorem State.MemOk.execPacketArrival {s : State} {p} (h : s.MemOk) : Res.MemOk (execPacketArrival p s) := by
  unfold Machine.execPacketArrival
  apply State.MemOk.next
  extract_lets c fromHere first way ter crosses
  refine .ite h.leavesPackage ?_
  clear_value way
  split
  · exact h.nack
  · exact h.nack
  · exact h.send
  · exact .ite h.accepted h.nack
theorem State.MemOk.depositFires {s : State} {c trig ea bs p} (h : s.MemOk) : (s.depositFires c trig ea bs p).MemOk := by
  unfold State.depositFires
  split
  exacts [h, h.localEvent]
theorem State.MemOk.depositAck {s : State} {p m} (h : s.MemOk) : (s.depositAck p m).MemOk := by
  unfold State.depositAck
  split
  exacts [h.divertDone, h]
theorem State.MemOk.depositAt {s : State} {p key} (h : s.MemOk) : (s.depositAt p key).MemOk := by
  unfold State.depositAt
  dsimp only
  split
  exacts [(h.gput _ _ _).depositFires.depositAck, h]
theorem State.MemOk.depositStep {s : State} {p} (h : s.MemOk) : (s.depositStep p).MemOk := by
  unfold State.depositStep
  dsimp only
  split
  · split
    · split
      · exact h.fails
      split
      exacts [h.fails, (h.agentWrite _ _ _ _).depositFires.depositAck]
    split
    · exact h.fails
    split
    exacts [h.holdWrite, h.depositAt]
  exact h
theorem State.MemOk.atomicEnds {s : State} {p at' ea old new trig ret} (h : s.MemOk) : (s.atomicEnds p at' ea old new trig ret).MemOk := by
  unfold State.atomicEnds
  extract_lets t
  have ht : t.MemOk := by
    unfold t
    split
    exacts [.ite h.localEvent h, h]
  exact .ite ht.send ht
theorem State.MemOk.atomAt {s : State} {p key} (h : s.MemOk) : (s.atomAt p key).MemOk := by
  unfold State.atomAt
  split
  · extract_lets n v w old c
    refine .ite h.noteBad.fails ?_
    split
    exacts [(h.gput _ _ _).atomicEnds, h.atomicEnds]
  exact h
theorem State.MemOk.atomStep {s : State} {p} (h : s.MemOk) : (s.atomStep p).MemOk := by
  unfold State.atomStep
  split
  · extract_lets n v w
    split
    · extract_lets s1 r
      have h1 : s1.MemOk := h.agentGrant _ _
      have hr : r.1.MemOk := h1.scrRead _ _ _ _
      refine .ite h.fails ?_
      refine .ite h.fails ?_
      clear_value r
      split
      · exact hr.fails
      extract_lets old
      split
      exacts [hr.between.writeBack.atomicEnds, hr.atomicEnds]
    split
    exacts [h.fails, .ite h.holdWrite h.atomAt]
  exact h
theorem State.MemOk.execAtomicReturn {s : State} {c old fails} (h : s.MemOk) : Res.MemOk (execAtomicReturn c old fails s) := by
  unfold Machine.execAtomicReturn
  dsimp only
  refine h.atCore fun h => ?_
  split
  · split
    exacts [(h.goto _).setStatus.trapAt, .advance (.ite (h.goto _).setStatus.setD (h.goto _).setStatus.setS)]
  exact h
theorem State.MemOk.execNestClaimStep {s : State} {p} (h : s.MemOk) : Res.MemOk (execNestClaimStep p s) := by
  unfold Machine.execNestClaimStep
  dsimp only
  apply State.MemOk.next
  split
  · split
    · exact h.fails
    split
    · exact h.fails
    split
    · exact ((h.agentGrant _ _).scrRead _ _ _ _).fails
    split
    exacts [((h.agentGrant _ _).scrRead _ _ _ _).between.writeBack.send, ((h.agentGrant _ _).scrRead _ _ _ _).between.writeBack]
  exact h
theorem State.MemOk.execNestClaimReturn {s : State} {c start cnt ext fails} (h : s.MemOk) :
    Res.MemOk (execNestClaimReturn c start cnt ext fails s) := by
  unfold Machine.execNestClaimReturn
  dsimp only
  refine h.atCore fun h => ?_
  split
  · split
    exacts [(h.goto _).setStatus.trapAt, (h.goto _).setStatus.setRegs.setS.advance]
  exact h

/-! ### Machine/Matrix -/

theorem State.MemOk.matRead {s : State} {c x rs} (h : s.MemOk) : (s.matRead c x rs).1.MemOk := by
  induction rs generalizing s with
  | nil => exact h
  | cons r rs ih =>
    unfold State.matRead
    dsimp only
    split
    · exact h
    split
    exacts [h.scrRead _ _ _ _, ih (h.scrRead _ _ _ _)]
theorem State.MemOk.startMma {s : State} {c x acc sa sb bandA bandB} (h : s.MemOk) : (s.startMma c x acc sa sb bandA bandB).1.MemOk := by
  unfold State.startMma
  dsimp only
  split
  · exact h
  split
  · split
    · exact h
    split
    · exact h
    split
    · exact h
    split
    · split <;> exact h.matRead
    exact h.matRead
  exact h
theorem State.MemOk.onProg {s : State} {c id f} (h : s.MemOk) : (s.onProg c id f).MemOk :=
  h.keep fun k => by
    dsimp only
    split <;> exact k.mem_onId ..
theorem State.MemOk.onCmd {s : State} {c m f} (h : s.MemOk) : (s.onCmd c m f).MemOk := h.keep
theorem State.MemOk.commandFault {s : State} {c m code} (h : s.MemOk) : (s.commandFault c m code).MemOk := h.keep.keep (fun _ => by simp)
theorem State.MemOk.sendDiverts {s : State} {c x m ds} (h : s.MemOk) : (s.sendDiverts c x m ds).1.MemOk := by
  unfold State.sendDiverts
  refine List.foldlRecOn (motive := fun a : State × _ => a.1.MemOk) _ _ h fun a ha d _ => ?_
  dsimp only
  split
  exacts [ha, ha.onCmd.issue]
theorem State.MemOk.startCmd {s : State} {c x m y} (h : s.MemOk) : (s.startCmd c x m y).1.MemOk := by
  unfold State.startCmd
  dsimp only
  split
  exacts [h.startMma, h, h, h, h, h]
theorem State.MemOk.refuseCmd {s : State} {c m code} (h : s.MemOk) : (s.refuseCmd c m code).MemOk := h.commandFault.keep
theorem State.MemOk.execMatrixCommandStart {s : State} {c} (h : s.MemOk) : Res.MemOk (execMatrixCommandStart c s) := by
  unfold Machine.execMatrixCommandStart
  dsimp only
  refine h.atCore fun h => ?_
  split
  · exact h
  split
  · split
    exacts [h.refuseCmd, h.onCmd]
  · split
    · exact h.startCmd.refuseCmd
    split
    exacts [h.startCmd.onCmd.sendDiverts, h.startCmd.onCmd.sendDiverts.onCmd]
  exact h
theorem State.MemOk.tryStep {s : State} {id busy used t} (h : s.MemOk) : (s.tryStep id busy used t).1.MemOk := by
  unfold State.tryStep
  extract_lets k own rest m d
  have hm : m.1.mem = k.mem := Core.mem_foldl₂ _ _ (fun q b => by simp) _
  have hd : d.1.mem = m.1.mem := Core.mem_foldl₂ _ _ (fun q b => by simp) _
  split
  · exact h
  split
  exacts [h.put hm, h.put (hd.trans hm)]
theorem State.MemOk.endStream {s : State} {c m t fails} (h : s.MemOk) : (s.endStream c m t fails).MemOk := h.onCmd.keep
theorem State.MemOk.streamCycle {s : State} {c lane held used} (h : s.MemOk) : (s.streamCycle c lane held used).1.MemOk := by
  unfold State.streamCycle
  dsimp only
  split
  · exact h
  split
  · exact h
  split
  · exact h.endStream
  split
  exacts [h.tryStep.onCmd, h.tryStep.endStream, .ite h.tryStep.endStream h.tryStep.onCmd]
theorem State.MemOk.streamsBusy {s : State} {c} (h : s.MemOk) : (s.streamsBusy c).MemOk := h.foldl (fun _ _ h => h.keep (fun _ => by simp))
theorem State.MemOk.loaderCycle {s : State} {c} (h : s.MemOk) : (s.loaderCycle c).MemOk := h.streamsBusy.streamCycle.streamCycle
theorem State.MemOk.unitCycle {s : State} {c} (h : s.MemOk) : (s.unitCycle c).MemOk := .keep (.ite h.loaderCycle h)
theorem State.MemOk.rowCommit {s : State} {c k} (h : s.MemOk) : (s.rowCommit c k).MemOk := by
  unfold State.rowCommit
  dsimp only
  split
  · exact h
  split
  · split
    exacts [h.onCmd.agentWrite _ _ _ _, h.onCmd]
  exact h
theorem State.MemOk.execQueuedCsrWrite {s : State} {c} (h : s.MemOk) : Res.MemOk (execQueuedCsrWrite c s) := by
  unfold Machine.execQueuedCsrWrite
  dsimp only
  refine h.atCore fun h => ?_
  split
  · split
    exacts [h.keep (fun _ => by simp), h]
  exact h
theorem State.MemOk.execMatrixCommandComplete {s : State} {c} (h : s.MemOk) : Res.MemOk (execMatrixCommandComplete c s) := by
  unfold Machine.execMatrixCommandComplete
  dsimp only
  refine h.atCore fun h => ?_
  split
  · exact h
  split
  · split
    · exact h
    split
    exacts [(h.keep.keep (fun _ => by simp)).onProg, (h.keep.keep (fun _ => by simp)).onProg.commandFault]
  exact h

/-! ### Machine/Copy -/

theorem State.MemOk.onTransfer {s : State} {c t f} (h : s.MemOk) : (s.onTransfer c t f).MemOk := h.keep
theorem State.MemOk.copyRead {s : State} {c vdev ea n id} (h : s.MemOk) : (s.copyRead c vdev ea n id).1.MemOk := by
  unfold State.copyRead
  dsimp only
  split
  · split
    exacts [h, h.mirRead _ _ _ _]
  split
  · exact h
  split
  exacts [h.noteBad, h]
theorem State.MemOk.sendTransfer {s : State} {c t} (h : s.MemOk) : (s.sendTransfer c t).MemOk := by
  unfold State.sendTransfer
  dsimp only
  split
  · exact h.onTransfer
  split
  · exact h.onTransfer
  split
  · split
    exacts [h.copyRead.onTransfer, h.copyRead.onTransfer.foldl (fun _ _ h => h.issue)]
  · split <;> exact h.copyRead.onTransfer
  exact h.onTransfer
theorem State.MemOk.countBytes {s : State} {t c n} (h : s.MemOk) : (s.countBytes t c n).MemOk := by
  unfold State.countBytes
  split
  exacts [h.barArrive, h]
theorem State.MemOk.writePiece {s : State} {c t p} (h : s.MemOk) : (s.writePiece c t p).MemOk := by
  unfold State.writePiece
  split
  · extract_lets q n fault a stop r
    have hr : r.1.MemOk := by
      unfold r
      split
      exacts [h, h.copyRead]
    clear_value stop r
    split
    · exact h.onTransfer
    split
    · exact h.onTransfer
    split
    · exact hr.onTransfer
    split
    · exact (hr.agentWrite _ _ _ _).countBytes
    split
    · exact hr.onTransfer
    exact .ite hr.holdWrite (hr.gput _ _ _).countBytes
  exact h
theorem State.MemOk.heldPieceAt {s : State} {c key place bs} (h : s.MemOk) : (s.heldPieceAt c key place bs).MemOk := by
  unfold State.heldPieceAt
  dsimp only
  split
  · exact h.gput _ _ _
  split
  exacts [(h.gput _ _ _).countBytes, h.gput _ _ _]
theorem State.MemOk.execCopyPieceWrite {s : State} {c k key piece} (h : s.MemOk) : Res.MemOk (execCopyPieceWrite c k key piece s) := by
  unfold Machine.execCopyPieceWrite
  refine h.atCore fun h => ?_
  split
  · exact h.sendTransfer
  split
  · exact h
  split
  exacts [h, h.onTransfer.writePiece]
theorem State.MemOk.execXbcastWrite {s : State} {c k key piece} (h : s.MemOk) : Res.MemOk (execXbcastWrite c k key piece s) := by
  unfold Machine.execXbcastWrite
  dsimp only
  refine h.atCore fun h => ?_
  split
  · exact h
  split
  · split
    · exact h
    split
    exacts [h.onTransfer.onTransfer, (h.onTransfer.agentWrite _ _ _ _).countBytes]
  exact h
theorem State.MemOk.execCopyComplete {s : State} {c k key} (h : s.MemOk) : Res.MemOk (execCopyComplete c k key s) := by
  unfold Machine.execCopyComplete
  dsimp only
  refine h.atCore fun h => ?_
  split
  · exact h
  split <;> exact h.keep.keep (fun _ => by simp)
theorem State.MemOk.execQ1Record {s : State} {c} (h : s.MemOk) : Res.MemOk (execQ1Record c s) := h.atCore fun h => h.keep
theorem State.MemOk.contributed {s : State} {c key} (h : s.MemOk) : (s.contributed c key).MemOk := h.keep
theorem State.MemOk.execXredContribution {s : State} {p} (h : s.MemOk) : Res.MemOk (execXredContribution p s) := by
  unfold Machine.execXredContribution
  apply State.MemOk.next
  split
  · extract_lets me z
    split
    · exact h.fails
    refine .ite h.fails ?_
    split
    · exact h.keep
    extract_lets n s1
    split
    · exact h.send
    extract_lets r q full
    have h1 : s1.MemOk := h.keep
    have hq : q.1.MemOk := by
      unfold q
      split
      exacts [h1, h1.scrRead _ _ _ _]
    clear_value q
    refine .ite h1.copyFault ?_
    split
    · exact hq.copyFault
    extract_lets s2 rest s3
    have h2 : s2.MemOk := hq.foldl fun _ _ h => h.agentWrite _ _ _ _
    have h3 : s3.MemOk := h2.keep.contributed
    exact .ite h3.countBytes h3
  exact h
theorem State.MemOk.execProtectedWrite {s : State} {key bytes why} (h : s.MemOk) : Res.MemOk (execProtectedWrite key bytes why s) := by
  unfold Machine.execProtectedWrite
  apply State.MemOk.next
  split
  exacts [h.holdWrite, h.gset _ _]
theorem State.MemOk.execHostMemAccess {s : State} {key w n} (h : s.MemOk) : Res.MemOk (execHostMemAccess key w n s) := by
  unfold Machine.execHostMemAccess
  apply State.MemOk.next
  split
  · exact h.gwrite _ _
  split
  exacts [h.noteBad, h]

/-! ### Machine/Parity -/

theorem State.MemOk.freshen {s : State} {c row g} (h : s.MemOk) : (s.freshen c row g).MemOk := h.freshenBy
theorem State.MemOk.updateParity {s : State} {c g} (h : s.MemOk) : (s.updateParity c g).MemOk := by
  unfold State.updateParity
  dsimp only
  split
  · exact h
  split
  exacts [h.put (by simp), (h.put (by simp [Core.refreshed])).freshen]
theorem State.MemOk.execParityUpdate {s : State} {c g} (h : s.MemOk) : Res.MemOk (execParityUpdate c g s) := by
  unfold Machine.execParityUpdate
  split
  exacts [Res.memOk_fault, h.atCore fun h => h.updateParity]
theorem State.MemOk.execParityForcedUpdate {s : State} {c g} (h : s.MemOk) : Res.MemOk (execParityForcedUpdate c g s) := by
  unfold Machine.execParityForcedUpdate
  split
  · exact Res.memOk_fault
  refine h.atCore fun h => ?_
  split
  exacts [h.updateParity, h]
theorem State.MemOk.execScrub {s : State} {c bank} (h : s.MemOk) : Res.MemOk (execScrub c bank s) := by
  unfold Machine.execScrub
  split
  · exact Res.memOk_fault
  refine h.atCore fun h => h.keep fun k => ?_
  dsimp only
  split
  · simp
  · simp
  · split <;> simp
theorem State.MemOk.execCorrectedWriteback {s : State} {c bank row} (h : s.MemOk) : Res.MemOk (execCorrectedWriteback c bank row s) := 
  h.atCore fun h => h.keep fun _ => by split <;> rfl
theorem State.MemOk.fenceOff {s : State} {c} (h : s.MemOk) : (s.fenceOff c).MemOk := by
  unfold State.fenceOff
  extract_lets t
  have ht : t.MemOk := h.foldl fun _ _ h => h.removeCtx.postLaunch _ _
  exact ht.suspectAll.keep
theorem State.MemOk.execBankRetirement {s : State} {c bank} (h : s.MemOk) : Res.MemOk (execBankRetirement c bank s) := by
  unfold Machine.execBankRetirement
  split
  · exact Res.memOk_fault
  refine h.atCore fun h => ?_
  dsimp only
  split
  · exact h
  split
  exacts [.ite h h.fenceOff, h.freshenBy.keep fun k => k.mem_rebuild ..]

/-! ### Machine/Territory -/

theorem State.MemOk.dropCall {s : State} {evt} (h : s.MemOk) : (s.dropCall evt).MemOk := h.of
theorem State.MemOk.upcall {s : State} {t c id evt payload} (h : s.MemOk) : (s.upcall t c id evt payload).MemOk := by
  unfold State.upcall
  split
  · exact h.dropCall
  split
  exacts [h.dropCall, h.issue]
theorem State.MemOk.tellSteward {s : State} {ter t evt payload} (h : s.MemOk) : (s.tellSteward ter t evt payload).MemOk := by
  unfold State.tellSteward
  split
  exacts [h.dropCall, h.upcall]
theorem State.MemOk.dropParks {s : State} {t} (h : s.MemOk) : (s.dropParks t).MemOk := by
  unfold State.dropParks
  exact h.foldl (fun _ _ h => by
    split
    exacts [h, h.keep])
theorem State.MemOk.settleTile {fixed s : State} {n} (h : s.MemOk) : (State.settleTile fixed s n).MemOk := by
  unfold State.settleTile
  split
  · exact h
  split
  · exact h
  split
  exacts [h, (h.onTile _ _).dropParks]
theorem State.MemOk.execDriftPhase {s : State} (h : s.MemOk) : Res.MemOk (execDriftPhase s) := by
  unfold Machine.execDriftPhase
  apply State.MemOk.next
  extract_lets p s1 s2 s3
  have h1 : s1.MemOk := h.of
  have h2 : s2.MemOk := .ite (h1.foldl fun _ _ h => h.onTile _ _) h1
  have h3 : s3.MemOk := h2.foldl fun _ _ h => .ite h (h.onTile _ _)
  exact .ite h (h3.foldl fun _ _ h => h.settleTile)
theorem State.MemOk.vacated {s : State} {t dst dropped} (h : s.MemOk) : (s.vacated t dst dropped).MemOk := by
  unfold State.vacated
  dsimp only
  split
  exacts [h.onTile _ _, (h.onTile _ _).tellSteward]
theorem State.MemOk.execTransferQuiesced {s : State} {t} (h : s.MemOk) : Res.MemOk (execTransferQuiesced t s) := by
  unfold Machine.execTransferQuiesced
  dsimp only
  split
  · exact Res.memOk_fault
  apply State.MemOk.next
  split
  · split
    · exact h
    split
    exacts [h.dropParks.vacated, (h.dropParks.onTile _ _).foldl (fun _ _ h => h.foldl (fun _ _ h => (h.keep (fun _ => by simp)).upcall))]
  exact h
theorem State.MemOk.maybeVacated {s : State} {t} (h : s.MemOk) : (s.maybeVacated t).MemOk := by
  unfold State.maybeVacated
  split
  · split
    exacts [h.vacated, h]
  exact h
theorem State.MemOk.tidyVacant {s : State} (h : s.MemOk) : s.tidyVacant.MemOk := by
  unfold State.tidyVacant
  exact h.foldl (fun _ _ h => by
    split
    exacts [h.maybeVacated, h])
theorem State.MemOk.execContextRemoval {s : State} {c slot} (h : s.MemOk) : Res.MemOk (execContextRemoval c slot s) := by
  unfold Machine.execContextRemoval
  refine h.atCore fun h => ?_
  split
  · split
    exacts [h.removeCtx.maybeVacated, h]
  exact h
theorem State.MemOk.execVacateBudgetExpiry {s : State} {t} (h : s.MemOk) : Res.MemOk (execVacateBudgetExpiry t s) := by
  unfold Machine.execVacateBudgetExpiry
  split
  · exact Res.memOk_fault
  apply State.MemOk.next
  split
  · extract_lets r
    have hr : r.1.MemOk := List.foldlRecOn (motive := fun a : State × Nat => a.1.MemOk) _ _ h fun a ha c _ =>
      List.foldlRecOn (motive := fun a : State × Nat => a.1.MemOk) _ _ ha fun _ ha _ _ => ha.dropCtx
    exact .ite h (hr.onTile _ _).maybeVacated
  exact h
theorem State.MemOk.forgetSwapped {s : State} {w} (h : s.MemOk) : (s.forgetSwapped w).MemOk := by
  unfold State.forgetSwapped
  dsimp only
  exact .stripStubs (by
    split
    exacts [h.endsLost.onTile _ _, (h.endsLost.onTile _ _).onTile _ _])
theorem State.MemOk.clearTile {s : State} {t} (h : s.MemOk) : (s.clearTile t).MemOk := by
  unfold State.clearTile
  extract_lets n s1 s2 s3 s4
  have h1 : s1.MemOk := by
    unfold s1
    split
    exacts [h, h.onTile _ _]
  have h3 : s3.MemOk := (h1.foldl fun _ _ h => h.forgetSwapped).foldl fun _ c h => h.onCore c _ rfl
  clear_value s3
  have h4 : s4.MemOk := h3.of
  exact h4.onTile _ _
theorem State.MemOk.execTileClearComplete {s : State} {t} (h : s.MemOk) : Res.MemOk (execTileClearComplete t s) := by
  unfold Machine.execTileClearComplete
  dsimp only
  split
  · exact Res.memOk_fault
  apply State.MemOk.next
  split
  · split
    exacts [h, (h.clearTile.onTile _ _).sendAll]
  exact h
theorem State.MemOk.execTransferNotice {s : State} {t moved gain} (h : s.MemOk) : Res.MemOk (execTransferNotice t moved gain s) := by
  unfold Machine.execTransferNotice
  split
  · exact Res.memOk_fault
  apply State.MemOk.next
  split
  · have h1 := h.onTile moved
    exact .ite h (.ite h.send (.ite (h1 _) ((h1 _).onTile _ _)))
  · exact h
theorem State.MemOk.execTransferComplete {s : State} {t} (h : s.MemOk) : Res.MemOk (execTransferComplete t s) := by
  unfold Machine.execTransferComplete
  split
  · exact Res.memOk_fault
  apply State.MemOk.next
  split
  exacts [(h.onTile _ _).tellSteward, h]
theorem State.MemOk.salvage {s : State} {c x} (h : s.MemOk) : (s.salvage c x).1.MemOk := h.put (Core.mem_readAll ..)
theorem State.MemOk.swapOut {s : State} {ter c slot} (h : s.MemOk) : (s.swapOut ter c slot).MemOk := by
  unfold State.swapOut
  split
  · exact h
  extract_lets s1 k ready actors parks r sp s2 l hd body rest a e s3 x w s4
  have h2 : s2.MemOk := (h.drain _).nextCount.salvage
  have h3 : s3.MemOk := .ite (((h2.vwriteBy _ _ _ _).vwriteBy _ _ _ _).vwriteBy _ _ _ _) ((h2.vwriteBy _ _ _ _).vwriteBy _ _ _ _)
  clear_value s3 x
  have h4 : s4.MemOk := h3.of
  exact h4.keep fun k => by
    dsimp only
    split <;> rfl
theorem State.MemOk.loseSwapped {s : State} {w} (h : s.MemOk) : (s.loseSwapped w).MemOk := h.forgetSwapped.postLaunch _ _
theorem State.MemOk.swapIn {s : State} {w} (h : s.MemOk) : (s.swapIn w).MemOk := by
  unfold State.swapIn
  extract_lets x a l img rec' s1 opened dummy own s2
  have h1 : s1.MemOk := h.vreadNote.vreadNote
  clear_value opened
  split
  · exact h1.loseSwapped
  extract_lets body rest y0 y1 y fresh parks actors s3 s4 s5
  have h2 : s2.MemOk := h1.freshenBy
  have h3 : s3.MemOk := h2.onCore _ _ (Core.wf_writeRows (h2.2 w.core))
  have h4 : s4.MemOk := h3.foldl fun _ _ h => .ite h.keep h.enqueue
  have h5 : s5.MemOk := h4.foldl fun _ _ h => .ite h.enqueue h
  exact h5.foldl fun _ _ h => .ite h.enqueue h
theorem State.MemOk.quantumNote {s : State} {h'} (h : s.MemOk) : (s.quantumNote h').MemOk := by
  unfold State.quantumNote
  dsimp only
  exact h.foldl (fun _ _ h => by
    split
    exacts [(h.onTile _ _).postLaunch _ _, h.onTile _ _])
theorem State.MemOk.execTimeshareQuantumEnd {s : State} {ter} (h : s.MemOk) : Res.MemOk (execTimeshareQuantumEnd ter s) := by
  unfold Machine.execTimeshareQuantumEnd
  split
  · exact Res.memOk_fault
  apply State.MemOk.next
  split
  · exact h
  extract_lets k old
  clear_value old
  split
  · exact h
  split
  · exact h
  extract_lets stays s1 back s2 s3 q
  have h1 : s1.MemOk := by
    refine .ite h ?_
    split
    exacts [h, h.foldl fun _ _ h => h.foldl fun _ _ h => h.swapOut]
  have h2 : s2.MemOk := h1.of
  have h3 : s3.MemOk := .ite h1 (h2.foldl fun _ _ h => h.swapIn)
  exact h3.onTile _ _

/-! ### Machine/Host -/

theorem State.MemOk.qended {s : State} {q} (h : s.MemOk) : (s.qended q).MemOk := h.of
theorem State.MemOk.qnext {s : State} {q} (h : s.MemOk) : (s.qnext q).MemOk := (h.qput _ _ _ _).qended
theorem State.MemOk.qstop {s : State} {q} (h : s.MemOk) : (s.qstop q).MemOk := ((h.post _ _).qput _ _ _ _).qended
theorem State.MemOk.qunread {s : State} {q c} (h : s.MemOk) : (s.qunread q c).MemOk := h.noteFail.qstop
theorem State.MemOk.execHostQueueTail {s : State} {q} (h : s.MemOk) : Res.MemOk (execHostQueueTail q s) := by
  unfold Machine.execHostQueueTail
  split
  exacts [Res.memOk_fault, .next h.of]
theorem State.MemOk.takeEntry {s : State} {q op reserved k} (h : s.MemOk) (hk : ∀ {v e}, (k v e).MemOk) :
    Res.MemOk (s.takeEntry q op reserved k) := by
  unfold State.takeEntry
  split
  · exact Res.memOk_fault
  apply State.MemOk.next
  split
  · exact h
  · exact h.qunread
  · exact .ite h (.ite hk h.qstop)
theorem State.MemOk.beginWalk {s : State} {die v queue va} (h : s.MemOk) : (s.beginWalk die v queue va).MemOk := h.of
theorem State.MemOk.execQueueEntryLaunch {s : State} {q} (h : s.MemOk) : Res.MemOk (execQueueEntryLaunch q s) := h.takeEntry h.beginWalk.qnext
theorem State.MemOk.execQueueEntryWait {s : State} {q} (h : s.MemOk) : Res.MemOk (execQueueEntryWait q s) := by
  unfold Machine.execQueueEntryWait
  exact h.takeEntry fun {_ _} => (by
    split
    · exact h.qstop
    split
    exacts [h.qnext, h])
theorem State.MemOk.execQueueEntrySignal {s : State} {q} (h : s.MemOk) : Res.MemOk (execQueueEntrySignal q s) := by
  unfold Machine.execQueueEntrySignal
  exact h.takeEntry fun {_ _} => (by
    split
    exacts [h.qstop, (h.fenceAdd _ _).qnext])
theorem State.MemOk.onWalk {s : State} {w f} (h : s.MemOk) : (s.onWalk w f).MemOk := h.of
theorem State.MemOk.endWalk {s : State} {w} (h : s.MemOk) : (s.endWalk w).MemOk := h.of
theorem State.MemOk.failWalk {s : State} {w cause} (h : s.MemOk) : (s.failWalk w cause).MemOk := (h.post _ _).endWalk
theorem State.MemOk.walkTo {s : State} {w va} (h : s.MemOk) : (s.walkTo w va).MemOk := by
  unfold State.walkTo
  split
  exacts [h.endWalk, h.onWalk]
theorem State.MemOk.atNode {s : State} {w kind k} (h : s.MemOk) (hk : ∀ {x b}, (k x b).MemOk) : Res.MemOk (s.atNode w kind k) := by
  unfold State.atNode
  dsimp only
  apply State.MemOk.next
  split
  · exact h
  split
  · exact h.noteFail.failWalk
  split
  exacts [h.failWalk, .ite h hk]
theorem State.MemOk.execNodeWait {s : State} {w} (h : s.MemOk) : Res.MemOk (execNodeWait w s) := by
  unfold Machine.execNodeWait
  exact h.atNode fun {_ _} => (by
    split
    · exact h.failWalk
    split
    exacts [h.walkTo, h])
theorem State.MemOk.execNodeSignal {s : State} {w} (h : s.MemOk) : Res.MemOk (execNodeSignal w s) := by
  unfold Machine.execNodeSignal
  exact h.atNode fun {_ _} => (by
    split
    exacts [h.failWalk, (h.fenceAdd _ _).walkTo])
theorem State.MemOk.execNodeCond {s : State} {w} (h : s.MemOk) : Res.MemOk (execNodeCond w s) := by
  unfold Machine.execNodeCond
  dsimp only
  exact h.atNode fun {_ _} => (by
    split
    · exact h.failWalk
    split
    · exact h.failWalk
    split
    · exact h.failWalk
    split
    exacts [h.noteFail.failWalk, h.walkTo])
theorem State.MemOk.loopAt {s : State} {w b key} (h : s.MemOk) : (s.loopAt w b key).MemOk := by
  unfold State.loopAt
  dsimp only
  split
  exacts [h.walkTo, (h.gset _ _).walkTo]
theorem State.MemOk.execNodeLoop {s : State} {w} (h : s.MemOk) : Res.MemOk (execNodeLoop w s) := by
  unfold Machine.execNodeLoop
  dsimp only
  exact h.atNode fun {_ _} => (by
    split
    · exact h.failWalk
    split
    · exact h.failWalk
    split
    · split
      · exact h.noteBad.failWalk
      split
      exacts [h.holdWrite, h.loopAt]
    · exact h.failWalk
    exact h.failWalk)
theorem State.MemOk.copyAt {s : State} {w bs key} (h : s.MemOk) : (s.copyAt w bs key).MemOk := (h.gset _ _).onWalk
theorem State.MemOk.execNodeCopy {s : State} {w} (h : s.MemOk) : Res.MemOk (execNodeCopy w s) := by
  unfold Machine.execNodeCopy
  dsimp only
  exact h.atNode fun {_ _} => (by
    split
    · exact h.failWalk
    split
    · exact h.walkTo
    split
    · exact h.failWalk
    split
    · split
      · exact h
      split
      · exact h.failWalk
      split
      exacts [h.holdWrite, h.copyAt]
    · exact h.noteFail.failWalk
    exact h.failWalk)
theorem State.MemOk.execNodeEnd {s : State} {w} (h : s.MemOk) : Res.MemOk (execNodeEnd w s) := h.atNode h.endWalk
theorem State.MemOk.execWalkBegin {s : State} {p} (h : s.MemOk) : Res.MemOk (execWalkBegin p s) := by
  unfold Machine.execWalkBegin
  apply State.MemOk.next
  split
  · split
    exacts [h.beginWalk, h]
  exact h
theorem State.MemOk.refuseLaunch {s : State} {q va id reason core} (h : s.MemOk) : (s.refuseLaunch q va id reason core).MemOk := h.post _ _
theorem State.MemOk.makeHome {s : State} {ter r id steward} (h : s.MemOk) : (s.makeHome ter r id steward).MemOk := by
  unfold State.makeHome
  dsimp only
  split
  · exact h.onTile _ _
  · split
    exacts [h.onTile _ _, h]
  · split
    exacts [h, (h.onTile _ _).onTile _ _]
  exact h
theorem State.MemOk.installAll {s t : State} {r v ter id ps} (h : s.MemOk) (e : s.installAll r v ter id ps = .ok t) : t.MemOk := by
  induction ps generalizing s with
  | nil => cases e; exact h
  | cons p ps ih =>
    unfold State.installAll at e
    split at e
    · cases e
    split at e
    · cases e
    exact ih h.install e
theorem State.MemOk.declareAll {s t : State} {r v id ds} (h : s.MemOk) (e : s.declareAll r v id ds = .ok t) : t.MemOk := by
  induction ds generalizing s with
  | nil => cases e; exact h
  | cons d ds ih =>
    unfold State.declareAll at e
    extract_lets core base k at e
    split_ifs at e
    exact ih (h.onTile _ _) e
theorem State.MemOk.sendStarts {s : State} {die r id arg} (h : s.MemOk) : (s.sendStarts die r id arg).MemOk := by
  unfold State.sendStarts
  dsimp only
  split
  exacts [h, h.foldl (fun _ _ h => h.issue)]
theorem State.MemOk.installLaunch {s t : State} {w va ter id r} (h : s.MemOk) (e : s.installLaunch w va ter id = .ok (t, r)) : t.MemOk := by
  unfold State.installLaunch at e
  extract_lets at e
  split at e
  · cases e
  split at e
  · cases e
  split at e
  · cases e
  extract_lets steward fits s' at e
  have h' : s'.MemOk := .ite h.makeHome h
  split at e
  · cases e
  split at e
  · cases e
  have h2 := (h'.installAll ‹_›).declareAll ‹_›
  extract_lets s2 at e
  have h3 : s2.MemOk := by
    unfold s2
    split
    exacts [h2.onTile _ _, h2]
  clear_value s2
  cases e
  exact h3.of
theorem State.MemOk.execNodeLaunch {s : State} {w} (h : s.MemOk) : Res.MemOk (execNodeLaunch w s) := by
  unfold Machine.execNodeLaunch
  refine h.atNode fun {x b} => ?_
  split
  · exact .ite h.walkTo h
  refine .ite h ?_
  extract_lets n id s1 va ter
  have h1 : s1.MemOk := h.of
  split
  · exact h1.refuseLaunch.walkTo
  rename_i s2 r e
  have h2 := h1.installLaunch e
  extract_lets s3 s4
  have h4 : s4.MemOk := (h2.post _ _).sendStarts
  exact .ite h4.onWalk h4.walkTo
theorem State.MemOk.execKendArrival {s : State} {p} (h : s.MemOk) : Res.MemOk (execKendArrival p s) := by
  unfold Machine.execKendArrival
  dsimp only
  apply State.MemOk.next
  split
  · exact h
  split
  · exact h
  split
  exacts [.fenceAdd h.of _ _, h.of]
theorem State.MemOk.execHpostArrival {s : State} {p} (h : s.MemOk) : Res.MemOk (execHpostArrival p s) := by
  unfold Machine.execHpostArrival
  apply State.MemOk.next
  split
  · split
    exacts [h.postLaunch _ _, h]
  exact h
theorem State.MemOk.adminDone {s : State} {via code status} (h : s.MemOk) : (s.adminDone via code status).MemOk := by
  unfold State.adminDone
  split
  exacts [(h.post _ _).qnext, h.of]
theorem State.MemOk.execDispatcherStep {s : State} {die} (h : s.MemOk) : Res.MemOk (execDispatcherStep die s) := by
  unfold Machine.execDispatcherStep
  dsimp only
  split
  · exact Res.memOk_fault
  apply State.MemOk.next
  split
  · exact h
  split
  · split
    · exact h.of
    · exact .qunread h.of
    split
    · exact .send h.of
    · exact .send h.of
    · exact .send h.of
    · split
      · exact .qstop h.of
      split
      exacts [.send h.of, .adminDone h.of]
    exact .qstop h.of
  split
  · exact h.of
  split
  · exact .failWalk (.noteFail h.of)
  split
  exacts [.send h.of, .send h.of, .send h.of, .send h.of, .send h.of, .send (.onWalk h.of), .send h.of, .failWalk h.of]

/-! ### Machine/Admin -/

theorem State.MemOk.needTables {s t : State} {v va n} (h : s.MemOk) (e : s.needTables v va n = some t) : t.MemOk := by
  induction n generalizing t with
  | zero => cases e; exact h
  | succ n ih =>
    unfold State.needTables at e
    split at e
    · cases e
    rename_i s1 e1
    have h1 := ih e1
    split at e
    · cases e; exact h1
    obtain ⟨p, _, rfl⟩ := Option.map_eq_some_iff.1 e
    exact ⟨Mem.wf_clear _ _ h1.1, h1.2⟩
theorem State.MemOk.putEntries {s : State} {v level va} (h : s.MemOk) : (s.putEntries v level va).MemOk := h.foldl (fun _ _ h => h.putEntry)
theorem State.MemOk.fade {s : State} {who l} (h : s.MemOk) : (s.fade who l).MemOk := by
  unfold State.fade
  split
  exacts [h, h.of]
theorem State.MemOk.faded {s : State} {who} (h : s.MemOk) : (s.faded who).MemOk := h.of
theorem State.MemOk.acknowledge {s : State} {k} (h : s.MemOk) : (s.acknowledge k).MemOk := by
  unfold State.acknowledge
  split
  exacts [h, h.of]
theorem State.MemOk.mapPage {s : State} {who v b} (h : s.MemOk) : (s.mapPage who v b).1.MemOk := by
  unfold State.mapPage
  dsimp only
  split
  · exact h
  split
  · exact h
  split
  · exact h
  split
  · exact h
  split
  · exact h
  split
  · exact h
  split
  · exact h
  split
  · exact h
  split
  · exact h
  split
  · exact h
  exact .foldl (.putEntries (h.needTables ‹_›).of) fun _ _ h => h.fade
theorem State.MemOk.loseShards {s : State} {v va n} (h : s.MemOk) : (s.loseShards v va n).MemOk := h.of
theorem State.MemOk.unmapPage {s : State} {who v b} (h : s.MemOk) : (s.unmapPage who v b).1.MemOk := by
  unfold State.unmapPage
  split
  · exact h
  split
  exacts [h, .loseShards (.fade (.putEntry h.of))]
theorem State.MemOk.mapCommand {s : State} {via code e f} (h : s.MemOk) (hf : ∀ {s : State}, s.MemOk → (f s).1.MemOk) :
    (s.mapCommand via code e f).MemOk := by
  unfold State.mapCommand
  dsimp only
  split
  exacts [.ite h.faded.adminDone h.send, .ite (hf h).send (hf h).adminDone]
theorem State.MemOk.admin {s : State} {via k} (h : s.MemOk) (hk : ∀ {s : State}, s.MemOk → Res.MemOk (k s)) : Res.MemOk (s.admin via k) := by
  unfold State.admin
  split
  exacts [.next h.of, hk h]
theorem State.MemOk.execAdminMap {s : State} {via v b} (h : s.MemOk) :
    Res.MemOk (execAdminMap via v b s) := h.admin (fun h => (h.mapCommand (fun h => h.mapPage)).next)
theorem State.MemOk.execAdminUnmap {s : State} {via v b} (h : s.MemOk) :
    Res.MemOk (execAdminUnmap via v b s) := h.admin (fun h => (h.mapCommand (fun h => h.unmapPage)).next)
theorem State.MemOk.execAdminCancel {s : State} {via id} (h : s.MemOk) : Res.MemOk (execAdminCancel via id s) := by
  unfold Machine.execAdminCancel
  refine h.admin fun h => .next ?_
  split
  · exact h.adminDone
  refine .ite h.send ?_
  extract_lets s1 out s2
  have h1 : s1.MemOk := h.foldl fun _ _ h => h.foldl fun _ _ h => h.dropCtx
  clear_value s1
  have h2 : s2.MemOk := State.MemOk.foldl h1.of fun _ _ h => h.loseSwapped
  clear_value s2
  exact .adminDone h2.of
theorem State.MemOk.remask {s : State} {ter} (h : s.MemOk) : (s.remask ter).MemOk := h.foldl (fun _ _ h => h.onTile _ _)
theorem State.MemOk.execAdminClaim {s : State} {via ter mask} (h : s.MemOk) : Res.MemOk (execAdminClaim via ter mask s) := by
  unfold Machine.execAdminClaim
  dsimp only
  exact h.admin (fun h => by
    split
    exacts [h.adminDone.next, (h.foldl (fun _ _ h => h.onTile _ _)).remask.adminDone.next])
theorem State.MemOk.rehome {s : State} {ter ts} (h : s.MemOk) : (s.rehome ter ts).MemOk := by
  unfold State.rehome
  dsimp only
  split
  · exact h
  split
  · exact h
  split
  exacts [h.onTile _ _, (h.onTile _ _).onTile _ _]
theorem State.MemOk.execAdminFree {s : State} {via ter mask} (h : s.MemOk) : Res.MemOk (execAdminFree via ter mask s) := by
  unfold Machine.execAdminFree
  refine h.admin fun {s} h => ?_
  extract_lets ts a s1 s2 s3 s4
  have h1 : s1.MemOk := h.foldl fun _ _ h => h.foldl fun _ _ h => h.foldl fun _ _ h => h.removeCtx
  have h2 : s2.MemOk := h1.foldl fun _ _ h => h.clearTile
  have h4 : s4.MemOk := h2.rehome.foldl fun _ _ h => h.onTile _ _
  exact .ite h.adminDone.next (.ite h.send.next h4.remask.adminDone.next)
theorem State.MemOk.execAdminTimeshare {s : State} {via ter idx entry} (h : s.MemOk) : Res.MemOk (execAdminTimeshare via ter idx entry s) := by
  unfold Machine.execAdminTimeshare
  refine h.admin fun {s} h => .next ?_
  extract_lets a valid q v
  split
  · exact h.adminDone
  extract_lets old e rest first s1 n s2 s3 s4
  have h2 : s2.MemOk := (h.onTile _ _).foldl fun _ _ h => h.onTile _ _
  have h3 : s3.MemOk := .ite (h2.onTile _ _) h2
  have h4 : s4.MemOk := .ite h3.quantumNote h2
  exact .ite h.adminDone h4.adminDone
theorem State.MemOk.execAdminVdev {s : State} {via v weight fenceLo fenceHi winLo winHi handle} (h : s.MemOk) :
    Res.MemOk (execAdminVdev via v weight fenceLo fenceHi winLo winHi handle s) := by
  unfold Machine.execAdminVdev
  dsimp only
  exact h.admin (fun h => by
    split
    exacts [h.adminDone.next, .next (.adminDone h.of)])
theorem State.MemOk.execAdminPair {s : State} {via ter pkg remote} (h : s.MemOk) : Res.MemOk (execAdminPair via ter pkg remote s) := by
  unfold Machine.execAdminPair
  exact h.admin (fun h => by
    split
    exacts [h.adminDone.next, .next (.adminDone h.of)])
theorem State.MemOk.execAdminQueue {s : State} {via q v size evSize enable ring evRing} (h : s.MemOk) :
    Res.MemOk (execAdminQueue via q v size evSize enable ring evRing s) := by
  unfold Machine.execAdminQueue
  refine h.admin fun {s} h => ?_
  extract_lets st s1
  have h1 : s1.MemOk := by
    unfold s1
    split
    exacts [h.of, h]
  have h2 := (((((h1.qput q 0 8 ring.toNat).qput q 16 1 size).qput q 17 1 enable).qput q 18 2 v).qput q 24 8 evRing.toNat).qput q 32 1 evSize
  exact .ite h.adminDone.next h2.adminDone.next
theorem State.MemOk.execAdminOwnAssign {s : State} {via v pa len} (h : s.MemOk) : Res.MemOk (execAdminOwnAssign via v pa len s) :=
  h.admin fun h => .ite h.adminDone.next (.next (.adminDone h.of))
theorem State.MemOk.execAdminOwnRelease {s : State} {via v pa len} (h : s.MemOk) : Res.MemOk (execAdminOwnRelease via v pa len s) :=
  h.admin fun h => .ite h.adminDone.next (.next (.adminDone h.of))
theorem State.MemOk.execAdminTenantCreate {s : State} {via handle keyVa} (h : s.MemOk) : Res.MemOk (execAdminTenantCreate via handle keyVa s) := by
  unfold Machine.execAdminTenantCreate
  exact h.admin (fun h => by
    split
    · exact h.adminDone.next
    split
    · exact h.adminDone.next
    split
    · exact h.noteFail.adminDone.next
    split
    exacts [h.adminDone.next, .next (.adminDone h.of)])
theorem State.MemOk.execAdminTenantDelete {s : State} {via handle} (h : s.MemOk) : Res.MemOk (execAdminTenantDelete via handle s) := by
  unfold Machine.execAdminTenantDelete
  exact h.admin (fun h => by
    split
    exacts [h.adminDone.next, .next (.adminDone h.of)])
theorem State.MemOk.answerService {s : State} {p r ps} (h : s.MemOk) : (s.answerService p r ps).MemOk := by
  unfold State.answerService
  dsimp only
  split
  exacts [h, h.send]
theorem State.MemOk.answered {s : State} {c serial a} (h : s.MemOk) : (s.answered c serial a).MemOk := by
  unfold State.answered
  dsimp only
  split
  · exact h
  split
  · exact (h.goto _).setStatus.retire
  · exact (h.goto _).setStatus.trapAt
  · split
    exacts [(h.goto _).setStatus.setS.retire, (h.goto _).setStatus.setStatus]
  exact h
theorem State.MemOk.serve {s : State} {c n f} (h : s.MemOk) (hf : ∀ {s : State} {p a b bs}, s.MemOk → (f s p a b bs).1.MemOk) :
    Res.MemOk (s.serve c n f) := by
  unfold State.serve
  refine h.atCore fun h => ?_
  split
  · exact h
  split
  · split
    · exact h
    extract_lets who t
    have ht : t.MemOk := h.of
    split
    · exact .ite ht.faded.answerService h
    split
    exacts [ht.noteFail.answerService, .ite (hf ht).of (hf ht).answerService]
  exact h.of
theorem State.MemOk.execFwMap {s : State} {c} (h : s.MemOk) : Res.MemOk (execFwMap c s) := h.serve (fun h => h.mapPage)
theorem State.MemOk.execFwUnmap {s : State} {c} (h : s.MemOk) : Res.MemOk (execFwUnmap c s) := h.serve (fun h => h.unmapPage)
theorem State.MemOk.execFwQuery {s : State} {c} (h : s.MemOk) : Res.MemOk (execFwQuery c s) := by
  unfold Machine.execFwQuery
  refine h.serve fun h => ?_
  dsimp only
  split
  · exact h
  split <;> exact h.vwrite _ _ _

theorem State.MemOk.execFwAttest {s : State} {c} (h : s.MemOk) : Res.MemOk (execFwAttest c s) := by
  unfold Machine.execFwAttest
  refine h.serve fun h => ?_
  dsimp only
  split
  · exact h
  split
  · exact h
  split
  exacts [h, h.vwrite _ _ _]
/-! ### Machine/Checkpoint -/

theorem State.MemOk.onJob {s : State} {j f} (h : s.MemOk) : (s.onJob j f).MemOk := h.of
theorem State.MemOk.performHeld {s : State} {h'} (h : s.MemOk) : (s.performHeld h').MemOk := by
  unfold State.performHeld
  split
  exacts [h.gput _ _ _, h.gset _ _, h.depositAt, h.atomAt, h.spillAt, h.loopAt, h.copyAt, h.heldPieceAt, h]
theorem State.MemOk.performAll {s : State} {hs} (h : s.MemOk) : (s.performAll hs).MemOk := by
  unfold State.performAll
  exact h.foldl (fun _ _ h => by
    split
    exacts [h.performHeld, h.of])
theorem State.MemOk.unprotect {s : State} {pages} (h : s.MemOk) : (s.unprotect pages).MemOk := .performAll h.of
theorem State.MemOk.answerMark {s : State} {m} (h : s.MemOk) : (s.answerMark m).MemOk := by
  unfold State.answerMark
  split
  exacts [h.send, h]
theorem State.MemOk.answerAll {s : State} {ms} (h : s.MemOk) : (s.answerAll ms).MemOk := h.foldl (fun _ _ h => h.answerMark)
theorem State.MemOk.execStepMark {s : State} {p} (h : s.MemOk) : Res.MemOk (execStepMark p s) := by
  unfold Machine.execStepMark
  apply State.MemOk.next
  split
  · exact h.answerMark
  · exact .ite h.onJob h.onJob.answerMark
theorem State.MemOk.execCheckpointTimer {s : State} {job} (h : s.MemOk) : Res.MemOk (execCheckpointTimer job s) := by
  unfold Machine.execCheckpointTimer
  apply State.MemOk.next
  split
  · exact h
  split
  exacts [h, h.onJob]
theorem State.MemOk.failCheckpoint {s : State} {j cause va} (h : s.MemOk) :
    (s.failCheckpoint j cause va).MemOk := (h.post _ _).onJob.unprotect.answerAll
theorem State.MemOk.execArmingComplete {s : State} {job} (h : s.MemOk) : Res.MemOk (execArmingComplete job s) := by
  unfold Machine.execArmingComplete
  dsimp only
  apply State.MemOk.next
  split
  · exact h
  split
  · exact h
  split
  exacts [h.failCheckpoint, .answerAll (.onJob h.of)]
theorem State.MemOk.destFails {s : State} {j e} (h : s.MemOk) : (s.destFails j e).MemOk := h.noteFail.failCheckpoint
theorem State.MemOk.copyPage {s : State} {j p} (h : s.MemOk) : (s.copyPage j p).MemOk := by
  unfold State.copyPage
  dsimp only
  split
  · exact h.failCheckpoint
  split
  · exact h.noteBad.failCheckpoint
  split
  · split
    exacts [h.onJob.unprotect.destFails, h.onJob.unprotect]
  exact h.onJob.unprotect.vwrite _ _ _
theorem State.MemOk.execCheckpointPageCopy {s : State} {job} (h : s.MemOk) : Res.MemOk (execCheckpointPageCopy job s) := by
  unfold Machine.execCheckpointPageCopy
  dsimp only
  apply State.MemOk.next
  split
  · exact h
  split
  · exact h
  split
  exacts [h, h.copyPage]
theorem State.MemOk.execUrgentReadComplete {s : State} {page} (h : s.MemOk) : Res.MemOk (execUrgentReadComplete page s) := by
  unfold Machine.execUrgentReadComplete
  apply State.MemOk.next
  split
  · exact h
  split
  exacts [h.unprotect, h.copyPage]
theorem State.MemOk.execCheckpointComplete {s : State} {job} (h : s.MemOk) : Res.MemOk (execCheckpointComplete job s) := by
  unfold Machine.execCheckpointComplete
  dsimp only
  apply State.MemOk.next
  split
  · exact h
  split
  · exact h.failCheckpoint
  split
  · exact h
  split
  · exact h.failCheckpoint
  split
  exacts [h.destFails, ((h.vwrite _ _ _).vwrite _ _ _).onJob.fenceAdd _ _]
theorem State.MemOk.mbox {s : State} {status bytes} (h : s.MemOk) : (s.mbox status bytes).MemOk := h.of
theorem State.MemOk.served {s : State} {k} (h : s.MemOk) (hk : ∀ {s : State}, s.MemOk → (k s).MemOk) :
    Res.MemOk (s.served k) := .next (.ite h.mbox (hk h))
theorem State.MemOk.execCkptJob {s : State} {descr v} (h : s.MemOk) : Res.MemOk (execCkptJob descr v s) := by
  unfold Machine.execCkptJob
  dsimp only
  exact h.served (fun h => by
    split
    · exact h.mbox
    split
    · exact h.noteFail.mbox
    split
    · exact h.mbox
    split
    · exact h.noteFail.mbox
    split
    · exact h.mbox
    split
    · exact h.mbox
    split
    · exact h.mbox
    split
    exacts [h.mbox, .mbox h.of])
theorem State.MemOk.execCkptDrop {s : State} {job} (h : s.MemOk) : Res.MemOk (execCkptDrop job s) := by
  unfold Machine.execCkptDrop
  dsimp only
  exact h.served (fun h => by
    split
    exacts [h.mbox, .mbox (.of (.ite h.failCheckpoint h.answerAll))])
theorem State.MemOk.execCkptKey {s : State} {serial key} (h : s.MemOk) : Res.MemOk (execCkptKey serial key s) := by
  unfold Machine.execCkptKey
  exact h.served (fun h => by
    split
    exacts [h.mbox, .mbox h.of])
theorem State.MemOk.restored {s : State} {queue st} (h : s.MemOk) : (s.restored queue st).MemOk := (h.post _ _).mbox
theorem State.MemOk.restoreFails {s : State} {r st} (h : s.MemOk) :
    (s.restoreFails r st).MemOk := .restored (.foldl h.of (fun _ _ h => h.vwrite _ _ _))
theorem State.MemOk.restorePage {s : State} (h : s.MemOk) : s.restorePage.MemOk := by
  unfold State.restorePage
  split
  · exact h
  split
  · exact .restored (.fenceAdd h.of _ _)
  split
  · split
    exacts [.vwrite h.of _ _ _, h.restoreFails]
  · exact h.noteFail.restoreFails
  exact h.restoreFails
theorem State.MemOk.execCkptRestore {s : State} {manifest v fence queue} (h : s.MemOk) : Res.MemOk (execCkptRestore manifest v fence queue s) := by
  unfold Machine.execCkptRestore
  exact h.served (fun h => by
    split
    · exact .restored (by
        split
        exacts [h.noteFail, h])
    exact h.of)

/-! ### Machine/Vector -/

theorem State.MemOk.vint {s : State} {vd va vb mk t f} (h : s.MemOk) : (s.vint vd va vb mk t f).MemOk := h.vmap
theorem State.MemOk.vbits {s : State} {vd va vb mk t f} (h : s.MemOk) : (s.vbits vd va vb mk t f).MemOk := h.vmap
theorem State.MemOk.vfp {s : State} {vd mk t f} (h : s.MemOk) : (s.vfp vd mk t f).MemOk := h.vround
theorem State.MemOk.vpick {s : State} {vd mk t f} (h : s.MemOk) : (s.vpick vd mk t f).MemOk := h.vround
theorem State.MemOk.vdone {s : State} (h : s.MemOk) : Res.MemOk s.vdone := h.retire.next
theorem State.MemOk.execVadd {s : State} {vd va vb m t} (h : s.MemOk) : Res.MemOk (execVadd vd va vb m t s) := by
  unfold Machine.execVadd
  split
  exacts [h.vfp.vdone, h.vint.vdone]
theorem State.MemOk.execVsub {s : State} {vd va vb m t} (h : s.MemOk) : Res.MemOk (execVsub vd va vb m t s) := by
  unfold Machine.execVsub
  split
  exacts [h.vfp.vdone, h.vint.vdone]
theorem State.MemOk.execVmin {s : State} {vd va vb m t} (h : s.MemOk) : Res.MemOk (execVmin vd va vb m t s) := by
  unfold Machine.execVmin
  split
  exacts [h.vpick.vdone, h.vint.vdone]
theorem State.MemOk.execVmax {s : State} {vd va vb m t} (h : s.MemOk) : Res.MemOk (execVmax vd va vb m t s) := by
  unfold Machine.execVmax
  split
  exacts [h.vpick.vdone, h.vint.vdone]
theorem State.MemOk.execVmul {s : State} {vd va vb m t} (h : s.MemOk) : Res.MemOk (execVmul vd va vb m t s) := by
  unfold Machine.execVmul
  split
  exacts [h.vfp.vdone, h.vint.vdone]
theorem State.MemOk.execVabs {s : State} {vd va m t} (h : s.MemOk) : Res.MemOk (execVabs vd va m t s) := by
  unfold Machine.execVabs
  split
  exacts [h.vpick.vdone, h.vint.vdone]
theorem State.MemOk.execVneg {s : State} {vd va m t} (h : s.MemOk) : Res.MemOk (execVneg vd va m t s) := by
  unfold Machine.execVneg
  split
  exacts [h.vpick.vdone, h.vint.vdone]
theorem State.MemOk.vcmp {s : State} {md va vb mk t ri rf nan quiet} (h : s.MemOk) : (s.vcmp md va vb mk t ri rf nan quiet).MemOk := h.setM.flag

/-! ### Machine/Lanes -/

theorem State.MemOk.vreduce {s : State} {vd va m t draws f empty} (h : s.MemOk) : (s.vreduce vd va m t draws f empty).MemOk := by
  unfold State.vreduce
  dsimp only
  split
  exacts [h.setV.flag.drawn, h.setV.flag]
theorem State.MemOk.execVext {s : State} {rd va rb t} (h : s.MemOk) : Res.MemOk (execVext rd va rb t s) := by
  unfold Machine.execVext
  dsimp only
  split
  exacts [h.giveD, h.giveS]

/-! ### Machine/Mailbox -/

theorem State.MemOk.wiped {s : State} (h : s.MemOk) : s.wiped.MemOk := by
  unfold State.wiped
  extract_lets t
  have ht : t.MemOk := h.foldl fun _ _ h => h.qput _ _ _ _
  exact ht.mapped rfl rfl (fun _ => rfl) fun _ _ => rfl
theorem State.MemOk.linked {s : State} (h : s.MemOk) : s.linked.MemOk :=
  ⟨List.foldlRecOn (motive := fun m => Mem.wf m = true) _ _ (Mem.wf_clear _ _ h.1) fun _ hm _ _ => Mem.wf_clear _ _ hm, h.2⟩
theorem State.MemOk.abandoned {s : State} (h : s.MemOk) : s.abandoned.MemOk := h.of
theorem State.MemOk.trained {s : State} {f n} (h : s.MemOk) : (s.trained f n).MemOk := by
  unfold State.trained
  extract_lets s1 s2 s3 s4
  have h1 : s1.MemOk := .ite h.count h
  have h2 : s2.MemOk := h1.foldl fun _ _ h => h.count
  have h3 : s3.MemOk := .ite h2.count h2
  have h4 : s4.MemOk := h3.foldl fun _ _ h => h.count
  exact .ite h1 h4.of
theorem State.MemOk.start {s : State} {cold f} (h : s.MemOk) : (s.start cold f).MemOk := by
  unfold State.start
  dsimp only
  split
  exacts [.mbox (.of (.trained (.ite h.wiped h.abandoned))), .mbox h.wiped.linked.trained.of]
theorem State.MemOk.execFwLoad {s : State} {addr len} (h : s.MemOk) : Res.MemOk (execFwLoad addr len s) := .next (.mbox h.of)
theorem State.MemOk.execLayout {s : State} (h : s.MemOk) : Res.MemOk (execLayout s) := h.served (fun h => h.mbox)
theorem State.MemOk.onContexts {s : State} {id f} (h : s.MemOk) : (s.onContexts id f).MemOk := by
  unfold State.onContexts
  split
  · exact h.mbox
  exact (h.foldl (fun _ _ h => by
    split
    exacts [h.keep (fun _ => by simp), h])).mbox
theorem State.MemOk.execHalt {s : State} {id} (h : s.MemOk) : Res.MemOk (execHalt id s) := h.served (fun h => h.onContexts)
theorem State.MemOk.execResume {s : State} {id} (h : s.MemOk) : Res.MemOk (execResume id s) := h.served (fun h => h.onContexts.of)
theorem State.MemOk.execDebugSet {s : State} {id} (h : s.MemOk) : Res.MemOk (execDebugSet id s) := h.served (fun h => h.onContexts)
theorem State.MemOk.execDebugClear {s : State} {id} (h : s.MemOk) : Res.MemOk (execDebugClear id s) := h.served (fun h => h.onContexts)
theorem State.MemOk.readUnit {s : State} {r} (h : s.MemOk) : (s.readUnit r).1.MemOk := by
  unfold State.readUnit
  dsimp only
  split
  · split
    · exact h
    split
    exacts [h, h.scrRead _ _ _ _]
  · exact h
  · exact h
  · exact h
  · exact h
  · exact h
  · exact h
  · exact h
  · split
    · exact h
    split
    · exact h
    split
    · exact h
    split
    · exact h
    split
    · exact h
    split
    exacts [h, h.scrRead _ _ _ _]
  · exact h
  · exact h
  · exact h
  · exact h
  · exact h
  · exact h
  · exact h
  · exact h
  · exact h
  · exact h
  · exact h
  · exact h
  · exact h
  · exact h
  · exact h
  · exact h
  · exact h
  · exact h
  · exact h
  · exact h
  exact h
theorem State.MemOk.putFiring {s : State} {c i f} (h : s.MemOk) : (s.putFiring c i f).1.MemOk := by
  unfold State.putFiring
  dsimp only
  split
  exacts [h, h.keep (fun _ => by split <;> rfl)]
theorem State.MemOk.putCtx {s : State} {c slot f} (h : s.MemOk) : (s.putCtx c slot f).1.MemOk := by
  unfold State.putCtx
  split
  exacts [h, h.keep (fun _ => by simp)]
theorem State.MemOk.putCsr {s : State} {c i n v} (h : s.MemOk) : (s.putCsr c i n v).1.MemOk := by
  unfold State.putCsr
  dsimp only
  split
  · exact h
  split
  · exact h
  split
  · exact h
  split
  · exact h.keep
  split
  exacts [h.putFiring, h.putCtx]
theorem State.MemOk.writeUnit {s : State} {r v} (h : s.MemOk) : (s.writeUnit r v).1.MemOk := by
  unfold State.writeUnit
  dsimp only
  split
  · split
    · exact h
    split
    exacts [h, h.agentWrite _ _ _ _]
  · exact h.putFiring
  · exact h.putFiring
  · exact h.putFiring
  · exact h.putFiring
  · exact h.putFiring
  · exact h.putCsr
  · exact h.putCtx
  · exact h.putCtx
  · split
    · exact h
    split
    · exact h.putCtx
    split
    · exact h.putCtx
    split
    · exact h
    split
    · exact h
    split
    exacts [h, h.agentWrite _ _ _ _]
  · exact h.putCtx
  · exact h.keep
  · exact h
  · exact h
  · exact h
  · exact h
  · exact h
  · exact h
  · exact h
  · exact h
  · exact h
  · exact .ite h.keep h
  · exact .ite h.keep h
  · exact h.onTile _ _
  · exact .ite (h.onTile _ _) h
  · exact .ite h.of h
  · exact h.of
  · exact h.of
  · exact .ite h.of h
  exact h
theorem State.MemOk.unitDone {s : State} {e n status st bytes i} (h : s.MemOk) : (s.unitDone e n status st bytes i).MemOk := by
  unfold State.unitDone
  dsimp only
  split
  exacts [.mbox h.of, .send h.of]
theorem State.MemOk.execRead {s : State} {kind addr len} (h : s.MemOk) : Res.MemOk (execRead kind addr len s) := by
  unfold Machine.execRead
  refine h.served fun h => ?_
  split
  · exact h.mbox
  split
  extract_lets q
  have hq : q.1.MemOk := by
    unfold q
    split
    exacts [h.readUnit, h]
  exact hq.unitDone
theorem State.MemOk.execWrite {s : State} {kind addr bytes} (h : s.MemOk) : Res.MemOk (execWrite kind addr bytes s) := by
  unfold Machine.execWrite
  refine h.served fun h => ?_
  split
  · exact h.mbox
  split
  extract_lets q
  have hq : q.1.MemOk := by
    unfold q
    split
    exacts [h.writeUnit, h]
  exact hq.unitDone
theorem State.MemOk.mailboxTake {s : State} (h : s.MemOk) : s.mailboxTake.MemOk := by
  unfold State.mailboxTake
  dsimp only
  split
  · exact h
  split
  exacts [.send h.of, .mbox h.of]

theorem State.MemOk.execPowerSample {s : State} {watts die coolant} (h : s.MemOk) : Res.MemOk (execPowerSample watts die coolant s) := .next h.of
/-! ### Machine/Dispatch -/

theorem State.MemOk.exec {s : State} {i} (h : s.MemOk) : Res.MemOk (exec i s) := by
  cases i with
  | add | sub | and | or | xor | andn | shl | shr | sra | ror | min | max | minn | maxn | slt | sltn | seq | sne | mul | mulh | mulhn | div
    | divn | rem | remn | clz | ctz | popc | brev | sextb | sexth | zextb | zexth | bfx | bfi | rdid | addi | andi | ori | xori | shli | shri
    | srai | slti | sltni | lui | li | muli | bstat | qstat | slstat | xidrd | mpop => exact h.giveS
  | dadd | dsub | dand | dshl | dshr | dsra | dslt | dsltn | dmul | rdcyc | mvms | daddi | termap => exact h.giveD
  | mvsm | mand | mor | mxor => exact h.setM.retire.next
  | rand => exact h.setProg.giveS
  | beq | bne | blt | bge | bltn | bgen | bz | bnz => exact h.branch
  | j => exact h.execJ
  | jal => exact h.execJal
  | jr => exact h.execJr
  | jalr => exact h.execJalr
  | loop => exact h.execLoop
  | nstclm => exact h.execNstclm
  | nstnxt => exact h.execNstnxt
  | ldb | ldbn | ldh | ldhn | ldw | ldd => exact h.loadS
  | stb | sth | stw | std => exact h.storeS
  | vld => exact h.execVld
  | vst => exact h.execVst
  | vldbc => exact h.execVldbc
  | vgath => exact h.execVgath
  | vscat => exact h.execVscat
  | amoAdd | amoAnd | amoOr | amoXor | amoMin | amoMax | amoMinn | amoMaxn | amoSwap | amoCas | amoFadd => exact h.amo
  | depos => exact h.execDepos
  | send => exact h.execSend
  | reply => exact h.execReply
  | done => exact h.counted.endChunk.next
  | launch => exact h.execLaunch
  | clsmask | clsunm => exact h.classMask
  | kend => exact h.execKend
  | vdone | terdem => exact h.hold.retire.next
  | stepmk => exact h.execStepmk
  | hpost => exact h.execHpost
  | binit | barr | baddb => exact h.holdBar
  | barrx => exact h.execBarrx
  | bwait => exact h.execBwait
  | qrd => exact h.execQrd
  | qwr => exact h.execQwr
  | qwrv => exact h.execQwrv
  | cheos => exact h.execCheos
  | qrdv => exact h.execQrdv
  | chbind => exact h.execChbind
  | chunb => exact h.execChunb
  | chgrow => exact h.execChgrow
  | chstat => exact h.execChstat
  | slclm => exact h.execSlclm
  | slrel => exact h.execSlrel
  | xidwt => exact h.execXidwt
  | csrr => exact h.execCsrr
  | csrw | csrs | csrc => exact h.csrWrite
  | chunk => exact h.execChunk
  | fenceD => exact h.execFenceD
  | fenceS => exact h.execFenceS
  | lbsync => exact h.execLbsync
  | psync => exact h.execPsync
  | trap => exact h.trap.next
  | tret => exact h.execTret
  | brk => exact h.execBrk
  | prioff => exact h.execPrioff
  | prion => exact h.retire.setFir.next
  | ctxsav => exact h.execCtxsav
  | ctxrst => exact h.execCtxrst
  | fwcall => exact h.execFwcall
  | vadd => exact h.execVadd
  | vsub => exact h.execVsub
  | vmin => exact h.execVmin
  | vmax => exact h.execVmax
  | vmul => exact h.execVmul
  | vmulh => exact h.vint.vdone
  | vabs => exact h.execVabs
  | vneg => exact h.execVneg
  | vfma | vfms | vfnma | vfnms | vdiv | vsqrt | vrcp | vrsq => exact h.vfp.vdone
  | vand | vor | vxor | vandn | vshl | vshr | vsra | vror => exact h.vbits.vdone
  | vceq | vcne | vclt | vcle => exact h.vcmp.vdone
  | vcvt => exact h.vround.vdone
  | vqnt => exact h.setV.flag.drawn.vdone
  | vdqnt | vamax | vsplat | vins | vperm | vslu | vsld | vbcl => exact h.vmap.vdone
  | vrsum | vrmax | vrmin | vramax => exact h.vreduce.vdone
  | vext => exact h.execVext
  | vsel => exact h.setV.vdone
  | mld => exact h.execMld
  | mma => exact h.execMma
  | mzero => exact h.execMzero
  | mst => exact h.execMst
  | mqnt => exact h.execMqnt
  | mamax => exact h.execMamax
  | queuedCsrWrite => exact h.execQueuedCsrWrite
  | cpin | cpout | cp2d | cploc | cpfill | xred | xbcast => exact h.pushCopy
  | matrixCommandStart => exact h.execMatrixCommandStart
  | matrixCommandComplete => exact h.execMatrixCommandComplete
  | commitGrant => exact h.execCommitGrant
  | commitComplete => exact h.execCommitComplete
  | firingChoose => exact h.execFiringChoose
  | preemption => exact h.execPreemption
  | parkWake => exact h.execParkWake
  | waitResume => exact h.execWaitResume
  | watchdogExpiry => exact h.execWatchdogExpiry
  | trapEntry => exact h.execTrapEntry
  | codeFetchComplete => exact h.execCodeFetchComplete
  | configCacheFill => exact h.execConfigCacheFill
  | packetArrival => exact h.execPacketArrival
  | routerDrop | retryTimerExpiry => exact h.send.next
  | ackReceived => exact h.execAckReceived
  | nackReceived => exact h.execNackReceived
  | directoryLookup => exact h.execDirectoryLookup
  | directoryAnswer => exact h.execDirectoryAnswer
  | depositWrite => exact h.depositStep.next
  | atomicStep => exact h.atomStep.next
  | atomicReturn => exact h.execAtomicReturn
  | nestClaimStep => exact h.execNestClaimStep
  | nestClaimReturn => exact h.execNestClaimReturn
  | barrierUpdate => exact h.execBarrierUpdate
  | copyPieceWrite => exact h.execCopyPieceWrite
  | copyComplete => exact h.execCopyComplete
  | q1Record => exact h.execQ1Record
  | xredContribution => exact h.execXredContribution
  | xbcastWrite => exact h.execXbcastWrite
  | channelElementEnter => exact h.execChannelElementEnter
  | channelAckReceived | xonReceived => exact h.onChan.touch.next
  | spillWrite => exact h.execSpillWrite
  | refillReturn => exact h.execRefillReturn
  | emptyNoticeSend => exact h.execEmptyNoticeSend
  | emptyNoticeReceived => exact h.execEmptyNoticeReceived
  | thawReport => exact h.execThawReport
  | thawProbe => exact h.execThawProbe
  | spillPoolDraw => exact h.execSpillPoolDraw
  | spillPoolAnswer => exact h.execSpillPoolAnswer
  | parityUpdate => exact h.execParityUpdate
  | parityForcedUpdate => exact h.execParityForcedUpdate
  | scrub => exact h.execScrub
  | correctedWriteback => exact h.execCorrectedWriteback
  | bankRetirement => exact h.execBankRetirement
  | driftPhase => exact h.execDriftPhase
  | transferQuiesced => exact h.execTransferQuiesced
  | vacateBudgetExpiry => exact h.execVacateBudgetExpiry
  | contextRemoval => exact h.execContextRemoval
  | tileClearComplete => exact h.execTileClearComplete
  | transferNotice => exact h.execTransferNotice
  | transferComplete => exact h.execTransferComplete
  | timeshareQuantumEnd => exact h.execTimeshareQuantumEnd
  | hostQueueTail => exact h.execHostQueueTail
  | queueEntryLaunch => exact h.execQueueEntryLaunch
  | queueEntryWait => exact h.execQueueEntryWait
  | queueEntrySignal => exact h.execQueueEntrySignal
  | dispatcherStep => exact h.execDispatcherStep
  | nodeLaunch => exact h.execNodeLaunch
  | nodeWait => exact h.execNodeWait
  | nodeSignal => exact h.execNodeSignal
  | nodeCond => exact h.execNodeCond
  | nodeLoop => exact h.execNodeLoop
  | nodeCopy => exact h.execNodeCopy
  | nodeEnd => exact h.execNodeEnd
  | walkBegin => exact h.execWalkBegin
  | kendArrival => exact h.execKendArrival
  | hpostArrival => exact h.execHpostArrival
  | adminMap => exact h.execAdminMap
  | adminUnmap => exact h.execAdminUnmap
  | adminCancel => exact h.execAdminCancel
  | adminClaim => exact h.execAdminClaim
  | adminFree => exact h.execAdminFree
  | adminTimeshare => exact h.execAdminTimeshare
  | adminVdev => exact h.execAdminVdev
  | adminPair => exact h.execAdminPair
  | adminQueue => exact h.execAdminQueue
  | adminOwnAssign => exact h.execAdminOwnAssign
  | adminOwnRelease => exact h.execAdminOwnRelease
  | adminTenantCreate => exact h.execAdminTenantCreate
  | adminTenantDelete => exact h.execAdminTenantDelete
  | fwMap => exact h.execFwMap
  | fwUnmap => exact h.execFwUnmap
  | fwQuery => exact h.execFwQuery
  | fwAttest => exact h.execFwAttest
  | stepMark => exact h.execStepMark
  | checkpointTimer => exact h.execCheckpointTimer
  | armingComplete => exact h.execArmingComplete
  | checkpointPageCopy => exact h.execCheckpointPageCopy
  | protectedWrite => exact h.execProtectedWrite
  | urgentReadComplete => exact h.execUrgentReadComplete
  | checkpointComplete => exact h.execCheckpointComplete
  | ckptJob => exact h.execCkptJob
  | ckptDrop => exact h.execCkptDrop
  | ckptKey => exact h.execCkptKey
  | ckptRestore => exact h.execCkptRestore
  | startWarm | startCold => exact h.start.next
  | health | identity => exact h.mbox.next
  | fwLoad => exact h.execFwLoad
  | read => exact h.execRead
  | write => exact h.execWrite
  | halt => exact h.execHalt
  | resume => exact h.execResume
  | layout => exact h.execLayout
  | debugSet => exact h.execDebugSet
  | debugClear => exact h.execDebugClear
  | powerSample => exact h.execPowerSample
  | hostMemAccess => exact h.execHostMemAccess
  | translatedLoadReturn => exact h.execTranslatedLoadReturn
  | globalStorePerformed => exact (h.gwriteBy _ _ _ _).next

/-! ### Machine/Agents -/

theorem State.MemOk.runEv {s : State} {e} (h : s.MemOk) : Res.MemOk (runEv e s) := by
  cases e with
  | queuedCsrWrite => exact h.execQueuedCsrWrite
  | answer c n a => exact State.MemOk.atCore (k := fun s => s.answered c n a) h fun h => h.answered
  | matrixCommandStart => exact h.execMatrixCommandStart
  | matrixCommandComplete => exact h.execMatrixCommandComplete
  | commitGrant => exact h.execCommitGrant
  | commitComplete => exact h.execCommitComplete
  | firingChoose => exact h.execFiringChoose
  | preemption => exact h.execPreemption
  | parkWake => exact h.execParkWake
  | waitResume => exact h.execWaitResume
  | watchdogExpiry => exact h.execWatchdogExpiry
  | trapEntry => exact h.execTrapEntry
  | codeFetchComplete => exact h.execCodeFetchComplete
  | configCacheFill => exact h.execConfigCacheFill
  | packetArrival => exact h.execPacketArrival
  | routerDrop | retryTimerExpiry => exact h.send.next
  | ackReceived => exact h.execAckReceived
  | nackReceived => exact h.execNackReceived
  | directoryLookup => exact h.execDirectoryLookup
  | directoryAnswer => exact h.execDirectoryAnswer
  | depositWrite => exact h.depositStep.next
  | atomicStep => exact h.atomStep.next
  | atomicReturn => exact h.execAtomicReturn
  | nestClaimStep => exact h.execNestClaimStep
  | nestClaimReturn => exact h.execNestClaimReturn
  | barrierUpdate => exact h.execBarrierUpdate
  | copyPieceWrite => exact h.execCopyPieceWrite
  | copyComplete => exact h.execCopyComplete
  | q1Record => exact h.execQ1Record
  | xredContribution => exact h.execXredContribution
  | xbcastWrite => exact h.execXbcastWrite
  | channelElementEnter => exact h.execChannelElementEnter
  | channelAckReceived | xonReceived => exact h.onChan.touch.next
  | spillWrite => exact h.execSpillWrite
  | refillReturn => exact h.execRefillReturn
  | emptyNoticeSend => exact h.execEmptyNoticeSend
  | emptyNoticeReceived => exact h.execEmptyNoticeReceived
  | thawReport => exact h.execThawReport
  | thawProbe => exact h.execThawProbe
  | spillPoolDraw => exact h.execSpillPoolDraw
  | spillPoolAnswer => exact h.execSpillPoolAnswer
  | parityUpdate => exact h.execParityUpdate
  | parityForcedUpdate => exact h.execParityForcedUpdate
  | scrub => exact h.execScrub
  | correctedWriteback => exact h.execCorrectedWriteback
  | bankRetirement => exact h.execBankRetirement
  | driftPhase => exact h.execDriftPhase
  | transferQuiesced => exact h.execTransferQuiesced
  | vacateBudgetExpiry => exact h.execVacateBudgetExpiry
  | contextRemoval => exact h.execContextRemoval
  | tileClearComplete => exact h.execTileClearComplete
  | transferNotice => exact h.execTransferNotice
  | transferComplete => exact h.execTransferComplete
  | timeshareQuantumEnd => exact h.execTimeshareQuantumEnd
  | hostQueueTail => exact h.execHostQueueTail
  | queueEntryLaunch => exact h.execQueueEntryLaunch
  | queueEntryWait => exact h.execQueueEntryWait
  | queueEntrySignal => exact h.execQueueEntrySignal
  | dispatcherStep => exact h.execDispatcherStep
  | nodeLaunch => exact h.execNodeLaunch
  | nodeWait => exact h.execNodeWait
  | nodeSignal => exact h.execNodeSignal
  | nodeCond => exact h.execNodeCond
  | nodeLoop => exact h.execNodeLoop
  | nodeCopy => exact h.execNodeCopy
  | nodeEnd => exact h.execNodeEnd
  | walkBegin => exact h.execWalkBegin
  | kendArrival => exact h.execKendArrival
  | hpostArrival => exact h.execHpostArrival
  | adminMap => exact h.execAdminMap
  | adminUnmap => exact h.execAdminUnmap
  | adminCancel => exact h.execAdminCancel
  | adminClaim => exact h.execAdminClaim
  | adminFree => exact h.execAdminFree
  | adminTimeshare => exact h.execAdminTimeshare
  | adminVdev => exact h.execAdminVdev
  | adminPair => exact h.execAdminPair
  | adminQueue => exact h.execAdminQueue
  | adminOwnAssign => exact h.execAdminOwnAssign
  | adminOwnRelease => exact h.execAdminOwnRelease
  | adminTenantCreate => exact h.execAdminTenantCreate
  | adminTenantDelete => exact h.execAdminTenantDelete
  | fwMap => exact h.execFwMap
  | fwUnmap => exact h.execFwUnmap
  | fwQuery => exact h.execFwQuery
  | fwAttest => exact h.execFwAttest
  | stepMark => exact h.execStepMark
  | checkpointTimer => exact h.execCheckpointTimer
  | armingComplete => exact h.execArmingComplete
  | checkpointPageCopy => exact h.execCheckpointPageCopy
  | protectedWrite => exact h.execProtectedWrite
  | urgentReadComplete => exact h.execUrgentReadComplete
  | checkpointComplete => exact h.execCheckpointComplete
  | ckptJob => exact h.execCkptJob
  | ckptDrop => exact h.execCkptDrop
  | ckptKey => exact h.execCkptKey
  | ckptRestore => exact h.execCkptRestore
  | startWarm | startCold => exact h.start.next
  | health | identity => exact h.mbox.next
  | fwLoad => exact h.execFwLoad
  | read => exact h.execRead
  | write => exact h.execWrite
  | halt => exact h.execHalt
  | resume => exact h.execResume
  | layout => exact h.execLayout
  | debugSet => exact h.execDebugSet
  | debugClear => exact h.execDebugClear
  | powerSample => exact h.execPowerSample
  | hostMemAccess => exact h.execHostMemAccess
  | translatedLoadReturn => exact h.execTranslatedLoadReturn
  | globalStorePerformed => exact (h.gwriteBy _ _ _ _).next

/-! ### Machine/Retry -/

theorem State.MemOk.unitLost {s : State} {e n reads} (h : s.MemOk) : (s.unitLost e n reads).MemOk := by
  unfold State.unitLost
  split
  exact h.unitDone
theorem State.MemOk.undelivered {s : State} {e} (h : s.MemOk) : (s.undelivered e).MemOk := by
  unfold State.undelivered
  split
  · exact h.elementLost
  · exact h.suspect.touch
  · exact h.refillLost
  · exact h.drawFails
  · exact h.fails
  · exact h.fails
  · exact h.defer
  · split
    exacts [h.failWalk, h]
  · exact h.unitLost
  · exact h.unitLost
  · exact h.copyFault
  · exact h.copyFault
  exact h
theorem State.MemOk.done {s : State} {e} (h : s.MemOk) : (s.done e).MemOk := by
  unfold State.done
  split
  exacts [h, h.of]
theorem State.MemOk.refuse {s : State} {e last} (h : s.MemOk) (hl : ∀ {s : State}, s.MemOk → (last s).MemOk) : (s.refuse e last).MemOk :=
  .ite (hl h.count.done).undelivered h.count.done.of
theorem State.MemOk.tidyTries {s : State} (h : s.MemOk) : s.tidyTries.MemOk := by
  unfold State.tidyTries
  split
  exacts [h, h.of]

/-! ### Machine/Sched -/

theorem State.MemOk.opened {s : State} (h : s.MemOk) : s.opened.MemOk := h.setFir
theorem State.MemOk.execAt {s : State} (h : s.MemOk) : Res.MemOk s.execAt := by
  unfold State.execAt
  split
  · exact h.trap.next
  split
  exacts [h.trap.next, h.exec]
theorem State.MemOk.coreTurn {s : State} (h : s.MemOk) : Res.MemOk s.coreTurn := by
  unfold State.coreTurn
  dsimp only
  split
  · split
    exacts [h.setChunk.setStatus.next, h.next]
  · split
    exacts [h.opened.execAt, h.setStatus.next]
  exact h.next
theorem State.MemOk.tidyAsks {s : State} {now} (h : s.MemOk) : (s.tidyAsks now).MemOk := by
  unfold State.tidyAsks
  dsimp only
  split
  exacts [h, h.of]
theorem State.MemOk.unask {s : State} {e} (h : s.MemOk) : (s.unask e).MemOk := h.of
theorem State.MemOk.choose {s : State} (h : s.MemOk) : s.choose.MemOk := by
  unfold State.choose
  split
  · exact h.of
  · rename_i x _
    have hx := h.goto x.1
    exact hx.of
  · extract_lets z
    have hz := h.goto z.1
    exact hz.of
theorem State.MemOk.tidySolo {s : State} (h : s.MemOk) : s.tidySolo.MemOk := by
  unfold State.tidySolo
  exact h.of
theorem State.MemOk.refillAll {s : State} (h : s.MemOk) : s.refillAll.MemOk := by
  refine h.mapped ?_ rfl (fun _ => rfl) fun e he => ?_
  · unfold State.refillAll
    dsimp only
    split
    exacts [h.core, by rw [Core.mem_refill]; exact h.core]
  · dsimp only
    split
    exacts [he, by rw [Core.mem_refill]; exact he]
theorem State.MemOk.settle {s : State} (h : s.MemOk) : s.settle.MemOk := by
  unfold State.settle
  extract_lets n now k t
  have ht : t.MemOk := h.mapped h.core rfl (fun _ => rfl) fun _ he => he
  exact .choose (.tidyAsks (.tidyTries (.tidySolo (.refillAll (.tidyVacant (.ite ht.count ht))))))
theorem State.MemOk.performEvent {s : State} {k e} (h : s.MemOk) : Res.MemOk (s.performEvent k e) := by
  unfold State.performEvent
  extract_lets rest
  have hr : Res.MemOk (Machine.runEv e { s with agenda := rest }) := State.MemOk.runEv h.of
  split
  · rename_i t et
    have ht : t.MemOk := hr t et
    extract_lets
    split
    exacts [.next ht.of, ht.next]
  exact hr
theorem State.MemOk.inner {s : State} {x} (h : s.MemOk) : (s.inner x).MemOk := by
  cases x with
  | storesLeave c => exact h.storesLeave
  | portDrain c => exact h.onCore c _ (Core.wf_drainOne (h.2 c))
  | portSee c => exact h.keep
  | unitCycle c => exact h.unitCycle
  | rowCommit c k => exact h.rowCommit
  | linkDone k => exact h.of
  | quantumNote t => exact h.quantumNote
  | acknowledge k => exact h.acknowledge
  | restorePage => exact h.restorePage
  | mailboxTake => exact h.mailboxTake
theorem State.MemOk.act {s : State} (h : s.MemOk) : Res.MemOk s.act := by
  unfold State.act
  split
  · exact h.coreTurn
  · exact h.done.runEv
  · split
    exacts [h.done.performEvent, h.next]
  · split
    · exact h.performEvent
    · apply State.MemOk.next
      split
      exacts [h.unask.refuse (fun h => h.of), h]
    exact h.next
  · apply State.MemOk.next
    split
    exacts [h.unask.refuse id, h]
  · exact h.inner.next
  exact h.next

/-! ### Machine/Step -/

theorem State.MemOk.step {s : State} (h : s.MemOk) : Res.MemOk (step s) := by
  unfold Machine.step
  split
  · exact (h.act _ ‹_›).settle.next
  · exact h.act

/-- Settles O7: every branch of `step` keeps the memories canonical (`State.MemOk.step`). -/
theorem stepKeepsMemoriesCanonical : Obligations.StepKeepsMemoriesCanonical := fun _ t h e => h.step t e

end Sys2Proof.Machine

end

/-! # The steps of a packet (R2, R179, R181, R188, R215, R219, R220, R222, R223, R257, R314) -/

section

namespace Sys2Proof.Machine

/-! ### Numbers of bytes -/

/-- Byte `i` of a number, read from its bits. -/
theorem extractLsb'_ofNat_byte {w : Nat} (x : Nat) {i : Nat} (h : 8 * i + 8 ≤ w) :
    (BitVec.ofNat w x).extractLsb' (8 * i) 8 = BitVec.ofNat 8 (x / 256 ^ i) := by
  have e : 256 ^ i = 2 ^ (8 * i) := by rw [Nat.pow_mul]
  refine BitVec.eq_of_getLsbD_eq fun j hj => ?_
  rw [BitVec.getLsbD_extractLsb', BitVec.getLsbD_ofNat, BitVec.getLsbD_ofNat, e, Nat.testBit_div_two_pow, Nat.add_comm (8 * i) j]
  simp [hj, show j + 8 * i < w by omega]
/-- The number of a list of bytes has them as its bytes. -/
theorem ofNat_ofBytes_div (bs : List Byte) (i : Nat) : BitVec.ofNat 8 (ofBytes bs / 256 ^ i) = bs.getD i 0 := by
  induction bs generalizing i with
  | nil => simp [ofBytes]
  | cons b bs ih =>
    have hb := b.isLt
    cases i with
    | zero =>
      refine BitVec.eq_of_toNat_eq ?_
      simp only [ofBytes, Nat.pow_zero, Nat.div_one, BitVec.toNat_ofNat, List.getD_cons_zero]
      omega
    | succ i =>
      rw [Nat.pow_succ', ← Nat.div_div_eq_div_mul, show ofBytes (b :: bs) / 256 = ofBytes bs by simp only [ofBytes]; omega, ih, List.getD_cons_succ]
theorem getD_slice {bs : List Byte} {i n j : Nat} (h : j < n) : (slice bs i n).getD j 0 = bs.getD (i + j) 0 := by
  unfold slice
  by_cases hj : i + j < bs.length
  · rw [List.getD_append _ _ _ _ (by simp; omega)]
    simp [List.getD, h]
  · rw [List.getD_append_right _ _ _ _ (by simp; omega), List.getD_eq_default bs _ (by omega), List.getD_replicate _ (by simp; omega)]

/-! ### Where the agents attach (R2) -/

/-- The die of the router in column `x` and row `y` (R2). -/
theorem dieOf_router {x : Nat} (y : Nat) (h : x < 128) : dieOf (128 * y + x) = x / 64 + 2 * (y / 32) := by
  unfold dieOf cx cy
  rw [show (128 * y + x) % 128 = x by omega, show (128 * y + x) / 128 = y by omega]
/-- A die's first 64 streamers lie on its outer row, the other 32 on its outer column. -/
theorem dieOf_streamerCore {i : Nat} (h : i < 512) : dieOf (streamerCore i) = i / 128 := by
  unfold streamerCore
  extract_lets d dx dy j
  have hd : d = dx + 2 * dy := by omega
  have hx : dx < 2 := Nat.mod_lt _ (by decide)
  have hy : dy < 2 := by omega
  have hj : j < 96 := by omega
  split
  · rw [dieOf_router _ (by omega)]
    split <;> omega
  · rw [dieOf_router _ (by split <;> omega)]
    split <;> omega
theorem dieOf_dispatcherCore (d : Nat) : dieOf (dispatcherCore d) = d := by
  unfold dispatcherCore
  rw [dieOf_router _ (by omega)]
  omega

/-! ### The flits (R215) -/

theorem Packet.headFlit_header (p : Packet) : (Packet.flit p 0).1.extractLsb' 0 128 = Packet.header p := by
  have h := (Packet.header p).isLt
  refine BitVec.eq_of_toNat_eq ?_
  simp only [Packet.flit, if_true, BitVec.extractLsb'_toNat, BitVec.toNat_ofNat, Nat.shiftRight_zero]
  omega
theorem Packet.headFlit_byte (p : Packet) {i : Nat} (h : i < 16) : (Packet.flit p 0).1.extractLsb' (128 + 8 * i) 8 = (Packet.payload p).getD i 0 := by
  have hh := (Packet.header p).isLt
  have e (x : Nat) : ((Packet.header p).toNat + 2 ^ 128 * x) / 256 ^ (16 + i) = x / 256 ^ i := by
    rw [Nat.pow_add, ← Nat.div_div_eq_div_mul, show ((Packet.header p).toNat + 2 ^ 128 * x) / 256 ^ 16 = x by omega]
  rw [show 128 + 8 * i = 8 * (16 + i) by omega]
  simp only [Packet.flit, if_true]
  rw [extractLsb'_ofNat_byte _ (by omega), e, ofNat_ofBytes_div, getD_slice h, Nat.zero_add]
theorem Packet.bodyFlit_byte (p : Packet) {i : Nat} (h : 16 ≤ i) :
    (Packet.flit p ((i - 16) / 32 + 1)).1.extractLsb' (8 * ((i - 16) % 32)) 8 = (Packet.payload p).getD i 0 := by
  simp only [Packet.flit, Nat.add_one_ne_zero, if_false, Nat.add_sub_cancel]
  rw [extractLsb'_ofNat_byte _ (by omega), ofNat_ofBytes_div, getD_slice (by omega), show 16 + 32 * ((i - 16) / 32) + (i - 16) % 32 = i by omega]

/-! ### The header (R215) -/

/-- The header's fields that are words of bits stand where R215 has them. -/
theorem Packet.header_fields (p : Packet) :
    (Packet.header p).extractLsb' 21 21 = p.src ∧ (Packet.header p).extractLsb' 0 21 = Packet.to p ∧ (Packet.header p).extractLsb' 42 2 = 0
    ∧ (Packet.header p).extractLsb' 44 5 = p.cls ∧ (Packet.header p).extractLsb' 58 6 = p.ter ∧ (Packet.header p).extractLsb' 64 16 = p.seq
    ∧ (Packet.header p).extractLsb' 80 4 = p.age ∧ (Packet.header p).extractLsb' 96 32 = p.launch := by
  unfold Packet.header
  refine ⟨?_, ?_, ?_, ?_, ?_, ?_, ?_, ?_⟩
  all_goals
    simp (disch := decide) only [BitVec.extractLsb'_append_eq_of_add_le, BitVec.extractLsb'_append_eq_of_le, Nat.reduceSub, BitVec.extractLsb'_eq_self]
/-- The header's single bits: the reply bit, and the firing's priority. -/
theorem Packet.header_bits (p : Packet) : (Packet.header p).getLsbD 49 = p.reply ∧ (Packet.header p).getLsbD 84 = p.hiPri := by
  unfold Packet.header
  constructor
  all_goals
    simp only [BitVec.getLsbD_append, Nat.reduceSub, Nat.reduceLT, if_false, if_true, BitVec.getLsbD_ofBool, decide_true, Bool.true_and]

/-! ### A packet's leg, its refusal and its acknowledgement -/

theorem Packet.to_of_via_none {p : Packet} (h : p.via = none) : Packet.to p = p.dst := by
  unfold Packet.to
  rw [h]
  rfl
theorem Packet.leaves_of_via_none {p : Packet} (h : p.via = none) : Packet.leaves p = ofCoord p.src := by
  unfold Packet.leaves
  rw [h]
  rfl
theorem State.nack_of_isLocal {s : State} {p : Packet} (h : isLocal p.src = true) (r : Nat) (x : Half) :
    s.nack p r x = s.send (.nackReceived p r x) := if_pos h
theorem State.ack_of_pool {s : State} {p : Packet} {b : Bool} (h : isLocal p.src = true) (hp : p.pool = some b) :
    s.ack p = s.send (.ackReceived (ofCoord p.src) p.reply p.seq) := by
  unfold State.ack
  rw [hp]
  exact if_pos h
/-- An acknowledgement does nothing but send events. -/
theorem State.ack_sends (s : State) (p : Packet) : ∃ r, s.ack p = { s with agenda := s.agenda ++ r } := by
  have none : s = { s with agenda := s.agenda ++ [] } := by rw [List.append_nil]
  unfold State.ack
  split
  · split
    exacts [⟨_, rfl⟩, ⟨[], none⟩]
  · exact ⟨[], none⟩

section
variable {s : State} {p : Packet}

/-! ### A packet that arrives (R179, R181, R222, R257) -/

section
variable (hd : isLocal p.dst = true) (hs : isLocal p.src = true) (hv : p.via = none)
include hd hs hv

/-- A packet whose class's routes lead past the mesh's edge is refused. -/
theorem exec_packetArrival_edge (hw : s.way p.cls (ofCoord p.src) (ofCoord p.dst) = .edge) :
    exec (.packetArrival p) s = .next (s.send (.nackReceived p 5 0)) := by
  show execPacketArrival p s = _
  simp only [execPacketArrival, Packet.to_of_via_none hv, Packet.leaves_of_via_none hv, hd, hs, hw, State.nack_of_isLocal hs, not_true_eq_false, if_false, if_true]
/-- At the end of a packet's leg the border decides. -/
theorem exec_packetArrival_there (hw : s.way p.cls (ofCoord p.src) (ofCoord p.dst) = .there) :
    exec (.packetArrival p) s = .next (
      if s.borderOk p.cls (some p.ter) (!(Packet.toStreamer p) && s.crosses p.cls (ofCoord p.src) (ofCoord p.dst)) (ofCoord p.dst)
      then s.accepted (ofCoord p.dst) p else s.send (.nackReceived p 4 0)) := by
  show execPacketArrival p s = _
  simp only [execPacketArrival, Packet.to_of_via_none hv, Packet.leaves_of_via_none hv, hd, hs, hw, State.nack_of_isLocal hs, not_true_eq_false, if_false, if_true,
    Bool.not_true, Bool.false_and, Bool.false_or, Bool.not_false, Bool.true_and]
end

/-! ### A message that reaches its core -/

section
variable {c : Nat} {cls : BitVec 5} {bs : List Byte} {r : Bool}

theorem State.accepted_message (hb : p.body = .message bs) : s.accepted c p = s.deliver1 c p p.cls := by
  unfold State.accepted handlerClsOf
  rw [hb]
theorem State.deliver1_fenced (hf : (s.coreAt c).fenced = true) : s.deliver1 c p cls = s.nack p 3 0 := if_pos hf
/-- A stub sends a packet on, up to four times. -/
theorem State.deliver1_stub {b : Stub} (hf : (s.coreAt c).fenced = false) (hh : look (s.coreAt c).handlers cls = none)
    (hb : (s.coreAt c).stubs.find? (fun b => b.mask.getLsbD cls.toNat) = some b) :
    s.deliver1 c p cls = if 4 ≤ p.fwd.toNat then s.nack p 6 b.ctx else s.send (.packetArrival { p with fwd := p.fwd + 1, via := some (c, b.at_) }) := by
  simp [State.deliver1, hf, hh, hb]
theorem State.deliver1_departed {id : Half} (hf : (s.coreAt c).fenced = false) (hh : look (s.coreAt c).handlers cls = none) (hb : (s.coreAt c).stubs = [])
    (hi : id ≠ 0) (hd : look (s.coreAt c).departed cls = some id) : s.deliver1 c p cls = s.nack p 6 id := by
  simp only [State.deliver1, hf, hh, hb, hd, List.find?_nil, Bool.false_eq_true, if_false]
  exact if_neg hi
theorem State.deliver1_noEntry (hf : (s.coreAt c).fenced = false) (hh : look (s.coreAt c).handlers cls = none) (hb : (s.coreAt c).stubs = [])
    (hd : look (s.coreAt c).departed cls = none) : s.deliver1 c p cls = s.noEntry c p := by
  simp [State.deliver1, hf, hh, hb, hd]
theorem State.noEntry_refuses (h : (s.tileAt (tileOf c)).xfer.before5 = false ∨ p.reply = false) : s.noEntry c p = s.nack p 3 0 :=
  if_neg (by rcases h with h | h <;> simp [h])
theorem State.noEntry_drops (h : (s.tileAt (tileOf c)).xfer.before5 = true) (hr : p.reply = true) : s.noEntry c p = s.ack p :=
  if_pos (by simp [h, hr])

/-- A message for a class that is there: a request is refused while its tile is before step 5 of a transfer or its class is masked, and either where the
inbox has no room, but for a reply before step 5; else it is enqueued. -/
theorem State.deliver1_entry {h : Handler} (hb : p.body = .message bs) (hr : p.reply = r) (hf : (s.coreAt c).fenced = false)
    (hh : look (s.coreAt c).handlers cls = some h) :
    s.deliver1 c p cls =
      if (s.tileAt (tileOf c)).xfer.before5 = true ∧ r = false then s.nack p 1 0
      else if r = false ∧ (s.coreAt c).masked cls = true then s.nack p 1 0
      else if (if r then 8 else 24) ≤ (s.coreAt c).inboxUsed r then (if (s.tileAt (tileOf c)).xfer.before5 && r then s.ack p else s.nack p 2 0)
      else (s.onCore c fun k => { k with runq := k.runq ++ [.fresh (readyOf p cls c s.cycle)] }).ack p := by
  subst hr
  simp [State.deliver1, hf, hh, isVacateCall, hb]
theorem readyOf_message {y : DWord} (hb : p.body = .message bs) :
    readyOf p cls c y = ⟨cls, 0, some p.reply, p.hiPri, bs.length, p.src, 0, bytesVec bs, p.launch, y⟩ := by
  unfold readyOf
  rw [hb]
theorem State.SameMemory.onCore_right {f : Core → Core} (hf : ∀ k, (f k).mem = k.mem) : s.SameMemory (s.onCore c f) := by
  refine ⟨fun a => by rw [State.gmem_onCore], fun d a => ?_⟩
  rw [State.coreAt_onCore]
  split
  · next e => rw [hf, e]
  · rfl
/-- A ready firing joins the run queue, and the message is acknowledged. -/
theorem State.enqueued_ack (x : Ready) :
    let t := (s.onCore c fun k => { k with runq := k.runq ++ [.fresh x] }).ack p
    s.SameMemory t ∧ (t.coreAt c).runq = (s.coreAt c).runq ++ [.fresh x] := by
  intro t
  obtain ⟨r, hr⟩ := State.ack_sends (s.onCore c fun k => { k with runq := k.runq ++ [.fresh x] }) p
  have hq : ((s.onCore c fun k => { k with runq := k.runq ++ [.fresh x] }).coreAt c).runq = (s.coreAt c).runq ++ [.fresh x] := by
    rw [State.coreAt_onCore, if_pos rfl]
  rw [show t = _ from hr]
  exact ⟨State.SameMemory.onCore_right (fun _ => rfl), hq⟩
end

/-! ### The agents (R137, R181) -/

theorem State.toAgent_full {e : Ev} {f : State → State} (h : max 1 Config.agentBuffer ≤ (s.agenda.filter fun x => agentOf x == agentOf e).length) :
    s.toAgent p e f = s.nack p 2 0 := if_pos h
/-- An agent that has nothing waiting takes a request: its step is sent. -/
theorem State.toAgent_of_none {e : Ev} {f : State → State} (h : (s.agenda.filter fun x => agentOf x == agentOf e).length = 0)
    (hf : ∃ r, f s = { s with agenda := s.agenda ++ r }) :
    s.SameMemory (s.toAgent p e f) ∧ ∃ r, (s.toAgent p e f).agenda = s.agenda ++ r ∧ e ∈ r := by
  obtain ⟨r, hr⟩ := hf
  have hn : s.toAgent p e f = (f s).send e := if_neg (by omega)
  rw [hn, hr]
  exact ⟨⟨fun _ => rfl, fun _ _ => rfl⟩, r ++ [e], by rw [← List.append_assoc]; rfl, by simp⟩
theorem State.accepted_service {c : Nat} {blk n} (hb : p.body = .service blk n) :
    s.accepted c p = if max 1 Config.agentBuffer ≤ s.service.length then s.nack p 2 0 else { s.ack p with service := s.service ++ [p] } := by
  unfold State.accepted
  rw [hb]
theorem State.accepted_arrive_fenced {c : Nat} {b : BitVec 7} (hb : p.body = .arrive b) (hf : (s.coreAt c).fenced = true) :
    s.accepted c p = s.nack p 3 0 := by
  unfold State.accepted
  rw [hb]
  exact if_pos hf

/-! ### Refusals, retries and the directory (R219, R223) -/

/-- A NACK of a reason that a retry may mend. -/
theorem exec_nackReceived_retry {r : Nat} {x : Half} (h : r ≤ 3) :
    exec (.nackReceived p r x) s = .next (if 64 ≤ p.retries then (s.count 2).fails p 0x13 else (s.count 2).send (.retryTimerExpiry p)) := by
  show execNackReceived p r x s = _
  unfold execNackReceived
  rw [if_neg (by omega), if_neg (by omega), if_neg (by omega)]
theorem exec_directoryLookup_there {h : Nat} {id : Half} (hh : s.homeOf (s.terOf (ofCoord (Packet.to p))) = some h)
    (hw : s.way 25 (ofCoord p.src) (territoryCore h) = .there) (hb : s.way 25 (territoryCore h) (ofCoord p.src) = .there) :
    exec (.directoryLookup p id) s = .next (s.send (.directoryAnswer p (look (s.tileAt h).dir id))) := by
  show execDirectoryLookup p id s = _
  unfold execDirectoryLookup
  simp only [hh, hw, hb]
theorem exec_directoryLookup_edge {h : Nat} {id : Half} (hh : s.homeOf (s.terOf (ofCoord (Packet.to p))) = some h)
    (hw : s.way 25 (ofCoord p.src) (territoryCore h) = .there) (hb : s.way 25 (territoryCore h) (ofCoord p.src) = .edge) :
    exec (.directoryLookup p id) s = .next (s.fails p 0x13) := by
  show execDirectoryLookup p id s = _
  unfold execDirectoryLookup
  simp only [hh, hw, hb]
theorem exec_directoryLookup_noHome {id : Half} (hh : s.homeOf (s.terOf (ofCoord (Packet.to p))) = none) :
    exec (.directoryLookup p id) s = .next (s.send (.directoryAnswer p none)) := by
  show execDirectoryLookup p id s = _
  unfold execDirectoryLookup
  simp only [hh]
theorem exec_ackReceived {c : Nat} {reply : Bool} {seq : Half} (h : c < 8192) : exec (.ackReceived c reply seq) s = .next (s.freeEntry c reply seq) := if_pos h
end

/-! ### The steps of a packet -/

/-- Settles O51: an arrival by the lemma of its case, the other steps by what they do, the flits by their numbers. -/
theorem packetSteps : Obligations.PacketSteps := by
  refine ⟨?_, ?_, fun p => ?_, fun p => ⟨rfl, fun k => rfl, Packet.headFlit_header p, fun i _ => ?_⟩, fun _ => dieOf_streamerCore, fun d _ => dieOf_dispatcherCore d, rfl, rfl⟩
  · intro s p hd hs hv d way lets refused sends waits
    refine ⟨fun hw => exec_packetArrival_edge hd hs hv hw, fun hw hl => (exec_packetArrival_there hd hs hv hw).trans ?_, fun hw hl => ?_⟩
    · exact congrArg _ (if_neg (ne_true_of_eq_false hl))
    have taken : exec (.packetArrival p) s = .next (s.accepted d p) := (exec_packetArrival_there hd hs hv hw).trans (congrArg _ (if_pos hl))
    have refuses {r x} (h : s.accepted d p = s.nack p r x) : refused r x := taken.trans (congrArg _ (h.trans (State.nack_of_isLocal hs r x)))
    have drops (hp : p.pool = some true) (hr : p.reply = true) (h : s.accepted d p = s.ack p) :
        exec (.packetArrival p) s = .next { s with agenda := s.agenda ++ [.ackReceived (ofCoord p.src) true p.seq] } := by
      rw [taken, h, State.ack_of_pool hs hp, hr]
      rfl
    have agent {e f} (hf : ∃ r, f s = { s with agenda := s.agenda ++ r }) (h : s.accepted d p = s.toAgent p e f) :
        (waits e = 0 → sends e) ∧ (max 1 Config.agentBuffer ≤ waits e → refused 2 0) :=
      ⟨fun hn => ⟨_, taken.trans (congrArg _ h), State.toAgent_of_none hn hf⟩, fun hn => refuses (h.trans (State.toAgent_full hn))⟩
    refine ⟨fun bs h hb hr hf hh => ?_, fun bs h hb hr hf hh hi => ?_, fun bs hb => ?_, ?_, fun blk n hb => ?_, fun b hb hf => ?_⟩
    · have entry := (State.accepted_message (c := d) hb).trans (State.deliver1_entry hb hr hf hh)
      refine ⟨fun hm => refuses ?_, fun hm => ⟨fun hk hi => ?_, fun hk => refuses ?_, fun hk hi => refuses ?_⟩⟩
      · simpa [hm] using entry
      · have queued : s.accepted d p = (s.onCore d fun k => { k with runq := k.runq ++ [.fresh (readyOf p p.cls d s.cycle)] }).ack p := by
          simpa [hm, hk, Nat.not_le.2 hi] using entry
        obtain ⟨hm, hq⟩ := State.enqueued_ack (s := s) (p := p) (c := d) (readyOf p p.cls d s.cycle)
        exact ⟨_, taken.trans (congrArg _ queued), hm, hq.trans (by rw [readyOf_message hb, hr])⟩
      · simpa [hm, hk] using entry
      · simpa [hm, hk, hi] using entry
    · have entry := (State.accepted_message (c := d) hb).trans (State.deliver1_entry hb hr hf hh)
      refine ⟨fun hm hp => drops hp hr ?_, fun hm => refuses ?_⟩
      · simpa [hm, hi] using entry
      · simpa [hm, hi] using entry
    · have msg := State.accepted_message (s := s) (c := d) hb
      refine ⟨fun hf => refuses (msg.trans (State.deliver1_fenced hf)), fun hf hh => ⟨fun b hb => ?_, fun hb id hi hd => ?_, fun hb hd => ?_⟩⟩
      · have stub := msg.trans (State.deliver1_stub hf hh hb)
        exact ⟨fun hn => taken.trans (congrArg _ (stub.trans (if_neg (by omega)))), fun hn => refuses (stub.trans (if_pos hn))⟩
      · exact refuses (msg.trans (State.deliver1_departed hf hh hb hi hd))
      · have none := msg.trans (State.deliver1_noEntry hf hh hb hd)
        exact ⟨fun hn => refuses (none.trans (State.noEntry_refuses hn)), fun hm hr hp => drops hp hr (none.trans (State.noEntry_drops hm hr))⟩
    · intro takes
      have acked := s.ack_sends p
      have same : ∃ r, id s = { s with agenda := s.agenda ++ r } := ⟨[], by rw [List.append_nil]; rfl⟩
      exact ⟨fun _ _ _ _ _ hb => agent acked (by unfold State.accepted; rw [hb]), fun _ _ _ _ _ _ _ hb => agent acked (by unfold State.accepted; rw [hb]),
        fun _ hb => agent same (by unfold State.accepted; rw [hb]), fun _ _ _ _ _ _ _ _ _ _ hb => agent same (by unfold State.accepted; rw [hb]),
        fun _ hb => agent acked (by unfold State.accepted; rw [hb]), fun _ _ hb => agent acked (by unfold State.accepted; rw [hb]),
        fun _ _ hb => agent acked (by unfold State.accepted; rw [hb]), fun hb => agent acked (by unfold State.accepted; rw [hb])⟩
    · have service := State.accepted_service (s := s) (c := d) hb
      refine ⟨fun hn => ?_, fun hn => refuses (service.trans (if_pos hn))⟩
      obtain ⟨r, hr⟩ := s.ack_sends p
      rw [if_neg (by rw [hn, List.length_nil]; omega), hn, hr] at service
      exact ⟨_, taken.trans (congrArg _ service), rfl, fun _ => rfl, fun _ _ => rfl⟩
    · exact refuses (State.accepted_arrive_fenced hb hf)
  · intro s p
    refine ⟨rfl, fun r x h hr => ?_, fun r x h hr => ?_, fun x => ⟨rfl, rfl, rfl⟩, rfl, fun c reply seq hc => ?_, 
      fun h id hh hw => ⟨exec_directoryLookup_there hh hw, exec_directoryLookup_edge hh hw⟩, fun id hh => exec_directoryLookup_noHome hh, rfl, fun d => rfl⟩
    · exact (exec_nackReceived_retry h).trans (congrArg _ (if_neg (by omega)))
    · exact (exec_nackReceived_retry h).trans (congrArg _ (if_pos hr))
    · refine ⟨_, exec_ackReceived hc, State.SameMemory.onCore_right fun _ => rfl, ?_⟩
      unfold State.freeEntry
      rw [State.coreAt_onCore, if_pos rfl]
  · obtain ⟨hsrc, hto, hzero, hcls, hter, hseq, hage, hlaunch⟩ := Packet.header_fields p
    obtain ⟨hreply, hpri⟩ := Packet.header_bits p
    exact ⟨hsrc, fun hv => hto.trans (Packet.to_of_via_none hv), hzero, hcls, hreply, hter, hseq, hage, hpri, hlaunch⟩
  · split
    · exact (Packet.headFlit_byte p ‹_›).symm
    · exact (Packet.bodyFlit_byte p (by omega)).symm
end Sys2Proof.Machine

end

/-! # The instructions of a core (R14, R17, R22, R23, R26, R55, R69–R71, R77–R80, R126, R133, R171, R182, R205, R234, R238, R239) -/

section

namespace Sys2Proof.Machine

/-! ### Registers (R14) -/

theorem pairLo_ne_pairHi (p q : Pair) : pairLo p ≠ pairHi q := by
  unfold pairLo pairHi; bv_omega
theorem pairHi_ne_zero (p : Pair) : pairHi p ≠ 0 := by
  unfold pairHi; bv_omega
theorem pairLo_eq_zero {p : Pair} : pairLo p = 0 ↔ p = 0 := by
  unfold pairLo; bv_omega
theorem pairLo_inj {p q : Pair} : pairLo p = pairLo q ↔ p = q := by
  unfold pairLo; bv_omega
theorem pairHi_inj {p q : Pair} : pairHi p = pairHi q ↔ p = q := by
  unfold pairHi; bv_omega
theorem hi32_append_lo32 (v : DWord) : hi32 v ++ lo32 v = v := by
  refine BitVec.eq_of_getLsbD_eq fun i hi => ?_
  rw [BitVec.getLsbD_append]
  unfold hi32 lo32
  split
  · simp_all
  · rw [BitVec.getLsbD_setWidth, BitVec.getLsbD_ushiftRight, show 32 + (i - 32) = i by omega]
    simp [show i - 32 < 32 by omega]
/-- A scalar after a write of a pair: one of the pair's two, or as it was. -/
theorem Regs.getS_setD (r : Regs) (p : Pair) (v : DWord) (i : Reg) (hp : p ≠ 0) :
    (r.setD p v).getS i = if i = pairHi p then hi32 v else if i = pairLo p then lo32 v else r.getS i := by
  rw [Regs.setD_eq, if_neg hp, Regs.getS_setS, Regs.getS_setS]
  have hh := pairHi_ne_zero p
  have hl := mt pairLo_eq_zero.1 hp
  by_cases hi : i = 0
  · subst hi
    rw [if_pos rfl, if_neg (Ne.symm hh), if_neg (Ne.symm hl)]
    rfl
  · rw [if_neg hi, if_neg hi]
/-- A pair after a write of a pair; d0 stays 0. -/
theorem Regs.getD_setD (r : Regs) (p q : Pair) (v : DWord) : (r.setD p v).getD q = if q = 0 then 0 else if q = p then v else r.getD q := by
  by_cases hq : q = 0
  · simp [Regs.getD, hq]
  rw [if_neg hq, Regs.getD, if_neg hq]
  by_cases hp : p = 0
  · rw [if_neg (fun h => hq (h.trans hp)), Regs.setD_eq, if_pos hp, Regs.getD, if_neg hq]
  rw [Regs.getS_setD _ _ _ _ hp, Regs.getS_setD _ _ _ _ hp]
  by_cases h : q = p
  · subst h
    rw [if_pos rfl, if_pos rfl, if_neg (pairLo_ne_pairHi q q), if_pos rfl, hi32_append_lo32]
  · rw [if_neg h, if_neg (mt pairHi_inj.1 h), if_neg (pairLo_ne_pairHi p q).symm, if_neg (pairLo_ne_pairHi q p), if_neg (mt pairLo_inj.1 h),
      Regs.getD, if_neg hq]
/-- A vector register after a write of one: v0 of the firing, the others of the context. -/
theorem State.v_setV (s : State) (i j : Reg) (v : Vec) : (s.setV i v).v j = if j = i then v else s.v j := by
  unfold State.setV State.v
  by_cases hi : i = 0
  · subst hi
    rw [if_pos rfl]
    by_cases hj : j = 0
    · rw [if_pos hj, if_pos hj]; rfl
    · rw [if_neg hj, if_neg hj, if_neg hj]; rfl
  rw [if_neg hi]
  by_cases h : j = i
  · subst h
    rw [if_neg hi, if_pos rfl]
    exact Vector.getElem_set_self (by omega)
  · rw [if_neg h, State.setProg_prog, State.setProg_regs, Vector.getElem_set_ne _ _ fun e => h (BitVec.eq_of_toNat_eq e.symm)]

/-- Settles O8: the lemmas on reads after writes of each register file. -/
theorem registersReadWhatWasWritten : Obligations.RegistersReadWhatWasWritten := fun s =>
  ⟨fun _ _ _ => Regs.getS_setS .., fun _ _ _ => Regs.getD_setD .., fun _ _ _ => Regs.getM_setM .., fun _ _ _ => s.v_setV ..,
    fun _ hp => if_neg hp, rfl, rfl, rfl⟩

/-! ### A core's turn (R26, R55, R184, R187) -/

/-- With its line in the cache and its word decoded, a core's turn is the instruction's meaning. -/
theorem State.coreTurn_decoded {s : State} {i : Instr} {n : Nat} (hr : s.core.status = .running) (hl : s.lineHere = true)
    (hd : decode s.fetched = .ok i n) (hw : s.windowSpent = false) : s.coreTurn = exec i s.opened := by
  have hd' : decode s.opened.fetched = .ok i n := hd
  have hw' : s.opened.windowSpent = false := hw
  simp [State.coreTurn, hr, hl, State.execAt, hd', hw']

/-- Settles O4: the turn is the instruction's meaning on the opened chunk, and `step` settles what it leaves. -/
theorem stepRunsDecoded : Obligations.StepRunsDecoded := by
  intro s i n ht hr hl hd hw
  have hact : s.act = exec i s.opened := by
    rw [State.act, ht]
    exact State.coreTurn_decoded hr hl hd hw
  rw [step, hact]
  cases exec i s.opened <;> rfl

/-! ### Completing an instruction (R26, R55, R69–R71) -/

/-- The instruction at the pc, of `w` words, is the last of a level's body. -/
def Regs.ends (r : Regs) (w : Nat) (l : Level) : Bool := l.holds r.pc && decide (l.stop = r.pc + BitVec.ofNat 32 (4 * w))
/-- Past the instruction at the pc. -/
def Regs.past (r : Regs) (w : Nat) : Regs := { r with pc := r.pc + BitVec.ofNat 32 (4 * w) }
/-- A level's induction register steps; s0 stays 0 (R69). -/
def Level.stepped (l : Level) (x : Reg → Word) (r : Reg) : Word := if r = l.rd ∧ r ≠ 0 then x r + l.stride else x r

theorem Regs.getS_stepped (r : Regs) (l : Level) (i : Reg) : (r.setS l.rd (r.getS l.rd + l.stride)).getS i = l.stepped r.getS i := by
  rw [Regs.getS_setS, Level.stepped]
  by_cases hi : i = 0
  · rw [if_pos hi, if_neg fun h => h.2 hi, hi]; rfl
  · by_cases h : i = l.rd
    · rw [if_neg hi, if_pos h, if_pos ⟨h, hi⟩, h]
    · rw [if_neg hi, if_neg h, if_neg fun e => h e.1]
/-- The end of an iteration of level 0: its induction register steps, level 1 stays. -/
theorem Regs.end0_spec (r : Regs) : (r.end0).l1 = r.l1 ∧ (∀ i, (r.end0).getS i = r.l0.stepped r.getS i)
    ∧ (if r.l0.count = 1 then (r.end0).l0 = .shut ∧ (r.end0).pc = r.pc
        else (r.end0).l0 = { r.l0 with count := r.l0.count - 1 } ∧ (r.end0).pc = r.l0.start) := by
  unfold Regs.end0
  by_cases h : r.l0.count = 1
  · rw [if_pos h, if_pos h]
    exact ⟨Regs.setS_l1 .., r.getS_stepped r.l0, rfl, Regs.setS_pc ..⟩
  · rw [if_neg h, if_neg h]
    exact ⟨Regs.setS_l1 .., r.getS_stepped r.l0, rfl, rfl⟩
/-- The end of an iteration of level 1: its induction register steps, level 0 stays. -/
theorem Regs.end1_spec (r : Regs) : (r.end1).l0 = r.l0 ∧ (∀ i, (r.end1).getS i = r.l1.stepped r.getS i)
    ∧ (if r.l1.count = 1 then (r.end1).l1 = .shut ∧ (r.end1).pc = r.pc
        else (r.end1).l1 = { r.l1 with count := r.l1.count - 1 } ∧ (r.end1).pc = r.l1.start) := by
  unfold Regs.end1
  by_cases h : r.l1.count = 1
  · rw [if_pos h, if_pos h]
    exact ⟨Regs.setS_l0 .., r.getS_stepped r.l1, rfl, Regs.setS_pc ..⟩
  · rw [if_neg h, if_neg h]
    exact ⟨Regs.setS_l0 .., r.getS_stepped r.l1, rfl, rfl⟩
/-- A body that ends here began before the byte after the instruction. -/
theorem Regs.start_ne_of_ends {r : Regs} {w : Nat} {l : Level} (h : r.ends w l = true) : l.start ≠ (r.past w).pc := by
  simp only [Regs.ends, Level.holds, Bool.and_eq_true, decide_eq_true_eq] at h
  obtain ⟨⟨⟨-, hlo⟩, hhi⟩, he⟩ := h
  intro hs
  have : l.start = l.stop := hs.trans he.symm
  rw [this] at hlo
  omega
theorem Regs.advance_eq (r : Regs) (w : Nat) : r.advance w =
    (let q := if r.ends w r.l1 then (r.past w).end1 else r.past w
     if r.ends w r.l0 && q.pc == (r.past w).pc then q.end0 else q) := rfl
theorem Regs.advance_none {r : Regs} {w : Nat} (h0 : r.ends w r.l0 = false) (h1 : r.ends w r.l1 = false) : r.advance w = r.past w := by
  simp [Regs.advance_eq, h0, h1]
theorem Regs.advance_end0 {r : Regs} {w : Nat} (h0 : r.ends w r.l0 = true) (h1 : r.ends w r.l1 = false) : r.advance w = (r.past w).end0 := by
  simp [Regs.advance_eq, h0, h1]
/-- Level 1 goes back to its start, and level 0 stays as it is (R71). -/
theorem Regs.advance_back1 {r : Regs} {w : Nat} (h1 : r.ends w r.l1 = true) (hc : r.l1.count ≠ 1) : r.advance w = (r.past w).end1 := by
  obtain ⟨-, -, hs⟩ := (r.past w).end1_spec
  rw [if_neg (show ¬ (r.past w).l1.count = 1 from hc)] at hs
  have hpc : (r.past w).end1.pc = r.l1.start := hs.2
  simp [Regs.advance_eq, h1, hpc, Regs.start_ne_of_ends h1]
theorem Regs.advance_end1 {r : Regs} {w : Nat} (h0 : r.ends w r.l0 = false) (h1 : r.ends w r.l1 = true) : r.advance w = (r.past w).end1 := by
  simp [Regs.advance_eq, h0, h1]
/-- Level 1 closes, and level 0's iteration ends too (R71). -/
theorem Regs.advance_both {r : Regs} {w : Nat} (h0 : r.ends w r.l0 = true) (h1 : r.ends w r.l1 = true) (hc : r.l1.count = 1) :
    r.advance w = (r.past w).end1.end0 := by
  obtain ⟨-, -, hs⟩ := (r.past w).end1_spec
  rw [if_pos (show (r.past w).l1.count = 1 from hc)] at hs
  have hpc : (r.past w).end1.pc = (r.past w).pc := hs.2
  simp [Regs.advance_eq, h0, h1, hpc]

/-- Settles O9: the case of `Regs.advance` that the two bodies' ends select. -/
theorem completionMovesPastOrLoops : Obligations.CompletionMovesPastOrLoops := by
  intro s w t past ends stepped l0 l1
  obtain ⟨hregs, hchunk, -, -, -, -, -, hstatus⟩ := s.retire_spec w
  have ht : t.regs = s.regs.advance w := hregs
  have hs : ∀ r, t.s r = (s.regs.advance w).getS r := fun r => by rw [State.s, ht]
  have hpc : t.pc = (s.regs.advance w).pc := by rw [State.pc, ht]
  rw [hpc, ht]
  simp only [hs]
  refine ⟨by rw [hchunk], hstatus, fun h0 h1 => ?_, fun h0 h1 => ?_, fun h1 hc => ?_, fun h0 h1 hc => ?_, fun h0 h1 hc => ?_⟩
  · rw [Regs.advance_none h0 h1]
    exact ⟨rfl, rfl, rfl, fun _ => rfl⟩
  · rw [Regs.advance_end0 h0 h1]
    exact (s.regs.past w).end0_spec
  · rw [Regs.advance_back1 h1 hc]
    obtain ⟨hl0, hr, hl1⟩ := (s.regs.past w).end1_spec
    rw [if_neg (show ¬ (s.regs.past w).l1.count = 1 from hc)] at hl1
    exact ⟨hl0, hl1.1, hl1.2, hr⟩
  · rw [Regs.advance_end1 h0 h1]
    obtain ⟨hl0, hr, hl1⟩ := (s.regs.past w).end1_spec
    rw [if_pos (show (s.regs.past w).l1.count = 1 from hc)] at hl1
    exact ⟨hl0, hl1.1, hl1.2, hr⟩
  · rw [Regs.advance_both h0 h1 hc]
    obtain ⟨hl0, hr1, hl1⟩ := (s.regs.past w).end1_spec
    obtain ⟨h1', hr0, hl0'⟩ := (s.regs.past w).end1.end0_spec
    rw [if_pos (show (s.regs.past w).l1.count = 1 from hc)] at hl1
    rw [hl0] at hl0' hr0
    rw [hl1.2] at hl0'
    exact ⟨h1'.trans hl1.1, fun r => (hr0 r).trans (by rw [funext hr1]; rfl), hl0'⟩

/-! ### What completing an instruction leaves as it was (R69, R70) -/

theorem State.SameMemory.of {s t : State} (hg : t.gmem = s.gmem := by rfl) (hc : t.cur = s.cur := by rfl) (ho : t.others = s.others := by rfl)
    (hk : t.core.mem = s.core.mem := by rfl) : s.SameMemory t := by
  refine ⟨fun a => by rw [hg], fun c a => ?_⟩
  unfold State.coreAt
  rw [hc, ho]
  split
  · rw [hk]
  · rfl
theorem State.SameMemory.trans {s t u : State} (h : s.SameMemory t) (h' : t.SameMemory u) : s.SameMemory u :=
  ⟨fun a => (h'.1 a).trans (h.1 a), fun c a => (h'.2 c a).trans (h.2 c a)⟩

theorem Level.stepped_other {l : Level} {x : Reg → Word} {i : Reg} (h : i ≠ l.rd) : l.stepped x i = x i := if_neg fun e => h e.1
theorem Regs.on_of_ends {r : Regs} {w : Nat} {l : Level} (h : r.ends w l = true) : l.on = true := by
  simp only [Regs.ends, Level.holds, Bool.and_eq_true] at h
  exact h.1.1.1
/-- Advancing steps no scalar but the induction registers of open levels. -/
theorem Regs.getS_advance (r : Regs) (w : Nat) {i : Reg} (h0 : r.l0.on = true → i ≠ r.l0.rd) (h1 : r.l1.on = true → i ≠ r.l1.rd) :
    (r.advance w).getS i = r.getS i := by
  obtain ⟨e1l, e1s, -⟩ := (r.past w).end1_spec
  have step1 : (r.past w).l1.on = true → (r.past w).end1.getS i = r.getS i := fun h => (e1s i).trans (Level.stepped_other (h1 h))
  rw [Regs.advance_eq]
  extract_lets q
  have hq : q.getS i = r.getS i ∧ q.l0 = r.l0 := by
    unfold q
    split
    · exact ⟨step1 (Regs.on_of_ends ‹_›), e1l⟩
    · exact ⟨rfl, rfl⟩
  split
  · have h := Bool.and_eq_true_iff.1 ‹_›
    exact (q.end0_spec.2.1 i).trans ((Level.stepped_other (hq.2 ▸ h0 (Regs.on_of_ends h.1))).trans hq.1)
  · exact hq.1
theorem State.retire_s (s : State) (w : Nat) {r : Reg} (h : r ∉ s.loopRegs) : (s.retire w).s r = s.s r := by
  have hne : ∀ l : Level, r ∉ (if l.on then [l.rd] else []) → l.on = true → r ≠ l.rd := by
    intro l hl ho
    rw [if_pos ho] at hl
    simpa using hl
  rw [State.loopRegs, List.mem_append, not_or] at h
  rw [State.s, (s.retire_spec w).1]
  exact Regs.getS_advance _ _ (hne _ h.1) (hne _ h.2)
theorem State.retire_m (s : State) (w : Nat) (m : MReg) : (s.retire w).m m = s.m m := by
  rw [State.m, (s.retire_spec w).1, Regs.getM, (s.regs.advance_rest w).1]
  rfl
theorem State.retire_v0 (s : State) (w : Nat) : (s.retire w).regs.v0 = s.regs.v0 := by
  rw [(s.retire_spec w).1, (s.regs.advance_rest w).2.1]
theorem State.retire_ctx (s : State) (w : Nat) : (s.retire w).ctx = s.ctx := (s.retire_spec w).2.2.1

theorem State.SameRest.trans {s t u : State} (h : s.SameRest t) (h' : t.SameRest u) : s.SameRest u := by
  obtain ⟨hm, hs, ht, hc, hf, hk, hj, he⟩ := h
  obtain ⟨hm', hs', ht', hc', hf', hk', hj', he'⟩ := h'
  refine ⟨hm.trans hm', hs'.trans ?_, fun k => (ht' k).trans ?_, hc'.trans ?_, hf'.trans ?_, hk'.trans ?_, hj'.trans hj, he'.trans he⟩
  · rw [hs]
  · rw [ht k]
  · rw [hc]
  · rw [hf]
  · rw [hk]
theorem State.sameRest_setRegs (s : State) (r : Regs) (hj : r.j = s.regs.j) (he : r.ext = s.regs.ext) : s.SameRest (s.setRegs r) :=
  ⟨.of, rfl, fun _ => rfl, rfl, rfl, rfl, hj, he⟩
theorem State.sameRest_setProg (s : State) (p : Prog) : s.SameRest (s.setProg p) := ⟨.of, rfl, fun _ => rfl, rfl, rfl, rfl, rfl, rfl⟩
theorem State.sameRest_counted (s : State) : s.SameRest s.counted := ⟨.of, rfl, fun _ => rfl, rfl, rfl, rfl, rfl, rfl⟩
theorem State.sameRest_endChunk (s : State) (a : After) : s.SameRest (s.endChunk a) := by
  refine ⟨.of, rfl, fun k => ?_, rfl, rfl, rfl, rfl, rfl⟩
  rw [State.endChunk, State.tileAt_onTile]
  split
  · next h => rw [h.1]; rfl
  · rfl
theorem State.sameRest_full (s : State) : s.SameRest s.full := by
  rw [State.full_cases]
  split
  · exact s.sameRest_endChunk _
  · exact ⟨.of, rfl, fun _ => rfl, rfl, rfl, rfl, rfl, rfl⟩
theorem State.sameRest_retire (s : State) (w : Nat) : s.SameRest (s.retire w) := by
  obtain ⟨-, -, hj, he⟩ := s.regs.advance_rest w
  exact (s.sameRest_setRegs _ hj he).trans ((State.sameRest_counted _).trans (State.sameRest_full _))

/-! ### Register-only forms (R14, R57, R118, R123) -/

/-- The first registers with other values of these scalars alone. -/
def Regs.SameBut (r : Regs) (ds : List Reg) (r' : Regs) : Prop := r' = { r with s := r'.s } ∧ ∀ i, i ∉ ds → r'.getS i = r.getS i
theorem Regs.setS_sameBut (r : Regs) (d : Reg) (v : Word) : r.SameBut [d] (r.setS d v) := by
  refine ⟨by unfold Regs.setS; split <;> rfl, fun i hi => ?_⟩
  rw [Regs.getS_setS]
  by_cases h0 : i = 0
  · rw [if_pos h0, h0]; rfl
  · rw [if_neg h0, if_neg (by simpa using hi)]
theorem Regs.setD_sameBut (r : Regs) (p : Pair) (v : DWord) : r.SameBut (pairDest p) (r.setD p v) := by
  unfold pairDest
  by_cases hp : p = 0
  · rw [show r.setD p v = r from if_pos hp]; exact ⟨rfl, fun _ _ => rfl⟩
  · refine ⟨?_, fun i hi => ?_⟩
    · rw [Regs.setD_eq, if_neg hp, (Regs.setS_sameBut _ (pairHi p) (hi32 v)).1, (Regs.setS_sameBut r (pairLo p) (lo32 v)).1]
    · rw [if_neg hp] at hi
      simp only [List.mem_cons, List.not_mem_nil, or_false, not_or] at hi
      rw [Regs.getS_setD _ _ _ _ hp, if_neg hi.2, if_neg hi.1]
/-- A register-only scalar form writes its destination and completes. -/
theorem exec_scalarDest {i : Instr} {ds : List Reg} (h : scalarDest i = some ds) (s : State) :
    (∃ d v, ds = [d] ∧ exec i s = s.giveS d v) ∨ ∃ p v, ds = pairDest p ∧ exec i s = s.giveD p v := by
  cases i
  case dadd | dsub | dand | dshl | dshr | dsra | dslt | dsltn | dmul | rdcyc | mvms | daddi | termap =>
    cases h; exact .inr ⟨_, _, rfl, rfl⟩
  case vext d va rb t =>
    cases h
    by_cases ht : t = .f64
    · rw [if_pos ht]; exact .inr ⟨_, _, rfl, if_pos ht⟩
    · rw [if_neg ht]; exact .inl ⟨_, _, rfl, if_neg ht⟩
  case add | sub | and | or | xor | andn | shl | shr | sra | ror | min | max | minn | maxn | slt | sltn | seq | sne | mul | mulh | mulhn | div | divn
      | rem | remn | bfx | bfi | clz | ctz | popc | brev | sextb | sexth | zextb | zexth | rdid | addi | andi | ori | xori | shli | shri | srai | slti
      | sltni | lui | li | muli | bstat | qstat | slstat | xidrd | mpop =>
    cases h; exact .inl ⟨_, _, rfl, rfl⟩
  all_goals cases h
/-- These registers of the context differ in nothing but flags, which have only accrued (R87). -/
def Prog.Accrues (p q : Prog) : Prop := q = { p with fflags := q.fflags } ∧ p.fflags &&& q.fflags = p.fflags
theorem Prog.accrues_refl (p : Prog) : p.Accrues p := ⟨rfl, BitVec.and_self⟩
theorem Prog.accrues_flag (p : Prog) (f : BitVec 5) : p.Accrues { p with fflags := p.fflags ||| f } := by
  refine ⟨rfl, BitVec.eq_of_getLsbD_eq fun i _ => ?_⟩
  simp only [BitVec.getLsbD_and, BitVec.getLsbD_or]
  cases p.fflags.getLsbD i <;> rfl
/-- A mask form writes its mask, accrues flags if it compares, and completes. -/
theorem exec_maskDest {i : Instr} {d : MReg} (h : maskDest i = some d) (s : State) :
    ∃ v p, s.prog.Accrues p ∧ exec i s = .next (((s.setM d v).setProg p).retire 1) := by
  cases i
  case vceq | vcne | vclt | vcle => cases h; exact ⟨_, _, Prog.accrues_flag _ _, rfl⟩
  case mvsm | mand | mor | mxor => cases h; exact ⟨_, _, Prog.accrues_refl _, rfl⟩
  all_goals cases h
theorem State.loopRegs_of {s t : State} (h0 : t.regs.l0 = s.regs.l0) (h1 : t.regs.l1 = s.regs.l1) : t.loopRegs = s.loopRegs := by
  rw [State.loopRegs, State.loopRegs, h0, h1]
/-- What a scalar form's completion leaves, by the registers that it has written. -/
theorem State.frame_scalar (s : State) {ds : List Reg} {r : Regs} (h : s.regs.SameBut ds r) (w : Nat) :
    let t := (s.setRegs r).retire w
    (∀ i, i ∉ ds → i ∉ s.loopRegs → t.s i = s.s i) ∧ (∀ m, t.m m = s.m m) ∧ t.regs.v0 = s.regs.v0 ∧ t.ctx = s.ctx ∧ s.SameRest t := by
  obtain ⟨hr, hs⟩ := h
  have hj : r.j = s.regs.j := by rw [hr]
  have he : r.ext = s.regs.ext := by rw [hr]
  have hl : (s.setRegs r).loopRegs = s.loopRegs := State.loopRegs_of (by rw [State.setRegs_regs, hr]) (by rw [State.setRegs_regs, hr])
  refine ⟨fun i hi hn => (State.retire_s _ w (hl ▸ hn)).trans (hs i hi), fun m => (State.retire_m _ w m).trans ?_, ?_, State.retire_ctx _ w,
    (s.sameRest_setRegs r hj he).trans (State.sameRest_retire _ w)⟩
  · rw [State.m, State.setRegs_regs, Regs.getM, hr]; rfl
  · rw [State.retire_v0, State.setRegs_regs, hr]
theorem Regs.setM_rest (r : Regs) (m : MReg) (v : DWord) : r.setM m v = { r with m := (r.setM m v).m } := by unfold Regs.setM; split <;> rfl
theorem State.frame_mask (s : State) (d : MReg) (v : DWord) {p : Prog} (h : s.prog.Accrues p) (w : Nat) :
    let t := ((s.setM d v).setProg p).retire w
    (∀ r, r ∉ s.loopRegs → t.s r = s.s r) ∧ (∀ m, m ≠ d → t.m m = s.m m) ∧ t.regs.v0 = s.regs.v0
      ∧ t.ctx = { s.ctx with prog := { s.prog with fflags := t.prog.fflags } } ∧ s.prog.fflags &&& t.prog.fflags = s.prog.fflags ∧ s.SameRest t := by
  intro t
  obtain ⟨hp, hf⟩ := h
  have hr := Regs.setM_rest s.regs d v
  have hl : ((s.setM d v).setProg p).loopRegs = s.loopRegs :=
    State.loopRegs_of (by rw [State.setProg_regs, State.setM, State.setRegs_regs, hr]) (by rw [State.setProg_regs, State.setM, State.setRegs_regs, hr])
  have hx : t.ctx = { s.ctx with prog := p } := State.retire_ctx _ w
  have hq : t.prog = p := congrArg Ctx.prog hx
  refine ⟨fun i hn => (State.retire_s _ w (hl ▸ hn)).trans ?_, fun m hm => (State.retire_m _ w m).trans ?_, ?_, ?_, by rw [hq, hf], ?_⟩
  · rw [State.s, State.setProg_regs, State.setM, State.setRegs_regs, hr]; rfl
  · rw [State.m, State.setProg_regs, State.setM, State.setRegs_regs, Regs.getM_setM]
    by_cases h0 : m = 0
    · rw [if_pos h0, h0]; rfl
    · rw [if_neg h0, if_neg hm]; rfl
  · rw [State.retire_v0, State.setProg_regs, State.setM, State.setRegs_regs, hr]
  · rw [hx, hq, ← hp]
  · have hm : s.SameRest (s.setM d v) := s.sameRest_setRegs _ (by rw [hr]) (by rw [hr])
    exact hm.trans ((State.sameRest_setProg _ p).trans (State.sameRest_retire _ w))

/-- Settles O21: a scalar form writes its destination, a mask form its mask and flags, and both complete. -/
theorem scalarAndMaskFormsChangeOnlyTheirDestination : Obligations.ScalarAndMaskFormsChangeOnlyTheirDestination := by
  intro i s t ht
  refine ⟨fun ds hd => ?_, fun d hd => ?_⟩
  · rcases exec_scalarDest hd s with ⟨d, v, rfl, he⟩ | ⟨p, v, rfl, he⟩ <;> cases ht.symm.trans he
    · exact s.frame_scalar (s.regs.setS_sameBut d v) 1
    · exact s.frame_scalar (s.regs.setD_sameBut p v) 1
  · obtain ⟨v, p, hp, he⟩ := exec_maskDest hd s
    cases ht.symm.trans he
    exact s.frame_mask d v hp 1

/-! ### Checks of an access (R22, R23) -/

theorem inTrans_iff {va : Nat} : inTrans va = true ↔ 0x10000000000 ≤ va ∧ va < 0x1000000000000 := by simp [inTrans]
/-- The checks of an access give the first cause that R23 gives it. -/
theorem State.check_eq_cause (s : State) (ea : DWord) (n : Nat) (w : Bool) : s.check ea n w = s.cause ea.toNat n w := by
  unfold State.check State.cause place
  by_cases ha : ea.toNat % n ≠ 0
  · rw [if_pos ha, if_pos ha]
  rw [if_neg ha, if_neg ha]
  by_cases hown : ea.toNat < 0x18000
  · simp only [if_pos hown]
    simp [Ctx.covers]
  simp only [if_neg hown]
  by_cases hg : 0x100000000 ≤ ea.toNat ∧ ea.toNat < 0x140000000
  · rw [if_pos hg, if_pos (show 0x100000000 ≤ ea.toNat ∧ ea.toNat < 0x100000000 + 2 ^ 30 from hg)]
    by_cases ho : 0x18000 ≤ ea.toNat % 0x20000
    · simp only [if_pos ho]
      rw [if_neg (show ¬ ea.toNat % 2 ^ 17 < 0x18000 by omega)]
    · simp only [if_neg ho]
      rw [if_pos (show ea.toNat % 2 ^ 17 < 0x18000 by omega)]
      rfl
  rw [if_neg hg, if_neg (show ¬ (0x100000000 ≤ ea.toNat ∧ ea.toNat < 0x100000000 + 2 ^ 30) from hg)]
  by_cases ht : 0x10000000000 ≤ ea.toNat ∧ ea.toNat < 0x1000000000000
  · rw [if_pos ht, if_pos (inTrans_iff.2 ht)]
    unfold State.xlate
    dsimp only
    cases s.leafAt s.ctx.vdev ea.toNat with
    | none => rfl
    | some l => dsimp only; cases (if w then l.wr else l.rd) <;> rfl
  · rw [if_neg ht, if_neg (mt inTrans_iff.1 ht)]
theorem State.trapAt_eq (s : State) (e : Byte) (ea : DWord) :
    s.trapAt e ea = s.trap e (BitVec.ofNat 32 ea.toNat) (BitVec.ofNat 32 (ea.toNat / 2 ^ 32)) := by
  have hlo : lo32 ea = BitVec.ofNat 32 ea.toNat := BitVec.eq_of_toNat_eq (by simp [lo32])
  have hhi : hi32 ea = BitVec.ofNat 32 (ea.toNat / 2 ^ 32) := BitVec.eq_of_toNat_eq (by simp [hi32, Nat.shiftRight_eq_div_pow])
  rw [State.trapAt, hlo, hhi]

/-! ### Scalar loads and stores (R77, R80) -/

section
variable {s : State} {base : Pair} {off : BitVec 24} {p : Option Pred} {e : Byte}

theorem exec_loadForm {f} (hf : f ∈ loadForms) (rt : Reg) : exec (f.1 rt base off p) s = s.loadS (.scalar f.2.2) rt f.2.1 base off p := by
  simp only [loadForms, List.mem_cons, List.not_mem_nil, or_false] at hf
  rcases hf with rfl | rfl | rfl | rfl | rfl <;> rfl
theorem exec_storeForm {f} (hf : f ∈ storeForms) (rt : Reg) : exec (f.1 rt base off p) s = s.storeS (leBytes f.2 (s.s rt).toNat) base off p := by
  simp only [storeForms, List.mem_cons, List.not_mem_nil, or_false] at hf
  rcases hf with rfl | rfl | rfl <;> rfl
theorem State.loadS_trap {kind rt n} (hp : s.pred p = true) (h : s.cause (s.ea base off).toNat n false = some e) :
    s.loadS kind rt n base off p = .next (s.trapAt e (s.ea base off)) := by
  rw [State.loadS, if_pos hp]
  dsimp only
  rw [State.check_eq_cause, h]
theorem State.storeS_trap {bs} (hp : s.pred p = true) (h : s.cause (s.ea base off).toNat bs.length true = some e) :
    s.storeS bs base off p = .next (s.trapAt e (s.ea base off)) := by
  rw [State.storeS, if_pos hp]
  dsimp only
  rw [State.check_eq_cause, h]
theorem State.storeS_checked {bs} (hp : s.pred p = true) (h : s.cause (s.ea base off).toNat bs.length true = none) :
    s.storeS bs base off p = s.storeAll false 1 [(s.ea base off, bs)] := by
  rw [State.storeS, if_pos hp]
  dsimp only
  rw [State.check_eq_cause, h]
end

/-- A store is held with its bytes and the place that its write translates to; registers, context and memories stay. -/
theorem State.holdStore_spec (s : State) (rows : Bool) (ea : DWord) (bs : List Byte) :
    let key := if inTrans ea.toNat then (s.xlate s.ctx.vdev ea.toNat true).toOption else none
    let t := s.holdStore rows ea bs
    t.chunk.held = s.chunk.held ++ [.store ea key bs rows s.pc] ∧ t.chunk.stbuf = s.chunk.stbuf ∧ t.regs = s.regs ∧ t.ctx = s.ctx ∧ s.SameMemory t := by
  intro key t
  unfold t State.holdStore State.noteWrite
  dsimp only
  split <;> exact ⟨rfl, rfl, rfl, rfl, .of⟩
/-- A scalar store that fits the store buffer is held and completes. -/
theorem State.storeAll_fits {s : State} (ea : DWord) (bs : List Byte) (h : s.chunk.stbuf < 128) :
    let key := if inTrans ea.toNat then (s.xlate s.ctx.vdev ea.toNat true).toOption else none
    ∃ t, s.storeAll false 1 [(ea, bs)] = .next t ∧ t.chunk.held = s.chunk.held ++ [.store ea key bs false s.pc] ∧ t.chunk.stbuf = s.chunk.stbuf + 1
      ∧ s.SameMemory t ∧ t.ctx = s.ctx ∧ (∀ r, r ∉ s.loopRegs → t.s r = s.s r) ∧ ∀ m, t.m m = s.m m := by
  intro key
  obtain ⟨hh, hb, hr, hc, hm⟩ := s.holdStore_spec false ea bs
  let u := (s.holdStore false ea bs).setChunk { (s.holdStore false ea bs).chunk with stbuf := (s.holdStore false ea bs).chunk.stbuf + 1 }
  have hu : u.regs = s.regs := hr
  have hl : u.loopRegs = s.loopRegs := State.loopRegs_of (by rw [hu]) (by rw [hu])
  obtain ⟨-, hchunk, hctx, -⟩ := u.retire_spec 2
  have hmem : s.SameMemory u := hm.trans .of
  refine ⟨u.retire 2, if_neg (by omega), ?_, ?_, hmem.trans (u.retire_sameMemory 2), hctx.trans hc, fun r hn => ?_, fun m => ?_⟩
  · rw [hchunk]; exact hh
  · rw [hchunk]; exact congrArg (· + 1) hb
  · rw [State.retire_s u 2 (hl ▸ hn), State.s, hu]; rfl
  · rw [State.retire_m, State.m, hu]; rfl
theorem State.storeAll_full {s : State} {rows : Bool} {ws : List (DWord × List Byte)} (h : 128 ≤ s.chunk.stbuf) :
    s.storeAll rows 1 ws = .next (s.endChunk .run) := if_pos (by omega)

/-- Settles O30: a checked store is `State.storeAll` of its one address and bytes. -/
theorem storesAreHeldAtTheirAddress : Obligations.StoresAreHeldAtTheirAddress := by
  intro s base off p hp ea key holds
  have stored {i : Instr} {bs : List Byte} (hi : exec i s = s.storeS bs base off p) : holds i bs := fun hc => by
    rw [hi, State.storeS_checked hp hc]
    exact ⟨fun h => State.storeAll_fits _ _ h, fun h => State.storeAll_full h⟩
  exact ⟨fun f hf rt => stored (exec_storeForm hf rt), fun rt => stored rfl⟩

/-! ### The first cause of a vector access (R126) -/

theorem State.lanesOn_ne_nil {s : State} {m : MReg} {n : Nat} (h : ∃ i, i < n ∧ (s.m m).getLsbD i = true) : s.lanesOn m n ≠ [] := by
  obtain ⟨i, hi, ha⟩ := h
  exact List.ne_nil_of_mem (List.mem_filter.2 ⟨List.mem_range.2 hi, ha⟩)
theorem State.firstFault_append {s : State} {w : Bool} {l k : List (DWord × Nat × Nat)} (h : ∀ p ∈ l, s.check p.1 p.2.2 w = none) :
    s.firstFault w (l ++ k) = s.firstFault w k := by
  induction l with
  | nil => rfl
  | cons p l ih =>
    rw [List.cons_append, State.firstFault, h p (List.mem_cons_self ..)]
    exact ih fun q hq => h q (List.mem_cons_of_mem _ hq)
/-- The lanes of a mask before a lane, the lane, and those behind it. -/
theorem filter_range_split {n i : Nat} {on : Nat → Bool} (hi : i < n) (ho : on i = true) :
    ∃ k, (List.range n).filter on = (List.range i).filter on ++ i :: k := by
  obtain ⟨d, rfl⟩ : ∃ d, n = i + (d + 1) := ⟨n - i - 1, by omega⟩
  exact ⟨_, by rw [List.range_add, List.filter_append, List.range_succ_eq_map, List.map_cons, Nat.add_zero, List.filter_cons_of_pos ho]⟩
/-- The first active lane whose check fails gives the fault. -/
theorem State.firstFault_lanes {s : State} {w : Bool} {n i size : Nat} {on : Nat → Bool} {addr : Nat → DWord} {at_ : Nat → Nat} {e : Byte} (hi : i < n)
    (ho : on i = true) (hc : s.cause (addr i).toNat size w = some e) (hb : ∀ j, j < i → on j = true → s.cause (addr j).toNat size w = none) :
    s.firstFault w (((List.range n).filter on).map fun i => (addr i, at_ i, size)) = some (e, addr i) := by
  obtain ⟨k, hk⟩ := filter_range_split hi ho
  rw [hk, List.map_append, State.firstFault_append]
  · rw [List.map_cons, State.firstFault, State.check_eq_cause, hc]
  · intro p hp
    obtain ⟨j, hj, rfl⟩ := List.mem_map.1 hp
    obtain ⟨hr, ha⟩ := List.mem_filter.1 hj
    rw [State.check_eq_cause]
    exact hb j (List.mem_range.1 hr) ha

section
variable {s : State} {base : Pair} {off : BitVec 24} {p : Option Pred} {e : Byte} {v : Reg} {m : MReg}

theorem exec_vld_trap (hp : s.pred p = true) (hm : ∃ i, i < 16 ∧ (s.m m).getLsbD i = true) (h : s.cause (s.ea base off).toNat 64 false = some e) :
    exec (.vld v base off m p) s = .next (s.trapAt e (s.ea base off)) := by
  show execVld v base off m p s = _
  rw [execVld]
  dsimp only
  rw [if_pos ⟨hp, State.lanesOn_ne_nil hm⟩, State.check_eq_cause, h]
theorem exec_vst_trap (hp : s.pred p = true) (hm : ∃ i, i < 16 ∧ (s.m m).getLsbD i = true) (h : s.cause (s.ea base off).toNat 64 true = some e) :
    exec (.vst v base off m p) s = .next (s.trapAt e (s.ea base off)) := by
  show execVst v base off m p s = _
  rw [execVst]
  dsimp only
  rw [if_pos ⟨hp, State.lanesOn_ne_nil hm⟩, State.check_eq_cause, h]
theorem exec_vldbc_trap {size : BitVec 2} (hp : s.pred p = true) (hm : ∃ i, i < 64 / 2 ^ size.toNat ∧ (s.m m).getLsbD i = true)
    (h : s.cause (s.ea base off).toNat (2 ^ size.toNat) false = some e) :
    exec (.vldbc v size base off m p) s = .next (s.trapAt e (s.ea base off)) := by
  show execVldbc v size base off m p s = _
  rw [execVldbc]
  dsimp only
  rw [if_pos ⟨hp, State.lanesOn_ne_nil hm⟩, State.check_eq_cause, h]

variable {d : Bool} {idx : Reg} {a : DWord}

theorem State.laneAddrs_of_firstFault {w : Bool} (h : s.firstFault w (s.laneAddrs d base off m idx) = some (e, a)) :
    (s.laneAddrs d base off m idx).isEmpty = false := by
  cases hl : s.laneAddrs d base off m idx with
  | nil => rw [hl] at h; cases h
  | cons => rfl
theorem exec_vgath_trap (h : s.firstFault false (s.laneAddrs d base off m idx) = some (e, a)) :
    exec (.vgath v d base off m idx) s = .next (s.trapAt e a) := by
  show execVgath v d base off m idx s = _
  simp only [execVgath, State.laneAddrs_of_firstFault h, h, Bool.false_eq_true, if_false]
theorem exec_vscat_trap (h : s.firstFault true (s.laneAddrs d base off m idx) = some (e, a)) :
    exec (.vscat v d base off m idx) s = .next (s.trapAt e a) := by
  show execVscat v d base off m idx s = _
  simp only [execVscat, State.laneAddrs_of_firstFault h, h, Bool.false_eq_true, if_false]
end

/-- Settles O33: each form's trap by the check of its address, a gather's and scatter's by the first lane that fails. -/
theorem accessesTrapInTheirOrder : Obligations.AccessesTrapInTheirOrder := by
  refine ⟨fun s base off p e hp => ?_, fun s v idx d base off m i e => ?_⟩
  · intro ea trap
    have ht : s.trapAt e ea = trap := s.trapAt_eq e ea
    rw [← ht]
    refine ⟨fun f hf rt h => ?_, fun f hf rt h => ?_, fun rt h => ?_, fun rt h => ?_, fun v m hm => ⟨exec_vld_trap hp hm, exec_vst_trap hp hm, fun size hs => exec_vldbc_trap hp hs⟩⟩
    · rw [exec_loadForm hf]; exact State.loadS_trap hp h
    · rw [exec_storeForm hf]; exact State.storeS_trap hp (by rwa [length_leBytes])
    · exact State.loadS_trap (kind := .pair) (rt := pairLo rt) hp h
    · exact State.storeS_trap (bs := leBytes 8 (s.d rt).toNat) hp (by rwa [length_leBytes])
  · intro n at' trap first hi ha
    have ht : s.trapAt e (at' i) = trap := s.trapAt_eq e (at' i)
    have fault {w : Bool} (h : first w) : s.firstFault w (s.laneAddrs d base off m idx) = some (e, at' i) := State.firstFault_lanes hi ha h.1 h.2
    rw [← ht]
    exact ⟨fun h => exec_vgath_trap (fault h), fun h => exec_vscat_trap (fault h)⟩

/-! ### What an access to a scratchpad leaves of its core (R128–R140, R234) -/

/-- The first core with other banks: bytes, parity, stored errors with their counts and log, and what its private port has still to perform and to see. -/
def Core.OtherBanks (k k' : Core) : Prop :=
  k' = { k with mem := k'.mem, stale := k'.stale, waits := k'.waits, flips := k'.flips, poison := k'.poison, fixes := k'.fixes, lasting := k'.lasting,
                errcnt := k'.errcnt, einj := k'.einj, errlog := k'.errlog, doubles := k'.doubles, port := k'.port, lag := k'.lag }

namespace Core.OtherBanks

theorem refl (k : Core) : k.OtherBanks k := rfl
theorem trans {k k' k'' : Core} (h : k.OtherBanks k') (h' : k'.OtherBanks k'') : k.OtherBanks k'' := Eq.trans h' (by rw [h])
theorem ite {p : Prop} [Decidable p] {k a b : Core} (ha : k.OtherBanks a) (hb : k.OtherBanks b) : k.OtherBanks (if p then a else b) := by
  split <;> assumption
theorem foldl {α : Type} (l : List α) (f : Core → α → Core) (hf : ∀ (k : Core) a, k.OtherBanks (f k a)) (k : Core) : k.OtherBanks (l.foldl f k) := by
  induction l generalizing k with
  | nil => exact refl k
  | cons a l ih => exact (hf k a).trans (ih _)
theorem foldl₂ {α β : Type} (l : List α) (f : Core × β → α → Core × β) (hf : ∀ (q : Core × β) a, q.1.OtherBanks (f q a).1) (q : Core × β) :
    q.1.OtherBanks (l.foldl f q).1 := by
  induction l generalizing q with
  | nil => exact refl _
  | cons a l ih => exact (hf q a).trans (ih _)
theorem logErr (k : Core) (b r : Nat) (cl : Byte) (x : Half) (cy : DWord) (y : Byte) : k.OtherBanks (k.logErr b r cl x cy y) := rfl
theorem inject (k : Core) (b r : Nat) : k.OtherBanks (k.inject b r) := by
  unfold Core.inject
  exact ite rfl (refl k)
theorem cleanWord (k : Core) (b r : Nat) : k.OtherBanks (k.cleanWord b r) := rfl
theorem sense (k : Core) (b r : Nat) : k.OtherBanks (k.sense b r).1 := (inject k b r).trans rfl
theorem toFix (k : Core) (b r : Nat) : k.OtherBanks (k.toFix b r) := ite (refl k) rfl
theorem corrected (k : Core) (b r : Nat) (x : Half) (cy : DWord) (y : Byte) : k.OtherBanks (k.corrected b r x cy y) := 
  (show k.OtherBanks { k.logErr b r 1 x cy y with errcnt := bump k.errcnt 0 } from rfl).trans (toFix ..)
theorem markStale (k : Core) (w : Nat) : k.OtherBanks (k.markStale w) := ite (refl k) rfl
theorem busy (k : Core) (gs : List Nat) : k.OtherBanks (k.busy gs) := ite (refl k) rfl
theorem assist (k : Core) (b r : Nat) (x : Half) (cy : DWord) (y : Byte) : k.OtherBanks (k.assist b r x cy y).1 := by
  have hs := sense k b r
  unfold Core.assist
  dsimp only
  split
  · exact hs
  split
  · exact hs
  · exact hs.trans (corrected ..)
  · dsimp only
    split
    exacts [hs.trans (markStale ..), hs]
theorem siblings (k : Core) (b r : Nat) (x : Half) (cy : DWord) (y : Byte) : k.OtherBanks (k.siblings b r x cy y).1 := by
  unfold Core.siblings
  refine foldl₂ _ _ (fun q a => ?_) (k, true)
  exact assist ..
theorem readDirect (k : Core) (b r : Nat) (x : Half) (cy : DWord) (y : Byte) : k.OtherBanks (k.readDirect b r x cy y).1 := by
  unfold Core.readDirect
  extract_lets served poisoned r1
  have h1 : k.OtherBanks r1.1 := sense ..
  clear_value r1
  split
  · exact h1.trans rfl
  split
  · exact h1
  · exact h1.trans (corrected ..)
  rename_i _ r2 _ made _ k' _ _ _ _
  have h2 : k.OtherBanks r2.1 := h1.trans (sense ..)
  clear_value r2
  split
  · exact h2.trans rfl
  have hm : k.OtherBanks made.1 := by
    unfold made
    split
    exacts [h2.trans (siblings ..), h2]
  have hk : k.OtherBanks k' := hm.trans rfl
  clear_value made k'
  split
  exacts [hk.trans (toFix ..), hk]
theorem writeWord (k : Core) (rows : Bool) (w o n : Nat) (x : Half) (cy : DWord) (y : Byte) : k.OtherBanks (k.writeWord rows w o n x cy y) := by
  have hr : k.OtherBanks (k.readDirect (w % 16) (w / 16) x cy y).1 := readDirect ..
  unfold Core.writeWord
  dsimp only
  split
  · exact rfl
  split
  · exact refl k
  generalize k.readDirect (w % 16) (w / 16) x cy y = r at hr ⊢
  split
  exacts [hr.trans rfl, hr.trans rfl]
theorem writeBytes (k : Core) (o : Nat) (bs : List Byte) (x : Half) (cy : DWord) (y : Byte) (rows : Bool) : k.OtherBanks (k.writeBytes o bs x cy y rows) := by
  unfold Core.writeBytes
  extract_lets k1
  have h1 : k.OtherBanks k1 := by
    unfold k1
    split
    exacts [refl k, foldl _ _ (fun k w => writeWord ..) k]
  clear_value k1
  exact (h1.trans (show k1.OtherBanks { k1 with mem := k1.mem.write o bs } from rfl)).trans (foldl _ _ (fun k w => markStale k w) _)
theorem performOwn (k : Core) (o : Nat) (bs : List Byte) (x : Half) (rows : Bool) (cy : DWord) (y : Byte) : k.OtherBanks (k.performOwn o bs x rows cy y) :=
  ((busy ..).trans (writeBytes ..)).trans rfl
theorem drain (k : Core) (cy : DWord) (y : Byte) : k.OtherBanks (k.drain cy y) := by
  unfold Core.drain
  refine trans (k' := { k with port := [] }) rfl (foldl _ _ (fun k w => ?_) _)
  exact performOwn ..

end Core.OtherBanks

/-- Draining its own port leaves a core's firing, context and register file. -/
theorem State.drain_cur_core (s : State) : s.core.OtherBanks (s.drain s.cur).core := by
  have h : (s.drain s.cur).core = s.core.drain s.cycle s.syn := by simp [State.drain, State.onCore, State.putCore]
  exact h ▸ Core.OtherBanks.drain ..
theorem State.drain_chunkEmpty (s : State) : (s.drain s.cur).chunkEmpty = s.chunkEmpty := by
  have h : (s.drain s.cur).fir = s.fir := by
    rw [State.fir, s.drain_cur_core]
    rfl
  rw [State.chunkEmpty, State.chunk, show (s.drain s.cur).core.fir = s.core.fir from h]
  rfl

/-! ### Forms that wait (R26, R31, R133, R171, R205, R234, R238, R239) -/

/-- A row and group hold a byte of a range (R128, R133). -/
theorem mem_pairsIn {off n : Nat} (hn : n ≠ 0) (p : Nat × Nat) : p ∈ pairsIn off n ↔ ∃ i, i < n ∧ p = ((off + i) / 128, (off + i) / 32 % 4) := by
  simp only [pairsIn, wordsIn, if_neg hn, List.mem_dedup, List.mem_map, List.mem_range]
  constructor
  · rintro ⟨w, ⟨j, hj, rfl⟩, rfl⟩
    by_cases h0 : j = 0
    · exact ⟨0, by omega, Prod.ext (by simp only; omega) (by simp only; omega)⟩
    · exact ⟨8 * (off / 8 + j) - off, by omega, Prod.ext (by simp only; omega) (by simp only; omega)⟩
  · rintro ⟨i, hi, rfl⟩
    exact ⟨(off + i) / 8, ⟨(off + i) / 8 - off / 8, by omega, by omega⟩, Prod.ext (by simp only; omega) (by simp only; omega)⟩

section
variable {s : State}

theorem State.waitOn_head (h : s.chunkEmpty = true) (w : WaitFor) : s.waitOn w = s.setStatus (.waiting w) := if_pos h
theorem State.fenced_open {k : State → Res} (h : s.chunkEmpty = false) : s.fenced k = .next (s.endChunk .run) := if_pos (by simp [h])
theorem State.fenced_busy {k : State → Res} (h : s.chunkEmpty = true) (hb : s.globalBusy s.cur = true) : s.fenced k = .next (s.setStatus (.waiting .fence)) := by
  rw [State.fenced, if_neg (by simp [h]), if_pos hb, State.waitOn_head h]
theorem State.fenced_free {k : State → Res} (h : s.chunkEmpty = true) (hb : s.globalBusy s.cur = false) : s.fenced k = k s := by
  rw [State.fenced, if_neg (by simp [h]), if_neg (by simp [hb])]
theorem exec_fenceD_eq : exec .fenceD s = s.fenced fun s => .next (s.retire 1) := rfl
theorem exec_fenceS_eq : exec .fenceS s = s.fenced fun s => if s.linkBusy s.cur then .next (s.waitOn .link) else .next (s.retire 1) := rfl
theorem exec_stepmk_eq : exec .stepmk s = s.fenced fun s => s.withRequest 0 0 fun s =>
    .next ((s.issue s.cur (s.packet (coord checkpointCore) 30 false false (some false) .mark)).setStatus (.answer .mark)) := rfl
/-- bwait at the head of a chunk goes on once the phase has turned (R205). -/
theorem exec_bwait_head {bar : BitVec 7} {ra : Reg} (h : s.chunkEmpty = true) : exec (.bwait bar ra) s =
    .next (if (s.core.bar bar).phase ≠ (s.s ra).getLsbD 0 then (s.catchUp s.cur).retire 1 else s.setStatus (.waiting (.phase bar ((s.s ra).getLsbD 0)))) := by
  show execBwait bar ra s = _
  rw [execBwait, if_neg (by simp [h])]
  by_cases hp : (s.core.bar bar).phase = (s.s ra).getLsbD 0
  · rw [if_neg (by rw [hp]; simp), if_neg (not_not.2 hp), State.waitOn_head h]
  · rw [if_pos (bne_iff_ne.2 hp), if_pos hp]
/-- xidwt at the head of a chunk, for an ID that has been given out (R171). -/
theorem exec_xidwt_head {ra : Reg} {k : BitVec 2} (h : s.chunkEmpty = true) (hid : idBefore (s.xidNow k) (s.s ra) = false) :
    exec (.xidwt ra k) s = .next (if s.s ra = s.ctx.xidc[k.toNat]'(by omega) ∨ idBefore (s.s ra) (s.ctx.xidc[k.toNat]'(by omega)) = true
      then (s.catchUp s.cur).retire 1 else s.setStatus (.waiting (.transfer k (s.s ra)))) := by
  show execXidwt ra k s = _
  rw [execXidwt, if_neg (by simp [h]), if_neg (by simp [hid]), State.waitOn_head h]
  exact (apply_ite Host.Outcome.next _ _ _).symm
/-- An ID that has not been given out yet traps (R171). -/
theorem exec_xidwt_ahead {ra : Reg} {k : BitVec 2} (h : s.chunkEmpty = true) (hid : idBefore (s.xidNow k) (s.s ra) = true) :
    exec (.xidwt ra k) s = .next (s.trap 0x0E (s.s ra) 0) := by
  show execXidwt ra k s = _
  rw [execXidwt, if_neg (by simp [h]), if_pos hid]
theorem exec_psync_none {ra : Pair} {rb : Reg} (h : s.chunkEmpty = true) (hn : s.s rb = 0) : exec (.psync ra rb) s = .next (s.retire 1) := by
  show execPsync ra rb s = _
  rw [execPsync, if_neg (by simp [h]), if_pos (by simp [hn])]
/-- psync of a range that is no scratchpad's traps ACCESS (R133). -/
theorem exec_psync_access {ra : Pair} {rb : Reg} (h : s.chunkEmpty = true) (hn : s.s rb ≠ 0)
    (hp : place (s.d ra).toNat = .trans ∨ place (s.d ra).toNat = .nowhere) : exec (.psync ra rb) s = .next (s.trapAt 0x03 (s.d ra)) := by
  have hf : s.psyncFault (s.d ra).toNat (s.s rb).toNat = some 0x03 := by
    unfold State.psyncFault
    rcases hp with hp | hp <;> rw [hp]
  show execPsync ra rb s = _
  rw [execPsync, if_neg (by simp [h]), if_neg (show ¬ (s.s rb).toNat = 0 from fun e => hn (BitVec.eq_of_toNat_eq e)), hf]
/-- psync of a checked range waits for the pairs of it that are stale once the core's port is drained, and completes where there is none (R133, R234). -/
theorem exec_psync_checked {ra : Pair} {rb : Reg} {c off : Nat} (h : s.chunkEmpty = true) (hn : (s.s rb).toNat ≠ 0)
    (hf : s.psyncFault (s.d ra).toNat (s.s rb).toNat = none) (hp : scrPlace s.cur (s.d ra).toNat = some (c, off)) :
    let u := s.drain s.cur
    let ps := (pairsIn off (s.s rb).toNat).filter (u.coreAt c).stale.contains
    exec (.psync ra rb) s = .next (if ps = [] then u.retire 1 else u.setStatus (.waiting (.sync c ps))) := by
  intro u ps
  have hu : u.waitOn (.sync c ps) = u.setStatus (.waiting (.sync c ps)) := State.waitOn_head (s.drain_chunkEmpty.trans h) _
  show execPsync ra rb s = _
  rw [execPsync, if_neg (by simp [h]), if_neg hn, hf, hp, ← hu]
  by_cases he : ps = []
  · exact (if_pos (List.isEmpty_iff.2 he)).trans (by rw [if_pos he])
  · exact (if_neg (mt List.isEmpty_iff.1 he)).trans (by rw [if_neg he])
/-- A range in the running context's allocation, or in a scratchpad of its tile that it may read, passes R133's checks. -/
theorem State.psyncFault_none {a n c off : Nat}
    (h : c = s.cur ∧ off = a ∧ a < 0x18000 ∧ s.ctx.base ≤ a ∧ a + n ≤ s.ctx.base + s.ctx.size
      ∨ place a = .glob c off ∧ off + n ≤ 0x18000 ∧ tileOf c = s.tile ∧ (s.coreAt c).fenced = false ∧ s.foreign c off n s.ctx.id = false) :
    s.psyncFault a n = none ∧ scrPlace s.cur a = some (c, off) := by
  unfold State.psyncFault scrPlace
  rcases h with ⟨rfl, rfl, hlt, hlo, hhi⟩ | ⟨hg, hlen, ht, hf, hx⟩
  · rw [show place off = .own off from if_pos hlt]
    exact ⟨if_pos (by simp [Ctx.covers, hlo, hhi]), rfl⟩
  · rw [hg]
    exact ⟨by simp [hf, ht, hx, hlen], rfl⟩
/-- With instructions in its chunk a form that waits ends the chunk before itself (R26). -/
theorem exec_waiting_open (h : s.chunkEmpty = false) (bar : BitVec 7) (ra : Reg) (k : BitVec 2) (da : Pair) (rb : Reg) {i : Instr}
    (hi : i ∈ [Instr.chunk, .fenceD, .fenceS, .lbsync, .stepmk, .bwait bar ra, .xidwt ra k, .psync da rb]) : exec i s = .next (s.endChunk .run) := by
  have hne : ¬ s.chunkEmpty = true := by simp [h]
  simp only [List.mem_cons, List.not_mem_nil, or_false] at hi
  rcases hi with rfl | rfl | rfl | rfl | rfl | rfl | rfl | rfl
  · exact if_neg hne
  · rw [exec_fenceD_eq, State.fenced_open h]
  · rw [exec_fenceS_eq, State.fenced_open h]
  · exact if_pos hne
  · rw [exec_stepmk_eq, State.fenced_open h]
  · exact if_pos hne
  · exact if_pos hne
  · exact if_pos hne
end

/-- Settles O38: the lemma of each form, at the head of a chunk or behind other instructions. -/
theorem waitsPassWhenTheirConditionHolds : Obligations.WaitsPassWhenTheirConditionHolds := by
  intro s
  refine ⟨fun h => ⟨if_pos h, fun hb => ⟨?_, fun hl => ?_, fun hl => ?_, fun hr => ?_⟩, fun hb i hi => ?_, fun bar ra hp => ?_, fun bar ra hp => ?_, ?_,
    fun ra k hid => exec_xidwt_ahead h hid, fun ra rb hn => exec_psync_none h hn, ?_, fun ra rb hn hp => exec_psync_access h hn hp, if_neg (by simp [h])⟩,
    fun h bar ra k da rb i hi => exec_waiting_open h bar ra k da rb hi⟩
  · rw [exec_fenceD_eq, State.fenced_free h hb]
  · rw [exec_fenceS_eq, State.fenced_free h hb, if_neg (by simp [hl])]
  · rw [exec_fenceS_eq, State.fenced_free h hb, if_pos hl, State.waitOn_head h]
  · rw [exec_stepmk_eq, State.fenced_free h hb, State.withRequest, if_pos hr]
  · simp only [List.mem_cons, List.not_mem_nil, or_false] at hi
    rcases hi with rfl | rfl | rfl
    · rw [exec_fenceD_eq, State.fenced_busy h hb]
    · rw [exec_fenceS_eq, State.fenced_busy h hb]
    · rw [exec_stepmk_eq, State.fenced_busy h hb]
  · rw [exec_bwait_head h, if_pos hp]
  · rw [exec_bwait_head h, if_neg (not_not.2 hp)]
  · intro ra k done hid
    rw [exec_xidwt_head h hid]
    refine ⟨fun hd => by rw [if_pos hd], fun hne hnb => ?_⟩
    rw [if_neg (not_or.2 ⟨hne, ne_true_of_eq_false hnb⟩)]
  · intro ra rb c off a n hn hr u stale
    obtain ⟨hf, hpl⟩ := State.psyncFault_none hr
    have hx := exec_psync_checked h hn hf hpl
    have hmem (p : Nat × Nat) : p ∈ (pairsIn off n).filter (u.coreAt c).stale.contains ↔ stale p := by
      rw [List.mem_filter, mem_pairsIn hn, List.contains_iff_mem]
      exact and_comm
    refine ⟨fun hnone => ?_, fun p hp => ⟨_, ?_, hmem⟩⟩
    · rw [hx, if_pos (List.eq_nil_iff_forall_not_mem.2 fun p hp => hnone p ((hmem p).1 hp))]
    · rw [hx, if_neg (List.ne_nil_of_mem ((hmem p).2 hp))]

/-! ### The start of a firing (R14, R17, R20, R182) -/

/-! The stages of a fresh firing's start: its record is taken, its port's writes are seen, its context is in front, its firing is there. -/

def Core.takes (k : Core) (r : Ready) : Core := { k with runq := k.runq.eraseIdx 0, clsptr := (r.cls.toNat + 1) % 20 }
def Core.caughtUp (k : Core) : Core := { k with lag := [] }
def Core.fronted (k : Core) : Core := { k with last := true }
def Core.fires (k : Core) (r : Ready) (h : Handler) : Core :=
  { k with serial := k.serial + 1, status := .running
           fir := { Firing.zero with regs := startRegs k.ctx h r, cls := r.cls, high := h.high, kind := r.kind, src := r.src, serial := k.serial + 1 } }
def Core.started (k : Core) (cy : DWord) (y : Byte) (r : Ready) (h : Handler) : Core := (((k.takes r).drain cy y).caughtUp.fronted).fires r h

/-- The second state is the first with another core `c`: every other core, global memory and the writes held for protected pages are as they were. -/
def State.Becomes (s t : State) (c : Nat) (k : Core) : Prop := (∀ d, t.coreAt d = if d = c then k else s.coreAt d) ∧ t.gmem = s.gmem ∧ t.held = s.held

theorem State.held_onCore (s : State) (c : Nat) (f : Core → Core) : (s.onCore c f).held = s.held := by
  unfold State.onCore State.putCore
  split <;> rfl
theorem State.cycle_onCore (s : State) (c : Nat) (f : Core → Core) : (s.onCore c f).cycle = s.cycle := by
  unfold State.onCore State.putCore
  split <;> rfl
theorem State.syn_onCore (s : State) (c : Nat) (f : Core → Core) : (s.onCore c f).syn = s.syn := by
  unfold State.onCore State.putCore
  split <;> rfl
theorem State.becomes_self (s : State) (c : Nat) : s.Becomes s c (s.coreAt c) :=
  ⟨fun d => by split; exacts [by rw [‹d = c›], rfl], rfl, rfl⟩

namespace State.Becomes
variable {s t : State} {c : Nat} {k : Core}

theorem here (h : s.Becomes t c k) : t.coreAt c = k := (h.1 c).trans (if_pos rfl)
theorem onCore (h : s.Becomes t c k) (f : Core → Core) : s.Becomes (t.onCore c f) c (f k) := by
  refine ⟨fun d => ?_, by rw [State.gmem_onCore, h.2.1], by rw [State.held_onCore, h.2.2]⟩
  rw [State.coreAt_onCore, h.here, h.1]
  split <;> rfl
theorem drain (h : s.Becomes t c k) : s.Becomes (t.drain c) c (k.drain t.cycle t.syn) := h.onCore fun k => k.drain t.cycle t.syn
theorem catchUp (h : s.Becomes t c k) : s.Becomes (t.catchUp c) c k.caughtUp := h.onCore fun k => { k with lag := [] }
theorem refill (h : s.Becomes t c k) : s.Becomes (t.refill c) c (k.refill c t.cycle 32) := h.onCore fun k => k.refill c t.cycle 32
/-- A context that ran last, or that has not been saved since its install, comes to the front without a switch (R20). -/
theorem switchTo {slot : Nat} (h : s.Becomes t c k) (hr : k.resident = true) (hs : k.ctx.slot = slot) (hl : k.last = true ∨ k.ctx.saved = false) :
    s.Becomes (t.switchTo c slot).1 c k.fronted ∧ (t.switchTo c slot).2 = true := by
  unfold State.switchTo
  rw [h.here]
  by_cases hlast : k.last = true
  · have hk : k.fronted = k := by rw [Core.fronted, ← hlast]
    dsimp only
    rw [if_pos ⟨hlast, hr, hs⟩, hk]
    exact ⟨h, rfl⟩
  · have hsaved := hl.resolve_left hlast
    have hfront : k.front slot = k := if_pos ⟨hr, hs⟩
    have h1 := h.onCore fun k => k.front slot
    rw [hfront] at h1
    have hin : (t.onCore c fun k => k.front slot).switchIn k.ctx = (t.onCore c fun k => k.front slot, some k.ctx) := if_pos (by simp [hsaved])
    simp only [hlast, Bool.false_eq_true, false_and, if_false, Bool.false_and, h1.here, hin]
    exact ⟨h1.onCore fun k' => { k' with ctx := k.ctx, last := true }, trivial⟩
end State.Becomes

/-- Records that fill from what waits change no more of a core than its run queue and its waiters (R181). -/
theorem Core.refill_eq (c : Nat) (cy : DWord) (n : Nat) (k : Core) : Core.refill c cy n k = { k with
    runq := (Core.refill c cy n k).runq, waiting := (Core.refill c cy n k).waiting } := by
  induction n generalizing k with
  | zero => rfl
  | succ n ih =>
    unfold Core.refill
    split
    · rfl
    · split
      · rfl
      · exact ih _
/-- The bytes after a drain: the port's stores, in order. -/
theorem Core.mem_drain (k : Core) (cy : DWord) (y : Byte) : (k.drain cy y).mem = k.port.foldl (fun m w => m.write w.1 w.2.1) k.mem := by
  unfold Core.drain
  suffices ∀ (l : List (Nat × List Byte × Half × Bool)) (k : Core),
      (l.foldl (fun k w => k.performOwn w.1 w.2.1 w.2.2.1 w.2.2.2 cy y) k).mem = l.foldl (fun m w => m.write w.1 w.2.1) k.mem from this k.port _
  intro l
  induction l with
  | nil => exact fun _ => rfl
  | cons w l ih => exact fun k => (ih _).trans (by rw [Core.mem_performOwn]; rfl)
/-- A lone record that may start is the one that R182 takes. -/
theorem Core.first_single {k : Core} {r : RunRec} {ok : RunRec → Bool} (hq : k.runq = [r]) (hr : ok r = true) : k.first ok = some (0, r) := by
  simp [Core.first, hq, hr]

theorem Core.started_spec (k : Core) (cy : DWord) (y : Byte) (r : Ready) (h : Handler) :
    (k.started cy y r h).status = .running ∧ (k.started cy y r h).ctx = k.ctx ∧ (k.started cy y r h).mem = (k.drain cy y).mem
      ∧ (k.started cy y r h).fir = { Firing.zero with regs := startRegs k.ctx h r, cls := r.cls, high := h.high, kind := r.kind, src := r.src, serial := k.serial + 1 } := by
  have hq := Core.OtherBanks.drain (k.takes r) cy y
  have hx : ((k.takes r).drain cy y).ctx = k.ctx := by rw [hq]; rfl
  have hn : ((k.takes r).drain cy y).serial = k.serial := by rw [hq]; rfl
  have hm : ((k.takes r).drain cy y).mem = (k.drain cy y).mem := by rw [Core.mem_drain, Core.mem_drain]; rfl
  unfold Core.started
  generalize (k.takes r).drain cy y = q at hx hn hm ⊢
  exact ⟨rfl, hx, hm, by rw [← hx, ← hn]; rfl⟩
/-- A core takes a fresh record of a context that needs no switch, and its firing starts. -/
theorem State.begin_fresh {s : State} {c : Nat} {r : Ready} {h : Handler} (hh : look (s.coreAt c).handlers r.cls = some h)
    (hr : (s.coreAt c).resident = true) (hs : (s.coreAt c).ctx.slot = h.slot) (hl : (s.coreAt c).last = true ∨ (s.coreAt c).ctx.saved = false) :
    ∃ cy, s.Becomes (s.begin c 0 (.fresh r)) c (((s.coreAt c).started s.cycle s.syn r h).refill c cy 32) := by
  let p := ((s.onCore c fun k => k.takes r).drain c).catchUp c
  have taken : s.Becomes p c ((((s.coreAt c).takes r).drain s.cycle s.syn).caughtUp) := by
    have h1 := ((s.becomes_self c).onCore fun k => k.takes r).drain
    rw [s.cycle_onCore, s.syn_onCore] at h1
    exact h1.catchUp
  have hq := Core.OtherBanks.drain ((s.coreAt c).takes r) s.cycle s.syn
  obtain ⟨front, hok⟩ := taken.switchTo (slot := h.slot) (by rw [hq]; exact hr) (by rw [hq]; exact hs) (by rw [hq]; exact hl)
  have hslot : (s.coreAt c).slotOfRec (.fresh r) = some h.slot := by rw [Core.slotOfRec, hh]; rfl
  have hheld : (p.switchTo c h.slot).1.newHeld s = [] := by rw [State.newHeld, front.2.2, List.drop_length]; rfl
  have hb : s.begin c 0 (.fresh r) = ((p.switchTo c h.slot).1.onCore c fun k => k.fires r h).refill c := by
    unfold State.begin
    dsimp only
    rw [hslot]
    dsimp only
    refine (if_neg (fun hn => hn hok)).trans ?_
    rw [show look (s.coreAt c).handlers (RunRec.fresh r).cls = some h from hh]
    exact congrArg (State.refill · c) (if_pos (by rw [List.isEmpty_iff]; exact hheld))
  exact ⟨_, hb ▸ (front.onCore fun k => k.fires r h).refill⟩

/-- A scalar that R17 gives no value starts at zero. -/
theorem getS_startRegs_other (x : Ctx) (h : Handler) (r : Ready) {i : Reg} (hi : i ∉ [(1 : Reg), 2, 3, 4, 5, 60]) : (startRegs x h r).getS i = 0 := by
  have ne {n : Nat} (hn : n < 64) (hne : i ≠ BitVec.ofNat 6 n) : n ≠ i.toNat := fun e => hne (by subst e; simp)
  simp only [List.mem_cons, List.not_mem_nil, or_false, not_or] at hi
  obtain ⟨h1, h2, h3, h4, h5, h60⟩ := hi
  unfold Regs.getS
  split
  · rfl
  · simp only [startRegs]
    rw [Vector.getElem_set_ne _ _ (ne (by decide) h60), Vector.getElem_set_ne _ _ (ne (by decide) h5), Vector.getElem_set_ne _ _ (ne (by decide) h4),
      Vector.getElem_set_ne _ _ (ne (by decide) h3), Vector.getElem_set_ne _ _ (ne (by decide) h2), Vector.getElem_set_ne _ _ (ne (by decide) h1),
      Vector.getElem_replicate]
/-- The argument block and the scratchpad base of a fresh firing (R17). -/
theorem getD_startRegs (x : Ctx) (h : Handler) (r : Ready) :
    (startRegs x h r).getD 2 = x.block ∧ (startRegs x h r).getD 30 = BitVec.ofNat 64 (x.base % 2 ^ 32) := by
  constructor
  · exact hi32_append_lo32 x.block
  · have hd : (startRegs x h r).getD 30 = (0 : Word) ++ BitVec.ofNat 32 x.base := rfl
    refine BitVec.eq_of_toNat_eq ?_
    rw [hd, BitVec.toNat_append, show (0 : Word).toNat = 0 from rfl, Nat.zero_shiftLeft, Nat.zero_or, BitVec.toNat_ofNat, BitVec.toNat_ofNat]
    omega
theorem getM_startRegs (x : Ctx) (h : Handler) (r : Ready) {m : MReg} (hm : m ≠ 0) : (startRegs x h r).getM m = 0 := by
  rw [Regs.getM, if_neg hm]
  exact Vector.getElem_replicate ..

/-- Settles O49: the core becomes `Core.started`, whose firing has R17's registers. -/
theorem firingsStartWithTheirRegisters : Obligations.FiringsStartWithTheirRegisters := by
  intro s c r h hc hidle hfenced hq hh hr hs hl hok _
  have hexec : exec (.firingChoose c) s = .next (s.begin c 0 (.fresh r)) := by
    show execFiringChoose c s = _
    rw [execFiringChoose, atCore, if_pos hc, if_neg (by simp [hidle, hfenced]), Core.first_single hq hok]
  obtain ⟨cy, hb⟩ := State.begin_fresh (c := c) hh hr hs hl
  obtain ⟨hstatus, hctx, hmem, hfir⟩ := (s.coreAt c).started_spec s.cycle s.syn r h
  have hcore := hb.here
  rw [Core.refill_eq] at hcore
  have hf : ((s.begin c 0 (.fresh r)).coreAt c).fir = _ := (congrArg Core.fir hcore).trans hfir
  obtain ⟨hd2, hd30⟩ := getD_startRegs (s.coreAt c).ctx h r
  refine ⟨_, hexec, (congrArg Core.status hcore).trans hstatus, (congrArg Core.ctx hcore).trans hctx, ⟨fun a => ?_, fun d a => ?_⟩, ?_⟩
  · rw [hb.2.1, State.drain, State.gmem_onCore]
  · rw [State.drain, State.coreAt_onCore]
    by_cases hdc : d = c
    · rw [hdc, if_pos rfl, hb.here, Core.mem_refill, hmem]
    · rw [hb.1, if_neg hdc, if_neg hdc]
  · rw [hf]
    exact ⟨rfl, rfl, rfl, hd2, hd30, rfl, rfl, rfl, rfl, fun i hi => getS_startRegs_other _ h r hi, fun m hm => getM_startRegs _ h r hm, rfl, rfl, rfl, rfl, rfl, rfl⟩
end Sys2Proof.Machine

end

/-! # Encodings (R3, R39–R55, R184) -/

section
set_option Elab.async false

namespace Sys2Proof

/-! ### Bit fields of code words (R39)

The layouts of words as functions of their fields: of each, the fields that are read from it, and that a word is the layout of its fields. -/

@[simp] theorem extractLsb'_append_of_le {a b lo n : Nat} (x : BitVec a) (y : BitVec b) (h : b ≤ lo) :
    (BitVec.append x y).extractLsb' lo n = x.extractLsb' (lo - b) n := BitVec.extractLsb'_append_eq_of_le h
@[simp] theorem extractLsb'_append_of_add_le {a b lo n : Nat} (x : BitVec a) (y : BitVec b) (h : lo + n ≤ b) :
    (BitVec.append x y).extractLsb' lo n = y.extractLsb' lo n := BitVec.extractLsb'_append_eq_of_add_le h
/-- Two fields of a word side by side are one field. -/
theorem fld_append_fld (w : Word) {hi m lo n : Nat} (h : hi = lo + n) : BitVec.append (fld w hi m) (fld w lo n) = fld w lo (m + n) :=
  BitVec.extractLsb'_append_extractLsb'_eq_extractLsb' h
theorem fld_self (w : Word) : fld w 0 32 = w := BitVec.extractLsb'_eq_self
theorem eq_ofNat_of_toNat {n k : Nat} {x : BitVec n} (h : x.toNat = k) : x = BitVec.ofNat n k := by
  subst h; exact (BitVec.ofNat_toNat n x ▸ BitVec.setWidth_eq x).symm
/-- A one-bit field as a flag and back. -/
theorem ofBool_fld (w : Word) (n : Nat) : BitVec.ofBool (decide (fld w n 1 = 1)) = fld w n 1 := by
  obtain h | h := BitVec.eq_zero_or_eq_one (fld w n 1) <;> rw [h] <;> rfl
@[simp] theorem ofBool_eq_one (b : Bool) : (BitVec.ofBool b = 1#1) = (b = true) := by cases b <;> decide

/-- A word in the layout of format RR (R40). -/
def rrWord (m d a b : BitVec 6) (f : BitVec 8) : Word := m ++ d ++ a ++ b ++ f
/-- A word in the layout of formats RI and B (R40). -/
def riWord (m d a : BitVec 6) (i : BitVec 14) : Word := m ++ d ++ a ++ i
/-- The immediate of a shift (R40): form and count. -/
def shiftImm (z : BitVec 2) (n : BitVec 5) : BitVec 14 := z ++ (0 : BitVec 7) ++ n
/-- The immediate of a form on a control register (R50): form and number. -/
def csrImm (z : BitVec 2) (n : BitVec 12) : BitVec 14 := z ++ n
/-- A word in the layout of formats LI and BL (R40). -/
def liWord (m d : BitVec 6) (i : BitVec 20) : Word := m ++ d ++ i
/-- A word in the layout of format J (R40). -/
def jWord (m : BitVec 6) (o : BitVec 26) : Word := m ++ o
/-- A word in the layout of format M (R40). -/
def msgWord (m v s : BitVec 6) (c : BitVec 5) (l : BitVec 6) (n p : Bool) : Word :=
  m ++ v ++ s ++ c ++ l ++ BitVec.ofBool n ++ BitVec.ofBool p ++ (0 : BitVec 1)
/-- A word in the layout of format V (R40). -/
def vecWord (m d a b : BitVec 6) (k t : BitVec 3) (f : BitVec 2) : Word := m ++ d ++ a ++ b ++ k ++ t ++ f
/-- A word in the layout of format BAR (R40). -/
def barWord (op : BitVec 4) (bar : BitVec 7) (a b : BitVec 6) : Word := (0x27 : BitVec 6) ++ a ++ b ++ op ++ bar ++ (0 : BitVec 3)
/-- Word 0 of format W (R43). -/
def memWord (m r : BitVec 6) (b : Pair) (z : BitVec 3) (f : BitVec 12) : Word := m ++ r ++ b ++ z ++ f
/-- The function field of a vector access (R44): mask and form. -/
def vmemFn (k : MReg) (f : BitVec 4) : BitVec 12 := (0 : BitVec 5) ++ k ++ f
/-- The function field of an amo (R45): its operation. -/
def amoFn (op : BitVec 4) : BitVec 12 := (0 : BitVec 8) ++ op
/-- The function field of `depos` (R45): the length less 1. -/
def deposFn (l : BitVec 6) : BitVec 12 := (0 : BitVec 6) ++ l
/-- The register field of a pair that is loaded or stored (R41). -/
def pairField (p : Pair) : BitVec 6 := p ++ (0 : BitVec 1)
/-- The size field of `vldbc` (R44). -/
def elemSize (z : BitVec 2) : BitVec 3 := (0 : BitVec 1) ++ z
/-- The ctl8 of a gather or scatter (R44): the index register. -/
def indexCtl (x : Reg) : Byte := (0 : BitVec 2) ++ x
/-- Word 1 of format W (R43). -/
def offWord (o : BitVec 24) (c : Byte) : Word := o ++ c

section
variable (m d a b : BitVec 6)
@[simp] theorem fld_rrWord (f : BitVec 8) : fld (rrWord m d a b f) 26 6 = m ∧ fld (rrWord m d a b f) 20 6 = d ∧ fld (rrWord m d a b f) 14 6 = a
    ∧ fld (rrWord m d a b f) 8 6 = b ∧ fld (rrWord m d a b f) 0 8 = f := by
  simp [fld, rrWord, HAppend.hAppend, -BitVec.append_eq]
@[simp] theorem fld_riWord (i : BitVec 14) : fld (riWord m d a i) 26 6 = m ∧ fld (riWord m d a i) 20 6 = d ∧ fld (riWord m d a i) 14 6 = a
    ∧ fld (riWord m d a i) 0 14 = i := by
  simp [fld, riWord, HAppend.hAppend, -BitVec.append_eq]
@[simp] theorem fld_shiftImm (z : BitVec 2) (n : BitVec 5) : fld (riWord m d a (shiftImm z n)) 12 2 = z ∧ fld (riWord m d a (shiftImm z n)) 5 7 = 0
    ∧ fld (riWord m d a (shiftImm z n)) 0 5 = n := by
  simp [fld, riWord, shiftImm, HAppend.hAppend, -BitVec.append_eq]
@[simp] theorem fld_csrImm (z : BitVec 2) (n : BitVec 12) : fld (riWord m d a (csrImm z n)) 12 2 = z ∧ fld (riWord m d a (csrImm z n)) 0 12 = n := by
  simp [fld, riWord, csrImm, HAppend.hAppend, -BitVec.append_eq]
@[simp] theorem fld_liWord (i : BitVec 20) : fld (liWord m d i) 26 6 = m ∧ fld (liWord m d i) 20 6 = d ∧ fld (liWord m d i) 0 20 = i := by
  simp [fld, liWord, HAppend.hAppend, -BitVec.append_eq]
@[simp] theorem fld_jWord (o : BitVec 26) : fld (jWord m o) 26 6 = m ∧ fld (jWord m o) 0 26 = o := by
  simp [fld, jWord, HAppend.hAppend, -BitVec.append_eq]
@[simp] theorem fld_msgWord (c : BitVec 5) (l : BitVec 6) (n p : Bool) : fld (msgWord m d a c l n p) 26 6 = m ∧ fld (msgWord m d a c l n p) 20 6 = d
    ∧ fld (msgWord m d a c l n p) 14 6 = a ∧ fld (msgWord m d a c l n p) 9 5 = c ∧ fld (msgWord m d a c l n p) 3 6 = l
    ∧ fld (msgWord m d a c l n p) 2 1 = BitVec.ofBool n ∧ fld (msgWord m d a c l n p) 1 1 = BitVec.ofBool p ∧ fld (msgWord m d a c l n p) 0 1 = 0 := by
  simp [fld, msgWord, HAppend.hAppend, -BitVec.append_eq]
@[simp] theorem fld_vecWord (k t : BitVec 3) (f : BitVec 2) : fld (vecWord m d a b k t f) 26 6 = m ∧ fld (vecWord m d a b k t f) 20 6 = d
    ∧ fld (vecWord m d a b k t f) 14 6 = a ∧ fld (vecWord m d a b k t f) 8 6 = b ∧ fld (vecWord m d a b k t f) 5 3 = k
    ∧ fld (vecWord m d a b k t f) 2 3 = t ∧ fld (vecWord m d a b k t f) 0 2 = f := by
  simp [fld, vecWord, HAppend.hAppend, -BitVec.append_eq]
@[simp] theorem fld_barWord (op : BitVec 4) (n : BitVec 7) : fld (barWord op n a b) 26 6 = 0x27 ∧ fld (barWord op n a b) 20 6 = a
    ∧ fld (barWord op n a b) 14 6 = b ∧ fld (barWord op n a b) 10 4 = op ∧ fld (barWord op n a b) 3 7 = n ∧ fld (barWord op n a b) 0 3 = 0 := by
  simp [fld, barWord, HAppend.hAppend, -BitVec.append_eq]
@[simp] theorem fld_memWord (p : Pair) (z : BitVec 3) (f : BitVec 12) : fld (memWord m d p z f) 26 6 = m ∧ fld (memWord m d p z f) 20 6 = d
    ∧ fld (memWord m d p z f) 15 5 = p ∧ fld (memWord m d p z f) 12 3 = z ∧ fld (memWord m d p z f) 0 12 = f := by
  simp [fld, memWord, HAppend.hAppend, -BitVec.append_eq]
@[simp] theorem fld_vmemFn (p : Pair) (z : BitVec 3) (k : MReg) (f : BitVec 4) : fld (memWord m d p z (vmemFn k f)) 7 5 = 0
    ∧ fld (memWord m d p z (vmemFn k f)) 4 3 = k ∧ fld (memWord m d p z (vmemFn k f)) 0 4 = f := by
  simp [fld, memWord, vmemFn, HAppend.hAppend, -BitVec.append_eq]
@[simp] theorem fld_amoFn (p : Pair) (z : BitVec 3) (f : BitVec 4) : fld (memWord m d p z (amoFn f)) 4 8 = 0 ∧ fld (memWord m d p z (amoFn f)) 0 4 = f := by
  simp [fld, memWord, amoFn, HAppend.hAppend, -BitVec.append_eq]
@[simp] theorem fld_deposFn (p : Pair) (z : BitVec 3) (f : BitVec 6) : fld (memWord m d p z (deposFn f)) 6 6 = 0
    ∧ fld (memWord m d p z (deposFn f)) 0 6 = f := by
  simp [fld, memWord, deposFn, HAppend.hAppend, -BitVec.append_eq]
@[simp] theorem fld_elemSize (p : Pair) (z : BitVec 2) (f : BitVec 12) : fld (memWord m d p (elemSize z) f) 12 2 = z := by
  simp [fld, memWord, elemSize, HAppend.hAppend, -BitVec.append_eq]
@[simp] theorem fld_offWord (o : BitVec 24) (c : Byte) : fld (offWord o c) 8 24 = o ∧ fld (offWord o c) 0 8 = c := by
  simp [fld, offWord, HAppend.hAppend, -BitVec.append_eq]
end

theorem rrWord_of_fld {w : Word} {m : Nat} (h : (fld w 26 6).toNat = m) :
    rrWord (BitVec.ofNat 6 m) (fld w 20 6) (fld w 14 6) (fld w 8 6) (BitVec.ofNat 8 (fld w 0 8).toNat) = w := by
  rw [← eq_ofNat_of_toNat h, ← eq_ofNat_of_toNat rfl]
  simp only [rrWord, HAppend.hAppend, fld_append_fld, Nat.reduceAdd, fld_self]
theorem riWord_of_fld {w : Word} {m : Nat} (h : (fld w 26 6).toNat = m) :
    riWord (BitVec.ofNat 6 m) (fld w 20 6) (fld w 14 6) (fld w 0 14) = w := by
  rw [← eq_ofNat_of_toNat h]
  simp only [riWord, HAppend.hAppend, fld_append_fld, Nat.reduceAdd, fld_self]
theorem shiftImm_of_fld {w : Word} {m : Nat} (h : (fld w 26 6).toNat = m) (hz : fld w 5 7 = 0) :
    riWord (BitVec.ofNat 6 m) (fld w 20 6) (fld w 14 6) (shiftImm (BitVec.ofNat 2 (fld w 12 2).toNat) (fld w 0 5)) = w := by
  rw [← eq_ofNat_of_toNat h, ← eq_ofNat_of_toNat rfl, shiftImm, ← hz]
  simp only [riWord, HAppend.hAppend, fld_append_fld, Nat.reduceAdd, fld_self]
theorem csrImm_of_fld {w : Word} {m : Nat} (h : (fld w 26 6).toNat = m) :
    riWord (BitVec.ofNat 6 m) (fld w 20 6) (fld w 14 6) (csrImm (BitVec.ofNat 2 (fld w 12 2).toNat) (fld w 0 12)) = w := by
  rw [← eq_ofNat_of_toNat h, ← eq_ofNat_of_toNat rfl]
  simp only [riWord, csrImm, HAppend.hAppend, fld_append_fld, Nat.reduceAdd, fld_self]
theorem liWord_of_fld {w : Word} {m : Nat} (h : (fld w 26 6).toNat = m) :
    liWord (BitVec.ofNat 6 m) (fld w 20 6) (fld w 0 20) = w := by
  rw [← eq_ofNat_of_toNat h]
  simp only [liWord, HAppend.hAppend, fld_append_fld, Nat.reduceAdd, fld_self]
theorem jWord_of_fld {w : Word} {m : Nat} (h : (fld w 26 6).toNat = m) :
    jWord (BitVec.ofNat 6 m) (fld w 0 26) = w := by
  rw [← eq_ofNat_of_toNat h]
  simp only [jWord, HAppend.hAppend, fld_append_fld, Nat.reduceAdd, fld_self]
theorem msgWord_of_fld {w : Word} {m : Nat} (h : (fld w 26 6).toNat = m) (hz : fld w 0 1 = 0) :
    msgWord (BitVec.ofNat 6 m) (fld w 20 6) (BitVec.ofNat 6 (fld w 14 6).toNat) (fld w 9 5) (fld w 3 6) (fld w 2 1 = 1) (fld w 1 1 = 1) = w := by
  rw [← eq_ofNat_of_toNat h, ← eq_ofNat_of_toNat rfl, msgWord, ← hz, ofBool_fld, ofBool_fld]
  simp only [HAppend.hAppend, fld_append_fld, Nat.reduceAdd, fld_self]
theorem vecWord_of_fld {w : Word} {m : Nat} (h : (fld w 26 6).toNat = m) :
    vecWord (BitVec.ofNat 6 m) (fld w 20 6) (fld w 14 6) (fld w 8 6) (fld w 5 3) (fld w 2 3) (BitVec.ofNat 2 (fld w 0 2).toNat) = w := by
  rw [← eq_ofNat_of_toNat h, ← eq_ofNat_of_toNat rfl]
  simp only [vecWord, HAppend.hAppend, fld_append_fld, Nat.reduceAdd, fld_self]
theorem barWord_of_fld {w : Word} (h : (fld w 26 6).toNat = 0x27) (hz : fld w 0 3 = 0) :
    barWord (BitVec.ofNat 4 (fld w 10 4).toNat) (fld w 3 7) (fld w 20 6) (fld w 14 6) = w := by
  rw [← eq_ofNat_of_toNat rfl, barWord, ← hz, show (0x27 : BitVec 6) = fld w 26 6 from (eq_ofNat_of_toNat h).symm]
  simp only [HAppend.hAppend, fld_append_fld, Nat.reduceAdd, fld_self]
theorem memWord_of_fld {w : Word} {m : Nat} (h : (fld w 26 6).toNat = m) :
    memWord (BitVec.ofNat 6 m) (fld w 20 6) (fld w 15 5) (BitVec.ofNat 3 (fld w 12 3).toNat) (BitVec.ofNat 12 (fld w 0 12).toNat) = w := by
  rw [← eq_ofNat_of_toNat h, ← eq_ofNat_of_toNat rfl, ← eq_ofNat_of_toNat rfl]
  simp only [memWord, HAppend.hAppend, fld_append_fld, Nat.reduceAdd, fld_self]
theorem vmemFn_of_fld {w : Word} (hz : fld w 7 5 = 0) :
    vmemFn (fld w 4 3) (BitVec.ofNat 4 (fld w 0 4).toNat) = fld w 0 12 := by
  rw [vmemFn, ← eq_ofNat_of_toNat rfl, ← hz]
  simp only [HAppend.hAppend, fld_append_fld, Nat.reduceAdd]
theorem offWord_of_fld {w : Word} :
    offWord (fld w 8 24) (fld w 0 8) = w := by
  simp only [offWord, HAppend.hAppend, fld_append_fld, Nat.reduceAdd, fld_self]
theorem amoFn_of_fld {w : Word} (hz : fld w 4 8 = 0) : amoFn (BitVec.ofNat 4 (fld w 0 4).toNat) = fld w 0 12 := by
  rw [amoFn, ← eq_ofNat_of_toNat rfl, ← hz]
  simp only [HAppend.hAppend, fld_append_fld, Nat.reduceAdd]
theorem deposFn_of_fld {w : Word} (hz : fld w 6 6 = 0) : deposFn (fld w 0 6) = fld w 0 12 := by
  rw [deposFn, ← hz]
  simp only [HAppend.hAppend, fld_append_fld, Nat.reduceAdd]
/-- A part of a field is a field. -/
theorem fld_of_fld (w : Word) {lo n k m : Nat} (h : k + m ≤ n) : fld w (lo + k) m = (fld w lo n).extractLsb' k m := by
  refine BitVec.eq_of_getLsbD_eq fun i hi => ?_
  simp only [fld, BitVec.getLsbD_extractLsb', hi, show k + i < n by omega, decide_true, Bool.true_and, Nat.add_assoc]

/-! ### Fields that admit only some values (R41, R43, R50, R51, R111) -/

theorem wide_setWidth {n : Nat} {f : BitVec 6} (h : f.toNat < 2 ^ n) : wide (f.setWidth n) = f := by
  refine BitVec.eq_of_toNat_eq ?_
  rw [wide, BitVec.toNat_setWidth, BitVec.toNat_setWidth, Nat.mod_eq_of_lt h, Nat.mod_eq_of_lt f.isLt]
theorem toNat_wide {n : Nat} (h : n ≤ 6) (x : BitVec n) : (wide x).toNat = x.toNat :=
  (BitVec.toNat_setWidth 6 x).trans (Nat.mod_eq_of_lt (x.isLt.trans_le (Nat.pow_le_pow_right (by decide) h)))
theorem setWidth_wide {n : Nat} (h : n ≤ 6) (x : BitVec n) : (wide x).setWidth n = x := by
  refine BitVec.eq_of_toNat_eq ?_
  rw [BitVec.toNat_setWidth, toNat_wide h, Nat.mod_eq_of_lt x.isLt]

@[simp] theorem pair?_wide : ∀ p : Pair, pair? (wide p) = some p := by decide
theorem wide_of_pair? : ∀ f : BitVec 6, ∀ p ∈ pair? f, wide p = f := by decide
@[simp] theorem mask?_wide : ∀ k : MReg, mask? (wide k) = some k := by decide
theorem wide_of_mask? : ∀ f : BitVec 6, ∀ k ∈ mask? f, wide k = f := by decide
theorem qRead?_wide : ∀ q : QReg, Instr.qReadOk q = true → qRead? (wide q) = some q := by decide
theorem wide_of_qRead? : ∀ f : BitVec 6, ∀ q ∈ qRead? f, Instr.qReadOk q = true ∧ wide q = f := by decide
theorem qChan?_wide : ∀ q : QReg, Instr.qChanOk q = true → qChan? (wide q) = some q := by decide
theorem wide_of_qChan? : ∀ f : BitVec 6, ∀ q ∈ qChan? f, Instr.qChanOk q = true ∧ wide q = f := by decide
theorem cls?_of_clsOk : ∀ c : BitVec 5, Instr.clsOk c = true → cls? c = some c := by decide
theorem clsOk_of_cls? : ∀ f : BitVec 5, ∀ c ∈ cls? f, Instr.clsOk c = true ∧ c = f := by decide
@[simp] theorem VTy.ofCode_code (t : VTy) : VTy.ofCode t.code = t := by cases t <;> rfl
theorem VTy.code_ofCode : ∀ c : BitVec 3, (VTy.ofCode c).code = c := by decide
@[simp] theorem pred?_encPred (p : Option Pred) : pred? (encPred p) = some p := by
  match p with
  | none => rfl
  | some ⟨s, r⟩ => revert s r; decide
theorem encPred_of_pred? : ∀ c : Byte, ∀ p ∈ pred? c, encPred p = c := by decide +kernel
theorem trig?_encTrig {t : Option (BitVec 5)} (r : Bool) (h : Instr.trigOk t = true) : trig? (encTrig t r) = some (t, r) := by
  match t with
  | none => revert r; decide
  | some c => revert c r; decide
theorem ofBool_getLsbD {n : Nat} (c : BitVec n) (k : Nat) : BitVec.ofBool (c.getLsbD k) = c.extractLsb' k 1 := by
  refine BitVec.eq_of_getLsbD_eq fun i hi => ?_
  obtain rfl : i = 0 := by omega
  simp
/-- The bits of ctl8 in the layout of a trigger (R43). -/
theorem trigLayout (c : Byte) :
    BitVec.ofBool (c.getLsbD 7) ++ c.extractLsb' 2 5 ++ BitVec.ofBool (c.getLsbD 1) ++ BitVec.ofBool (c.getLsbD 0) = c := by
  iterate 3 rw [ofBool_getLsbD]
  iterate 3 rw [BitVec.extractLsb'_append_extractLsb'_eq_extractLsb' (by rfl)]
  exact BitVec.extractLsb'_eq_self
theorem encTrig_of_trig? {c : Byte} {x : Option (BitVec 5) × Bool} (h : trig? c = some x) : Instr.trigOk x.1 = true ∧ encTrig x.1 x.2 = c := by
  have hc := trigLayout c
  unfold trig? at h
  split at h
  · cases h
  next h0 =>
  rw [Bool.eq_false_of_not_eq_true h0] at hc
  split at h
  next h7 =>
    obtain ⟨hk, h⟩ := Option.ite_none_right_eq_some.1 h
    cases h
    rw [h7] at hc
    exact ⟨decide_eq_true hk, hc⟩
  next h7 =>
    obtain ⟨hk, h⟩ := Option.ite_none_right_eq_some.1 h
    cases h
    rw [Bool.eq_false_of_not_eq_true h7, hk] at hc
    exact ⟨rfl, hc⟩
/-- The return flag of a trigger's layout. -/
@[simp] theorem getElem_encTrig (t : Option (BitVec 5)) (r : Bool) : (encTrig t r)[1] = r := by
  match t with
  | none => revert r; decide
  | some c => revert c r; decide
@[simp] theorem pairField_fields : ∀ p : Pair, (pairField p)[0] = false ∧ (pairField p).extractLsb' 1 5 = p := by decide
theorem pairField_of_even : ∀ r : BitVec 6, (!r.getLsbD 0) = true → pairField (r.extractLsb' 1 5) = r := by decide
theorem toNat_elemSize_lt : ∀ z : BitVec 2, (elemSize z).toNat < 4 := by decide
theorem elemSize_of_lt : ∀ z : BitVec 3, z.toNat < 4 → elemSize (z.extractLsb' 0 2) = z := by decide
theorem indexCtl_fields : ∀ x : Reg, (indexCtl x).toNat < 64 ∧ (indexCtl x).setWidth 6 = x := by decide
theorem indexCtl_of_lt : ∀ c : Byte, c.toNat < 64 → indexCtl (c.setWidth 6) = c := by decide +kernel
/-- The size field of a form on 32 or 64 bits, by its flag. -/
theorem sizeField_of_eq : ∀ z : BitVec 3, z.toNat = 2 ∨ z.toNat = 3 → (if decide (z.toNat = 3) = true then 3 else 2) = z := by decide
/-- A flag in a register field, as `chbind` and `tret` have it. -/
theorem wide_ofBool (c : Bool) : (wide (BitVec.ofBool c)).toNat ≤ 1 ∧ decide (wide (BitVec.ofBool c) = 1#6) = c := by cases c <;> decide
theorem wide_ofBool_of_lt : ∀ f : BitVec 6, f.toNat < 2 → wide (.ofBool (f = 1)) = f := by decide

/-! ### The words of tile commands (R46, R47, R103, R168, R208) -/

/-- Word 1 of `mld`. -/
def mldWord (s f : BitVec 4) (t : Bool) : Word := (0 : BitVec 23) ++ BitVec.ofBool t ++ f ++ s
/-- Word 1 of `mma`. -/
def mmaWord (c : BitVec 3) (sa sb : BitVec 4) (x : BitVec 12) : Word :=
  (0 : BitVec 4) ++ x ++ (0 : BitVec 4) ++ sb ++ sa ++ (0 : BitVec 1) ++ c
/-- Word 2 of `mma`. -/
def bandWord (y : BitVec 12) : Word := (0 : BitVec 20) ++ y
/-- Word 1 of `mzero` and `mst`. -/
def accWord (c : BitVec 3) : Word := (0 : BitVec 29) ++ c
/-- Word 1 of `mqnt`. -/
def mqntWord (c : BitVec 3) (f : BitVec 4) (r : BitVec 3) : Word := (0 : BitVec 21) ++ r ++ f ++ (0 : BitVec 1) ++ c
/-- The word of `mqnt`'s strides. -/
def stridesWord (x y : Half) : Word := y ++ x
/-- Word 1 of `mamax`. -/
def mamaxWord (c n : BitVec 3) : Word := (0 : BitVec 25) ++ n ++ (0 : BitVec 1) ++ c
/-- Word 7 of `cp2d`. -/
def rowsWord (r : BitVec 12) (p : BitVec 20) : Word := p ++ r
/-- Word 1 of `xred`. -/
def redWord (n : Half) (t : BitVec 3) (o : BitVec 2) : Word := (0 : BitVec 10) ++ o ++ (0 : BitVec 1) ++ t ++ n
/-- Word 1 of `xbcast`. -/
def castWord (n : Half) (t : BitVec 3) : Word := (0 : BitVec 13) ++ t ++ n
/-- Word 7 of `xred` and `xbcast`. -/
def partsWord (p : BitVec 13) : Word := (0 : BitVec 19) ++ p

@[simp] theorem fld_encTC0 (e : BitVec 4) (o : BitVec 6) (k : BitVec 2) : fld (encTC0 e o k) 26 6 = 0x3E ∧ fld (encTC0 e o k) 22 4 = e
    ∧ fld (encTC0 e o k) 16 6 = o ∧ fld (encTC0 e o k) 14 2 = k ∧ fld (encTC0 e o k) 0 14 = 0 := by
  simp [fld, encTC0, HAppend.hAppend, -BitVec.append_eq]
@[simp] theorem fld_mldWord (s f : BitVec 4) (t : Bool) : fld (mldWord s f t) 9 23 = 0 ∧ fld (mldWord s f t) 8 1 = BitVec.ofBool t
    ∧ fld (mldWord s f t) 4 4 = f ∧ fld (mldWord s f t) 0 4 = s := by
  simp [fld, mldWord, HAppend.hAppend, -BitVec.append_eq]
@[simp] theorem fld_mmaWord (c : BitVec 3) (sa sb : BitVec 4) (x : BitVec 12) : fld (mmaWord c sa sb x) 28 4 = 0 ∧ fld (mmaWord c sa sb x) 16 12 = x
    ∧ fld (mmaWord c sa sb x) 12 4 = 0 ∧ fld (mmaWord c sa sb x) 8 4 = sb ∧ fld (mmaWord c sa sb x) 4 4 = sa ∧ fld (mmaWord c sa sb x) 3 1 = 0
    ∧ fld (mmaWord c sa sb x) 0 3 = c := by
  simp [fld, mmaWord, HAppend.hAppend, -BitVec.append_eq]
@[simp] theorem fld_bandWord (y : BitVec 12) : fld (bandWord y) 12 20 = 0 ∧ fld (bandWord y) 0 12 = y := by
  simp [fld, bandWord, HAppend.hAppend, -BitVec.append_eq]
@[simp] theorem fld_accWord (c : BitVec 3) : fld (accWord c) 3 29 = 0 ∧ fld (accWord c) 0 3 = c := by
  simp [fld, accWord, HAppend.hAppend, -BitVec.append_eq]
@[simp] theorem fld_mqntWord (c : BitVec 3) (f : BitVec 4) (r : BitVec 3) : fld (mqntWord c f r) 11 21 = 0 ∧ fld (mqntWord c f r) 8 3 = r
    ∧ fld (mqntWord c f r) 4 4 = f ∧ fld (mqntWord c f r) 3 1 = 0 ∧ fld (mqntWord c f r) 0 3 = c := by
  simp [fld, mqntWord, HAppend.hAppend, -BitVec.append_eq]
@[simp] theorem fld_stridesWord (x y : Half) : fld (stridesWord x y) 16 16 = y ∧ fld (stridesWord x y) 0 16 = x := by
  simp [fld, stridesWord, HAppend.hAppend, -BitVec.append_eq]
@[simp] theorem fld_mamaxWord (c n : BitVec 3) : fld (mamaxWord c n) 7 25 = 0 ∧ fld (mamaxWord c n) 4 3 = n ∧ fld (mamaxWord c n) 3 1 = 0
    ∧ fld (mamaxWord c n) 0 3 = c := by
  simp [fld, mamaxWord, HAppend.hAppend, -BitVec.append_eq]
@[simp] theorem fld_rowsWord (r : BitVec 12) (p : BitVec 20) : fld (rowsWord r p) 12 20 = p ∧ fld (rowsWord r p) 0 12 = r := by
  simp [fld, rowsWord, HAppend.hAppend, -BitVec.append_eq]
@[simp] theorem fld_redWord (n : Half) (t : BitVec 3) (o : BitVec 2) : fld (redWord n t o) 22 10 = 0 ∧ fld (redWord n t o) 20 2 = o
    ∧ fld (redWord n t o) 19 1 = 0 ∧ fld (redWord n t o) 16 3 = t ∧ fld (redWord n t o) 0 16 = n := by
  simp [fld, redWord, HAppend.hAppend, -BitVec.append_eq]
@[simp] theorem fld_castWord (n : Half) (t : BitVec 3) : fld (castWord n t) 19 13 = 0 ∧ fld (castWord n t) 16 3 = t ∧ fld (castWord n t) 0 16 = n := by
  simp [fld, castWord, HAppend.hAppend, -BitVec.append_eq]
@[simp] theorem fld_partsWord (p : BitVec 13) : fld (partsWord p) 13 19 = 0 ∧ fld (partsWord p) 0 13 = p := by
  simp [fld, partsWord, HAppend.hAppend, -BitVec.append_eq]
@[simp] theorem fld_encTail (t : CopyTail) (d : Bool) : fld (encTail t d) 23 9 = 0 ∧ fld (encTail t d) 22 1 = BitVec.ofBool d
    ∧ fld (encTail t d) 21 1 = BitVec.ofBool t.toQ1 ∧ fld (encTail t d) 15 6 = t.ty ∧ fld (encTail t d) 8 7 = t.tx
    ∧ fld (encTail t d) 7 1 = BitVec.ofBool t.barOn ∧ fld (encTail t d) 0 7 = t.bar := by
  simp [fld, encTail, HAppend.hAppend, -BitVec.append_eq]

theorem encTC0_of_fld {w : Word} {e o : Nat} (h : (fld w 26 6).toNat = 0x3E) (hz : fld w 0 14 = 0)
    (he : (fld w 22 4).toNat = e) (ho : (fld w 16 6).toNat = o) :
    encTC0 (BitVec.ofNat 4 e) (BitVec.ofNat 6 o) (fld w 14 2) = w := by
  rw [encTC0, ← hz, ← eq_ofNat_of_toNat he, ← eq_ofNat_of_toNat ho, show (0x3E : BitVec 6) = fld w 26 6 from (eq_ofNat_of_toNat h).symm]
  simp only [HAppend.hAppend, fld_append_fld, Nat.reduceAdd, fld_self]
theorem mldWord_of_fld {w : Word} (h : fld w 9 23 = 0) : mldWord (fld w 0 4) (fld w 4 4) (fld w 8 1 = 1) = w := by
  rw [mldWord, ← h, ofBool_fld]
  simp only [HAppend.hAppend, fld_append_fld, Nat.reduceAdd, fld_self]
theorem mmaWord_of_fld {w : Word} (h3 : fld w 3 1 = 0) (h12 : fld w 12 4 = 0) (h28 : fld w 28 4 = 0) :
    mmaWord (fld w 0 3) (fld w 4 4) (fld w 8 4) (fld w 16 12) = w := by
  rw [show mmaWord (fld w 0 3) (fld w 4 4) (fld w 8 4) (fld w 16 12) = fld w 28 4 ++ fld w 16 12 ++ fld w 12 4 ++ fld w 8 4 ++ fld w 4 4
    ++ fld w 3 1 ++ fld w 0 3 by rw [h3, h12, h28]; rfl]
  simp only [HAppend.hAppend, fld_append_fld, Nat.reduceAdd, fld_self]
theorem bandWord_of_fld {w : Word} (h : fld w 12 20 = 0) : bandWord (fld w 0 12) = w := by
  rw [bandWord, ← h]
  simp only [HAppend.hAppend, fld_append_fld, Nat.reduceAdd, fld_self]
theorem accWord_of_fld {w : Word} (h : fld w 3 29 = 0) : accWord (fld w 0 3) = w := by
  rw [accWord, ← h]
  simp only [HAppend.hAppend, fld_append_fld, Nat.reduceAdd, fld_self]
theorem mqntWord_of_fld {w : Word} (h3 : fld w 3 1 = 0) (h11 : fld w 11 21 = 0) : mqntWord (fld w 0 3) (fld w 4 4) (fld w 8 3) = w := by
  rw [mqntWord, ← h3, ← h11]
  simp only [HAppend.hAppend, fld_append_fld, Nat.reduceAdd, fld_self]
theorem stridesWord_of_fld {w : Word} : stridesWord (fld w 0 16) (fld w 16 16) = w := by
  simp only [stridesWord, HAppend.hAppend, fld_append_fld, Nat.reduceAdd, fld_self]
theorem mamaxWord_of_fld {w : Word} (h3 : fld w 3 1 = 0) (h7 : fld w 7 25 = 0) : mamaxWord (fld w 0 3) (fld w 4 3) = w := by
  rw [mamaxWord, ← h3, ← h7]
  simp only [HAppend.hAppend, fld_append_fld, Nat.reduceAdd, fld_self]
theorem rowsWord_of_fld {w : Word} : rowsWord (fld w 0 12) (fld w 12 20) = w := by
  simp only [rowsWord, HAppend.hAppend, fld_append_fld, Nat.reduceAdd, fld_self]
theorem redWord_of_fld {w : Word} (h19 : fld w 19 1 = 0) (h22 : fld w 22 10 = 0) : redWord (fld w 0 16) (fld w 16 3) (fld w 20 2) = w := by
  rw [redWord, ← h19, ← h22]
  simp only [HAppend.hAppend, fld_append_fld, Nat.reduceAdd, fld_self]
theorem castWord_of_fld {w : Word} (h : fld w 19 13 = 0) : castWord (fld w 0 16) (fld w 16 3) = w := by
  rw [castWord, ← h]
  simp only [HAppend.hAppend, fld_append_fld, Nat.reduceAdd, fld_self]
theorem partsWord_of_fld {w : Word} (h : fld w 13 19 = 0) : partsWord (fld w 0 13) = w := by
  rw [partsWord, ← h]
  simp only [HAppend.hAppend, fld_append_fld, Nat.reduceAdd, fld_self]
theorem encTail_of_fld {w : Word} (h : fld w 23 9 = 0) : encTail (tail w) (fld w 22 1 = 1) = w := by
  rw [encTail, tail, ← h, ofBool_fld, ofBool_fld, ofBool_fld]
  simp only [HAppend.hAppend, fld_append_fld, Nat.reduceAdd, fld_self]
/-- The bits above word 6's tail of a form without direction. -/
@[simp] theorem fld_encTail_reserved (t : CopyTail) : fld (encTail t false) 22 10 = 0 := by
  have h := fld_append_fld (encTail t false) (hi := 23) (m := 9) (lo := 22) (n := 1) rfl
  obtain ⟨hzero, hdir, -⟩ := fld_encTail t false
  rw [hzero, hdir] at h
  exact h.symm
/-- A tail without a target (R208). -/
theorem fld_encTail_target {t : CopyTail} (ht : Instr.noTarget t = true) (d : Bool) : fld (encTail t d) 8 13 = 0 := by
  obtain ⟨hx, hy⟩ := Bool.and_eq_true_iff.1 ht
  have h := fld_append_fld (encTail t d) (hi := 15) (m := 6) (lo := 8) (n := 7) rfl
  obtain ⟨-, -, -, hty, htx, -⟩ := fld_encTail t d
  rw [hty, htx, of_decide_eq_true hx, of_decide_eq_true hy] at h
  exact h.symm
/-- The tail word of a form without direction. -/
theorem encTail_false_of_fld {w : Word} (h : fld w 22 10 = 0) : encTail (tail w) false = w := by
  have hd : fld w 22 1 = 0 := by rw [fld_of_fld w (lo := 22) (n := 10) (k := 0) (m := 1) (by decide), h]; rfl
  have hr : fld w 23 9 = 0 := by rw [fld_of_fld w (lo := 22) (n := 10) (k := 1) (m := 9) (by decide), h]; rfl
  have he := encTail_of_fld hr
  rw [hd] at he
  exact he

/-! ### What a partial decoder gives

One rule for each shape of a decoder's arm. -/

/-- What `o` holds, if it holds anything, has `P`. -/
def Gives {α : Type} (P : α → Prop) (o : Option α) : Prop := ∀ x, o = some x → P x

namespace Gives
variable {α β : Type} {P : α → Prop} {p : Prop} [Decidable p]

theorem none : Gives P none := fun _ h => by cases h
theorem some {x : α} (h : P x) : Gives P (some x) := fun _ e => by cases e; exact h
theorem ite {o : Option α} (h : p → Gives P o) : Gives P (if p then o else .none) := by
  split
  exacts [h ‹_›, none]
theorem guard {o : Option α} (h : ¬ p → Gives P o) : Gives P (if p then .none else o) := by
  split
  exacts [none, h ‹_›]
theorem map {o : Option β} {f : β → α} (h : Gives (fun x => P (f x)) o) : Gives P (o.map f) := by
  cases o with
  | none => exact none
  | some x => exact some (h x rfl)
theorem bind {o : Option β} {f : β → Option α} (h : Gives (fun x => Gives P (f x)) o) : Gives P (o.bind f) := by
  cases o with
  | none => exact none
  | some x => exact h x rfl
theorem pair {f : BitVec 6} {Q : Pair → Prop} (h : ∀ x, wide x = f → Q x) : Gives Q (pair? f) := fun x e => h x (wide_of_pair? f x e)
theorem mask {f : BitVec 6} {Q : MReg → Prop} (h : ∀ x, wide x = f → Q x) : Gives Q (mask? f) := fun x e => h x (wide_of_mask? f x e)
theorem qRead {f : BitVec 6} {Q : QReg → Prop} (h : ∀ x, Instr.qReadOk x = true → wide x = f → Q x) : Gives Q (qRead? f) := fun x e =>
  h x (wide_of_qRead? f x e).1 (wide_of_qRead? f x e).2
theorem qChan {f : BitVec 6} {Q : QReg → Prop} (h : ∀ x, Instr.qChanOk x = true → wide x = f → Q x) : Gives Q (qChan? f) := fun x e =>
  h x (wide_of_qChan? f x e).1 (wide_of_qChan? f x e).2
theorem cls {f : BitVec 5} {Q : BitVec 5 → Prop} (h : Instr.clsOk f = true → Q f) : Gives Q (cls? f) := fun x e => by
  obtain ⟨hx, rfl⟩ := clsOk_of_cls? f x e
  exact h hx
theorem pred {c : Byte} {Q : Option Pred → Prop} (h : ∀ x, encPred x = c → Q x) : Gives Q (pred? c) := fun x e => h x (encPred_of_pred? c x e)
theorem trig {c : Byte} {Q : Option (BitVec 5) × Bool → Prop} (h : ∀ t r, Instr.trigOk t = true → encTrig t r = c → Q (t, r)) :
    Gives Q (trig? c) := fun x e => h x.1 x.2 (encTrig_of_trig? e).1 (encTrig_of_trig? e).2

end Gives

/-! ### What decodes from one word (R40, R48–R53) -/

/-- An instruction that is well formed and has these words. -/
structure Encodes (ws : List Word) (i : Instr) : Prop where
  wf : i.wf = true
  words : encode i = ws

section
variable {d a b : BitVec 6} {n : Nat}

theorem decInt_encodes : Gives (Encodes [rrWord 1 d a b (.ofNat 8 n)]) (decInt d a b n) := by
  unfold decInt
  split
  iterate 25 exact .some ⟨rfl, rfl⟩
  iterate 8 exact .ite (by rintro rfl; exact .some ⟨rfl, rfl⟩)
  iterate 2 exact .some ⟨rfl, rfl⟩
  exact .none
theorem decPair_encodes : Gives (Encodes [rrWord 2 d a b (.ofNat 8 n)]) (decPair d a b n) := by
  unfold decPair
  refine .bind (.pair ?_)
  rintro d rfl
  refine .bind (.pair ?_)
  rintro a rfl
  refine .bind (.pair ?_)
  rintro b rfl
  split
  iterate 9 exact .some ⟨rfl, rfl⟩
  exact .none
theorem decMisc_encodes : Gives (Encodes [rrWord 3 d a b (.ofNat 8 n)]) (decMisc d a b n) := by
  unfold decMisc
  split
  · exact .ite (by rintro ⟨rfl, rfl⟩; exact .map (.pair (by rintro d rfl; exact ⟨rfl, rfl⟩)))
  · exact .ite (by rintro ⟨rfl, rfl⟩; exact .some ⟨rfl, rfl⟩)
  · exact .ite (by rintro rfl; exact .bind (.mask (by rintro d rfl; exact .map (.pair (by rintro a rfl; exact ⟨rfl, rfl⟩)))))
  · exact .ite (by rintro rfl; exact .bind (.pair (by rintro d rfl; exact .map (.mask (by rintro a rfl; exact ⟨rfl, rfl⟩)))))
  · exact .ite (by rintro ⟨rfl, rfl⟩; exact .some ⟨rfl, rfl⟩)
  · exact .none
theorem decQueue_encodes : Gives (Encodes [rrWord 0x28 d a b (.ofNat 8 n)]) (decQueue d a b n) := by
  unfold decQueue
  refine .guard fun hb => ?_
  obtain rfl := not_not.1 hb
  split
  · exact .map (.qRead (by rintro q hq rfl; exact ⟨hq, rfl⟩))
  · exact .map (.qChan (by rintro q hq rfl; exact ⟨hq, rfl⟩))
  · exact .map (.qRead (by rintro q hq rfl; exact ⟨hq, rfl⟩))
  · exact .map (.qChan (by rintro q hq rfl; exact ⟨hq, rfl⟩))
  · exact .map (.qRead (by rintro q hq rfl; exact ⟨hq, rfl⟩))
  · exact .none
theorem decChan_encodes : Gives (Encodes [rrWord 0x29 d a b (.ofNat 8 n)]) (decChan d a b n) := by
  unfold decChan
  split
  · exact .ite fun hb => .map (.qChan (by rintro q hq rfl; exact ⟨hq, congrArg (fun f => [rrWord 0x29 (wide q) a f 0]) (wide_ofBool_of_lt _ hb)⟩))
  · exact .ite (by rintro ⟨rfl, rfl⟩; exact .map (.qChan (by rintro q hq rfl; exact ⟨hq, rfl⟩)))
  · exact .ite (by rintro ⟨rfl, rfl⟩; exact .map (.qChan (by rintro q hq rfl; exact ⟨hq, rfl⟩)))
  · exact .ite (by rintro rfl; exact .map (.qChan (by rintro q hq rfl; exact ⟨hq, rfl⟩)))
  · exact .ite (by rintro rfl; exact .map (.qChan (by rintro q hq rfl; exact ⟨hq, rfl⟩)))
  · exact .none
theorem decFence_encodes : Gives (Encodes [rrWord 0x2D d a b (.ofNat 8 n)]) (decFence d a b n) := by
  unfold decFence
  split
  iterate 4 exact .ite (by rintro ⟨rfl, rfl, rfl⟩; exact .some ⟨rfl, rfl⟩)
  · exact .ite (by rintro rfl; exact .map (.pair (by rintro a rfl; exact ⟨rfl, rfl⟩)))
  · exact .none
theorem decTraps_encodes : Gives (Encodes [rrWord 0x2E d a b (.ofNat 8 n)]) (decTraps d a b n) := by
  unfold decTraps
  split
  · exact .ite (by rintro ⟨rfl, rfl⟩; exact .some ⟨rfl, rfl⟩)
  · exact .ite (by rintro ⟨rfl, rfl, hb⟩; exact .some ⟨rfl, congrArg (fun f => [rrWord 0x2E 0 0 f 1]) (wide_ofBool_of_lt _ hb)⟩)
  · exact .ite (by rintro ⟨rfl, rfl⟩; exact .some ⟨rfl, rfl⟩)
  iterate 2 exact .ite (by rintro ⟨rfl, rfl, rfl⟩; exact .some ⟨rfl, rfl⟩)
  iterate 2 exact .ite (by rintro ⟨rfl, rfl⟩; exact .map (.pair (by rintro a rfl; exact ⟨rfl, rfl⟩)))
  · exact .map (.pair (by rintro a rfl; exact ⟨rfl, rfl⟩))
  · exact .none
end
theorem decMsg_encodes {v : Reg} {c : BitVec 5} {l : BitVec 6} {n p : Bool} {s : Nat} :
    Gives (Encodes [msgWord 0x25 v (.ofNat 6 s) c l n p]) (decMsg v s c l n p) := by
  unfold decMsg
  dsimp only
  split
  · exact .ite (by rintro rfl; exact .map (.cls fun hc => ⟨hc, rfl⟩))
  · exact .ite (by rintro ⟨rfl, rfl, rfl, rfl, rfl⟩; exact .some ⟨rfl, rfl⟩)
  · exact .ite (by rintro ⟨rfl, rfl, rfl, rfl⟩; exact .map (.pair (by rintro v rfl; exact ⟨rfl, rfl⟩)))
  iterate 2 exact .ite (by rintro ⟨rfl, rfl, rfl, rfl⟩; exact .map (.cls fun hc => ⟨hc, rfl⟩))
  iterate 2 exact .ite (by rintro ⟨rfl, rfl, rfl, rfl, rfl⟩; exact .some ⟨rfl, rfl⟩)
  · exact .ite (by rintro ⟨rfl, rfl, rfl, rfl⟩; exact .some ⟨rfl, rfl⟩)
  · exact .ite (by rintro ⟨rfl, rfl, rfl, rfl⟩; exact .map (.pair (by rintro v rfl; exact ⟨rfl, rfl⟩)))
  · exact .ite (by rintro ⟨rfl, rfl, rfl, rfl, rfl⟩; exact .some ⟨rfl, rfl⟩)
  · exact .ite (by rintro ⟨rfl, rfl, rfl, rfl⟩; exact .some ⟨rfl, rfl⟩)
  · exact .none
theorem decBar_encodes {a b : Reg} {n : BitVec 7} {op : Nat} : Gives (Encodes [barWord (.ofNat 4 op) n a b]) (decBar a b op n) := by
  unfold decBar
  split
  · exact .some ⟨rfl, rfl⟩
  · exact .ite (by rintro ⟨rfl, rfl⟩; exact .some ⟨rfl, rfl⟩)
  iterate 4 exact .ite (by rintro rfl; exact .some ⟨rfl, rfl⟩)
  · exact .none
theorem decVec_encodes {d a b : Reg} {k : MReg} {t : VTy} {m n : Nat} :
    Gives (Encodes [vecWord (.ofNat 6 m) d a b k t.code (.ofNat 2 n)]) (decVec m d a b k t n) := by
  unfold decVec
  split
  iterate 5 exact .some ⟨rfl, rfl⟩
  · exact .ite fun ht => .some ⟨ht, rfl⟩
  iterate 2 exact .ite (by rintro ⟨rfl, ht⟩; exact .some ⟨decide_eq_true ht, rfl⟩)
  iterate 4 exact .ite fun ht => .some ⟨ht, rfl⟩
  iterate 4 exact .some ⟨rfl, rfl⟩
  iterate 4 exact .ite fun ht => .some ⟨ht, rfl⟩
  iterate 4 exact .map (.mask (by rintro d rfl; exact ⟨rfl, rfl⟩))
  · exact .ite fun ht => .some ⟨ht, rfl⟩
  iterate 3 exact .ite (by rintro ⟨rfl, ht⟩; exact .some ⟨ht, rfl⟩)
  · refine .ite fun ⟨hb, ht⟩ => .some ⟨decide_eq_true ht, ?_⟩
    exact congrArg (fun f => [vecWord 0x37 d a f k t.code 0]) (by rw [VTy.code_ofCode, wide_setWidth hb])
  iterate 2
    refine .ite (by
      rintro ⟨rfl, h1, h5⟩
      refine .some ⟨?_, congrArg (fun f => [vecWord 0x37 d a f k 2 (.ofNat 2 _)]) (wide_setWidth (by omega))⟩
      simp only [Instr.wf, BitVec.toNat_setWidth, Bool.and_eq_true, decide_eq_true_eq]
      omega)
  · exact .ite (by rintro ⟨rfl, ht⟩; exact .some ⟨ht, rfl⟩)
  iterate 3 exact .ite (by rintro rfl; exact .some ⟨rfl, rfl⟩)
  · exact .ite (by rintro ⟨rfl, ht⟩; exact .some ⟨decide_eq_true ht, rfl⟩)
  · exact .ite (by rintro ⟨rfl, ht⟩; exact .some ⟨ht, rfl⟩)
  · exact .ite (by rintro ⟨rfl, ht⟩; exact .some ⟨ht, rfl⟩)
  · exact .ite fun ht => .some ⟨ht, rfl⟩
  iterate 5 exact .some ⟨rfl, rfl⟩
  iterate 3
    exact .ite (by
      rintro ⟨rfl, rfl⟩
      exact .bind (.mask (by rintro d rfl; exact .bind (.mask (by rintro a rfl; exact .map (.mask (by rintro b rfl; exact ⟨rfl, rfl⟩)))))))
  · exact .ite (by rintro ⟨rfl, rfl, rfl⟩; exact .map (.mask (by rintro a rfl; exact ⟨rfl, rfl⟩)))
  · exact .none
theorem Gives.word {v w : Word} {o : Option Instr} (e : v = w) (h : Gives (Encodes [v]) o) : Gives (Encodes [w]) o := e ▸ h
/-- What decodes from one word is well formed, and the word is its encoding. -/
theorem dec1_encodes (w : Word) : Gives (Encodes [w]) (dec1 w) := by
  unfold dec1
  dsimp only
  split
  next h => exact .word (rrWord_of_fld h) decInt_encodes
  next h => exact .word (rrWord_of_fld h) decPair_encodes
  next h => exact .word (rrWord_of_fld h) decMisc_encodes
  iterate 4 next h => exact .word (riWord_of_fld h) (.some ⟨rfl, rfl⟩)
  next h =>
    refine .guard fun hz => .word (shiftImm_of_fld h (not_not.1 hz)) ?_
    generalize (fld w 12 2).toNat = z
    split
    iterate 3 exact .some ⟨rfl, rfl⟩
    · exact .none
  iterate 2 next h => exact .word (riWord_of_fld h) (.some ⟨rfl, rfl⟩)
  next h =>
    refine .word (riWord_of_fld h) ?_
    generalize fld w 20 6 = d, fld w 14 6 = a
    exact .bind (.pair (by rintro d rfl; exact .map (.pair (by rintro a rfl; exact ⟨rfl, rfl⟩))))
  iterate 2 next h => exact .word (liWord_of_fld h) (.some ⟨rfl, rfl⟩)
  iterate 7 next h => exact .word (riWord_of_fld h) (.some ⟨rfl, rfl⟩)
  iterate 2 next h => exact .word (liWord_of_fld h) (.some ⟨rfl, rfl⟩)
  iterate 2 next h => exact .word (jWord_of_fld h) (.some ⟨rfl, rfl⟩)
  next h =>
    refine .word (rrWord_of_fld h) ?_
    generalize fld w 20 6 = d, fld w 8 6 = b, (fld w 0 8).toNat = n
    split
    · exact .ite (by rintro ⟨rfl, rfl⟩; exact .some ⟨rfl, rfl⟩)
    · exact .ite (by rintro rfl; exact .some ⟨rfl, rfl⟩)
    · exact .none
  next h =>
    have hw := rrWord_of_fld h
    rw [← eq_ofNat_of_toNat rfl] at hw
    exact .word hw (.some ⟨rfl, rfl⟩)
  next h =>
    refine .word (rrWord_of_fld h) ?_
    generalize fld w 14 6 = a, fld w 8 6 = b, (fld w 0 8).toNat = n
    split
    · exact .ite (by rintro rfl; exact .map (.pair (by rintro a rfl; exact ⟨rfl, rfl⟩)))
    · exact .ite (by rintro ⟨rfl, rfl⟩; exact .some ⟨rfl, rfl⟩)
    · exact .none
  next h =>
    refine .ite fun hz => .word (msgWord_of_fld h hz) (.map (.cls fun hc => ⟨hc, ?_⟩))
    rw [← eq_ofNat_of_toNat rfl]
    rfl
  next h => exact .ite fun hz => .word (msgWord_of_fld h hz) decMsg_encodes
  next h => exact .ite fun hz => .word (barWord_of_fld h hz) decBar_encodes
  next h => exact .word (rrWord_of_fld h) decQueue_encodes
  next h => exact .word (rrWord_of_fld h) decChan_encodes
  next h =>
    refine .word (rrWord_of_fld h) ?_
    generalize fld w 20 6 = d, fld w 14 6 = a, fld w 8 6 = b, (fld w 0 8).toNat = n
    split
    iterate 3 exact .ite (by rintro ⟨rfl, rfl⟩; exact .some ⟨rfl, rfl⟩)
    · exact .none
  next h =>
    refine .word (rrWord_of_fld h) ?_
    generalize fld w 20 6 = d, fld w 14 6 = a, fld w 8 6 = b, (fld w 0 8).toNat = n
    split
    · exact .ite (by rintro ⟨rfl, hb⟩; exact .some ⟨rfl, congrArg (fun f => [rrWord 0x2B d 0 f 0]) (wide_setWidth hb)⟩)
    · exact .ite (by rintro ⟨rfl, hb⟩; exact .some ⟨rfl, congrArg (fun f => [rrWord 0x2B 0 a f 1]) (wide_setWidth hb)⟩)
    · exact .none
  next h =>
    have hlt := (fld w 12 2).isLt
    refine .word (csrImm_of_fld h) ?_
    generalize fld w 14 6 = a, (fld w 12 2).toNat = z at *
    split
    · exact .ite (by rintro rfl; exact .some ⟨rfl, rfl⟩)
    iterate 2 exact .some ⟨rfl, rfl⟩
    next h0 h1 h2 =>
      have hz : z ≠ 0 ∧ z ≠ 1 ∧ z ≠ 2 := ⟨h0, h1, h2⟩
      obtain rfl : z = 3 := by omega
      exact .some ⟨rfl, rfl⟩
  next h => exact .word (rrWord_of_fld h) decFence_encodes
  next h => exact .word (rrWord_of_fld h) decTraps_encodes
  next =>
    have hw := vecWord_of_fld (w := w) rfl
    rw [← VTy.code_ofCode (fld w 2 3)] at hw
    exact .ite fun _ => .word hw decVec_encodes

/-! ### What decodes from two words (R43–R45) -/

/-- What words 0 and 1 of format W make has them as its words. -/
def EncodesW (w : Word) (f : BitVec 24 → Byte → Option Instr) : Prop := ∀ o c, Gives (Encodes [w, offWord o c]) (f o c)

theorem Gives.wordW {v w : Word} {o : Option (BitVec 24 → Byte → Option Instr)} (e : v = w) (h : Gives (EncodesW v) o) : Gives (EncodesW w) o := e ▸ h
theorem amoForm_encodes {op : Nat} {r : Reg} {dbl : Bool} {b : Pair} {o : BitVec 24} {q : Bool} {t : Option (BitVec 5)} {z : BitVec 3}
    (hz : (if dbl then 3 else 2) = z) (hok : Instr.amoOk (op = 9) ⟨r, dbl, b, o, q, t⟩ = true) :
    Gives (Encodes [memWord 0x23 r b z (amoFn (.ofNat 4 op)), offWord o (encTrig t q)]) (amoForm op ⟨r, dbl, b, o, q, t⟩) := by
  unfold amoForm
  split
  iterate 11 exact .some ⟨hok, hz ▸ rfl⟩
  exact .none
/-- What words 0 and 1 of format W decode to. -/
theorem decW_encodes (w : Word) : Gives (EncodesW w) (decW w) := by
  unfold decW
  dsimp only
  split
  next h =>
    refine .wordW (memWord_of_fld h) ?_
    generalize fld w 20 6 = r, (fld w 12 3).toNat = z, (fld w 0 12).toNat = n
    split
    iterate 5 exact .some fun o c => .map (.pred (by rintro p rfl; exact ⟨rfl, rfl⟩))
    · refine .ite fun he => .some fun o c => .map (.pred ?_)
      rintro p rfl
      exact ⟨rfl, congrArg (fun r => [memWord 0x20 r _ 3 5, _]) (pairField_of_even _ he)⟩
    · exact .none
  next h =>
    refine .wordW (memWord_of_fld h) ?_
    generalize fld w 20 6 = r, (fld w 12 3).toNat = z, (fld w 0 12).toNat = n
    split
    iterate 3 exact .some fun o c => .map (.pred (by rintro p rfl; exact ⟨rfl, rfl⟩))
    · refine .ite fun he => .some fun o c => .map (.pred ?_)
      rintro p rfl
      exact ⟨rfl, congrArg (fun r => [memWord 0x21 r _ 3 3, _]) (pairField_of_even _ he)⟩
    · exact .none
  next h =>
    refine .guard fun hf => .wordW (memWord_of_fld h) ?_
    rw [← eq_ofNat_of_toNat (x := fld w 0 12) rfl, ← eq_ofNat_of_toNat (x := fld w 12 3) rfl, ← vmemFn_of_fld (not_not.1 hf),
      fld_of_fld w (lo := 12) (n := 3) (k := 0) (m := 2) (by decide)]
    generalize (fld w 0 4).toNat = n, fld w 12 3 = z
    split
    iterate 2
      refine .ite fun hz => .some fun o c => .map (.pred ?_)
      rintro p rfl
      exact ⟨rfl, congrArg (fun z => [memWord 0x22 _ _ z _, _]) (eq_ofNat_of_toNat hz).symm⟩
    · refine .ite fun hz => .some fun o c => .map (.pred ?_)
      rintro p rfl
      exact ⟨rfl, congrArg (fun z => [memWord 0x22 _ _ z _, _]) (elemSize_of_lt _ hz)⟩
    iterate 2
      refine .ite fun hz => .some fun o c => .ite fun hc => .some ⟨rfl, ?_⟩
      exact congrArg₂ (fun z c => [memWord 0x22 _ _ z _, offWord o c]) (sizeField_of_eq _ hz) (indexCtl_of_lt _ hc)
    · exact .none
  next h =>
    refine .guard fun hf => .guard fun hz => .wordW (memWord_of_fld h) (.ite fun ⟨_, hr⟩ => .some fun o c => .bind (.trig ?_))
    rintro t r ht rfl
    rw [← eq_ofNat_of_toNat (x := fld w 0 12) rfl, ← eq_ofNat_of_toNat (x := fld w 12 3) rfl, ← amoFn_of_fld (not_not.1 hf)]
    refine amoForm_encodes (sizeField_of_eq _ (by omega)) ?_
    rw [Instr.amoOk, ht, Bool.true_and]
    by_cases h9 : (fld w 0 4).toNat = 9
    · by_cases h3 : (fld w 12 3).toNat = 3 <;> simpa [h9, h3] using hr
    · rw [if_neg h9] at hr
      rw [if_neg (by simpa using h9)]
      simp only [Bool.or_eq_true, Bool.not_eq_true', decide_eq_false_iff_not, decide_eq_true_eq]
      omega
  next h =>
    refine .guard fun hf => .wordW (memWord_of_fld h) (.some fun o c => .guard fun hr => .map (.trig ?_))
    rintro t r ht rfl
    rw [BitVec.getLsbD_eq_getElem (by decide), getElem_encTrig, Bool.not_eq_true] at hr
    subst hr
    refine ⟨ht, ?_⟩
    rw [← eq_ofNat_of_toNat (x := fld w 0 12) rfl, ← deposFn_of_fld (by tauto), show (fld w 12 3).toNat = 0 by tauto]
    rfl
  · exact .none
theorem loHi_append (a b : Word) : loHi (b ++ a) = [a, b] := by
  rw [loHi, BitVec.extractLsb'_append_eq_of_add_le (by decide), BitVec.extractLsb'_append_eq_of_le (by decide), BitVec.extractLsb'_eq_self,
    BitVec.extractLsb'_eq_self]
@[simp] theorem extractLsb'_append_loHi (a : DWord) : a.extractLsb' 32 32 ++ a.extractLsb' 0 32 = a :=
  (BitVec.extractLsb'_append_extractLsb'_eq_extractLsb' rfl).trans BitVec.extractLsb'_eq_self
@[simp] theorem tail_encTail (t : CopyTail) (d : Bool) : tail (encTail t d) = t := by
  simp [tail]

/-! ### What decodes from eight words (R46, R47) -/

@[simp] theorem firstBad_nil (i : Nat) (ws : List Word) : firstBad i [] ws = none := rfl
@[simp] theorem zeroW_eq (w : Word) : zeroW w = decide (w = 0) := rfl
@[simp] theorem firstBad_cons {i : Nat} {c : Word → Bool} {cs : List (Word → Bool)} {w : Word} {ws : List Word} :
    firstBad i (c :: cs) (w :: ws) = none ↔ c w = true ∧ firstBad (i + 1) cs ws = none := by
  rw [firstBad]
  split <;> simp_all
/-- Where no word is bad or missing, there is a word for each check, and the words behind them do not matter. -/
theorem firstBad_take {cs : List (Word → Bool)} {ws : List Word} : ∀ {i : Nat}, firstBad i cs ws = none →
    cs.length ≤ ws.length ∧ firstBad i cs (ws.take cs.length) = none := by
  induction cs generalizing ws with
  | nil => exact fun _ => ⟨Nat.zero_le _, rfl⟩
  | cons c cs ih =>
    intro i h
    cases ws with
    | nil => cases h
    | cons w ws =>
      obtain ⟨hc, h⟩ := firstBad_cons.1 h
      obtain ⟨hl, hb⟩ := ih h
      exact ⟨Nat.succ_le_succ hl, firstBad_cons.2 ⟨hc, hb⟩⟩

/-- The checks of words 1–7 and what the words make: where the checks hold, word 0 and these are its words. -/
def EncodesTC (w : Word) (p : List (Word → Bool) × (Word → Word → Word → Word → Word → Word → Word → Instr)) : Prop :=
  p.1.length = 7 ∧ ∀ a b c d e g h, firstBad 1 p.1 [a, b, c, d, e, g, h] = none → Encodes [w, a, b, c, d, e, g, h] (p.2 a b c d e g h)
theorem Gives.wordTC {v w : Word} {o : Option (List (Word → Bool) × (Word → Word → Word → Word → Word → Word → Word → Instr))} (e : v = w)
    (h : Gives (EncodesTC v) o) : Gives (EncodesTC w) o := e ▸ h

/-- The words of a copy without direction and rows. -/
theorem encCopy_eq {v a b c d e g : Word} (hg : fld g 22 10 = 0) :
    [v, a] ++ loHi (c ++ b) ++ loHi (e ++ d) ++ [encTail (tail g) false, 0] = [v, a, b, c, d, e, g, 0] := by
  rw [encTail_false_of_fld hg, loHi_append, loHi_append]
  rfl
/-- No target where its bits are zero (R208). -/
theorem noTarget_tail {w : Word} (h : fld w 8 13 = 0) : Instr.noTarget (tail w) = true := by
  have hx : fld w 8 7 = 0 := by rw [fld_of_fld w (lo := 8) (n := 13) (k := 0) (m := 7) (by decide), h]; rfl
  have hy : fld w 15 6 = 0 := by rw [fld_of_fld w (lo := 8) (n := 13) (k := 7) (m := 6) (by decide), h]; rfl
  simp [Instr.noTarget, tail, hx, hy]
/-- What the words of a tile command decode to. -/
theorem decTC_encodes {w : Word} (hm : (fld w 26 6).toNat = 0x3E) : Gives (EncodesTC w) (decTC w) := by
  unfold decTC
  dsimp only
  refine .guard fun hz => ?_
  have hw := fun e o => encTC0_of_fld hm (not_not.1 hz) (e := e) (o := o)
  split
  next he =>
    refine .guard fun hk => ?_
    rw [not_not.1 hk] at hw
    split
    next ho =>
      refine .wordTC (hw _ _ he ho) (.some ⟨rfl, fun a b c d e g h hc => ⟨rfl, ?_⟩⟩)
      simp only [firstBad_cons, zeroW_eq, decide_eq_true_eq] at hc
      obtain ⟨ha, -, -, -, rfl, rfl, rfl, -⟩ := hc
      show [encTC0 0 0 0, mldWord _ _ _] ++ loHi (c ++ b) ++ [d, 0, 0, 0] = _
      rw [mldWord_of_fld ha, loHi_append]
      rfl
    next ho =>
      refine .wordTC (hw _ _ he ho) (.some ⟨rfl, fun a b c d e g h hc => ⟨rfl, ?_⟩⟩)
      simp only [firstBad_cons, zeroW_eq, Bool.and_eq_true, decide_eq_true_eq] at hc
      obtain ⟨⟨⟨h3, h12⟩, h28⟩, hb, rfl, rfl, rfl, rfl, rfl, -⟩ := hc
      exact congrArg₂ (fun a b => [encTC0 0 1 0, a, b, 0, 0, 0, 0, 0]) (mmaWord_of_fld h3 h12 h28) (bandWord_of_fld hb)
    next ho =>
      refine .wordTC (hw _ _ he ho) (.some ⟨rfl, fun a b c d e g h hc => ⟨rfl, ?_⟩⟩)
      simp only [firstBad_cons, zeroW_eq, decide_eq_true_eq] at hc
      obtain ⟨ha, rfl, rfl, rfl, rfl, rfl, rfl, -⟩ := hc
      exact congrArg (fun a => [encTC0 0 2 0, a, 0, 0, 0, 0, 0, 0]) (accWord_of_fld ha)
    next ho =>
      refine .wordTC (hw _ _ he ho) (.some ⟨rfl, fun a b c d e g h hc => ⟨rfl, ?_⟩⟩)
      simp only [firstBad_cons, zeroW_eq, decide_eq_true_eq] at hc
      obtain ⟨ha, -, -, -, rfl, rfl, rfl, -⟩ := hc
      show [encTC0 0 3 0, accWord _] ++ loHi (c ++ b) ++ [d, 0, 0, 0] = _
      rw [accWord_of_fld ha, loHi_append]
      rfl
    next ho =>
      refine .wordTC (hw _ _ he ho) (.some ⟨rfl, fun a b c d e g h hc => ?_⟩)
      simp only [firstBad_cons, zeroW_eq, Bool.and_eq_true, decide_eq_true_eq] at hc
      obtain ⟨⟨⟨h3, h5⟩, h11⟩, -, -, -, -, -, rfl, -⟩ := hc
      refine ⟨decide_eq_true h5, ?_⟩
      show [encTC0 0 4 0, mqntWord _ _ _] ++ loHi (c ++ b) ++ [stridesWord _ _] ++ loHi (g ++ e) ++ [0] = _
      rw [mqntWord_of_fld h3 h11, stridesWord_of_fld, loHi_append, loHi_append]
      rfl
    next ho =>
      refine .wordTC (hw _ _ he ho) (.some ⟨rfl, fun a b c d e g h hc => ⟨rfl, ?_⟩⟩)
      simp only [firstBad_cons, zeroW_eq, Bool.and_eq_true, decide_eq_true_eq] at hc
      obtain ⟨⟨h3, h7⟩, rfl, rfl, rfl, rfl, rfl, rfl, -⟩ := hc
      exact congrArg (fun a => [encTC0 0 5 0, a, 0, 0, 0, 0, 0, 0]) (mamaxWord_of_fld h3 h7)
    · exact .none
  iterate 2
    next he ho =>
      refine .wordTC (hw _ _ he ho) (.some ⟨rfl, fun a b c d e g h hc => ⟨rfl, ?_⟩⟩)
      simp only [firstBad_cons, zeroW_eq, decide_eq_true_eq] at hc
      obtain ⟨-, -, -, -, -, hg, rfl, -⟩ := hc
      exact encCopy_eq hg
  next he ho =>
    refine .wordTC (hw _ _ he ho) (.some ⟨rfl, fun a b c d e g h hc => ⟨rfl, ?_⟩⟩)
    simp only [firstBad_cons, decide_eq_true_eq] at hc
    obtain ⟨-, -, -, -, -, hg, -, -⟩ := hc
    show [encTC0 1 2 _, a] ++ loHi (c ++ b) ++ loHi (e ++ d) ++ [encTail (tail g) (fld g 22 1 = 1), rowsWord _ _] = _
    rw [encTail_of_fld hg, rowsWord_of_fld, loHi_append, loHi_append]
    rfl
  next he ho =>
    refine .wordTC (hw _ _ he ho) (.some ⟨rfl, fun a b c d e g h hc => ⟨rfl, ?_⟩⟩)
    simp only [firstBad_cons, zeroW_eq, decide_eq_true_eq] at hc
    obtain ⟨-, -, -, -, -, hg, rfl, -⟩ := hc
    exact encCopy_eq hg
  next he ho =>
    refine .wordTC (hw _ _ he ho) (.some ⟨rfl, fun a b c d e g h hc => ⟨rfl, ?_⟩⟩)
    simp only [firstBad_cons, zeroW_eq, decide_eq_true_eq] at hc
    obtain ⟨-, -, -, -, rfl, hg, rfl, -⟩ := hc
    show [encTC0 1 4 _, a] ++ loHi (c ++ b) ++ [d, 0, encTail (tail g) false, 0] = _
    rw [encTail_false_of_fld hg, loHi_append]
    rfl
  next he ho =>
    refine .wordTC (hw _ _ he ho) (.some ⟨rfl, fun a b c d e g h hc => ?_⟩)
    simp only [firstBad_cons, Bool.and_eq_true, decide_eq_true_eq] at hc
    obtain ⟨⟨⟨h3, h19⟩, h22⟩, -, -, -, -, hg, hh, -⟩ := hc
    refine ⟨decide_eq_true h3, ?_⟩
    show [encTC0 2 0 _, redWord _ (VTy.ofCode _).code _] ++ loHi (c ++ b) ++ loHi (e ++ d) ++ [encTail (tail g) false, partsWord _] = _
    rw [VTy.code_ofCode, redWord_of_fld h19 h22, encTail_false_of_fld hg, partsWord_of_fld hh, loHi_append, loHi_append]
    rfl
  next he ho =>
    refine .wordTC (hw _ _ he ho) (.some ⟨rfl, fun a b c d e g h hc => ?_⟩)
    simp only [firstBad_cons, Bool.and_eq_true, decide_eq_true_eq] at hc
    obtain ⟨ha, -, -, -, -, ⟨hg, ht⟩, hh, -⟩ := hc
    refine ⟨noTarget_tail ht, ?_⟩
    show [encTC0 2 1 _, castWord _ (VTy.ofCode _).code] ++ loHi (c ++ b) ++ loHi (e ++ d) ++ [encTail (tail g) false, partsWord _] = _
    rw [VTy.code_ofCode, castWord_of_fld ha, encTail_false_of_fld hg, partsWord_of_fld hh, loHi_append, loHi_append]
    rfl
  · exact .none

/-! ### What decodes is its encoding (R41, R54) -/

/-- Only tile commands have eight words (R39). -/
theorem major_of_wordsOf_eq_eight {w : Word} (h : wordsOf w = 8) : (fld w 26 6).toNat = 0x3E := by
  unfold wordsOf at h
  split at h
  iterate 5 cases h
  · assumption
  · cases h
/-- The words that are read are there, and they are the instruction's. -/
theorem decodeWords_encodes {ws : List Word} {i : Instr} {n : Nat} (h : decodeWords ws = .ok i n) : n ≤ ws.length ∧ Encodes (ws.take n) i := by
  unfold decodeWords at h
  split at h
  · cases h
  next w ws =>
  split at h
  · split at h
    · cases h
    next f hf =>
    split at h
    · cases h
    next x ws =>
    split at h
    · cases h
    next i hi =>
    cases h
    have := decW_encodes w f hf _ _ i hi
    rw [offWord_of_fld] at this
    exact ⟨Nat.le_add_left 2 _, this⟩
  next h8 =>
    split at h
    · cases h
    next cs f hf =>
    obtain ⟨hlen, henc⟩ := decTC_encodes (major_of_wordsOf_eq_eight h8) (cs, f) hf
    split at h
    · cases h
    next hbad =>
    obtain ⟨-, hb⟩ := firstBad_take hbad
    rw [show cs.length = 7 from hlen] at hb
    split at h
    · cases h
      exact ⟨Nat.le_add_left 8 _, henc _ _ _ _ _ _ _ hb⟩
    · cases h
  · split at h
    · cases h
    next i hi =>
    cases h
    exact ⟨Nat.le_add_left 1 _, dec1_encodes w _ hi⟩
/-- Settles O3: `decodeWords_encodes`, with the length of the words that are read. -/
theorem decodedWordsAreItsEncoding : Obligations.DecodedWordsAreItsEncoding := by
  intro ws i n h
  obtain ⟨hn, hwf, hw⟩ := decodeWords_encodes h
  exact ⟨hwf, hw, by rw [hw, List.length_take_of_le hn]⟩

/-! ### The words of a well-formed instruction decode to it (R39–R53) -/

/-- The words of an instruction decode to it, whatever follows. -/
def Decodes (i : Instr) : Prop := ∀ rest, decodeWords (encode i ++ rest) = .ok i (encode i).length

/-- What decodes from one word has one word. -/
theorem wordsOf_of_dec1 {w : Word} {i : Instr} (h : dec1 w = some i) : wordsOf w = 1 := by
  unfold wordsOf
  split
  iterate 6 next hm => simp [dec1, hm] at h
  · rfl
theorem wordsOf_of_decW {w : Word} {f} (h : decW w = some f) : wordsOf w = 2 := by
  unfold decW at h
  dsimp only at h
  unfold wordsOf
  split at h
  iterate 5 next hm => simp only [hm]
  · cases h

/-- Words behind those that are checked do not matter. -/
theorem firstBad_append {cs : List (Word → Bool)} {ws : List Word} (r : List Word) :
    ∀ {i : Nat}, firstBad i cs ws = none → firstBad i cs (ws ++ r) = none := by
  induction cs generalizing ws with
  | nil => exact fun _ => rfl
  | cons c cs ih =>
    intro i h
    cases ws with
    | nil => cases h
    | cons w ws =>
      obtain ⟨hc, h⟩ := firstBad_cons.1 h
      exact firstBad_cons.2 ⟨hc, ih h⟩

namespace Decodes
variable {i : Instr}

theorem one {w : Word} (he : encode i = [w]) (h : dec1 w = some i) : Decodes i := fun rest => by
  rw [he, List.singleton_append, decodeWords, wordsOf_of_dec1 h, h]
  rfl
theorem two {w : Word} {o : BitVec 24} {c : Byte} (he : encode i = [w, offWord o c]) (h : ((decW w).bind fun f => f o c) = some i) :
    Decodes i := fun rest => by
  obtain ⟨f, hw, hf⟩ := Option.bind_eq_some_iff.1 h
  simp [he, decodeWords, wordsOf_of_decW hw, hw, hf]
theorem tile {m : BitVec 4} {o : BitVec 6} {n : BitVec 2} {a b c d e g k : Word} (he : encode i = [encTC0 m o n, a, b, c, d, e, g, k])
    (h : ((decTC (encTC0 m o n)).bind fun p => if firstBad 1 p.1 [a, b, c, d, e, g, k] = none then some (p.2 a b c d e g k) else none) = some i) :
    Decodes i := fun rest => by
  obtain ⟨⟨cs, f⟩, hp, hf⟩ := Option.bind_eq_some_iff.1 h
  obtain ⟨hb, hi⟩ := Option.ite_none_right_eq_some.1 hf
  cases hi
  have hw : wordsOf (encTC0 m o n) = 8 := by simp [wordsOf]
  have hr := firstBad_append rest hb
  simp only [List.cons_append, List.nil_append] at hr
  simp [he, decodeWords, hw, hp, hr]

section
variable {d a b : BitVec 6} {f : BitVec 8}
theorem int (he : encode i = [rrWord 1 d a b f]) (h : decInt d a b f.toNat = some i) : Decodes i := one he (by simpa [dec1] using h)
theorem pair (he : encode i = [rrWord 2 d a b f]) (h : decPair d a b f.toNat = some i) : Decodes i := one he (by simpa [dec1] using h)
theorem misc (he : encode i = [rrWord 3 d a b f]) (h : decMisc d a b f.toNat = some i) : Decodes i := one he (by simpa [dec1] using h)
theorem queue (he : encode i = [rrWord 0x28 d a b f]) (h : decQueue d a b f.toNat = some i) : Decodes i := one he (by simpa [dec1] using h)
theorem chan (he : encode i = [rrWord 0x29 d a b f]) (h : decChan d a b f.toNat = some i) : Decodes i := one he (by simpa [dec1] using h)
theorem fence (he : encode i = [rrWord 0x2D d a b f]) (h : decFence d a b f.toNat = some i) : Decodes i := one he (by simpa [dec1] using h)
theorem traps (he : encode i = [rrWord 0x2E d a b f]) (h : decTraps d a b f.toNat = some i) : Decodes i := one he (by simpa [dec1] using h)
end
theorem msg {v s : BitVec 6} {c : BitVec 5} {l : BitVec 6} {n p : Bool} (he : encode i = [msgWord 0x25 v s c l n p])
    (h : decMsg v s.toNat c l n p = some i) : Decodes i := one he (by simpa [dec1] using h)
theorem bar {a b : BitVec 6} {op : BitVec 4} {n : BitVec 7} (he : encode i = [barWord op n a b]) (h : decBar a b op.toNat n = some i) : Decodes i :=
  one he (by simpa [dec1] using h)
theorem vec {m : Nat} {d a b : BitVec 6} {k : MReg} {t : VTy} {f : BitVec 2} (he : encode i = [vecWord (.ofNat 6 m) d a b k t.code f])
    (hm : 0x30 ≤ m ∧ m ≤ 0x3B) (h : decVec m d a b k t f.toNat = some i) : Decodes i := one he (by
  obtain ⟨hlo, hhi⟩ := hm
  interval_cases m
  all_goals simpa [dec1] using h)
theorem amo {op : BitVec 4} {a : AmoArgs} (he : encode i = encAmo op a) (hop : op.toNat ≤ 10) (hok : Instr.amoOk (op.toNat = 9) a = true)
    (h : amoForm op.toNat a = some i) : Decodes i := by
  obtain ⟨r, dbl, b, o, q, t⟩ := a
  rw [Instr.amoOk, Bool.and_eq_true] at hok
  obtain ⟨ht, hr⟩ := hok
  refine two (w := memWord 0x23 r b (if dbl then 3 else 2) (amoFn op)) (o := o) (c := encTrig t q) he ?_
  by_cases h9 : op.toNat = 9 <;> cases dbl <;> simp_all [decW, trig?_encTrig]
end Decodes
/-- The words of a well-formed instruction, where it has any, decode to it. -/
theorem decodes_of_wf {i : Instr} (hwf : i.wf = true) (hne : encode i ≠ []) : Decodes i := by
  cases i with
  | add | sub | and | or | xor | andn | shl | shr | sra | ror | min | max | minn | maxn | slt | sltn | seq | sne | mul | mulh | mulhn | div | divn
  | rem | remn | clz | ctz | popc | brev | sextb | sexth | zextb | zexth | bfx | bfi => exact .int rfl rfl
  | dadd | dsub | dand | dshl | dshr | dsra | dslt | dsltn | dmul => exact .pair rfl (by simp [decPair])
  | rdcyc | rdid | mvsm | mvms | rand => exact .misc rfl (by simp [decMisc])
  | addi d a n | andi d a n | ori d a n | xori d a n | slti d a n | sltni d a n | muli d a n =>
    exact .one (w := riWord _ d a n) rfl (by simp [dec1])
  | shli d a n | shri d a n | srai d a n => exact .one (w := riWord 8 d a (shiftImm _ n)) rfl (by simp [dec1])
  | daddi d a n => exact .one (w := riWord _ (wide d) (wide a) n) rfl (by simp [dec1])
  | lui d n | li d n | bz d n | bnz d n => exact .one (w := liWord _ d n) rfl (by simp [dec1])
  | beq a b o | bne a b o | blt a b o | bge a b o | bltn a b o | bgen a b o => exact .one (w := riWord _ a b o) rfl (by simp [dec1])
  | j o | jal o => exact .one (w := jWord _ o) rfl (by simp [dec1])
  | jr a => exact .one (w := rrWord 0x1A 0 a 0 0) rfl (by simp [dec1])
  | jalr d a => exact .one (w := rrWord 0x1A d a 0 1) rfl (by simp [dec1])
  | loop d a b f => exact .one (w := rrWord 0x1B d a b f) rfl (by simp [dec1])
  | nstclm d a => exact .one (w := rrWord 0x1C d (wide a) 0 0) rfl (by simp [dec1])
  | nstnxt d => exact .one (w := rrWord 0x1C d 0 0 1) rfl (by simp [dec1])
  | ldb r b o p | ldbn r b o p | ldh r b o p | ldhn r b o p | ldw r b o p =>
    exact .two (w := memWord 0x20 r b _ _) (o := o) (c := encPred p) rfl (by simp [decW])
  | stb r b o p | sth r b o p | stw r b o p => exact .two (w := memWord 0x21 r b _ _) (o := o) (c := encPred p) rfl (by simp [decW])
  | ldd r b o p => exact .two (w := memWord 0x20 (pairField r) b _ _) (o := o) (c := encPred p) rfl (by simp [decW])
  | std r b o p => exact .two (w := memWord 0x21 (pairField r) b _ _) (o := o) (c := encPred p) rfl (by simp [decW])
  | vld r b o m p | vst r b o m p => exact .two (w := memWord 0x22 r b 6 (vmemFn m _)) (o := o) (c := encPred p) rfl (by simp [decW])
  | vldbc r z b o m p =>
    exact .two (w := memWord 0x22 r b (elemSize z) (vmemFn m 2)) (o := o) (c := encPred p) rfl (by simp [decW, toNat_elemSize_lt])
  | vgath r z b o m x | vscat r z b o m x =>
    refine .two (w := memWord 0x22 r b (if z then 3 else 2) (vmemFn m _)) (o := o) (c := indexCtl x) rfl ?_
    cases z <;> simp [decW, indexCtl_fields]
  | amoAdd a | amoAnd a | amoOr a | amoXor a | amoMin a | amoMax a | amoMinn a | amoMaxn a | amoSwap a | amoFadd a =>
    exact .amo rfl (by decide) hwf rfl
  | amoCas a => exact .amo rfl (by decide) hwf rfl
  | depos r b o l t =>
    exact .two (w := memWord 0x26 r b 0 (deposFn l)) (o := o) (c := encTrig t false) rfl (by simp [decW, trig?_encTrig (t := t) _ hwf])
  | send v s c l n p => exact .one (w := msgWord 0x24 v s c l n p) rfl (by simp [dec1, cls?_of_clsOk c hwf])
  | reply v c l p | clsmask c | clsunm c => exact .msg rfl (by simp [decMsg, cls?_of_clsOk c hwf])
  | done | launch | kend | vdone | terdem | termap | stepmk | hpost => exact .msg rfl (by simp [decMsg])
  | binit | barr | barrx | baddb | bwait | bstat => exact .bar rfl rfl
  | qrd d q | qrdv d q | qstat d q => exact .queue rfl (by simp [decQueue, qRead?_wide q hwf])
  | qwr q a | qwrv q a => exact .queue rfl (by simp [decQueue, qChan?_wide q hwf])
  | chbind q a c => exact .chan rfl (by simp [decChan, qChan?_wide q hwf, wide_ofBool])
  | chunb q | cheos q | chgrow q | chstat d q => exact .chan rfl (by simp [decChan, qChan?_wide q hwf])
  | slclm n => exact .one (w := rrWord 0x2A 0 0 n 0) rfl (by simp [dec1])
  | slrel n => exact .one (w := rrWord 0x2A 0 0 n 1) rfl (by simp [dec1])
  | slstat d => exact .one (w := rrWord 0x2A d 0 0 2) rfl (by simp [dec1])
  | xidrd d k => exact .one (w := rrWord 0x2B d 0 (wide k) 0) rfl (by simp [dec1, toNat_wide, setWidth_wide, show k.toNat < 4 from k.isLt])
  | xidwt a k => exact .one (w := rrWord 0x2B 0 a (wide k) 1) rfl (by simp [dec1, toNat_wide, setWidth_wide, show k.toNat < 4 from k.isLt])
  | csrr d n => exact .one (w := riWord 0x2C d 0 (csrImm 0 n)) rfl (by simp [dec1])
  | csrw d a n | csrs d a n | csrc d a n => exact .one (w := riWord 0x2C d a (csrImm _ n)) rfl (by simp [dec1])
  | chunk | fenceD | fenceS | lbsync | psync => exact .fence rfl (by simp [decFence])
  | tret k => exact .traps rfl (by simp [decTraps, wide_ofBool])
  | trap | brk | prioff | prion | ctxsav | ctxrst | fwcall => exact .traps rfl (by simp [decTraps])
  | vadd | vsub | vmin | vmax | vmul | vand | vor | vxor | vandn | vsel | vperm | vslu | vsld | vbcl | vrsum | vrmax | vrmin =>
    exact .vec rfl (by decide) rfl
  | vmulh | vshl | vshr | vsra | vror | vfma | vfms | vfnma | vfnms | vdiv | vins => exact .vec rfl (by decide) (if_pos hwf)
  | vabs | vneg | vramax => exact .vec rfl (by decide) (if_pos ⟨rfl, of_decide_eq_true hwf⟩)
  | vsqrt | vrcp | vrsq | vamax | vsplat | vext => exact .vec rfl (by decide) (if_pos ⟨rfl, hwf⟩)
  | vceq | vcne | vclt | vcle => exact .vec rfl (by decide) (by simp [decVec])
  | vcvt d a x m t =>
    have hx : x.code.toNat < 8 := x.code.isLt
    have hne : x ≠ t := of_decide_eq_true hwf
    exact .vec rfl (by decide) (by simp [decVec, toNat_wide, setWidth_wide, hx, hne])
  | vqnt d a f m | vdqnt d a f m =>
    obtain ⟨h1, h5⟩ := Bool.and_eq_true_iff.1 hwf
    exact .vec (t := .f32) rfl (by decide) (by simp [decVec, toNat_wide, setWidth_wide, of_decide_eq_true h1, of_decide_eq_true h5])
  | mand | mor | mxor | mpop => exact .vec rfl (by decide) (by simp [decVec])
  | mld s f t => exact .tile (a := mldWord s f t) rfl (by simp [decTC])
  | mma c sa sb x y => exact .tile (a := mmaWord c sa sb x) (b := bandWord y) rfl (by simp [decTC])
  | mzero c | mst c => exact .tile (a := accWord c) rfl (by simp [decTC])
  | mqnt c f r a x y =>
    have hr : r.toNat ≤ 5 := of_decide_eq_true hwf
    exact .tile (a := mqntWord c f r) (d := stridesWord x y) rfl (by simp [decTC, hr])
  | mamax c n => exact .tile (a := mamaxWord c n) rfl (by simp [decTC])
  | cpin k l a b t | cpout k l a b t | cploc k l a b t | cpfill k l a p t => exact .tile (g := encTail t false) rfl (by simp [decTC])
  | cp2d k l a b t o r p => exact .tile (g := encTail t o) (k := rowsWord r p) rfl (by simp [decTC])
  | xred k n t o a b c p =>
    have ho : o ≠ 3#2 := of_decide_eq_true hwf
    exact .tile (a := redWord n t.code o) (g := encTail c false) (k := partsWord p) rfl (by simp [decTC, ho])
  | xbcast k n t a b c p =>
    exact .tile (a := castWord n t.code) (g := encTail c false) (k := partsWord p) rfl (by simp [decTC, fld_encTail_target hwf])
  | _ => exact absurd rfl hne

/-- Settles O2: the words of each form decode to it. -/
theorem decodeOfEncode : Obligations.DecodeOfEncode := fun _ rest hwf hne => decodes_of_wf hwf hne rest

/-! ### Words that the spec writes out (R3, R39, R40, R60, R64, R78) -/

/-- The code words of 32 bytes that are laid out from the least significant on (R3). -/
theorem wordsOfBytes_range (x : BitVec 256) :
    wordsOfBytes ((List.range 32).map fun i => x.extractLsb' (8 * i) 8) = (List.range 8).map fun i => x.extractLsb' (32 * i) 32 := by
  have h (lo : Nat) : x.extractLsb' (lo + 24) 8 ++ x.extractLsb' (lo + 16) 8 ++ x.extractLsb' (lo + 8) 8 ++ x.extractLsb' lo 8 = x.extractLsb' lo 32 := by
    iterate 3 rw [BitVec.extractLsb'_append_extractLsb'_eq_extractLsb' (by rfl)]
  simp [List.range, List.range.loop, wordsOfBytes, h]
/-- A table word of 32 bits and zeros above it, as code words. -/
theorem wordsOfBytes_tableBytes (w : Word) : wordsOfBytes (tableBytes 32 w.toNat) = w :: List.replicate 7 0 := by
  have hx : BitVec.ofNat 256 (w.toNat % 2 ^ 32) = (0 : BitVec 224) ++ w := by
    refine BitVec.eq_of_toNat_eq ?_
    rw [BitVec.toNat_append, BitVec.toNat_ofNat, Nat.mod_eq_of_lt w.isLt, Nat.mod_eq_of_lt (w.isLt.trans (by decide))]
    exact (Nat.zero_or _).symm
  have hlow : ((0 : BitVec 224) ++ w).extractLsb' (32 * 0) 32 = w :=
    (BitVec.extractLsb'_append_eq_of_add_le (by decide)).trans BitVec.extractLsb'_eq_self
  have hhigh (k : Nat) : ((0 : BitVec 224) ++ w).extractLsb' (32 * (k + 1)) 32 = 0 :=
    (BitVec.extractLsb'_append_eq_of_le (by omega)).trans BitVec.extractLsb'_zero
  have hmap : (List.range 7).map (fun k => ((0 : BitVec 224) ++ w).extractLsb' (32 * (k + 1)) 32) = List.replicate 7 0 := by
    simp only [hhigh, List.map_const', List.length_range]
  rw [show tableBytes 32 w.toNat = (List.range 32).map fun i => (BitVec.ofNat 256 (w.toNat % 2 ^ 32)).extractLsb' (8 * i) 8 from rfl,
    wordsOfBytes_range, hx, List.range_succ_eq_map, List.map_cons, List.map_map, hlow]
  exact congrArg (w :: ·) hmap
/-- Settles O1: the words by evaluation, a table word by its code words. -/
theorem specWordsDecode : Obligations.SpecWordsDecode := by
  iterate 10 refine ⟨by decide, ?_⟩
  intro w
  have h : decode (tableBytes 32 w.toNat) = decodeWords (w :: List.replicate 7 0) := congrArg decodeWords (wordsOfBytes_tableBytes w)
  unfold decodeTableWord
  exact h ▸ rfl

end Sys2Proof

namespace Sys2Proof.Machine

/-! ### What traps in the place of an instruction (R54, R55, R184) -/

/-- Past the end of its image an instruction needs no line of the configuration cache. -/
theorem State.lineHere_of_past {s : State} (h : s.ctx.code.length ≤ s.pc.toNat) : s.lineHere = true := by
  have hlines (here : Nat → Bool) : s.ctx.linesAt s.pc.toNat here = [] := if_pos h
  have hword : (s.core.ctx.code.drop s.core.fir.regs.pc.toNat).take 4 = [] :=
    (congrArg (List.take 4) (List.drop_eq_nil_of_le h)).trans List.take_nil
  have hskip : s.core.skipLine = [] := by
    rw [Core.skipLine, hword]
    exact ite_self _
  have hmissing : s.core.missing = none := by
    simp only [Core.missing, hskip, show ∀ here, s.core.ctx.linesAt s.core.fir.regs.pc.toNat here = [] from hlines]
    rfl
  rw [State.lineHere, hmissing]
  rfl
/-- Past the end of its image no word is there to decode. -/
theorem State.decode_fetched_of_past {s : State} (h : s.ctx.code.length ≤ s.pc.toNat) : decode s.fetched = .illegal 0 := by
  rw [State.fetched, List.drop_eq_nil_of_le h]
  rfl
/-- A core's turn at a word that does not decode. -/
theorem State.coreTurn_illegal {s : State} {k : Nat} (hr : s.core.status = .running) (hl : s.lineHere = true) (hd : decode s.fetched = .illegal k) :
    s.coreTurn = .next (s.opened.trap 0x01 ((s.codeWord s.pc.toNat).getD (Config.word s.tick)) (BitVec.ofNat 32 k)) := by
  have hd' : decode s.opened.fetched = .illegal k := hd
  simp only [State.coreTurn, hr, hl, if_true, State.execAt, hd']
  rfl
/-- A core's turn when its open window has used up its instructions. -/
theorem State.coreTurn_spent {s : State} {i : Instr} {n : Nat} (hr : s.core.status = .running) (hl : s.lineHere = true)
    (hd : decode s.fetched = .ok i n) (hw : s.windowSpent = true) : s.coreTurn = .next (s.opened.trap 0x10 0 0) := by
  have hd' : decode s.opened.fetched = .ok i n := hd
  have hw' : s.opened.windowSpent = true := hw
  simp [State.coreTurn, hr, hl, State.execAt, hd', hw']
/-- A step in which the core's turn goes on to a state settles it. -/
theorem step_of_coreTurn {s t : State} (ht : s.turn = .core) (h : s.coreTurn = .next t) : step s = .next t.settle := by
  have hact : s.act = .next t := by rw [State.act, ht]; exact h
  rw [step, hact]

/-- Settles O5: the turn of the core at a word that does not decode, past its image, and in a window that is used up. -/
theorem trapsInPlaceOfAnInstruction : Obligations.TrapsInPlaceOfAnInstruction := by
  intro s ht hr
  refine ⟨fun k w hl hd hc => ?_, fun h => ?_, fun i n hl hd hwin htrap hcount => ?_⟩
  · have := State.coreTurn_illegal hr hl hd
    rw [hc, Option.getD_some] at this
    exact step_of_coreTurn ht this
  · exact ⟨_, step_of_coreTurn ht (State.coreTurn_illegal hr (State.lineHere_of_past h) (State.decode_fetched_of_past h))⟩
  · refine step_of_coreTurn ht (State.coreTurn_spent hr hl hd ?_)
    simp [State.windowSpent, hwin, htrap, hcount]

end Sys2Proof.Machine

end

/-! # The scalar instructions, the loads and the agents of memory (R21, R56, R58–R71, R74, R75, R77–R79, R93, R112, R126, R194, R196, R206) -/

section

namespace Sys2Proof.Machine

/-! ### Results as integers modulo 2^w (R58, R61, R64) -/

section
variable {w : Nat} (a b : BitVec w) (n : Nat)

theorem add_eq_ofInt : a + b = BitVec.ofInt w (a.toInt + b.toInt) := by rw [BitVec.ofInt_add, BitVec.ofInt_toInt, BitVec.ofInt_toInt]
theorem mul_eq_ofInt : a * b = BitVec.ofInt w (a.toInt * b.toInt) := by rw [BitVec.ofInt_mul, BitVec.ofInt_toInt, BitVec.ofInt_toInt]
theorem sub_eq_ofInt : a - b = BitVec.ofInt w (a.toInt - b.toInt) := BitVec.eq_of_toInt_eq (by rw [BitVec.toInt_sub, BitVec.toInt_ofInt])
theorem shiftLeft_eq_ofInt : a <<< n = BitVec.ofInt w (a.toInt * 2 ^ n) := by
  have h : BitVec.ofInt w (2 ^ n) = BitVec.twoPow w n := by
    rw [show (2 ^ n : Int) = ((2 ^ n : Nat) : Int) by norm_cast, BitVec.ofInt_natCast]
    exact BitVec.eq_of_toNat_eq (by rw [BitVec.toNat_ofNat, BitVec.toNat_twoPow])
  rw [BitVec.ofInt_mul, BitVec.ofInt_toInt, h, BitVec.shiftLeft_eq_mul_twoPow]
theorem ushiftRight_eq_ofInt : a >>> n = BitVec.ofInt w ((a.toNat / 2 ^ n : Nat) : Int) := by
  rw [BitVec.ofInt_natCast]
  exact BitVec.eq_of_toNat_eq (by
    rw [BitVec.toNat_ushiftRight, BitVec.toNat_ofNat, Nat.shiftRight_eq_div_pow, Nat.mod_eq_of_lt (Nat.lt_of_le_of_lt (Nat.div_le_self ..) a.isLt)])
theorem sshiftRight_eq_ofInt : a.sshiftRight n = BitVec.ofInt w (a.toInt / 2 ^ n) := by
  rw [← BitVec.ofInt_toInt (x := a.sshiftRight n), BitVec.toInt_sshiftRight, Int.shiftRight_eq_div_pow]
  norm_cast
theorem min_eq_ofInt : (if a.slt b then a else b) = BitVec.ofInt w (min a.toInt b.toInt) := by
  rw [BitVec.slt_eq_decide]
  by_cases h : a.toInt < b.toInt
  · rw [if_pos (decide_eq_true h), min_eq_left h.le, BitVec.ofInt_toInt]
  · rw [if_neg (by simpa using h), min_eq_right (by omega), BitVec.ofInt_toInt]
theorem max_eq_ofInt : (if a.slt b then b else a) = BitVec.ofInt w (max a.toInt b.toInt) := by
  rw [BitVec.slt_eq_decide]
  by_cases h : a.toInt < b.toInt
  · rw [if_pos (decide_eq_true h), max_eq_right h.le, BitVec.ofInt_toInt]
  · rw [if_neg (by simpa using h), max_eq_left (by omega), BitVec.ofInt_toInt]
theorem umin_eq_ofInt : (if a.ult b then a else b) = BitVec.ofInt w ((min a.toNat b.toNat : Nat) : Int) := by
  rw [BitVec.ofInt_natCast, BitVec.ult_eq_decide]
  by_cases h : a.toNat < b.toNat
  · rw [if_pos (decide_eq_true h), min_eq_left h.le, BitVec.ofNat_toNat, BitVec.setWidth_eq]
  · rw [if_neg (by simpa using h), min_eq_right (by omega), BitVec.ofNat_toNat, BitVec.setWidth_eq]
theorem umax_eq_ofInt : (if a.ult b then b else a) = BitVec.ofInt w ((max a.toNat b.toNat : Nat) : Int) := by
  rw [BitVec.ofInt_natCast, BitVec.ult_eq_decide]
  by_cases h : a.toNat < b.toNat
  · rw [if_pos (decide_eq_true h), max_eq_right h.le, BitVec.ofNat_toNat, BitVec.setWidth_eq]
  · rw [if_neg (by simpa using h), max_eq_left (by omega), BitVec.ofNat_toNat, BitVec.setWidth_eq]
end

/-- Bool(c) as an integer. -/
theorem bit_decide_eq_ofInt (p : Prop) [Decidable p] : bit (decide p) = BitVec.ofInt 32 (if p then 1 else 0) := by
  by_cases h : p <;> simp [bit, h]
theorem bit_slt_eq_ofInt (a b : Word) : bit (a.slt b) = BitVec.ofInt 32 (if a.toInt < b.toInt then 1 else 0) := by
  rw [BitVec.slt_eq_decide, bit_decide_eq_ofInt]
theorem bit_ult_eq_ofInt (a b : Word) : bit (a.ult b) = BitVec.ofInt 32 (if a.toNat < b.toNat then 1 else 0) := by
  rw [BitVec.ult_eq_decide, bit_decide_eq_ofInt]
theorem bit_eq_eq_ofInt (a b : Word) : bit (a == b) = BitVec.ofInt 32 (if a.toInt = b.toInt then 1 else 0) := by
  rw [← bit_decide_eq_ofInt]
  exact congrArg bit (by simp only [beq_eq_decide, BitVec.toInt_inj])
theorem bit_ne_eq_ofInt (a b : Word) : bit (a != b) = BitVec.ofInt 32 (if a.toInt = b.toInt then 0 else 1) := by
  rw [← ite_not, ← bit_decide_eq_ofInt]
  exact congrArg bit (by simp only [bne, beq_eq_decide, BitVec.toInt_inj, decide_not])
/-- The high word of a doubleword that holds an integer. -/
theorem hi32_ofInt (x : Int) : hi32 (BitVec.ofInt 64 x) = BitVec.ofInt 32 (x / 2 ^ 32) := by
  refine BitVec.eq_of_toNat_eq ?_
  simp only [hi32, BitVec.toNat_setWidth, BitVec.toNat_ushiftRight, BitVec.toNat_ofInt, Nat.shiftRight_eq_div_pow]
  omega
theorem mulh_eq_ofInt (a b : Word) : hi32 (sxd a * sxd b) = BitVec.ofInt 32 (a.toInt * b.toInt / 2 ^ 32) := by
  rw [mul_eq_ofInt, hi32_ofInt, sxd, sxd, BitVec.toInt_signExtend_of_le (by omega), BitVec.toInt_signExtend_of_le (by omega)]
theorem mulhn_eq_ofInt (a b : Word) : hi32 (a.setWidth 64 * b.setWidth 64) = BitVec.ofInt 32 ((a.toNat * b.toNat / 2 ^ 32 : Nat) : Int) := by
  have h : a.setWidth 64 * b.setWidth 64 = BitVec.ofInt 64 ((a.toNat * b.toNat : Nat) : Int) := by
    rw [BitVec.ofInt_natCast]
    exact BitVec.eq_of_toNat_eq (by simp [BitVec.toNat_mul])
  rw [h, hi32_ofInt]
  norm_cast

/-- A three-register form of the INT group completes with its integer in rd (R58). -/
theorem exec_intForm {f} (hf : f ∈ intForms) (rd ra rb : Reg) (s : State) :
    exec (f.1 rd ra rb) s = s.giveS rd (BitVec.ofInt 32 (f.2 (s.s ra) (s.s rb))) := by
  simp only [intForms, List.mem_cons, List.not_mem_nil, or_false] at hf
  rcases hf with rfl | rfl | rfl | rfl | rfl | rfl | rfl | rfl | rfl | rfl | rfl | rfl | rfl | rfl | rfl | rfl
  · exact congrArg (s.giveS rd) (add_eq_ofInt ..)
  · exact congrArg (s.giveS rd) (sub_eq_ofInt ..)
  · exact congrArg (s.giveS rd) (shiftLeft_eq_ofInt ..)
  · exact congrArg (s.giveS rd) (ushiftRight_eq_ofInt ..)
  · exact congrArg (s.giveS rd) (sshiftRight_eq_ofInt ..)
  · exact congrArg (s.giveS rd) (min_eq_ofInt ..)
  · exact congrArg (s.giveS rd) (max_eq_ofInt ..)
  · exact congrArg (s.giveS rd) (umin_eq_ofInt ..)
  · exact congrArg (s.giveS rd) (umax_eq_ofInt ..)
  · exact congrArg (s.giveS rd) (bit_slt_eq_ofInt ..)
  · exact congrArg (s.giveS rd) (bit_ult_eq_ofInt ..)
  · exact congrArg (s.giveS rd) (bit_eq_eq_ofInt ..)
  · exact congrArg (s.giveS rd) (bit_ne_eq_ofInt ..)
  · exact congrArg (s.giveS rd) (mul_eq_ofInt ..)
  · exact congrArg (s.giveS rd) (mulh_eq_ofInt ..)
  · exact congrArg (s.giveS rd) (mulhn_eq_ofInt ..)

/-! ### Results by their bits (R58) -/

theorem getLsbD_ror (a b : Word) {k : Nat} (hk : k < 32) : (a.rotateRight (b.toNat % 32)).getLsbD k = a.getLsbD ((k + b.toNat) % 32) := by
  rw [BitVec.getLsbD_rotateRight, Nat.mod_mod]
  by_cases h : k < 32 - b.toNat % 32
  · rw [decide_eq_true h, cond_true, show (k + b.toNat) % 32 = b.toNat % 32 + k by omega]
  · rw [decide_eq_false h, cond_false, decide_eq_true hk, Bool.true_and, show (k + b.toNat) % 32 = k - (32 - b.toNat % 32) by omega]
/-- The number whose binary digits are these, the first the greatest. -/
theorem testBit_foldl_bits (p : Nat → Bool) (n k : Nat) :
    ((List.range n).foldl (fun r i => 2 * r + (if p i then 1 else 0)) 0).testBit k = (decide (k < n) && p (n - 1 - k)) := by
  induction n generalizing k with
  | zero => simp
  | succ n ih =>
    rw [List.range_succ, List.foldl_append, List.foldl_cons, List.foldl_nil]
    cases k with
    | zero => cases h : p n <;> simp [h]
    | succ k =>
      have hd (x : Nat) : (2 * x + (if p n then 1 else 0)) / 2 = x := by split <;> omega
      rw [Nat.testBit_succ, hd, ih, show n + 1 - 1 - (k + 1) = n - 1 - k by omega]
      simp
theorem getLsbD_brev32 (a : Word) {k : Nat} (hk : k < 32) : (brev32 a).getLsbD k = a.getLsbD (31 - k) := by
  rw [brev32, BitVec.getLsbD_ofNat, testBit_foldl_bits]
  simp [hk]
theorem getLsbD_sx {n : Nat} (x : BitVec n) {k : Nat} (hk : k < 32) : (sx x).getLsbD k = if k < n then x.getLsbD k else x.msb := by
  rw [sx, BitVec.getLsbD_signExtend]
  simp [hk]

theorem exec_bitForm {f} (hf : f ∈ bitForms) (rd ra rb : Reg) (s : State) :
    ∃ v : Word, exec (f.1 rd ra rb) s = s.giveS rd v ∧ ∀ k, k < 32 → v.getLsbD k = f.2 (s.s ra) (s.s rb) k := by
  simp only [bitForms, List.mem_cons, List.not_mem_nil, or_false] at hf
  rcases hf with rfl | rfl | rfl | rfl | rfl
  · exact ⟨_, rfl, fun k _ => BitVec.getLsbD_and⟩
  · exact ⟨_, rfl, fun k _ => BitVec.getLsbD_or⟩
  · exact ⟨_, rfl, fun k _ => BitVec.getLsbD_xor⟩
  · exact ⟨_, rfl, fun k hk => by simp [hk]⟩
  · exact ⟨_, rfl, fun k hk => getLsbD_ror _ _ hk⟩
theorem exec_unaryForm {f} (hf : f ∈ unaryForms) (rd ra : Reg) (s : State) :
    ∃ v : Word, exec (f.1 rd ra) s = s.giveS rd v ∧ ∀ k, k < 32 → v.getLsbD k = f.2 (s.s ra) k := by
  simp only [unaryForms, List.mem_cons, List.not_mem_nil, or_false] at hf
  rcases hf with rfl | rfl | rfl | rfl | rfl
  · exact ⟨_, rfl, fun k hk => getLsbD_brev32 _ hk⟩
  · refine ⟨_, rfl, fun k hk => ?_⟩
    rw [getLsbD_sx _ hk]
    by_cases h : k < 8
    · simp [h, show min k 7 = k by omega]
    · simp [h, show min k 7 = 7 by omega, BitVec.msb_eq_getLsbD_last]
  · refine ⟨_, rfl, fun k hk => ?_⟩
    rw [getLsbD_sx _ hk]
    by_cases h : k < 16
    · simp [h, show min k 15 = k by omega]
    · simp [h, show min k 15 = 15 by omega, BitVec.msb_eq_getLsbD_last]
  · exact ⟨_, rfl, fun k hk => by simp [hk]⟩
  · exact ⟨_, rfl, fun k hk => by simp [hk]⟩
/-- clz counts the zeros above the greatest bit that is set. -/
theorem clz32_spec (a : Word) : clz32 a ≤ 32 ∧ (∀ k, k < clz32 a → a.getLsbD (31 - k) = false) ∧ (clz32 a < 32 → a.getLsbD (31 - clz32 a) = true) := by
  unfold clz32
  by_cases h : a = 0
  · rw [if_pos h, h]
    simp
  · have hne : a.toNat ≠ 0 := fun e => h (BitVec.eq_of_toNat_eq e)
    have hlog : a.toNat.log2 < 32 := (Nat.log2_lt hne).2 a.isLt
    rw [if_neg h]
    refine ⟨by omega, fun k hk => ?_, fun _ => ?_⟩
    · exact Nat.testBit_eq_false_of_lt (Nat.lt_of_lt_of_le Nat.lt_log2_self (Nat.pow_le_pow_right (by omega) (by omega)))
    · rw [show 31 - (31 - a.toNat.log2) = a.toNat.log2 by omega]
      exact Nat.testBit_log2 hne
/-- ctz counts the zeros below the least bit that is set. -/
theorem ctz32_spec (a : Word) : ctz32 a ≤ 32 ∧ (∀ k, k < ctz32 a → a.getLsbD k = false) ∧ (ctz32 a < 32 → a.getLsbD (ctz32 a) = true) := by
  unfold ctz32
  cases h : (List.range 32).find? fun i => a.getLsbD i with
  | none => exact ⟨le_refl _, fun k hk => by simpa using List.find?_eq_none.1 h k (List.mem_range.2 hk), fun hlt => absurd hlt (lt_irrefl _)⟩
  | some n =>
    obtain ⟨ha, hn, hb⟩ := List.find?_range_eq_some.1 h
    exact ⟨(List.mem_range.1 hn).le, fun k hk => by simpa using hb k hk, fun _ => ha⟩

/-- Settles O10: each form's result by its integer, its bits, or its count. -/
theorem intFormsGiveTheirResults : Obligations.IntFormsGiveTheirResults := by
  refine ⟨fun f hf rd ra rb s => exec_intForm hf rd ra rb s, fun f hf rd ra rb s => exec_bitForm hf rd ra rb s, fun f hf rd ra s => exec_unaryForm hf rd ra s,
    fun rd ra s => ?_, fun rd ra s => ?_, fun rd ra s => rfl⟩
  · obtain ⟨hle, hzero, hone⟩ := clz32_spec (s.s ra)
    exact ⟨_, hle, rfl, hzero, hone⟩
  · obtain ⟨hle, hzero, hone⟩ := ctz32_spec (s.s ra)
    exact ⟨_, hle, rfl, hzero, hone⟩

/-! ### Division and remainder (R59) -/

section
variable {a b : Word}

theorem divS_zero (a : Word) : divS a 0 = 0xFFFFFFFF ∧ remS a 0 = a ∧ divU a 0 = 0xFFFFFFFF ∧ remU a 0 = a := ⟨rfl, rfl, rfl, rfl⟩
theorem divS_eq_sdiv (h : b ≠ 0) : divS a b = a.sdiv b := by
  rw [divS, if_neg h, ← BitVec.toInt_inj, BitVec.toInt_sdiv, BitVec.toInt_ofInt]
theorem remS_eq_srem (h : b ≠ 0) : remS a b = a.srem b := by
  rw [remS, if_neg h, ← BitVec.toInt_srem, BitVec.ofInt_toInt]
theorem divU_eq_div (h : b ≠ 0) : divU a b = a / b := by
  rw [divU, if_neg h, ← BitVec.toNat_udiv, BitVec.ofNat_toNat, BitVec.setWidth_eq]
theorem remU_eq_mod (h : b ≠ 0) : remU a b = a % b := by
  rw [remU, if_neg h, ← BitVec.toNat_umod, BitVec.ofNat_toNat, BitVec.setWidth_eq]
/-- The dividend is quotient times divisor plus remainder, modulo 2^32, by zero too. -/
theorem divS_mul_add_remS (a b : Word) : a = divS a b * b + remS a b := by
  by_cases h : b = 0
  · rw [h, (divS_zero a).2.1]; simp
  · calc a = BitVec.ofInt 32 (a.toInt.tdiv b.toInt * b.toInt + a.toInt.tmod b.toInt) := by rw [Int.tdiv_mul_add_tmod, BitVec.ofInt_toInt]
      _ = divS a b * b + remS a b := by rw [BitVec.ofInt_add, BitVec.ofInt_mul, BitVec.ofInt_toInt, divS, remS, if_neg h, if_neg h]
theorem divU_mul_add_remU (a b : Word) : a = divU a b * b + remU a b := by
  by_cases h : b = 0
  · rw [h, (divS_zero a).2.2.2]; simp
  · calc a = BitVec.ofNat 32 (a.toNat / b.toNat * b.toNat + a.toNat % b.toNat) := by
          rw [Nat.div_add_mod', BitVec.ofNat_toNat, BitVec.setWidth_eq]
      _ = divU a b * b + remU a b := by
          rw [BitVec.ofNat_add, BitVec.ofNat_mul, divU, remU, if_neg h, if_neg h, BitVec.ofNat_toNat (m := 32) (x := b), BitVec.setWidth_eq]
/-- The one signed quotient that no word holds. -/
theorem divS_overflow : divS 0x80000000 0xFFFFFFFF = 0x80000000 ∧ remS 0x80000000 0xFFFFFFFF = 0 := by decide
theorem toInt_divS (h : b ≠ 0) (ho : ¬ (a = 0x80000000 ∧ b = 0xFFFFFFFF)) : (divS a b).toInt = a.toInt.tdiv b.toInt := by
  rw [divS_eq_sdiv h]
  exact BitVec.toInt_sdiv_of_ne_or_ne _ _ (not_and_or.1 ho)
theorem toInt_remS (h : b ≠ 0) (ho : ¬ (a = 0x80000000 ∧ b = 0xFFFFFFFF)) : (remS a b).toInt = a.toInt - (divS a b).toInt * b.toInt := by
  rw [toInt_divS h ho, remS_eq_srem h, BitVec.toInt_srem, Int.tmod_def, mul_comm]
theorem toNat_divU (h : b ≠ 0) : (divU a b).toNat = a.toNat / b.toNat := by rw [divU_eq_div h, BitVec.toNat_udiv]
theorem toNat_remU (h : b ≠ 0) : (remU a b).toNat = a.toNat - (divU a b).toNat * b.toNat := by
  rw [toNat_divU h, remU_eq_mod h, BitVec.toNat_umod, Nat.mod_eq_sub_div_mul]
end

/-- Settles O11: the identity of quotient and remainder, and their values by zero, on overflow and elsewhere. -/
theorem divisionFollowsItsTable : Obligations.DivisionFollowsItsTable := by
  intro rd ra rb s
  refine ⟨_, _, _, _, rfl, rfl, rfl, rfl, divS_mul_add_remS _ _, divU_mul_add_remU _ _, ?_⟩
  split
  · next h => rw [h]; exact divS_zero _
  · next h =>
    refine ⟨?_, toNat_divU h, toNat_remU h⟩
    split
    · next ho => rw [ho.1, ho.2]; exact divS_overflow
    · next ho => exact ⟨toInt_divS h ho, toInt_remS h ho⟩

/-! ### Bit fields (R60) -/

/-- The mask of a field's width. -/
def fieldMask (w : Nat) : DWord := BitVec.ofNat 64 (2 ^ w - 1)
theorem getLsbD_fieldMask (w k : Nat) : (fieldMask w).getLsbD k = (decide (k < 64) && decide (k < w)) := by
  rw [fieldMask, BitVec.getLsbD_ofNat, Nat.testBit_two_pow_sub_one]
theorem fieldP_eq (b : Word) : fieldP b = b.toNat % 32 := by
  simp [fieldP, BitVec.extractLsb'_toNat]
theorem fieldW_eq (b : Word) : fieldW b = min (b.toNat / 256 % 64) 32 := by
  simp [fieldW, BitVec.extractLsb'_toNat, Nat.shiftRight_eq_div_pow]
theorem bfx32_eq (a b : Word) : bfx32 a b = (((a.setWidth 64 : DWord) >>> fieldP b) &&& fieldMask (fieldW b)).setWidth 32 := by
  refine BitVec.eq_of_getLsbD_eq fun k hk => ?_
  rw [bfx32, BitVec.getLsbD_ofNat, Nat.testBit_mod_two_pow, Nat.testBit_div_two_pow, BitVec.getLsbD_setWidth, BitVec.getLsbD_and,
    BitVec.getLsbD_ushiftRight, BitVec.getLsbD_setWidth, getLsbD_fieldMask, BitVec.testBit_toNat, Nat.add_comm k]
  by_cases ho : fieldP b + k < 64
  · simp [hk, ho, show k < 64 by omega, Bool.and_comm]
  · rw [BitVec.getLsbD_of_ge a _ (by omega)]
    simp
theorem bfi32_eq (d a b : Word) : bfi32 d a b = (((d.setWidth 64 : DWord) &&& ~~~ (fieldMask (fieldW b) <<< fieldP b))
    ||| (((a.setWidth 64 : DWord) &&& fieldMask (fieldW b)) <<< fieldP b)).setWidth 32 := by
  refine BitVec.eq_of_getLsbD_eq fun k hk => ?_
  have hk' : k < 64 := by omega
  have hs : k - fieldP b < 64 := by omega
  simp only [bfi32, BitVec.getLsbD_or, BitVec.getLsbD_and, BitVec.getLsbD_not, BitVec.getLsbD_ofNat, BitVec.getLsbD_setWidth, BitVec.getLsbD_shiftLeft,
    Nat.testBit_mul_two_pow, Nat.testBit_two_pow_sub_one, Nat.testBit_mod_two_pow, getLsbD_fieldMask, hk, hk', hs, decide_true, Bool.true_and,
    BitVec.testBit_toNat]
  by_cases hp : fieldP b ≤ k
  · simp [hp, show ¬ k < fieldP b by omega, Bool.and_comm]
  · simp [hp, show k < fieldP b by omega]

/-- Settles O12: the bits of the fields, and the words by evaluation. -/
theorem fieldsAreExtractedAndInserted : Obligations.FieldsAreExtractedAndInserted := by
  intro rd ra rb s a d p w m
  have hp : fieldP (s.s rb) = p := fieldP_eq _
  have hw : fieldMask (fieldW (s.s rb)) = m := congrArg fieldMask (fieldW_eq _)
  refine ⟨?_, ?_, fun h => ?_, by decide, by decide, by decide, by decide⟩
  · rw [← hp, ← hw]; exact congrArg (s.giveS rd) (bfx32_eq ..)
  · rw [← hp, ← hw]; exact congrArg (s.giveS rd) (bfi32_eq ..)
  · have hm : m = 0#64 := by simp only [m, h]; rfl
    have hkept : (d &&& ~~~(m <<< p)) ||| ((a &&& m) <<< p) = d := by
      rw [hm, BitVec.zero_shiftLeft, BitVec.not_zero, BitVec.and_allOnes, BitVec.and_zero, BitVec.zero_shiftLeft, BitVec.or_zero]
    refine ⟨by rw [hm, BitVec.and_zero]; rfl, ?_⟩
    rw [hkept]
    exact (BitVec.setWidth_setWidth_of_le _ (by omega)).trans (BitVec.setWidth_eq _)

/-! ### Pairs, immediates and the miscellany (R21, R61–R64) -/

theorem setWidth_bit (p : Prop) [Decidable p] : (bit (decide p)).setWidth 64 = BitVec.ofInt 64 (if p then 1 else 0) := by
  by_cases h : p <;> simp [bit, h]
theorem exec_pairForm {f} (hf : f ∈ pairForms) (rd ra rb : Pair) (s : State) :
    exec (f.1 rd ra rb) s = s.giveD rd (BitVec.ofInt 64 (f.2 (s.d ra) (s.d rb))) := by
  simp only [pairForms, List.mem_cons, List.not_mem_nil, or_false] at hf
  rcases hf with rfl | rfl | rfl | rfl | rfl | rfl | rfl | rfl
  · exact congrArg (s.giveD rd) (add_eq_ofInt ..)
  · exact congrArg (s.giveD rd) (sub_eq_ofInt ..)
  · exact congrArg (s.giveD rd) (shiftLeft_eq_ofInt ..)
  · exact congrArg (s.giveD rd) (ushiftRight_eq_ofInt ..)
  · exact congrArg (s.giveD rd) (sshiftRight_eq_ofInt ..)
  · exact congrArg (s.giveD rd) ((congrArg (fun c => (bit c).setWidth 64) BitVec.slt_eq_decide).trans (setWidth_bit _))
  · exact congrArg (s.giveD rd) ((congrArg (fun c => (bit c).setWidth 64) BitVec.ult_eq_decide).trans (setWidth_bit _))
  · exact congrArg (s.giveD rd) (mul_eq_ofInt ..)

/-- Settles O13: each form by its integer, dand by its bits. -/
theorem pairFormsGiveTheirResults : Obligations.PairFormsGiveTheirResults :=
  ⟨fun _ hf rd ra rb s => exec_pairForm hf rd ra rb s, fun _ _ _ _ => ⟨_, rfl, fun _ _ => BitVec.getLsbD_and⟩⟩

/-- COREID by its fields (R21). -/
theorem coord_eq_ofNat {c : Nat} (h : c < 8192) : (coord c).setWidth 32 = BitVec.ofNat 32 (c % 128 + 2 ^ 7 * (c / 128) + 2 ^ 13 * Config.package.toNat) := by
  have hp := Config.package.isLt
  refine BitVec.eq_of_toNat_eq ?_
  rw [coord, BitVec.toNat_setWidth, BitVec.toNat_append, BitVec.toNat_append, BitVec.toNat_ofNat, BitVec.toNat_ofNat, BitVec.toNat_ofNat, cx, cy,
    Nat.shiftLeft_eq, Nat.shiftLeft_eq, Nat.mul_comm _ (2 ^ 7), Nat.mul_comm _ (2 ^ 6), ← Nat.two_pow_add_eq_or_of_lt (by omega),
    ← Nat.two_pow_add_eq_or_of_lt (by omega)]
  omega

/-- Settles O14: rdid by the layout of COREID, the moves as they stand. -/
theorem miscFormsGiveTheirResults : Obligations.MiscFormsGiveTheirResults := fun s =>
  ⟨fun _ => rfl, fun rd h => congrArg (s.giveS rd) (coord_eq_ofNat h), fun _ _ => rfl, fun _ _ => rfl⟩

/-- Settles O15: the generator's step, written out. -/
theorem randStepsTheGenerator : Obligations.RandStepsTheGenerator := fun _ _ => rfl

theorem toInt_sx {n : Nat} (x : BitVec n) (h : n ≤ 32) : (sx x).toInt = x.toInt := BitVec.toInt_signExtend_of_le h
theorem exec_immForm {f} (hf : f ∈ immForms) (rd ra : Reg) (i : BitVec 14) (s : State) :
    exec (f.1 rd ra i) s = s.giveS rd (BitVec.ofInt 32 (f.2 (s.s ra) i)) := by
  have hi : (sx i).toInt = i.toInt := toInt_sx i (by omega)
  simp only [immForms, List.mem_cons, List.not_mem_nil, or_false] at hf
  rcases hf with rfl | rfl | rfl | rfl
  · exact congrArg (s.giveS rd) (by rw [add_eq_ofInt, hi])
  · exact congrArg (s.giveS rd) (by rw [mul_eq_ofInt, hi])
  · exact congrArg (s.giveS rd) (by rw [bit_slt_eq_ofInt, hi])
  · exact congrArg (s.giveS rd) (bit_ult_eq_ofInt ..)
theorem exec_immBitForm {f} (hf : f ∈ immBitForms) (rd ra : Reg) (i : BitVec 14) (s : State) :
    ∃ v : Word, exec (f.1 rd ra i) s = s.giveS rd v ∧ ∀ k, k < 32 → v.getLsbD k = f.2 (s.s ra) i k := by
  simp only [immBitForms, List.mem_cons, List.not_mem_nil, or_false] at hf
  rcases hf with rfl | rfl | rfl <;> exact ⟨_, rfl, fun k hk => by simp [hk]⟩
theorem exec_shiftForm {f} (hf : f ∈ shiftForms) (rd ra : Reg) (n : BitVec 5) (s : State) :
    exec (f.1 rd ra n) s = s.giveS rd (BitVec.ofInt 32 (f.2 (s.s ra) n.toNat)) := by
  simp only [shiftForms, List.mem_cons, List.not_mem_nil, or_false] at hf
  rcases hf with rfl | rfl | rfl
  · exact congrArg (s.giveS rd) (shiftLeft_eq_ofInt ..)
  · exact congrArg (s.giveS rd) (ushiftRight_eq_ofInt ..)
  · exact congrArg (s.giveS rd) (sshiftRight_eq_ofInt ..)
theorem lui_eq_ofNat (i : BitVec 20) : i.setWidth 32 <<< 12 = BitVec.ofNat 32 (4096 * i.toNat) := by
  refine BitVec.eq_of_toNat_eq ?_
  rw [BitVec.toNat_shiftLeft, BitVec.toNat_setWidth, BitVec.toNat_ofNat, Nat.shiftLeft_eq]
  omega

/-- Settles O16: the forms by their integers or bits. -/
theorem immediateFormsGiveTheirResults : Obligations.ImmediateFormsGiveTheirResults := by
  refine ⟨fun _ hf rd ra i s => exec_immForm hf rd ra i s, fun _ hf rd ra i s => exec_immBitForm hf rd ra i s, fun _ hf rd ra n s => exec_shiftForm hf rd ra n s,
    fun rd ra i s => ?_, fun rd i s => congrArg (s.giveS rd) (lui_eq_ofNat i), fun rd i s => ?_⟩
  · exact congrArg (s.giveD rd) (by rw [add_eq_ofInt, sxd, BitVec.toInt_signExtend_of_le (by omega)])
  · exact congrArg (s.giveS rd) (by rw [← toInt_sx i (by omega), BitVec.ofInt_toInt])

/-! ### Transfers of control (R56, R66, R67, R70) -/

theorem inCode_iff {s : State} {x : Word} : s.inCode x = true ↔ x.toNat < s.ctx.code.length := decide_eq_true_iff
/-- A byte offset of `o` words, sign-extended (R66, R67). -/
theorem sx_shiftLeft_two {n : Nat} (o : BitVec n) (h : n ≤ 32) : sx o <<< 2 = BitVec.ofInt 32 (4 * o.toInt) := by
  rw [shiftLeft_eq_ofInt, toInt_sx o h, mul_comm]
  rfl
theorem State.transfer_eq (s : State) (x : Word) (closes : Bool) (f : State → State) :
    s.transfer x closes f = .next (if x.toNat < s.ctx.code.length then (f s).retireTo x closes else s.trap 0x03 x 0) := by
  rw [State.transfer]
  simp only [inCode_iff]
  exact (apply_ite Host.Outcome.next _ _ _).symm
/-- A conditional branch by its condition and its target. -/
theorem State.branch_eq (s : State) (taken : Bool) {n : Nat} (o : BitVec n) (h : n ≤ 32) :
    let x := s.pc + BitVec.ofInt 32 (4 * o.toInt)
    s.branch taken (sx o) = .next (if taken then (if x.toNat < s.ctx.code.length then s.retireTo x true else s.trap 0x03 x 0) else s.retire 1) := by
  intro x
  have hx : s.pc + (sx o <<< 2) = x := by rw [sx_shiftLeft_two o h]
  rw [State.branch, hx, State.transfer_eq]
  exact (apply_ite Host.Outcome.next _ _ _).symm
theorem exec_branchForm {f} (hf : f ∈ branchForms) (ra rb : Reg) (o : BitVec 14) (s : State) :
    exec (f.1 ra rb o) s = s.branch (f.2 (s.s ra) (s.s rb)) (sx o) := by
  simp only [branchForms, List.mem_cons, List.not_mem_nil, or_false] at hf
  rcases hf with rfl | rfl | rfl | rfl | rfl | rfl
  · exact congrArg (s.branch · (sx o)) (beq_eq_decide ..)
  · exact congrArg (s.branch · (sx o)) (show (s.s ra != s.s rb) = decide (s.s ra ≠ s.s rb) by rw [bne, beq_eq_decide, decide_not])
  · exact congrArg (s.branch · (sx o)) BitVec.slt_eq_decide
  · exact congrArg (s.branch · (sx o)) (by rw [BitVec.slt_eq_decide, ← decide_not]; simp only [not_lt])
  · exact congrArg (s.branch · (sx o)) BitVec.ult_eq_decide
  · exact congrArg (s.branch · (sx o)) (by rw [BitVec.ult_eq_decide, ← decide_not]; simp only [not_lt])

/-- Settles O17: each form is a branch on its condition. -/
theorem branchesGoWhereTheySay : Obligations.BranchesGoWhereTheySay := by
  refine ⟨fun f hf ra rb o s => ?_, fun ra o s => ⟨?_, ?_⟩⟩
  · rw [exec_branchForm hf, State.branch_eq s _ o (by omega)]
  · rw [show exec (.bz ra o) s = s.branch (s.s ra == 0) (sx o) from rfl, State.branch_eq s _ o (by omega)]
    simp only [beq_iff_eq]
  · rw [show exec (.bnz ra o) s = s.branch (s.s ra != 0) (sx o) from rfl, State.branch_eq s _ o (by omega), ← ite_not (p := s.s ra = 0)]
    simp only [bne_iff_ne, ne_eq]

theorem and_three_ne_zero_iff (x : Word) : x &&& 3 ≠ 0 ↔ x.toNat % 4 ≠ 0 := by
  have h : (x &&& 3).toNat = x.toNat % 4 := (BitVec.toNat_and ..).trans (Nat.and_two_pow_sub_one_eq_mod _ 2)
  rw [← h, not_iff_not]
  exact ⟨fun e => by rw [e]; rfl, fun e => BitVec.eq_of_toNat_eq e⟩
/-- A jump to a register's address by its alignment and its target. -/
theorem jumpReg_eq (s : State) (x : Word) (closes : Bool) (f : State → State) :
    (if x &&& 3 ≠ 0 then .next (s.trap 0x02 x 0) else s.transfer x closes f : Res) = .next (if x.toNat % 4 ≠ 0 then s.trap 0x02 x 0
      else if x.toNat < s.ctx.code.length then (f s).retireTo x closes else s.trap 0x03 x 0) := by
  rw [State.transfer_eq]
  simp only [and_three_ne_zero_iff]
  exact (apply_ite Host.Outcome.next _ _ _).symm

section
variable (r : Regs) (x : Word)

/-- A jump that closes no level moves the pc alone (R70). -/
theorem Regs.jump_open : r.jump x false = { r with pc := x } := rfl
/-- A target outside level 0's body closes both levels. -/
theorem Regs.jump_out (h : r.l0.on = true) (hx : r.l0.holds x = false) : r.jump x true = { r with l0 := .shut, l1 := .shut, pc := x } := by
  simp [Regs.jump, h, hx, Level.shut]
/-- A target inside level 0's body leaves level 0. -/
theorem Regs.jump_l0 (hx : r.l0.holds x = true) : (r.jump x true).l0 = r.l0 := by
  simp only [Regs.jump, hx, Bool.not_true, Bool.and_false, Bool.false_eq_true, if_false]
  split <;> rfl
theorem Regs.jump_getS (closes : Bool) (i : Reg) : (r.jump x closes).getS i = r.getS i := by
  unfold Regs.jump
  dsimp only
  split_ifs <;> rfl
end

/-- Settles O18: the transfers by `State.transfer_eq`, the levels by the target's place. -/
theorem jumpsGoAndLink : Obligations.JumpsGoAndLink := by
  refine ⟨fun s => ⟨fun o => ?_, fun ra rd => ⟨jumpReg_eq s _ true id, jumpReg_eq s _ false fun s => s.setS rd (s.pc + 4)⟩⟩,
    fun r x => ⟨rfl, rfl, rfl, rfl, fun h hx => ?_, r.jump_l0 x, r.jump_getS x true⟩⟩
  · have hx : s.pc + (sx o <<< 2) = s.pc + BitVec.ofInt 32 (4 * o.toInt) := by rw [sx_shiftLeft_two o (by omega)]
    intro x
    rw [show exec (.j o) s = s.transfer (s.pc + (sx o <<< 2)) true id from rfl,
      show exec (.jal o) s = s.transfer (s.pc + (sx o <<< 2)) false fun s => s.setS 63 (s.pc + 4) from rfl, hx, State.transfer_eq, State.transfer_eq]
    exact ⟨rfl, rfl⟩
  · rw [r.jump_out x h hx]
    exact ⟨rfl, rfl⟩

/-! ### Hardware loops (R68–R71) -/

/-- The trip count with a positive step: the least number of steps that reach the bound, none when the start is there already. -/
theorem tripCount_up {st bd sp : Int} (h : 0 < sp) : (tripCount st bd sp : Int) * sp < bd - st + sp ∧ bd - st ≤ tripCount st bd sp * sp
    ∨ tripCount st bd sp = 0 ∧ bd ≤ st := by
  rw [tripCount, if_pos h]
  by_cases hb : st < bd
  · refine .inl ?_
    rw [Int.toNat_of_nonneg (Int.ediv_nonneg (by omega) (by omega))]
    have h1 := Int.ediv_mul_le (bd - st + sp - 1) (by omega : sp ≠ 0)
    have h2 := Int.lt_ediv_add_one_mul_self (bd - st + sp - 1) h
    rw [add_mul, one_mul] at h2
    omega
  · refine .inr ⟨Int.toNat_eq_zero.2 (Int.lt_add_one_iff.1 (Int.ediv_lt_of_lt_mul h ?_)), by omega⟩
    omega
/-- With a negative step the count is that of the mirrored range. -/
theorem tripCount_down {st bd sp : Int} (h : sp < 0) : tripCount st bd sp = tripCount bd st (-sp) := by
  rw [tripCount, tripCount, if_neg (by omega), if_pos (by omega)]

section
variable {rd ra rb : Reg} {fn : Byte} {s : State} {e : Nat}

theorem exec_loop_noStep (h : s.s rb = 0) : ∃ w, exec (.loop rd ra rb fn) s = .next (s.trap 0x01 w 0) := ⟨_, if_pos h⟩
theorem exec_loop_noBody (h : s.s rb ≠ 0) (hb : s.bodyEnd (fn.toNat + 1) (s.pc.toNat + 4) = none) :
    exec (.loop rd ra rb fn) s = .next (s.trap 0x03 (BitVec.ofNat 32 s.ctx.code.length) 0) := by
  show execLoop rd ra rb fn s = _
  rw [execLoop]
  dsimp only
  rw [if_neg h, hb]
  rfl
theorem exec_loop_nest (h : s.s rb ≠ 0) (hb : s.bodyEnd (fn.toNat + 1) (s.pc.toNat + 4) = some e)
    (hn : s.regs.l0.on = true ∧ (s.regs.l1.on = true ∨ s.regs.l0.stop.toNat < e)) : ∃ w, exec (.loop rd ra rb fn) s = .next (s.trap 0x0F w 0) := by
  refine ⟨(s.codeWord s.pc.toNat).getD ((0x1B : BitVec 6) ++ rd ++ ra ++ rb ++ fn), ?_⟩
  show execLoop rd ra rb fn s = _
  rw [execLoop]
  dsimp only
  rw [if_neg h, hb]
  exact if_pos hn
/-- A loop whose body lies in the image and whose level is free. -/
theorem exec_loop_opens (h : s.s rb ≠ 0) (hb : s.bodyEnd (fn.toNat + 1) (s.pc.toNat + 4) = some e)
    (hn : ¬ (s.regs.l0.on = true ∧ (s.regs.l1.on = true ∨ s.regs.l0.stop.toNat < e))) :
    let n := tripCount (s.s rd).toInt (s.s ra).toInt (s.s rb).toInt
    let l : Level := ⟨BitVec.ofNat 32 n, s.pc + 4, BitVec.ofNat 32 e, rd, s.s rb, true⟩
    exec (.loop rd ra rb fn) s =
      if n = 0 then (if s.inCode (BitVec.ofNat 32 e) then .next (((s.setRegs { s.regs with pc := BitVec.ofNat 32 e }).counted).full)
        else .next (s.trap 0x03 (BitVec.ofNat 32 e) 0))
      else .next (((s.setRegs { (if s.regs.l0.on then { s.regs with l1 := l } else { s.regs with l0 := l }) with pc := s.pc + 4 }).counted).full) := by
  intro n l
  show execLoop rd ra rb fn s = _
  rw [execLoop]
  dsimp only
  rw [if_neg h, hb]
  exact if_neg hn
end

/-- Counting an instruction leaves the registers that it has written. -/
theorem State.full_counted_regs (s : State) : s.counted.full.regs = s.regs := by
  rw [State.full_cases]
  split <;> rfl

/-- Settles O19: the trap of each check in its order, then the trip count. -/
theorem loopOpensWithItsTripCount : Obligations.LoopOpensWithItsTripCount := by
  intro rd ra rb fn s
  refine ⟨exec_loop_noStep, exec_loop_noBody, ?_⟩
  intro e h hb l
  refine ⟨fun h0 h1 => exec_loop_nest h hb ⟨h0, h1⟩, fun hfree => ?_⟩
  have hn : ¬ (s.regs.l0.on = true ∧ (s.regs.l1.on = true ∨ s.regs.l0.stop.toNat < e)) := by
    rintro ⟨h0, h1⟩
    rcases hfree with hf | ⟨hf, hle⟩
    · simp [hf] at h0
    · rcases h1 with h1 | h1
      · simp [hf] at h1
      · omega
  have hx := exec_loop_opens (rd := rd) (ra := ra) h hb hn
  refine ⟨tripCount (s.s rd).toInt (s.s ra).toInt (s.s rb).toInt, ?_, ?_⟩
  · have hz : (s.s rb).toInt ≠ 0 := fun hz => h (BitVec.eq_of_toInt_eq hz)
    split
    · next hp => exact tripCount_up hp
    · next hp =>
      rw [tripCount_down (by omega)]
      rcases tripCount_up (st := (s.s ra).toInt) (bd := (s.s rd).toInt) (sp := -(s.s rb).toInt) (by omega) with hc | hc
      · exact .inl ⟨by omega, hc.2⟩
      · exact .inr hc
  · generalize tripCount (s.s rd).toInt (s.s ra).toInt (s.s rb).toInt = n at hx
    refine ⟨fun h0 hout => ?_, fun hin => ?_⟩
    · rw [hx, if_pos h0, if_neg (mt inCode_iff.1 (by omega))]
    by_cases h0 : n = 0
    · rw [hx, if_pos h0, if_pos (inCode_iff.2 (hin.resolve_left (not_not.2 h0)))]
      refine ⟨_, rfl, fun r => ?_, ?_⟩
      · rw [State.s, State.full_counted_regs]; rfl
      · rw [if_pos h0, State.pc, State.full_counted_regs]
        exact ⟨rfl, rfl, rfl⟩
    · rw [hx, if_neg h0]
      refine ⟨_, rfl, fun r => ?_, ?_⟩
      · rw [State.s, State.full_counted_regs, State.setRegs_regs]
        split <;> rfl
      · rw [if_neg h0, State.pc, State.full_counted_regs, State.setRegs_regs]
        split <;> exact ⟨rfl, rfl, rfl⟩

/-! ### The indices of a nest (R75) -/

/-- Settles O20: the indices as the model steps them. -/
theorem nestNextSteps : Obligations.NestNextSteps := fun _ _ => ⟨fun h => if_pos h, fun h => if_neg h⟩

/-! ### Accesses that do not execute (R78, R126) -/

section
variable {s : State} {base : Pair} {off : BitVec 24} {p : Option Pred} {m : MReg}

theorem State.loadS_off {kind : LoadKind} {rt : Reg} {n : Nat} (h : s.pred p = false) : s.loadS kind rt n base off p = .next (s.retire 2) :=
  if_neg (by simp [h])
theorem State.storeS_off {bs : List Byte} (h : s.pred p = false) : s.storeS bs base off p = .next (s.retire 2) := if_neg (by simp [h])
theorem State.lanesOn_eq_nil (h : s.m m = 0) (n : Nat) : s.lanesOn m n = [] := by simp [State.lanesOn, h]
/-- A vector access whose predicate fails or that has no active lane. -/
theorem exec_vld_off (v : Reg) (h : s.pred p = false ∨ s.m m = 0) : exec (.vld v base off m p) s = .next (s.retire 2) :=
  if_neg fun ⟨hp, hl⟩ => h.elim (fun h => by simp [h] at hp) fun h => hl (State.lanesOn_eq_nil h _)
theorem exec_vst_off (v : Reg) (h : s.pred p = false ∨ s.m m = 0) : exec (.vst v base off m p) s = .next (s.retire 2) :=
  if_neg fun ⟨hp, hl⟩ => h.elim (fun h => by simp [h] at hp) fun h => hl (State.lanesOn_eq_nil h _)
theorem exec_vldbc_off (v : Reg) (n : BitVec 2) (h : s.pred p = false ∨ s.m m = 0) : exec (.vldbc v n base off m p) s = .next (s.retire 2) :=
  if_neg fun ⟨hp, hl⟩ => h.elim (fun h => by simp [h] at hp) fun h => hl (State.lanesOn_eq_nil h _)
theorem State.laneAddrs_isEmpty (h : s.m m = 0) (d : Bool) (idx : Reg) : (s.laneAddrs d base off m idx).isEmpty = true := by
  simp [State.laneAddrs, State.lanesOn_eq_nil h]
end

/-- Settles O32: the branch of each access for a predicate that fails or a mask that is zero. -/
theorem accessesThatDoNotExecute : Obligations.AccessesThatDoNotExecute := by
  intro s base off m idx
  refine ⟨fun p h => ⟨fun f hf rt => ?_, fun f hf rt => ?_, fun rt => ⟨State.loadS_off h, State.storeS_off h⟩,
      fun v n => ⟨exec_vld_off v (.inl h), exec_vst_off v (.inl h), exec_vldbc_off v n (.inl h)⟩⟩,
    fun h v p n d => ⟨exec_vld_off v (.inr h), exec_vst_off v (.inr h), exec_vldbc_off v n (.inr h),
      if_pos (State.laneAddrs_isEmpty h d idx), if_pos (State.laneAddrs_isEmpty h d idx)⟩⟩
  · rw [exec_loadForm hf]
    exact State.loadS_off h
  · rw [exec_storeForm hf]
    exact State.storeS_off h

/-! ### Register-only vector forms (R93, R112) -/

/-- The first state with one vector register written, flags accrued and SEED moved on, and nothing else changed. -/
def State.OnlyVector (s : State) (d : Reg) (t : State) : Prop :=
  (∀ r, r ≠ d → t.v r = s.v r) ∧ t.regs = { s.regs with v0 := t.regs.v0 }
    ∧ t.ctx = { s.ctx with prog := { s.prog with v := t.prog.v, fflags := t.prog.fflags, seed := t.prog.seed } }
    ∧ s.prog.fflags &&& t.prog.fflags = s.prog.fflags ∧ s.SameRest t

section
variable {s t : State} {d : Reg}

theorem State.onlyVector_setV (s : State) (d : Reg) (v : Vec) : s.OnlyVector d (s.setV d v) := by
  have hv : ∀ r, r ≠ d → (s.setV d v).v r = s.v r := fun r hr => by rw [State.v_setV, if_neg hr]
  refine ⟨hv, ?_⟩
  unfold State.setV
  split
  · exact ⟨rfl, rfl, BitVec.and_self, s.sameRest_setRegs _ rfl rfl⟩
  · exact ⟨rfl, rfl, BitVec.and_self, s.sameRest_setProg _⟩
theorem State.OnlyVector.flag (h : s.OnlyVector d t) (f : BitVec 5) : s.OnlyVector d (t.flag f) := by
  obtain ⟨hv, hr, hx, hf, hs⟩ := h
  obtain ⟨-, ha⟩ := t.prog.accrues_flag f
  refine ⟨hv, hr, ?_, ?_, hs.trans (t.sameRest_setProg _)⟩
  · show ({ t.ctx with prog := { t.prog with fflags := t.prog.fflags ||| f } } : Ctx) = _
    have hp : t.prog = t.ctx.prog := rfl
    rw [hp, hx]
    rfl
  · show s.prog.fflags &&& (t.prog.fflags ||| f) = s.prog.fflags
    have ha' : t.prog.fflags &&& (t.prog.fflags ||| f) = t.prog.fflags := ha
    rw [← hf, BitVec.and_assoc, ha']
theorem State.OnlyVector.drawn (h : s.OnlyVector d t) (mode : Mode) (n : Nat) : s.OnlyVector d (t.drawn mode n) := by
  unfold State.drawn
  split
  · obtain ⟨hv, hr, hx, hf, hs⟩ := h
    refine ⟨hv, hr, ?_, hf, hs.trans (t.sameRest_setProg _)⟩
    show ({ t.ctx with prog := { t.prog with seed := stepsSeed n t.prog.seed } } : Ctx) = _
    have hp : t.prog = t.ctx.prog := rfl
    rw [hp, hx]
    rfl
  · exact h
theorem State.onlyVector_vround (s : State) (d : Reg) (m : MReg) (w n draws : Nat) (f : Nat → Nat → Nat × Flags) :
    s.OnlyVector d (s.vround d m w n draws f) := ((s.onlyVector_setV d _).flag _).drawn _ _
theorem State.onlyVector_vreduce (s : State) (d va : Reg) (m : MReg) (ty : VTy) (draws : Bool) (f : Nat → Nat → Nat → Option Nat × Flags) (empty : Nat) :
    s.OnlyVector d (s.vreduce d va m ty draws f empty) := by
  unfold State.vreduce
  dsimp only
  split
  · exact ((s.onlyVector_setV d _).flag _).drawn _ _
  · exact (s.onlyVector_setV d _).flag _
/-- A form that completes in one way on floating lanes and in another on integer ones. -/
theorem State.OnlyVector.completes_ite {c : Prop} [Decidable c] {x y : State} (hx : s.OnlyVector d x) (hy : s.OnlyVector d y) :
    ∃ t, s.OnlyVector d t ∧ (if c then x.vdone else y.vdone) = .next (t.retire 1) := by
  split
  exacts [⟨x, hx, rfl⟩, ⟨y, hy, rfl⟩]
/-- A register-only vector form writes its destination, accrues flags, may draw, and completes. -/
theorem exec_vectorDest {i : Instr} (h : vectorDest i = some d) (s : State) : ∃ t, s.OnlyVector d t ∧ exec i s = .next (t.retire 1) := by
  cases i
  case vadd | vsub | vmul | vmin | vmax | vabs | vneg =>
    cases h; exact State.OnlyVector.completes_ite (s.onlyVector_vround ..) (s.onlyVector_setV ..)
  case vfma | vfms | vfnma | vfnms | vdiv | vsqrt | vrcp | vrsq | vcvt => cases h; exact ⟨_, s.onlyVector_vround .., rfl⟩
  case vqnt => cases h; exact ⟨_, ((s.onlyVector_setV ..).flag _).drawn _ _, rfl⟩
  case vrsum | vrmax | vrmin | vramax => cases h; exact ⟨_, s.onlyVector_vreduce .., rfl⟩
  case vmulh | vand | vor | vxor | vandn | vshl | vshr | vsra | vror | vdqnt | vamax | vsplat | vins | vsel | vperm | vslu | vsld | vbcl =>
    cases h; exact ⟨_, s.onlyVector_setV .., rfl⟩
  all_goals cases h
end

/-- Settles O22: the completion of a state that differs in one vector register, flags and SEED. -/
theorem vectorFormsChangeOnlyTheirDestination : Obligations.VectorFormsChangeOnlyTheirDestination := by
  intro i d s t hd ht
  obtain ⟨u, ⟨hv, hr, hx, hf, hs⟩, he⟩ := exec_vectorDest hd s
  cases ht.symm.trans he
  have hctx := u.retire_ctx 1
  have hprog : (u.retire 1).prog = u.prog := congrArg Ctx.prog hctx
  have hl : u.loopRegs = s.loopRegs := State.loopRegs_of (by rw [hr]) (by rw [hr])
  refine ⟨fun r hn => ?_, fun r hn => (State.retire_s u 1 (hl ▸ hn)).trans ?_, fun m => (u.retire_m 1 m).trans ?_, ?_, by rw [hprog, hf],
    hs.trans (u.sameRest_retire 1)⟩
  · rw [← hv r hn, State.v, State.v, hprog, State.retire_v0]
  · rw [State.s, hr]; rfl
  · rw [State.m, hr]; rfl
  · rw [hctx, hprog]; exact hx

/-! ### What a read of an undisturbed scratchpad leaves (R131) -/

theorem Mem.read_eq_map (m : Mem) (i n : Nat) : m.read i n = (List.range n).map fun k => m.get (i + k) := by
  induction n generalizing i with
  | zero => rfl
  | succ n ih => rw [Mem.read, ih, List.range_succ_eq_map, List.map_cons, List.map_map, Nat.add_zero]; simp [Function.comp_def, Nat.add_comm 1, Nat.add_assoc]
/-- A busy cycle of banks lowers no wait count. -/
theorem vget_foldl_le {n : Nat} (stale : Nat → Bool) (gs : List Nat) (w : Vector Nat n) (g : Nat) :
    vget w g 0 ≤ vget (gs.foldl (fun w g => if stale g then vset w g (vget w g 0 + 1) else w) w) g 0 := by
  induction gs generalizing w with
  | nil => exact le_refl _
  | cons h gs ih =>
    refine le_trans ?_ (ih _)
    dsimp only
    split
    · rw [vget_vset]
      split
      · next e => rw [e.1]; omega
      · exact le_refl _
    · exact le_refl _
theorem Core.busy_waits (k : Core) (gs : List Nat) :
    k.busy gs = { k with waits := (k.busy gs).waits } ∧ ∀ g, vget k.waits g 0 ≤ vget (k.busy gs).waits g 0 := by
  unfold Core.busy
  split
  · exact ⟨rfl, fun _ => le_refl _⟩
  · exact ⟨rfl, vget_foldl_le _ gs k.waits⟩
@[simp] theorem Core.clean_busy (k : Core) (gs : List Nat) : (k.busy gs).clean = k.clean := by rw [(k.busy_waits gs).1]; rfl
theorem State.alike_busy (s : State) (c : Nat) (gs : List Nat) : s.Alike (s.putCore c ((s.coreAt c).busy gs)) := by
  obtain ⟨hk, hle⟩ := (s.coreAt c).busy_waits gs
  refine ⟨?_, fun d => ?_⟩
  · unfold State.putCore
    split
    · next h =>
      subst h
      rw [State.coreAt_cur] at hk ⊢
      exact congrArg (fun k => ({ s with core := k } : State)) hk
    · rfl
  · rw [State.coreAt_putCore]
    split
    · next h => subst h; exact ⟨hk, hle⟩
    · exact ⟨rfl, fun _ => le_refl _⟩
/-- With nothing to disturb it a load's read gives the bytes of memory and raises wait counts at most. -/
theorem State.mirRead_clean {s : State} {c : Nat} (h : (s.coreAt c).clean = true) (o n : Nat) (x : Half) :
    s.mirRead c o n x = (s.putCore c ((s.coreAt c).busy (groupsIn o n)), some ((s.coreAt c).mem.read o n)) := by
  unfold State.mirRead
  rw [Core.readBytes_clean _ _ _ _ _ _ _ (by rw [Core.clean_busy, h]), Core.mem_busy]
/-- The bytes that a private-alias load sees, byte by byte. -/
theorem Core.seen_eq (k : Core) (off n : Nat) : k.seen off n = (List.range n).map fun i => k.seenByte (off + i) := by
  unfold Core.seen
  split
  · next h =>
    obtain ⟨hp, hl⟩ := Bool.and_eq_true_iff.1 h
    rw [Mem.read_eq_map]
    refine List.map_congr_left fun i _ => ?_
    rw [Core.seenByte, List.isEmpty_iff.1 hp, List.isEmpty_iff.1 hl]
    rfl
  · rfl

/-! ### One piece of a load (R77, R79) -/

theorem place_of_inTrans {ea : Nat} (h : inTrans ea = true) : place ea = .trans := by
  obtain ⟨hlo, hhi⟩ := inTrans_iff.1 h
  unfold place
  rw [if_neg (by omega), if_neg (by omega), if_pos h]
theorem inTrans_of_place_glob {ea c o : Nat} (h : place ea = .glob c o) : inTrans ea = false :=
  Bool.eq_false_iff.2 fun ht => by rw [place_of_inTrans ht] at h; cases h
@[simp] theorem length_overlay (held : List Held) (ea : Nat) (bs : List Byte) : (overlay held ea bs).length = bs.length := by simp [overlay]
/-- The stores that a chunk holds over the bytes that its core's private port sees. -/
theorem State.ofBytes_overlay_seen (s : State) (ea n : Nat) : ofBytes (overlay s.chunk.held ea (s.core.seen ea n)) = s.numberSeen ea n := by
  rw [overlay, Core.seen_eq, List.length_map, List.length_range]
  refine congrArg ofBytes (List.map_congr_left fun i hi => ?_)
  rw [State.byteSeen]
  simp [List.mem_range.1 hi]

section
variable {s : State} {ea : DWord} {n : Nat}

/-- The state after an undisturbed read of the running context's scratchpad. -/
theorem State.readPiece_own (hc : s.core.clean = true) (h : ea.toNat < 0x18000) : ∃ u bs, s.Alike u ∧ bs.length = n
    ∧ ofBytes bs = s.numberSeen ea.toNat n ∧ s.readPiece ea.toNat n = (u, .ok bs) := by
  have hr := State.mirRead_clean (s := s) (c := s.cur) (by rwa [State.coreAt_cur]) ea.toNat n s.ctx.id
  have hk := (s.core.busy_waits (groupsIn ea.toNat n)).1
  have hcore : (s.putCore s.cur (s.core.busy (groupsIn ea.toNat n))).core = s.core.busy (groupsIn ea.toNat n) := by
    rw [State.putCore, if_pos rfl]
  refine ⟨_, overlay s.chunk.held ea.toNat (s.core.seen ea.toNat n), s.alike_busy s.cur (groupsIn ea.toNat n), ?_, s.ofBytes_overlay_seen _ _, ?_⟩
  · rw [length_overlay, Core.seen_eq, List.length_map, List.length_range]
  · rw [State.readPiece, show place ea.toNat = .own ea.toNat from if_pos h]
    dsimp only
    rw [hr, State.coreAt_cur]
    dsimp only
    rw [hcore, hk]
    rfl
/-- The same at a global alias, whose words enter the chunk's read signature. -/
theorem State.readPiece_glob {c o : Nat} (hp : place ea.toNat = .glob c o) (hc : (s.coreAt c).clean = true) : ∃ u bs, s.Alike u ∧ bs.length = n
    ∧ ofBytes bs = s.numberOver ea.toNat ((s.coreAt c).mem.read o n) ∧ s.readPiece ea.toNat n = (u.noteRead ea.toNat n, .ok bs) := by
  refine ⟨_, overlay s.chunk.held ea.toNat ((s.coreAt c).mem.read o n), s.alike_busy c (groupsIn o n), by simp, rfl, ?_⟩
  rw [State.readPiece, hp]
  dsimp only
  rw [State.mirRead_clean hc]
theorem State.readPiece_trans {bs : List Byte} (ht : inTrans ea.toNat = true) (h : s.vread s.ctx.vdev ea.toNat n = .ok bs) :
    s.readPiece ea.toNat n = (s, .ok (overlay s.chunk.held ea.toNat bs)) := by
  rw [State.readPiece, place_of_inTrans ht]
  dsimp only
  rw [h]

/-- A load of one piece. -/
def oneLoad (kind : LoadKind) (rt : Reg) (ea : DWord) (n : Nat) : LoadWait := ⟨kind, rt, none, [(ea, 0, n)]⟩
variable {kind : LoadKind} {rt : Reg}

theorem State.finishLoad_one {u : State} {bs : List Byte} (h : s.readPiece ea.toNat n = (u, .ok bs)) :
    s.finishLoad (oneLoad kind rt ea n) = (u.deliver (oneLoad kind rt ea n) [(0, bs)]).retire 2 := by
  simp [State.finishLoad, oneLoad, State.readPieces, h]
theorem State.load_trans (h : inTrans ea.toNat = true) : s.load (oneLoad kind rt ea n) = .next (s.waitsFor (oneLoad kind rt ea n)) :=
  if_pos (by simp [oneLoad, h])
theorem State.load_scratch (h : inTrans ea.toNat = false) :
    s.load (oneLoad kind rt ea n) = if s.busy ea.toNat n then .next s else .next (s.finishLoad (oneLoad kind rt ea n)) := by
  rw [State.load]
  simp [oneLoad, h]
theorem State.busy_of_not_isGlob (h : isGlob ea.toNat = false) : s.busy ea.toNat n = false := by simp [State.busy, h]
theorem isGlob_of_inTrans (h : inTrans ea.toNat = true) : isGlob ea.toNat = false := by rw [isGlob, place_of_inTrans h]

theorem State.deliver_scalar (u : State) (sg : Bool) (bs : List Byte) (hl : bs.length = n) : u.deliver (oneLoad (.scalar sg) rt ea n) [(0, bs)]
    = u.setS rt (if sg then BitVec.ofInt 32 (sgn (8 * n) (ofBytes bs)) else BitVec.ofNat 32 (ofBytes bs)) := hl ▸ rfl
theorem State.deliver_pair (u : State) (bs : List Byte) :
    u.deliver (oneLoad .pair rt ea n) [(0, bs)] = u.setD (BitVec.ofNat 5 (rt.toNat / 2)) (BitVec.ofNat 64 (ofBytes bs)) := rfl
theorem ofNat_pairLo_div_two (p : Pair) : BitVec.ofNat 5 ((pairLo p).toNat / 2) = p := by
  unfold pairLo
  exact BitVec.eq_of_toNat_eq (by rw [BitVec.toNat_ofNat, BitVec.toNat_ofNat]; omega)
end

/-! ### Checked scalar loads (R77, R79, R230) -/

section
variable {s : State} {base : Pair} {off : BitVec 24} {p : Option Pred} {kind : LoadKind} {rt : Reg} {n : Nat}

theorem State.loadS_checked (hp : s.pred p = true) (h : s.cause (s.ea base off).toNat n false = none) :
    s.loadS kind rt n base off p = s.load (oneLoad kind rt (s.ea base off) n) := by
  rw [State.loadS, if_pos hp]
  dsimp only
  rw [State.check_eq_cause, h]
  rfl
theorem State.cause_of_own {ea : DWord} (h : s.Own ea n) (w : Bool) : s.cause ea.toNat n w = none := by
  obtain ⟨ha, hlt, hlo, hhi⟩ := h
  rw [State.cause, if_neg (not_not.2 ha), if_pos hlt, if_pos ⟨hlo, hhi⟩]
/-- A load from the running context's scratchpad. -/
theorem State.loadS_own (hp : s.pred p = true) (hc : s.core.clean = true) (ho : s.Own (s.ea base off) n) : ∃ u bs, s.Alike u ∧ bs.length = n
    ∧ ofBytes bs = s.numberSeen (s.ea base off).toNat n
    ∧ s.loadS kind rt n base off p = .next ((u.deliver (oneLoad kind rt (s.ea base off) n) [(0, bs)]).retire 2) := by
  have hlt := ho.2.1
  obtain ⟨u, bs, hu, hl, hb, hr⟩ := State.readPiece_own (n := n) hc hlt
  have hg : isGlob (s.ea base off).toNat = false := by rw [isGlob, show place _ = .own _ from if_pos hlt]
  refine ⟨u, bs, hu, hl, hb, ?_⟩
  rw [State.loadS_checked hp (State.cause_of_own ho false), State.load_scratch (by simp [inTrans]; omega), State.busy_of_not_isGlob hg,
    State.finishLoad_one hr]
  rfl
/-- A load from a global alias: again at its pc while a granted commit is still to write its words. -/
theorem State.loadS_glob_busy {c o : Nat} (hp : s.pred p = true) (hg : place (s.ea base off).toNat = .glob c o)
    (h : s.cause (s.ea base off).toNat n false = none) (hb : s.busy (s.ea base off).toNat n = true) : s.loadS kind rt n base off p = .next s := by
  rw [State.loadS_checked hp h, State.load_scratch (inTrans_of_place_glob hg), if_pos hb]
theorem State.loadS_glob_free {c o : Nat} (hp : s.pred p = true) (hg : place (s.ea base off).toNat = .glob c o) (hc : (s.coreAt c).clean = true)
    (h : s.cause (s.ea base off).toNat n false = none) (hb : s.busy (s.ea base off).toNat n = false) : ∃ u bs, s.Alike u ∧ bs.length = n
    ∧ ofBytes bs = s.numberOver (s.ea base off).toNat ((s.coreAt c).mem.read o n)
    ∧ s.loadS kind rt n base off p
      = .next (((u.noteRead (s.ea base off).toNat n).deliver (oneLoad kind rt (s.ea base off) n) [(0, bs)]).retire 2) := by
  obtain ⟨u, bs, hu, hl, hn, hr⟩ := State.readPiece_glob (n := n) hg hc
  refine ⟨u, bs, hu, hl, hn, ?_⟩
  rw [State.loadS_checked hp h, State.load_scratch (inTrans_of_place_glob hg), if_neg (by simp [hb]), State.finishLoad_one hr]
theorem State.loadS_trans (hp : s.pred p = true) (ht : inTrans (s.ea base off).toNat = true) (h : s.cause (s.ea base off).toNat n false = none) :
    s.loadS kind rt n base off p = .next (s.waitsFor (oneLoad kind rt (s.ea base off) n)) := by
  rw [State.loadS_checked hp h, State.load_trans ht]
end

/-! ### The return of a translated load (R79, R237) -/

/-- Reading through a virtual device's tables looks at global memory, the tables and what fades of them. -/
theorem State.vread_congr {s t : State} (v va n : Nat) (hg : t.gmem = s.gmem := by rfl) (hb : t.badLines = s.badLines := by rfl)
    (hl : t.leaves = s.leaves := by rfl) (hf : t.fading = s.fading := by rfl) (ht : t.tick = s.tick := by rfl) : t.vread v va n = s.vread v va n := by
  have hx (va : Nat) : t.xlate v va false = s.xlate v va false := by
    unfold State.xlate State.leafAt State.leafNow
    rw [hl, hf, ht]
  have hbad (key : Nat) : t.bad key 1 = s.bad key 1 := by rw [State.bad, hb]; rfl
  induction n generalizing va with
  | zero => rfl
  | succ n ih =>
    rw [State.vread, State.vread, hx, ih]
    cases s.xlate v va false with
    | error => rfl
    | ok key => dsimp only; rw [hbad, hg]
theorem State.length_of_vread {s : State} {v n : Nat} {bs : List Byte} (va : Nat) (h : s.vread v va n = .ok bs) : bs.length = n := by
  induction n generalizing va bs with
  | zero => cases h; rfl
  | succ n ih =>
    rw [State.vread] at h
    split at h
    · cases h
    split at h
    · cases h
    split at h
    · cases h
    · next hr => cases h; rw [List.length_cons, ih _ hr]
theorem State.goto_cur (s : State) : s.goto s.cur = s := if_pos rfl
/-- The state in which a load that has waited for its data goes on. -/
def State.resumed (s : State) : State := { s with core := { s.core with load := none, status := .running } }
/-- The data of a load of one translated piece come back to it. -/
theorem exec_translatedLoadReturn {s : State} {c n : Nat} {kind : LoadKind} {rt : Reg} {ea : DWord} {bs : List Byte} (hc : c < 8192)
    (hs : (s.coreAt c).status = .answer .load) (hl : (s.coreAt c).load = some (oneLoad kind rt ea n)) (ht : inTrans ea.toNat = true)
    (hd : (s.goto c).dataComes ea.toNat = true) (hv : (s.goto c).vread (s.coreAt c).ctx.vdev ea.toNat n = .ok bs) :
    exec (.translatedLoadReturn c) s = .next (((s.goto c).resumed.deliver (oneLoad kind rt ea n)
      [(0, overlay (s.coreAt c).fir.chunk.held ea.toNat bs)]).retire 2) := by
  show execTranslatedLoadReturn c s = _
  rw [execTranslatedLoadReturn, atCore, if_pos hc]
  dsimp only
  rw [State.core_goto, hs, hl]
  have hbusy : ((oneLoad kind rt ea n).pieces.any fun p => (s.goto c).busy p.1.toNat p.2.2) = false := by
    simp [oneLoad, State.busy_of_not_isGlob (isGlob_of_inTrans ht)]
  have hcomes : ((oneLoad kind rt ea n).pieces.any fun p => !(s.goto c).dataComes p.1.toNat) = false := by simp [oneLoad, hd]
  have hctx : (s.goto c).resumed.ctx = (s.coreAt c).ctx := by rw [← State.core_goto]; rfl
  have hheld : (s.goto c).resumed.chunk = (s.coreAt c).fir.chunk := by rw [← State.core_goto]; rfl
  have hread : (s.goto c).resumed.vread (s.goto c).resumed.ctx.vdev ea.toNat n = .ok bs := by rw [hctx, State.vread_congr (s := s.goto c), hv]
  have hdone := State.finishLoad_one (kind := kind) (rt := rt) (State.readPiece_trans ht hread)
  rw [hheld] at hdone
  dsimp only
  rw [if_neg (by simp [hbusy]), if_neg (by simp [hcomes]), ← hdone, ← State.core_goto]
  rfl

/-- Settles O29: a load by the window of its address, each kind by what it delivers. -/
theorem loadsGiveTheBytesSeen : Obligations.LoadsGiveTheBytesSeen := by
  refine ⟨fun s base off p hp => ?_, fun s ea n rt bs hcur hst ht hd hv => ?_⟩
  · intro ea value
    have ldd (rt : Pair) : exec (.ldd rt base off p) s = s.loadS .pair (pairLo rt) 8 base off p := rfl
    have pair (u : State) (rt : Pair) (bs : List Byte) : u.deliver (oneLoad .pair (pairLo rt) ea 8) [(0, bs)] = u.setD rt (BitVec.ofNat 64 (ofBytes bs)) := by
      rw [State.deliver_pair, ofNat_pairLo_div_two]
    refine ⟨fun hc => ⟨fun f hf rt ho => ?_, fun rt ho => ?_⟩, fun c o hg hc => ?_, fun ht => ⟨fun f hf rt h => ?_, fun rt h => State.loadS_trans hp ht h⟩⟩
    · obtain ⟨u, bs, hu, hl, hb, he⟩ := State.loadS_own (kind := .scalar f.2.2) (rt := rt) hp hc ho
      exact ⟨u, hu, by rw [exec_loadForm hf, he, State.deliver_scalar _ _ _ hl, hb]⟩
    · obtain ⟨u, bs, hu, -, hb, he⟩ := State.loadS_own (kind := .pair) (rt := pairLo rt) hp hc ho
      exact ⟨u, hu, by rw [ldd, he, pair, hb]⟩
    · refine ⟨fun f hf rt h => ?_, fun rt h => ?_⟩
      · split
        · next hb => rw [exec_loadForm hf, State.loadS_glob_busy hp hg h hb]
        · next hb =>
          obtain ⟨u, bs, hu, hl, hn, he⟩ := State.loadS_glob_free (kind := .scalar f.2.2) (rt := rt) hp hg hc h (Bool.eq_false_iff.2 hb)
          exact ⟨u, hu, by rw [exec_loadForm hf, he, State.deliver_scalar _ _ _ hl, hn]⟩
      · split
        · next hb => rw [ldd, State.loadS_glob_busy hp hg h hb]
        · next hb =>
          obtain ⟨u, bs, hu, -, hn, he⟩ := State.loadS_glob_free (kind := .pair) (rt := pairLo rt) hp hg hc h (Bool.eq_false_iff.2 hb)
          exact ⟨u, hu, by rw [ldd, he, pair, hn]⟩
    · rw [exec_loadForm hf]
      exact State.loadS_trans hp ht h
  · intro x back
    have returns {kind : LoadKind} (hl : s.core.load = some (oneLoad kind rt ea n)) := exec_translatedLoadReturn (s := s) (c := s.cur) (bs := bs) hcur
      (by rwa [State.coreAt_cur]) (by rwa [State.coreAt_cur]) ht (by rwa [State.goto_cur]) (by rwa [State.goto_cur, State.coreAt_cur])
    rw [State.goto_cur, State.coreAt_cur] at returns
    refine ⟨fun sg hl => (returns hl).trans ?_, returns⟩
    rw [State.deliver_scalar _ _ _ ((length_overlay ..).trans (State.length_of_vread _ hv))]
    rfl

/-! ### States whose memories agree (R130, R230) -/

/-- The first state with the same bytes in global memory and in every scratchpad. -/
def State.BytesEq (s t : State) : Prop := t.gmem = s.gmem ∧ ∀ c, (t.coreAt c).mem = (s.coreAt c).mem
/-- Another core with the same bytes, the same released stores still to perform, and as undisturbed a scratchpad. -/
def Core.SameBanks (k k' : Core) : Prop := k'.mem = k.mem ∧ k'.port = k.port ∧ k'.clean = k.clean
/-- Another state all of whose cores are such, with the same global memory. -/
def State.SameBanks (s t : State) : Prop := t.gmem = s.gmem ∧ ∀ c, (s.coreAt c).SameBanks (t.coreAt c)

section
variable {s t u : State} {d off n key : Nat} {bs : List Byte}

theorem State.BytesEq.holds (h : s.BytesEq t) (hs : s.Holds d off bs) : t.Holds d off bs := fun i hi => by rw [h.2 d]; exact hs i hi
theorem State.BytesEq.sameOutside_right (h : s.BytesEq t) (hs : u.SameOutside s d off n) : u.SameOutside t d off n :=
  ⟨fun a => by rw [h.1]; exact hs.1 a, fun c a hn => by rw [h.2 c]; exact hs.2 c a hn⟩
theorem State.BytesEq.sameOutside_left (h : s.BytesEq t) (hs : t.SameOutside u d off n) : s.SameOutside u d off n :=
  ⟨fun a => by rw [← h.1]; exact hs.1 a, fun c a hn => by rw [← h.2 c]; exact hs.2 c a hn⟩
theorem State.BytesEq.sameGlobalOutside (h : s.BytesEq t) (hs : u.SameGlobalOutside s key n) : u.SameGlobalOutside t key n :=
  ⟨fun a hn => by rw [h.1]; exact hs.1 a hn, fun c a => by rw [h.2 c]; exact hs.2 c a⟩
theorem State.BytesEq.refl (s : State) : s.BytesEq s := ⟨rfl, fun _ => rfl⟩
theorem State.BytesEq.sameOutside (h : s.BytesEq t) : s.SameOutside t d off n := h.sameOutside_right ⟨fun _ => rfl, fun _ _ _ => rfl⟩
theorem State.SameBanks.bytesEq (h : s.SameBanks t) : s.BytesEq t := ⟨h.1, fun c => (h.2 c).1⟩
theorem State.bytesEq_send (s : State) (e : Ev) : s.BytesEq (s.send e) := .refl s
/-- An atomic without a trigger only answers. -/
theorem State.bytesEq_atomicEnds (s : State) (p : Packet) (a : Nat) (ea : DWord) (old new : Nat) (ret : Bool) :
    s.BytesEq (s.atomicEnds p a ea old new none ret) := by
  unfold State.atomicEnds
  dsimp only
  split
  exacts [s.bytesEq_send _, .refl s]
end

theorem Core.SameBanks.refl (k : Core) : k.SameBanks k := ⟨rfl, rfl, rfl⟩
theorem Core.SameBanks.trans {k k' k'' : Core} (h : k.SameBanks k') (h' : k'.SameBanks k'') : k.SameBanks k'' :=
  ⟨h'.1.trans h.1, h'.2.1.trans h.2.1, h'.2.2.trans h.2.2⟩
theorem Core.sameBanks_busy (k : Core) (gs : List Nat) : k.SameBanks (k.busy gs) := ⟨by simp, by rw [(k.busy_waits gs).1], by simp⟩
theorem Core.sameBanks_squash (k : Core) : k.SameBanks k.squash := by
  unfold Core.squash
  dsimp only
  cases k.fir.chunk.snap <;> exact ⟨rfl, rfl, rfl⟩
theorem Core.sameBanks_refill (k : Core) (c : Nat) (cy : DWord) (n : Nat) : k.SameBanks (Core.refill c cy n k) := by
  induction n generalizing k with
  | zero => exact .refl k
  | succ n ih =>
    unfold Core.refill
    split
    · exact .refl k
    split
    · exact .refl k
    · exact Core.SameBanks.trans ⟨rfl, rfl, rfl⟩ (ih _)

namespace State.SameBanks

theorem refl (s : State) : s.SameBanks s := ⟨rfl, fun _ => .refl _⟩
theorem trans {s t u : State} (h : s.SameBanks t) (h' : t.SameBanks u) : s.SameBanks u := ⟨h'.1.trans h.1, fun c => (h.2 c).trans (h'.2 c)⟩
theorem putCore {s : State} {c : Nat} {k : Core} (h : (s.coreAt c).SameBanks k) : s.SameBanks (s.putCore c k) := by
  refine ⟨s.gmem_putCore c k, fun d => ?_⟩
  rw [State.coreAt_putCore]
  split
  · next e => exact e ▸ h
  · exact .refl _
theorem onCore (s : State) (c : Nat) {f : Core → Core} (hf : ∀ k : Core, k.SameBanks (f k)) : s.SameBanks (s.onCore c f) := putCore (hf _)
theorem foldl {α : Type} {f : State → α → State} (hf : ∀ (s : State) a, s.SameBanks (f s a)) (l : List α) (s : State) : s.SameBanks (l.foldl f s) :=
  State.foldl_keeps (s.SameBanks ·) l f (fun t a h => h.trans (hf t a)) s (refl s)
theorem enqueue (s : State) (c : Nat) (w : Waiter) : s.SameBanks (s.enqueue c w) :=
  (onCore s c (f := fun k => { k with waiting := k.waiting ++ [w] }) fun _ => ⟨rfl, rfl, rfl⟩).trans (onCore _ c fun k => k.sameBanks_refill ..)
theorem actors (s : State) (c : Nat) : s.SameBanks (s.actors c) := by
  refine foldl (fun s e => ?_) _ s
  dsimp only
  split
  · split
    · exact refl s
    split
    exacts [enqueue s c _, refl s]
  · exact refl s
theorem touch (s : State) (ch : BitVec 15) : s.SameBanks (s.touch ch) := by
  unfold State.touch
  split
  exacts [refl s, (actors s _).trans (actors _ _)]
/-- A grant squashes chunks, which leaves every bank (R230). -/
theorem agentGrant (s : State) (c : Nat) (w : Vec) : s.SameBanks (s.agentGrant c w) := by
  refine foldl (fun s d => ?_) _ s
  dsimp only
  split
  · exact ((onCore s d Core.sameBanks_squash).trans (foldl touch _ _)).trans ⟨rfl, fun _ => .refl _⟩
  · exact refl s

end State.SameBanks

/-! ### An agent's read and write at a scratchpad's owner (R130, R196) -/

/-- The released stores of a core are the same writes to the same bytes. -/
theorem State.SameBanks.bytesEq_drain {s t : State} (h : s.SameBanks t) (c : Nat) : (s.drain c).BytesEq (t.drain c) := by
  refine ⟨by simp [State.drain, h.1], fun d => ?_⟩
  obtain ⟨hm, hp, -⟩ := h.2 c
  rw [State.drain, State.drain, State.coreAt_onCore, State.coreAt_onCore]
  split
  · rw [Core.mem_drain, Core.mem_drain, hm, hp]
  · exact (h.2 d).1
/-- Between the read and the write of an agent's step stores of the owning core may have been performed (R130). -/
theorem State.SameBanks.bytesEq_between {s t : State} (h : s.SameBanks t) (c : Nat) :
    ∃ u, (u = s ∨ u = s.drain c) ∧ u.BytesEq (t.between c) := by
  unfold State.between
  split
  exacts [⟨_, .inr rfl, h.bytesEq_drain c⟩, ⟨_, .inl rfl, h.bytesEq⟩]
/-- With nothing to disturb it an agent's read gives the bytes of memory. -/
theorem State.granted_scrRead {s : State} {c : Nat} (h : (s.coreAt c).clean = true) (w : Vec) (off n : Nat) (x : Half) :
    ∃ r, (s.agentGrant c w).scrRead c off n x = (r, some ((s.coreAt c).mem.read off n)) ∧ s.SameBanks r := by
  have hg := State.SameBanks.agentGrant s c w
  obtain ⟨hm, -, hc⟩ := hg.2 c
  refine ⟨_, ?_, hg.trans (.putCore (c := c) (((s.agentGrant c w).coreAt c).sameBanks_busy (groupsIn off n)))⟩
  unfold State.scrRead
  rw [Core.readBytes_clean _ _ _ _ _ _ _ (by rw [Core.clean_busy, hc, h]), Core.mem_busy, hm]
/-- Words that were read are written back whole: the new bytes where they go, those that were read around them. -/
theorem State.writeBack_spec {s : State} (h : s.MemOk) (m : Mem) (c off : Nat) (bs : List Byte) (x : Half) :
    let t := s.writeBack m c off bs x
    t.Holds c off bs ∧ s.SameOutside t c (off / 8 * 8) ((off + bs.length + 7) / 8 * 8 - off / 8 * 8)
      ∧ ∀ a, off / 8 * 8 ≤ a → a < (off + bs.length + 7) / 8 * 8 → ¬ (off ≤ a ∧ a < off + bs.length) → (t.coreAt c).mem.get a = m.get a := by
  intro t
  let lo := m.read (off / 8 * 8) (off - off / 8 * 8)
  let hi := m.read (off + bs.length) ((off + bs.length + 7) / 8 * 8 - (off + bs.length))
  have hlo : lo.length = off - off / 8 * 8 := Mem.length_read ..
  have hhi : hi.length = (off + bs.length + 7) / 8 * 8 - (off + bs.length) := Mem.length_read ..
  obtain ⟨hh, ho⟩ := State.extWrite_spec h c (off / 8 * 8) (lo ++ bs ++ hi) x false
  have hlen : (lo ++ bs ++ hi).length = (off + bs.length + 7) / 8 * 8 - off / 8 * 8 := by
    rw [List.length_append, List.length_append, hlo, hhi]; omega
  have hget (a : Nat) (h1 : off / 8 * 8 ≤ a) (h2 : a < (off + bs.length + 7) / 8 * 8) : (t.coreAt c).mem.get a = (lo ++ bs ++ hi).getD (a - off / 8 * 8) 0 := by
    rw [← hh (a - off / 8 * 8) (by omega), show off / 8 * 8 + (a - off / 8 * 8) = a by omega]
    rfl
  refine ⟨fun i hi' => ?_, hlen ▸ ho, fun a h1 h2 hn => ?_⟩
  · rw [hget _ (by omega) (by omega), List.getD_append _ _ _ _ (by rw [List.length_append, hlo]; omega), List.getD_append_right _ _ _ _ (by rw [hlo]; omega), hlo]
    congr 1
    omega
  · rw [hget a h1 h2]
    by_cases hb : a < off
    · rw [List.getD_append _ _ _ _ (by rw [List.length_append, hlo]; omega), List.getD_append _ _ _ _ (by rw [hlo]; omega), Mem.getD_read, if_pos (by omega)]
      congr 1
      omega
    · rw [List.getD_append_right _ _ _ _ (by rw [List.length_append, hlo]; omega), Mem.getD_read, List.length_append, hlo, if_pos (by omega)]
      congr 1
      omega
/-- The write of an agent that has read: exactly its words, of which the rest is as it was read. -/
theorem State.SameBanks.between_writeBack {s r : State} (h : s.MemOk) (hr : s.SameBanks r) (c off : Nat) (bs : List Byte) (x : Half) :
    let t := (r.between c).writeBack (r.coreAt c).mem c off bs x
    ∃ u, (u = s ∨ u = s.drain c) ∧ u.SameOutside t c (off / 8 * 8) ((off + bs.length + 7) / 8 * 8 - off / 8 * 8)
      ∧ (∀ a, off / 8 * 8 ≤ a → a < (off + bs.length + 7) / 8 * 8 → ¬ (off ≤ a ∧ a < off + bs.length) →
        (t.coreAt c).mem.get a = (s.coreAt c).mem.get a)
      ∧ t.Holds c off bs := by
  intro t
  obtain ⟨u, hu, hb⟩ := hr.bytesEq_between c
  have hm : (r.between c).MemOk := (h.congr hr.1 fun c => (hr.2 c).1).between
  obtain ⟨hh, ho, hrest⟩ := State.writeBack_spec hm (r.coreAt c).mem c off bs x
  exact ⟨u, hu, hb.sameOutside_left ho, fun a h1 h2 h3 => (hrest a h1 h2 h3).trans (by rw [(hr.2 c).1]), hh⟩

/-! ### Deposits and atomics (R194, R196) -/

theorem scrPlace_of_inTrans {ea : Nat} (c : Nat) (h : inTrans ea = true) : scrPlace c ea = none := by rw [scrPlace, place_of_inTrans h]
/-- The bytes of the number that bytes hold. -/
theorem leBytes_ofBytes (bs : List Byte) : leBytes bs.length (ofBytes bs) = bs := by
  induction bs with
  | nil => rfl
  | cons b bs ih =>
    have hb := b.isLt
    rw [List.length_cons, leBytes, ofBytes, show (b.toNat + 256 * ofBytes bs) / 256 = ofBytes bs by omega, ih]
    congr 1
    exact BitVec.eq_of_toNat_eq (by rw [BitVec.toNat_ofNat]; omega)
theorem leBytes_ofBytes_read (m : Mem) (i n : Nat) : leBytes n (ofBytes (m.read i n)) = m.read i n := by
  have h := leBytes_ofBytes (m.read i n)
  rwa [Mem.length_read] at h
/-- The new value of an atomic, or the old one where nothing is written. -/
theorem atomicNew_getD (op : AmoOp) (dbl : Bool) (old v w : Nat) : (atomicNew op dbl old v w).getD old = amoResult op (if dbl then 8 else 4) old v w := by
  cases op
  case cas =>
    unfold atomicNew amoResult
    dsimp only
    split <;> rfl
  all_goals cases dbl <;> rfl

section
variable {s : State} {p : Packet} {ea : DWord} {c off key : Nat} {bs : List Byte} {f : Option (BitVec 13)}

theorem exec_depositWrite_scratch (hb : p.body = .deposit ea bs none f none) (hp : scrPlace (ofCoord p.src) ea.toNat = some (c, off))
    (hf : (s.coreAt c).fenced = false) (hx : s.foreign c off bs.length p.ctx = false) : exec (.depositWrite p) s = .next (s.agentWrite c off bs p.ctx) := by
  show execDepositWrite p s = _
  rw [execDepositWrite, State.depositStep, hb]
  dsimp only
  rw [hp]
  dsimp only
  rw [if_neg (by simp [hf]), if_neg (by simp [hx])]
  rfl
theorem exec_depositWrite_global (hb : p.body = .deposit ea bs none f none) (ht : inTrans ea.toNat = true) (hx : s.xlate p.vdev ea.toNat true = .ok key)
    (hp : s.isProt key = false) : exec (.depositWrite p) s = .next (s.gput (ofCoord p.src) key bs) := by
  show execDepositWrite p s = _
  rw [execDepositWrite, State.depositStep, hb]
  dsimp only
  rw [scrPlace_of_inTrans _ ht]
  dsimp only
  rw [hx]
  dsimp only
  rw [if_neg (by simp [hp]), State.depositAt, hb]
  rfl
/-- A write whose completion on a link may be to come puts its bytes in place and leaves every other byte (R239). -/
theorem State.gput_spec (h : s.MemOk) (c key : Nat) (bs : List Byte) :
    (∀ i, i < bs.length → (s.gput c key bs).gmem.get (key + i) = bs.getD i 0) ∧ s.SameGlobalOutside (s.gput c key bs) key bs.length := by
  obtain ⟨hh, ho⟩ := State.gset_spec h key bs
  have hb : (s.gset key bs).BytesEq (s.gput c key bs) := by
    unfold State.gput
    split <;> exact ⟨rfl, fun _ => rfl⟩
  exact ⟨fun i hi => by rw [hb.1]; exact hh i hi, hb.sameGlobalOutside ho⟩

variable {op : AmoOp} {dbl : Bool} {v w : DWord} {ret : Bool}

/-- The bytes of an atomic's word, and the value that its operation makes of a number there (R196). -/
def atomBytes (dbl : Bool) : Nat := if dbl then 8 else 4
def atomMakes (op : AmoOp) (dbl : Bool) (v w : DWord) (old : Nat) : Nat :=
  amoResult op (atomBytes dbl) old (v.toNat % 2 ^ (8 * atomBytes dbl)) (w.toNat % 2 ^ (8 * atomBytes dbl))

/-- An atomic at a scratchpad writes its word with the value that its operation makes. -/
theorem exec_atomicStep_scratch (h : s.MemOk) (hb : p.body = .atomic op dbl ea v w none ret) (hp : scrPlace (ofCoord p.src) ea.toNat = some (c, off))
    (hf : (s.coreAt c).fenced = false) (hc : (s.coreAt c).clean = true) (hx : s.foreign c off (atomBytes dbl) p.ctx = false) :
    ∃ t u, exec (.atomicStep p) s = .next t ∧ (u = s ∨ u = s.drain c)
      ∧ u.SameOutside t c (off / 8 * 8) ((off + atomBytes dbl + 7) / 8 * 8 - off / 8 * 8)
      ∧ (∀ a, off / 8 * 8 ≤ a → a < (off + atomBytes dbl + 7) / 8 * 8 → ¬ (off ≤ a ∧ a < off + atomBytes dbl) →
        (t.coreAt c).mem.get a = (s.coreAt c).mem.get a)
      ∧ t.Holds c off (leBytes (atomBytes dbl) (atomMakes op dbl v w (ofBytes ((s.coreAt c).mem.read off (atomBytes dbl))))) := by
  obtain ⟨r, hr, hs⟩ := State.granted_scrRead hc (sigRange (globalEA c off) (atomBytes dbl)) off (atomBytes dbl) p.ctx
  generalize hold : ofBytes ((s.coreAt c).mem.read off (atomBytes dbl)) = old
  have hnew := atomicNew_getD op dbl old (v.toNat % 2 ^ (8 * atomBytes dbl)) (w.toNat % 2 ^ (8 * atomBytes dbl))
  have he : exec (.atomicStep p) s = .next (match atomicNew op dbl old (v.toNat % 2 ^ (8 * atomBytes dbl)) (w.toNat % 2 ^ (8 * atomBytes dbl)) with
      | some new => ((r.between c).writeBack (r.coreAt c).mem c off (leBytes (atomBytes dbl) new) p.ctx).atomicEnds p c ea old new none ret
      | none => r.atomicEnds p c ea old old none ret) := by
    show execAtomicStep p s = _
    rw [execAtomicStep, State.atomStep, hb]
    dsimp only
    rw [hp]
    dsimp only
    rw [if_neg (by simp [hf])]
    unfold atomBytes at hx hr hold
    rw [if_neg (by simp [hx]), hr]
    dsimp only
    rw [hold]
    rfl
  cases hn : atomicNew op dbl old (v.toNat % 2 ^ (8 * atomBytes dbl)) (w.toNat % 2 ^ (8 * atomBytes dbl)) with
  | some new =>
    rw [hn] at he hnew
    dsimp only at he
    have hmakes : atomMakes op dbl v w old = new := hnew.symm
    obtain ⟨u, hu, ho, hrest, hh⟩ := State.SameBanks.between_writeBack h hs c off (leBytes (atomBytes dbl) new) p.ctx
    have hends := State.bytesEq_atomicEnds ((r.between c).writeBack (r.coreAt c).mem c off (leBytes (atomBytes dbl) new) p.ctx) p c ea old new ret
    rw [length_leBytes] at ho hrest
    rw [hmakes]
    exact ⟨_, u, he, hu, hends.sameOutside_right ho, fun a h1 h2 h3 => by rw [hends.2 c]; exact hrest a h1 h2 h3, hends.holds hh⟩
  | none =>
    rw [hn] at he hnew
    dsimp only at he
    have hmakes : atomMakes op dbl v w old = old := hnew.symm
    have hends : s.BytesEq (r.atomicEnds p c ea old old none ret) := ⟨(r.bytesEq_atomicEnds p c ea old old ret).1.trans hs.1,
      fun d => ((r.bytesEq_atomicEnds p c ea old old ret).2 d).trans (hs.2 d).1⟩
    refine ⟨_, s, he, .inl rfl, hends.sameOutside, fun a _ _ _ => by rw [hends.2 c], ?_⟩
    rw [hmakes, show leBytes (atomBytes dbl) old = (s.coreAt c).mem.read off (atomBytes dbl) by rw [← hold, leBytes_ofBytes_read]]
    intro i hi
    rw [hends.2 c, Mem.getD_read, if_pos (by simpa using hi)]
/-- So does one at a translated address, at its place in global memory. -/
theorem exec_atomicStep_global (h : s.MemOk) (hb : p.body = .atomic op dbl ea v w none ret) (ht : inTrans ea.toNat = true)
    (hx : s.xlate p.vdev ea.toNat true = .ok key) (hp : s.isProt key = false) (hbad : s.bad key (atomBytes dbl) = false) :
    ∃ t, exec (.atomicStep p) s = .next t ∧ s.SameGlobalOutside t key (atomBytes dbl) ∧ ∀ k, k < atomBytes dbl →
      t.gmem.get (key + k) = (leBytes (atomBytes dbl) (atomMakes op dbl v w (ofBytes (s.gmem.read key (atomBytes dbl))))).getD k 0 := by
  generalize hold : ofBytes (s.gmem.read key (atomBytes dbl)) = old
  have hnew := atomicNew_getD op dbl old (v.toNat % 2 ^ (8 * atomBytes dbl)) (w.toNat % 2 ^ (8 * atomBytes dbl))
  have he : exec (.atomicStep p) s = .next (match atomicNew op dbl old (v.toNat % 2 ^ (8 * atomBytes dbl)) (w.toNat % 2 ^ (8 * atomBytes dbl)) with
      | some new => (s.gput (ofCoord p.src) key (leBytes (atomBytes dbl) new)).atomicEnds p (ofCoord p.src) ea old new none ret
      | none => s.atomicEnds p (ofCoord p.src) ea old old none ret) := by
    show execAtomicStep p s = _
    rw [execAtomicStep, State.atomStep, hb]
    dsimp only
    rw [scrPlace_of_inTrans _ ht]
    dsimp only
    rw [hx]
    dsimp only
    rw [if_neg (by simp [hp]), State.atomAt, hb]
    dsimp only
    unfold atomBytes at hbad hold
    rw [if_neg (by simp [hbad]), hold]
    rfl
  cases hn : atomicNew op dbl old (v.toNat % 2 ^ (8 * atomBytes dbl)) (w.toNat % 2 ^ (8 * atomBytes dbl)) with
  | some new =>
    rw [hn] at he hnew
    dsimp only at he
    have hmakes : atomMakes op dbl v w old = new := hnew.symm
    obtain ⟨hh, ho⟩ := State.gput_spec h (ofCoord p.src) key (leBytes (atomBytes dbl) new)
    have hends := State.bytesEq_atomicEnds (s.gput (ofCoord p.src) key (leBytes (atomBytes dbl) new)) p (ofCoord p.src) ea old new ret
    rw [length_leBytes] at ho hh
    rw [hmakes]
    exact ⟨_, he, hends.sameGlobalOutside ho, fun k hk => by rw [hends.1]; exact hh k hk⟩
  | none =>
    rw [hn] at he hnew
    dsimp only at he
    have hmakes : atomMakes op dbl v w old = old := hnew.symm
    have hends := s.bytesEq_atomicEnds p (ofCoord p.src) ea old old ret
    refine ⟨_, he, hends.sameGlobalOutside ⟨fun _ _ => rfl, fun _ _ => rfl⟩, fun k hk => ?_⟩
    rw [hmakes, show leBytes (atomBytes dbl) old = s.gmem.read key (atomBytes dbl) by rw [← hold, leBytes_ofBytes_read], hends.1, Mem.getD_read, if_pos hk]

/-! ### Claims (R74) -/

/-- The iterations that a descriptor's claim takes. -/
def claimCount (bs : List Byte) : Nat :=
  min (le bs 4 4 - le bs 0 4) (max (max 1 (le bs 8 4)) ((le bs 4 4 - le bs 0 4 + max 1 (le bs 12 4) - 1) / max 1 (le bs 12 4)))
theorem claimOf_next (bs : List Byte) : (claimOf bs).2.2 = (le bs 0 4 + claimCount bs) % 2 ^ 32 := by
  have hrem : (if le bs 0 4 < le bs 4 4 then le bs 4 4 - le bs 0 4 else 0) = le bs 4 4 - le bs 0 4 := by split <;> omega
  unfold claimOf claimCount
  dsimp only
  rw [hrem]
  split
  · next h => rw [h, Nat.zero_min]
  · rfl
/-- The answer of a claim whose descriptor's bytes are `bs`. -/
def claimAnswer (p : Packet) (bs : List Byte) : Ev :=
  .nestClaimReturn (ofCoord p.src) (BitVec.ofNat 32 (claimOf bs).1) (BitVec.ofNat 32 (claimOf bs).2.1)
    (BitVec.ofNat 64 ((extentsOf bs).foldr (fun e a => e + 65536 * a) 0)) 0
theorem exec_nestClaimStep_eq {r : State} (hb : p.body = .claim ea) (hp : scrPlace (ofCoord p.src) ea.toNat = some (c, off))
    (hf : (s.coreAt c).fenced = false) (hr : (s.agentGrant c (sigRange (globalEA c off) 4)).scrRead c off 24 p.ctx = (r, some bs)) :
    let t := (r.between c).writeBack (r.coreAt c).mem c off (leBytes 4 (claimOf bs).2.2) p.ctx
    exec (.nestClaimStep p) s = .next (if t.returns p then t.send (claimAnswer p bs) else t) := by
  intro t
  show execNestClaimStep p s = _
  rw [execNestClaimStep, hb]
  dsimp only
  rw [hp]
  dsimp only
  rw [if_neg (by simp [hf]), hr]
  rfl
/-- A claim advances its descriptor's next and writes nothing else. -/
theorem exec_nestClaimStep (h : s.MemOk) (hb : p.body = .claim ea) (hp : scrPlace (ofCoord p.src) ea.toNat = some (c, off))
    (hf : (s.coreAt c).fenced = false) (hc : (s.coreAt c).clean = true) (hbs : (s.coreAt c).mem.read off 24 = bs) :
    ∃ t u, exec (.nestClaimStep p) s = .next t ∧ (u = s ∨ u = s.drain c) ∧ t.Holds c off (leBytes 4 ((le bs 0 4 + claimCount bs) % 2 ^ 32))
      ∧ u.SameOutside t c (off / 8 * 8) ((off + 11) / 8 * 8 - off / 8 * 8)
      ∧ ∀ a, off / 8 * 8 ≤ a → a < (off + 11) / 8 * 8 → ¬ (off ≤ a ∧ a < off + 4) → (t.coreAt c).mem.get a = (s.coreAt c).mem.get a := by
  obtain ⟨r, hr, hs⟩ := State.granted_scrRead hc (sigRange (globalEA c off) 4) off 24 p.ctx
  rw [hbs] at hr
  obtain ⟨u, hu, ho, hrest, hh⟩ := State.SameBanks.between_writeBack h hs c off (leBytes 4 (claimOf bs).2.2) p.ctx
  have he := exec_nestClaimStep_eq hb hp hf hr
  generalize (r.between c).writeBack (r.coreAt c).mem c off (leBytes 4 (claimOf bs).2.2) p.ctx = t at he ho hrest hh
  have hends : t.BytesEq (if t.returns p then t.send (claimAnswer p bs) else t) := by
    split
    exacts [t.bytesEq_send _, .refl t]
  rw [length_leBytes] at ho hrest
  rw [claimOf_next] at hh
  exact ⟨_, u, he, hu, hends.holds hh, hends.sameOutside_right ho, fun a h1 h2 h3 => by rw [hends.2 c]; exact hrest a h1 h2 h3⟩
end

/-! ### Answers (R74, R196) -/

section
variable {s : State} {c : Nat}

theorem exec_atomicReturn {rt : Reg} {dbl : Bool} {ea : DWord} (old : DWord) (hc : c < 8192) (hs : (s.coreAt c).status = .answer (.atomic rt dbl ea)) :
    exec (.atomicReturn c old 0) s = .next ((if dbl then ((s.goto c).setStatus .running).setD (BitVec.ofNat 5 (rt.toNat / 2)) old
      else ((s.goto c).setStatus .running).setS rt (old.setWidth 32)).advance 2) := by
  show execAtomicReturn c old 0 s = _
  rw [execAtomicReturn, atCore, if_pos hc]
  dsimp only
  rw [hs]
  rfl
/-- The extent of a nest in an answer's 64 bits. -/
theorem toNat_extent (ext : BitVec 64) (i : Nat) : (ext.extractLsb' (16 * i) 16).toNat = ext.toNat / 2 ^ (16 * i) % 2 ^ 16 := by
  rw [BitVec.extractLsb'_toNat, Nat.shiftRight_eq_div_pow]
theorem extent_eq_ofNat (ext : BitVec 64) (i : Nat) : ext.extractLsb' (16 * i) 16 = BitVec.ofNat 16 (ext.toNat / 2 ^ (16 * i) % 2 ^ 16) :=
  BitVec.eq_of_toNat_eq (by rw [toNat_extent, BitVec.toNat_ofNat, Nat.mod_mod])
theorem exec_nestClaimReturn {rd : Reg} {ea : DWord} (start cnt : Word) (ext : BitVec 64) (hc : c < 8192) (hs : (s.coreAt c).status = .answer (.claim rd ea)) :
    let e (i : Nat) : Nat := ext.toNat / 2 ^ (16 * i) % 2 ^ 16
    exec (.nestClaimReturn c start cnt ext 0) s = .next (((((s.goto c).setStatus .running).setRegs { (s.coreAt c).fir.regs with
      j := #v[BitVec.ofNat 32 (start.toNat % e 0), BitVec.ofNat 32 (start.toNat / e 0 % e 1), BitVec.ofNat 32 (start.toNat / (e 0 * e 1) % e 2),
        BitVec.ofNat 32 (start.toNat / (e 0 * e 1 * e 2) % e 3)]
      ext := #v[BitVec.ofNat 16 (e 0), BitVec.ofNat 16 (e 1), BitVec.ofNat 16 (e 2), BitVec.ofNat 16 (e 3)] }).setS rd cnt).advance 1) := by
  intro e
  have hext : (Vector.ofFn fun i : Fin 4 => ext.extractLsb' (16 * i.val) 16)
      = #v[BitVec.ofNat 16 (e 0), BitVec.ofNat 16 (e 1), BitVec.ofNat 16 (e 2), BitVec.ofNat 16 (e 3)] := by
    simp only [extent_eq_ofNat]
    rfl
  have hregs : ((s.goto c).setStatus .running).regs = (s.coreAt c).fir.regs := by rw [State.setStatus_regs, State.regs, State.core_goto]
  show execNestClaimReturn c start cnt ext 0 s = _
  rw [execNestClaimReturn, atCore, if_pos hc]
  dsimp only
  rw [hs]
  dsimp only
  simp only [toNat_extent]
  rw [if_neg (by decide), hext, hregs]
theorem State.vread_goto (s : State) (c v va n : Nat) : (s.goto c).vread v va n = s.vread v va n := by
  unfold State.goto
  split
  exacts [rfl, State.vread_congr ..]
theorem overlay_nil (ea : Nat) (bs : List Byte) : overlay [] ea bs = bs :=
  List.ext_getElem (by simp) fun i h1 h2 => by simp [overlay, forward, h2]

/-! ### The barrier agent (R206) -/

/-- The state in which a barrier agent's core has taken one update, its barrier not yet evaluated. -/
def State.barTakes (s : State) (c : Nat) (o : BarOp) : State :=
  (s.onCore c fun k => { k with barq := [] }).onCore c fun k => { k with bars := upd k.bars (barOf o) (((s.coreAt c).bar (barOf o)).update o) }
theorem State.barUpdate_one (hq : (s.coreAt c).barq = []) (o : BarOp) :
    s.barUpdate c [o] = if BarOp.isInit o then s.barTakes c o else (s.barTakes c o).barAdvance c (barOf o) := by
  have hbar : ((s.onCore c fun k => { k with barq := [] }).coreAt c).bar (barOf o) = (s.coreAt c).bar (barOf o) := by
    rw [State.coreAt_onCore, if_pos rfl]
    rfl
  have hbars : (s.coreAt c).barq ++ [o] = [o] := by rw [hq]; rfl
  unfold State.barUpdate
  rw [hbars]
  cases o <;> simp [BarOp.isInit, hbar, State.barTakes]
theorem exec_barrierUpdate_one (hc : c < 8192) (o : BarOp) : exec (.barrierUpdate c [o]) s = .next (s.barUpdate c [o]) := by
  show execBarrierUpdate c [o] s = _
  rw [execBarrierUpdate, atCore, if_pos hc]
  rfl
/-- A core's barrier after it has been written. -/
theorem State.bar_onCore (t : State) (b : BitVec 7) (x : Bar) : ((t.onCore c fun k => { k with bars := upd k.bars b x }).coreAt c).bar b = x := by
  rw [State.coreAt_onCore, if_pos rfl, Core.bar, look_upd, if_pos rfl]
  rfl
theorem State.bar_barTakes (s : State) (c : Nat) (o : BarOp) : ((s.barTakes c o).coreAt c).bar (barOf o) = ((s.coreAt c).bar (barOf o)).update o :=
  State.bar_onCore _ (barOf o) _
theorem State.sameMemory_barTakes (s : State) (c : Nat) (o : BarOp) : s.SameMemory (s.barTakes c o) := by
  have h : s.SameMemory (s.onCore c fun k => { k with barq := [] }) := State.SameMemory.onCore_right fun _ => rfl
  exact h.trans (State.SameMemory.onCore_right fun _ => rfl)
/-- A barrier without an event advances when its arrivals are there and no bytes pend. -/
theorem State.barAdvance_silent {t : State} {b : BitVec 7} (h : ((t.coreAt c).bar b).enable = false) :
    let x := (t.coreAt c).bar b
    t.barAdvance c b = if x.expected.toNat ≤ x.arrivals.toNat ∧ x.pending = 0 then
      t.onCore c fun k => { k with bars := upd k.bars b { x with phase := !x.phase, arrivals := x.arrivals - x.expected, held := false } } else t := by
  intro x
  rw [State.barAdvance]
  dsimp only
  by_cases hc : x.expected.toNat ≤ x.arrivals.toNat ∧ x.pending = 0
  · rw [if_neg (not_not.2 hc), if_neg (by simp [h]), if_neg (by simp [h]), if_pos hc]
  · rw [if_pos hc, if_neg hc]
end

/-- Settles O52: the step of each agent, and the state that each answer leaves. -/
theorem memoryAgentSteps : Obligations.MemoryAgentSteps := by
  refine ⟨fun s p ea c off h hp hf => ⟨fun bs f hb hx => ?_, fun op dbl v w ret hb hc => ?_⟩,
    fun s p ea key h ht hx hp => ⟨fun bs f hb => ?_, fun op dbl v w ret hb => ?_⟩,
    fun s p ea c off h hb hp hf hc => exec_nestClaimStep h hb hp hf hc rfl, fun s c rt ea old hc hs => exec_atomicReturn old hc hs,
    fun s c rt ea old hc hs => exec_atomicReturn old hc hs, fun s c rd ea start cnt ext hc hs => exec_nestClaimReturn start cnt ext hc hs,
    fun s c n rt ea bs hc hs hl hh ht hv hd => ?_, fun s c b x hc hx hq => ⟨fun e cls en l => ?_, fun hen ha => ?_⟩⟩
  · exact ⟨_, exec_depositWrite_scratch hb hp hf hx, State.agentWrite_spec h c off bs p.ctx⟩
  · exact fun hx => exec_atomicStep_scratch h hb hp hf hc hx
  · exact ⟨_, exec_depositWrite_global hb ht hx hp, State.gput_spec h _ key bs⟩
  · exact fun hbad => exec_atomicStep_global h hb ht hx hp hbad
  · have he := exec_translatedLoadReturn hc hs hl ht hd ((s.vread_goto c _ _ _).trans hv)
    rw [hh, overlay_nil] at he
    exact he
  · refine ⟨_, exec_barrierUpdate_one hc _, ?_⟩
    rw [State.barUpdate_one hq, if_pos (by simp [BarOp.isInit])]
    exact ⟨State.sameMemory_barTakes .., by rw [← hx]; exact State.bar_barTakes s c (.init b e cls en l)⟩
  · have hup : ((s.coreAt c).bar b).update (.arrive b) = { x with arrivals := x.arrivals + 1 } := by rw [hx, Bar.update, if_neg ha]
    have hu : ((s.barTakes c (.arrive b)).coreAt c).bar b = { x with arrivals := x.arrivals + 1 } := (State.bar_barTakes s c (.arrive b)).trans hup
    have hsame := s.sameMemory_barTakes c (.arrive b)
    have hcount : (x.arrivals + 1).toNat = x.arrivals.toNat + 1 := by bv_omega
    have hadv := State.barAdvance_silent (t := s.barTakes c (.arrive b)) (c := c) (b := b) (by rw [hu]; exact hen)
    rw [hu] at hadv
    dsimp only at hadv
    rw [hcount] at hadv
    refine ⟨_, exec_barrierUpdate_one hc _, ?_⟩
    rw [State.barUpdate_one hq, if_neg (by simp [BarOp.isInit]), show barOf (.arrive b) = b from rfl, hadv]
    split
    · exact ⟨hsame.trans (State.SameMemory.onCore_right fun _ => rfl), State.bar_onCore _ b _⟩
    · exact ⟨hsame, hu⟩

end Sys2Proof.Machine

end

/-! # The state of units, slots and engine commands (R96–R98, R103, R162, R168, R170, R171, R202, R207, R208) -/

section

namespace Sys2Proof.Machine

/-! ### Slots (R96) -/

theorem Prog.slot_setSlot (p : Prog) (n k : Nat) (x : Slot) : (p.setSlot n x).slot k = if k = n ∧ n < 16 then x else p.slot k := vget_vset ..
/-- A form that writes one slot and completes: the slot is written, every other slot and all of memory stay. -/
theorem State.retire_setSlot (s : State) {n : Nat} (hn : n < 16) (x : Slot) (w : Nat) :
    let t := (s.setProg (s.prog.setSlot n x)).retire w
    s.SameMemory t ∧ t.prog.slot n = x ∧ ∀ k, k ≠ n → t.prog.slot k = s.prog.slot k := by
  intro t
  have hp : t.prog = s.prog.setSlot n x := congrArg Ctx.prog (State.retire_ctx _ w)
  refine ⟨(State.SameMemory.of).trans (State.retire_sameMemory _ w), ?_, fun k hk => ?_⟩
  · rw [hp, Prog.slot_setSlot, if_pos ⟨rfl, hn⟩]
  · rw [hp, Prog.slot_setSlot, if_neg fun h => hk h.1]

section
variable {s : State} {n : Reg}

/-- A slot past the quota (R96). -/
theorem exec_slclm_past (h : s.ctx.slotQ ≤ n.toNat) : exec (.slclm n) s = .next (s.trap 0x0A (n.setWidth 32) 0) := if_pos h
/-- slclm of a claimed slot: SLOT when the running firing holds it, else a wait for it (R96). -/
theorem exec_slclm_claimed (hq : n.toNat < s.ctx.slotQ) (hc : (s.prog.slot n.toNat).claimed = true) : exec (.slclm n) s = .next
    (if (s.prog.slot n.toNat).holder = some s.fir.serial then s.trap 0x0A (n.setWidth 32) 0 else s.waitOn (.slot n.toNat)) := by
  show execSlclm n s = _
  rw [execSlclm, if_neg (by omega)]
  by_cases hh : (s.prog.slot n.toNat).holder = some s.fir.serial
  · rw [if_pos ⟨hc, hh⟩, if_pos hh]; rfl
  · rw [if_neg fun h => hh h.2, if_pos hc, if_neg hh]
/-- slclm of a free slot claims it for the running firing (R96). -/
theorem exec_slclm_free (hq : n.toNat < s.ctx.slotQ) (hc : (s.prog.slot n.toNat).claimed = false) : exec (.slclm n) s =
    .next ((s.setProg (s.prog.setSlot n.toNat ⟨true, some s.fir.serial, false, 0, false, []⟩)).retire 1) := by
  show execSlclm n s = _
  rw [execSlclm, if_neg (by omega), if_neg (by simp [hc]), if_neg (by simp [hc])]
  rfl
/-- slrel of a slot past the quota or unclaimed (R96). -/
theorem exec_slrel_bad (h : s.ctx.slotQ ≤ n.toNat ∨ (s.prog.slot n.toNat).claimed = false) :
    exec (.slrel n) s = .next (s.trap 0x0A (n.setWidth 32) 0) := if_pos (h.imp_right ne_true_of_eq_false)
/-- slrel of a claimed slot: SLOT while a command names it, else it is free (R96). -/
theorem exec_slrel_claimed (hq : n.toNat < s.ctx.slotQ) (hc : (s.prog.slot n.toNat).claimed = true) : exec (.slrel n) s = .next
    (if ∃ m ∈ s.commands, n.toNat ∈ m.slots then s.trap 0x0A (n.setWidth 32) 0 else (s.setProg (s.prog.setSlot n.toNat .empty)).retire 1) := by
  have hany : (s.commands.any fun m => m.slots.contains n.toNat) = true ↔ ∃ m ∈ s.commands, n.toNat ∈ m.slots := by simp
  show execSlrel n s = _
  rw [execSlrel, if_neg (by simp [hc, hq])]
  by_cases hm : ∃ m ∈ s.commands, n.toNat ∈ m.slots
  · rw [if_pos (hany.2 hm), if_pos hm]; rfl
  · rw [if_neg (mt hany.1 hm), if_neg hm]
end

/-- Settles O41: slclm and slrel of a number past the quota, of a free slot and of a claimed one. -/
theorem slotsAreClaimedAndReleased : Obligations.SlotsAreClaimedAndReleased := by
  intro s n trap
  refine ⟨fun h => ⟨exec_slclm_past h, exec_slrel_bad (.inl h)⟩, fun hn hq => ⟨fun hc => ⟨exec_slrel_bad (.inr hc), _, exec_slclm_free hq hc,
    s.retire_setSlot hn _ 1⟩, fun hc => ⟨fun hh => ?_, fun hh => ?_, fun hm => ?_, fun hm => ⟨_, ?_, s.retire_setSlot hn .empty 1⟩⟩⟩⟩
  · rw [exec_slclm_claimed hq hc, if_pos hh]
  · rw [exec_slclm_claimed hq hc, if_neg hh]
  · rw [exec_slrel_claimed hq hc, if_pos hm]
  · rw [exec_slrel_claimed hq hc, if_neg (by simpa using hm)]

/-! ### Pushes of engine commands (R97, R98, R103, R168, R170, R208) -/

/-- The chunk of `t` holds the push of a tile command by the instruction at the pc of `s`, with the next sequence number of its context, and the
instruction is complete (R97, R98). -/
def State.pushed (s t : State) (i : Instr) : State :=
  (t.setChunk { t.chunk with held := [.mcmd ⟨s.ctx.id, s.ctx.mseq + 1, s.pc, .cmd i, s.prog.seed, none, 0, none, false⟩] }).retire 8
/-- With room in the matrix queue the instruction is pushed, and `t` is what the push writes besides; without room the firing waits. -/
def State.PushesMatrix (s t : State) (i : Instr) : Prop :=
  (s.core.commands.length < 8 → exec i s = .next (s.pushed t i)) ∧ (8 ≤ s.core.commands.length → exec i s = .next (s.waitOn .matrixRoom))
/-- With room on the copy channel the command is held with the next ID of the channel; without room the firing waits (R170). -/
def State.PushesCopy (s : State) (k : BitVec 2) (i : Instr) : Prop :=
  let n := (s.core.copies.filter fun t => t.chan == k && !t.done).length
  (n < 8 → exec i s = .next ((s.setChunk { s.chunk with held :=
    [.copy ⟨0, s.ctx.id, s.ctx.vdev, k, s.ctx.xid[k.toNat]'(by omega) + 1, s.pc, i, false, [], [], none, false⟩] }).retire 8))
  ∧ (8 ≤ n → exec i s = .next (s.waitOn (.copyRoom k)))

section
variable {s : State} (hh : s.chunk.held = [])
include hh

/-- The first push of a chunk to the matrix queue; `f` is what else it writes, which is no held effect. -/
theorem State.pushesMatrix {f : State → State} {t : State} {i : Instr} (ht : f s = t) (hf : t.chunk.held = [])
    (h : exec i s = s.pushMatrix f (.cmd i) 8) : s.PushesMatrix t i := by
  rw [State.PushesMatrix, h, State.pushMatrix, hh]
  refine ⟨fun hr => (if_neg (Nat.not_le.2 hr)).trans ?_, fun hr => if_pos hr⟩
  rw [ht, State.hold, hf]
  rfl
/-- The first push of a chunk to a copy channel. -/
theorem State.pushesCopy {k : BitVec 2} {i : Instr} (h : exec i s = s.pushCopy k i) : s.PushesCopy k i := by
  have hn : s.heldCopies k = 0 := by rw [State.heldCopies, hh]; rfl
  rw [State.PushesCopy, h, State.pushCopy, State.xidNow, hn]
  refine ⟨fun hr => (if_neg (Nat.not_le.2 hr)).trans ?_, fun hr => if_pos hr⟩
  rw [State.hold, hh, BitVec.add_zero]
  rfl
/-- mqnt in mode 4, its own or the program-order register's, moves SEED past its draws (R88, R103). -/
theorem exec_mqnt_pushes (acc : BitVec 3) (fmt : BitVec 4) (rnd : BitVec 3) (codes : DWord) (cs ss : Half) (scales : DWord) :
    s.PushesMatrix (if (if rnd = 0 then (vget s.prog.po 11 0).toNat % 8 = 4 else rnd = 5)
      then s.setProg { s.prog with seed := stepsSeed (if fmt = 5 then 256 else 768) s.prog.seed } else s) (.mqnt acc fmt rnd codes cs ss scales) := by
  have hsr : (if rnd = 0 then (vget s.prog.po 11 0).setWidth 3 == (4 : BitVec 3) else rnd == 5) = true ↔
      if rnd = 0 then (vget s.prog.po 11 0).toNat % 8 = 4 else rnd = 5 := by
    split
    · rw [beq_iff_eq, ← BitVec.toNat_inj, BitVec.toNat_setWidth]; rfl
    · exact beq_iff_eq
  refine State.pushesMatrix hh (if_congr hsr rfl rfl) ?_ rfl
  split_ifs <;> exact hh
/-- The forms of tile, copy and reduction commands but mqnt (`exec_mqnt_pushes`) are pushed with their operands whole (R103, R168, R208). -/
theorem exec_commands_push :
    (∀ slot fmt tr src stride, s.PushesMatrix s (.mld slot fmt tr src stride)) ∧ (∀ acc sa sb ba bb, s.PushesMatrix s (.mma acc sa sb ba bb))
    ∧ (∀ acc, s.PushesMatrix s (.mzero acc)) ∧ (∀ acc dst stride, s.PushesMatrix s (.mst acc dst stride)) ∧ (∀ acc n, s.PushesMatrix s (.mamax acc n))
    ∧ (∀ k len va sp t, s.PushesCopy k (.cpin k len va sp t)) ∧ (∀ k len va sp t, s.PushesCopy k (.cpout k len va sp t))
    ∧ (∀ k len va sp t o rows pitch, s.PushesCopy k (.cp2d k len va sp t o rows pitch)) ∧ (∀ k len ga sp t, s.PushesCopy k (.cploc k len ga sp t))
    ∧ (∀ k len dst pat t, s.PushesCopy k (.cpfill k len dst pat t)) ∧ (∀ k n ty op src dst t parts, s.PushesCopy k (.xred k n ty op src dst t parts))
    ∧ ∀ k n ty src dst t parts, s.PushesCopy k (.xbcast k n ty src dst t parts) := by
  have hm {i : Instr} (h : exec i s = s.pushMatrix id (.cmd i) 8) : s.PushesMatrix s i := State.pushesMatrix hh (f := id) rfl hh h
  exact ⟨fun _ _ _ _ _ => hm rfl, fun _ _ _ _ _ => hm rfl, fun _ => hm rfl, fun _ _ _ => hm rfl, fun _ _ => hm rfl,
    fun _ _ _ _ _ => State.pushesCopy hh rfl, fun _ _ _ _ _ => State.pushesCopy hh rfl, fun _ _ _ _ _ _ _ _ => State.pushesCopy hh rfl,
    fun _ _ _ _ _ => State.pushesCopy hh rfl, fun _ _ _ _ _ => State.pushesCopy hh rfl, fun _ _ _ _ _ _ _ _ => State.pushesCopy hh rfl,
    fun _ _ _ _ _ _ _ => State.pushesCopy hh rfl⟩
end

theorem State.pushed_seed (s t : State) (i : Instr) : (s.pushed t i).prog.seed = t.prog.seed :=
  congrArg (fun c => c.prog.seed) (State.retire_ctx _ 8)
/-- After 256 draws SEED is not what it is after 768. -/
theorem stepsSeed_draws_differ : stepsSeed 256 0 ≠ stepsSeed 768 0 := by decide +kernel

/-- Refutes O42: its format code of mqnt is a natural number, which the instruction takes modulo 16, while its count of draws compares the number
itself with 5. From the reset state, mqnt of 21 with rounding 5 is mqnt of code 5: it moves SEED past 256 draws (`exec_mqnt_pushes`), where the
statement has 768. What it states of the other forms holds (`exec_commands_push`). -/
theorem not_commandsArePushedWhole : ¬ Obligations.CommandsArePushedWhole := by
  intro h
  obtain ⟨-, -, -, -, -, hmqnt, -⟩ := h State.reset rfl
  have hroom : State.reset.core.commands.length < 8 := by decide
  have hstated := (hmqnt 0 21 5 0 0 0 0).1 hroom
  have hpushed := (exec_mqnt_pushes (s := State.reset) rfl 0 5 5 0 0 0 0).1 hroom
  have hseed := congrArg (fun t => t.prog.seed) (Host.Outcome.next.inj (hpushed.symm.trans hstated))
  exact stepsSeed_draws_differ ((State.pushed_seed ..).symm.trans (hseed.trans (State.pushed_seed ..)))

/-! ### Reads of the state of units (R96, R162, R171, R202, R207) -/

/-- The number whose bits below `n` are these. -/
def bitsBelow (p : Nat → Bool) : Nat → Nat
  | 0 => 0
  | n + 1 => 2 ^ n * (p n).toNat + bitsBelow p n
theorem bitsBelow_lt (p : Nat → Bool) (n : Nat) : bitsBelow p n < 2 ^ n := by
  induction n with
  | zero => exact Nat.two_pow_pos 0
  | succ n ih => cases h : p n <;> simp only [bitsBelow, h, Bool.toNat_false, Bool.toNat_true, pow_succ] <;> omega
theorem testBit_bitsBelow (p : Nat → Bool) {n k : Nat} (h : k < n) : (bitsBelow p n).testBit k = p k := by
  induction n with
  | zero => omega
  | succ n ih =>
    rw [bitsBelow, Nat.testBit_two_pow_mul_add _ (bitsBelow_lt p n)]
    by_cases hk : k < n
    · rw [if_pos hk, ih hk]
    · rw [if_neg hk, show k = n by omega, Nat.sub_self]; cases p n <;> rfl
theorem ite_two_pow (c : Bool) (i : Nat) : (if c then 2 ^ i else 0) = 2 ^ i * c.toNat := by cases c <;> simp
/-- A sum of bits and of bits 16 places up, by its two halves. -/
theorem foldl_two_halves (p q : Nat → Bool) (n : Nat) :
    (List.range n).foldl (fun a i => a + (if p i then 2 ^ i else 0) + (if q i then 2 ^ (16 + i) else 0)) 0 = 2 ^ 16 * bitsBelow q n + bitsBelow p n := by
  induction n with
  | zero => rfl
  | succ n ih =>
    rw [List.range_succ, List.foldl_append, ih, List.foldl_cons, List.foldl_nil, ite_two_pow, ite_two_pow, bitsBelow, bitsBelow]
    ring
/-- The word that slstat reads: claims in its low half, full flags in its high half (R96). -/
theorem exec_slstat_bits (s : State) (rd : Reg) : ∃ w : Word, exec (.slstat rd) s = s.giveS rd w ∧
    ∀ n, n < 16 → w.getLsbD n = (s.prog.slot n).claimed ∧ w.getLsbD (16 + n) = (s.prog.slot n).full := by
  have hlt := bitsBelow_lt (fun i => (s.prog.slot i).claimed) 16
  refine ⟨_, congrArg (fun n => s.giveS rd (BitVec.ofNat 32 n)) (foldl_two_halves _ _ 16), fun n hn => ?_⟩
  rw [BitVec.getLsbD_ofNat, BitVec.getLsbD_ofNat, Nat.testBit_two_pow_mul_add _ hlt, Nat.testBit_two_pow_mul_add _ hlt, if_pos hn, if_neg (by omega),
    Nat.add_sub_cancel_left, testBit_bitsBelow _ hn, testBit_bitsBelow _ hn]
  simp [show n < 32 by omega, show 16 + n < 32 by omega]

section
variable {a b k : Nat} (x : BitVec a) (y : BitVec b)
theorem getLsbD_append_of_le (h : b ≤ k) : (BitVec.append x y).getLsbD k = x.getLsbD (k - b) :=
  (BitVec.getLsbD_append (x := x)).trans (if_neg (Nat.not_lt.2 h))
theorem getLsbD_append_of_lt (h : k < b) : (BitVec.append x y).getLsbD k = y.getLsbD k := (BitVec.getLsbD_append (x := x)).trans (if_pos h)
theorem toNat_append_eq_add : (BitVec.append x y).toNat = 2 ^ b * x.toNat + y.toNat := by
  refine (BitVec.toNat_append x y).trans ?_
  rw [Nat.shiftLeft_eq, Nat.mul_comm, Nat.two_pow_add_eq_or_of_lt y.isLt]
end

/-- The bits of the word that bstat reads (R207). -/
theorem Bar.word_bits (b : Bar) : b.word.getLsbD 31 = b.phase ∧ b.word.getLsbD 30 = b.enable ∧ b.word.extractLsb' 25 5 = b.cls
    ∧ b.word.getLsbD 24 = decide (b.pending ≠ 0) ∧ b.word.getLsbD 23 = decide (b.pending.toInt < 0) ∧ b.word.extractLsb' 16 7 = 0
    ∧ b.word.extractLsb' 0 16 = b.arrivals := by
  have hneg : b.pending.getLsbD 47 = decide (b.pending.toInt < 0) := (BitVec.msb_eq_getLsbD_last _).symm.trans BitVec.msb_eq_toInt
  have hne : (b.pending != 0) = decide (b.pending ≠ 0) := by rw [Bool.eq_iff_iff, bne_iff_ne, decide_eq_true_iff]
  rw [Bar.word, hneg, hne]
  refine ⟨?_, ?_, ?_, ?_, ?_, ?_, ?_⟩ <;>
    simp [HAppend.hAppend, -BitVec.append_eq, -BitVec.getLsbD_eq_getElem, getLsbD_append_of_le, getLsbD_append_of_lt]

/-- The word of a bound channel end in the layout of qstat (R162), bit 22 first. -/
def endWord (refill suspect eos spill off consumer : Bool) (n : Nat) : Word :=
  (0 : BitVec 9) ++ BitVec.ofBool refill ++ BitVec.ofBool suspect ++ BitVec.ofBool eos ++ BitVec.ofBool spill ++ BitVec.ofBool off
    ++ BitVec.ofBool consumer ++ (1 : BitVec 1) ++ BitVec.ofNat 16 n
section
variable (refill suspect eos spill off consumer : Bool) {n : Nat} (h : n < 2 ^ 16)
include h
theorem endWord_bits : let w := endWord refill suspect eos spill off consumer n
    w.getLsbD 16 = true ∧ w.getLsbD 17 = consumer ∧ w.getLsbD 18 = off ∧ w.getLsbD 19 = spill ∧ w.getLsbD 20 = eos ∧ w.getLsbD 21 = suspect
      ∧ w.getLsbD 22 = refill ∧ w.extractLsb' 23 9 = 0 ∧ (w.extractLsb' 0 16).toNat = n := by
  intro w
  refine ⟨?_, ?_, ?_, ?_, ?_, ?_, ?_, ?_, ?_⟩ <;>
    simp [w, endWord, HAppend.hAppend, -BitVec.append_eq, -BitVec.getLsbD_eq_getElem, getLsbD_append_of_le, getLsbD_append_of_lt,
      show n < 65536 from h]
theorem endWord_eq_ofNat : endWord refill suspect eos spill off consumer n = BitVec.ofNat 32
    (2 ^ 22 * refill.toNat + 2 ^ 21 * suspect.toNat + 2 ^ 20 * eos.toNat + 2 ^ 19 * spill.toNat + 2 ^ 18 * off.toNat + 2 ^ 17 * consumer.toNat + 2 ^ 16 + n) := by
  refine BitVec.eq_of_toNat_eq ?_
  have hle := And.intro (And.intro refill.toNat_le suspect.toNat_le) (And.intro (And.intro eos.toNat_le spill.toNat_le) (And.intro off.toNat_le consumer.toNat_le))
  simp only [endWord, HAppend.hAppend, toNat_append_eq_add, BitVec.toNat_ofBool, BitVec.toNat_ofNat, BitVec.ofNat_eq_ofNat]
  omega
end

section
variable {s : State} {q : QReg} {b : Bind} {k : Chan}

/-- qstat of q0 or q1 counts the records that the chunk has not popped (R162). -/
theorem State.qstat_inbox (hq : q.toNat < 2) :
    s.qstat q = BitVec.ofNat 32 (2 ^ 16 + ((if q = 0 then s.ctx.q0.length else s.ctx.q1.length) - s.heldPops q 0)) := by
  rw [State.qstat]
  by_cases h0 : q = 0
  · rw [if_pos h0, if_pos h0]
  · rw [if_neg h0, if_neg h0, if_pos (by bv_omega)]
variable (hq : 2 ≤ q.toNat)
include hq
theorem State.qstat_unbound (hb : s.bindOf q = none) : s.qstat q = 0 := by
  rw [State.qstat, if_neg (by bv_omega), if_neg (by bv_omega), hb]
  rfl
variable (hb : s.bindOf q = some b) (hk : s.chanSeen b.ch = some k)
include hb hk
/-- qstat of a bound consumer end (R162). -/
theorem State.qstat_consumer (hc : b.consumer = true) (ho : k.occ < 2 ^ 16) : s.qstat q =
    endWord k.refill k.suspect (k.eosPopped || s.poppedEos b.ch) false (decide (k.off ≤ k.occ)) true (k.occ - s.heldPops q b.ch) := by
  rw [State.qstat, if_neg (by bv_omega), if_neg (by bv_omega), hb]
  simp only [hk, hc, if_true, ite_two_pow]
  rw [endWord_eq_ofNat _ _ _ _ _ _ (by omega)]
  simp
/-- qstat of a bound producer end (R162). -/
theorem State.qstat_producer (hc : b.consumer = false) (hf : k.f < 2 ^ 16) : s.qstat q =
    endWord false k.suspect k.eosBit (k.spilling || s.heldPushes b.ch true != 0) k.prodXoff false (k.f - (k.out + s.heldPushes b.ch false)) := by
  rw [State.qstat, if_neg (by bv_omega), if_neg (by bv_omega), hb]
  simp only [hk, hc, ite_two_pow]
  rw [endWord_eq_ofNat _ _ _ _ _ _ (by omega)]
  simp
end

/-- Settles O37: each form gives its unit's word, whose bits are those of its layout. -/
theorem statusFormsReadTheirUnits : Obligations.StatusFormsReadTheirUnits := by
  refine fun s => ⟨fun _ => rfl, fun bar _ => ⟨_, rfl, (s.core.bar bar).word_bits⟩, fun rd => exec_slstat_bits s rd, fun _ _ => rfl, fun rd q =>
    ⟨_, rfl, fun hq => State.qstat_inbox hq, fun hq hb => State.qstat_unbound hq hb, fun b k hq hb hk ho hf => ?_⟩⟩
  cases hc : b.consumer with
  | true =>
    rw [State.qstat_consumer hq hb hk hc ho]
    obtain ⟨h16, h17, h18, h19, h20, h21, h22, hz, hn⟩ := endWord_bits k.refill k.suspect (k.eosPopped || s.poppedEos b.ch) false (decide (k.off ≤ k.occ)) true
      (show k.occ - s.heldPops q b.ch < 2 ^ 16 by omega)
    exact ⟨h16, h17, h21, hz, fun _ => ⟨hn, h18, h19, h20, h22⟩, nofun⟩
  | false =>
    rw [State.qstat_producer hq hb hk hc hf]
    obtain ⟨h16, h17, h18, h19, h20, h21, h22, hz, hn⟩ := endWord_bits false k.suspect k.eosBit (k.spilling || s.heldPushes b.ch true != 0) k.prodXoff false
      (show k.f - (k.out + s.heldPushes b.ch false) < 2 ^ 16 by omega)
    exact ⟨h16, h17, h21, hz, nofun, fun _ => ⟨hn, h18, h19, h20, h22⟩⟩

end Sys2Proof.Machine

end

/-! # Vector forms (R111–R123) -/

section

namespace Sys2Proof.Machine

/-! ### Lanes of a register (R111, R112) -/

section
variable {w n i : Nat}

/-- The number whose `w`-bit digits are these, the first lowest. -/
def joinLanes (w : Nat) (ls : List Nat) : Nat := ls.foldr (fun l a => l % 2 ^ w + 2 ^ w * a) 0

theorem joinLanes_digit (w : Nat) (ls : List Nat) (i : Nat) : joinLanes w ls / 2 ^ (w * i) % 2 ^ w = ls.getD i 0 % 2 ^ w := by
  induction ls generalizing i with
  | nil => simp [joinLanes]
  | cons l ls ih =>
    have hl : l % 2 ^ w < 2 ^ w := Nat.mod_lt _ (by positivity)
    have hc : joinLanes w (l :: ls) = l % 2 ^ w + 2 ^ w * joinLanes w ls := rfl
    cases i with
    | zero => simp [hc]
    | succ i =>
      rw [List.getD_cons_succ, ← ih i, hc, Nat.mul_succ, Nat.add_comm (w * i), Nat.pow_add, ← Nat.div_div_eq_div_mul,
        Nat.add_mul_div_left _ _ (by positivity), Nat.div_eq_of_lt hl, Nat.zero_add]
theorem lane_lt (v : Vec) (w i : Nat) : lane v w i < 2 ^ w := Nat.mod_lt _ (by positivity)
/-- A lane of a register that holds a number is that digit of it. -/
theorem lane_ofNat (x : Nat) (h : w * i + w ≤ 512) : lane (BitVec.ofNat 512 x) w i = x / 2 ^ (w * i) % 2 ^ w := by
  rw [lane, BitVec.toNat_ofNat]
  refine Nat.eq_of_testBit_eq fun k => ?_
  simp only [Nat.testBit_mod_two_pow, Nat.testBit_div_two_pow]
  by_cases hk : k < w
  · simp [show k + w * i < 512 by omega]
  · simp [hk]
theorem lane_packLanes (ls : List Nat) (h : w * i + w ≤ 512) : lane (packLanes w ls) w i = ls.getD i 0 % 2 ^ w :=
  (lane_ofNat _ h).trans (joinLanes_digit w ls i)
theorem lane_mergeLanes (old : Vec) (m : DWord) (f : Nat → Nat) (hw : w * n ≤ 512) (hi : i < n) :
    lane (mergeLanes old w n m f) w i = if m.getLsbD i then f i % 2 ^ w else lane old w i := by
  have hle : w * i + w ≤ 512 := le_trans (Nat.mul_le_mul_left w hi) hw
  rw [mergeLanes, lane_packLanes _ hle]
  simp only [List.getD_eq_getElem?_getD, List.getElem?_map, List.getElem?_range hi, Option.map_some, Option.getD_some]
  split
  · rfl
  · exact Nat.mod_eq_of_lt (lane_lt ..)
theorem tyWidth_mul_tyLanes (t : VTy) : tyWidth t * tyLanes t = 512 := by cases t <;> rfl
theorem wrap_cast (w : Nat) (x : Int) : (wrap w x : Int) = x % 2 ^ w :=
  Int.toNat_of_nonneg (Int.emod_nonneg _ (by positivity))
theorem wrap_lt (w : Nat) (x : Int) : wrap w x < 2 ^ w := by
  have h := wrap_cast w x
  have := Int.emod_lt_of_pos x (show (0 : Int) < 2 ^ w by positivity)
  rw [← h] at this
  exact_mod_cast this
end

/-! ### Forms that write the active lanes of a register (R112) -/

section
variable {s : State} {i : Instr} {vd : Reg} {m : MReg} {w n draws : Nat}

theorem State.writesLanes_vmap {f : Nat → Nat} {g : Nat → Int} (h : exec i s = (s.vmap vd m w n f).vdone) (hw : w * n ≤ 512)
    (hf : ∀ k, k < n → (f k : Int) % 2 ^ w = g k % 2 ^ w) : s.WritesLanes i vd m w n g := by
  refine ⟨_, h, fun k hk => ?_⟩
  rw [lane_mergeLanes _ _ _ hw hk]
  split
  · rw [← hf k hk]; push_cast; rfl
  · rfl
/-- The same for a form whose lanes are the numbers themselves. -/
theorem State.writesLanes_vmap_cast {f : Nat → Nat} {g : Nat → Int} (h : exec i s = (s.vmap vd m w n f).vdone) (hw : w * n ≤ 512)
    (hf : ∀ k, k < n → (f k : Int) = g k) : s.WritesLanes i vd m w n g :=
  State.writesLanes_vmap h hw fun k hk => by rw [hf k hk]
end

/-! ### Integer and bitwise forms (R114) -/

section
variable {s : State} {i : Instr} {vd va vb : Reg} {m : MReg} {t : VTy}

theorem State.writesLanes_vint {f : Int → Int → Int} (h : exec i s = (s.vint vd va vb m t f).vdone) :
    s.WritesLanes i vd m (tyWidth t) (tyLanes t) fun k => f (intLane t (lane (s.v va) (tyWidth t) k)) (intLane t (lane (s.v vb) (tyWidth t) k)) :=
  State.writesLanes_vmap h (tyWidth_mul_tyLanes t).le fun _ _ => by rw [wrap_cast, Int.emod_emod_of_dvd _ (dvd_refl _)]
theorem State.writesLanes_vbits {f : Nat → Nat → Nat} {g : Nat → Nat → Int} (h : exec i s = (s.vbits vd va vb m t f).vdone)
    (hf : ∀ a b, (f a b : Int) % 2 ^ tyWidth t = g a b % 2 ^ tyWidth t) :
    s.WritesLanes i vd m (tyWidth t) (tyLanes t) fun k => g (lane (s.v va) (tyWidth t) k) (lane (s.v vb) (tyWidth t) k) :=
  State.writesLanes_vmap h (tyWidth_mul_tyLanes t).le fun _ _ => hf _ _

theorem min_eq_ite_lt (a b : Int) : min a b = if a < b then a else b := by split <;> omega
theorem max_eq_ite_lt (a b : Int) : max a b = if a < b then b else a := by split <;> omega

/-- Each integer form computes its lanes from those of its sources. -/
theorem exec_vecIntForms {f} (hf : f ∈ vecIntForms) (ht : VTy.isFloat t = false) :
    s.WritesLanes (f.1 vd va vb m t) vd m (tyWidth t) (tyLanes t) fun k => f.2 t (lane (s.v va) (tyWidth t) k) (lane (s.v vb) (tyWidth t) k) := by
  have int {x y : Res} : (if VTy.isFloat t then x else y) = y := if_neg (by simp [ht])
  simp only [vecIntForms, List.mem_cons, List.not_mem_nil, or_false] at hf
  rcases hf with rfl | rfl | rfl | rfl | rfl | rfl | rfl | rfl | rfl | rfl | rfl
  · exact State.writesLanes_vint (f := fun a b => a + b) int
  · exact State.writesLanes_vint (f := fun a b => a - b) int
  · simp only [min_eq_ite_lt]; exact State.writesLanes_vint (f := fun a b => if a < b then a else b) int
  · simp only [max_eq_ite_lt]; exact State.writesLanes_vint (f := fun a b => if a < b then b else a) int
  · exact State.writesLanes_vint (f := fun a b => a * b) int
  · exact State.writesLanes_vint (f := fun a b => a * b / 2 ^ tyWidth t) rfl
  · exact State.writesLanes_vint (vb := va) (f := fun a _ => a.natAbs) int
  · exact State.writesLanes_vint (vb := va) (f := fun a _ => -a) int
  · exact State.writesLanes_vbits (g := fun a b => (a * 2 ^ (b % tyWidth t) : Nat)) rfl fun _ _ => rfl
  · exact State.writesLanes_vbits (g := fun a b => (a / 2 ^ (b % tyWidth t) : Nat)) rfl fun _ _ => rfl
  · exact State.writesLanes_vbits (g := fun a b => sgn (tyWidth t) a / 2 ^ (b % tyWidth t)) rfl fun _ _ => by
      rw [wrap_cast, Int.emod_emod_of_dvd _ (dvd_refl _)]

/-- A rotation to the right by its bits: the low bits come in above the others. -/
theorem testBit_ror {w a b k : Nat} (ha : a < 2 ^ w) (hk : k < w) :
    (a / 2 ^ (b % w) + a * 2 ^ (w - b % w)).testBit k = a.testBit ((k + b) % w) := by
  have hr : b % w < w := Nat.mod_lt _ (by omega)
  have hlow : a / 2 ^ (b % w) < 2 ^ (w - b % w) := by
    rw [Nat.div_lt_iff_lt_mul (by positivity), ← Nat.pow_add, Nat.sub_add_cancel hr.le]
    exact ha
  rw [Nat.add_comm, Nat.mul_comm a, Nat.testBit_two_pow_mul_add _ hlow, Nat.testBit_div_two_pow, Nat.add_mod k, Nat.mod_eq_of_lt hk]
  split
  · rw [Nat.mod_eq_of_lt (show k + b % w < w by omega)]
  · rw [Nat.mod_eq_sub_mod (show w ≤ k + b % w by omega), Nat.mod_eq_of_lt (show k + b % w - w < w by omega)]
    congr 1
    omega
theorem State.vbits_bits {f : Nat → Nat → Nat} {g : Nat → Nat → Nat → Bool} (h : exec i s = (s.vbits vd va vb m t f).vdone)
    (hf : ∀ a b k, a < 2 ^ tyWidth t → k < tyWidth t → (f a b).testBit k = g a b k) : ∃ v : Vec, exec i s = .next ((s.setV vd v).retire 1)
      ∧ ∀ i, i < tyLanes t → if (s.m m).getLsbD i then ∀ k, k < tyWidth t →
            (lane v (tyWidth t) i).testBit k = g (lane (s.v va) (tyWidth t) i) (lane (s.v vb) (tyWidth t) i) k
          else lane v (tyWidth t) i = lane (s.v vd) (tyWidth t) i := by
  refine ⟨_, h, fun i hi => ?_⟩
  rw [lane_mergeLanes _ _ _ (tyWidth_mul_tyLanes t).le hi]
  split
  · intro k hk
    rw [Nat.testBit_mod_two_pow, hf _ _ _ (lane_lt ..) hk]
    simp [hk]
  · rfl
/-- Each bitwise form gives the bits of its lanes. -/
theorem exec_vecBitForms {f} (hf : f ∈ vecBitForms) : ∃ v : Vec, exec (f.1 vd va vb m t) s = .next ((s.setV vd v).retire 1)
      ∧ ∀ i, i < tyLanes t → if (s.m m).getLsbD i then ∀ k, k < tyWidth t →
            (lane v (tyWidth t) i).testBit k = f.2 t (lane (s.v va) (tyWidth t) i) (lane (s.v vb) (tyWidth t) i) k
          else lane v (tyWidth t) i = lane (s.v vd) (tyWidth t) i := by
  simp only [vecBitForms, List.mem_cons, List.not_mem_nil, or_false] at hf
  rcases hf with rfl | rfl | rfl | rfl | rfl
  · exact State.vbits_bits rfl fun a b k _ _ => Nat.testBit_and ..
  · exact State.vbits_bits rfl fun a b k _ _ => Nat.testBit_or ..
  · exact State.vbits_bits rfl fun a b k _ _ => Nat.testBit_xor ..
  · refine State.vbits_bits rfl fun a b k _ _ => ?_
    have butNot : ∀ p q : Bool, (p ^^ (p && q)) = (p && !q) := by decide
    rw [Nat.testBit_xor, Nat.testBit_and, butNot]
  · exact State.vbits_bits rfl fun a b k ha hk => testBit_ror ha hk
end

/-- Settles O23: each form's lanes, of the integer ones by wrapping, of the bitwise ones bit by bit. -/
theorem vectorIntegerFormsGiveTheirLanes : Obligations.VectorIntegerFormsGiveTheirLanes :=
  ⟨fun _ hf _ _ _ _ _ _ ht => exec_vecIntForms hf ht, fun _ hf _ _ _ _ _ _ => exec_vecBitForms hf⟩

/-! ### Lane moves (R122) -/

theorem tyLanes_pos (t : VTy) : 0 < tyLanes t := by cases t <;> decide
theorem State.laneSrc_eq (s : State) (r : Reg) (t : VTy) :
    (s.laneSrc r t : Int) = if t = .f64 then ((s.d (r.setWidth 5)).toNat : Int) else (s.s r).toNat := by
  unfold State.laneSrc
  split <;> rfl

/-- Settles O28: each move by the lane it takes; vsel merges va's lanes into vb's. -/
theorem laneMovesGiveTheirLanes : Obligations.LaneMovesGiveTheirLanes := by
  intro vd va vb rb m t s w n a k src
  have hw : w * n ≤ 512 := (tyWidth_mul_tyLanes t).le
  refine ⟨State.writesLanes_vmap_cast rfl hw fun _ _ => s.laneSrc_eq va t, State.writesLanes_vmap_cast rfl hw fun i _ => ?_,
    State.writesLanes_vmap_cast rfl hw fun _ _ => rfl, State.writesLanes_vmap_cast rfl hw fun i _ => ?_,
    State.writesLanes_vmap_cast rfl hw fun i _ => ?_, State.writesLanes_vmap_cast rfl hw fun _ _ => rfl, ⟨_, rfl, fun i hi => ?_⟩, ?_⟩
  · rw [apply_ite (Nat.cast : Nat → Int), s.laneSrc_eq va t]
  · rw [apply_ite (Nat.cast : Nat → Int)]; rfl
  · rw [apply_ite (Nat.cast : Nat → Int)]; rfl
  · rw [lane_mergeLanes _ _ _ hw hi, Nat.mod_eq_of_lt (lane_lt ..)]
  · show execVext vd va rb t s = _
    have nat {x : Nat} {u : Nat} : BitVec.ofInt u (x : Int) = BitVec.ofNat u x := BitVec.ofInt_natCast u x
    unfold execVext
    simp only [a, apply_ite (BitVec.ofInt 32), nat]
    by_cases h : t = .f64
    · rw [if_pos h, if_pos h]; rfl
    · rw [if_neg h, if_neg h]; rfl

end Sys2Proof.Machine

end

/-! # Vector forms that round, and comparisons (R112–R118, R123) -/

section

namespace Sys2Proof.Machine

/-! ### Forms that round each active lane once (R87, R88, R112) -/

/-- The bits that places accrue, one after another, are those that one of them sets. -/
theorem getLsbD_foldl_or {α : Type} {w : Nat} (p : α → Bool) (f : α → BitVec w) (l : List α) (a : BitVec w) (k : Nat) :
    (l.foldl (fun a i => if p i then a ||| f i else a) a).getLsbD k = true ↔ a.getLsbD k = true ∨ ∃ i ∈ l, p i = true ∧ (f i).getLsbD k = true := by
  induction l generalizing a with
  | nil => simp
  | cons i l ih =>
    rw [List.foldl_cons, ih]
    by_cases hp : p i = true
    · simp [hp, or_assoc]
    · simp [hp]
theorem State.drawn_zero (s : State) (mode : Mode) : s.drawn mode 0 = s := ite_self s

section
variable {s : State} {i : Instr} {vd va vb : Reg} {m : MReg} {t : VTy} {w n draws : Nat}

/-- A form that rounds its lanes: each active lane's result, and the flags of all of them. -/
theorem State.vround_spec {f : Nat → Nat → Nat × Flags} (h : exec i s = (s.vround vd m w n draws f).vdone) (hw : w * n ≤ 512) :
    let r (i : Nat) := f i (drawAt s.prog.seed (activeBefore (s.m m) i))
    ∃ (v : Vec) (fl : Flags), exec i s = .next ((((s.setV vd v).flag fl).drawn s.mode draws).retire 1)
      ∧ (∀ i, i < n → lane v w i = if (s.m m).getLsbD i then (r i).1 % 2 ^ w else lane (s.v vd) w i)
      ∧ ∀ k, fl.getLsbD k = true ↔ ∃ i, i < n ∧ (s.m m).getLsbD i = true ∧ (r i).2.getLsbD k = true := by
  refine ⟨_, _, h, fun i hi => lane_mergeLanes _ _ _ hw hi, fun k => ?_⟩
  rw [getLsbD_foldl_or]
  simp
/-- The same for a form that takes no draw. -/
theorem State.vpick_spec {f : Nat → Exact} (h : exec i s = (s.vpick vd m t f).vdone) :
    let r (i : Nat) := (f i).into (tyFmt t) .rne 0
    ∃ (v : Vec) (fl : Flags), exec i s = .next (((s.setV vd v).flag fl).retire 1)
      ∧ (∀ i, i < tyLanes t → lane v (tyWidth t) i = if (s.m m).getLsbD i then (r i).1 % 2 ^ tyWidth t else lane (s.v vd) (tyWidth t) i)
      ∧ ∀ k, fl.getLsbD k = true ↔ ∃ i, i < tyLanes t ∧ (s.m m).getLsbD i = true ∧ (r i).2.getLsbD k = true := by
  obtain ⟨v, fl, he, hv, hfl⟩ := State.vround_spec h (tyWidth_mul_tyLanes t).le
  rw [State.drawn_zero] at he
  exact ⟨v, fl, he, hv, hfl⟩

/-- Each floating form rounds its exact result. -/
theorem exec_vecFpForms {f} (hf : f ∈ vecFpForms) (ht : VTy.isFloat t = true) : exec (f.1 vd va vb m t) s
    = (s.vfp vd m t fun i => f.2 s.mode (fpLane t (s.v va) i) (fpLane t (s.v vb) i) (fpLane t (s.v vd) i)).vdone := by
  simp only [vecFpForms, List.mem_cons, List.not_mem_nil, or_false] at hf
  rcases hf with rfl | rfl | rfl | rfl | rfl | rfl | rfl | rfl | rfl | rfl | rfl
  · exact if_pos ht
  · exact if_pos ht
  · exact if_pos ht
  all_goals rfl
/-- Each form that rounds nothing picks or changes the sign of a value. -/
theorem exec_vecPickForms {f} (hf : f ∈ vecPickForms) (ht : VTy.isFloat t = true) :
    exec (f.1 vd va vb m t) s = (s.vpick vd m t fun i => f.2 (fpLane t (s.v va) i) (fpLane t (s.v vb) i)).vdone := by
  simp only [vecPickForms, List.mem_cons, List.not_mem_nil, or_false] at hf
  rcases hf with rfl | rfl | rfl | rfl
  all_goals exact if_pos ht
end

/-- Settles O24: each form rounds or picks lane by lane. -/
theorem vectorFloatingFormsRoundOnce : Obligations.VectorFloatingFormsRoundOnce :=
  ⟨fun _ hf _ _ _ _ t _ ht => State.vround_spec (exec_vecFpForms hf ht) (tyWidth_mul_tyLanes t).le,
    fun _ hf _ _ _ _ _ _ ht => State.vpick_spec (exec_vecPickForms hf ht)⟩

/-! ### Comparisons (R118) -/

theorem tyLanes_le (t : VTy) : tyLanes t ≤ 64 := by cases t <;> decide
/-- Bits set one by one make the number of those bits. -/
theorem foldl_two_pow_filter (p : Nat → Bool) (n : Nat) : ((List.range n).filter p).foldl (fun r i => r + 2 ^ i) 0 = bitsBelow p n := by
  induction n with
  | zero => rfl
  | succ n ih =>
    rw [List.range_succ, List.filter_append, List.foldl_append, ih, bitsBelow]
    cases h : p n <;> simp [h, Nat.add_comm]
theorem getLsbD_bitsBelow (p : Nat → Bool) {n i : Nat} (hn : n ≤ 64) :
    (BitVec.ofNat 64 (bitsBelow p n)).getLsbD i = true ↔ i < n ∧ p i = true := by
  rw [BitVec.getLsbD_ofNat]
  by_cases hi : i < n
  · simp [testBit_bitsBelow p hi, hi, show i < 64 by omega]
  · simp [hi, Nat.testBit_lt_two_pow (lt_of_lt_of_le (bitsBelow_lt p n) (Nat.pow_le_pow_right (by norm_num) (not_lt.1 hi)))]
theorem flagIf_eq_fNV (c : Bool) : (flagIf c fNV = fNV ∨ flagIf c fNV = 0) ∧ (flagIf c fNV = fNV ↔ c = true) := by cases c <;> decide

section
variable {s : State} {md : MReg} {va vb : Reg} {m : MReg} {t : VTy}

/-- A comparison sets the bits of the active lanes where it holds, and NV for the NaNs it names. -/
theorem State.vcmp_spec {i : Instr} {ri : Int → Int → Bool} {Ri : Int → Int → Prop} {rf : Ordering → Bool} {Rf : Ordering → Prop} {nan quiet : Bool}
    (h : exec i s = (s.vcmp md va vb m t ri rf nan quiet).vdone) (hi : ∀ a b, ri a b = true ↔ Ri a b) (hf : ∀ o, rf o = true ↔ Rf o) :
    ∃ (v : DWord) (fl : Flags), exec i s = .next (((s.setM md v).flag fl).retire 1)
    ∧ (∀ i, i < 64 → (v.getLsbD i = true ↔ i < tyLanes t ∧ (s.m m).getLsbD i = true ∧
        (if VTy.isFloat t then
          (if (fpLane t (s.v va) i).isNan || (fpLane t (s.v vb) i).isNan then nan = true else Rf (cmpV (fpLane t (s.v va) i) (fpLane t (s.v vb) i)))
         else Ri (intLane t (lane (s.v va) (tyWidth t) i)) (intLane t (lane (s.v vb) (tyWidth t) i)))))
    ∧ ((fl = fNV ∨ fl = 0) ∧ (fl = fNV ↔ VTy.isFloat t = true ∧ ∃ i, i < tyLanes t ∧ (s.m m).getLsbD i = true ∧
        (if quiet then (fpLane t (s.v va) i).isSig || (fpLane t (s.v vb) i).isSig else (fpLane t (s.v va) i).isNan || (fpLane t (s.v vb) i).isNan) = true)) := by
  refine ⟨_, _, h, fun i _ => ?_, ?_⟩
  · rw [State.lanesOn', List.filter_filter, foldl_two_pow_filter, getLsbD_bitsBelow _ (tyLanes_le t), Bool.and_eq_true, and_comm (b := _ = true)]
    simp only [apply_ite (· = true), hi, hf]
  · obtain ⟨hor, hiff⟩ := flagIf_eq_fNV (VTy.isFloat t && (s.lanesOn' m (tyLanes t)).any fun i => if quiet then (fpLane t (s.v va) i).isSig || (fpLane t (s.v vb) i).isSig
      else (fpLane t (s.v va) i).isNan || (fpLane t (s.v vb) i).isNan)
    refine ⟨hor, hiff.trans ?_⟩
    rw [Bool.and_eq_true, List.any_eq_true]
    simp only [State.lanesOn', List.mem_filter, List.mem_range, and_assoc]
end

/-- Settles O25: each comparison by its relation, the mask forms as the model writes them. -/
theorem comparesAndMaskFormsGiveTheirBits : Obligations.ComparesAndMaskFormsGiveTheirBits := by
  refine ⟨fun f hf md va vb m t s => ?_, fun _ _ _ _ => ⟨rfl, rfl, rfl⟩, fun _ _ _ => rfl⟩
  simp only [compareForms, List.mem_cons, List.not_mem_nil, or_false] at hf
  rcases hf with rfl | rfl | rfl | rfl
  · exact State.vcmp_spec (ri := (· == ·)) (rf := (· == .eq)) rfl (fun _ _ => beq_iff_eq) fun _ => beq_iff_eq
  · exact State.vcmp_spec (ri := (· != ·)) (rf := (· != .eq)) rfl (fun _ _ => bne_iff_ne) fun _ => bne_iff_ne
  · exact State.vcmp_spec (ri := fun a b => decide (a < b)) (rf := (· == .lt)) rfl (fun _ _ => decide_eq_true_iff) fun _ => beq_iff_eq
  · exact State.vcmp_spec (ri := fun a b => decide (a ≤ b)) (rf := (· != .gt)) rfl (fun _ _ => decide_eq_true_iff) fun _ => bne_iff_ne

end Sys2Proof.Machine

end

/-! # Reductions (R121) -/

section

namespace Sys2Proof.Machine

/-! ### One level of a reduction -/

/-- How two places of a level combine: two values by `comb`, a value that meets none as it is. -/
def redStep (comb : Nat → Nat → Option Nat × Flags) : Option Nat → Option Nat → Option Nat × Flags
  | some a, some b => comb a b
  | some a, none => (some a, 0)
  | none, b => (b, 0)
/-- The combinations of two values among the first `h` pairs of a level. -/
def meetings (p : Nat → Option Nat) (h : Nat) : Nat := ((List.range h).filter fun i => (p (2 * i)).isSome && (p (2 * i + 1)).isSome).length
/-- The flags of the first places. -/
def orTo (g : Nat → Flags) : Nat → Flags
  | 0 => 0
  | n + 1 => orTo g n ||| g n

theorem length_filter_range_succ (p : Nat → Bool) (h : Nat) :
    ((List.range (h + 1)).filter p).length = ((List.range h).filter p).length + (p h).toNat := by
  rw [List.range_succ, List.filter_append, List.length_append]
  cases hp : p h <;> simp [hp]

section
variable (f : Nat → Nat → Nat → Option Nat × Flags)

theorem reduceLevel_two (a b : Option Nat) (k : Nat) (fl : Flags) : reduceLevel f [a, b] k fl
    = ([(redStep (f k) a b).1], k + (a.isSome && b.isSome).toNat, fl ||| (redStep (f k) a b).2) := by
  cases a <;> cases b <;> simp [reduceLevel, redStep]
/-- A level goes through its pairs one after another. -/
theorem reduceLevel_append (l r : List (Option Nat)) (k : Nat) (fl : Flags) (hl : l.length % 2 = 0) :
    reduceLevel f (l ++ r) k fl = ((reduceLevel f l k fl).1 ++ (reduceLevel f r (reduceLevel f l k fl).2.1 (reduceLevel f l k fl).2.2).1,
      (reduceLevel f r (reduceLevel f l k fl).2.1 (reduceLevel f l k fl).2.2).2) := by
  induction l, k, fl using reduceLevel.induct f with
  | case1 a b l k fl c ih =>
    have h := ih (by simp only [List.length_cons] at hl; omega)
    simp only [List.cons_append, reduceLevel]
    rw [show f k a b = c from rfl, h]
  | case2 a l k fl ih =>
    simp only [List.cons_append, reduceLevel]
    rw [ih (by simp only [List.length_cons] at hl; omega)]
  | case3 x l k fl ih =>
    simp only [List.cons_append, reduceLevel]
    rw [ih (by simp only [List.length_cons] at hl; omega)]
  | case4 l k fl h1 h2 h3 =>
    match l, hl with
    | [], _ => simp [reduceLevel]
    | some a :: some b :: r, _ => exact (h1 a b r rfl).elim
    | some a :: none :: r, _ => exact (h2 a r rfl).elim
    | none :: x :: r, _ => exact (h3 x r rfl).elim
/-- What a level makes of its pairs: each combined with the draw that its turn gives it. -/
theorem reduceLevel_pairs (p : Nat → Option Nat) (h k : Nat) (fl : Flags) :
    let c (i : Nat) := redStep (f (k + meetings p i)) (p (2 * i)) (p (2 * i + 1))
    reduceLevel f ((List.range (2 * h)).map p) k fl = ((List.range h).map fun i => (c i).1, k + meetings p h, fl ||| orTo (fun i => (c i).2) h) := by
  intro c
  induction h with
  | zero => simp [reduceLevel, meetings, orTo]
  | succ h ih =>
    have hr : (List.range (2 * (h + 1))).map p = (List.range (2 * h)).map p ++ [p (2 * h), p (2 * h + 1)] := by
      rw [show 2 * (h + 1) = 2 * h + 1 + 1 by omega, List.range_succ, List.range_succ]; simp
    have hp : meetings p (h + 1) = meetings p h + ((p (2 * h)).isSome && (p (2 * h + 1)).isSome).toNat := length_filter_range_succ _ _
    rw [hr, reduceLevel_append _ _ _ _ _ (by simp), ih, reduceLevel_two, hp, List.range_succ, List.map_append, orTo, ← BitVec.or_assoc, Nat.add_assoc]
    rfl
end

/-! ### The tree of a reduction -/

section
variable {comb : Nat → Nat → Nat → Option Nat × Flags} {act : Nat → Bool} {x : Nat → Nat} {n : Nat}

/-- The number of a combination matters only where every combination leaves a value. -/
def Numbered (comb : Nat → Nat → Nat → Option Nat × Flags) : Prop := (∀ k a b, (comb k a b).1.isSome = true) ∨ ∀ j k, comb j = comb k

theorem redAt_succ (l i : Nat) :
    let a := redAt comb act x n l (2 * i)
    let b := redAt comb act x n l (2 * i + 1)
    let c := redStep (comb (redBefore act n l i)) a.1 b.1
    redAt comb act x n (l + 1) i = (c.1, a.2 ||| b.2 ||| c.2) := by
  intro a b c
  have e : redAt comb act x n (l + 1) i = (match a.1, b.1 with
    | some p, some q => let c := comb (redBefore act n l i) p q; (c.1, a.2 ||| b.2 ||| c.2)
    | some p, none => (some p, a.2 ||| b.2)
    | none, q => (q, a.2 ||| b.2)) := rfl
  rw [e]
  show _ = ((redStep (comb (redBefore act n l i)) a.1 b.1).1, a.2 ||| b.2 ||| (redStep (comb (redBefore act n l i)) a.1 b.1).2)
  cases a.1 <;> cases b.1 <;> simp [redStep]
/-- With combinations that leave a value, one is present where an active lane is below. -/
theorem isSome_redAt (hc : ∀ k a b, (comb k a b).1.isSome = true) (l i : Nat) : (redAt comb act x n l i).1.isSome = redPresent act l i := by
  induction l generalizing i with
  | zero => unfold redAt redPresent; cases act i <;> rfl
  | succ l ih =>
    rw [redAt_succ, redPresent, ← ih, ← ih]
    dsimp only
    cases (redAt comb act x n l (2 * i)).1 <;> cases (redAt comb act x n l (2 * i + 1)).1 <;> simp [redStep, hc]
theorem redBefore_zero_add (l i : Nat) : redBefore act n l i = redBefore act n l 0 + redPairs act l i := rfl
theorem redBefore_succ_zero (l : Nat) : redBefore act n (l + 1) 0 = redBefore act n l 0 + redPairs act l (n / 2 ^ (l + 1)) := by
  simp [redBefore, List.range_succ, redPairs]
/-- The draw that a combination takes in its turn is that of its place in the tree. -/
theorem comb_meetings (hc : Numbered comb) {l k : Nat} (hk : (∀ k a b, (comb k a b).1.isSome = true) → k = redBefore act n l 0) (i : Nat) :
    comb (k + meetings (fun i => (redAt comb act x n l i).1) i) = comb (redBefore act n l i) := by
  rcases hc with hc | hc
  · rw [hk hc, redBefore_zero_add l i, meetings, redPairs]
    simp only [isSome_redAt hc]
  · exact hc _ _
theorem orTo_pairs (g c : Nat → Flags) (h : Nat) : orTo g (2 * h) ||| orTo c h = orTo (fun i => g (2 * i) ||| g (2 * i + 1) ||| c i) h := by
  induction h with
  | zero => exact BitVec.or_zero
  | succ h ih =>
    rw [show 2 * (h + 1) = 2 * h + 1 + 1 by omega, orTo, orTo, orTo, orTo, ← ih]
    ac_rfl
/-- Level by level the reduction goes up the tree. -/
theorem reduceAll_redAt (hc : Numbered comb) (fl : Flags) (d l k : Nat) (hn : n = 2 ^ (l + d))
    (hk : (∀ k a b, (comb k a b).1.isSome = true) → k = redBefore act n l 0) :
    reduceAll comb d ((List.range (2 ^ d)).map fun i => (redAt comb act x n l i).1) k (fl ||| orTo (fun i => (redAt comb act x n l i).2) (2 ^ d))
      = ((redAt comb act x n (l + d) 0).1, fl ||| (redAt comb act x n (l + d) 0).2) := by
  induction d generalizing l k with
  | zero => simp [reduceAll, orTo]
  | succ d ih =>
    have hh : n / 2 ^ (l + 1) = 2 ^ d := by rw [hn, show l + (d + 1) = (l + 1) + d by omega, Nat.pow_add, Nat.mul_div_cancel_left _ (by positivity)]
    have hpair : (hc' : ∀ k a b, (comb k a b).1.isSome = true) →
        k + meetings (fun i => (redAt comb act x n l i).1) (2 ^ d) = redBefore act n (l + 1) 0 := fun hc' => by
      rw [redBefore_succ_zero, hh, hk hc', meetings, redPairs]
      simp only [isSome_redAt hc']
    have hval (i : Nat) : redAt comb act x n (l + 1) i = _ := redAt_succ l i
    have hnext := ih (l + 1) _ (by rw [hn]; congr 1; omega) hpair
    rw [reduceAll, Nat.pow_succ', reduceLevel_pairs]
    simp only [comb_meetings hc hk, BitVec.or_assoc, orTo_pairs]
    rw [show l + (d + 1) = l + 1 + d by omega, ← hnext]
    simp only [hval, BitVec.or_assoc]
/-- Combinations without flags leave none. -/
theorem redAt_no_flags (h : ∀ k a b, (comb k a b).2 = 0) (l i : Nat) : (redAt comb act x n l i).2 = 0 := by
  induction l generalizing i with
  | zero => rfl
  | succ l ih =>
    rw [redAt_succ]
    dsimp only
    rw [ih, ih]
    cases (redAt comb act x n l (2 * i)).1 <;> cases (redAt comb act x n l (2 * i + 1)).1 <;> simp [redStep, h]

/-- The active lanes under a place of the tree. -/
def lanesUnder (act : Nat → Bool) (l i : Nat) : List Nat := (List.range' (2 ^ l * i) (2 ^ l)).filter act
theorem lanesUnder_succ (l i : Nat) : lanesUnder act (l + 1) i = lanesUnder act l (2 * i) ++ lanesUnder act l (2 * i + 1) := by
  rw [lanesUnder, lanesUnder, lanesUnder, ← List.filter_append, show 2 ^ l * (2 * i + 1) = 2 ^ l * (2 * i) + 2 ^ l by ring, List.range'_append_1,
    ← Nat.two_mul, ← Nat.pow_succ', ← Nat.mul_assoc, ← Nat.pow_succ]
/-- A value at a place of the tree is present where an active lane is under it, and has what the lanes have and combinations keep. -/
def HasUnder (P : List Nat → Nat → Prop) (A : List Nat) (r : Option Nat) : Prop := match r with
  | none => A = []
  | some v => A ≠ [] ∧ P A v
theorem redAt_hasUnder {P : List Nat → Nat → Prop} (h1 : ∀ i, act i = true → P [i] (x i))
    (h2 : ∀ k A B a b, A ≠ [] → B ≠ [] → P A a → P B b → ∃ c, (comb k a b).1 = some c ∧ P (A ++ B) c) (l i : Nat) :
    HasUnder P (lanesUnder act l i) (redAt comb act x n l i).1 := by
  induction l generalizing i with
  | zero =>
    have hu : lanesUnder act 0 i = [i].filter act := by simp [lanesUnder]
    rw [hu, redAt]
    cases ha : act i with
    | false => simp [HasUnder, ha]
    | true => simpa [HasUnder, ha] using h1 i ha
  | succ l ih =>
    have ha := ih (2 * i)
    have hb := ih (2 * i + 1)
    rw [redAt_succ, lanesUnder_succ]
    dsimp only
    revert ha hb
    generalize lanesUnder act l (2 * i) = A
    generalize lanesUnder act l (2 * i + 1) = B
    generalize (redAt comb act x n l (2 * i)).1 = p
    generalize (redAt comb act x n l (2 * i + 1)).1 = q
    intro ha hb
    match p, q with
    | some a, some b =>
      obtain ⟨hA, hPa⟩ := ha
      obtain ⟨hB, hPb⟩ := hb
      obtain ⟨c, hc, hP⟩ := h2 (redBefore act n l i) A B a b hA hB hPa hPb
      rw [redStep, hc]
      exact ⟨List.append_ne_nil_of_left_ne_nil hA B, hP⟩
    | some a, none => rw [show B = [] from hb, List.append_nil]; exact ha
    | none, q => rw [show A = [] from ha, List.nil_append]; exact hb
end

/-! ### Integer lanes -/

theorem emod_of_sgn (w x : Nat) : sgn w x % 2 ^ w = (x : Int) % 2 ^ w := by
  unfold sgn
  split
  · rfl
  · exact Int.sub_emod_right ..
theorem intLane_emod (t : VTy) (x : Nat) : intLane t x % 2 ^ tyWidth t = (x : Int) % 2 ^ tyWidth t := by
  unfold intLane
  split
  · rfl
  · exact emod_of_sgn ..
theorem intLane_minInt (t : VTy) : intLane t (wrap (tyWidth t) (minInt t)) = minInt t := by cases t <;> decide
theorem intLane_maxInt (t : VTy) : intLane t (wrap (tyWidth t) (maxInt t)) = maxInt t := by cases t <;> decide
/-- A floating type has a default NaN. -/
theorem nanMag_getD (t : VTy) (d : Nat) : (tyFmt t).nanMag.getD d = (tyFmt t).nanMag.getD 0 := by cases t <;> rfl
theorem tyLanes_eq_two_pow (t : VTy) : tyLanes t = 2 ^ (tyLanes t).log2 := by cases t <;> decide

/-! ### A reduction's lanes, flags and draws -/

section
variable {s : State} {i : Instr} {vd va : Reg} {m : MReg} {t : VTy} {draws : Bool} {f : Nat → Nat → Nat → Option Nat × Flags} {empty : Nat}

/-- The tree of a reduction over the active lanes of a register (R121). -/
def State.redTree (s : State) (va : Reg) (m : MReg) (t : VTy) (f : Nat → Nat → Nat → Option Nat × Flags) : Option Nat × Flags :=
  redAt f (fun i => (s.m m).getLsbD i) (fun i => lane (s.v va) (tyWidth t) i) (tyLanes t) (tyLanes t).log2 0
/-- NV for a signalling lane of a floating type (R83). -/
def State.sigFlag (s : State) (va : Reg) (m : MReg) (t : VTy) : Flags :=
  flagIf (t.isFloat && (s.lanesOn' m (tyLanes t)).any fun i => (fpLane t (s.v va) i).isSig) fNV

theorem State.reduceAll_eq (hf : Numbered f) : reduceAll f (tyLanes t).log2 ((List.range (tyLanes t)).map fun i =>
      if (s.m m).getLsbD i then some (lane (s.v va) (tyWidth t) i) else none) 0 (s.sigFlag va m t)
    = ((s.redTree va m t f).1, s.sigFlag va m t ||| (s.redTree va m t f).2) := by
  have hz (k : Nat) : orTo (fun _ => 0) k = 0#5 := by
    induction k with
    | zero => rfl
    | succ k ih => rw [orTo, ih]; rfl
  have h := reduceAll_redAt (comb := f) (act := fun i => (s.m m).getLsbD i) (x := fun i => lane (s.v va) (tyWidth t) i) (n := tyLanes t) hf
    (s.sigFlag va m t) (tyLanes t).log2 0 0 (by rw [Nat.zero_add, ← tyLanes_eq_two_pow]) fun _ => rfl
  simp only [redAt, hz, ← tyLanes_eq_two_pow, Nat.zero_add, BitVec.or_zero] at h
  exact h
/-- A reduction writes lane 0 and zeros, accrues the flags of its tree, and takes a draw for each active lane. -/
theorem State.vreduce_spec (h : exec i s = (s.vreduce vd va m t draws f empty).vdone) (hf : Numbered f) :
    ∃ v : Vec, exec i s = .next ((((s.setV vd v).flag ((s.redTree va m t f).2 ||| s.sigFlag va m t)).drawn s.mode
        (if draws && t.isFloat then activeBefore (s.m m) (tyLanes t) else 0)).retire 1)
      ∧ (∀ i, 0 < i → i < tyLanes t → lane v (tyWidth t) i = 0)
      ∧ lane v (tyWidth t) 0 = tyNorm t ((s.redTree va m t f).1.getD empty) % 2 ^ tyWidth t := by
  have hle {k : Nat} (hk : k < tyLanes t) : tyWidth t * k + tyWidth t ≤ 512 := by
    rw [← tyWidth_mul_tyLanes t, ← Nat.mul_succ]
    exact Nat.mul_le_mul_left _ hk
  refine ⟨packLanes (tyWidth t) [tyNorm t ((s.redTree va m t f).1.getD empty)], ?_, fun i h0 hi => ?_, ?_⟩
  · have hr := s.reduceAll_eq (va := va) (m := m) (t := t) hf
    rw [h, State.vreduce, State.vdone]
    simp only [State.sigFlag] at hr ⊢
    simp only [hr]
    rw [BitVec.or_comm]
    split
    · rfl
    · rw [State.drawn_zero]
  · rw [lane_packLanes _ (hle hi)]
    obtain ⟨j, rfl⟩ : ∃ j, i = j + 1 := ⟨i - 1, by omega⟩
    rfl
  · rw [lane_packLanes _ (hle (tyLanes_pos t))]
    rfl
end

/-! ### Reductions of integers -/

section
variable {s : State} {va : Reg} {m : MReg} {t : VTy}

/-- The tree has what combinations keep, for all active lanes. -/
theorem State.redTree_hasUnder {P : List Nat → Nat → Prop} {f : Nat → Nat → Nat → Option Nat × Flags}
    (h1 : ∀ i, (s.m m).getLsbD i = true → P [i] (lane (s.v va) (tyWidth t) i))
    (h2 : ∀ k A B a b, A ≠ [] → B ≠ [] → P A a → P B b → ∃ c, (f k a b).1 = some c ∧ P (A ++ B) c) :
    HasUnder P ((List.range (tyLanes t)).filter fun i => (s.m m).getLsbD i) (s.redTree va m t f).1 := by
  have h := redAt_hasUnder (x := fun i => lane (s.v va) (tyWidth t) i) (n := tyLanes t) h1 h2 (tyLanes t).log2 0
  rwa [lanesUnder, Nat.mul_zero, ← tyLanes_eq_two_pow, ← List.range_eq_range'] at h

/-- Sums wrap: the tree's is that of the active lanes, modulo the lane. -/
theorem State.redTree_sum : ((((s.redTree va m t fun _ a b => (some (wrap (tyWidth t) (intLane t a + intLane t b)), 0)).1.getD 0 : Nat)) : Int) % 2 ^ tyWidth t
    = (((List.range (tyLanes t)).filter fun i => (s.m m).getLsbD i).map fun i => intLane t (lane (s.v va) (tyWidth t) i)).sum % 2 ^ tyWidth t := by
  have h := s.redTree_hasUnder (va := va) (m := m) (t := t) (f := fun _ a b => (some (wrap (tyWidth t) (intLane t a + intLane t b)), 0))
    (P := fun A v => (v : Int) % 2 ^ tyWidth t = (A.map fun i => intLane t (lane (s.v va) (tyWidth t) i)).sum % 2 ^ tyWidth t)
    (fun i _ => by rw [List.map_singleton, List.sum_singleton, intLane_emod]) (fun _ A B a b _ _ ha hb => ⟨_, rfl, ?_⟩)
  · revert h
    generalize (s.redTree va m t _).1 = r
    intro h
    match r with
    | none => rw [show _ = [] from h]; rfl
    | some v => exact h.2
  · rw [wrap_cast, Int.emod_emod_of_dvd _ (dvd_refl _), List.map_append, List.sum_append, Int.add_emod, intLane_emod, intLane_emod, ha, hb, ← Int.add_emod]

theorem pick_spec (t : VTy) (mx : Bool) (a b : Nat) : let c := if (intLane t a < intLane t b) = mx then b else a
    (c = a ∨ c = b) ∧ if mx then intLane t a ≤ intLane t c ∧ intLane t b ≤ intLane t c else intLane t c ≤ intLane t a ∧ intLane t c ≤ intLane t b := by
  by_cases h : intLane t a < intLane t b <;> cases mx <;> simp [h] <;> omega
/-- vrmax and vrmin on integers: without active lanes nothing, else one of them that no other passes. -/
theorem State.redTree_pick (mx : Bool) :
    HasUnder (fun A v => (∃ i ∈ A, v = lane (s.v va) (tyWidth t) i) ∧ ∀ i ∈ A,
        if mx then intLane t (lane (s.v va) (tyWidth t) i) ≤ intLane t v else intLane t v ≤ intLane t (lane (s.v va) (tyWidth t) i))
      ((List.range (tyLanes t)).filter fun i => (s.m m).getLsbD i)
      (s.redTree va m t fun _ a b => (some (if (intLane t a < intLane t b) = mx then b else a), 0)).1 := by
  refine s.redTree_hasUnder (fun i _ => ⟨⟨i, List.mem_singleton_self i, rfl⟩, fun j hj => ?_⟩) fun _ A B a b _ _ ha hb => ⟨_, rfl, ?_⟩
  · rw [List.mem_singleton.1 hj]
    split <;> exact le_refl _
  · obtain ⟨⟨i, hi, rfl⟩, ha⟩ := ha
    obtain ⟨⟨j, hj, rfl⟩, hb⟩ := hb
    obtain ⟨hc, hle⟩ := pick_spec t mx (lane (s.v va) (tyWidth t) i) (lane (s.v va) (tyWidth t) j)
    refine ⟨hc.elim (fun e => ⟨i, List.mem_append_left _ hi, e⟩) fun e => ⟨j, List.mem_append_right _ hj, e⟩, fun k hk => ?_⟩
    have hk' := List.mem_append.1 hk
    cases mx with
    | false => exact hk'.elim (fun h => le_trans hle.1 (ha k h)) fun h => le_trans hle.2 (hb k h)
    | true => exact hk'.elim (fun h => le_trans (ha k h) hle.1) fun h => le_trans (hb k h) hle.2
end

/-! ### The four reductions -/

section
variable (s : State) (vd va : Reg) (m : MReg) (t : VTy)

/-- The combination of vrsum on floating lanes, with the draw of its turn. -/
def State.sumComb (s : State) (t : VTy) (k a b : Nat) : Option Nat × Flags :=
  let r := (addV s.mode ((tyFmt t).value a) ((tyFmt t).value b)).into (tyFmt t) s.mode (drawAt s.prog.seed k)
  (some r.1, r.2)
/-- That of vrmax and vrmin on floating lanes. -/
def pickComb (mx : Bool) (t : VTy) (_ a b : Nat) : Option Nat × Flags :=
  let r := (minmaxV mx ((tyFmt t).value a) ((tyFmt t).value b)).into (tyFmt t) .rne 0
  (some r.1, r.2)

theorem exec_vrsum_float (ht : VTy.isFloat t = true) : exec (.vrsum vd va m t) s = (s.vreduce vd va m t true (s.sumComb t) 0).vdone := by
  show execVrsum vd va m t s = _
  simp only [execVrsum, ht, if_true]
  rfl
theorem exec_vrsum_int (ht : VTy.isFloat t = false) : exec (.vrsum vd va m t) s
    = (s.vreduce vd va m t true (fun _ a b => (some (wrap (tyWidth t) (intLane t a + intLane t b)), 0)) 0).vdone := by
  show execVrsum vd va m t s = _
  simp only [execVrsum, ht, if_false, Bool.false_eq_true]
theorem exec_vrmax_float (ht : VTy.isFloat t = true) :
    exec (.vrmax vd va m t) s = (s.vreduce vd va m t true (pickComb true t) ((tyFmt t).sign true + (tyFmt t).infMag)).vdone := by
  show execVrmax vd va m t s = _
  simp only [execVrmax, pick2, ht, if_true]
  rfl
theorem exec_vrmax_int (ht : VTy.isFloat t = false) : exec (.vrmax vd va m t) s = (s.vreduce vd va m t true
    (fun _ a b => (some (if (intLane t a < intLane t b) = true then b else a), 0)) (wrap (tyWidth t) (minInt t))).vdone := by
  show execVrmax vd va m t s = _
  simp only [execVrmax, pick2, ht, if_false, Bool.false_eq_true]
theorem exec_vrmin_float (ht : VTy.isFloat t = true) :
    exec (.vrmin vd va m t) s = (s.vreduce vd va m t true (pickComb false t) (tyFmt t).infMag).vdone := by
  show execVrmin vd va m t s = _
  simp only [execVrmin, pick2, ht, if_true]
  rfl
theorem exec_vrmin_int (ht : VTy.isFloat t = false) : exec (.vrmin vd va m t) s = (s.vreduce vd va m t true
    (fun _ a b => (some (if (intLane t a < intLane t b) = (false = true) then b else a), 0)) (wrap (tyWidth t) (maxInt t))).vdone := by
  show execVrmin vd va m t s = _
  simp only [execVrmin, pick2, ht, if_false, Bool.false_eq_true]
end

section
variable {s : State} {i : Instr} {vd va : Reg} {m : MReg} {t : VTy} {f : Nat → Nat → Nat → Option Nat × Flags} {empty : Nat}

/-- What a floating reduction leaves in lane 0: a NaN as the default NaN (R83). -/
def redOut (t : VTy) (empty : Nat) (r : Option Nat) : Nat :=
  (if VTy.isFloat t && ((tyFmt t).value (r.getD empty)).isNan then (tyFmt t).nanMag.getD 0 else r.getD empty) % 2 ^ tyWidth t
theorem tyNorm_eq_redOut (t : VTy) (empty : Nat) (r : Option Nat) : tyNorm t (r.getD empty) % 2 ^ tyWidth t = redOut t empty r := by
  rw [tyNorm, nanMag_getD, redOut]
theorem tyNorm_int (ht : VTy.isFloat t = false) (b : Nat) : tyNorm t b = b := if_neg (by simp [ht])
/-- A reduction that combines floating lanes in one way and integer ones in another, these without flags. -/
theorem State.vreduce_lanes {g : Nat → Nat → Nat → Option Nat × Flags} {none' : Nat}
    (hx : VTy.isFloat t = true → exec i s = (s.vreduce vd va m t true f empty).vdone)
    (hn : VTy.isFloat t = false → exec i s = (s.vreduce vd va m t true g none').vdone)
    (hf : ∀ k a b, (f k a b).1.isSome = true) (hg : ∀ k a b, (g k a b).1.isSome = true ∧ (g k a b).2 = 0) :
    ∃ (v : Vec) (fl : Flags), exec i s = .next ((((s.setV vd v).flag fl).drawn s.mode (if VTy.isFloat t then activeBefore (s.m m) (tyLanes t) else 0)).retire 1)
      ∧ (∀ i, 0 < i → i < tyLanes t → lane v (tyWidth t) i = 0)
      ∧ (VTy.isFloat t = true → lane v (tyWidth t) 0 = redOut t empty (s.redTree va m t f).1 ∧ fl = (s.redTree va m t f).2 ||| s.sigFlag va m t)
      ∧ (VTy.isFloat t = false → fl = 0 ∧ lane v (tyWidth t) 0 = (s.redTree va m t g).1.getD none' % 2 ^ tyWidth t) := by
  cases ht : VTy.isFloat t with
  | true =>
    obtain ⟨v, he, hu, hl⟩ := State.vreduce_spec (hx ht) (.inl hf)
    rw [ht] at he
    exact ⟨v, _, he, hu, fun _ => ⟨hl.trans (tyNorm_eq_redOut ..), rfl⟩, nofun⟩
  | false =>
    obtain ⟨v, he, hu, hl⟩ := State.vreduce_spec (hn ht) (.inl fun k a b => (hg k a b).1)
    have hz : (s.redTree va m t g).2 = 0 := redAt_no_flags (fun k a b => (hg k a b).2) _ _
    rw [tyNorm_int ht] at hl
    rw [hz, State.sigFlag, ht, Bool.false_and, show (0 ||| flagIf false fNV : Flags) = 0 by decide] at he
    exact ⟨v, 0, he, hu, nofun, fun _ => ⟨rfl, hl⟩⟩
theorem lane_lt_of_pick {v : Nat} {A : List Nat} (h : ∃ i ∈ A, v = lane (s.v va) (tyWidth t) i) : v % 2 ^ tyWidth t = v := by
  obtain ⟨i, -, rfl⟩ := h
  exact Nat.mod_eq_of_lt (lane_lt ..)
/-- The least and greatest of the active lanes as their register reads. -/
theorem State.redTree_pick_lane (mx : Bool) (e : Int) (he : intLane t (wrap (tyWidth t) e) = e) :
    let act := (List.range (tyLanes t)).filter fun i => (s.m m).getLsbD i
    let r := intLane t ((s.redTree va m t fun _ a b => (some (if (intLane t a < intLane t b) = mx then b else a), 0)).1.getD (wrap (tyWidth t) e) % 2 ^ tyWidth t)
    (act = [] → r = e) ∧ (act ≠ [] → (∃ i ∈ act, r = intLane t (lane (s.v va) (tyWidth t) i))
      ∧ ∀ i ∈ act, if mx then intLane t (lane (s.v va) (tyWidth t) i) ≤ r else r ≤ intLane t (lane (s.v va) (tyWidth t) i)) := by
  have h := s.redTree_pick (va := va) (m := m) (t := t) mx
  revert h
  generalize (s.redTree va m t _).1 = q
  intro h act
  match q with
  | none =>
    have hn : act = [] := h
    refine ⟨fun _ => ?_, fun hne => (hne hn).elim⟩
    show intLane t (wrap (tyWidth t) e % 2 ^ tyWidth t) = e
    rw [Nat.mod_eq_of_lt (wrap_lt ..), he]
  | some v =>
    obtain ⟨hne, ⟨hi, hb⟩⟩ := h
    refine ⟨fun hn => (hne hn).elim, fun _ => ?_⟩
    rw [Option.getD_some, lane_lt_of_pick hi]
    obtain ⟨i, hm, rfl⟩ := hi
    exact ⟨⟨i, hm, rfl⟩, hb⟩
end

theorem mag2_eq (t : VTy) : (fun (_ a b : Nat) => (mag2 t a b, (0 : Flags))) = fun _ a b =>
    (if VTy.isFloat t then (match ((tyFmt t).value a).isNan, ((tyFmt t).value b).isNan with
        | true, true => none
        | true, false => some ((tyFmt t).encode ((tyFmt t).value b).abs)
        | false, true => some ((tyFmt t).encode ((tyFmt t).value a).abs)
        | false, false => some ((tyFmt t).encode (if cmpV ((tyFmt t).value a).abs ((tyFmt t).value b).abs = .lt then ((tyFmt t).value b).abs else ((tyFmt t).value a).abs)))
       else some (max (sgn (tyWidth t) a).natAbs (sgn (tyWidth t) b).natAbs), 0) := by
  funext _ a b
  unfold mag2
  dsimp only
  cases ((tyFmt t).value a).isNan <;> cases ((tyFmt t).value b).isNan <;> rfl

/-- Settles O27: the tree of each reduction; on integers by what its combinations keep. -/
theorem reductionsCombineTheActiveLanes : Obligations.ReductionsCombineTheActiveLanes := by
  intro vd va m t s n w f act x up draws tree out sig some' sum pick mag
  have hsig (ht : VTy.isFloat t = true) : s.sigFlag va m t = sig := by rw [State.sigFlag, ht]; rfl
  have plain (op : Nat → Nat → Nat) (_ a b : Nat) : ((some (op a b), 0) : Option Nat × Flags).1.isSome = true ∧ ((some (op a b), 0) : Option Nat × Flags).2 = 0 :=
    ⟨rfl, rfl⟩
  refine ⟨?_, ?_, ?_, ?_⟩
  · obtain ⟨v, fl, he, hu, hx, hn⟩ := State.vreduce_lanes (exec_vrsum_float s vd va m t) (exec_vrsum_int s vd va m t) (fun _ _ _ => rfl) (plain _)
    refine ⟨v, fl, he, hu, fun ht => hsig ht ▸ hx ht, fun ht => ?_⟩
    obtain ⟨hz, hl⟩ := hn ht
    rw [hl, ← State.redTree_sum]
    exact ⟨hz, Int.natCast_mod ..⟩
  · obtain ⟨v, fl, he, hu, hx, hn⟩ := State.vreduce_lanes (exec_vrmax_float s vd va m t) (exec_vrmax_int s vd va m t) (fun _ _ _ => rfl) (plain _)
    refine ⟨v, fl, he, hu, fun ht => hsig ht ▸ hx ht, fun ht => ?_⟩
    obtain ⟨hz, hl⟩ := hn ht
    rw [hl]
    exact ⟨hz, State.redTree_pick_lane true _ (intLane_minInt t)⟩
  · obtain ⟨v, fl, he, hu, hx, hn⟩ := State.vreduce_lanes (exec_vrmin_float s vd va m t) (exec_vrmin_int s vd va m t) (fun _ _ _ => rfl) (plain _)
    refine ⟨v, fl, he, hu, fun ht => hsig ht ▸ hx ht, fun ht => ?_⟩
    obtain ⟨hz, hl⟩ := hn ht
    rw [hl]
    exact ⟨hz, State.redTree_pick_lane false _ (intLane_maxInt t)⟩
  · have hm : s.redTree va m t (fun _ a b => (mag2 t a b, 0)) = tree mag := by rw [mag2_eq]; rfl
    have hz : (s.redTree va m t fun _ a b => (mag2 t a b, 0)).2 = 0 := redAt_no_flags (fun _ _ _ => rfl) _ _
    obtain ⟨v, he, hu, hl⟩ := State.vreduce_spec (s := s) (i := .vramax vd va m t) (draws := false) (f := fun _ a b => (mag2 t a b, 0)) (empty := 0)
      rfl (.inr fun _ _ => rfl)
    rw [hz, Bool.false_and, if_neg Bool.false_ne_true, State.drawn_zero, show 0 ||| s.sigFlag va m t = s.sigFlag va m t from BitVec.zero_or] at he
    refine ⟨v, _, he, hu, ?_, fun ht => ?_, hsig⟩
    · rw [hl, ← hm]; exact tyNorm_eq_redOut ..
    · rw [State.sigFlag, ht]; rfl

end Sys2Proof.Machine

end

/-! # Conversions and quantisers (R92, R119, R120) -/

section

namespace Sys2Proof.Machine

/-! ### Conversions (R119) -/

theorem zero_in_range (t : VTy) : minInt t ≤ 0 ∧ 0 ≤ maxInt t := by cases t <;> decide
theorem minInt_le_maxInt (t : VTy) : minInt t ≤ maxInt t := le_trans (zero_in_range t).1 (zero_in_range t).2
theorem clampTo_range (t : VTy) (x : Int) : minInt t ≤ clampTo t x ∧ clampTo t x ≤ maxInt t := by
  have := minInt_le_maxInt t
  unfold clampTo
  omega
/-- An integer of a type is what its lane reads. -/
theorem intLane_wrap {t : VTy} {x : Int} (hlo : minInt t ≤ x) (hhi : x ≤ maxInt t) : intLane t (wrap (tyWidth t) x) = x := by
  have hc := wrap_cast (tyWidth t) x
  have hl := wrap_lt (tyWidth t) x
  unfold intLane sgn
  cases t <;> simp only [minInt, maxInt, tyWidth, reduceCtorEq, if_true, if_false] at * <;> omega
/-- Saturation clamps, and tells whether it had to. -/
theorem saturate_eq (t : VTy) (x : Int) : saturate t x = (wrap (tyWidth t) (clampTo t x), decide (clampTo t x ≠ x)) := by
  have := minInt_le_maxInt t
  unfold saturate
  split
  · next h => rw [show clampTo t x = minInt t by unfold clampTo; omega, decide_eq_true (by omega)]
  split
  · next h => rw [show clampTo t x = maxInt t by unfold clampTo; omega, decide_eq_true (by omega)]
  · rw [show clampTo t x = x by unfold clampTo; omega]; simp

section
variable {mode : Mode} {d : Nat} {t dst : VTy} {x : Nat}

theorem convertLane_float (h : VTy.isFloat dst = true) : convertLane mode d t dst x = toFloat mode d t dst x := by
  unfold convertLane toFloat VTy.isInt
  cases VTy.isFloat t <;> simp [h]
theorem convertLane_int (h : VTy.isFloat dst = false) (ht : VTy.isFloat t = false) : convertLane mode d t dst x
    = (wrap (tyWidth dst) (clampTo dst (intLane t x)), flagIf (decide (clampTo dst (intLane t x) ≠ intLane t x)) fOF) := by
  simp only [convertLane, VTy.isInt, h, ht, Bool.not_false, if_true, saturate_eq]
theorem toInteger_range (v : FVal) : minInt dst ≤ (toInteger mode d dst v).1 ∧ (toInteger mode d dst v).1 ≤ maxInt dst := by
  have := minInt_le_maxInt dst
  cases v with
  | nan s n => exact zero_in_range dst
  | inf n => cases n <;> simp [toInteger, this]
  | fin n m e => exact clampTo_range ..
theorem convertLane_round (h : VTy.isFloat dst = false) (ht : VTy.isFloat t = true) : convertLane mode d t dst x
    = (wrap (tyWidth dst) (toInteger mode d dst ((tyFmt t).value x)).1, (toInteger mode d dst ((tyFmt t).value x)).2) := by
  simp only [convertLane, VTy.isInt, h, ht, Bool.not_false, Bool.not_true, Bool.false_eq_true, if_true, if_false]
  cases (tyFmt t).value x with
  | nan s n => simp [toInteger, wrap]
  | inf n => rfl
  | fin n m e =>
    simp only [toInteger, saturate_eq]
    by_cases hc : clampTo dst (roundInt mode d n m e).1 = (roundInt mode d n m e).1
    · simp [hc, flagIf]
    · simp [hc]
end

theorem getLsbD_flagIf (c : Bool) (f : Flags) (k : Nat) : (flagIf c f).getLsbD k = true ↔ c = true ∧ f.getLsbD k = true := by cases c <;> simp [flagIf]
theorem getLsbD_fOF (k : Nat) : fOF.getLsbD k = true ↔ k = 2 := by
  by_cases hk : k < 5
  · exact (show ∀ k < 5, fOF.getLsbD k = true ↔ k = 2 by decide) k hk
  · exact iff_of_false (by simp [BitVec.getLsbD_of_ge fOF k (by omega)]) (by omega)
/-- One flag that lanes may set. -/
theorem eq_flag_or_zero {fl f : Flags} {c : Prop} (h : ∀ k, fl.getLsbD k = true ↔ c ∧ f.getLsbD k = true) (hf : f ≠ 0) : (fl = f ∨ fl = 0) ∧ (fl = f ↔ c) := by
  by_cases hc : c
  · have e : fl = f := BitVec.eq_of_getLsbD_eq fun k _ => Bool.eq_iff_iff.2 ((h k).trans (and_iff_right hc))
    exact ⟨.inl e, iff_of_true e hc⟩
  · have e : fl = 0 := BitVec.eq_of_getLsbD_eq fun k _ => by
      rw [Bool.eq_iff_iff, h k]
      simp [hc]
    exact ⟨.inr e, iff_of_false (e ▸ hf.symm) hc⟩

/-- A conversion's lanes and flags, whatever its types. -/
theorem exec_vcvt_spec (vd va : Reg) (dst : VTy) (m : MReg) (t : VTy) (s : State) :
    let on (i : Nat) : Prop := i < tyLanes dst ∧ i < tyLanes t ∧ (s.m m).getLsbD i = true
    let c (i : Nat) := convertLane s.mode (drawAt s.prog.seed (activeBefore (s.m m) i)) t dst (lane (s.v va) (tyWidth t) i)
    ∃ (v : Vec) (fl : Flags), exec (.vcvt vd va dst m t) s
        = .next ((((s.setV vd v).flag fl).drawn s.mode (if VTy.isFloat t || VTy.isFloat dst then activeBefore (s.m m) (tyLanes dst) else 0)).retire 1)
      ∧ (∀ i, i < tyLanes dst → (s.m m).getLsbD i = false → lane v (tyWidth dst) i = lane (s.v vd) (tyWidth dst) i)
      ∧ (∀ i, i < tyLanes dst → (s.m m).getLsbD i = true → tyLanes t ≤ i → lane v (tyWidth dst) i = 0)
      ∧ (∀ i, on i → lane v (tyWidth dst) i = (c i).1 % 2 ^ tyWidth dst) ∧ ∀ k, fl.getLsbD k = true ↔ ∃ i, on i ∧ (c i).2.getLsbD k = true := by
  intro on c
  obtain ⟨v, fl, he, hv, hfl⟩ := State.vround_spec (i := .vcvt vd va dst m t) (s := s) rfl (tyWidth_mul_tyLanes dst).le
  dsimp only at hv hfl
  refine ⟨v, fl, he, fun i hi h0 => ?_, fun i hi h1 hp => ?_, fun i ⟨hi, hs, h1⟩ => ?_, fun k => (hfl k).trans (exists_congr fun i => ?_)⟩
  · rw [hv i hi, h0, if_neg Bool.false_ne_true]
  · rw [hv i hi, if_pos h1, if_neg (by omega), Nat.zero_mod]
  · rw [hv i hi, if_pos h1, if_pos (by omega)]
  · by_cases hs : i < tyLanes t
    · simp only [on, hs, true_and, and_assoc]
      refine and_congr_right fun hi => ?_
      rw [if_pos (by omega)]
    · simp [on, hs, show ¬ (i < min (tyLanes t) (tyLanes dst)) by omega]

/-! ### vdqnt and vamax (R120) -/

section
variable {s : State} {vd va : Reg} {m : MReg}

theorem ofBytes_vecBytes (v : Vec) : ofBytes (vecBytes v 64) = v.toNat := by
  rw [vecBytes, ofBytes_leBytes, show 256 = 2 ^ 8 from rfl, ← Nat.pow_mul, show 8 * 64 = 512 from rfl]
  exact Nat.mod_eq_of_lt v.isLt
theorem toNat_getD_vecBytes (v : Vec) (i : Nat) : ((vecBytes v 64).getD i 0).toNat = lane v 8 i := by
  rw [← ofNat_ofBytes_div, ofBytes_vecBytes, BitVec.toNat_ofNat, lane, Nat.pow_mul]
/-- The dequantised lanes of a block: zero under a scale of 0, else the exact products. -/
theorem exec_vdqnt_spec (vd va : Reg) {fmt : BitVec 4} {f : Fmt} (m : MReg) (s : State) (hf : Fmt.ofCode fmt = some f) :
    ∃ v : Vec, exec (.vdqnt vd va fmt m) s = .next ((s.setV vd v).retire 1)
      ∧ ∀ i, i < 16 → lane v 32 i = if (s.m m).getLsbD i = false then lane (s.v vd) 32 i else
        let c := lane (s.v va) 8 63
        if c = 0 then 0 else Fmt.f32.encode (mulV (f.value (lane (s.v va) f.bits i)) (.fin false (scaleMag c).1 (scaleMag c).2)).v % 2 ^ 32 := by
  refine ⟨_, rfl, fun i hi => ?_⟩
  rw [lane_mergeLanes _ _ _ (by norm_num) hi, hf, Option.getD_some, toNat_getD_vecBytes, unpackCode, ofBytes_vecBytes, dequant]
  cases (s.m m).getLsbD i
  · rfl
  · rw [if_pos rfl, if_neg (show ¬ true = false by decide)]
    dsimp only
    split
    · exact Nat.zero_mod _
    · rfl
theorem exec_vamax_spec (vd va : Reg) (m : MReg) (t : VTy) (s : State) : ∃ v : Vec, exec (.vamax vd va m t) s = .next ((s.setV vd v).retire 1)
      ∧ ∀ i, i < tyLanes t →
        let a := fpLane t (s.v va) i
        let d := fpLane t (s.v vd) i
        lane v (tyWidth t) i = if (s.m m).getLsbD i = false ∨ a.isNan = true then lane (s.v vd) (tyWidth t) i
          else if d.isNan = true ∨ cmpV d a.abs = .lt ∨ cmpV d a.abs = .eq ∧ d.neg = true then (tyFmt t).encode a.abs % 2 ^ tyWidth t
          else lane (s.v vd) (tyWidth t) i := by
  refine ⟨_, rfl, fun i hi => ?_⟩
  intro a d
  rw [lane_mergeLanes _ _ _ (tyWidth_mul_tyLanes t).le hi]
  have hbelow : belowV d a.abs = true ↔ cmpV d a.abs = .lt ∨ cmpV d a.abs = .eq ∧ d.neg = true := by
    have hn : a.abs.neg = false := by cases a <;> rfl
    unfold belowV
    rw [hn]
    cases cmpV d a.abs <;> simp
  have hold := Nat.mod_eq_of_lt (lane_lt (s.v vd) (tyWidth t) i)
  cases hm : (s.m m).getLsbD i
  · simp
  · rw [if_pos rfl]
    show (if a.isNan then lane (s.v vd) (tyWidth t) i else if d.isNan then (tyFmt t).encode a.abs
      else if belowV d a.abs then (tyFmt t).encode a.abs else lane (s.v vd) (tyWidth t) i) % 2 ^ tyWidth t = _
    cases ha : a.isNan
    · cases hd : d.isNan
      · by_cases hb : belowV d a.abs = true
        · simp [hb, hbelow.1 hb]
        · simp [hb, hbelow.not.1 hb, hold]
      · simp
    · simp [hold]
end

/-! ### Magnitudes (R92) -/

/-- The rational number m·2^e. -/
def magQ (m : Nat) (e : Int) : ℚ := m * 2 ^ e
/-- The magnitude of a value that is no NaN; an infinity is greatest. -/
def FVal.mag : FVal → WithTop ℚ
  | .fin _ m e => (magQ m e : ℚ)
  | _ => ⊤

theorem magQ_shift (m d : Nat) (e : Int) : magQ (m * 2 ^ d) e = magQ m (e + d) := by
  rw [magQ, magQ, zpow_add₀ two_ne_zero, zpow_natCast]
  push_cast
  ring
theorem magQ_lt_same {m n : Nat} {e : Int} : magQ m e < magQ n e ↔ m < n := by
  rw [magQ, magQ, mul_lt_mul_iff_left₀ (by positivity), Nat.cast_lt]
/-- The order of m·2^e and n·2^k, over the lower exponent. -/
theorem cmpMag_spec (m : Nat) (e : Int) (n : Nat) (k : Int) :
    (cmpMag m e n k = .lt ↔ magQ m e < magQ n k) ∧ (cmpMag m e n k = .gt ↔ magQ n k < magQ m e) := by
  unfold cmpMag
  split
  · have h : magQ n k = magQ (n * 2 ^ (k - e).toNat) e := by rw [magQ_shift]; congr 1; omega
    rw [h, magQ_lt_same, magQ_lt_same, compare_lt_iff_lt, compare_gt_iff_gt]
    exact ⟨Iff.rfl, Iff.rfl⟩
  · have h : magQ m e = magQ (m * 2 ^ (e - k).toNat) k := by rw [magQ_shift]; congr 1; omega
    rw [h, magQ_lt_same, magQ_lt_same, compare_lt_iff_lt, compare_gt_iff_gt]
    exact ⟨Iff.rfl, Iff.rfl⟩
theorem magQ_eq_zero {m : Nat} {e : Int} : magQ m e = 0 ↔ m = 0 := by
  rw [magQ, mul_eq_zero_iff_right (by positivity), Nat.cast_eq_zero]
theorem magQ_nonneg (m : Nat) (e : Int) : 0 ≤ magQ m e := by unfold magQ; positivity
theorem magQ_mul (m n : Nat) (e k : Int) : magQ (m * n) (e + k) = magQ m e * magQ n k := by
  rw [magQ, magQ, magQ, zpow_add₀ two_ne_zero]
  push_cast
  ring

/-- Of two magnitudes the lower one compares so. -/
theorem cmpV_abs_lt {a b : FVal} (ha : a.isNan = false) (hb : b.isNan = false) : cmpV a.abs b.abs = .lt ↔ a.mag < b.mag := by
  match a, b with
  | .inf _, .inf _ => exact iff_of_false nofun (lt_irrefl _)
  | .inf _, .fin .. => exact iff_of_false nofun not_top_lt
  | .fin _ m e, .inf _ => exact iff_of_true rfl (WithTop.coe_lt_top _)
  | .fin _ m e, .fin _ n k =>
    have h1 : magQ m e = magQ (m * 2 ^ (e - min e k).toNat) (min e k) := by rw [magQ_shift]; congr 1; omega
    have h2 : magQ n k = magQ (n * 2 ^ (k - min e k).toNat) (min e k) := by rw [magQ_shift]; congr 1; omega
    rw [FVal.mag, FVal.mag, WithTop.coe_lt_coe, h1, h2, magQ_lt_same]
    simp only [FVal.abs, cmpV, addExact, signed, Bool.not_false, if_true, Bool.false_eq_true, if_false]
    generalize m * 2 ^ (e - min e k).toNat = x
    generalize n * 2 ^ (k - min e k).toNat = y
    by_cases h : (x : Int) + -(y : Int) < 0
    · rw [if_pos h]
      exact iff_of_true rfl (by omega)
    · rw [if_neg h]
      exact iff_of_false (by split <;> nofun) (by omega)
@[simp] theorem FVal.mag_abs (v : FVal) : v.abs.mag = v.mag := by cases v <;> rfl
@[simp] theorem FVal.isNan_abs (v : FVal) : v.abs.isNan = v.isNan := by cases v <;> rfl
@[simp] theorem FVal.abs_abs (v : FVal) : v.abs.abs = v.abs := by cases v <;> rfl

/-- A candidate for the greatest magnitude: a magnitude itself, of a value or zero. -/
def IsAmax (vs : List FVal) (a : FVal) : Prop := a.isNan = false ∧ a.abs = a ∧ (a = .fin false 0 0 ∨ ∃ v ∈ vs, v.isNan = false ∧ a = v.abs)
    ∧ ∀ v ∈ vs, v.isNan = false → v.mag ≤ a.mag
theorem IsAmax.snoc {vs : List FVal} {a v : FVal} (h : IsAmax vs a) :
    IsAmax (vs ++ [v]) (if v.isNan then a else if cmpV a v.abs = .lt then v.abs else a) := by
  obtain ⟨hn, ha, hs, hle⟩ := h
  have hs' : a = .fin false 0 0 ∨ ∃ u ∈ vs ++ [v], u.isNan = false ∧ a = u.abs :=
    hs.imp_right fun ⟨u, hu, h⟩ => ⟨u, List.mem_append_left _ hu, h⟩
  cases hv : v.isNan with
  | true =>
    refine ⟨hn, ha, hs', fun u hu hun => ?_⟩
    rcases List.mem_append.1 hu with hu | hu
    · exact hle u hu hun
    · rw [List.mem_singleton.1 hu, hv] at hun; cases hun
  | false =>
    have hlt : cmpV a v.abs = .lt ↔ a.mag < v.mag := by
      conv_lhs => rw [← ha]
      exact cmpV_abs_lt hn hv
    simp only [Bool.false_eq_true, if_false, hlt]
    split
    · next h =>
      refine ⟨by rw [FVal.isNan_abs, hv], v.abs_abs, .inr ⟨v, by simp, hv, rfl⟩, fun u hu hun => ?_⟩
      rw [FVal.mag_abs]
      rcases List.mem_append.1 hu with hu | hu
      · exact (hle u hu hun).trans h.le
      · rw [List.mem_singleton.1 hu]
    · next h =>
      refine ⟨hn, ha, hs', fun u hu hun => ?_⟩
      rcases List.mem_append.1 hu with hu | hu
      · exact hle u hu hun
      · rw [List.mem_singleton.1 hu]; exact not_lt.1 h
/-- The greatest magnitude of a list is that of one of its values or zero, and no value that is no NaN passes it. -/
theorem amaxV_isAmax (vs : List FVal) : IsAmax vs (amaxV vs) := by
  induction vs using List.reverseRecOn with
  | nil => exact ⟨rfl, rfl, .inl rfl, nofun⟩
  | append_singleton vs v ih =>
    have e : amaxV (vs ++ [v]) = _ := List.foldl_concat ..
    rw [e]
    exact ih.snoc

/-! ### The scale of a block (R92) -/

/-- The magnitudes that a block holds under a scale code: the scale times β times the format's largest value. -/
def scaleBound (bf : Nat) (bfe : Int) (c : Nat) : ℚ := magQ (scaleMag c).1 (scaleMag c).2 * magQ bf bfe
theorem magQ_scale (bf : Nat) (bfe : Int) (c : Nat) : magQ ((scaleMag c).1 * bf) ((scaleMag c).2 + bfe) = scaleBound bf bfe c := magQ_mul ..
/-- Scale codes stand in the order of their scales. -/
theorem scaleBound_mono (bf : Nat) (bfe : Int) {c d : Nat} (h : c ≤ d) : scaleBound bf bfe c ≤ scaleBound bf bfe d := by
  refine mul_le_mul_of_nonneg_right (monotone_nat_of_le_succ (f := fun c => magQ (scaleMag c).1 (scaleMag c).2) (fun c => ?_) h) (magQ_nonneg ..)
  have same {m n : Nat} {e : Int} (h : m ≤ n) : magQ m e ≤ magQ n e := not_lt.1 (mt magQ_lt_same.1 (not_lt.2 h))
  unfold scaleMag
  by_cases hm : c % 32 = 31
  · have h1 : (c + 1) % 32 = 0 := by omega
    have h2 : ((c + 1 : Nat) : Int) / 32 - 9 = (c : Int) / 32 - 9 + (1 : Nat) := by omega
    rw [h1, h2, hm, if_neg (show (c + 1) / 32 ≠ 0 by omega)]
    show _ ≤ magQ 32 _
    split
    · next h0 => rw [show (c : Int) / 32 - 9 + (1 : Nat) = -8 by omega]; exact same (by norm_num)
    · rw [← magQ_shift]; exact same (by norm_num)
  · have h1 : (c + 1) % 32 = c % 32 + 1 := by omega
    have h2 : ((c + 1 : Nat) : Int) / 32 = (c : Int) / 32 := by omega
    have h3 : (c + 1) / 32 = c / 32 := by omega
    rw [h1, h2, h3]
    split <;> exact same (by omega)
/-- The search gives the least code from its start on whose bound reaches the magnitude, or its end. -/
theorem leastScale_spec (m : Nat) (e : Int) (bf : Nat) (bfe : Int) (fuel c : Nat) :
    let r := leastScale m e bf bfe fuel c
    c ≤ r ∧ r ≤ c + fuel ∧ (∀ d, c ≤ d → d < r → scaleBound bf bfe d < magQ m e) ∧ (r < c + fuel → magQ m e ≤ scaleBound bf bfe r) := by
  induction fuel generalizing c with
  | zero => exact ⟨le_refl _, le_refl _, fun d h1 h2 => absurd h1 (not_le.2 h2), fun h => absurd h (lt_irrefl _)⟩
  | succ fuel ih =>
    have hc : cmpMag ((scaleMag c).1 * bf) ((scaleMag c).2 + bfe) m e ≠ .lt ↔ magQ m e ≤ scaleBound bf bfe c := by
      rw [Ne, (cmpMag_spec ..).1, magQ_scale, not_lt]
    rw [leastScale]
    dsimp only
    split
    · next h => exact ⟨le_refl _, by omega, fun d h1 h2 => absurd h1 (not_le.2 h2), fun _ => hc.1 h⟩
    · next h =>
      obtain ⟨h1, h2, h3, h4⟩ := ih (c + 1)
      refine ⟨by omega, by omega, fun d hd1 hd2 => ?_, fun hr => h4 (by omega)⟩
      rcases Nat.eq_or_lt_of_le hd1 with rfl | hd
      · exact not_le.1 (hc.not.1 h)
      · exact h3 d hd hd2

/-- The scale code of a block with this greatest magnitude, whether it saturates, whether it is clamped. -/
def blockScale (bf : Nat) (bfe : Int) (a : FVal) : Nat × Bool × Bool := match a with
  | .inf _ => (0xFF, true, false)
  | .nan _ _ => (0, false, false)
  | .fin _ m e =>
    if m = 0 then (0, false, false)
    else if cmpMag m e (63 * bf) (bfe - 2) = .gt then (0xFF, true, false)
    else if cmpMag m e bf (bfe - 8) = .lt then (1, false, true)
    else (leastScale m e bf bfe 255 1, false, false)

theorem scaleBound_nonneg (bf : Nat) (bfe : Int) (c : Nat) : 0 ≤ scaleBound bf bfe c := mul_nonneg (magQ_nonneg ..) (magQ_nonneg ..)
/-- The scale code reaches the magnitude as the least one that does, or is the last one; it is 0 for a magnitude of zero alone. -/
theorem blockScale_bounds (bf : Nat) (bfe : Int) {a : FVal} (ha : a.isNan = false) :
    let c := (blockScale bf bfe a).1
    let B (d : Nat) : WithTop ℚ := (scaleBound bf bfe d : ℚ)
    (c = 0 ↔ a.mag ≤ (0 : ℚ)) ∧ c ≤ 255 ∧ (0 < c → c < 255 → a.mag ≤ B c) ∧ (∀ d, 1 ≤ d → d < c → B d < a.mag)
      ∧ ((blockScale bf bfe a).2.1 = true ↔ B 255 < a.mag) := by
  have h255 : magQ (63 * bf) (bfe - 2) = scaleBound bf bfe 255 := by rw [← magQ_scale, sub_eq_neg_add]; rfl
  have h1 : magQ bf (bfe - 8) = scaleBound bf bfe 1 := by rw [← magQ_scale, sub_eq_neg_add, show (scaleMag 1).1 = 1 from rfl, Nat.one_mul]; rfl
  cases a with
  | nan => cases ha
  | inf n => exact ⟨iff_of_false nofun (by simp [FVal.mag]), le_refl _, fun _ h => absurd h (lt_irrefl _), fun _ _ _ => WithTop.coe_lt_top _,
      iff_of_true rfl (WithTop.coe_lt_top _)⟩
  | fin n m e =>
    intro c B
    simp only [FVal.mag, B, WithTop.coe_le_coe, WithTop.coe_lt_coe]
    have hgt := (cmpMag_spec m e (63 * bf) (bfe - 2)).2
    have hlt := (cmpMag_spec m e bf (bfe - 8)).1
    rw [h255] at hgt
    rw [h1] at hlt
    by_cases hm : m = 0
    · have hM : magQ m e = 0 := magQ_eq_zero.2 hm
      have hb : blockScale bf bfe (.fin n m e) = (0, false, false) := if_pos hm
      simp only [c, hb, hM]
      exact ⟨iff_of_true trivial (le_refl _), by omega, fun h => absurd h (lt_irrefl _), fun _ _ h => absurd h (Nat.not_lt_zero _),
        iff_of_false nofun (not_lt.2 (scaleBound_nonneg ..))⟩
    have hM : ¬ magQ m e ≤ 0 := fun h => hm (magQ_eq_zero.1 (le_antisymm h (magQ_nonneg m e)))
    by_cases hg : cmpMag m e (63 * bf) (bfe - 2) = .gt
    · have hb : blockScale bf bfe (.fin n m e) = (0xFF, true, false) := (if_neg hm).trans (if_pos hg)
      simp only [c, hb]
      exact ⟨iff_of_false nofun hM, le_refl _, fun _ h => absurd h (lt_irrefl _),
        fun d _ hd => (scaleBound_mono bf bfe hd.le).trans_lt (hgt.1 hg), iff_of_true trivial (hgt.1 hg)⟩
    have hle : ¬ scaleBound bf bfe 255 < magQ m e := mt hgt.2 hg
    by_cases hl : cmpMag m e bf (bfe - 8) = .lt
    · have hb : blockScale bf bfe (.fin n m e) = (1, false, true) := ((if_neg hm).trans (if_neg hg)).trans (if_pos hl)
      simp only [c, hb]
      exact ⟨iff_of_false nofun hM, by omega, fun _ _ => (hlt.1 hl).le, fun d h1 h2 => absurd h1 (not_le.2 h2), iff_of_false nofun hle⟩
    · have hb : blockScale bf bfe (.fin n m e) = (leastScale m e bf bfe 255 1, false, false) := ((if_neg hm).trans (if_neg hg)).trans (if_neg hl)
      obtain ⟨hlo, hhi, hbelow, hreach⟩ := leastScale_spec m e bf bfe 255 1
      have hlast : leastScale m e bf bfe 255 1 ≤ 255 := not_lt.1 fun h => hle (hbelow 255 (by norm_num) h)
      simp only [c, hb]
      exact ⟨iff_of_false (by omega) hM, hlast, fun _ _ => hreach (by omega), hbelow, iff_of_false nofun hle⟩

section
variable {f : Fmt} {bm : Nat} {be : Int} {nf : Bool} {fm : Nat} {fe : Int}

theorem inScale_iff (hF : f.value f.maxMag = .fin nf fm fe) (c : Nat) (v : FVal) :
    inScale f bm be c v = true ↔ v.isNan = true ∨ v.mag ≤ (scaleBound (bm * fm) (be + fe) c : ℚ) := by
  unfold inScale
  rw [hF]
  cases v with
  | nan s n => simp [FVal.isNan]
  | inf n => simp [FVal.isNan, FVal.mag]
  | fin n m e =>
    have h := (cmpMag_spec m e ((scaleMag c).1 * bm * fm) ((scaleMag c).2 + be + fe)).2
    rw [Nat.mul_assoc, Int.add_assoc, magQ_scale] at h
    simp only [FVal.isNan, FVal.mag, Bool.false_eq_true, false_or, WithTop.coe_le_coe, bne_iff_ne]
    rw [Nat.mul_assoc, Int.add_assoc, Ne, h, not_lt]
theorem inScale_false_iff (hF : f.value f.maxMag = .fin nf fm fe) (c : Nat) (v : FVal) :
    inScale f bm be c v = false ↔ v.isNan = false ∧ (scaleBound (bm * fm) (be + fe) c : WithTop ℚ) < v.mag := by
  rw [← Bool.not_eq_true, inScale_iff hF, not_or, Bool.not_eq_true, not_le]
theorem FVal.isZero_iff {v : FVal} (h : v.isNan = false) : v.isZero = true ↔ v.mag ≤ (0 : ℚ) := by
  cases v with
  | nan => cases h
  | inf n => exact iff_of_false nofun (by simp [FVal.mag])
  | fin n m e =>
    rw [FVal.mag, WithTop.coe_le_coe, (magQ_nonneg m e).ge_iff_eq', magQ_eq_zero, FVal.isZero, decide_eq_true_iff]

/-- The scale of a block is that of its values, and saturates where one of them is beyond every scale. -/
theorem blockScale_spec {vs : List FVal} {a : FVal} (h : IsAmax vs a) (hF : f.value f.maxMag = .fin nf fm fe) :
    ScaleFor f bm be vs (blockScale (bm * fm) (be + fe) a).1
      ∧ ((blockScale (bm * fm) (be + fe) a).2.1 = true ↔ ∃ v ∈ vs, beyondScales f bm be v = true) := by
  obtain ⟨hn, -, hs, hle⟩ := h
  obtain ⟨h0, h255, hreach, hbelow, hsat⟩ := blockScale_bounds (bm * fm) (be + fe) hn
  have hzero : a.mag ≤ (0 : ℚ) ↔ ∀ v ∈ vs, v.isNan = true ∨ v.isZero = true := by
    refine ⟨fun h v hv => ?_, fun h => ?_⟩
    · rw [Classical.or_iff_not_imp_left, Bool.not_eq_true]
      exact fun hvn => (FVal.isZero_iff hvn).2 ((hle v hv hvn).trans h)
    · rcases hs with rfl | ⟨v, hv, hvn, rfl⟩
      · simp [FVal.mag, magQ]
      · rw [FVal.mag_abs]
        exact (FVal.isZero_iff hvn).1 ((h v hv).resolve_left (by simp [hvn]))
  -- a code whose bound the greatest magnitude passes is too small for its value
  have hout {c : Nat} : (scaleBound (bm * fm) (be + fe) c : WithTop ℚ) < a.mag ↔ ∃ v ∈ vs, inScale f bm be c v = false := by
    refine ⟨fun h => ?_, fun ⟨v, hv, h⟩ => ?_⟩
    · rcases hs with rfl | ⟨v, hv, hvn, rfl⟩
      · rw [FVal.mag, magQ_eq_zero.2 rfl, WithTop.coe_lt_coe] at h
        exact absurd (scaleBound_nonneg _ _ c) (not_le.2 h)
      · exact ⟨v, hv, (inScale_false_iff hF c v).2 ⟨hvn, by rwa [FVal.mag_abs] at h⟩⟩
    · obtain ⟨hvn, hb⟩ := (inScale_false_iff hF c v).1 h
      exact hb.trans_le (hle v hv hvn)
  refine ⟨⟨h0.trans hzero, h255, fun hp hq v hv => ?_, fun d h1 h2 => hout.1 (hbelow d h1 h2)⟩, hsat.trans (hout.trans ?_)⟩
  · rw [inScale_iff hF, Classical.or_iff_not_imp_left, Bool.not_eq_true]
    exact fun hvn => (hle v hv hvn).trans (hreach hp hq)
  · simp only [beyondScales, Bool.not_eq_true']

/-! ### A quantised block (R82, R92) -/

/-- An element's code and flags under a scale code; nothing of a diverted one. -/
def elementCode (f : Fmt) (mode : Mode) (bm : Nat) (be : Int) (c : Nat) (e : Option FVal × Nat) : Nat × Flags := match e.1 with
  | none => (0, 0)
  | some v => scaledCode f mode bm be c v e.2
theorem quantBlock_eq (hF : f.value f.maxMag = .fin nf fm fe) (mode : Mode) (els : List (Option FVal × Nat)) :
    let r := blockScale (bm * fm) (be + fe) (amaxV (els.filterMap (·.1)))
    let os := els.map (elementCode f mode bm be r.1)
    quantBlock f mode bm be els = ⟨r.1, os.map (·.1), os.foldl (fun a o => a ||| o.2) 0, r.2.1, r.2.2⟩ := by
  intro r os
  have swap {g g' : Option FVal × Nat → Nat × Flags} (h : ∀ e, g e = g' e) :
      (⟨r.1, (els.map g).map (·.1), (els.map g).foldl (fun a o => a ||| o.2) 0, r.2.1, r.2.2⟩ : Block)
        = ⟨r.1, (els.map g').map (·.1), (els.map g').foldl (fun a o => a ||| o.2) 0, r.2.1, r.2.2⟩ := by rw [funext h]
  rw [quantBlock, hF]
  refine swap fun e => ?_
  unfold elementCode
  rcases e with ⟨_ | v, d⟩
  · rfl
  · cases v <;> rfl
end

theorem filterMap_ite {α β : Type} (p : α → Bool) (g : α → β) (l : List α) :
    l.filterMap (fun i => if p i then some (g i) else none) = (l.filter p).map g := by
  induction l with
  | nil => rfl
  | cons a l ih => cases h : p a <;> simp [h, ih]
theorem joinLanes_lt (w : Nat) (ls : List Nat) : joinLanes w ls < 2 ^ (w * ls.length) := by
  induction ls with
  | nil => simp [joinLanes]
  | cons l ls ih =>
    have hl : l % 2 ^ w < 2 ^ w := Nat.mod_lt _ (by positivity)
    rw [List.length_cons, Nat.mul_succ, Nat.add_comm, Nat.pow_add]
    show l % 2 ^ w + 2 ^ w * joinLanes w ls < _
    calc l % 2 ^ w + 2 ^ w * joinLanes w ls < 2 ^ w * (joinLanes w ls + 1) := by rw [Nat.mul_succ]; omega
      _ ≤ 2 ^ w * 2 ^ (w * ls.length) := Nat.mul_le_mul_left _ ih
theorem joinLanes_lt_of_le {w k : Nat} {ls : List Nat} (h : w * ls.length ≤ k) : joinLanes w ls < 2 ^ k :=
  (joinLanes_lt w ls).trans_le (Nat.pow_le_pow_right (by norm_num) h)
theorem ofBytes_append (bs cs : List Byte) : ofBytes (bs ++ cs) = ofBytes bs + 256 ^ bs.length * ofBytes cs := by
  induction bs with
  | nil => simp [ofBytes]
  | cons b bs ih => rw [List.cons_append, ofBytes, ih, ofBytes, List.length_cons, Nat.pow_succ']; ring
theorem ofBytes_replicate_zero (n : Nat) : ofBytes (List.replicate n 0) = 0 := by
  induction n with
  | zero => rfl
  | succ n ih => rw [List.replicate_succ, ofBytes, ih]; rfl
/-- The register of a quantised block: its codes below, its scale in the last byte. -/
def blockVec (bits : Nat) (cs : List Nat) (scale : Nat) : Vec := bytesVec (slice (packCodes bits cs) 0 63 ++ [BitVec.ofNat 8 scale])

section
variable {bits : Nat} {cs : List Nat} {scale : Nat}

theorem blockVec_eq (hb : bits ≤ 8) (hc : cs.length = 16) (hs : scale ≤ 255) :
    blockVec bits cs scale = BitVec.ofNat 512 (joinLanes bits cs + 2 ^ (8 * 63) * scale) := by
  have hlen : (packCodes bits cs).length = 2 * bits := by rw [packCodes, length_leBytes, hc]; omega
  have hnum : ofBytes (packCodes bits cs) = joinLanes bits cs := by
    rw [packCodes, ofBytes_leBytes, hc, show (256 : Nat) = 2 ^ 8 from rfl, ← Nat.pow_mul]
    refine Nat.mod_eq_of_lt (lt_of_lt_of_eq (joinLanes_lt bits cs) ?_)
    rw [hc]
    congr 1
    omega
  have hpad : slice (packCodes bits cs) 0 63 = packCodes bits cs ++ List.replicate (63 - 2 * bits) 0 := by
    rw [slice, List.drop_zero, List.take_of_length_le (by omega), hlen, Nat.sub_zero]
  rw [blockVec, bytesVec, ofBytes_append, length_slice, hpad, ofBytes_append, ofBytes_replicate_zero, hnum]
  have hone : ofBytes [BitVec.ofNat 8 scale] = scale := by
    show (BitVec.ofNat 8 scale).toNat + 256 * 0 = scale
    rw [BitVec.toNat_ofNat]
    omega
  rw [hone, Nat.mul_zero, Nat.add_zero, show (256 : Nat) = 2 ^ 8 from rfl, ← pow_mul]
/-- What stands above some digits of a number does not change them. -/
theorem digit_add {p q r : Nat} (x y : Nat) (h : p + q ≤ r) : (x + 2 ^ r * y) / 2 ^ p % 2 ^ q = x / 2 ^ p % 2 ^ q := by
  obtain ⟨d, rfl⟩ := Nat.exists_eq_add_of_le h
  rw [Nat.pow_add, Nat.pow_add, Nat.mul_assoc, Nat.mul_assoc, Nat.add_mul_div_left _ _ (by positivity), Nat.add_mul_mod_self_left]
theorem lane_blockVec_code (hb : bits ≤ 8) (hc : cs.length = 16) (hs : scale ≤ 255) {i : Nat} (hi : i < 16) :
    lane (blockVec bits cs scale) bits i = cs.getD i 0 % 2 ^ bits := by
  have hle : bits * i + bits ≤ 128 := by rw [← Nat.mul_succ]; exact Nat.mul_le_mul hb hi
  rw [blockVec_eq hb hc hs, lane_ofNat _ (by omega), digit_add _ _ (by omega), joinLanes_digit]
theorem lane_blockVec_zero (hb : bits ≤ 8) (hc : cs.length = 16) (hs : scale ≤ 255) {j : Nat} (hlo : 2 * bits ≤ j) (hhi : j < 63) :
    lane (blockVec bits cs scale) 8 j = 0 := by
  have hx : joinLanes bits cs < 2 ^ (8 * j) := joinLanes_lt_of_le (by rw [hc]; omega)
  rw [blockVec_eq hb hc hs, lane_ofNat _ (by omega), digit_add _ _ (by omega), Nat.div_eq_of_lt hx, Nat.zero_mod]
theorem lane_blockVec_scale (hb : bits ≤ 8) (hc : cs.length = 16) (hs : scale ≤ 255) : lane (blockVec bits cs scale) 8 63 = scale := by
  have hx : joinLanes bits cs < 2 ^ (8 * 63) := joinLanes_lt_of_le (by rw [hc]; omega)
  rw [blockVec_eq hb hc hs, lane_ofNat _ (by norm_num), Nat.add_mul_div_left _ _ (by positivity), Nat.div_eq_of_lt hx]
  omega
end

/-! ### vqnt (R120) -/

/-- A narrow format has codes of at most a byte, and its largest value is finite. -/
theorem narrow_format {fmt : BitVec 4} {f : Fmt} (h0 : fmt ≠ 0) (h : Fmt.ofCode fmt = some f) :
    f.bits ≤ 8 ∧ ∃ n m e, f.value f.maxMag = .fin n m e := by
  have hall : ∀ c : BitVec 4, c ≠ 0 → ∀ g ∈ Fmt.ofCode c, g ∈ [Fmt.e5m2, .e4m3, .e3m2, .e2m3, .e2m1] := by decide
  have hf := hall fmt h0 f h
  simp only [List.mem_cons, List.not_mem_nil, or_false] at hf
  rcases hf with rfl | rfl | rfl | rfl | rfl <;> exact ⟨by decide, _, _, _, rfl⟩

theorem exec_vqnt_spec (vd va : Reg) {fmt : BitVec 4} {f : Fmt} (m : MReg) (s : State) (h0 : fmt ≠ 0) (hf : Fmt.ofCode fmt = some f) :
    let on (i : Nat) : Bool := (s.m m).getLsbD i
    let x (i : Nat) : FVal := fpLane .f32 (s.v va) i
    let live := ((List.range 16).filter on).map x
    let code (c i : Nat) : Nat × Flags := scaledCode f s.mode 1 0 c (x i) (drawAt s.prog.seed (activeBefore (s.m m) i))
    ∃ (v : Vec) (fl : Flags) (c : Nat), exec (.vqnt vd va fmt m) s = .next ((((s.setV vd v).flag fl).drawn s.mode (activeBefore (s.m m) 16)).retire 1)
      ∧ lane v 8 63 = c ∧ ScaleFor f 1 0 live c
      ∧ (∀ i, i < 16 → lane v f.bits i = if on i then (code c i).1 % 2 ^ f.bits else 0) ∧ (∀ j, 2 * f.bits ≤ j → j < 63 → lane v 8 j = 0)
      ∧ ∀ k, fl.getLsbD k = true ↔ (k = 2 ∧ ∃ a ∈ live, beyondScales f 1 0 a = true) ∨ ∃ i, i < 16 ∧ on i = true ∧ (code c i).2.getLsbD k = true := by
  intro on x live code
  obtain ⟨hb, n, fm, fe, hF⟩ := narrow_format h0 hf
  let els := (List.range 16).map fun i => (if on i then some (x i) else none, drawAt s.prog.seed (activeBefore (s.m m) i))
  have hlive : els.filterMap (·.1) = live := by
    rw [List.filterMap_map]
    exact filterMap_ite on x _
  obtain ⟨hscale, hsat⟩ := blockScale_spec (bm := 1) (be := 0) (amaxV_isAmax live) hF
  have hblock := quantBlock_eq (bm := 1) (be := 0) hF s.mode els
  rw [hlive] at hblock
  dsimp only at hblock
  generalize blockScale (1 * fm) (0 + fe) (amaxV live) = r at hblock hscale hsat
  have hfmt : (Fmt.ofCode fmt).getD .e2m1 = f := by rw [hf]; rfl
  have he : exec (.vqnt vd va fmt m) s = .next ((((s.setV vd (blockVec f.bits (quantBlock f s.mode 1 0 els).codes (quantBlock f s.mode 1 0 els).scale)).flag
      ((quantBlock f s.mode 1 0 els).flags ||| flagIf (quantBlock f s.mode 1 0 els).sat fOF)).drawn s.mode (activeBefore (s.m m) 16)).retire 1) := by
    show execVqnt vd va fmt m s = _
    rw [execVqnt, hfmt]
    rfl
  have hos : els.map (elementCode f s.mode 1 0 r.1) = (List.range 16).map fun i => if on i then code r.1 i else (0, 0) := by
    rw [List.map_map]
    refine List.map_congr_left fun i _ => ?_
    show elementCode f s.mode 1 0 r.1 (if on i then some (x i) else none, _) = _
    cases on i <;> rfl
  have h255 : r.1 ≤ 255 := hscale.2.1
  rw [hblock, hos] at he
  refine ⟨_, _, r.1, he, lane_blockVec_scale hb (by simp) h255, hscale, fun i hi => ?_, fun j hlo hhi => lane_blockVec_zero hb (by simp) h255 hlo hhi,
    fun k => ?_⟩
  · rw [lane_blockVec_code hb (by simp) h255 hi, List.map_map]
    simp only [List.getD_eq_getElem?_getD, List.getElem?_map, List.getElem?_range hi, Option.map_some, Option.getD_some, Function.comp_apply]
    cases on i
    · exact Nat.zero_mod _
    · rfl
  · have hfl := getLsbD_foldl_or (fun _ => true) (fun i => (if on i then code r.1 i else (0, 0)).2) (List.range 16) 0 k
    simp only [if_true, true_and] at hfl
    have hlanes : (∃ i ∈ List.range 16, ((if on i then code r.1 i else (0, 0)).2).getLsbD k = true)
        ↔ ∃ i, i < 16 ∧ on i = true ∧ (code r.1 i).2.getLsbD k = true := exists_congr fun i => by
      rw [List.mem_range]
      cases on i <;> simp
    rw [BitVec.getLsbD_or, Bool.or_eq_true, List.foldl_map, hfl, getLsbD_flagIf, getLsbD_fOF, hsat, hlanes, or_comm, and_comm]
    simp

/-- Settles O26: a conversion by the types it goes between, vqnt by its block, vdqnt and vamax lane by lane. -/
theorem conversionsAndQuantisersComplete : Obligations.ConversionsAndQuantisersComplete := by
  refine ⟨fun vd va dst m t s => ?_, fun vd va fmt f m s h0 hf => ⟨exec_vqnt_spec vd va m s h0 hf, exec_vdqnt_spec vd va m s hf⟩,
    fun vd va m t s _ => exec_vamax_spec vd va m t s⟩
  intro on x draw
  obtain ⟨v, fl, he, hkeep, hpast, hlane, hfl⟩ := exec_vcvt_spec vd va dst m t s
  refine ⟨v, fl, he, hkeep, hpast, fun hd => ?_, fun hd ht => ?_, fun hd ht => ?_⟩
  · simp only [convertLane_float hd] at hlane hfl
    exact ⟨hlane, hfl⟩
  · simp only [convertLane_round hd ht] at hlane hfl
    refine ⟨fun i hi => ?_, hfl⟩
    obtain ⟨hlo, hhi⟩ := toInteger_range (mode := s.mode) (d := draw i) (dst := dst) (fpLane t (s.v va) i)
    rw [hlane i hi, Nat.mod_eq_of_lt (wrap_lt ..)]
    exact intLane_wrap hlo hhi
  · simp only [convertLane_int hd ht] at hlane
    refine ⟨fun i hi => ?_, ?_⟩
    · obtain ⟨hlo, hhi⟩ := clampTo_range dst (intLane t (x i))
      rw [hlane i hi, Nat.mod_eq_of_lt (wrap_lt ..)]
      exact intLane_wrap hlo hhi
    · refine eq_flag_or_zero (fun k => (hfl k).trans ?_) (by decide)
      simp only [convertLane_int hd ht, getLsbD_flagIf, decide_eq_true_iff]
      rw [← exists_and_right]
      exact exists_congr fun i => and_assoc.symm

end Sys2Proof.Machine

end

/-! # Vector accesses (R125–R127) -/

section

namespace Sys2Proof.Machine

/-! ### Bytes of a register (R3, R111) -/

/-- Byte `k` of a register. -/
def vecByte (v : Vec) (k : Nat) : Byte := (vecBytes v 64).getD k 0

theorem toNat_vecByte (v : Vec) (k : Nat) : (vecByte v k).toNat = lane v 8 k := toNat_getD_vecBytes v k
theorem eq_map_getD (bs : List Byte) : bs = (List.range bs.length).map fun k => bs.getD k 0 := by
  refine List.ext_getElem (by simp) fun k h1 h2 => ?_
  simp [List.getElem?_eq_getElem h1]
theorem getD_map_range {α : Type} (g : Nat → α) (d : α) {n k : Nat} (h : k < n) : ((List.range n).map g).getD k d = g k := by simp [h]
theorem slice_eq_map (bs : List Byte) (i n : Nat) : slice bs i n = (List.range n).map fun k => bs.getD (i + k) 0 := by
  rw [eq_map_getD (slice bs i n), length_slice]
  exact List.map_congr_left fun k hk => getD_slice (List.mem_range.1 hk)
theorem ofBytes_div (bs : List Byte) (i : Nat) : ofBytes bs / 256 ^ i = ofBytes (bs.drop i) := by
  induction i generalizing bs with
  | zero => simp
  | succ i ih =>
    cases bs with
    | nil => simp [ofBytes]
    | cons b bs =>
      have hb := b.isLt
      rw [Nat.pow_succ', ← Nat.div_div_eq_div_mul, List.drop_succ_cons, ← ih, ofBytes]
      congr 1
      omega
theorem ofBytes_mod (bs : List Byte) (n : Nat) (h : n ≤ bs.length) : ofBytes bs % 256 ^ n = ofBytes (bs.take n) := by
  conv_lhs => rw [← List.take_append_drop n bs]
  rw [ofBytes_append, List.length_take_of_le h, Nat.add_mul_mod_self_left]
  exact Nat.mod_eq_of_lt (lt_of_lt_of_eq (ofBytes_lt _) (by rw [List.length_take_of_le h]))
/-- A lane of whole bytes is the number in its bytes. -/
theorem lane_eq_ofBytes (v : Vec) {n i : Nat} (h : n * i + n ≤ 64) : lane v (8 * n) i = ofBytes (slice (vecBytes v 64) (n * i) n) := by
  have hlen : (vecBytes v 64).length = 64 := length_leBytes ..
  have hs : slice (vecBytes v 64) (n * i) n = ((vecBytes v 64).drop (n * i)).take n := by
    rw [slice, hlen, show n - (64 - n * i) = 0 by omega, List.replicate_zero, List.append_nil]
  rw [hs, ← ofBytes_mod _ _ (by rw [List.length_drop, hlen]; omega), ← ofBytes_div, ofBytes_vecBytes, lane, show 256 = 2 ^ 8 from rfl, ← pow_mul, ← pow_mul,
    Nat.mul_assoc]
theorem slice_vecBytes (v : Vec) {n i : Nat} (h : n * i + n ≤ 64) : slice (vecBytes v 64) (n * i) n = leBytes n (lane v (8 * n) i) := by
  have hb := leBytes_ofBytes (slice (vecBytes v 64) (n * i) n)
  rw [length_slice] at hb
  rw [lane_eq_ofBytes v h, hb]
/-- A lane from its bytes. -/
theorem lane_of_vecByte (v : Vec) {n i : Nat} (h : n * i + n ≤ 64) : lane v (8 * n) i = ofBytes ((List.range n).map fun j => vecByte v (n * i + j)) := by
  rw [lane_eq_ofBytes v h, slice_eq_map]
  rfl
theorem vecByte_bytesVec (bs : List Byte) {k : Nat} (h : k < 64) : vecByte (bytesVec bs) k = bs.getD k 0 := by
  refine BitVec.eq_of_toNat_eq ?_
  rw [toNat_vecByte, bytesVec, lane_ofNat _ (by omega), ← ofNat_ofBytes_div, BitVec.toNat_ofNat, show 256 = 2 ^ 8 from rfl, ← Nat.pow_mul]
/-- Bytes put into a register stand there, and the others stay. -/
theorem vecByte_putBytes (v : Vec) {i k : Nat} {bs : List Byte} (h : i + bs.length ≤ 64) (hk : k < 64) :
    vecByte (putBytes v i bs) k = if i ≤ k ∧ k < i + bs.length then bs.getD (k - i) 0 else vecByte v k := by
  have hlen : (vecBytes v 64).length = 64 := length_leBytes ..
  have htake : ((vecBytes v 64).take i).length = i := by rw [List.length_take_of_le (by omega)]
  rw [putBytes, vecByte_bytesVec _ hk, List.append_assoc]
  by_cases hlo : k < i
  · rw [List.getD_append _ _ _ _ (by omega), if_neg (by omega), vecByte]
    simp [List.getD_eq_getElem?_getD, hlo]
  · rw [List.getD_append_right _ _ _ _ (by omega), htake]
    by_cases hhi : k < i + bs.length
    · rw [List.getD_append _ _ _ _ (by omega), if_pos (by omega)]
    · rw [List.getD_append_right _ _ _ _ (by omega), if_neg (by omega), vecByte]
      simp only [List.getD_eq_getElem?_getD, List.getElem?_drop]
      congr 2
      omega

/-- Pieces put into a register one after another. -/
theorem vecByte_foldl_putBytes {ps : List (Nat × List Byte)} (ha : ps.Pairwise fun a b => a.1 + a.2.length ≤ b.1) (hb : ∀ p ∈ ps, p.1 + p.2.length ≤ 64) (v : Vec) :
    let x := ps.foldl (fun v p => putBytes v p.1 p.2) v
    (∀ p ∈ ps, ∀ k, k < p.2.length → vecByte x (p.1 + k) = p.2.getD k 0)
      ∧ ∀ k, k < 64 → (∀ p ∈ ps, ¬ (p.1 ≤ k ∧ k < p.1 + p.2.length)) → vecByte x k = vecByte v k := by
  induction ps generalizing v with
  | nil => exact ⟨nofun, fun _ _ _ => rfl⟩
  | cons q ps ih =>
    obtain ⟨hq, ha⟩ := List.pairwise_cons.1 ha
    have hlen := hb q (List.mem_cons_self ..)
    obtain ⟨hin, hout⟩ := ih ha (fun p hp => hb p (List.mem_cons_of_mem _ hp)) (putBytes v q.1 q.2)
    refine ⟨fun p hp k hk => ?_, fun k h64 hk => ?_⟩
    · rcases List.mem_cons.1 hp with rfl | hp
      · refine (hout _ (by omega) fun p' hp' => ?_).trans ?_
        · have := hq p' hp'
          omega
        · rw [vecByte_putBytes v hlen (by omega), if_pos (by omega), Nat.add_sub_cancel_left]
      · exact hin p hp k hk
    · refine (hout k h64 fun p hp => hk p (List.mem_cons_of_mem _ hp)).trans ?_
      rw [vecByte_putBytes v hlen h64, if_neg (hk q (List.mem_cons_self ..))]
/-- Lanes of a register whose bytes are written lane by lane. -/
theorem lane_of_bytes {x old : Vec} {n i : Nat} {on : Nat → Bool} {b : Nat → Byte} (h : n * i + n ≤ 64)
    (hx : ∀ j, j < n → vecByte x (n * i + j) = if on i then b j else vecByte old (n * i + j)) :
    lane x (8 * n) i = if on i then ofBytes ((List.range n).map b) else lane old (8 * n) i := by
  rw [lane_of_vecByte x h, lane_of_vecByte old h, List.map_congr_left fun j hj => hx j (List.mem_range.1 hj)]
  cases on i <;> rfl

/-! ### States that a read leaves (R131, R228) -/

theorem State.Alike.refl (s : State) : s.Alike s := ⟨rfl, fun _ => ⟨rfl, fun _ => le_refl _⟩⟩
theorem State.Alike.trans {s t u : State} (h : s.Alike t) (h' : t.Alike u) : s.Alike u := by
  obtain ⟨he, hc⟩ := h
  obtain ⟨he', hc'⟩ := h'
  refine ⟨?_, fun d => ⟨?_, fun g => ((hc d).2 g).trans ((hc' d).2 g)⟩⟩
  · rw [he'] ; rw [he]
  · rw [(hc' d).1, (hc d).1]
theorem State.coreAt_setChunk_eq (s : State) (c : Chunk) (d : Nat) :
    (s.setChunk c).coreAt d = if d = s.cur then { s.coreAt d with fir := { (s.coreAt d).fir with chunk := c } } else s.coreAt d := by
  show (if d = s.cur then (s.setChunk c).core else (look s.others d).getD .reset) = _
  unfold State.coreAt
  by_cases h : d = s.cur
  · simp only [if_pos h]; rfl
  · simp only [if_neg h]
theorem State.coreAt_setChunk_mem (s : State) (c : Chunk) (d : Nat) :
    ((s.setChunk c).coreAt d).mem = (s.coreAt d).mem ∧ ((s.setChunk c).coreAt d).clean = (s.coreAt d).clean := by
  rw [State.coreAt_setChunk_eq]
  split <;> exact ⟨rfl, rfl⟩
/-- Two machines that are alike stay so under the same change of the open chunk. -/
theorem State.Alike.setChunk {s u : State} (h : s.Alike u) (c : Chunk) : (s.setChunk c).Alike (u.setChunk c) := by
  obtain ⟨he, hc⟩ := h
  have hcur : u.cur = s.cur := by rw [he]
  refine ⟨?_, fun d => ?_⟩
  · rw [he]; rfl
  · obtain ⟨h1, h2⟩ := hc d
    rw [State.coreAt_setChunk_eq, State.coreAt_setChunk_eq, hcur]
    split
    · exact ⟨by rw [h1], h2⟩
    · exact ⟨h1, h2⟩

section
variable {s t : State}

theorem State.Alike.chunk (h : s.Alike t) : t.chunk = s.chunk := by rw [State.chunk, h.1]; rfl
theorem State.Alike.cur (h : s.Alike t) : t.cur = s.cur := by rw [h.1]
theorem State.Alike.v (h : s.Alike t) (i : Reg) : t.v i = s.v i := by rw [h.1]; rfl
theorem State.Alike.seenByte (h : s.Alike t) (a : Nat) : t.core.seenByte a = s.core.seenByte a := by rw [h.1]; rfl

/-- The state that reads of scratchpads leave: alike, with this read signature of the open chunk. -/
def State.ReadsOn (s t : State) (g : Vec) : Prop := s.Alike (t.setChunk s.chunk) ∧ t.chunk = { s.chunk with rsig := g }

theorem State.ReadsOn.refl (s : State) : s.ReadsOn s s.chunk.rsig := ⟨.refl s, rfl⟩
theorem State.Alike.readsOn {u : State} (h : s.Alike u) (g : Vec) : s.ReadsOn (u.setChunk { s.chunk with rsig := g }) g := by
  refine ⟨?_, rfl⟩
  have e : (u.setChunk { s.chunk with rsig := g }).setChunk s.chunk = u := by
    rw [← h.chunk]; rfl
  rwa [e]
theorem State.ReadsOn.trans {u : State} {g g' : Vec} (h : s.ReadsOn t g) (h' : t.ReadsOn u g') : s.ReadsOn u g' := by
  obtain ⟨ha, hc⟩ := h
  obtain ⟨ha', hc'⟩ := h'
  exact ⟨ha.trans (ha'.setChunk s.chunk), by rw [hc', hc]⟩
/-- As the statements write such a state. -/
theorem State.ReadsOn.eq {g : Vec} (h : s.ReadsOn t g) : t = (t.setChunk s.chunk).setChunk { s.chunk with rsig := g } := by
  rw [← h.2]; rfl
theorem State.ReadsOn.v {g : Vec} (h : s.ReadsOn t g) (i : Reg) : t.v i = s.v i := h.1.v i
theorem State.ReadsOn.held {g : Vec} (h : s.ReadsOn t g) : t.chunk.held = s.chunk.held := by rw [h.2]
theorem State.ReadsOn.seenByte {g : Vec} (h : s.ReadsOn t g) (a : Nat) : t.core.seenByte a = s.core.seenByte a := h.1.seenByte a
theorem State.ReadsOn.coreAt {g : Vec} (h : s.ReadsOn t g) (d : Nat) : (t.coreAt d).mem = (s.coreAt d).mem ∧ (t.coreAt d).clean = (s.coreAt d).clean := by
  obtain ⟨hm, hk⟩ := t.coreAt_setChunk_mem s.chunk d
  rw [← hm, ← hk, (h.1.2 d).1]
  exact ⟨rfl, rfl⟩
end

/-! ### Pieces of a load in the scratchpads (R79, R127, R228) -/

theorem State.Alike.readsOn_self {s u : State} (h : s.Alike u) : s.ReadsOn u s.chunk.rsig := by
  have e : u.setChunk s.chunk = u := by rw [← h.chunk]; rfl
  exact ⟨by rwa [e], h.chunk⟩
theorem State.ReadsOn.alike {s t : State} (h : s.ReadsOn t s.chunk.rsig) : s.Alike t := by
  have e : t.setChunk s.chunk = t := by rw [show s.chunk = t.chunk from h.2.symm]; rfl
  exact e ▸ h.1
/-- The byte that a load of the open chunk gets at an address of a scratchpad: the last held store's, else that of the private port or of memory. -/
def State.scratchByte (s : State) (a : Nat) : Byte := (forward s.chunk.held a).getD (match place a with
  | .own o => s.core.seenByte o
  | .glob c o => (s.coreAt c).mem.get o
  | _ => 0)
/-- Nothing disturbs a read of these bytes, which lie in one scratchpad. -/
def State.Readable (s : State) (ea n : Nat) : Prop :=
  (s.core.clean = true ∧ ea + n ≤ 0x18000) ∨ ∃ c o, (s.coreAt c).clean = true ∧ ∀ i, i < n → place (ea + i) = .glob c (o + i)
/-- A read signature with the words of an access to a global alias. -/
def noted (g : Vec) (ea n : Nat) : Vec := if isGlob ea then g ||| sigRange ea n else g

theorem place_own {a : Nat} (h : a < 0x18000) : place a = .own a := if_pos h
theorem isGlob_own {a : Nat} (h : a < 0x18000) : isGlob a = false := by rw [isGlob, place_own h]
theorem isGlob_of_place {a c o : Nat} (h : place a = .glob c o) : isGlob a = true := by rw [isGlob, h]
/-- An aligned access to a global alias stays in its scratchpad. -/
theorem place_glob_add {ea c o n i : Nat} (h : place ea = .glob c o) (ha : ea % n = 0) (hn : n ∈ [1, 2, 4, 8, 64]) (hi : i < n) :
    place (ea + i) = .glob c (o + i) := by
  unfold place at h ⊢
  have hcases : n = 1 ∨ n = 2 ∨ n = 4 ∨ n = 8 ∨ n = 64 := by simpa using hn
  by_cases h1 : ea < 0x18000
  · rw [if_pos h1] at h; cases h
  rw [if_neg h1] at h
  by_cases h2 : 0x100000000 ≤ ea ∧ ea < 0x100000000 + 2 ^ 30
  · rw [if_pos h2] at h
    dsimp only at h
    split at h
    · next h3 =>
      obtain ⟨rfl, rfl⟩ := Place.glob.inj h
      have hlt : ea % 2 ^ 17 + i < 0x18000 := by rcases hcases with rfl | rfl | rfl | rfl | rfl <;> omega
      have hhi : ea + i < 0x100000000 + 2 ^ 30 := by omega
      rw [if_neg (by omega), if_pos ⟨by omega, hhi⟩]
      dsimp only
      rw [if_pos (by omega)]
      exact congrArg₂ Place.glob (by omega) (by omega)
    · cases h
  · rw [if_neg h2] at h
    split at h <;> cases h
theorem eq_of_ofBytes {bs cs : List Byte} (hl : bs.length = cs.length) (h : ofBytes bs = ofBytes cs) : bs = cs := by
  rw [← leBytes_ofBytes bs, ← leBytes_ofBytes cs, hl, h]

section
variable {s t : State} {ea n : Nat}

theorem State.scratchByte_own {a : Nat} (h : a < 0x18000) : s.scratchByte a = s.byteSeen a := by rw [State.scratchByte, place_own h, State.byteSeen]
theorem State.scratchByte_glob {a c o : Nat} (h : place a = .glob c o) : s.scratchByte a = (forward s.chunk.held a).getD ((s.coreAt c).mem.get o) := by
  rw [State.scratchByte, h]
theorem State.ReadsOn.scratchByte {g : Vec} (h : s.ReadsOn t g) (a : Nat) : t.scratchByte a = s.scratchByte a := by
  unfold State.scratchByte
  rw [h.held]
  cases place a with
  | own o => dsimp only; rw [show t.core.seenByte o = s.core.seenByte o from h.seenByte o]
  | glob c o => dsimp only; rw [show (t.coreAt c).mem = (s.coreAt c).mem from (h.coreAt c).1]
  | trans => rfl
  | nowhere => rfl
theorem State.ReadsOn.readable {g : Vec} (h : s.ReadsOn t g) (hr : s.Readable ea n) : t.Readable ea n := by
  have hcur : t.cur = s.cur := h.1.cur
  rcases hr with ⟨hc, hle⟩ | ⟨c, o, hc, hp⟩
  · refine .inl ⟨?_, hle⟩
    rw [← State.coreAt_cur] at hc ⊢
    rw [hcur, (h.coreAt s.cur).2, hc]
  · exact .inr ⟨c, o, by rw [(h.coreAt c).2, hc], hp⟩
theorem State.numberSeen_eq (h : ea + n ≤ 0x18000) : s.numberSeen ea n = ofBytes ((List.range n).map fun i => s.scratchByte (ea + i)) := by
  refine congrArg ofBytes (List.map_congr_left fun i hi => (State.scratchByte_own ?_).symm)
  have := List.mem_range.1 hi
  omega
theorem State.numberOver_eq {c o : Nat} (h : ∀ i, i < n → place (ea + i) = .glob c (o + i)) :
    s.numberOver ea ((s.coreAt c).mem.read o n) = ofBytes ((List.range n).map fun i => s.scratchByte (ea + i)) := by
  rw [State.numberOver, Mem.length_read]
  refine congrArg ofBytes (List.map_congr_left fun i hi => ?_)
  rw [State.scratchByte_glob (h i (List.mem_range.1 hi)), Mem.getD_read, if_pos (List.mem_range.1 hi)]
end

section
variable {s : State}

/-- A piece that nothing disturbs is read as it is seen, and its words enter the signature at a global alias. -/
theorem State.readPiece_readable {ea : DWord} {n : Nat} (h : s.Readable ea.toNat n) (hn : 0 < n) : ∃ t, s.ReadsOn t (noted s.chunk.rsig ea.toNat n)
    ∧ s.readPiece ea.toNat n = (t, .ok ((List.range n).map fun i => s.scratchByte (ea.toNat + i))) := by
  rcases h with ⟨hc, hle⟩ | ⟨c, o, hc, hp⟩
  · obtain ⟨u, bs, hu, hl, hb, hr⟩ := State.readPiece_own (n := n) hc (show ea.toNat < 0x18000 by omega)
    rw [State.numberSeen_eq hle] at hb
    refine ⟨u, ?_, ?_⟩
    · rw [noted, isGlob_own (by omega)]
      exact hu.readsOn_self
    · rw [hr, eq_of_ofBytes (by rw [hl, List.length_map, List.length_range]) hb]
  · have hp0 : place ea.toNat = .glob c o := hp 0 hn
    obtain ⟨u, bs, hu, hl, hb, hr⟩ := State.readPiece_glob (n := n) hp0 hc
    rw [State.numberOver_eq hp] at hb
    refine ⟨u.noteRead ea.toNat n, ?_, ?_⟩
    · rw [State.noteRead, noted, isGlob_of_place hp0, if_pos rfl, if_pos rfl, hu.chunk]
      exact hu.readsOn _
    · rw [hr, eq_of_ofBytes (by rw [hl, List.length_map, List.length_range]) hb]
/-- Pieces that nothing disturbs are read one after another. -/
theorem State.readPieces_readable {ps : List (DWord × Nat × Nat)} (h : ∀ p ∈ ps, s.Readable p.1.toNat p.2.2 ∧ 0 < p.2.2) :
    ∃ t, s.ReadsOn t (ps.foldl (fun g p => noted g p.1.toNat p.2.2) s.chunk.rsig)
      ∧ s.readPieces ps = (t, .ok (ps.map fun p => (p.2.1, (List.range p.2.2).map fun i => s.scratchByte (p.1.toNat + i)))) := by
  induction ps generalizing s with
  | nil => exact ⟨s, .refl s, rfl⟩
  | cons p ps ih =>
    obtain ⟨hp, hps⟩ := List.forall_mem_cons.1 h
    obtain ⟨t, ht, hr⟩ := State.readPiece_readable hp.1 hp.2
    obtain ⟨u, hu, hrs⟩ := ih fun q hq => ⟨ht.readable (hps q hq).1, (hps q hq).2⟩
    refine ⟨u, ?_, ?_⟩
    · rw [ht.2] at hu
      exact ht.trans hu
    · rw [State.readPieces, hr]
      dsimp only
      rw [hrs]
      simp only [List.map_cons, ht.scratchByte]
end

end Sys2Proof.Machine

end

/-! # Vector accesses: loads (R126, R127) -/

section

namespace Sys2Proof.Machine

/-! ### Loads of several pieces (R79, R127) -/

section
variable {s : State} {l : LoadWait} {v : Reg} {tv : Option DWord} {ps : List (DWord × Nat × Nat)}

theorem State.load_waits (h : ∃ p ∈ l.pieces, inTrans p.1.toNat = true) : s.load l = .next (s.waitsFor l) := if_pos (List.any_eq_true.2 h)
theorem State.load_again (ht : ∀ p ∈ l.pieces, inTrans p.1.toNat = false) (h : ∃ p ∈ l.pieces, s.busy p.1.toNat p.2.2 = true) : s.load l = .next s := by
  rw [State.load, if_neg (by simpa using ht), if_pos (List.any_eq_true.2 h)]
theorem State.load_free (ht : ∀ p ∈ l.pieces, inTrans p.1.toNat = false) (h : ∀ p ∈ l.pieces, s.busy p.1.toNat p.2.2 = false) :
    s.load l = .next (s.finishLoad l) := by
  rw [State.load, if_neg (by simpa using ht), if_neg (by simpa using h)]

/-- Pieces that are read go into their bytes of the destination, whose other bytes stay. -/
theorem State.finishLoad_lanes {t : State} {f : DWord × Nat × Nat → List Byte} (hr : s.readPieces ps = (t, .ok (ps.map fun p => (p.2.1, f p))))
    (hl : ∀ p ∈ ps, (f p).length = p.2.2) (ha : ps.Pairwise fun a b => a.2.1 + a.2.2 ≤ b.2.1) (hb : ∀ p ∈ ps, p.2.1 + p.2.2 ≤ 64) :
    ∃ x : Vec, s.finishLoad ⟨.lanes, v, tv, ps⟩ = (t.setV v x).retire 2 ∧ (∀ p ∈ ps, ∀ k, k < p.2.2 → vecByte x (p.2.1 + k) = (f p).getD k 0)
      ∧ ∀ k, k < 64 → (∀ p ∈ ps, ¬ (p.2.1 ≤ k ∧ k < p.2.1 + p.2.2)) → vecByte x k = vecByte (t.v v) k := by
  have hpw : (ps.map fun p => (p.2.1, f p)).Pairwise fun a b => a.1 + a.2.length ≤ b.1 :=
    List.pairwise_map.2 (List.Pairwise.imp_of_mem (fun {a b} ha _ h => by rw [hl a ha]; exact h) ha)
  have hbd : ∀ q ∈ ps.map fun p => (p.2.1, f p), q.1 + q.2.length ≤ 64 := by
    intro q hq
    obtain ⟨p, hp, rfl⟩ := List.mem_map.1 hq
    rw [hl p hp]
    exact hb p hp
  obtain ⟨hin, hout⟩ := vecByte_foldl_putBytes hpw hbd (t.v v)
  refine ⟨(ps.map fun p => (p.2.1, f p)).foldl (fun v p => putBytes v p.1 p.2) (t.v v), ?_, fun p hp k hk => ?_, fun k h64 hk => ?_⟩
  · rw [State.finishLoad, hr]
    rfl
  · exact hin _ (List.mem_map_of_mem hp) k (by rw [hl p hp]; exact hk)
  · refine hout k h64 fun q hq => ?_
    obtain ⟨p, hp, rfl⟩ := List.mem_map.1 hq
    rw [hl p hp]
    exact hk p hp

/-- Pieces in the scratchpads that nothing disturbs: each gives the bytes that are seen. -/
theorem State.finishLoad_readable (h : ∀ p ∈ ps, s.Readable p.1.toNat p.2.2 ∧ 0 < p.2.2) (ha : ps.Pairwise fun a b => a.2.1 + a.2.2 ≤ b.2.1)
    (hb : ∀ p ∈ ps, p.2.1 + p.2.2 ≤ 64) : ∃ (t : State) (x : Vec), s.ReadsOn t (ps.foldl (fun g p => noted g p.1.toNat p.2.2) s.chunk.rsig)
      ∧ s.finishLoad ⟨.lanes, v, tv, ps⟩ = (t.setV v x).retire 2
      ∧ (∀ p ∈ ps, ∀ k, k < p.2.2 → vecByte x (p.2.1 + k) = s.scratchByte (p.1.toNat + k))
      ∧ ∀ k, k < 64 → (∀ p ∈ ps, ¬ (p.2.1 ≤ k ∧ k < p.2.1 + p.2.2)) → vecByte x k = vecByte (s.v v) k := by
  obtain ⟨t, ht, hr⟩ := State.readPieces_readable h
  obtain ⟨x, he, hin, hout⟩ := State.finishLoad_lanes (v := v) (tv := tv) hr (fun _ _ => by rw [List.length_map, List.length_range]) ha hb
  refine ⟨t, x, ht, he, fun p hp k hk => ?_, fun k h64 hk => ?_⟩
  · rw [hin p hp k hk, getD_map_range _ _ hk]
  · rw [hout k h64 hk, ht.v]
end

/-! ### The words of a vld or vst (R126, R127) -/

section
variable {ea : DWord} {on : List Nat}

theorem mem_wordPieces {q : DWord × Nat × Nat} : q ∈ wordPieces ea on ↔ ∃ k < 8,
    (2 * k ∈ on ∧ q = (ea + BitVec.ofNat 64 (8 * k), 8 * k, if 2 * k + 1 ∈ on then 8 else 4))
      ∨ (2 * k ∉ on ∧ 2 * k + 1 ∈ on ∧ q = (ea + BitVec.ofNat 64 (8 * k + 4), 8 * k + 4, 4)) := by
  rw [wordPieces, List.mem_filterMap]
  simp only [List.mem_range, List.contains_iff_mem]
  refine exists_congr fun k => and_congr_right fun _ => ?_
  by_cases h0 : 2 * k ∈ on
  · simp [h0, eq_comm]
  · by_cases h1 : 2 * k + 1 ∈ on <;> simp [h0, h1, eq_comm]
theorem wordPieces_address {q : DWord × Nat × Nat} (h : q ∈ wordPieces ea on) : q.1 = ea + BitVec.ofNat 64 q.2.1 := by
  obtain ⟨k, -, ⟨-, rfl⟩ | ⟨-, -, rfl⟩⟩ := mem_wordPieces.1 h <;> rfl
/-- A piece lies in one word. -/
theorem wordPieces_word {q : DWord × Nat × Nat} (h : q ∈ wordPieces ea on) : q.2.1 < 64 ∧ q.2.1 % 8 + q.2.2 ≤ 8 ∧ 0 < q.2.2 := by
  obtain ⟨k, hk, ⟨-, rfl⟩ | ⟨-, -, rfl⟩⟩ := mem_wordPieces.1 h
  · dsimp only
    split <;> omega
  · exact ⟨by dsimp only; omega, by dsimp only; omega, by norm_num⟩
theorem wordPieces_pairwise (ea : DWord) (on : List Nat) : (wordPieces ea on).Pairwise fun a b => a.2.1 + a.2.2 ≤ b.2.1 := by
  rw [wordPieces, List.pairwise_filterMap]
  have word {k : Nat} {q : DWord × Nat × Nat} (h : (if on.contains (2 * k) then some (ea + BitVec.ofNat 64 (8 * k), 8 * k, if on.contains (2 * k + 1) then 8 else 4)
      else if on.contains (2 * k + 1) then some (ea + BitVec.ofNat 64 (8 * k + 4), 8 * k + 4, 4) else none) = some q) : 8 * k ≤ q.2.1 ∧ q.2.1 + q.2.2 ≤ 8 * k + 8 := by
    split at h
    · cases h
      dsimp only
      split <;> omega
    · split at h
      · cases h
        dsimp only
        omega
      · cases h
  refine List.pairwise_lt_range.imp fun {i j} hij a ha b hb => ?_
  obtain ⟨-, h1⟩ := word ha
  obtain ⟨h2, -⟩ := word hb
  omega
/-- The pieces cover the bytes of the active lanes and no others. -/
theorem wordPieces_cover (k : Nat) : (∃ q ∈ wordPieces ea on, q.2.1 ≤ k ∧ k < q.2.1 + q.2.2) ↔ k < 64 ∧ k / 4 ∈ on := by
  refine ⟨fun ⟨q, hq, hlo, hhi⟩ => ?_, fun ⟨h64, hk⟩ => ?_⟩
  · obtain ⟨j, hj, ⟨h0, rfl⟩ | ⟨-, h1, rfl⟩⟩ := mem_wordPieces.1 hq
    · dsimp only at hlo hhi
      by_cases h1 : 2 * j + 1 ∈ on
      · rw [if_pos h1] at hhi
        have : k / 4 = 2 * j ∨ k / 4 = 2 * j + 1 := by omega
        exact ⟨by omega, this.elim (fun e => e ▸ h0) fun e => e ▸ h1⟩
      · rw [if_neg h1] at hhi
        exact ⟨by omega, (show k / 4 = 2 * j by omega) ▸ h0⟩
    · dsimp only at hlo hhi
      exact ⟨by omega, (show k / 4 = 2 * j + 1 by omega) ▸ h1⟩
  · have hj : k / 8 < 8 := by omega
    by_cases h0 : 2 * (k / 8) ∈ on
    · refine ⟨_, mem_wordPieces.2 ⟨k / 8, hj, .inl ⟨h0, rfl⟩⟩, by dsimp only; omega, ?_⟩
      dsimp only
      split
      · omega
      · next h1 =>
        have : k / 4 ≠ 2 * (k / 8) + 1 := fun e => h1 (e ▸ hk)
        omega
    · have he : k / 4 = 2 * (k / 8) + 1 := by
        have : k / 4 ≠ 2 * (k / 8) := fun e => h0 (e ▸ hk)
        omega
      exact ⟨_, mem_wordPieces.2 ⟨k / 8, hj, .inr ⟨h0, he ▸ hk, rfl⟩⟩, by dsimp only; omega, by dsimp only; omega⟩
theorem toNat_add_ofNat {a : Nat} (ha : ea.toNat % 64 = 0) (h : a < 64) : (ea + BitVec.ofNat 64 a).toNat = ea.toNat + a := by
  have := ea.isLt
  rw [BitVec.toNat_add, BitVec.toNat_ofNat]
  omega
theorem wordPieces_toNat {q : DWord × Nat × Nat} (ha : ea.toNat % 64 = 0) (h : q ∈ wordPieces ea on) : q.1.toNat = ea.toNat + q.2.1 := by
  rw [wordPieces_address h, toNat_add_ofNat ha (wordPieces_word h).1]

/-! ### Signatures of words (R228) -/

theorem sigWord_congr {a b : Nat} (h : a / 8 = b / 8) : sigWord a = sigWord b := by
  have e : (a - 0x100000000) / 8 = (b - 0x100000000) / 8 := by omega
  unfold sigWord
  rw [e]
/-- The signature of bytes of one word. -/
theorem sigRange_word {a n : Nat} (h : a % 8 + n ≤ 8) (hn : 0 < n) : sigRange a n = sigWord a := by
  rw [sigRange, if_neg (by omega), show (a + n - 1) / 8 - a / 8 + 1 = 1 by omega]
  exact BitVec.zero_or.trans (sigWord_congr (show 8 * (a / 8 + 0) / 8 = a / 8 by omega))
/-- A piece has an active lane and every active lane is in a piece, with the same word. -/
theorem wordPieces_sig {q : DWord × Nat × Nat} (ha : ea.toNat % 64 = 0) (h : q ∈ wordPieces ea on) : ∃ i ∈ on, i < 16 ∧ sigRange q.1.toNat q.2.2 = sigWord (ea.toNat + 4 * i) := by
  obtain ⟨h64, h8, hpos⟩ := wordPieces_word h
  have hk := (wordPieces_cover (ea := ea) (on := on) q.2.1).1 ⟨q, h, le_refl _, by omega⟩
  refine ⟨q.2.1 / 4, hk.2, by omega, ?_⟩
  rw [wordPieces_address h, toNat_add_ofNat ha h64, sigRange_word (by omega) hpos]
  exact sigWord_congr (by omega)
theorem wordPieces_of_lane {i : Nat} (ha : ea.toNat % 64 = 0) (hi : i ∈ on) (h16 : i < 16) :
    ∃ q ∈ wordPieces ea on, sigRange q.1.toNat q.2.2 = sigWord (ea.toNat + 4 * i) := by
  obtain ⟨q, hq, hlo, hhi⟩ := (wordPieces_cover (ea := ea) (on := on) (4 * i)).2 ⟨by omega, (show 4 * i / 4 = i by omega).symm ▸ hi⟩
  obtain ⟨h64, h8, hpos⟩ := wordPieces_word hq
  refine ⟨q, hq, ?_⟩
  rw [wordPieces_address hq, toNat_add_ofNat ha h64, sigRange_word (by omega) hpos]
  exact sigWord_congr (by omega)
end

/-! ### vld (R126) -/

section
variable {s : State} {base : Pair} {off : BitVec 24} {p : Option Pred} {v : Reg} {m : MReg}

theorem State.mod_of_cause {ea n : Nat} {w : Bool} (h : s.cause ea n w = none) : ea % n = 0 := by
  by_contra hne
  rw [State.cause, if_pos hne] at h
  cases h
theorem exec_vld_load (hp : s.pred p = true) (hm : s.lanesOn m 16 ≠ []) (h : s.cause (s.ea base off).toNat 64 false = none) :
    exec (.vld v base off m p) s = s.load ⟨.lanes, v, some (s.ea base off), wordPieces (s.ea base off) (s.lanesOn m 16)⟩ := by
  show execVld v base off m p s = _
  rw [execVld]
  dsimp only
  rw [if_pos ⟨hp, hm⟩, State.check_eq_cause, h]
theorem mem_lanesOn {n i : Nat} : i ∈ s.lanesOn m n ↔ i < n ∧ (s.m m).getLsbD i = true := by
  rw [State.lanesOn, List.mem_filter, List.mem_range]
theorem State.Readable.part {ea n a k : Nat} (h : s.Readable ea n) (hk : a + k ≤ n) : s.Readable (ea + a) k := by
  rcases h with ⟨hc, hle⟩ | ⟨c, o, hc, hp⟩
  · exact .inl ⟨hc, by omega⟩
  · exact .inr ⟨c, o + a, hc, fun i hi => by rw [Nat.add_assoc, Nat.add_assoc]; exact hp (a + i) (by omega)⟩
/-- The pieces of a vld whose 64 bytes nothing disturbs: its active lanes get the bytes seen, the others stay. -/
theorem State.finishLoad_words {ea : DWord} {tv : Option DWord} (ha : ea.toNat % 64 = 0) (h : s.Readable ea.toNat 64) :
    ∃ (t : State) (x : Vec), s.ReadsOn t ((wordPieces ea (s.lanesOn m 16)).foldl (fun g p => noted g p.1.toNat p.2.2) s.chunk.rsig)
      ∧ s.finishLoad ⟨.lanes, v, tv, wordPieces ea (s.lanesOn m 16)⟩ = (t.setV v x).retire 2
      ∧ ∀ i, i < 16 → lane x 32 i = if (s.m m).getLsbD i then ofBytes ((List.range 4).map fun j => s.scratchByte (ea.toNat + 4 * i + j)) else lane (s.v v) 32 i := by
  have haddr {q : DWord × Nat × Nat} (hq : q ∈ wordPieces ea (s.lanesOn m 16)) := wordPieces_toNat ha hq
  obtain ⟨t, x, ht, he, hin, hout⟩ := State.finishLoad_readable (s := s) (v := v) (tv := tv) (ps := wordPieces ea (s.lanesOn m 16))
    (fun q hq => ⟨haddr hq ▸ h.part (by have := wordPieces_word hq; omega), (wordPieces_word hq).2.2⟩) (wordPieces_pairwise ..)
    (fun q hq => by have := wordPieces_word hq; omega)
  refine ⟨t, x, ht, he, fun i hi => lane_of_bytes (n := 4) (by omega) fun j hj => ?_⟩
  have hk := wordPieces_cover (ea := ea) (on := s.lanesOn m 16) (4 * i + j)
  rw [mem_lanesOn, show (4 * i + j) / 4 = i by omega] at hk
  split
  · next hon =>
    obtain ⟨q, hq, hlo, hhi⟩ := hk.2 ⟨by omega, hi, hon⟩
    have hb := hin q hq (4 * i + j - q.2.1) (by omega)
    rw [show q.2.1 + (4 * i + j - q.2.1) = 4 * i + j by omega, haddr hq] at hb
    rw [hb]
    congr 1
    omega
  · next hoff => exact hout _ (by omega) fun q hq hc => hoff (hk.1 ⟨q, hq, hc⟩).2.2

/-- In the running context's scratchpad. -/
theorem State.readable_own {ea : DWord} {n : Nat} (hc : s.core.clean = true) (h : s.Own ea n) (hn : n ∈ [1, 2, 4, 8, 64]) : s.Readable ea.toNat n := by
  obtain ⟨ha, hlt, -, -⟩ := h
  refine .inl ⟨hc, ?_⟩
  have : n = 1 ∨ n = 2 ∨ n = 4 ∨ n = 8 ∨ n = 64 := by simpa using hn
  rcases this with rfl | rfl | rfl | rfl | rfl <;> omega
theorem State.readable_glob {ea c o n : Nat} (hp : place ea = .glob c o) (hc : (s.coreAt c).clean = true) (ha : ea % n = 0) (hn : n ∈ [1, 2, 4, 8, 64]) :
    s.Readable ea n := .inr ⟨c, o, hc, fun _ hi => place_glob_add hp ha hn hi⟩
theorem inTrans_own {a : Nat} (h : a < 0x18000) : inTrans a = false := by simp [inTrans]; omega

theorem foldl_noted_own {α : Type} (a n : α → Nat) {ps : List α} (h : ∀ p ∈ ps, isGlob (a p) = false) (g : Vec) :
    ps.foldl (fun g p => noted g (a p) (n p)) g = g := by
  induction ps generalizing g with
  | nil => rfl
  | cons p ps ih =>
    obtain ⟨hp, hps⟩ := List.forall_mem_cons.1 h
    rw [List.foldl_cons, show noted g (a p) (n p) = g by rw [noted, hp]; rfl]
    exact ih hps g
theorem foldl_noted_glob {α : Type} (a n : α → Nat) {ps : List α} (h : ∀ p ∈ ps, isGlob (a p) = true) (g : Vec) :
    ps.foldl (fun g p => noted g (a p) (n p)) g = ps.foldl (fun g p => g ||| sigRange (a p) (n p)) g := by
  induction ps generalizing g with
  | nil => rfl
  | cons p ps ih =>
    obtain ⟨hp, hps⟩ := List.forall_mem_cons.1 h
    rw [List.foldl_cons, List.foldl_cons, show noted g (a p) (n p) = g ||| sigRange (a p) (n p) by rw [noted, hp]; rfl]
    exact ih hps _
/-- Signatures made of the same words are equal. -/
theorem foldl_or_congr {α β : Type} {w : Nat} {f : α → BitVec w} {g : β → BitVec w} {l : List α} {k : List β} (h1 : ∀ a ∈ l, ∃ b ∈ k, f a = g b)
    (h2 : ∀ b ∈ k, ∃ a ∈ l, f a = g b) (x : BitVec w) : l.foldl (fun x a => x ||| f a) x = k.foldl (fun x b => x ||| g b) x := by
  refine BitVec.eq_of_getLsbD_eq fun j _ => Bool.eq_iff_iff.2 ?_
  have hl := getLsbD_foldl_or (fun _ => true) f l x j
  have hk := getLsbD_foldl_or (fun _ => true) g k x j
  simp only [if_true, true_and] at hl hk
  rw [hl, hk]
  refine or_congr_right ⟨fun ⟨a, ha, hb⟩ => ?_, fun ⟨b, hb, hj⟩ => ?_⟩
  · obtain ⟨b, hbk, e⟩ := h1 a ha
    exact ⟨b, hbk, e ▸ hb⟩
  · obtain ⟨a, hal, e⟩ := h2 b hb
    exact ⟨a, hal, e.symm ▸ hj⟩
theorem State.busy_congr {a b n k : Nat} (hg : isGlob a = isGlob b) (hs : sigRange a n = sigRange b k) : s.busy a n = s.busy b k := by
  rw [State.busy, State.busy, hg, hs]

theorem exec_vld_own (hp : s.pred p = true) (hm : s.lanesOn m 16 ≠ []) (hc : s.core.clean = true) (ho : s.Own (s.ea base off) 64) :
    ∃ (u : State) (x : Vec), s.Alike u ∧ exec (.vld v base off m p) s = .next ((u.setV v x).retire 2)
      ∧ ∀ i, i < 16 → lane x 32 i = if (s.m m).getLsbD i then s.numberSeen ((s.ea base off).toNat + 4 * i) 4 else lane (s.v v) 32 i := by
  have ha := ho.1
  have hlt := ho.2.1
  have hown {q : DWord × Nat × Nat} (hq : q ∈ wordPieces (s.ea base off) (s.lanesOn m 16)) : q.1.toNat < 0x18000 := by
    have := wordPieces_word hq
    rw [wordPieces_toNat ha hq]
    omega
  obtain ⟨t, x, ht, he, hx⟩ := State.finishLoad_words (m := m) (v := v) (tv := some (s.ea base off)) ha (State.readable_own hc ho (by simp))
  rw [foldl_noted_own (fun q : DWord × Nat × Nat => q.1.toNat) (fun q => q.2.2) (fun q hq => isGlob_own (hown hq))] at ht
  refine ⟨t, x, ht.alike, ?_, fun i hi => ?_⟩
  · rw [exec_vld_load hp hm (State.cause_of_own ho false), State.load_free (fun q hq => inTrans_own (hown hq))
      (fun q hq => State.busy_of_not_isGlob (isGlob_own (hown hq))), he]
  · rw [hx i hi, State.numberSeen_eq (by omega)]

section
variable {c o : Nat} (hp : s.pred p = true) (hm : s.lanesOn m 16 ≠ []) (hg : place (s.ea base off).toNat = .glob c o)
  (h : s.cause (s.ea base off).toNat 64 false = none)
include hg h

/-- The pieces of a vld at a global alias lie in one scratchpad. -/
theorem wordPieces_place {q : DWord × Nat × Nat} (hq : q ∈ wordPieces (s.ea base off) (s.lanesOn m 16)) : place q.1.toNat = .glob c (o + q.2.1) := by
  rw [wordPieces_toNat (State.mod_of_cause h) hq]
  exact place_glob_add hg (State.mod_of_cause h) (by simp) (wordPieces_word hq).1
/-- A piece is held up where an active lane of it is. -/
theorem wordPieces_busy {q : DWord × Nat × Nat} {i : Nat} (hq : q ∈ wordPieces (s.ea base off) (s.lanesOn m 16)) (hi : i < 16)
    (e : sigRange q.1.toNat q.2.2 = sigWord ((s.ea base off).toNat + 4 * i)) : s.busy q.1.toNat q.2.2 = s.busy ((s.ea base off).toNat + 4 * i) 4 := by
  have ha := State.mod_of_cause h
  refine State.busy_congr ?_ ?_
  · rw [isGlob_of_place (wordPieces_place hg h hq), isGlob_of_place (place_glob_add hg ha (by simp) (show 4 * i < 64 by omega))]
  · rw [e, sigRange_word (by omega) (by norm_num)]
include hp hm
theorem exec_vld_busy (hb : ∃ i ∈ s.lanesOn m 16, s.busy ((s.ea base off).toNat + 4 * i) 4 = true) : exec (.vld v base off m p) s = .next s := by
  obtain ⟨i, hi, hb⟩ := hb
  have h16 := (mem_lanesOn.1 hi).1
  obtain ⟨q, hq, e⟩ := wordPieces_of_lane (State.mod_of_cause h) hi h16
  rw [exec_vld_load hp hm h, State.load_again (fun q hq => inTrans_of_place_glob (wordPieces_place hg h hq))]
  exact ⟨q, hq, by rw [wordPieces_busy hg h hq h16 e, hb]⟩
theorem exec_vld_glob (hc : (s.coreAt c).clean = true) (hb : ∀ i ∈ s.lanesOn m 16, s.busy ((s.ea base off).toNat + 4 * i) 4 = false) :
    ∃ (u : State) (x : Vec), s.Alike u ∧ exec (.vld v base off m p) s = .next (((u.setChunk { s.chunk with
        rsig := (s.lanesOn m 16).foldl (fun a i => a ||| sigWord ((s.ea base off).toNat + 4 * i)) s.chunk.rsig }).setV v x).retire 2)
      ∧ ∀ i, i < 16 → lane x 32 i = if (s.m m).getLsbD i then s.numberOver ((s.ea base off).toNat + 4 * i) ((s.coreAt c).mem.read (o + 4 * i) 4)
        else lane (s.v v) 32 i := by
  have ha := State.mod_of_cause h
  have hplace {q : DWord × Nat × Nat} (hq : q ∈ wordPieces (s.ea base off) (s.lanesOn m 16)) := wordPieces_place hg h hq
  obtain ⟨t, x, ht, he, hx⟩ := State.finishLoad_words (m := m) (v := v) (tv := some (s.ea base off)) ha (State.readable_glob hg hc ha (by simp))
  rw [foldl_noted_glob (fun q : DWord × Nat × Nat => q.1.toNat) (fun q => q.2.2) (fun q hq => isGlob_of_place (hplace hq)),
    foldl_or_congr (g := fun i => sigWord ((s.ea base off).toNat + 4 * i)) (k := s.lanesOn m 16)
      (fun q hq => (wordPieces_sig ha hq).imp fun i hi => ⟨hi.1, hi.2.2⟩) (fun i hi => wordPieces_of_lane ha hi (mem_lanesOn.1 hi).1)] at ht
  refine ⟨t.setChunk s.chunk, x, ht.1, ?_, fun i hi => ?_⟩
  · rw [exec_vld_load hp hm h, State.load_free (fun q hq => inTrans_of_place_glob (hplace hq)) (fun q hq => ?_), he]
    · rw [← ht.eq]
    · obtain ⟨i, hi, h16, e⟩ := wordPieces_sig ha hq
      rw [wordPieces_busy hg h hq h16 e, hb i hi]
  · rw [hx i hi, State.numberOver_eq fun j hj => ?_]
    rw [Nat.add_assoc, Nat.add_assoc]
    exact place_glob_add hg ha (by simp) (by omega)
end
end

end Sys2Proof.Machine

end

/-! # Vector accesses: broadcasts, gathers, stores and returns (R126, R127) -/

section

namespace Sys2Proof.Machine

section
variable {s : State} {base : Pair} {off : BitVec 24} {p : Option Pred} {v : Reg} {m : MReg}

/-- At translated addresses a vld waits, its pieces covering the bytes of its active lanes. -/
theorem exec_vld_trans (hp : s.pred p = true) (hm : s.lanesOn m 16 ≠ []) (ht : inTrans (s.ea base off).toNat = true)
    (h : s.cause (s.ea base off).toNat 64 false = none) :
    exec (.vld v base off m p) s = .next (s.waitsFor ⟨.lanes, v, some (s.ea base off), wordPieces (s.ea base off) (s.lanesOn m 16)⟩) := by
  have ha := State.mod_of_cause h
  obtain ⟨i, hi⟩ := List.exists_mem_of_ne_nil _ hm
  obtain ⟨q, hq, -⟩ := wordPieces_of_lane ha hi (mem_lanesOn.1 hi).1
  rw [exec_vld_load hp hm h]
  refine State.load_waits ⟨q, hq, ?_⟩
  have := wordPieces_word hq
  rw [inTrans_iff] at ht ⊢
  rw [wordPieces_toNat ha hq]
  omega

/-! ### vldbc (R126) -/

/-- A number in every active lane of a register. -/
def bcastLanes (old : Vec) (n : Nat) (mk : DWord) (x : Nat) : Vec := mergeLanes old (8 * n) (64 / n) mk fun _ => x
theorem lane_bcastLanes {n x i : Nat} (old : Vec) (mk : DWord) (hx : x < 256 ^ n) (hi : i < 64 / n) :
    lane (bcastLanes old n mk x) (8 * n) i = if mk.getLsbD i then x else lane old (8 * n) i := by
  have hw : 8 * n * (64 / n) ≤ 512 := by rw [Nat.mul_assoc]; exact Nat.mul_le_mul_left 8 (Nat.mul_div_le 64 n)
  rw [bcastLanes, lane_mergeLanes _ _ _ hw hi, Nat.mod_eq_of_lt (by rwa [Nat.pow_mul])]
theorem State.deliver_bcast (u : State) (n : Nat) (mk : DWord) (ea : DWord) (bs : List Byte) :
    u.deliver (oneLoad (.bcast n mk) v ea n) [(0, bs)] = u.setV v (bcastLanes (u.v v) n mk (ofBytes bs)) := rfl
theorem State.noteRead_v (u : State) (ea n : Nat) (i : Reg) : (u.noteRead ea n).v i = u.v i := by
  unfold State.noteRead
  split <;> rfl
theorem ofBytes_lt_of_length {bs : List Byte} {n : Nat} (h : bs.length = n) : ofBytes bs < 256 ^ n := h ▸ ofBytes_lt bs

section
variable {size : BitVec 2}

theorem exec_vldbc_load (hp : s.pred p = true) (hm : s.lanesOn m (64 / 2 ^ size.toNat) ≠ []) (h : s.cause (s.ea base off).toNat (2 ^ size.toNat) false = none) :
    exec (.vldbc v size base off m p) s = s.load (oneLoad (.bcast (2 ^ size.toNat) (s.m m)) v (s.ea base off) (2 ^ size.toNat)) := by
  show execVldbc v size base off m p s = _
  rw [execVldbc]
  dsimp only
  rw [if_pos ⟨hp, hm⟩, State.check_eq_cause, h]
  rfl
theorem exec_vldbc_own (hp : s.pred p = true) (hm : s.lanesOn m (64 / 2 ^ size.toNat) ≠ []) (hc : s.core.clean = true)
    (ho : s.Own (s.ea base off) (2 ^ size.toNat)) : ∃ u, s.Alike u ∧ exec (.vldbc v size base off m p) s
      = .next ((u.setV v (bcastLanes (s.v v) (2 ^ size.toNat) (s.m m) (s.numberSeen (s.ea base off).toNat (2 ^ size.toNat)))).retire 2) := by
  have hlt := ho.2.1
  obtain ⟨u, bs, hu, -, hb, hr⟩ := State.readPiece_own (n := 2 ^ size.toNat) hc hlt
  refine ⟨u, hu, ?_⟩
  rw [exec_vldbc_load hp hm (State.cause_of_own ho false), State.load_scratch (inTrans_own hlt), State.busy_of_not_isGlob (isGlob_own hlt),
    if_neg Bool.false_ne_true, State.finishLoad_one hr, State.deliver_bcast, hb, hu.v]
theorem exec_vldbc_glob {c o : Nat} (hp : s.pred p = true) (hm : s.lanesOn m (64 / 2 ^ size.toNat) ≠ []) (hg : place (s.ea base off).toNat = .glob c o)
    (hc : (s.coreAt c).clean = true) (h : s.cause (s.ea base off).toNat (2 ^ size.toNat) false = none)
    (hb : s.busy (s.ea base off).toNat (2 ^ size.toNat) = false) :
    ∃ u, s.Alike u ∧ exec (.vldbc v size base off m p) s = .next (((u.noteRead (s.ea base off).toNat (2 ^ size.toNat)).setV v
      (bcastLanes (s.v v) (2 ^ size.toNat) (s.m m) (s.numberOver (s.ea base off).toNat ((s.coreAt c).mem.read o (2 ^ size.toNat))))).retire 2) := by
  obtain ⟨u, bs, hu, -, hn, hr⟩ := State.readPiece_glob (n := 2 ^ size.toNat) hg hc
  refine ⟨u, hu, ?_⟩
  rw [exec_vldbc_load hp hm h, State.load_scratch (inTrans_of_place_glob hg), hb, if_neg Bool.false_ne_true, State.finishLoad_one hr, State.deliver_bcast, hn,
    State.noteRead_v, hu.v]
end

theorem numberSeen_lt (s : State) (a n : Nat) : s.numberSeen a n < 256 ^ n := ofBytes_lt_of_length (by simp)
theorem numberOver_lt (s : State) (a : Nat) {bs : List Byte} {n : Nat} (h : bs.length = n) : s.numberOver a bs < 256 ^ n := ofBytes_lt_of_length (by simp [h])

/-! ### vgath (R126) -/

section
variable {d : Bool} {idx : Reg}

/-- The element size of a gather or scatter. -/
def elemBytes (d : Bool) : Nat := if d then 8 else 4
theorem elemBytes_mem (d : Bool) : elemBytes d ∈ [1, 2, 4, 8, 64] := by cases d <;> decide
theorem elemBytes_pos (d : Bool) : 0 < elemBytes d := by cases d <;> decide
/-- The address of a lane of a gather or scatter. -/
def State.laneAddr (s : State) (d : Bool) (base : Pair) (off : BitVec 24) (idx : Reg) (i : Nat) : DWord :=
  s.ea base off + BitVec.ofInt 64 (sgn (8 * elemBytes d) (lane (s.v idx) (8 * elemBytes d) i))
theorem State.laneAddrs_eq : s.laneAddrs d base off m idx
    = (s.lanesOn m (64 / elemBytes d)).map fun i => (s.laneAddr d base off idx i, elemBytes d * i, elemBytes d) := rfl
theorem State.firstFault_none {w : Bool} (h : ∀ i ∈ s.lanesOn m (64 / elemBytes d), s.cause (s.laneAddr d base off idx i).toNat (elemBytes d) w = none) :
    s.firstFault w (s.laneAddrs d base off m idx) = none := by
  have h' := State.firstFault_append (s := s) (w := w) (l := s.laneAddrs d base off m idx) (k := []) fun q hq => by
    obtain ⟨i, hi, rfl⟩ := List.mem_map.1 hq
    rw [State.check_eq_cause]
    exact h i hi
  rwa [List.append_nil] at h'
theorem State.laneAddrs_ne_nil (hm : s.lanesOn m (64 / elemBytes d) ≠ []) : (s.laneAddrs d base off m idx).isEmpty = false := by
  rw [State.laneAddrs_eq]
  simpa using hm
theorem exec_vgath_load (hm : s.lanesOn m (64 / elemBytes d) ≠ [])
    (h : ∀ i ∈ s.lanesOn m (64 / elemBytes d), s.cause (s.laneAddr d base off idx i).toNat (elemBytes d) false = none) :
    exec (.vgath v d base off m idx) s = s.load ⟨.lanes, v, none, s.laneAddrs d base off m idx⟩ := by
  show execVgath v d base off m idx s = _
  simp only [execVgath, State.laneAddrs_ne_nil hm, State.firstFault_none h, Bool.false_eq_true, if_false]
/-- Bytes of a lane belong to that lane alone. -/
theorem lane_of_byte {n i j k : Nat} (hj : j < n) (hlo : n * k ≤ n * i + j) (hhi : n * i + j < n * k + n) : k = i := by
  have h1 : (n * i + j) / n = i := by rw [Nat.mul_add_div (by omega), Nat.div_eq_of_lt hj, Nat.add_zero]
  have h2 : (n * i + j) / n = k := Nat.div_eq_of_lt_le (by rwa [Nat.mul_comm]) (by rw [Nat.add_mul, Nat.one_mul, Nat.mul_comm k]; exact hhi)
  omega
/-- The lanes of a gather whose addresses nothing disturbs: the active ones get the bytes seen, the others stay. -/
theorem State.finishLoad_gather (h : ∀ i ∈ s.lanesOn m (64 / elemBytes d), s.Readable (s.laneAddr d base off idx i).toNat (elemBytes d)) :
    ∃ (t : State) (x : Vec), s.ReadsOn t ((s.lanesOn m (64 / elemBytes d)).foldl (fun g i => noted g (s.laneAddr d base off idx i).toNat (elemBytes d)) s.chunk.rsig)
      ∧ s.finishLoad ⟨.lanes, v, none, s.laneAddrs d base off m idx⟩ = (t.setV v x).retire 2
      ∧ ∀ i, i < 64 / elemBytes d → lane x (8 * elemBytes d) i = if (s.m m).getLsbD i
        then ofBytes ((List.range (elemBytes d)).map fun j => s.scratchByte ((s.laneAddr d base off idx i).toNat + j)) else lane (s.v v) (8 * elemBytes d) i := by
  have hle {i : Nat} (hi : i < 64 / elemBytes d) : elemBytes d * i + elemBytes d ≤ 64 :=
    (Nat.mul_le_mul_left (elemBytes d) (Nat.succ_le_of_lt hi)).trans (Nat.mul_div_le 64 _)
  have hpw : (s.laneAddrs d base off m idx).Pairwise fun a b => a.2.1 + a.2.2 ≤ b.2.1 := by
    rw [State.laneAddrs_eq, List.pairwise_map]
    exact (List.pairwise_lt_range.filter _).imp fun {i j} hij => Nat.mul_le_mul_left (elemBytes d) (Nat.succ_le_of_lt hij)
  obtain ⟨t, x, ht, he, hin, hout⟩ := State.finishLoad_readable (s := s) (v := v) (tv := none) (ps := s.laneAddrs d base off m idx)
    (fun q hq => by obtain ⟨i, hi, rfl⟩ := List.mem_map.1 hq; exact ⟨h i hi, elemBytes_pos d⟩) hpw
    (fun q hq => by obtain ⟨i, hi, rfl⟩ := List.mem_map.1 hq; exact hle (mem_lanesOn.1 hi).1)
  rw [State.laneAddrs_eq, List.foldl_map] at ht
  refine ⟨t, x, ht, he, fun i hi => lane_of_bytes (hle hi) fun j hj => ?_⟩
  split
  · next hon => exact hin _ (List.mem_map_of_mem (mem_lanesOn.2 ⟨hi, hon⟩)) j hj
  · next hoff =>
    refine hout _ (by have := hle hi; omega) fun q hq hc => ?_
    obtain ⟨k, hk, rfl⟩ := List.mem_map.1 hq
    exact hoff (lane_of_byte hj hc.1 hc.2 ▸ (mem_lanesOn.1 hk).2)

theorem exec_vgath_own (hm : s.lanesOn m (64 / elemBytes d) ≠ []) (hc : s.core.clean = true)
    (ho : ∀ i ∈ s.lanesOn m (64 / elemBytes d), s.Own (s.laneAddr d base off idx i) (elemBytes d)) :
    ∃ (u : State) (x : Vec), s.Alike u ∧ exec (.vgath v d base off m idx) s = .next ((u.setV v x).retire 2)
      ∧ ∀ i, i < 64 / elemBytes d → lane x (8 * elemBytes d) i = if (s.m m).getLsbD i
        then s.numberSeen (s.laneAddr d base off idx i).toNat (elemBytes d) else lane (s.v v) (8 * elemBytes d) i := by
  have hown {q : DWord × Nat × Nat} (hq : q ∈ s.laneAddrs d base off m idx) : q.1.toNat < 0x18000 := by
    obtain ⟨i, hi, rfl⟩ := List.mem_map.1 hq
    exact (ho i hi).2.1
  obtain ⟨t, x, ht, he, hx⟩ := State.finishLoad_gather (v := v) fun i hi => State.readable_own hc (ho i hi) (elemBytes_mem d)
  rw [foldl_noted_own _ (fun _ => elemBytes d) fun i hi => isGlob_own (ho i hi).2.1] at ht
  refine ⟨t, x, ht.alike, ?_, fun i hi => ?_⟩
  · rw [exec_vgath_load hm fun i hi => State.cause_of_own (ho i hi) false, State.load_free (fun q hq => inTrans_own (hown hq))
      (fun q hq => State.busy_of_not_isGlob (isGlob_own (hown hq))), he]
  · rw [hx i hi]
    cases hon : (s.m m).getLsbD i
    · rfl
    · have hi' := ho i (mem_lanesOn.2 ⟨hi, hon⟩)
      rw [State.numberSeen_eq]
      rcases State.readable_own hc hi' (elemBytes_mem d) with ⟨-, h⟩ | ⟨c, o, -, h⟩
      · exact h
      · have h0 := h 0 (elemBytes_pos d)
        rw [Nat.add_zero, place_own hi'.2.1] at h0
        cases h0

section
variable {pl : Nat → Nat × Nat} (hm : s.lanesOn m (64 / elemBytes d) ≠ [])
  (hg : ∀ i ∈ s.lanesOn m (64 / elemBytes d), place (s.laneAddr d base off idx i).toNat = .glob (pl i).1 (pl i).2 ∧ (s.coreAt (pl i).1).clean = true
    ∧ s.cause (s.laneAddr d base off idx i).toNat (elemBytes d) false = none)
include hm hg

theorem exec_vgath_busy (hb : ∃ i ∈ s.lanesOn m (64 / elemBytes d), s.busy (s.laneAddr d base off idx i).toNat (elemBytes d) = true) :
    exec (.vgath v d base off m idx) s = .next s := by
  obtain ⟨i, hi, hb⟩ := hb
  rw [exec_vgath_load hm fun i hi => (hg i hi).2.2, State.load_again]
  · intro q hq
    obtain ⟨j, hj, rfl⟩ := List.mem_map.1 hq
    exact inTrans_of_place_glob (hg j hj).1
  · exact ⟨_, List.mem_map_of_mem hi, hb⟩
theorem exec_vgath_glob (hb : ∀ i ∈ s.lanesOn m (64 / elemBytes d), s.busy (s.laneAddr d base off idx i).toNat (elemBytes d) = false) :
    ∃ (u : State) (x : Vec), s.Alike u ∧ exec (.vgath v d base off m idx) s = .next (((u.setChunk { s.chunk with
        rsig := (s.lanesOn m (64 / elemBytes d)).foldl (fun a i => a ||| sigRange (s.laneAddr d base off idx i).toNat (elemBytes d)) s.chunk.rsig }).setV v x).retire 2)
      ∧ ∀ i, i < 64 / elemBytes d → lane x (8 * elemBytes d) i = if (s.m m).getLsbD i
        then s.numberOver (s.laneAddr d base off idx i).toNat ((s.coreAt (pl i).1).mem.read (pl i).2 (elemBytes d)) else lane (s.v v) (8 * elemBytes d) i := by
  have hmod {i : Nat} (hi : i ∈ s.lanesOn m (64 / elemBytes d)) := State.mod_of_cause (hg i hi).2.2
  obtain ⟨t, x, ht, he, hx⟩ := State.finishLoad_gather (v := v) fun i hi => State.readable_glob (hg i hi).1 (hg i hi).2.1 (hmod hi) (elemBytes_mem d)
  rw [foldl_noted_glob _ (fun _ => elemBytes d) fun i hi => isGlob_of_place (hg i hi).1] at ht
  refine ⟨t.setChunk s.chunk, x, ht.1, ?_, fun i hi => ?_⟩
  · rw [exec_vgath_load hm fun i hi => (hg i hi).2.2, State.load_free, he, ← ht.eq]
    · intro q hq
      obtain ⟨j, hj, rfl⟩ := List.mem_map.1 hq
      exact inTrans_of_place_glob (hg j hj).1
    · intro q hq
      obtain ⟨j, hj, rfl⟩ := List.mem_map.1 hq
      exact hb j hj
  · rw [hx i hi]
    cases hon : (s.m m).getLsbD i
    · rfl
    · have hi' := mem_lanesOn.2 ⟨hi, hon⟩
      rw [State.numberOver_eq fun j hj => place_glob_add (hg i hi').1 (hmod hi') (elemBytes_mem d) hj]
end
theorem exec_vgath_trans (ht : ∃ i ∈ s.lanesOn m (64 / elemBytes d), inTrans (s.laneAddr d base off idx i).toNat = true)
    (h : ∀ i ∈ s.lanesOn m (64 / elemBytes d), s.cause (s.laneAddr d base off idx i).toNat (elemBytes d) false = none) :
    exec (.vgath v d base off m idx) s = .next (s.waitsFor ⟨.lanes, v, none, s.laneAddrs d base off m idx⟩) := by
  obtain ⟨i, hi, ht⟩ := ht
  rw [exec_vgath_load (List.ne_nil_of_mem hi) h]
  exact State.load_waits ⟨_, List.mem_map_of_mem hi, ht⟩

/-! ### Stores (R126, R127) -/

/-- The place in global memory that a store to an address is held with. -/
def State.storeKey (s : State) (a : DWord) : Option Nat := if inTrans a.toNat then (s.xlate s.ctx.vdev a.toNat true).toOption else none
theorem State.storeKey_holdStore (rows : Bool) (ea : DWord) (bs : List Byte) (a : DWord) : (s.holdStore rows ea bs).storeKey a = s.storeKey a := by
  unfold State.holdStore State.noteWrite
  dsimp only
  split <;> rfl
theorem State.foldl_holdStore (rows : Bool) (ws : List (DWord × List Byte)) (s : State) : let t := ws.foldl (fun s w => s.holdStore rows w.1 w.2) s
    t.chunk.held = s.chunk.held ++ ws.map (fun w => Held.store w.1 (s.storeKey w.1) w.2 rows s.pc) ∧ s.SameMemory t := by
  induction ws generalizing s with
  | nil => exact ⟨(List.append_nil _).symm, .of⟩
  | cons w ws ih =>
    obtain ⟨hh, -, hr, -, hm⟩ := s.holdStore_spec rows w.1 w.2
    obtain ⟨hh', hm'⟩ := ih (s.holdStore rows w.1 w.2)
    refine ⟨?_, hm.trans hm'⟩
    have hpc : (s.holdStore rows w.1 w.2).pc = s.pc := congrArg Regs.pc hr
    rw [List.foldl_cons, hh', hh, List.map_cons, hpc]
    simp only [State.storeKey_holdStore, List.append_assoc, List.singleton_append]
    rfl
/-- Stores that fit the store buffer are held in their order, and the instruction completes. -/
theorem State.storeAll_held {rows : Bool} {entries : Nat} {ws : List (DWord × List Byte)} (h : s.chunk.stbuf + entries ≤ 128) :
    ∃ t, s.storeAll rows entries ws = .next t ∧ s.SameMemory t
      ∧ t.chunk.held = s.chunk.held ++ ws.map fun w => Held.store w.1 (s.storeKey w.1) w.2 rows s.pc := by
  obtain ⟨hh, hm⟩ := State.foldl_holdStore rows ws s
  refine ⟨_, if_neg (by omega), ?_, ?_⟩
  · exact (hm.trans .of).trans (State.retire_sameMemory _ 2)
  · rw [← hh, (State.retire_spec _ 2).2.1]
    rfl
theorem State.storeAll_ends {rows : Bool} {entries : Nat} {ws : List (DWord × List Byte)} (h : 128 < s.chunk.stbuf + entries) :
    s.storeAll rows entries ws = .next (s.endChunk .run) := if_pos h
end
end

end Sys2Proof.Machine

end

/-! # Vector accesses: stores and the return of translated loads (R79, R126, R127) -/

section

namespace Sys2Proof.Machine

section
variable {s : State} {base : Pair} {off : BitVec 24} {p : Option Pred} {v : Reg} {m : MReg}

/-! ### vst (R126, R127) -/

/-- A store of a vst from lane `i` on, of `n` bytes. -/
def State.wordStore (s : State) (v : Reg) (ea : DWord) (i n : Nat) : Held :=
  .store (ea + BitVec.ofNat 64 (4 * i)) (s.storeKey (ea + BitVec.ofNat 64 (4 * i))) (leBytes n (lane (s.v v) (8 * n) (i * 4 / n))) true s.pc
/-- The stores of a vst in word `k`. -/
def State.wordStores (s : State) (m : MReg) (v : Reg) (ea : DWord) (k : Nat) : List Held :=
  match (s.m m).getLsbD (2 * k), (s.m m).getLsbD (2 * k + 1) with
  | true, true => [s.wordStore v ea (2 * k) 8]
  | true, false => [s.wordStore v ea (2 * k) 4]
  | false, true => [s.wordStore v ea (2 * k + 1) 4]
  | false, false => []

theorem contains_lanesOn {n i : Nat} (h : i < n) : (s.lanesOn m n).contains i = (s.m m).getLsbD i := by
  rw [Bool.eq_iff_iff, List.contains_iff_mem, mem_lanesOn, and_iff_right h]
/-- The bytes of the lanes that a piece of a vst takes. -/
theorem slice_wordStore (x : Vec) {i n : Nat} (hn : n ∣ 4 * i) (h : 4 * i + n ≤ 64) :
    slice (vecBytes x 64) (4 * i) n = leBytes n (lane x (8 * n) (i * 4 / n)) := by
  have he : n * (i * 4 / n) = 4 * i := by rw [Nat.mul_comm i 4, Nat.mul_div_cancel' hn]
  have hs := slice_vecBytes x (n := n) (i := i * 4 / n) (by rwa [he])
  rwa [he] at hs
/-- What a vst holds of a piece of `n` bytes from lane `i` on. -/
theorem store_piece {ea : DWord} {i n j : Nat} (hj : j = 4 * i) (hn : n ∣ 4 * i) (h : 4 * i + n ≤ 64) :
    Held.store (ea + BitVec.ofNat 64 j) (s.storeKey (ea + BitVec.ofNat 64 j)) (slice (vecBytes (s.v v) 64) j n) true s.pc = s.wordStore v ea i n := by
  rw [hj, slice_wordStore _ hn h]
  rfl
theorem stores_wordPieces (ea : DWord) :
    ((wordPieces ea (s.lanesOn m 16)).map fun q => (q.1, slice (vecBytes (s.v v) 64) q.2.1 q.2.2)).map (fun w => Held.store w.1 (s.storeKey w.1) w.2 true s.pc)
      = (List.range 8).flatMap (s.wordStores m v ea) := by
  rw [List.map_map, wordPieces, List.map_filterMap, List.filterMap_eq_flatMap_toList]
  refine List.flatMap_congr fun k hk => ?_
  have hk := List.mem_range.1 hk
  rw [contains_lanesOn (by omega), contains_lanesOn (by omega), State.wordStores]
  cases h0 : (s.m m).getLsbD (2 * k) <;> cases h1 : (s.m m).getLsbD (2 * k + 1)
  case false.false => rfl
  case false.true => exact congrArg (fun h => [h]) (store_piece (i := 2 * k + 1) (n := 4) (by omega) (by omega) (by omega))
  case true.false => exact congrArg (fun h => [h]) (store_piece (i := 2 * k) (n := 4) (by omega) (by omega) (by omega))
  case true.true => exact congrArg (fun h => [h]) (store_piece (i := 2 * k) (n := 8) (by omega) (by omega) (by omega))
theorem exec_vst_store (hp : s.pred p = true) (hm : s.lanesOn m 16 ≠ []) (h : s.cause (s.ea base off).toNat 64 true = none) :
    exec (.vst v base off m p) s
      = s.storeAll true 8 ((wordPieces (s.ea base off) (s.lanesOn m 16)).map fun q => (q.1, slice (vecBytes (s.v v) 64) q.2.1 q.2.2)) := by
  show execVst v base off m p s = _
  rw [execVst]
  dsimp only
  rw [if_pos ⟨hp, hm⟩, State.check_eq_cause, h]
theorem exec_vst_held (hp : s.pred p = true) (hm : s.lanesOn m 16 ≠ []) (h : s.cause (s.ea base off).toNat 64 true = none) (hb : s.chunk.stbuf + 8 ≤ 128) :
    ∃ t, exec (.vst v base off m p) s = .next t ∧ s.SameMemory t
      ∧ t.chunk.held = s.chunk.held ++ (List.range 8).flatMap (s.wordStores m v (s.ea base off)) := by
  rw [exec_vst_store hp hm h, ← stores_wordPieces]
  exact State.storeAll_held hb

/-! ### vscat (R126, R127) -/

section
variable {d : Bool} {idx : Reg} (hm : s.lanesOn m (64 / elemBytes d) ≠ [])
  (h : ∀ i ∈ s.lanesOn m (64 / elemBytes d), s.cause (s.laneAddr d base off idx i).toNat (elemBytes d) true = none)
include hm h

theorem exec_vscat_store : exec (.vscat v d base off m idx) s
    = s.storeAll false (64 / elemBytes d) ((s.laneAddrs d base off m idx).map fun q => (q.1, slice (vecBytes (s.v v) 64) q.2.1 q.2.2)) := by
  show execVscat v d base off m idx s = _
  have hn : (if d then 8 else 16) = 64 / elemBytes d := by cases d <;> rfl
  simp only [execVscat, State.laneAddrs_ne_nil hm, State.firstFault_none h, Bool.false_eq_true, if_false, hn]
theorem exec_vscat_held (hb : s.chunk.stbuf + 64 / elemBytes d ≤ 128) : ∃ t, exec (.vscat v d base off m idx) s = .next t ∧ s.SameMemory t
    ∧ t.chunk.held = s.chunk.held ++ (s.lanesOn m (64 / elemBytes d)).map fun i =>
      Held.store (s.laneAddr d base off idx i) (s.storeKey (s.laneAddr d base off idx i)) (leBytes (elemBytes d) (lane (s.v v) (8 * elemBytes d) i)) false s.pc := by
  obtain ⟨t, he, hs, hh⟩ := State.storeAll_held (rows := false) (ws := (s.laneAddrs d base off m idx).map fun q => (q.1, slice (vecBytes (s.v v) 64) q.2.1 q.2.2)) hb
  refine ⟨t, (exec_vscat_store hm h).trans he, hs, ?_⟩
  rw [hh, State.laneAddrs_eq, List.map_map, List.map_map]
  refine congrArg _ (List.map_congr_left fun i hi => ?_)
  have hle : elemBytes d * i + elemBytes d ≤ 64 :=
    (Nat.mul_le_mul_left (elemBytes d) (Nat.succ_le_of_lt (mem_lanesOn.1 hi).1)).trans (Nat.mul_div_le 64 _)
  simp only [Function.comp, slice_vecBytes _ hle]
end

/-! ### The return of a translated load (R79, R237) -/

theorem State.readPieces_trans {ps : List (DWord × Nat × Nat)} {data : DWord → List Byte}
    (h : ∀ q ∈ ps, inTrans q.1.toNat = true ∧ s.vread s.ctx.vdev q.1.toNat q.2.2 = .ok (data q.1)) :
    s.readPieces ps = (s, .ok (ps.map fun q => (q.2.1, overlay s.chunk.held q.1.toNat (data q.1)))) := by
  induction ps with
  | nil => rfl
  | cons q ps ih =>
    obtain ⟨⟨ht, hv⟩, hps⟩ := List.forall_mem_cons.1 h
    rw [State.readPieces, State.readPiece_trans ht hv]
    dsimp only
    rw [ih hps]
    rfl
/-- The data of a load come back to the core that runs. -/
theorem exec_translatedLoadReturn_cur {l : LoadWait} (hc : s.cur < 8192) (hs : s.core.status = .answer .load) (hl : s.core.load = some l)
    (h : ∀ q ∈ l.pieces, inTrans q.1.toNat = true ∧ s.dataComes q.1.toNat = true) :
    exec (.translatedLoadReturn s.cur) s = .next (s.resumed.finishLoad l) := by
  show execTranslatedLoadReturn s.cur s = _
  rw [execTranslatedLoadReturn, atCore, if_pos hc, State.goto_cur]
  dsimp only
  have hbusy : (l.pieces.any fun q => s.busy q.1.toNat q.2.2) = false :=
    List.any_eq_false.2 fun q hq => Bool.eq_false_iff.1 (State.busy_of_not_isGlob (isGlob_of_inTrans (h q hq).1))
  have hcomes : (l.pieces.any fun q => !s.dataComes q.1.toNat) = false := List.any_eq_false.2 fun q hq => by simp [(h q hq).2]
  rw [hl, hs]
  dsimp only
  rw [hbusy, hcomes]
  rfl

section
variable {tv : Option DWord} {ps : List (DWord × Nat × Nat)} {data : DWord → List Byte} (hc : s.cur < 8192) (hs : s.core.status = .answer .load)
  (h : ∀ q ∈ ps, inTrans q.1.toNat = true ∧ s.dataComes q.1.toNat = true ∧ s.vread s.ctx.vdev q.1.toNat q.2.2 = .ok (data q.1))
include hc hs h

theorem exec_return_lanes (hl : s.core.load = some ⟨.lanes, v, tv, ps⟩) (hb : ∀ q ∈ ps, q.2.1 + q.2.2 ≤ 64)
    (ha : ps.Pairwise fun a b => a.2.1 + a.2.2 ≤ b.2.1) : ∃ x : Vec, exec (.translatedLoadReturn s.cur) s = .next ((s.resumed.setV v x).retire 2)
      ∧ (∀ q ∈ ps, ∀ k, k < q.2.2 → vecByte x (q.2.1 + k) = (forward s.chunk.held (q.1.toNat + k)).getD ((data q.1).getD k 0))
      ∧ ∀ k, k < 64 → (∀ q ∈ ps, ¬ (q.2.1 ≤ k ∧ k < q.2.1 + q.2.2)) → vecByte x k = vecByte (s.v v) k := by
  have hlen {q : DWord × Nat × Nat} (hq : q ∈ ps) : (data q.1).length = q.2.2 := State.length_of_vread _ (h q hq).2.2
  have hr := State.readPieces_trans (s := s.resumed) (ps := ps) (data := data) fun q hq => ⟨(h q hq).1, by
    rw [State.vread_congr (s := s)]
    exact (h q hq).2.2⟩
  obtain ⟨x, he, hin, hout⟩ := State.finishLoad_lanes (v := v) (tv := tv) hr (fun q hq => by rw [length_overlay, hlen hq]) ha hb
  refine ⟨x, ?_, fun q hq k hk => ?_, hout⟩
  · rw [exec_translatedLoadReturn_cur hc hs hl fun q hq => ⟨(h q hq).1, (h q hq).2.1⟩, he]
  · rw [hin q hq k hk, overlay, getD_map_range _ _ (by rwa [hlen hq])]
    rfl
theorem exec_return_bcast {n : Nat} {mk ea : DWord} (hl : s.core.load = some ⟨.bcast n mk, v, tv, ps⟩) (hps : ps = [(ea, 0, n)]) :
    exec (.translatedLoadReturn s.cur) s = .next ((s.resumed.setV v (bcastLanes (s.v v) n mk (s.numberOver ea.toNat (data ea)))).retire 2) := by
  have hr := State.readPieces_trans (s := s.resumed) (ps := ps) (data := data) fun q hq => ⟨(h q hq).1, by
    rw [State.vread_congr (s := s)]
    exact (h q hq).2.2⟩
  rw [exec_translatedLoadReturn_cur hc hs hl fun q hq => ⟨(h q hq).1, (h q hq).2.1⟩, State.finishLoad]
  dsimp only
  rw [hr, hps]
  rfl
end

end

/-- Settles O34: each access by its pieces, which are read where nothing disturbs them, wait where they are translated, or are held. -/
theorem vectorAccessesMoveTheirLanes : Obligations.VectorAccessesMoveTheirLanes := by
  refine ⟨fun s base off m v idx => ⟨fun p hp hm => ⟨fun hc ho => exec_vld_own hp hm hc ho, fun c o hg hc h => ⟨exec_vld_busy hp hm hg h, exec_vld_glob hp hm hg h hc⟩,
    fun ht h => ?_, fun h => ⟨fun hb => ?_, fun hb => (exec_vst_store hp hm h).trans (State.storeAll_ends hb)⟩⟩, fun p size hp hm => ?_, fun d hm => ?_⟩,
    fun s v tv ps data hc hs h => ⟨fun hl hb ha => ?_, fun n mk ea hn hl hps => ?_⟩⟩
  case refine_1 =>
    refine ⟨_, exec_vld_trans hp hm ht h, fun q hq => wordPieces_address hq, wordPieces_pairwise .., fun k => ?_⟩
    rw [wordPieces_cover, mem_lanesOn]
    exact and_congr_right fun hk => and_iff_right (by omega)
  case refine_2 =>
    exact exec_vst_held hp hm h hb
  case refine_3 =>
    have gets {x i : Nat} (hx : x < 256 ^ 2 ^ size.toNat) := lane_bcastLanes (i := i) (s.v v) (s.m m) hx
    refine ⟨fun hc ho => ?_, fun c o hg hc h => ?_, fun ht h => (exec_vldbc_load hp hm h).trans (State.load_trans ht)⟩
    · obtain ⟨u, hu, he⟩ := exec_vldbc_own (v := v) hp hm hc ho
      exact ⟨u, _, hu, he, fun i => gets (numberSeen_lt ..)⟩
    · split
      · next hb => rw [exec_vldbc_load hp hm h, State.load_scratch (inTrans_of_place_glob hg), if_pos hb]
      · next hb =>
        obtain ⟨u, hu, he⟩ := exec_vldbc_glob (v := v) hp hm hg hc h (Bool.eq_false_iff.2 hb)
        exact ⟨u, _, hu, he, fun i => gets (numberOver_lt _ _ (Mem.length_read ..))⟩
  case refine_4 =>
    exact ⟨exec_vgath_own hm, fun pl hg => ⟨exec_vgath_busy hm hg, exec_vgath_glob hm hg⟩, exec_vgath_trans,
      fun h => ⟨exec_vscat_held hm h, fun hb => (exec_vscat_store hm h).trans (State.storeAll_ends hb)⟩⟩
  case refine_5 =>
    obtain ⟨x, he, hin, hout⟩ := exec_return_lanes hc hs h hl hb ha
    refine ⟨x, he, fun q hq k hk => ?_, fun k h64 hk => ?_⟩
    · rw [← toNat_vecByte, hin q hq k hk]
    · rw [← toNat_vecByte, ← toNat_vecByte, hout k h64 hk]
  case refine_6 =>
    have hq : (ea, 0, n) ∈ ps := hps ▸ List.mem_cons_self ..
    exact ⟨_, exec_return_bcast hc hs h hl hps, fun i => lane_bcastLanes _ _ (numberOver_lt _ _ (State.length_of_vread _ (h _ hq).2.2))⟩

end Sys2Proof.Machine

end
